-- ==== Sys2Proof/Word.lean ====
section
/-! DEFINITION. The words of the part: bytes, identifiers, ranks, digests, tags and the ordered tables in
which every numbered collection of records is kept. -/

namespace Sys2Proof

/-- A byte of a frame, of a fragment or of a host structure; also an element of the byte field (R20). -/
abbrev Byte := BitVec 8

/-- A stripe id, a 48-bit number (R4). -/
abbrev StripeId := BitVec 48

/-- A claim's rank, a 24-bit number (R66). -/
abbrev Rank := BitVec 24

/-- A digest, or a running digest: the 32-bit register of R32. -/
abbrev Digest := BitVec 32

/-- A station's epoch, which wraps from 65,535 to 0 (R36). -/
abbrev Epoch := BitVec 16

/-- A 16-bit tag: a fetch tag (R106) or a request tag (R168). -/
abbrev Tag := BitVec 16

/-- An Ethernet address (R155). -/
abbrev Mac := BitVec 48

/-- Numbered records, in strictly rising order of their numbers; a number that is not listed has no record. -/
abbrev Table (α : Type) := List (Nat × α)

/-- A set of fragment positions, in ascending order and without repeats (R4). -/
abbrev Positions := List Nat

/-- A pair (k, m) of data and parity fragment counts (R1). -/
structure Geometry where
  k : Nat
  m : Nat
  deriving DecidableEq, Repr

/-- The stripe width n = k + m (R1). -/
def Geometry.width (g : Geometry) : Nat := g.k + g.m

end Sys2Proof
end

