-- ==== Sys2Proof/Config.lean ====
section
/-! DEFINITION. What is fixed outside this model: the card's own address, and the free values the specification
leaves open. None has a body, so no statement can lean on a particular value. -/

namespace Sys2Proof

/-- The card's own Ethernet address (R36, R155): fixed by the card, never stated. -/
opaque Config.ownAddress : Mac

/-- What a DRAM byte holds while its contents are undefined (R18, R147): a free value for each event that left
bytes undefined (the first argument) and each offset (the second). DESIGN CHOICE, log 5. -/
opaque Config.undefinedByte : Nat → Nat → Byte

/-- Whether a write that HALT or a reset cut short had reached a byte (R141 case 6, R151): a free value for each
write cut short (the first argument) and each offset (the second). DESIGN CHOICE, log 12. -/
opaque Config.writeReached : Nat → Nat → Bool

/-- How a flag byte of a received frame is read when it is neither 00h nor 01h, the two values its layout
names (R161). DESIGN CHOICE, log 14. -/
opaque Config.flagByte : Byte → Bool

/-- An index moved on by 1, modulo a ring size of 0: a division the manual gives no result for (R164). A free value for
each index. DESIGN CHOICE, log 41. -/
opaque Config.ringNextOfZero : BitVec 32 → BitVec 32

/-- One MiB, the size of a slot (R147, section 0.8 convention 2). -/
def Config.mebibyte : Nat := 1048576

end Sys2Proof
end

