-- ==== Sys2Proof/Syntax.lean ====
section
/-! DEFINITION. The commands of the part: one constructor for each row of spec/opcode_table.json, with the
operands the row's rule gives it. A host command carries the body of its ring entry, a received frame its header
and body, an expiry the entry, lane or context whose timer expired. -/

namespace Sys2Proof

/-- The sizes the DRAM strap can name (R147). -/
inductive DramSize where
  | mib256
  | mib512
  | mib1024
  deriving DecidableEq, Repr

/-- The configuration record of CONFIGURE, field by field as R161 lays it out. -/
structure ConfigRecord where
  ownStation : Byte
  releaseHold : Byte
  startEpoch : Epoch
  etherType : BitVec 16
  interruptEnables : Byte
  /-- For station i its rack, or FFh if it is not a member: 64 entries. -/
  memberMap : List Byte
  /-- For geometry g the pair (k, m), k being 00h if unconfigured: 8 entries. -/
  geometries : List (Byte × Byte)
  beaconPeriod : Byte
  shortCount : Byte
  longCount : Byte
  claimHoldOff : Byte
  claimRepeat : BitVec 16
  replyTimeout : BitVec 16
  tries : Byte
  openerIdleLimit : BitVec 16
  sweepInterval : Byte
  serveReserve : BitVec 16
  deriving DecidableEq, Repr

/-- The body of LOAD (R11, R161). -/
structure LoadRecord where
  stripe : StripeId
  ownIndex : Byte
  geometry : Byte
  length : BitVec 32
  /-- 16 entries, of which the first n are used. -/
  placement : List Byte
  digestPresent : BitVec 16
  /-- 16 entries, of which the first n are used. -/
  digests : List Digest
  deriving DecidableEq, Repr

/-- The registers that are written in SETUP (R163). -/
inductive RingRegister where
  | commandBase
  | commandSize
  | reportBase
  | reportSize
  | statusAddress
  deriving DecidableEq, Repr

/-- What a received frame carries besides its body: its Ethernet destination, source and EtherType, and the header fields
that the receive checks and the owners read (R155, R156, R161). -/
structure FrameHeader where
  destination : Mac
  source : Mac
  etherType : BitVec 16
  sender : Byte
  target : Byte
  epoch : Epoch
  deriving DecidableEq, Repr

/-- A frame as it stands on the wire (R155): its payload is the common header followed by the body. -/
structure WireFrame where
  destination : Mac
  source : Mac
  etherType : BitVec 16
  payload : List Byte
  deriving DecidableEq, Repr

/-- The commands of the part, in the order of spec/opcode_table.json. -/
inductive Instr where
  | powerOnReset (strap : DramSize)
  | functionReset (strap : DramSize)
  | configure (record : ConfigRecord)
  | start
  | halt
  | load (record : LoadRecord)
  | drop (stripe : StripeId) (ownIndex : Byte)
  | staged (tag : Tag) (result : Byte)
  | stored (tag : Tag) (result : Byte)
  | scanRelease (rack : Byte)
  | requeue (stripe : StripeId)
  | clearFlags (mask : Byte)
  | unknownCommandCode (code : Byte)
  | commandPostIndexWrite (value : BitVec 32)
  | reportConsumeIndexWrite (value : BitVec 32)
  | ringRegisterWrite (register : RingRegister) (value : BitVec 64)
  | registerWrite (offset : BitVec 32) (value : BitVec 64)
  | windowRead (offset : Nat) (length : Nat)
  | windowWrite (offset : Nat) (data : List Byte)
  | statusBlockRewrite
  | initDone
  | livenessTimerExpiry (lanesFirst : Bool)
  | peerSilent (station : Nat)
  | peerLost (station : Nat) (lanesFirst : Bool)
  | suspectCountExpiry (rack : Nat)
  | beacon (header : FrameHeader) (rack status contexts : Byte)
  | rackdown (header : FrameHeader) (rack : Byte)
  | claim (header : FrameHeader) (stripe : StripeId) (rank : Rank) (flags : Byte) (lostMask : BitVec 16)
  | withdraw (header : FrameHeader) (stripe : StripeId) (reason winner : Byte) (rebuiltMask : BitVec 16)
  | fetchOpen (header : FrameHeader) (stripe : StripeId) (position : Byte) (tag : Tag)
  | pull (header : FrameHeader) (tag : Tag) (chunk : Byte)
  | release (header : FrameHeader) (tag : Tag)
  | ready (header : FrameHeader) (tag : Tag) (digestPresent : Byte) (length : BitVec 32) (digest : Digest)
  | wait (header : FrameHeader) (tag : Tag) (hint busy : Byte)
  | refuse (header : FrameHeader) (tag : Tag) (reason : Byte)
  | chunk (header : FrameHeader) (tag : Tag) (chunk : Byte) (data : List Byte)
  | frameDrop (frame : WireFrame)
  | frameTransmit
  | heldFrameQueued
  | serveHoldChunkQueued
  | sweepTimerExpiry
  | passStart
  | scanVisit
  | dequeue
  | holdOffExpiry (entry : Nat)
  | repeatTimerExpiry (entry : Nat)
  | yieldTimerExpiry (entry : Nat)
  | admission
  | waitingContextServed
  | fillStart
  | fillDone
  | planJobStart
  | planDone
  | planWaitDeadline (context : Nat)
  | internalOpenerAttach
  | verifyJobStart
  | verifyDone
  | storeRequest (context : Nat)
  | pendingOutcomeComplete (context : Nat)
  | openReplyTimeout (lane : Nat)
  | pullReplyTimeout (lane : Nat) (bank : Nat)
  | waitTimerExpiry (lane : Nat)
  | combineStart
  | combineDone
  | stageRequest
  | openerIdleExpiry (entry : Nat) (station : Nat) (tag : Tag)
  deriving DecidableEq, Repr

end Sys2Proof
end

