-- ==== Sys2Proof/Machine/State.lean ====
section
/-! DEFINITION. The state of the part, block by block as section 0.4 divides it, the queue of commands that wait,
and the machine right after reset. Times are counted in µs of the model's own clock (DESIGN CHOICE, log 1). -/

namespace Sys2Proof.Machine

/-- Who would raise a fault: nobody. The specification lets no command stop the part; a bad access is answered
with zeros and a cause flag (R154), a bad frame is dropped and counted (R156), a bad command entry is refused
with a report (R164). The type is therefore empty. -/
inductive Fault where
  deriving DecidableEq, Repr

/-- A command without a meaning. Safe: it stops the machine where the part would go on. No arm raises it. -/
inductive Refusal where
  /-- Raised by exec for a row whose meaning is not written yet (none now). Safe. -/
  | notModelled (mnemonic : String)
  deriving DecidableEq, Repr

/-! ## Host link (chapter 12) -/

/-- The five states of the part (R162). -/
inductive Phase where
  | setup
  | configured
  | initializing
  | running
  | halted
  deriving DecidableEq, Repr

/-- The cause flags, in the order of the interrupt enable bits (R161, R171). -/
inductive Cause where
  | reports
  | rack
  | warn
  | clash
  | access
  deriving DecidableEq, Repr

/-- The codes with which a command entry is refused (R161). -/
inductive RefusalCode where
  | badState
  | badField
  | exists_
  | full
  | notFound
  | stale
  deriving DecidableEq, Repr

/-- The causes of a REPAIR-ABANDONED report (R102). -/
inductive AbandonCause where
  | noSurvivors
  | planWaitLimit
  | rePlanLimit
  | storeFailed
  deriving DecidableEq, Repr

/-- The reports of the part (R161). -/
inductive Report where
  | stageRequest (tag : Tag) (stripe : StripeId) (position length slot : Nat)
  | storeRequest (tag : Tag) (stripe : StripeId) (position length : Nat) (digest : Digest) (slot : Nat)
  | commandRefused (code : RefusalCode) (ringIndex : BitVec 32)
  | unrecoverable (stripe : StripeId) (lost : Positions)
  | repairAbandoned (cause : AbandonCause) (stripe : StripeId)
  | verifyFail (stripe : StripeId) (failed : Positions)
  | holdingsFull (stripe : StripeId) (position : Nat)
  deriving DecidableEq, Repr

/-- A report in the internal report queue (R169). The mark is set when the request's tag is made void while the
report still waits, so that HALT can find the requests it removes (R167, step 9). -/
structure QueuedReport where
  report : Report
  tagVoid : Bool
  deriving DecidableEq, Repr

/-- The host link (R162, R163, R168 to R171). -/
structure HostLink where
  phase : Phase
  commandBase : BitVec 64
  commandSize : BitVec 32
  reportBase : BitVec 64
  reportSize : BitVec 32
  statusAddress : BitVec 64
  postIndex : BitVec 32
  reportConsume : BitVec 32
  reportProduce : BitVec 32
  /-- The command consume position (R164). -/
  commandConsume : BitVec 32
  /-- The cause flags as the register shows them: bit i is the flag of interrupt enable bit i. -/
  causeFlags : BitVec 8
  /-- The internal report queue, oldest first, with room for 64. -/
  reportQueue : List QueuedReport
  tagCounter : Tag
  /-- The outstanding STAGE tags (R168). -/
  stageTags : List Tag
  /-- The outstanding STORE tags (R168). -/
  storeTags : List Tag
  /-- The status block is marked for rewriting (R170). -/
  statusMarked : Bool
  updateCount : BitVec 32
  /-- MODEL: how many times the interrupt vector has been sent (R171). -/
  interrupts : Nat
  /-- MODEL: the bytes the part has written into host memory (report ring and status block). -/
  hostMemory : Table Byte
  /-- MODEL: the bytes the last window read returned (R154). -/
  windowData : List Byte
  deriving DecidableEq, Repr

/-! ## Peer roster (chapter 3) -/

/-- The states of a peer record (R34). -/
inductive PeerState where
  | absent
  | present
  | silent
  | lost
  | self
  deriving DecidableEq, Repr

/-- A station's status as its last BEACON gave it (R34). -/
inductive PeerStatus where
  | running
  | halted
  deriving DecidableEq, Repr

/-- A configured peer record (R34); an unconfigured record is not listed. -/
structure Peer where
  rack : Nat
  state : PeerState
  missed : Nat
  heard : Bool
  link : Option Mac
  epoch : Option Epoch
  status : Option PeerStatus
  load : Option Nat
  deriving DecidableEq, Repr

/-- The states of a rack (R35). -/
inductive RackState where
  | up
  | suspect
  | down
  deriving DecidableEq, Repr

/-- A rack record (R35). -/
structure Rack where
  /-- The members, in ascending station number. -/
  members : List Nat
  state : RackState
  suspectCount : Nat
  deriving DecidableEq, Repr

/-- The peer roster (R34 to R37). -/
structure Roster where
  peers : Table Peer
  racks : Table Rack
  /-- The own epoch (R36). -/
  ownEpoch : Epoch
  /-- The next expiry of the liveness timer, absent while it is stopped (R37). -/
  livenessDue : Option Nat
  deriving DecidableEq, Repr

/-! ## Holdings table (chapter 1) -/

/-- The standings of a stripe (R6). -/
inductive Standing where
  | quiet
  | queued
  | claiming
  | parked
  | unrecoverable
  deriving DecidableEq, Repr

/-- A claim heard from another station: an outside claim (R7) or the rival of a YIELDED entry (R65). The rank is
absent where it is unknown. -/
structure HeardClaim where
  station : Nat
  rank : Option Rank
  settled : Bool
  heard : Nat
  deriving DecidableEq, Repr

/-- A holding record (R4). -/
structure HoldingRecord where
  stripe : StripeId
  ownIndex : Nat
  geometry : Nat
  length : Nat
  placement : List Nat
  digests : List (Option Digest)
  standing : Standing
  lost : Positions
  outside : Option HeardClaim
  deriving DecidableEq, Repr

/-! ## Scanner (chapter 4) -/

/-- The pass states (R51). -/
inductive PassState where
  | idle
  | held
  | walking
  | blocked
  deriving DecidableEq, Repr

/-- The scanner (R51). A set of racks lists each rack with its held mark. -/
structure Scanner where
  pending : Table Bool
  sweepRequest : Bool
  pass : PassState
  /-- The scanner has been told, since its pass became BLOCKED, that a place has freed in the repair queue or in the
  report path: the visit is to be made again (R61, case 1). -/
  placeFreed : Bool
  triggers : Table Bool
  triggerSweep : Bool
  cursor : Nat
  met : List StripeId
  /-- The next expiry of the sweep timer, absent while it is stopped (R53). -/
  sweepDue : Option Nat
  deriving DecidableEq, Repr

/-! ## Claim table (chapter 5) -/

/-- The state of a claim entry with the fields and the timer that only that state has (R65). -/
inductive ClaimState where
  | contending (holdOffDue : Nat)
  | owned (repeatDue : Nat)
  | yielded (rival : HeardClaim) (timeYielded yieldDue : Nat)
  deriving DecidableEq, Repr

/-- A claim entry in use (R65). -/
structure ClaimEntry where
  stripe : StripeId
  lost : Positions
  rank : Rank
  state : ClaimState
  deriving DecidableEq, Repr

/-- The claim table with its owned list (R65, R84). -/
structure ClaimTable where
  entries : Table ClaimEntry
  /-- The entry numbers of the OWNED entries, in the order in which they became OWNED. -/
  owned : List Nat
  deriving DecidableEq, Repr

/-! ## Context array (chapter 6) -/

/-- The fill state of a lost-list entry (R85). -/
inductive FillState where
  | waiting
  | filling
  | ready
  deriving DecidableEq, Repr

/-- The delivery of a lost-list entry (R85). -/
inductive Delivery where
  | none_
  | requested
  | delivered
  | failed
  deriving DecidableEq, Repr

/-- A lost-list entry (R85). -/
structure LostEntry where
  position : Nat
  enabled : Bool
  slot : Option Nat
  fill : FillState
  digest : Option Digest
  delivery : Delivery
  tag : Option Tag
  deriving DecidableEq, Repr

/-- Where a survivor comes from (R30, R92). -/
inductive Source where
  | unassigned
  | ownHoldings
  | lane (number : Nat)
  deriving DecidableEq, Repr

/-- A survivor of a context (R85). -/
structure Survivor where
  position : Nat
  holder : Nat
  source : Source
  deriving DecidableEq, Repr

/-- The plan-wait deadline (R85). -/
inductive Deadline where
  | absent
  | due (time : Nat)
  | passed
  deriving DecidableEq, Repr

/-- The states of a context (R86). -/
inductive ContextState where
  | admitting
  | planning
  | planWait
  | gathering
  | verifying
  | delivering
  deriving DecidableEq, Repr

/-- An outcome whose report meets a full report path, with its cause (R103). -/
inductive PendingOutcome where
  | abandoned (cause : AbandonCause)
  | verifyFail (failed : Positions)
  deriving DecidableEq, Repr

/-- A context in use (R85); its generation stands in ContextArray.generations. -/
structure Context where
  stripe : StripeId
  geometry : Nat
  length : Nat
  chunkCount : Nat
  lostList : List LostEntry
  survivors : Option (List Survivor)
  unusable : Positions
  plan : Option (List (List Byte))
  /-- One set of survivor indices for each chunk, in ascending order. -/
  contributions : List (List Nat)
  chunksComplete : Nat
  rePlans : Nat
  reservation : List Nat
  deadline : Deadline
  state : ContextState
  pendingOutcome : Option PendingOutcome
  deriving DecidableEq, Repr

/-- The context array: the contexts in use, and the generation of every context number (R85). -/
structure ContextArray where
  contexts : Table Context
  generations : Table (BitVec 8)
  deriving DecidableEq, Repr

/-! ## Plan unit (chapter 2) -/

/-- The plan job in progress: what survivor choice took at its start (R26, R27). -/
structure PlanJob where
  context : Nat
  void : Bool
  geometry : Geometry
  survivors : List Survivor
  /-- The positions of the lost list, in its order. -/
  lost : Positions
  deriving DecidableEq, Repr

/-- The plan unit (R26). -/
structure PlanUnit where
  queue : List Nat
  job : Option PlanJob
  deriving DecidableEq, Repr

/-! ## Fetch unit (chapter 7) -/

/-- The reasons of REFUSE (R161). -/
inductive RefuseReason where
  | notHeld
  | halted
  | damaged
  | notOpen
  | badChunk
  deriving DecidableEq, Repr

/-- The causes of a lane's failure (R118). -/
inductive LaneFailure where
  | noReply
  | waitLimit
  | refused (reason : RefuseReason)
  | length
  | damaged
  | reOpenLimit
  | serverLost
  deriving DecidableEq, Repr

/-- The states of a lane given to a survivor, each with the timer that only it has (R106). The reply timeout of
an OPEN is absent until the OPEN is transmitted (R108). -/
inductive LaneState where
  | opening (timeoutDue : Option Nat)
  | openWait (waitDue : Nat)
  | streaming
  | complete
  | failed (cause : LaneFailure)
  deriving DecidableEq, Repr

/-- A receive bank (R106). The sent time is absent until the PULL is transmitted (R112). -/
inductive Bank where
  | empty
  | requested (chunk tries : Nat) (sent : Option Nat)
  | full (chunk : Nat) (data : List Byte)
  deriving DecidableEq, Repr

/-- One use of a lane by a survivor: the fields that have meaning only outside IDLE (R106). -/
structure LaneUse where
  context : Nat
  generation : BitVec 8
  survivor : Nat
  stripe : StripeId
  position : Nat
  server : Nat
  state : LaneState
  /-- The first OPEN of this use has been transmitted (R120). -/
  openSent : Bool
  length : Nat
  digest : Option Digest
  openTries : Nat
  nextConsume : Nat
  nextRequest : Nat
  bank0 : Bank
  bank1 : Bank
  runningDigest : Digest
  waitCount : Nat
  waitBusy : Bool
  reOpens : Nat
  deriving DecidableEq, Repr

/-- A fetch lane (R106). It is IDLE when it has no use. -/
structure Lane where
  /-- The context that holds the lane, or absent for the free pool. -/
  holder : Option Nat
  useCount : BitVec 8
  /-- The combine outstanding mark (R114). -/
  outstanding : Bool
  use : Option LaneUse
  deriving DecidableEq, Repr

/-! ## Serve unit (chapter 8) -/

/-- How an internal opener has ended (R133, R134). -/
inductive OpenerEnd where
  | open_
  | fed
  | failed
  deriving DecidableEq, Repr

/-- An internal opener (R132). -/
structure InternalOpener where
  context : Nat
  generation : BitVec 8
  stripe : StripeId
  position : Nat
  nextChunk : Nat
  runningDigest : Digest
  ended : OpenerEnd
  deriving DecidableEq, Repr

/-- An opener of a serve entry (R122). -/
inductive Opener where
  | remote (station : Nat) (tag : Tag) (epoch : Option Epoch) (lastActivity : Nat)
  | internal (opener : InternalOpener)
  deriving DecidableEq, Repr

/-- The failure causes of a serve entry (R122). -/
inductive ServeFailure where
  | hostFailed
  | dropped
  deriving DecidableEq, Repr

/-- The states of a serve entry (R122). -/
inductive ServeState where
  | staging
  | staged
  | failed (cause : ServeFailure)
  deriving DecidableEq, Repr

/-- A serve entry in use (R122); its queued chunks are counted in its slot's record (R147). -/
structure ServeEntry where
  stripe : StripeId
  position : Nat
  length : Nat
  slot : Nat
  state : ServeState
  /-- Set when the STAGE request has been posted. -/
  requested : Bool
  tag : Option Tag
  openers : List Opener
  lastUse : Nat
  deriving DecidableEq, Repr

/-- A CHUNK frame that is held or queued; its bytes are read from the slot when it is transmitted (R127). -/
structure ChunkFrame where
  target : Nat
  epoch : Epoch
  tag : Tag
  chunk : Nat
  slot : Nat
  length : Nat
  deriving DecidableEq, Repr

/-- The serve unit (R122, R127, R132, R133). -/
structure ServeUnit where
  entries : Table ServeEntry
  /-- The hold place for one CHUNK (R127). -/
  holdPlace : Option ChunkFrame
  /-- The list of waiting internal openers (R132). -/
  waiting : List InternalOpener
  /-- The context numbers whose combine mark is set (R133). -/
  combineMarks : List Nat
  deriving DecidableEq, Repr

/-! ## Combine engine and verify unit (chapter 9) -/

/-- The source of a combine request (R136). -/
inductive CombineSource where
  | lane (number : Nat) (tag : Tag)
  | internal
  deriving DecidableEq, Repr

/-- A combine request (R136). -/
structure CombineRequest where
  context : Nat
  generation : BitVec 8
  survivor : Nat
  chunk : Nat
  source : CombineSource
  deriving DecidableEq, Repr

/-- The operation in progress, with the copies it took at its start (R138): the operand, and for each enabled
lost-list entry its slot and its coefficient. -/
structure CombineOperation where
  request : CombineRequest
  operand : List Byte
  targets : List (Nat × Byte)
  deriving DecidableEq, Repr

/-- The combine engine (R136, R143). -/
structure CombineEngine where
  queue : List CombineRequest
  operation : Option CombineOperation
  /-- The bandwidth warning is raised. -/
  warning : Bool
  deriving DecidableEq, Repr

/-- A verify job that waits (R144). -/
structure VerifyRequest where
  context : Nat
  generation : BitVec 8
  deriving DecidableEq, Repr

/-- The verify job in progress: the slots it holds and the digests it has computed, by position (R144). -/
structure VerifyJob where
  context : Nat
  generation : BitVec 8
  void : Bool
  slots : List Nat
  digests : List (Nat × Digest)
  deriving DecidableEq, Repr

/-- The verify unit (R144). -/
structure VerifyUnit where
  queue : List VerifyRequest
  job : Option VerifyJob
  deriving DecidableEq, Repr

/-! ## Staging memory controller (chapter 10) -/

/-- What the unlisted bytes of one MiB of the DRAM hold: zeros, undefined bytes under a seed of
Config.undefinedByte, or what a fill with zeros left that was cut short: zeros where it had reached under a seed of
Config.writeReached, and the old background elsewhere. -/
inductive Background where
  | zeros
  | undefined (seed : Nat)
  | cutShort (seed : Nat) (old : Background)
  deriving DecidableEq, Repr

/-- The DRAM (R147): the bytes that are known one by one, and what the others hold, MiB by MiB. An MiB that is
not listed is undefined under the seed of the last power-on. -/
structure Dram where
  cells : Table Byte
  blocks : Table Background
  powerSeed : Nat
  /-- MODEL: the next unused seed of Config.undefinedByte and Config.writeReached. -/
  nextSeed : Nat
  deriving DecidableEq, Repr

/-- The class of a slot that is not FREE (R147). -/
inductive SlotClass where
  | accumulator
  | serve
  deriving DecidableEq, Repr

/-- The owner of a slot (R147). -/
inductive SlotOwner where
  | context (number position : Nat)
  | serveEntry (number : Nat)
  deriving DecidableEq, Repr

/-- The window right of a slot (R147). -/
inductive WindowRight where
  | none_
  | write (tag : Tag)
  | read (tag : Tag)
  deriving DecidableEq, Repr

/-- The record of a slot that is not FREE (R147). Its fills and holds are those of the fill FIFO, the combine
operation and the verify job that name it. -/
structure Slot where
  class_ : SlotClass
  owner : Option SlotOwner
  queuedChunks : Nat
  right : WindowRight
  deriving DecidableEq, Repr

/-- A request for a zero fill (R151). -/
structure FillRequest where
  context : Nat
  generation : BitVec 8
  slot : Nat
  deriving DecidableEq, Repr

/-- The staging memory controller (R147, R151). A slot that is not listed is FREE. -/
structure StagingMemory where
  strap : DramSize
  dram : Dram
  slots : Table Slot
  fillQueue : List FillRequest
  fill : Option FillRequest
  deriving DecidableEq, Repr

/-! ## Segment port (chapter 11) -/

/-- The body of a frame, field by field as R161 lays it out. -/
inductive FrameBody where
  | beacon (rack status contexts : Byte)
  | rackdown (rack : Byte)
  | claim (stripe : StripeId) (rank : Rank) (flags : Byte) (lostMask : BitVec 16)
  | withdraw (stripe : StripeId) (reason winner : Byte) (rebuiltMask : BitVec 16)
  | fetchOpen (stripe : StripeId) (position : Byte) (tag : Tag)
  | ready (tag : Tag) (digestPresent : Byte) (length : BitVec 32) (digest : Digest)
  | wait (tag : Tag) (hint busy : Byte)
  | refuse (tag : Tag) (reason : Byte)
  | pull (tag : Tag) (chunk : Byte)
  | chunk (tag : Tag) (chunk : Byte) (data : List Byte)
  | release (tag : Tag)
  deriving DecidableEq, Repr

/-- A control frame that is queued or held: a broadcast has no target; the epoch is the one it was posted
with (R36, R158). -/
structure ControlFrame where
  target : Option Nat
  epoch : Epoch
  body : FrameBody
  deriving DecidableEq, Repr

/-- The ten drop counts (R156). -/
inductive DropKind where
  | version
  | kind
  | sender
  | target
  | length
  | unheard
  | epoch
  | body
  | clash
  | staleSend
  deriving DecidableEq, Repr

/-- The segment port (R156 to R159). -/
structure SegmentPort where
  /-- The control queue, 64 places of which one is kept for the BEACON. -/
  control : List ControlFrame
  /-- The data queue, 32 places. -/
  data : List ChunkFrame
  /-- The hold list, room for 1,024. -/
  hold : List ControlFrame
  /-- The drop counts, in the order of DropKind. -/
  drops : List (BitVec 32)
  /-- MODEL: the frames the part has transmitted, oldest first. -/
  wire : List WireFrame
  deriving DecidableEq, Repr

/-! ## The whole part -/

/-- Everything the specification gives the part: its fourteen blocks, the configuration in force, and the clock. -/
structure Part where
  /-- MODEL: the time in µs (DESIGN CHOICE, log 1). -/
  now : Nat
  /-- The configuration in force, after clamping, with the geometry table in it (R1, R165). -/
  config : Option ConfigRecord
  hlk : HostLink
  prs : Roster
  /-- The holdings table, by position (R9). -/
  hdt : Table HoldingRecord
  scn : Scanner
  /-- The repair queue, head first (R62). -/
  rq : List StripeId
  /-- The head whose dequeue waits for a report place, which no report place has freed for yet (R61 case 2, R63). -/
  rqWait : Option StripeId
  clt : ClaimTable
  ctx : ContextArray
  plu : PlanUnit
  /-- The fetch lanes, by number (R106). -/
  ftu : Table Lane
  svu : ServeUnit
  cbe : CombineEngine
  vfu : VerifyUnit
  smc : StagingMemory
  sgp : SegmentPort
  deriving DecidableEq, Repr

/-- The state of the machine: the part, and the commands that wait for it, first in first out. -/
structure State where
  pending : List Instr
  part : Part
  deriving DecidableEq, Repr

/-! ## Reset values -/

/-- The host link after a reset (R162). -/
def HostLink.reset : HostLink where
  phase := .setup
  commandBase := 0
  commandSize := 0
  reportBase := 0
  reportSize := 0
  statusAddress := 0
  postIndex := 0
  reportConsume := 0
  reportProduce := 0
  commandConsume := 0
  causeFlags := 0
  reportQueue := []
  tagCounter := 1
  stageTags := []
  storeTags := []
  statusMarked := true
  updateCount := 0
  interrupts := 0
  hostMemory := []
  windowData := []

/-- The roster after a reset: every peer record unconfigured, every rack without members and UP (R34, R35). The suspect
count of a rack is 0 (DESIGN CHOICE, log 4: R35 gives none). -/
def Roster.reset : Roster where
  peers := []
  racks := (List.range 16).map fun r => (r, { members := [], state := .up, suspectCount := 0 })
  ownEpoch := 0
  livenessDue := none

/-- The scanner after a reset (R51). -/
def Scanner.reset : Scanner where
  pending := []
  sweepRequest := false
  pass := .idle
  placeFreed := false
  triggers := []
  triggerSweep := false
  cursor := 0
  met := []
  sweepDue := none

/-- The context array after a reset: every context free with generation 0 (R85). -/
def ContextArray.reset : ContextArray where
  contexts := []
  generations := (List.range 32).map fun c => (c, 0)

/-- A lane after a reset (R107). -/
def Lane.reset : Lane where
  holder := none
  useCount := 0
  outstanding := false
  use := none

/-- The 128 lanes after a reset (R107). -/
def Lane.resetTable : Table Lane := (List.range 128).map fun n => (n, Lane.reset)

/-- The serve unit after a reset (R122, R133). -/
def ServeUnit.reset : ServeUnit where
  entries := []
  holdPlace := none
  waiting := []
  combineMarks := []

/-- The combine engine after a reset (R136, R143). -/
def CombineEngine.reset : CombineEngine where
  queue := []
  operation := none
  warning := false

/-- A DRAM whose contents are undefined under the given seed (R147). -/
def Dram.undefined (seed : Nat) : Dram where
  cells := []
  blocks := []
  powerSeed := seed
  nextSeed := seed + 1

/-- The staging memory controller after a reset with the given strap and DRAM (R147, R151). -/
def StagingMemory.reset (strap : DramSize) (dram : Dram) : StagingMemory where
  strap := strap
  dram := dram
  slots := []
  fillQueue := []
  fill := none

/-- The segment port after a reset (R156, R158, R159). -/
def SegmentPort.reset : SegmentPort where
  control := []
  data := []
  hold := []
  drops := List.replicate 10 0
  wire := []

/-- The part after a reset with the given strap and DRAM. -/
def Part.reset (strap : DramSize) (dram : Dram) : Part where
  now := 0
  config := none
  hlk := HostLink.reset
  prs := Roster.reset
  hdt := []
  scn := Scanner.reset
  rq := []
  rqWait := none
  clt := { entries := [], owned := [] }
  ctx := ContextArray.reset
  plu := { queue := [], job := none }
  ftu := Lane.resetTable
  svu := ServeUnit.reset
  cbe := CombineEngine.reset
  vfu := { queue := [], job := none }
  smc := StagingMemory.reset strap dram
  sgp := SegmentPort.reset

/-- The machine right after power-on reset, with the smallest strap (DESIGN CHOICE, log 4), an undefined DRAM and no command
waiting. -/
def State.reset : State where
  pending := []
  part := Part.reset .mib256 (Dram.undefined 0)

end Sys2Proof.Machine
end

