-- ==== Sys2Proof/Machine/Operands.lean ====
section
/-! DEFINITION. How operands are read and written as bytes: byte orders, position masks, the codes of R161 and the
overlaying of fields that every layout table of section 11.5 describes. -/

namespace Sys2Proof.Machine

/-- A number as n bytes, most significant first: the order of frames (R161). -/
def beBytes (n v : Nat) : List Byte :=
  (List.range n).map fun i => BitVec.ofNat 8 (v / 256 ^ (n - 1 - i))

/-- A number as n bytes, least significant first: the order of the host's structures (R161). -/
def leBytes (n v : Nat) : List Byte :=
  (List.range n).map fun i => BitVec.ofNat 8 (v / 256 ^ i)

/-- The number that bytes stand for, most significant first (R161). -/
def beNat (bytes : List Byte) : Nat := bytes.foldl (fun acc b => acc * 256 + b.toNat) 0

/-- The number that bytes stand for, least significant first (R161). -/
def leNat (bytes : List Byte) : Nat := bytes.foldr (fun b acc => acc * 256 + b.toNat) 0

/-- A byte of a list, 00h beyond its end. -/
def byteAt (bytes : List Byte) (i : Nat) : Byte := (bytes[i]?).getD 0

/-- n bytes of a list from an offset. -/
def bytesAt (bytes : List Byte) (offset n : Nat) : List Byte := (bytes.drop offset).take n

/-- Bytes laid over others at an offset. -/
def overlay (base : List Byte) (offset : Nat) (bytes : List Byte) : List Byte :=
  base.take offset ++ bytes ++ base.drop (offset + bytes.length)

/-- A structure of the given size: the fields at their offsets, and zero in every byte that no field names (R161). -/
def layout (size : Nat) (fields : List (Nat × List Byte)) : List Byte :=
  fields.foldl (fun acc f => overlay acc f.1 f.2) (List.replicate size 0)

/-- A set of positions as a mask in which bit p stands for position p (R161). -/
def maskOf (positions : Positions) : BitVec 16 :=
  positions.foldl (fun mask p => mask ||| (1#16 <<< p)) 0

/-- The positions a mask names, in ascending order (R161). -/
def positionsOf (mask : BitVec 16) : Positions := (List.range 16).filter fun p => mask.getLsbD p

/-- A member added to a set of positions, or of survivor indices, kept in ascending order. -/
def insertPosition (p : Nat) : List Nat → List Nat
  | [] => [p]
  | q :: rest => if p < q then p :: q :: rest else if p = q then q :: rest else q :: insertPosition p rest

/-- How a flag byte of a frame is read: 00h clear, 01h set, any other value a free value (R161, DESIGN CHOICE, log 14). -/
def flagSet (b : Byte) : Bool :=
  if b = 0x00 then false else if b = 0x01 then true else Config.flagByte b

/-- A Bool as the byte 01h or 00h. -/
def flagByteOf (b : Bool) : Byte := if b then 0x01 else 0x00

/-- The fetch tag of a use of a lane: the lane number is the high byte, the use count the low byte (R106). -/
def fetchTag (lane : Nat) (useCount : BitVec 8) : Tag := BitVec.ofNat 16 (lane * 256 + useCount.toNat)

/-- The lane that a fetch tag names (R106). -/
def laneOfTag (tag : Tag) : Nat := tag.toNat / 256

/-! ## Codes (R161) -/

/-- The BEACON status codes. -/
def PeerStatus.code : PeerStatus → Byte
  | .running => 0x01
  | .halted => 0x02

/-- The status a code stands for. -/
def PeerStatus.ofCode? (b : Byte) : Option PeerStatus :=
  if b = 0x01 then some .running else if b = 0x02 then some .halted else none

/-- The REFUSE reason codes. -/
def RefuseReason.code : RefuseReason → Byte
  | .notHeld => 0x01
  | .halted => 0x02
  | .damaged => 0x03
  | .notOpen => 0x04
  | .badChunk => 0x05

/-- The REFUSE reason a code stands for. -/
def RefuseReason.ofCode? (b : Byte) : Option RefuseReason :=
  if b = 0x01 then some .notHeld
  else if b = 0x02 then some .halted
  else if b = 0x03 then some .damaged
  else if b = 0x04 then some .notOpen
  else if b = 0x05 then some .badChunk
  else none

/-- The standing codes. -/
def Standing.code : Standing → Byte
  | .quiet => 0x01
  | .queued => 0x02
  | .claiming => 0x03
  | .parked => 0x04
  | .unrecoverable => 0x05

/-- The refusal codes. -/
def RefusalCode.code : RefusalCode → Byte
  | .badState => 0x01
  | .badField => 0x02
  | .exists_ => 0x03
  | .full => 0x04
  | .notFound => 0x05
  | .stale => 0x06

/-- The cause codes of a REPAIR-ABANDONED report. -/
def AbandonCause.code : AbandonCause → Byte
  | .noSurvivors => 0x01
  | .planWaitLimit => 0x02
  | .rePlanLimit => 0x03
  | .storeFailed => 0x04

/-- The part state codes of the status block. -/
def Phase.code : Phase → Byte
  | .setup => 0x01
  | .configured => 0x02
  | .initializing => 0x03
  | .running => 0x04
  | .halted => 0x05

/-- The rack state codes of the status block. -/
def RackState.code : RackState → Byte
  | .up => 0x01
  | .suspect => 0x02
  | .down => 0x03

/-- The peer state codes of the status block. -/
def PeerState.code : PeerState → Byte
  | .absent => 0x01
  | .present => 0x02
  | .silent => 0x03
  | .lost => 0x04
  | .self => 0x05

/-- The reasons of a WITHDRAW (R161, section 5.7). -/
inductive WithdrawReason where
  | done
  | yield
  | abandoned
  | halt
  | dropped
  | returned
  | unrecoverable
  deriving DecidableEq, Repr

/-- The WITHDRAW reason codes. -/
def WithdrawReason.code : WithdrawReason → Byte
  | .done => 0x01
  | .yield => 0x02
  | .abandoned => 0x03
  | .halt => 0x04
  | .dropped => 0x05
  | .returned => 0x06
  | .unrecoverable => 0x07

/-- The WITHDRAW reason a code stands for. -/
def WithdrawReason.ofCode? (b : Byte) : Option WithdrawReason :=
  if b = 0x01 then some .done
  else if b = 0x02 then some .yield
  else if b = 0x03 then some .abandoned
  else if b = 0x04 then some .halt
  else if b = 0x05 then some .dropped
  else if b = 0x06 then some .returned
  else if b = 0x07 then some .unrecoverable
  else none

/-- The bit of the cause flag register, and of the interrupt enables, that a cause has (R161). -/
def Cause.bit : Cause → Nat
  | .reports => 0
  | .rack => 1
  | .warn => 2
  | .clash => 3
  | .access => 4

/-- The place of a drop count among the ten of the status block (R161). -/
def DropKind.index : DropKind → Nat
  | .version => 0
  | .kind => 1
  | .sender => 2
  | .target => 3
  | .length => 4
  | .unheard => 5
  | .epoch => 6
  | .body => 7
  | .clash => 8
  | .staleSend => 9

end Sys2Proof.Machine
end

