-- ==== Sys2Proof/Machine/Ops.lean ====
section
/-! DEFINITION. The operations every block shares: the ordered tables, the DRAM, the configuration in force, the
clock, the accessors of the roster and of the slots, and the form every meaning has. -/

namespace Sys2Proof

/-! ## Tables -/

/-- The record of a number, if it has one. -/
def Table.row? {α : Type} : Table α → Nat → Option α
  | [], _ => none
  | (i, a) :: rest, k => if i = k then some a else Table.row? rest k

/-- The table with the record of a number written; the order of the numbers is kept. -/
def Table.setRow {α : Type} : Table α → Nat → α → Table α
  | [], k, a => [(k, a)]
  | (i, b) :: rest, k, a =>
    if k < i then (k, a) :: (i, b) :: rest
    else if i = k then (k, a) :: rest
    else (i, b) :: Table.setRow rest k a

/-- The table without the record of a number. -/
def Table.dropRow {α : Type} (t : Table α) (k : Nat) : Table α := t.filter fun r => r.1 != k

/-- The table with the record of a number changed, where it has one. -/
def Table.editRow {α : Type} (t : Table α) (k : Nat) (f : α → α) : Table α :=
  t.map fun r => if r.1 = k then (r.1, f r.2) else r

/-- The numbers that have records, ascending. -/
def Table.numbers {α : Type} (t : Table α) : List Nat := t.map Prod.fst

/-- The numbers rise strictly: the canonical form of a table. -/
def Table.rising {α : Type} (t : Table α) : Bool := decide ((t.map Prod.fst).Pairwise (· < ·))

/-- The lowest number from n on that has no record, in a table whose numbers rise from n. -/
def Table.gapFrom {α : Type} (n : Nat) : Table α → Nat
  | [] => n
  | (i, _) :: rest => if i = n then Table.gapFrom (n + 1) rest else n

/-- The lowest number below a bound that has no record. -/
def Table.lowestFree? {α : Type} (t : Table α) (bound : Nat) : Option Nat :=
  if Table.gapFrom 0 t < bound then some (Table.gapFrom 0 t) else none

/-- The first record, in ascending number, that meets a test. -/
def Table.findRow? {α : Type} (t : Table α) (f : α → Bool) : Option (Nat × α) := t.find? fun r => f r.2

/-- Bytes listed from an address on. -/
def cellsFrom (address : Nat) : List Byte → Table Byte
  | [] => []
  | b :: rest => (address, b) :: cellsFrom (address + 1) rest

/-- A table of bytes with the bytes from an address on replaced. -/
def Table.splice (t : Table Byte) (address length : Nat) (new : Table Byte) : Table Byte :=
  (t.filter fun c => decide (c.1 < address)) ++ new ++ (t.filter fun c => decide (address + length ≤ c.1))

/-! ## Sizes and map entries -/

/-- The slot pool of a DRAM size (R147). -/
def DramSize.pool : DramSize → Nat
  | .mib256 => 224
  | .mib512 => 480
  | .mib1024 => 992

/-- A DRAM size in MiB (R147). -/
def DramSize.mebibytes : DramSize → Nat
  | .mib256 => 256
  | .mib512 => 512
  | .mib1024 => 1024

/-- The rack that the member map gives a station, if it is a member (R34). -/
def ConfigRecord.rackOf? (c : ConfigRecord) (station : Nat) : Option Nat := do
  let r ← c.memberMap[station]?
  if r.toNat ≤ 15 then some r.toNat else none

namespace Machine

/-! ## The DRAM (R147) -/

/-- What the unlisted bytes of the MiB of an offset hold. -/
def Dram.background (d : Dram) (offset : Nat) : Background :=
  (d.blocks.row? (offset / Config.mebibyte)).getD (.undefined d.powerSeed)

/-- The byte that a background gives an offset (DESIGN CHOICE, log 5, log 12). -/
def Background.byte : Background → Nat → Byte
  | .zeros, _ => 0
  | .undefined seed, offset => Config.undefinedByte seed offset
  | .cutShort seed old, offset => if Config.writeReached seed offset then 0 else old.byte offset

/-- The background that a fill with 00h leaves which was cut short under a seed; zeros stay zeros. -/
def Background.cut (seed : Nat) : Background → Background
  | .zeros => .zeros
  | .undefined s => .cutShort seed (.undefined s)
  | .cutShort s old => .cutShort seed (.cutShort s old)

/-- What an unlisted byte reads as, where that is known. -/
def Dram.unlisted? (d : Dram) (offset : Nat) : Option Byte :=
  match d.background offset with
  | .zeros => some 0
  | .undefined _ => none
  | .cutShort _ _ => none

/-- The byte at an offset: the listed one, or the one the background gives (DESIGN CHOICE, log 5). -/
def Dram.byte (d : Dram) (offset : Nat) : Byte := (d.cells.row? offset).getD ((d.background offset).byte offset)

/-- The bytes from an offset on. -/
def Dram.bytes (d : Dram) (offset length : Nat) : List Byte :=
  (List.range length).map fun i => d.byte (offset + i)

/-- Bytes written from an offset on; a byte that an unlisted address would read as anyway is not listed. -/
def Dram.write (d : Dram) (offset : Nat) (bytes : List Byte) : Dram :=
  { d with
    cells := d.cells.splice offset bytes.length
      ((cellsFrom offset bytes).filter fun c => decide (d.unlisted? c.1 ≠ some c.2)) }

/-- A whole MiB given a background, none of its bytes listed. -/
def Dram.setBlock (d : Dram) (block : Nat) (background : Background) : Dram :=
  { d with
    cells := d.cells.filter fun c => decide (c.1 / Config.mebibyte ≠ block)
    blocks := d.blocks.setRow block background }

/-- A whole MiB written with 00h (R148, R151). -/
def Dram.zeroBlock (d : Dram) (block : Nat) : Dram := d.setBlock block .zeros

/-- A whole MiB whose writing with 00h was cut short: each byte is 00h where the write had reached it, a free value, and
as it was elsewhere (R151, DESIGN CHOICE, log 12). -/
def Dram.cutZeroBlock (d : Dram) (block : Nat) : Dram :=
  { d with
    cells := d.cells.filter fun c =>
      !(decide (c.1 / Config.mebibyte = block) && Config.writeReached d.nextSeed c.1)
    blocks := d.blocks.setRow block
      (((d.blocks.row? block).getD (.undefined d.powerSeed)).cut d.nextSeed)
    nextSeed := d.nextSeed + 1 }

/-- Bytes whose writing from an offset on was cut short: each is the new one where the write had reached it, a free
value, and as it was elsewhere (R141 case 6, DESIGN CHOICE, log 12). -/
def Dram.cutWrite (d : Dram) (offset : Nat) (bytes : List Byte) : Dram :=
  { d.write offset (bytes.mapIdx fun i b =>
      if Config.writeReached d.nextSeed (offset + i) then b else d.byte (offset + i)) with
    nextSeed := d.nextSeed + 1 }

/-- The canonical form: every list rises, and no listed byte equals what its address reads as unlisted. -/
def Dram.wf (d : Dram) : Bool :=
  d.cells.rising && d.blocks.rising && d.cells.all fun c => decide (d.unlisted? c.1 ≠ some c.2)

/-- The size of the holdings region in MiB (R147). -/
def holdingsBlocks : Nat := 32

/-- The offset of a slot, which is also its place in the host window (R147, R154). -/
def slotOffset (slot : Nat) : Nat := (holdingsBlocks + slot) * Config.mebibyte

/-- The number of positions of the holdings table (R9). -/
def tablePositions : Nat := 131072

/-! ## Fragments and chunks (R3) -/

/-- The chunk size (R3). -/
def chunkSize : Nat := 8192

/-- The number of chunks of a fragment (R3). -/
def chunkCountOf (length : Nat) : Nat := (length + chunkSize - 1) / chunkSize

/-- The length of chunk c of a fragment (R3). -/
def chunkLength (length c : Nat) : Nat :=
  if c + 1 < chunkCountOf length then chunkSize else length - (chunkCountOf length - 1) * chunkSize

/-! ## The configuration in force (R165) -/

/-- A value of the configuration in force, 0 while none is. -/
def Part.setting (p : Part) (f : ConfigRecord → Nat) : Nat := (p.config.map f).getD 0

/-- The own station (R36). -/
def Part.own (p : Part) : Nat := p.setting fun c => c.ownStation.toNat

/-- An entry of the geometry table: absent while unconfigured (R1). -/
def Part.geometry? (p : Part) (g : Nat) : Option Geometry := do
  let c ← p.config
  let (k, m) ← c.geometries[g]?
  if k.toNat = 0 then none else some { k := k.toNat, m := m.toNat }

/-- The beacon period P in µs (R37). -/
def Part.beaconPeriod (p : Part) : Nat := p.setting fun c => c.beaconPeriod.toNat * 1000

/-- The short count S (R40). -/
def Part.shortCount (p : Part) : Nat := p.setting fun c => c.shortCount.toNat

/-- The long count L (R40). -/
def Part.longCount (p : Part) : Nat := p.setting fun c => c.longCount.toNat

/-- The claim hold-off in µs (R65). -/
def Part.claimHoldOff (p : Part) : Nat := p.setting fun c => c.claimHoldOff.toNat * 1000

/-- The claim repeat interval in µs (R65). -/
def Part.claimRepeat (p : Part) : Nat := p.setting fun c => c.claimRepeat.toNat * 1000

/-- The reply timeout in µs (R108). -/
def Part.replyTimeout (p : Part) : Nat := p.setting fun c => c.replyTimeout.toNat

/-- The tries of an OPEN and of a PULL (R108). -/
def Part.tries (p : Part) : Nat := p.setting fun c => c.tries.toNat

/-- The opener idle limit in µs (R129). -/
def Part.openerIdleLimit (p : Part) : Nat := p.setting fun c => c.openerIdleLimit.toNat * 1000

/-- The sweep interval in µs (R53). -/
def Part.sweepInterval (p : Part) : Nat := p.setting fun c => c.sweepInterval.toNat * 1000000

/-- The serve reserve R (R149). -/
def Part.serveReserve (p : Part) : Nat := p.setting fun c => c.serveReserve.toNat

/-- The release hold of the configuration is set (R52, R161). -/
def Part.releaseHold (p : Part) : Bool := p.setting (fun c => c.releaseHold.toNat) == 1

/-- The part transmits and receives only in these two states (R155). -/
def Part.onSegment (p : Part) : Bool := p.hlk.phase == .running || p.hlk.phase == .halted

/-! ## The clock (DESIGN CHOICE, log 1, log 2) -/

/-- The clock carried to a moment that has come, if it is not there yet (DESIGN CHOICE, log 2). -/
def Part.reach (p : Part) (time : Nat) : Part := { p with now := max p.now time }

/-- The idle part: one µs passes (DESIGN CHOICE, log 1). -/
def Part.tick (p : Part) : Part := { p with now := p.now + 1 }

/-! ## Accessors -/

/-- The peer record of a station, if it is a member (R34). -/
def Part.peer? (p : Part) (station : Nat) : Option Peer := p.prs.peers.row? station

/-- The state of a member station (R34). -/
def Part.peerState? (p : Part) (station : Nat) : Option PeerState := (p.peer? station).map Peer.state

/-- The station is a member whose state is PRESENT or SILENT. -/
def Part.hearable (p : Part) (station : Nat) : Bool :=
  p.peerState? station == some .present || p.peerState? station == some .silent

/-- The station is a member whose state is ABSENT or LOST. -/
def Part.gone (p : Part) (station : Nat) : Bool :=
  p.peerState? station == some .absent || p.peerState? station == some .lost

/-- A peer record changed, where there is one. -/
def Part.editPeer (p : Part) (station : Nat) (f : Peer → Peer) : Part :=
  { p with prs := { p.prs with peers := p.prs.peers.editRow station f } }

/-- A rack record changed. -/
def Part.editRack (p : Part) (rack : Nat) (f : Rack → Rack) : Part :=
  { p with prs := { p.prs with racks := p.prs.racks.editRow rack f } }

/-- The state of a rack (R35). -/
def Part.rackState (p : Part) (rack : Nat) : RackState := ((p.prs.racks.row? rack).map Rack.state).getD .up

/-- The station's configured rack is DOWN (R57). -/
def Part.stationDown (p : Part) (station : Nat) : Bool :=
  match p.peer? station with
  | some q => p.rackState q.rack == .down
  | none => false

/-- A context in use (R85). -/
def Part.context? (p : Part) (c : Nat) : Option Context := p.ctx.contexts.row? c

/-- A context written. -/
def Part.setContext (p : Part) (c : Nat) (x : Context) : Part :=
  { p with ctx := { p.ctx with contexts := p.ctx.contexts.setRow c x } }

/-- A context changed, where it is in use. -/
def Part.editContext (p : Part) (c : Nat) (f : Context → Context) : Part :=
  { p with ctx := { p.ctx with contexts := p.ctx.contexts.editRow c f } }

/-- The generation of a context number (R85). -/
def Part.generation (p : Part) (c : Nat) : BitVec 8 := (p.ctx.generations.row? c).getD 0

/-- The generation of a context number moved on by 1; 255 is followed by 0 (R85). -/
def Part.bumpGeneration (p : Part) (c : Nat) : Part :=
  { p with ctx := { p.ctx with generations := p.ctx.generations.setRow c (p.generation c + 1) } }

/-- The context in use for a stripe, with its number (R65: at most one). -/
def Part.contextOf? (p : Part) (t : StripeId) : Option (Nat × Context) :=
  p.ctx.contexts.findRow? fun x => x.stripe == t

/-- A fetch lane (R106). -/
def Part.lane (p : Part) (n : Nat) : Lane := (p.ftu.row? n).getD Lane.reset

/-- The current use of a lane, absent in IDLE (R106). -/
def Part.laneUse? (p : Part) (n : Nat) : Option LaneUse := (p.lane n).use

/-- A fetch lane changed. -/
def Part.editLane (p : Part) (n : Nat) (f : Lane → Lane) : Part := { p with ftu := p.ftu.editRow n f }

/-- The use of a lane written. -/
def Part.setUse (p : Part) (n : Nat) (u : LaneUse) : Part := p.editLane n fun l => { l with use := some u }

/-- The fetch tag of a lane's current use (R106). -/
def Part.laneTag (p : Part) (n : Nat) : Tag := fetchTag n (p.lane n).useCount

/-- The claim entry of a stripe, with its number (R65: at most one). -/
def Part.claimOf? (p : Part) (t : StripeId) : Option (Nat × ClaimEntry) :=
  p.clt.entries.findRow? fun e => e.stripe == t

/-- A claim entry written. -/
def Part.setClaim (p : Part) (n : Nat) (e : ClaimEntry) : Part :=
  { p with clt := { p.clt with entries := p.clt.entries.setRow n e } }

/-- A serve entry in use (R122). -/
def Part.serve? (p : Part) (n : Nat) : Option ServeEntry := p.svu.entries.row? n

/-- A serve entry written. -/
def Part.setServe (p : Part) (n : Nat) (e : ServeEntry) : Part :=
  { p with svu := { p.svu with entries := p.svu.entries.setRow n e } }

/-- The record of a slot that is not FREE (R147). -/
def Part.slot? (p : Part) (j : Nat) : Option Slot := p.smc.slots.row? j

/-- A slot record written. -/
def Part.setSlot (p : Part) (j : Nat) (r : Slot) : Part :=
  { p with smc := { p.smc with slots := p.smc.slots.setRow j r } }

/-- A slot record changed, where the slot is not FREE. -/
def Part.editSlot (p : Part) (j : Nat) (f : Slot → Slot) : Part :=
  { p with smc := { p.smc with slots := p.smc.slots.editRow j f } }

/-- The DRAM written. -/
def Part.setDram (p : Part) (d : Dram) : Part := { p with smc := { p.smc with dram := d } }

/-- The number of contexts in use (R85). -/
def Part.contextsInUse (p : Part) : Nat := p.ctx.contexts.length

/-- The slot pool of the strap (R147). -/
def Part.pool (p : Part) : Nat := p.smc.strap.pool

/-- The number of slots of a class, releasing slots included (R147). -/
def Part.slotsOf (p : Part) (c : SlotClass) : Nat :=
  (p.smc.slots.filter fun r => r.2.class_ == c).length

/-- The FREE slots, ascending (R147). -/
def Part.freeSlots (p : Part) : List Nat :=
  (List.range p.pool).filter fun j => (p.slot? j).isNone

/-! ## The status block's mark (R170, DEDUCED, log 11) -/

/-- Everything the status block shows but its update count (R170). -/
structure StatusView where
  phase : Phase
  warning : Bool
  ownEpoch : Epoch
  strap : DramSize
  consume : BitVec 32
  produce : BitVec 32
  records : Nat
  queued : Nat
  claims : Nat
  contexts : Nat
  lanes : Nat
  serves : Nat
  freeSlots : Nat
  config : Option ConfigRecord
  drops : List (BitVec 32)
  racks : List RackState
  stations : List (Nat × PeerState × Option PeerStatus × Option Nat)
  deriving DecidableEq, Repr

/-- What the status block shows of the part as it stands. -/
def Part.statusView (p : Part) : StatusView where
  phase := p.hlk.phase
  warning := p.cbe.warning
  ownEpoch := p.prs.ownEpoch
  strap := p.smc.strap
  consume := p.hlk.commandConsume
  produce := p.hlk.reportProduce
  records := p.hdt.length
  queued := p.rq.length
  claims := p.clt.entries.length
  contexts := p.contextsInUse
  lanes := (p.ftu.filter fun l => l.2.holder.isSome).length
  serves := p.svu.entries.length
  freeSlots := p.pool - p.smc.slots.length
  config := p.config
  drops := p.sgp.drops
  racks := p.prs.racks.map fun r => r.2.state
  stations := p.prs.peers.map fun q => (q.1, q.2.state, q.2.status, q.2.load)

/-- The status block marked for rewriting where something it shows has changed (R170, DEDUCED, log 11). -/
def Part.markStatus (before after : Part) : Part :=
  if before.statusView = after.statusView then after
  else { after with hlk := { after.hlk with statusMarked := true } }

/-! ## The form of every meaning -/

/-- A command's effect on the part, with the status block marked where it must be rewritten. The queue of waiting
commands is not the command's to change. -/
def run (s : State) (f : Part → Part) : Host.Outcome State Fault Refusal :=
  .next { s with part := s.part.markStatus (f s.part) }

end Machine
end Sys2Proof
end

