-- ==== Sys2Proof/Machine/Flags.lean ====
section
/-! DEFINITION. The cause flags and the interrupt (R171), the drop counts (R156) and the bandwidth warning's
flag. -/

namespace Sys2Proof.Machine

/-- A cause flag is set. -/
def Part.flag (p : Part) (c : Cause) : Bool := p.hlk.causeFlags.getLsbD c.bit

/-- The interrupt enable of a cause in the configuration in force; clear while none is (R162, R171). -/
def Part.enabled (p : Part) (c : Cause) : Bool :=
  match p.config with
  | some r => r.interruptEnables.getLsbD c.bit
  | none => false

/-- A cause flag set: where it goes from clear to set and its enable is set, the interrupt is sent (R171). -/
def Part.setFlag (p : Part) (c : Cause) : Part :=
  { p with
    hlk := { p.hlk with
      causeFlags := p.hlk.causeFlags ||| (1#8 <<< c.bit)
      interrupts := if !p.flag c && p.enabled c then p.hlk.interrupts + 1 else p.hlk.interrupts } }

/-- The cause flags named in a mask cleared; mask bits above bit 4 name no flag (R171). -/
def Part.clearFlags (p : Part) (mask : Byte) : Part :=
  { p with hlk := { p.hlk with causeFlags := p.hlk.causeFlags &&& ~~~(mask &&& 0x1F#8) } }

/-- A drop count raised by 1, its largest value followed by 0 (R156). -/
def Part.countDrop (p : Part) (k : DropKind) : Part :=
  { p with sgp := { p.sgp with drops := p.sgp.drops.modify k.index (· + 1) } }

/-- A received frame dropped under a count; a clash also sets the CLASH flag (R156, R157). -/
def Part.dropFrame (p : Part) (k : DropKind) : Part :=
  match k with
  | .clash => (p.countDrop .clash).setFlag .clash
  | _ => p.countDrop k

/-- The drop count of a kind (R156). -/
def Part.dropCount (p : Part) (k : DropKind) : BitVec 32 := (p.sgp.drops[k.index]?).getD 0

end Sys2Proof.Machine
end

