-- ==== Sys2Proof/Machine/Frames.lean ====
section
/-! DEFINITION. The frames of the repair segment: their layouts (R160, R161), the reading of a received payload, and
the receive checks (R156). -/

namespace Sys2Proof.Machine

/-! ## Layouts (R160, R161) -/

/-- The kind code of a body (R160). -/
def FrameBody.code : FrameBody → Byte
  | .beacon .. => 0x01
  | .rackdown .. => 0x02
  | .claim .. => 0x03
  | .withdraw .. => 0x04
  | .fetchOpen .. => 0x05
  | .ready .. => 0x06
  | .wait .. => 0x07
  | .refuse .. => 0x08
  | .pull .. => 0x09
  | .chunk .. => 0x0A
  | .release .. => 0x0B

/-- The kinds that are broadcast (R155, R160). -/
def broadcastKind (code : Byte) : Bool := decide (0x01 ≤ code.toNat ∧ code.toNat ≤ 0x04)

/-- The body length of a kind other than CHUNK (R160). -/
def fixedBodyLength? (code : Byte) : Option Nat :=
  match code.toNat with
  | 0x01 => some 4
  | 0x02 => some 4
  | 0x03 => some 12
  | 0x04 => some 12
  | 0x05 => some 12
  | 0x06 => some 12
  | 0x07 => some 4
  | 0x08 => some 4
  | 0x09 => some 4
  | 0x0B => some 4
  | _ => none

/-- The bytes of a body (R161). -/
def FrameBody.bytes : FrameBody → List Byte
  | .beacon rack status contexts => layout 4 [(0, [rack]), (1, [status]), (2, [contexts])]
  | .rackdown rack => layout 4 [(0, [rack])]
  | .claim stripe rank flags lostMask =>
    layout 12 [(0, beBytes 6 stripe.toNat), (6, beBytes 3 rank.toNat), (9, [flags]), (10, beBytes 2 lostMask.toNat)]
  | .withdraw stripe reason winner rebuiltMask =>
    layout 12 [(0, beBytes 6 stripe.toNat), (6, [reason]), (7, [winner]), (8, beBytes 2 rebuiltMask.toNat)]
  | .fetchOpen stripe position tag =>
    layout 12 [(0, beBytes 6 stripe.toNat), (6, [position]), (8, beBytes 2 tag.toNat)]
  | .ready tag digestPresent length digest =>
    layout 12 [(0, beBytes 2 tag.toNat), (2, [digestPresent]), (4, beBytes 4 length.toNat), (8, beBytes 4 digest.toNat)]
  | .wait tag hint busy => layout 4 [(0, beBytes 2 tag.toNat), (2, [hint]), (3, [busy])]
  | .refuse tag reason => layout 4 [(0, beBytes 2 tag.toNat), (2, [reason])]
  | .pull tag c => layout 4 [(0, beBytes 2 tag.toNat), (2, [c])]
  | .chunk tag c data =>
    layout 8 [(0, beBytes 2 tag.toNat), (2, [c]), (4, beBytes 2 data.length)] ++ data
  | .release tag => layout 4 [(0, beBytes 2 tag.toNat)]

/-- The payload of a frame: the 16-byte common header followed by the body (R155, R161). -/
def framePayload (sender target : Byte) (epoch : Epoch) (body : FrameBody) : List Byte :=
  layout 16 [(0, [0x01]), (1, [body.code]), (2, [sender]), (3, [target]), (4, beBytes 2 epoch.toNat),
    (8, beBytes 2 body.bytes.length)] ++ body.bytes

/-- The body that the bytes after the header spell, for a kind code and a body of its required length (R161). -/
def parseBody? (code : Byte) (body : List Byte) : Option FrameBody :=
  let tag : Tag := BitVec.ofNat 16 (beNat (bytesAt body 0 2))
  let stripe : StripeId := BitVec.ofNat 48 (beNat (bytesAt body 0 6))
  match code.toNat with
  | 0x01 => some (.beacon (byteAt body 0) (byteAt body 1) (byteAt body 2))
  | 0x02 => some (.rackdown (byteAt body 0))
  | 0x03 => some (.claim stripe (BitVec.ofNat 24 (beNat (bytesAt body 6 3))) (byteAt body 9)
      (BitVec.ofNat 16 (beNat (bytesAt body 10 2))))
  | 0x04 => some (.withdraw stripe (byteAt body 6) (byteAt body 7) (BitVec.ofNat 16 (beNat (bytesAt body 8 2))))
  | 0x05 => some (.fetchOpen stripe (byteAt body 6) (BitVec.ofNat 16 (beNat (bytesAt body 8 2))))
  | 0x06 => some (.ready tag (byteAt body 2) (BitVec.ofNat 32 (beNat (bytesAt body 4 4)))
      (BitVec.ofNat 32 (beNat (bytesAt body 8 4))))
  | 0x07 => some (.wait tag (byteAt body 2) (byteAt body 3))
  | 0x08 => some (.refuse tag (byteAt body 2))
  | 0x09 => some (.pull tag (byteAt body 2))
  | 0x0A => some (.chunk tag (byteAt body 2) (bytesAt body 8 (beNat (bytesAt body 4 2))))
  | 0x0B => some (.release tag)
  | _ => none

/-- The header of a frame: its Ethernet fields, and those of the common header of its payload (R155, R161). -/
def parseHeader (f : WireFrame) : FrameHeader where
  destination := f.destination
  source := f.source
  etherType := f.etherType
  sender := byteAt f.payload 2
  target := byteAt f.payload 3
  epoch := BitVec.ofNat 16 (beNat (bytesAt f.payload 4 2))

/-! ## The receive checks (R156) -/

/-- The payload of the shortest Ethernet frame; a shorter one arrives padded to it (PRESUMED, log 19). -/
def ethernetMinimum : Nat := 46

/-- Check 1: the length, version, flags and bytes 10 to 15 of the header (R156). -/
def versionOk (payload : List Byte) : Bool :=
  decide (16 ≤ payload.length) && byteAt payload 0 == 0x01 && bytesAt payload 6 2 == [0, 0]
    && bytesAt payload 10 6 == [0, 0, 0, 0, 0, 0]

/-- Check 2: the kind is one of the eleven (R156). -/
def kindOk (payload : List Byte) : Bool := (fixedBodyLength? (byteAt payload 1)).isSome || byteAt payload 1 == 0x0A

/-- Check 6: the body length of the header against the payload, and against the kind (R156). -/
def lengthOk (payload : List Byte) : Bool :=
  let declared := beNat (bytesAt payload 8 2)
  let data := beNat (bytesAt payload 20 2)
  (decide (declared + 16 = payload.length)
      || decide (declared + 16 < ethernetMinimum ∧ payload.length = ethernetMinimum))
    && (match fixedBodyLength? (byteAt payload 1) with
      | some n => decide (declared = n)
      | none => decide (declared = 8 + data ∧ 1 ≤ data ∧ data ≤ 8192))

/-- Check 9: the body holds only values that its kind allows (R156). -/
def FrameBody.valid : FrameBody → Bool
  | .beacon rack status _ => (PeerStatus.ofCode? status).isSome && decide (rack.toNat ≤ 15)
  | .rackdown rack => decide (rack.toNat ≤ 15)
  | .claim _ _ flags _ => flags &&& 0xFC#8 == 0
  | .withdraw _ reason winner _ =>
    match WithdrawReason.ofCode? reason with
    | none => false
    | some .yield => decide (winner.toNat ≤ 63)
    | some _ => decide (winner.toNat ≤ 63) || winner == 0xFF#8
  | .fetchOpen .. => true
  | .ready tag _ _ _ => decide (laneOfTag tag ≤ 127)
  | .wait tag _ _ => decide (laneOfTag tag ≤ 127)
  | .refuse tag reason => decide (laneOfTag tag ≤ 127) && (RefuseReason.ofCode? reason).isSome
  | .pull .. => true
  | .chunk tag _ _ => decide (laneOfTag tag ≤ 127)
  | .release .. => true

/-- Check 6 for a body already read: only a CHUNK's length varies (R156, R160). -/
def FrameBody.lengthOk : FrameBody → Bool
  | .chunk _ _ data => decide (1 ≤ data.length ∧ data.length ≤ 8192)
  | _ => true

/-- Checks 3 to 9, in order: the drop count of the first that fails (R156). -/
def Part.headerCheck (p : Part) (h : FrameHeader) (code : Byte) (lengthOk bodyOk : Bool) : Option DropKind :=
  let sender := h.sender.toNat
  let beacon := code == 0x01
  if sender = p.own then some .clash
  else if (p.peer? sender).isNone then some .sender
  else if h.target ≠ (if broadcastKind code then 0xFF#8 else BitVec.ofNat 8 p.own) then some .target
  else if !lengthOk then some .length
  else if !beacon && !p.hearable sender then some .unheard
  else if !beacon && (p.peer? sender).bind Peer.epoch ≠ some h.epoch then some .epoch
  else if !bodyOk then some .body
  else none

/-- Checks 3 to 9 of a frame whose body has been read (R156). -/
def Part.receiveCheck (p : Part) (h : FrameHeader) (body : FrameBody) : Option DropKind :=
  p.headerCheck h body.code body.lengthOk body.valid

/-- All the receive checks of a frame, in order (R156). -/
def Part.payloadCheck (p : Part) (f : WireFrame) : Option DropKind :=
  if !versionOk f.payload then some .version
  else if !kindOk f.payload then some .kind
  else
    p.headerCheck (parseHeader f) (byteAt f.payload 1) (lengthOk f.payload)
      (match parseBody? (byteAt f.payload 1) (f.payload.drop 16) with
      | some body => body.valid
      | none => false)

/-- A frame with this Ethernet destination and EtherType is the part's traffic: taken by the card's MAC, and of the
configured EtherType (R155). -/
def Part.takesFrame (p : Part) (destination : Mac) (etherType : BitVec 16) : Bool :=
  (destination == 0xFFFFFFFFFFFF#48 || destination == Config.ownAddress)
    && (match p.config with
      | some c => etherType == c.etherType
      | none => false)

/-- A received frame: passed by unread outside RUNNING and HALTED, and where it is not the part's traffic (R155); dropped
under the count of the first check it fails, and otherwise handed to its owner (R156). -/
def Part.receive (p : Part) (h : FrameHeader) (body : FrameBody) (owner : Part → Part) : Part :=
  if p.onSegment && p.takesFrame h.destination h.etherType then
    match p.receiveCheck h body with
    | some k => p.dropFrame k
    | none => owner p
  else p

end Sys2Proof.Machine
end

