-- ==== Sys2Proof/Machine/HostLink.lean ====
section
/-! DEFINITION. The host link's shared operations: the layouts of reports and of the status block (R161), posting a
report (R169), request tags (R168), and the ring reader's taking of a command (R164). -/

namespace Sys2Proof.Machine

/-! ## Host memory -/

/-- Bytes written into host memory from an address on; addresses are 64 bits wide (DESIGN CHOICE, log 21). -/
def Part.writeHost (p : Part) (address : BitVec 64) (bytes : List Byte) : Part :=
  { p with
    hlk := { p.hlk with
      hostMemory := p.hlk.hostMemory.splice address.toNat bytes.length (cellsFrom address.toNat bytes) } }

/-! ## Layouts (R161) -/

/-- A report ring entry, 64 bytes (R161). A field that the table names for no kind in particular and that the report of this
kind is not said to carry, such as the fragment length of an OUTCOME or the stripe id of a COMMAND-REFUSED, holds zero; R161
gives zero only to bytes that no table names (DESIGN CHOICE, log 52). -/
def Report.bytes : Report → List Byte
  | .stageRequest tag stripe position length slot =>
    layout 64 [(0, [0x01]), (4, leBytes 2 tag.toNat), (8, leBytes 6 stripe.toNat), (14, leBytes 1 position),
      (16, leBytes 4 length), (24, leBytes 4 (slotOffset slot))]
  | .storeRequest tag stripe position length digest slot =>
    layout 64 [(0, [0x02]), (4, leBytes 2 tag.toNat), (8, leBytes 6 stripe.toNat), (14, leBytes 1 position),
      (16, leBytes 4 length), (20, leBytes 4 digest.toNat), (24, leBytes 4 (slotOffset slot))]
  | .commandRefused code index => layout 64 [(0, [0x03]), (1, [code.code]), (4, leBytes 2 index.toNat)]
  | .unrecoverable stripe lost =>
    layout 64 [(0, [0x04]), (1, [0x01]), (8, leBytes 6 stripe.toNat), (28, leBytes 2 (maskOf lost).toNat)]
  | .repairAbandoned cause stripe =>
    layout 64 [(0, [0x04]), (1, [0x02]), (2, [cause.code]), (8, leBytes 6 stripe.toNat)]
  | .verifyFail stripe failed =>
    layout 64 [(0, [0x04]), (1, [0x03]), (8, leBytes 6 stripe.toNat), (28, leBytes 2 (maskOf failed).toNat)]
  | .holdingsFull stripe position =>
    layout 64 [(0, [0x04]), (1, [0x04]), (8, leBytes 6 stripe.toNat), (14, leBytes 1 position)]

/-- The configuration record, 104 bytes (R161). -/
def ConfigRecord.bytes (c : ConfigRecord) : List Byte :=
  layout 104 [(0, [c.ownStation]), (1, [c.releaseHold]), (2, leBytes 2 c.startEpoch.toNat),
    (4, leBytes 2 c.etherType.toNat), (6, [c.interruptEnables]), (8, c.memberMap.take 64),
    (72, (c.geometries.take 8).flatMap fun g => [g.1, g.2]), (88, [c.beaconPeriod]), (89, [c.shortCount]),
    (90, [c.longCount]), (91, [c.claimHoldOff]), (92, leBytes 2 c.claimRepeat.toNat),
    (94, leBytes 2 c.replyTimeout.toNat), (96, [c.tries]), (98, leBytes 2 c.openerIdleLimit.toNat),
    (100, [c.sweepInterval]), (102, leBytes 2 c.serveReserve.toNat)]

/-- The own station's last status: the part's state when that is RUNNING or HALTED (R36). -/
def Part.ownStatus? (p : Part) : Option PeerStatus :=
  match p.hlk.phase with
  | .running => some .running
  | .halted => some .halted
  | _ => none

/-- The four bytes of a station in the status block (R161); the own station's record never has a load, so its byte is FFh
(DESIGN CHOICE, log 32). -/
def Part.stationBytes (p : Part) (station : Nat) : List Byte :=
  match p.peer? station with
  | none => [0x00, 0x00, 0xFF, 0x00]
  | some q =>
    let status := if q.state = .self then p.ownStatus? else q.status
    [q.state.code, (status.map PeerStatus.code).getD 0x00, (q.load.map (BitVec.ofNat 8)).getD 0xFF, 0x00]

/-- The status block, 576 bytes, under an update count (R161, R170). -/
def Part.statusBytes (p : Part) (count : BitVec 32) : List Byte :=
  let v := p.statusView
  layout 576 [(0, leBytes 4 count.toNat), (4, [v.phase.code]), (5, [flagByteOf v.warning]),
    (6, leBytes 2 v.ownEpoch.toNat), (8, leBytes 2 v.strap.mebibytes), (12, leBytes 4 v.consume.toNat),
    (16, leBytes 4 v.produce.toNat), (20, leBytes 4 v.records), (24, leBytes 2 v.queued), (26, leBytes 2 v.claims),
    (28, leBytes 1 v.contexts), (29, leBytes 1 v.lanes), (30, leBytes 2 v.serves), (32, leBytes 2 v.freeSlots),
    (64, (v.config.map ConfigRecord.bytes).getD []), (168, v.drops.flatMap fun d => leBytes 4 d.toNat),
    (208, v.racks.map RackState.code), (256, (List.range 64).flatMap p.stationBytes),
    (572, leBytes 4 count.toNat)]

/-! ## The report path (R169) -/

/-- A ring size is valid: a power of two from 64 to 4,096 (R163). -/
def ringSizeValid (size : BitVec 32) : Bool := [64, 128, 256, 512, 1024, 2048, 4096].contains size.toNat

/-- The status block address is valid: nonzero and a multiple of 64 (R163). -/
def statusAddressValid (address : BitVec 64) : Bool := address != 0 && address.toNat % 64 == 0

/-- An index of a ring moved on by 1, modulo the ring size as its register holds it, valid or not; a free value where
that is 0 (R164, R169; DEDUCED and DESIGN CHOICE, log 41). -/
def ringNext (index size : BitVec 32) : BitVec 32 :=
  if size = 0 then Config.ringNextOfZero index else BitVec.ofNat 32 ((index.toNat + 1) % size.toNat)

/-- The report ring has a place: its size is valid, and advancing the produce index would not make it equal to the
consume index (R169). -/
def Part.ringPlace (p : Part) : Bool :=
  ringSizeValid p.hlk.reportSize && ringNext p.hlk.reportProduce p.hlk.reportSize != p.hlk.reportConsume

/-- The report path is full: no place in the ring that a new report may take, and 64 reports queued (R169). -/
def Part.reportPathFull (p : Part) : Bool :=
  !(p.hlk.reportQueue.isEmpty && p.ringPlace) && decide (64 ≤ p.hlk.reportQueue.length)

/-- A report written to the ring: its 64 bytes at the produce index, the index advanced, REPORTS set (R169, R171). -/
def Part.writeReport (p : Part) (r : Report) : Part :=
  let q := p.writeHost (p.hlk.reportBase + BitVec.ofNat 64 (p.hlk.reportProduce.toNat * 64)) r.bytes
  { q with hlk := { q.hlk with reportProduce := ringNext q.hlk.reportProduce q.hlk.reportSize } }.setFlag .reports

/-- A report posted: written to the ring, or queued, or not posted at all while the report path is full (R169). -/
def Part.postReport? (p : Part) (r : Report) : Option Part :=
  if p.hlk.reportQueue.isEmpty && p.ringPlace then some (p.writeReport r)
  else if p.hlk.reportQueue.length < 64 then
    some { p with hlk := { p.hlk with reportQueue := p.hlk.reportQueue ++ [{ report := r, tagVoid := false }] } }
  else none

/-- A report posted where the path has a place, which the caller has made sure of. -/
def Part.postReport (p : Part) (r : Report) : Part := (p.postReport? r).getD p

/-- Reports moved from the head of the internal report queue into the ring, in order, while places remain (R169). -/
def Part.moveReports (p : Part) : List QueuedReport → Part
  | [] => { p with hlk := { p.hlk with reportQueue := [] } }
  | q :: rest =>
    if p.ringPlace then (p.writeReport q.report).moveReports rest
    else { p with hlk := { p.hlk with reportQueue := q :: rest } }

/-- The scanner told that a place has freed: a BLOCKED pass is to make its visit again (R61, case 1). -/
def Part.tellScanner (p : Part) : Part := { p with scn := { p.scn with placeFreed := p.scn.pass == .blocked } }

/-- The producers that wait for an event told that a report place has freed: the scanner, and the dequeue of the head. The
others of R169 look at the report path itself (R61, R63, R169). -/
def Part.reportPlaceFrees (p : Part) : Part := { p.tellScanner with rqWait := none }

/-- The internal report queue drained into the ring as far as places go; where it was full and has room again, its
waiting producers are told (R169). -/
def Part.drainReports (p : Part) : Part :=
  let q := p.moveReports p.hlk.reportQueue
  if 64 ≤ p.hlk.reportQueue.length ∧ q.hlk.reportQueue.length < 64 then q.reportPlaceFrees else q

/-! ## Request tags (R168) -/

/-- The two kinds of request tag. -/
inductive TagKind where
  | stage
  | store
  deriving DecidableEq, Repr

/-- The value after a tag: 65,535 is followed by 1 (R168). -/
def tagAfter (tag : Tag) : Tag := if tag = 0xFFFF#16 then 1 else tag + 1

/-- The first value from a tag on that is not outstanding (R168); the fuel is one more than the outstanding tags,
so it is always found. -/
def skipOutstanding (outstanding : List Tag) : Nat → Tag → Tag
  | 0, tag => tag
  | fuel + 1, tag => if outstanding.contains tag then skipOutstanding outstanding fuel (tagAfter tag) else tag

/-- Every outstanding tag. -/
def Part.outstandingTags (p : Part) : List Tag := p.hlk.stageTags ++ p.hlk.storeTags

/-- The value of the tag counter given out as an outstanding tag, the counter advancing past every outstanding
value (R168). -/
def Part.takeTag (p : Part) (kind : TagKind) : Part :=
  let tag := p.hlk.tagCounter
  let hlk := match kind with
    | .stage => { p.hlk with stageTags := p.hlk.stageTags ++ [tag] }
    | .store => { p.hlk with storeTags := p.hlk.storeTags ++ [tag] }
  let outstanding := hlk.stageTags ++ hlk.storeTags
  { p with hlk := { hlk with tagCounter := skipOutstanding outstanding (outstanding.length + 1) (tagAfter tag) } }

/-- A tag is outstanding no more, and the window right it carried ends (R154, R168). -/
def Part.endTag (p : Part) (tag : Tag) : Part :=
  { p with
    hlk := { p.hlk with
      stageTags := p.hlk.stageTags.filter (· != tag)
      storeTags := p.hlk.storeTags.filter (· != tag) }
    smc := { p.smc with
      slots := p.smc.slots.map fun r =>
        if r.2.right = .write tag ∨ r.2.right = .read tag then (r.1, { r.2 with right := .none_ }) else r } }

/-- The tag of a request report. -/
def Report.tag? : Report → Option Tag
  | .stageRequest tag .. => some tag
  | .storeRequest tag .. => some tag
  | _ => none

/-- A tag made void: it ends, and a request of it that still waits in the internal report queue is marked
(R167 step 9, R168). -/
def Part.voidTag (p : Part) (tag : Tag) : Part :=
  if p.outstandingTags.contains tag then
    let q := p.endTag tag
    { q with
      hlk := { q.hlk with
        reportQueue := q.hlk.reportQueue.map fun r =>
          if r.report.tag? = some tag then { r with tagVoid := true } else r } }
  else p

/-- A tag made void, where there is one. -/
def Part.voidTag? (p : Part) : Option Tag → Part
  | none => p
  | some tag => p.voidTag tag

/-! ## The ring reader (R164) -/

/-- The reader takes the entry at its consume position: the positions differ, the part is not INITIALIZING, and the
report path has a place (R164). Whether the ring's size is valid is no condition: the rule names none. -/
def Part.readerTakes (p : Part) : Bool :=
  p.hlk.commandConsume != p.hlk.postIndex && p.hlk.phase != .initializing && !p.reportPathFull

/-- A command taken from the ring: its checks and effects are one event, a refusal posts one COMMAND-REFUSED with
its ring index and code, and the consume position then advances and the status block is marked, also where the position
comes to the value it had. An entry that the reader does not take stays in the ring (R164; DESIGN CHOICE, log 3, and log 41 for the advance under an invalid ring size). -/
def Part.takeCommand (p : Part) (body : Part → Except RefusalCode Part) : Part :=
  if p.readerTakes then
    let q := match body p with
      | .ok q => q
      | .error code => p.postReport (.commandRefused code p.hlk.commandConsume)
    { q with
      hlk := { q.hlk with
        commandConsume := ringNext p.hlk.commandConsume p.hlk.commandSize
        statusMarked := true } }
  else p

/-- A command accepted in RUNNING alone: in any other state it is refused with BAD-STATE (R164). -/
def Part.whileRunning (p : Part) (body : Part → Except RefusalCode Part) : Except RefusalCode Part :=
  if p.hlk.phase = .running then body p else .error .badState

end Sys2Proof.Machine
end

