-- ==== Sys2Proof/WellFormed.lean ====
section
/-! DEFINITION. Which commands are well formed: the operands name things that exist, the lists of a record have
their fixed lengths, and a row that stands for "any other code" or "any other offset" does not carry a listed one.
The meanings are total: an ill-formed command is taken too, as each meaning says. -/

namespace Sys2Proof

/-- The lists of a configuration record have the lengths of R161. -/
def ConfigRecord.wellFormed (c : ConfigRecord) : Bool :=
  c.memberMap.length == 64 && c.geometries.length == 8

/-- The lists of a LOAD body have the lengths of R161. -/
def LoadRecord.wellFormed (l : LoadRecord) : Bool :=
  l.placement.length == 16 && l.digests.length == 16

/-- The offsets at which the register window has a register that the host may write (R161, R163); an offset inside one is
not among them (DESIGN CHOICE, log 36). -/
def writableOffsets : List Nat := [0x000, 0x008, 0x010, 0x018, 0x020, 0x028, 0x02C]

/-- The command codes of R161. -/
def listedCommandCodes : List Nat := [0x01, 0x02, 0x03, 0x04, 0x05, 0x06, 0x07, 0x08, 0x09, 0x0A]

/-- A command whose operands are in the ranges the part's layouts and tables give them. -/
def Instr.wellFormed : Instr → Bool
  | .configure c => c.wellFormed
  | .load l => l.wellFormed
  | .unknownCommandCode code => !(listedCommandCodes.contains code.toNat)
  | .registerWrite offset _ => !(writableOffsets.contains offset.toNat)
  | .windowRead _ length => decide (1 ≤ length)
  | .windowWrite _ data => decide (1 ≤ data.length)
  | .peerSilent station => decide (station < 64)
  | .peerLost station _ => decide (station < 64)
  | .suspectCountExpiry rack => decide (rack < 16)
  | .chunk _ _ _ data => decide (1 ≤ data.length ∧ data.length ≤ 8192)
  | .holdOffExpiry entry => decide (entry < 256)
  | .repeatTimerExpiry entry => decide (entry < 256)
  | .yieldTimerExpiry entry => decide (entry < 256)
  | .planWaitDeadline context => decide (context < 32)
  | .storeRequest context => decide (context < 32)
  | .pendingOutcomeComplete context => decide (context < 32)
  | .openReplyTimeout lane => decide (lane < 128)
  | .pullReplyTimeout lane bank => decide (lane < 128 ∧ bank < 2)
  | .waitTimerExpiry lane => decide (lane < 128)
  | .openerIdleExpiry entry station _ => decide (entry < 256 ∧ station < 64)
  | .powerOnReset _ => true
  | .functionReset _ => true
  | .start => true
  | .halt => true
  | .drop _ _ => true
  | .staged _ _ => true
  | .stored _ _ => true
  | .scanRelease _ => true
  | .requeue _ => true
  | .clearFlags _ => true
  | .commandPostIndexWrite _ => true
  | .reportConsumeIndexWrite _ => true
  | .ringRegisterWrite _ _ => true
  | .statusBlockRewrite => true
  | .initDone => true
  | .livenessTimerExpiry _ => true
  | .beacon _ _ _ _ => true
  | .rackdown _ _ => true
  | .claim _ _ _ _ _ => true
  | .withdraw _ _ _ _ _ => true
  | .fetchOpen _ _ _ _ => true
  | .pull _ _ _ => true
  | .release _ _ => true
  | .ready _ _ _ _ _ => true
  | .wait _ _ _ _ => true
  | .refuse _ _ _ => true
  | .frameDrop _ => true
  | .frameTransmit => true
  | .heldFrameQueued => true
  | .serveHoldChunkQueued => true
  | .sweepTimerExpiry => true
  | .passStart => true
  | .scanVisit => true
  | .dequeue => true
  | .admission => true
  | .waitingContextServed => true
  | .fillStart => true
  | .fillDone => true
  | .planJobStart => true
  | .planDone => true
  | .internalOpenerAttach => true
  | .verifyJobStart => true
  | .verifyDone => true
  | .combineStart => true
  | .combineDone => true
  | .stageRequest => true

end Sys2Proof
end

