-- ==== Sys2Proof/Decode.lean ====
section
/-! DEFINITION. Reading commands from bytes. The table gives its rows no bits, so no word spells a command; what the
specification lays out in bytes is the command ring entry and the frame (R161), and both are read here. -/

namespace Sys2Proof

/-- The command that a word spells by the table's bits: none, since no row of the table gives bits. -/
def decodeTableWord (_nbits _w : Nat) : Option Instr := none

namespace Machine

/-! ## The command ring entry (R161) -/

/-- The number that n bytes from an offset stand for, least significant first. -/
def leField (bytes : List Byte) (offset n : Nat) : Nat := leNat (bytesAt bytes offset n)

/-- The configuration record that 104 bytes hold (R161). -/
def readConfig (b : List Byte) : ConfigRecord where
  ownStation := byteAt b 0
  releaseHold := byteAt b 1
  startEpoch := BitVec.ofNat 16 (leField b 2 2)
  etherType := BitVec.ofNat 16 (leField b 4 2)
  interruptEnables := byteAt b 6
  memberMap := (List.range 64).map fun i => byteAt b (8 + i)
  geometries := (List.range 8).map fun i => (byteAt b (72 + 2 * i), byteAt b (73 + 2 * i))
  beaconPeriod := byteAt b 88
  shortCount := byteAt b 89
  longCount := byteAt b 90
  claimHoldOff := byteAt b 91
  claimRepeat := BitVec.ofNat 16 (leField b 92 2)
  replyTimeout := BitVec.ofNat 16 (leField b 94 2)
  tries := byteAt b 96
  openerIdleLimit := BitVec.ofNat 16 (leField b 98 2)
  sweepInterval := byteAt b 100
  serveReserve := BitVec.ofNat 16 (leField b 102 2)

/-- The body of LOAD that an entry holds (R161). -/
def readLoad (b : List Byte) : LoadRecord where
  stripe := BitVec.ofNat 48 (leField b 8 6)
  ownIndex := byteAt b 14
  geometry := byteAt b 15
  length := BitVec.ofNat 32 (leField b 16 4)
  placement := (List.range 16).map fun i => byteAt b (20 + i)
  digestPresent := BitVec.ofNat 16 (leField b 36 2)
  digests := (List.range 16).map fun i => BitVec.ofNat 32 (leField b (40 + 4 * i) 4)

/-- The command of a ring entry: its code is byte 0 and its body begins at byte 8; a code that is not listed is the
unknown code (R161, R164). -/
def decodeEntry (b : List Byte) : Instr :=
  match (byteAt b 0).toNat with
  | 0x01 => .configure (readConfig (b.drop 8))
  | 0x02 => .start
  | 0x03 => .halt
  | 0x04 => .load (readLoad b)
  | 0x05 => .drop (BitVec.ofNat 48 (leField b 8 6)) (byteAt b 14)
  | 0x06 => .staged (BitVec.ofNat 16 (leField b 8 2)) (byteAt b 10)
  | 0x07 => .stored (BitVec.ofNat 16 (leField b 8 2)) (byteAt b 10)
  | 0x08 => .scanRelease (byteAt b 8)
  | 0x09 => .requeue (BitVec.ofNat 48 (leField b 8 6))
  | 0x0A => .clearFlags (byteAt b 8)
  | _ => .unknownCommandCode (byteAt b 0)

/-- The ring entry of a command, 128 bytes, where it is one that the host places in the ring (R161). -/
def encodeEntry? : Instr → Option (List Byte)
  | .configure c => some (layout 128 [(0, [0x01]), (8, ConfigRecord.bytes c)])
  | .start => some (layout 128 [(0, [0x02])])
  | .halt => some (layout 128 [(0, [0x03])])
  | .load l =>
    some (layout 128 [(0, [0x04]), (8, leBytes 6 l.stripe.toNat), (14, [l.ownIndex]), (15, [l.geometry]),
      (16, leBytes 4 l.length.toNat), (20, l.placement), (36, leBytes 2 l.digestPresent.toNat),
      (40, l.digests.flatMap fun d => leBytes 4 d.toNat)])
  | .drop stripe ownIndex => some (layout 128 [(0, [0x05]), (8, leBytes 6 stripe.toNat), (14, [ownIndex])])
  | .staged tag result => some (layout 128 [(0, [0x06]), (8, leBytes 2 tag.toNat), (10, [result])])
  | .stored tag result => some (layout 128 [(0, [0x07]), (8, leBytes 2 tag.toNat), (10, [result])])
  | .scanRelease rack => some (layout 128 [(0, [0x08]), (8, [rack])])
  | .requeue stripe => some (layout 128 [(0, [0x09]), (8, leBytes 6 stripe.toNat)])
  | .clearFlags mask => some (layout 128 [(0, [0x0A]), (8, [mask])])
  | .unknownCommandCode code => some (layout 128 [(0, [code])])
  | _ => none

/-! ## The frame (R161) -/

/-- The arrival of a frame whose header and body have been read (R156, R160). -/
def FrameBody.arrival (h : FrameHeader) : FrameBody → Instr
  | .beacon rack status contexts => .beacon h rack status contexts
  | .rackdown rack => .rackdown h rack
  | .claim stripe rank flags lostMask => .claim h stripe rank flags lostMask
  | .withdraw stripe reason winner rebuiltMask => .withdraw h stripe reason winner rebuiltMask
  | .fetchOpen stripe position tag => .fetchOpen h stripe position tag
  | .ready tag digestPresent length digest => .ready h tag digestPresent length digest
  | .wait tag hint busy => .wait h tag hint busy
  | .refuse tag reason => .refuse h tag reason
  | .pull tag c => .pull h tag c
  | .chunk tag c data => .chunk h tag c data
  | .release tag => .release h tag

/-- The command that the arrival of a frame is: the arrival of its kind where the version, kind and length checks pass
(R156, checks 1, 2 and 6), a dropped frame otherwise. Either passes a frame by that is not the part's traffic: the header
carries its destination and its EtherType (R155). -/
def decodeFrame (f : WireFrame) : Instr :=
  if versionOk f.payload && kindOk f.payload && lengthOk f.payload then
    match parseBody? (byteAt f.payload 1) (f.payload.drop 16) with
    | some body => body.arrival (parseHeader f)
    | none => .frameDrop f
  else .frameDrop f

end Machine
end Sys2Proof
end

