-- ==== Sys2Proof/Machine/Field.lean ====
section
/-! DEFINITION. The byte field, the generator rows, the inversion of the survivor matrix, the decode rows and the
digest (chapter 2). -/

namespace Sys2Proof.Machine

/-! ## The byte field (R20 to R22) -/

/-- The carry-less product of two bytes, of degree at most 14 (R21). -/
def carrylessProduct (a b : Byte) : BitVec 16 :=
  (List.range 8).foldl (fun acc i => if b.getLsbD i then acc ^^^ (a.zeroExtend 16 <<< i) else acc) 0

/-- The remainder of a polynomial of degree at most 14 modulo x^8 + x^5 + x^3 + x^2 + 1, 12Dh (R21). -/
def fieldReduce (v : BitVec 16) : Byte :=
  ([6, 5, 4, 3, 2, 1, 0].foldl
    (fun acc i => if acc.getLsbD (i + 8) then acc ^^^ (0x12D#16 <<< i) else acc) v).truncate 8

/-- The field product (R21). -/
def fieldMul (a b : Byte) : Byte := fieldReduce (carrylessProduct a b)

/-- The inverse of a nonzero byte: the byte b with a · b = 01h (R22). Of 00h none is ever asked. -/
def fieldInverse (a : Byte) : Byte :=
  (((List.range 256).map (BitVec.ofNat 8)).find? fun b => fieldMul a b == 1).getD 0

/-- The field sum of a list of terms (R20). -/
def fieldSum (terms : List Byte) : Byte := terms.foldl (· ^^^ ·) 0

/-- The field sum of the products of two lists, term by term (R20, R21). -/
def fieldDot (xs ys : List Byte) : Byte := fieldSum (List.zipWith fieldMul xs ys)

/-! ## The generator rows (R23) -/

/-- The coefficient of parity row j in column i: y · inverse(y ⊕ j), where y = i + 4 (R23). -/
def parityCoefficient (j i : Nat) : Byte :=
  let y := BitVec.ofNat 8 (i + 4)
  fieldMul y (fieldInverse (y ^^^ BitVec.ofNat 8 j))

/-- The generator row of a fragment position (R23). -/
def generatorRow (g : Geometry) (position : Nat) : List Byte :=
  (List.range g.k).map fun i =>
    if position < g.k then (if i = position then 0x01 else 0x00)
    else parityCoefficient (position - g.k) i

/-! ## Inversion (R28) -/

/-- A row with every byte multiplied by a factor. -/
def scaleRow (factor : Byte) (row : List Byte) : List Byte := row.map (fieldMul factor)

/-- The sum of two rows, byte by byte. -/
def addRows (x y : List Byte) : List Byte := List.zipWith (· ^^^ ·) x y

/-- A row of a matrix. -/
def rowAt (rows : List (List Byte)) (r : Nat) : List Byte := (rows[r]?).getD []

/-- The pivot row of a column: the first row from row c downward whose entry in column c is nonzero (R28, step 1). -/
def pivotRow? (rows : List (List Byte)) (c : Nat) : Option Nat :=
  (List.range rows.length).find? fun r => decide (c ≤ r) && byteAt (rowAt rows r) c != 0

/-- Rows c and r exchanged (R28, step 2). -/
def exchangeRows (rows : List (List Byte)) (c r : Nat) : List (List Byte) :=
  (rows.set c (rowAt rows r)).set r (rowAt rows c)

/-- The four steps of R28 for one column. -/
def eliminateColumn (rows : List (List Byte)) (c : Nat) : List (List Byte) :=
  match pivotRow? rows c with
  | none => rows
  | some r =>
    let exchanged := exchangeRows rows c r
    let pivot := rowAt exchanged c
    let unit := scaleRow (fieldInverse (byteAt pivot c)) pivot
    exchanged.mapIdx fun q row => if q = c then unit else addRows row (scaleRow (byteAt row c) unit)

/-- The inverse of a k × k matrix, formed in the working pair of R28. -/
def invertMatrix (k : Nat) (matrix : List (List Byte)) : List (List Byte) :=
  let pair := matrix.mapIdx fun r row => row ++ ((List.range k).map fun i => if i = r then 0x01#8 else 0x00#8)
  ((List.range k).foldl eliminateColumn pair).map fun row => row.drop k

/-! ## Decode rows (R29) -/

/-- The decode row of a lost position under an inverted survivor matrix (R29). -/
def decodeRow (g : Geometry) (inverse : List (List Byte)) (lost : Nat) : List Byte :=
  (List.range g.k).map fun s => fieldDot (generatorRow g lost) (inverse.map fun row => byteAt row s)

/-- The decode plan for a survivor list and a lost list (R28, R29). -/
def decodePlan (g : Geometry) (survivors lost : Positions) : List (List Byte) :=
  let inverse := invertMatrix g.k (survivors.map (generatorRow g))
  lost.map (decodeRow g inverse)

/-! ## The digest (R32) -/

/-- One of the eight shifts that consume a byte (R32, step 2). -/
def digestShift (register : Digest) : Digest :=
  if register.getLsbD 0 then (register >>> 1) ^^^ 0x82F63B78#32 else register >>> 1

/-- The register advanced over one byte (R32, step 2). -/
def digestByte (register : Digest) (b : Byte) : Digest :=
  (List.range 8).foldl (fun r _ => digestShift r) (register ^^^ b.zeroExtend 32)

/-- The register before the first byte (R32, step 1). -/
def digestStart : Digest := 0xFFFFFFFF#32

/-- A running digest advanced over bytes in ascending offset order (R32, step 2). -/
def digestAdvance (register : Digest) (bytes : List Byte) : Digest := bytes.foldl digestByte register

/-- The final exclusive-or (R32, step 3). -/
def digestFinish (register : Digest) : Digest := register ^^^ 0xFFFFFFFF#32

/-- The digest of a sequence of bytes (R32). -/
def digestOf (bytes : List Byte) : Digest := digestFinish (digestAdvance digestStart bytes)

/-- Bytes of an accumulator's chunk with a contribution added: each byte is replaced by its sum with the
coefficient times the operand byte (R31). -/
def contribute (coefficient : Byte) (accumulator operand : List Byte) : List Byte :=
  List.zipWith (fun a x => a ^^^ fieldMul coefficient x) accumulator operand

end Sys2Proof.Machine
end

