-- ==== Sys2Proof/Machine/Segment.lean ====
section
/-! DEFINITION. The segment port's transmit side: posting, holding, replacing and withdrawing frames (R158, R159),
the BEACON's place (R37), and the transmission of the head frame (R155, R158). -/

namespace Sys2Proof.Machine

/-- The places of the control queue that frames other than the BEACON may fill (R158). -/
def controlPlaces : Nat := 63

/-- The places of the data queue (R158). -/
def dataPlaces : Nat := 32

/-- The room of the hold list (R159). -/
def holdPlaces : Nat := 1024

/-- A BEACON. -/
def FrameBody.isBeacon : FrameBody → Bool
  | .beacon .. => true
  | _ => false

/-- A CLAIM of the stripe. -/
def FrameBody.isClaimOf (t : StripeId) : FrameBody → Bool
  | .claim stripe .. => stripe == t
  | _ => false

/-- The stripe of a CLAIM or WITHDRAW, the frames that replace a waiting CLAIM (R159, case 1). -/
def FrameBody.contestStripe? : FrameBody → Option StripeId
  | .claim stripe .. => some stripe
  | .withdraw stripe .. => some stripe
  | _ => none

/-- An OPEN or a PULL of the lane (R159, case 2). -/
def FrameBody.isRequestOf (lane : Nat) : FrameBody → Bool
  | .fetchOpen _ _ tag => laneOfTag tag == lane
  | .pull tag _ => laneOfTag tag == lane
  | _ => false

/-- The kinds that HALT withdraws from the control side (R159, case 3). -/
def FrameBody.withdrawnAtHalt : FrameBody → Bool
  | .fetchOpen .. => true
  | .pull .. => true
  | .ready .. => true
  | .wait .. => true
  | .refuse .. => true
  | _ => false

/-- The control queue has a place for a frame other than the BEACON (R158). -/
def Part.controlPlace (p : Part) : Bool :=
  decide ((p.sgp.control.filter fun f => !f.body.isBeacon).length < controlPlaces)

/-- A frame put in the place of every waiting CLAIM of its stripe, of which there is at most one (R159, case 1). -/
def replaceClaim (t : StripeId) (new : ControlFrame) (frames : List ControlFrame) : List ControlFrame :=
  frames.map fun f => if f.body.isClaimOf t then new else f

/-- A CLAIM of the stripe waits in the control queue or the hold list (R159, case 1). -/
def Part.claimWaits (p : Part) (t : StripeId) : Bool :=
  (p.sgp.control ++ p.sgp.hold).any fun f => f.body.isClaimOf t

/-- The places of the control queue that are free for frames other than the BEACON (R158). -/
def Part.freeControlPlaces (p : Part) : Nat :=
  controlPlaces - (p.sgp.control.filter fun f => !f.body.isBeacon).length

/-- The held frames served: the oldest ones enter the control queue, in their order, as many as it has places free
(R158, R159). -/
def Part.serveHeld (p : Part) : Part :=
  { p with
    sgp := { p.sgp with
      control := p.sgp.control ++ p.sgp.hold.take p.freeControlPlaces
      hold := p.sgp.hold.drop p.freeControlPlaces } }

/-- A control frame posted now joins the queue or the hold list, and is not discarded (R159). -/
def Part.takesControl (p : Part) : Bool := decide (p.serveHeld.sgp.hold.length < holdPlaces)

/-- A control frame finds the held frames served, so that none that is held is passed and no place is left free; then it
joins the queue, or the hold list while frames are held or no place is left, or is discarded unsent and counted
(R158, R159, DEDUCED, log 10). -/
def Part.enqueueControl (p : Part) (f : ControlFrame) : Part :=
  let q := p.serveHeld
  if q.sgp.hold.isEmpty && q.controlPlace then
    { q with sgp := { q.sgp with control := q.sgp.control ++ [f] } }
  else if q.sgp.hold.length < holdPlaces then
    { q with sgp := { q.sgp with hold := q.sgp.hold ++ [f] } }
  else q.countDrop .staleSend

/-- A control frame other than the BEACON posted, to a station or as a broadcast, with the epoch of the moment
(R36, R158, R159). -/
def Part.post (p : Part) (target : Option Nat) (body : FrameBody) : Part :=
  let f : ControlFrame := { target := target, epoch := p.prs.ownEpoch, body := body }
  match body.contestStripe? with
  | some t =>
    if p.claimWaits t then
      { p with
        sgp := { p.sgp with control := replaceClaim t f p.sgp.control, hold := replaceClaim t f p.sgp.hold } }
    else p.enqueueControl f
  | none => p.enqueueControl f

/-- The body of the BEACON with the values of the moment (R37). -/
def Part.beaconBody (p : Part) : FrameBody :=
  .beacon (BitVec.ofNat 8 (((p.peer? p.own).map Peer.rack).getD 0)) ((p.ownStatus?.map PeerStatus.code).getD 0)
    (BitVec.ofNat 8 p.contextsInUse)

/-- A BEACON posted: queued in the place kept for it, or the waiting one rewritten in its place (R37). Unlike every other
control frame that joins the queue it does not have the held frames served first: where a transmission has freed a place
and HELD_FRAME_QUEUED has not been given since, it joins the queue ahead of the held frames (DESIGN CHOICE, log 56). -/
def Part.postBeacon (p : Part) : Part :=
  let f : ControlFrame := { target := none, epoch := p.prs.ownEpoch, body := p.beaconBody }
  if p.sgp.control.any fun g => g.body.isBeacon then
    { p with sgp := { p.sgp with control := p.sgp.control.map fun g => if g.body.isBeacon then f else g } }
  else { p with sgp := { p.sgp with control := p.sgp.control ++ [f] } }

/-- Control frames withdrawn unsent from the control queue and the hold list alike; the places that this frees take the
oldest frames still held in the same event (R159). -/
def Part.withdrawFrames (p : Part) (withdrawn : FrameBody → Bool) : Part :=
  Part.serveHeld { p with
    sgp := { p.sgp with
      control := p.sgp.control.filter fun f => !withdrawn f.body
      hold := p.sgp.hold.filter fun f => !withdrawn f.body } }

/-- The OPEN and PULL frames of a lane withdrawn unsent (R159, case 2). -/
def Part.withdrawRequests (p : Part) (lane : Nat) : Part := p.withdrawFrames fun body => body.isRequestOf lane

/-- What HALT withdraws from the segment port (R159, case 3). -/
def Part.withdrawAtHalt (p : Part) : Part :=
  let q := p.withdrawFrames FrameBody.withdrawnAtHalt
  { q with sgp := { q.sgp with data := [] } }

/-- The oldest held frame enters the control queue when that has a place (R159). -/
def Part.queueHeld (p : Part) : Part :=
  match p.sgp.hold with
  | [] => p
  | f :: rest =>
    if p.controlPlace then { p with sgp := { p.sgp with control := p.sgp.control ++ [f], hold := rest } } else p

/-- The Ethernet destination of a frame: broadcast, or the link address learned for its target (R155). A target
without a link address is never posted to; its frame would carry the all-zero address. -/
def Part.linkAddress (p : Part) : Option Nat → Mac
  | none => 0xFFFFFFFFFFFF#48
  | some station => ((p.peer? station).bind Peer.link).getD 0

/-- The target byte of a header: FFh for broadcast (R161). -/
def targetByte : Option Nat → Byte
  | none => 0xFF
  | some station => BitVec.ofNat 8 station

/-- A frame transmitted: built as R155 states and put on the wire. Its destination is the link address that the roster
holds at this moment, not the one of the moment of posting; the manual does not say which (DESIGN CHOICE, log 40). -/
def Part.transmit (p : Part) (target : Option Nat) (epoch : Epoch) (body : FrameBody) : Part :=
  { p with
    sgp := { p.sgp with
      wire := p.sgp.wire ++ [{
        destination := p.linkAddress target
        source := Config.ownAddress
        etherType := (p.config.map ConfigRecord.etherType).getD 0
        payload := framePayload (BitVec.ofNat 8 p.own) (targetByte target) epoch body }] } }

/-! ## Frames that several blocks post -/

/-- A WITHDRAW broadcast. It carries a winner only with YIELD and positions only with DONE (R160). -/
def Part.postWithdraw (p : Part) (t : StripeId) (reason : WithdrawReason) (winner : Byte) (rebuilt : Positions) :
    Part :=
  p.post none (.withdraw t reason.code winner (maskOf rebuilt))

/-- A WITHDRAW without winner and positions broadcast (R160). -/
def Part.withdrawPlain (p : Part) (t : StripeId) (reason : WithdrawReason) : Part :=
  p.postWithdraw t reason 0xFF#8 []

/-- A reply posted to the sender of the frame it answers (R155). -/
def Part.reply (p : Part) (station : Nat) (body : FrameBody) : Part := p.post (some station) body

end Sys2Proof.Machine
end

