-- ==== Sys2Proof/Machine/Records.lean ====
section
/-! DEFINITION. The holdings table (chapter 1): finding records by stripe and key, writing a record with its image in
the DRAM, updating the stripe-level fields of all records of a stripe as one update, and the loss set of a stripe. -/

namespace Sys2Proof.Machine

/-! ## Finding records (R9) -/

/-- The first record of a stripe in ascending position (R5, R9). -/
def Part.firstRecord? (p : Part) (t : StripeId) : Option HoldingRecord :=
  (p.hdt.findRow? fun r => r.stripe == t).map Prod.snd

/-- The record of a key, with its position (R9). -/
def Part.recordOf? (p : Part) (t : StripeId) (index : Nat) : Option (Nat × HoldingRecord) :=
  p.hdt.findRow? fun r => r.stripe == t && r.ownIndex == index

/-- A record of the key exists: the position is held locally (R4). -/
def Part.holds (p : Part) (t : StripeId) (index : Nat) : Bool := (p.recordOf? t index).isSome

/-- The records of a stripe, in ascending position. -/
def Part.recordsOf (p : Part) (t : StripeId) : List HoldingRecord :=
  (p.hdt.map Prod.snd).filter fun r => r.stripe == t

/-- The expected digest of a position: the first present one among the stripe's records (R5). -/
def Part.expectedDigest? (p : Part) (t : StripeId) (position : Nat) : Option Digest :=
  ((p.recordsOf t).filterMap fun r => (r.digests[position]?).join).head?

/-- The geometry of a stripe (R8). -/
def Part.geometryOf? (p : Part) (t : StripeId) : Option Geometry :=
  (p.firstRecord? t).bind fun r => p.geometry? r.geometry

/-- The parity count m of a stripe's geometry. -/
def Part.parityOf (p : Part) (t : StripeId) : Nat := ((p.geometryOf? t).map Geometry.m).getD 0

/-- The placement of a stripe (R4, R8). -/
def Part.placementOf (p : Part) (t : StripeId) : List Nat := ((p.firstRecord? t).map HoldingRecord.placement).getD []

/-! ## Images (R10, R161) -/

/-- The four bytes at offset 100 of an image, and the age: the outside claim as it stands at the moment. -/
def outsideFields (now : Nat) : Option HeardClaim → List (Nat × List Byte)
  | none => []
  | some o =>
    [(100, [0x01#8 ||| (if o.settled then 0x02#8 else 0) ||| (if o.rank.isSome then 0x04#8 else 0)]),
      (101, leBytes 1 o.station), (102, leBytes 3 ((o.rank.map BitVec.toNat).getD 0)),
      (108, leBytes 4 ((now - o.heard) / 1000))]

/-- The image of a record, 256 bytes, as it is written at a moment (R10, R161). The placement and digest bytes of the
positions n to 15 of a stripe of width n, which has no such positions, are 00h, as are those of an absent digest, outside
claim or rank (DEDUCED, log 29). -/
def HoldingRecord.image (r : HoldingRecord) (now : Nat) : List Byte :=
  (layout 256 ([(0, [0x01]), (1, [r.standing.code]), (2, leBytes 1 r.ownIndex), (3, leBytes 1 r.geometry),
    (4, leBytes 6 r.stripe.toNat), (12, leBytes 4 r.length), (16, r.placement.map (BitVec.ofNat 8)),
    (32, leBytes 2 (maskOf r.lost).toNat),
    (34, leBytes 2 (maskOf ((List.range r.digests.length).filter fun i => ((r.digests[i]?).join).isSome)).toNat),
    (36, r.digests.flatMap fun d => leBytes 4 ((d.map BitVec.toNat).getD 0))] ++ outsideFields now r.outside)).take 256

/-- The offset of a position's image in the holdings region (R9, R147). -/
def imageOffset (position : Nat) : Nat := position * 256

/-! ## Writing records -/

/-- A record written at a position; its image is rewritten where one of its fields changes (R10). -/
def Part.setRecord (p : Part) (position : Nat) (r : HoldingRecord) : Part :=
  if p.hdt.row? position = some r then p
  else
    { p with hdt := p.hdt.setRow position r }.setDram
      (p.smc.dram.write (imageOffset position) (r.image p.now))

/-- A position emptied, with the zero image written into it (R10, R13). -/
def Part.clearRecord (p : Part) (position : Nat) : Part :=
  { p with hdt := p.hdt.dropRow position }.setDram
    (p.smc.dram.write (imageOffset position) (List.replicate 256 0))

/-- A record inserted at the lowest empty position, if there is one (R9). -/
def Part.insertRecord? (p : Part) (r : HoldingRecord) : Option Part :=
  (p.hdt.lowestFree? tablePositions).map fun position => p.setRecord position r

/-- The stripe-level fields of every record of a stripe changed, as one update (R8). -/
def Part.updateStripe (p : Part) (t : StripeId) (f : HoldingRecord → HoldingRecord) : Part :=
  p.hdt.foldl (fun q row => if row.2.stripe = t then q.setRecord row.1 (f row.2) else q) p

/-- The lost set and the standing of a stripe written. -/
def Part.setStanding (p : Part) (t : StripeId) (lost : Positions) (standing : Standing) : Part :=
  p.updateStripe t fun r => { r with lost := lost, standing := standing }

/-- The lost set of a stripe written. -/
def Part.setLost (p : Part) (t : StripeId) (lost : Positions) : Part :=
  p.updateStripe t fun r => { r with lost := lost }

/-- The outside claim of a stripe written, or cleared (R7). -/
def Part.setOutside (p : Part) (t : StripeId) (o : Option HeardClaim) : Part :=
  p.updateStripe t fun r => { r with outside := o }

/-- A placement entry of a stripe written (R8). -/
def Part.setPlacement (p : Part) (t : StripeId) (position station : Nat) : Part :=
  p.updateStripe t fun r => { r with placement := r.placement.set position station }

/-- Every record set to standing QUIET, lost set empty and outside claim absent (R19). -/
def Part.quietAll (p : Part) : Part :=
  p.hdt.foldl
    (fun q row => q.setRecord row.1 { row.2 with standing := .quiet, lost := [], outside := none }) p

/-! ## The loss set (R57) -/

/-- The loss set of a stripe: the positions whose placement entry names a station in a DOWN rack (R57). -/
def Part.lossSet (p : Part) (t : StripeId) : Positions :=
  let placement := p.placementOf t
  (List.range placement.length).filter fun i =>
    match placement[i]? with
    | some station => p.stationDown station
    | none => false

/-- The outside claim is stale: heard more than three claim repeat intervals ago (R7). -/
def Part.staleClaim (p : Part) (o : HeardClaim) : Bool := decide (o.heard + 3 * p.claimRepeat < p.now)

end Sys2Proof.Machine
end

