-- ==== Sys2Proof/Machine/Staging.lean ====
section
/-! DEFINITION. The staging memory controller's slots (chapter 10): holds and fills, the return of a slot, zero fills
and the freeing and eviction of serve entries. -/

namespace Sys2Proof.Machine

/-- The slot is used by the combine operation or the verify job in progress (R147, R151). An operation holds the slot of
every entry that it took, that of an entry with coefficient 00h too (R138; DESIGN CHOICE, log 53). -/
def Part.slotHeld (p : Part) (j : Nat) : Bool :=
  (match p.cbe.operation with
    | some o => o.targets.any fun t => t.1 == j
    | none => false)
  || (match p.vfu.job with
    | some v => v.slots.contains j
    | none => false)

/-- The zero fills of a slot queued or in progress (R147). -/
def Part.slotFills (p : Part) (j : Nat) : Nat :=
  (p.smc.fillQueue.filter fun f => f.slot == j).length + (if (p.smc.fill.map FillRequest.slot) = some j then 1 else 0)

/-- A slot whose owner has given it up becomes FREE once it has no fill in progress, no hold and no queued
chunks (R152). -/
def Part.settleSlot (p : Part) (j : Nat) : Part :=
  match p.slot? j with
  | none => p
  | some r =>
    if r.owner = none ∧ p.smc.fill.map FillRequest.slot ≠ some j ∧ p.slotHeld j = false ∧ r.queuedChunks = 0 then
      { p with smc := { p.smc with slots := p.smc.slots.dropRow j } }
    else p

/-- A slot given up by its owner: the owner becomes absent, the window right none, its queued fills are removed, and
it becomes FREE now or is releasing (R151, R152). -/
def Part.giveUpSlot (p : Part) (j : Nat) : Part :=
  let q := p.editSlot j fun r => { r with owner := none, right := .none_ }
  { q with smc := { q.smc with fillQueue := q.smc.fillQueue.filter fun f => f.slot != j } }.settleSlot j

/-- The slots of a list given up one by one, and each settled. -/
def Part.giveUpSlots (p : Part) (slots : List Nat) : Part := slots.foldl Part.giveUpSlot p

/-- A zero fill of a slot requested for a context under its generation: a fill of the slot that is still queued is
removed, and the request joins the tail (R151). -/
def Part.requestFill (p : Part) (c slot : Nat) : Part :=
  let request : FillRequest := { context := c, generation := p.generation c, slot := slot }
  { p with
    smc := { p.smc with fillQueue := (p.smc.fillQueue.filter fun f => f.slot != slot) ++ [request] } }

/-- The MiB of the DRAM that a slot occupies (R147). -/
def slotBlock (slot : Nat) : Nat := holdingsBlocks + slot

/-! ## Serve entries and their slots -/

/-- The queued chunks of a serve entry, counted in its slot's record (R122, R147). -/
def Part.queuedChunks (p : Part) (e : ServeEntry) : Nat := ((p.slot? e.slot).map Slot.queuedChunks).getD 0

/-- A serve entry freed: its number is free at once, and its slot is given up (R127, R128). -/
def Part.freeServe (p : Part) (n : Nat) : Part :=
  match p.serve? n with
  | none => p
  | some e => { p with svu := { p.svu with entries := p.svu.entries.dropRow n } }.giveUpSlot e.slot

/-- The entry may be evicted: STAGED, no openers and no queued chunks (R125). -/
def Part.evictable (p : Part) (e : ServeEntry) : Bool :=
  e.state == .staged && e.openers.isEmpty && p.queuedChunks e == 0

/-- The entries that may be evicted. -/
def Part.evictables (p : Part) : Table ServeEntry := p.svu.entries.filter fun r => p.evictable r.2

/-- The first in eviction order: the earliest last use, and among equal ones the lowest entry number (R125). -/
def firstEvicted? (entries : Table ServeEntry) : Option (Nat × ServeEntry) :=
  entries.foldl
    (fun best r =>
      match best with
      | none => some r
      | some b => if r.2.lastUse < b.2.lastUse then some r else some b)
    none

/-- One entry evicted on behalf of a new owner: the entry is free, and its slot passes on without becoming FREE
(R125, R152). -/
def Part.evict? (p : Part) : Option (Part × Nat) :=
  (firstEvicted? p.evictables).map fun r =>
    ({ p with svu := { p.svu with entries := p.svu.entries.dropRow r.1 } }, r.2.slot)

/-- Entries evicted one after another, with the slots they leave (R149). -/
def Part.evictMany (p : Part) : Nat → Part × List Nat
  | 0 => (p, [])
  | n + 1 =>
    match p.evict? with
    | none => (p, [])
    | some (q, slot) =>
      let (q', rest) := q.evictMany n
      (q', slot :: rest)

/-! ## Granting accumulator slots (R149) -/

/-- Members of a list of numbers in ascending order, without repeats. -/
def ascending (ns : List Nat) : List Nat := ns.foldr insertPosition []

/-- The accumulator budget: the pool less the serve reserve (R149). -/
def Part.accumulatorBudget (p : Part) : Nat := p.pool - p.serveReserve

/-- A grant decided: the part after any evictions and the slots granted, whole or not at all (R149). -/
def Part.grantSlots? (p : Part) (n : Nat) : Option (Part × List Nat) :=
  let free := p.freeSlots
  if p.accumulatorBudget < p.slotsOf .accumulator + n then none
  else if n ≤ free.length then some (p, free.take n)
  else
    let evictable := min p.evictables.length (p.slotsOf .serve - p.serveReserve)
    if n ≤ free.length + evictable then
      let (q, evicted) := p.evictMany (n - free.length)
      some (q, ascending (free ++ evicted))
    else none

/-- The record of a slot granted to a context for a lost position (R149). -/
def accumulatorSlot (c position : Nat) : Slot where
  class_ := .accumulator
  owner := some (.context c position)
  queuedChunks := 0
  right := .none_

/-- The record of a slot taken by a serve entry (R150). -/
def serveSlot (n : Nat) : Slot where
  class_ := .serve
  owner := some (.serveEntry n)
  queuedChunks := 0
  right := .none_

end Sys2Proof.Machine
end

