-- ==== Sys2Proof/Machine/Claims.lean ====
section
/-! DEFINITION. The claim table's own operations (chapter 5): rank, precedence, broadcasting a claim, contending,
yielding and removal. -/

namespace Sys2Proof.Machine

/-- The number of claim entries (R65). -/
def claimEntries : Nat := 256

/-- The spread h of a stripe's rank: the stripe id modulo 65,536 and the own station times 1,025, by
exclusive-or (R66). -/
def claimSpread (t : StripeId) (own : Nat) : BitVec 16 := t.truncate 16 ^^^ BitVec.ofNat 16 (own * 1025)

/-- The rank of a claim on a stripe: load × 65,536 + h (R66). -/
def claimRank (t : StripeId) (own load : Nat) : Rank := BitVec.ofNat 24 (load * 65536 + (claimSpread t own).toNat)

/-- A claim for the purpose of precedence: its rank, absent where unknown, and its settled flag (R67). -/
structure Contender where
  rank : Option Rank
  settled : Bool
  deriving DecidableEq, Repr

/-- Claim a precedes claim b (R67). -/
def Contender.precedes (a b : Contender) : Bool :=
  match a.rank, b.rank with
  | none, some _ => true
  | some x, some y => (a.settled && !b.settled) || (a.settled == b.settled && decide (x.toNat < y.toNat))
  | _, none => false

/-- A heard claim for the purpose of precedence. -/
def HeardClaim.contender (h : HeardClaim) : Contender := { rank := h.rank, settled := h.settled }

/-- The flags byte of a CLAIM: bit 0 settled, bit 1 repeat (R161). -/
def claimFlags (settled repeated : Bool) : Byte :=
  (if settled then 0x01#8 else 0) ||| (if repeated then 0x02#8 else 0)

/-- A CLAIM of an entry broadcast with its own rank and its lost set (R68 to R74). -/
def Part.broadcastClaim (p : Part) (e : ClaimEntry) (settled repeated : Bool) : Part :=
  p.post none (.claim e.stripe e.rank (claimFlags settled repeated) (maskOf e.lost))

/-- An entry enters CONTENDING: its rival and time yielded are cleared, CLAIM(unsettled) is broadcast and the
hold-off timer started (R68). -/
def Part.contend (p : Part) (n : Nat) : Part :=
  match p.clt.entries.row? n with
  | none => p
  | some e =>
    let e' := { e with state := ClaimState.contending (p.now + p.claimHoldOff) }
    (p.setClaim n e').broadcastClaim e' false false

/-- The state of an entry YIELDED to a rival since a moment: the yield timer runs to three claim repeat intervals
after the rival was last heard (R65). -/
def Part.yieldedState (p : Part) (rival : HeardClaim) (timeYielded : Nat) : ClaimState :=
  .yielded rival timeYielded (rival.heard + 3 * p.claimRepeat)

/-- An entry made YIELDED to a rival, leaving the owned list if it was OWNED (R70, R72). -/
def Part.yieldEntry (p : Part) (n : Nat) (e : ClaimEntry) (rival : HeardClaim) (timeYielded : Nat) : Part :=
  let q := p.setClaim n { e with state := p.yieldedState rival timeYielded }
  { q with clt := { q.clt with owned := q.clt.owned.filter (· != n) } }

/-- An entry removed: it leaves the owned list, its timers stop with it, and its number is free (R84). -/
def Part.removeClaim (p : Part) (n : Nat) : Part :=
  { p with clt := { entries := p.clt.entries.dropRow n, owned := p.clt.owned.filter (· != n) } }

/-- The entry of a stripe removed, where it has one. -/
def Part.removeClaimOf (p : Part) (t : StripeId) : Part :=
  match p.claimOf? t with
  | some (n, _) => p.removeClaim n
  | none => p

/-- The entry is CONTENDING or OWNED: it has told the row of its claim (section 5.7). -/
def ClaimEntry.announced (e : ClaimEntry) : Bool :=
  match e.state with
  | .contending _ => true
  | .owned _ => true
  | .yielded .. => false

/-- The entry is YIELDED to the station. -/
def ClaimEntry.yieldedTo (e : ClaimEntry) (station : Nat) : Bool :=
  match e.state with
  | .yielded rival _ _ => rival.station == station
  | _ => false

/-- Every entry YIELDED to a station returns to CONTENDING (R76). -/
def Part.revertYielded (p : Part) (station : Nat) : Part :=
  (p.clt.entries.filter fun r => r.2.yieldedTo station).foldl (fun q r => q.contend r.1) p

end Sys2Proof.Machine
end

