-- ==== Sys2Proof/Machine/Lanes.lean ====
section
/-! DEFINITION. The operations that a context makes on what it holds: releasing lanes (R120), removing its internal
opener (R134), telling the plan and verify units (R27, R146), and posting combine requests (R114, R143). -/

namespace Sys2Proof.Machine

/-! ## Lanes -/

/-- The number of lanes (R106). -/
def laneCount : Nat := 128

/-- A lane that is released posts a RELEASE: in OPENING after its first OPEN has been transmitted, in OPEN-WAIT with
its wait busy mark clear, or in STREAMING (R120). -/
def LaneUse.releaseDue (u : LaneUse) : Bool :=
  match u.state with
  | .opening _ => u.openSent
  | .openWait _ => !u.waitBusy
  | .streaming => true
  | .complete => false
  | .failed _ => false

/-- The lane is in OPENING, OPEN-WAIT or STREAMING. -/
def LaneUse.active (u : LaneUse) : Bool :=
  match u.state with
  | .opening _ => true
  | .openWait _ => true
  | .streaming => true
  | .complete => false
  | .failed _ => false

/-- A RELEASE posted by a lane to its server, with its tag. -/
def Part.postRelease (p : Part) (n server : Nat) : Part := p.post (some server) (.release (p.laneTag n))

/-- A lane released by its context: its unsent requests are withdrawn, a RELEASE is posted where one is due, and it
becomes IDLE, keeping its use count and its combine outstanding mark (R120, R159). The requests are withdrawn before the
RELEASE is posted, which decides whether it finds a place; the manual gives no order (DESIGN CHOICE, log 46). -/
def Part.releaseLane (p : Part) (n : Nat) : Part :=
  match p.laneUse? n with
  | none => p
  | some u =>
    let q := p.withdrawRequests n
    let q := if u.releaseDue then q.postRelease n u.server else q
    q.editLane n fun l => { l with use := none }

/-- Lanes released one by one, in the order of the list: for a context's lanes the order of its reservation, in which lanes
given later stand last (DESIGN CHOICE, log 8). -/
def Part.releaseLanes (p : Part) (lanes : List Nat) : Part := lanes.foldl Part.releaseLane p

/-- Lanes returned to the free pool (R107). -/
def Part.freeLanes (p : Part) (lanes : List Nat) : Part :=
  lanes.foldl (fun q n => q.editLane n fun l => { l with holder := none }) p

/-- Lanes taken for a context (R87, R90). -/
def Part.reserveLanes (p : Part) (c : Nat) (lanes : List Nat) : Part :=
  lanes.foldl (fun q n => q.editLane n fun l => { l with holder := some c }) p

/-- The lanes of the free pool, ascending. -/
def Part.poolLanes (p : Part) : List Nat := (p.ftu.filter fun r => r.2.holder.isNone).map Prod.fst

/-! ## Internal openers -/

/-- The internal opener of a context. -/
def Opener.isInternalOf (c : Nat) : Opener → Bool
  | .internal o => o.context == c
  | .remote .. => false

/-- A remote opener of a station. -/
def Opener.isRemoteOf (station : Nat) : Opener → Bool
  | .remote s _ _ _ => s == station
  | .internal _ => false

/-- The remote opener of a station and fetch tag. -/
def Opener.isPair (station : Nat) (tag : Tag) : Opener → Bool
  | .remote s t _ _ => s == station && t == tag
  | .internal _ => false

/-- Openers removed from an entry; a FAILED entry whose list is now empty is freed (R128). -/
def Part.removeOpeners (p : Part) (n : Nat) (leaves : Opener → Bool) : Part :=
  match p.serve? n with
  | none => p
  | some e =>
    if e.openers.any leaves then
      let openers := e.openers.filter fun o => !leaves o
      match e.state, openers with
      | .failed _, [] => (p.setServe n { e with openers := [] }).freeServe n
      | _, _ => p.setServe n { e with openers := openers }
    else p

/-- Openers removed from every entry that holds one (R128, R130, R134). -/
def Part.removeOpenersEverywhere (p : Part) (leaves : Opener → Bool) : Part :=
  p.svu.entries.numbers.foldl (fun q n => q.removeOpeners n leaves) p

/-- A context's internal opener removed, where it stands or where it waits (R134). -/
def Part.detachOpener (p : Part) (c : Nat) : Part :=
  let q := p.removeOpenersEverywhere (Opener.isInternalOf c)
  { q with svu := { q.svu with waiting := q.svu.waiting.filter fun o => o.context != c } }

/-! ## The plan and verify units told (R27, R146) -/

/-- The plan unit told of a context's re-plan or outcome: its queued job is removed, its job in progress
void (R27). -/
def Part.tellPlanUnit (p : Part) (c : Nat) : Part :=
  { p with
    plu := {
      queue := p.plu.queue.filter (· != c)
      job := p.plu.job.map fun j => if j.context = c then { j with void := true } else j } }

/-- The verify unit told of a context's outcome: its queued job is removed, its job in progress void (R146). -/
def Part.tellVerifyUnit (p : Part) (c : Nat) : Part :=
  { p with
    vfu := {
      queue := p.vfu.queue.filter fun j => j.context != c
      job := p.vfu.job.map fun j => if j.context = c then { j with void := true } else j } }

/-! ## Posting combine requests (R136, R143) -/

/-- The depth of the combine queue: the requests posted and not yet completed (R136). -/
def Part.combineDepth (p : Part) : Nat := p.cbe.queue.length + (if p.cbe.operation.isSome then 1 else 0)

/-- A combine request posted at the tail of the queue; the posting that brings the depth to 96 raises the bandwidth
warning and sets the WARN flag (R136, R143). -/
def Part.postCombine (p : Part) (r : CombineRequest) : Part :=
  let q := { p with cbe := { p.cbe with queue := p.cbe.queue ++ [r] } }
  if q.combineDepth = 96 ∧ q.cbe.warning = false then
    { q with cbe := { q.cbe with warning := true } }.setFlag .warn
  else q

/-- The bank of a chunk: chunk c uses bank c mod 2 (R106). -/
def LaneUse.bankOf (u : LaneUse) (chunk : Nat) : Bank := if chunk % 2 = 0 then u.bank0 else u.bank1

/-- The bank of a chunk written. -/
def LaneUse.setBank (u : LaneUse) (chunk : Nat) (b : Bank) : LaneUse :=
  if chunk % 2 = 0 then { u with bank0 := b } else { u with bank1 := b }

/-- The bank is FULL for the chunk. -/
def Bank.fullFor (b : Bank) (chunk : Nat) : Bool :=
  match b with
  | .full c _ => c == chunk
  | _ => false

/-- The bank is REQUESTED. -/
def Bank.isRequested : Bank → Bool
  | .requested .. => true
  | _ => false

/-- A lane posts the combine request of its next chunk when that chunk's bank is FULL for it and its combine
outstanding mark is clear, and sets the mark (R114). -/
def Part.laneCombine (p : Part) (n : Nat) : Part :=
  match p.laneUse? n with
  | none => p
  | some u =>
    if u.active && (u.bankOf u.nextConsume).fullFor u.nextConsume && !(p.lane n).outstanding then
      (p.editLane n fun l => { l with outstanding := true }).postCombine
        { context := u.context, generation := u.generation, survivor := u.survivor, chunk := u.nextConsume,
          source := .lane n (p.laneTag n) }
    else p

end Sys2Proof.Machine
end

