-- ==== Sys2Proof/Machine/Contexts.lean ====
section
/-! DEFINITION. What a rebuild context does (chapter 6): its release and outcomes, its re-plan, the slots it asks for,
and the failures of its lanes and of its local survivor that re-plan it. -/

namespace Sys2Proof.Machine

/-! ## Reading a context -/

/-- The number of contexts (R85). -/
def contextCount : Nat := 32

/-- The context has no pending outcome: it takes the events that name it (R103). -/
def Context.live (x : Context) : Bool := x.pendingOutcome.isNone

/-- The enabled entries of the lost list. -/
def Context.enabled (x : Context) : List LostEntry := x.lostList.filter LostEntry.enabled

/-- The enabled entry has no slot yet (R85, R90). -/
def LostEntry.lacksSlot (e : LostEntry) : Bool := e.enabled && e.slot.isNone

/-- The positions of the entries that lack a slot, in lost-list order. -/
def Context.lacking (x : Context) : Positions := (x.lostList.filter LostEntry.lacksSlot).map LostEntry.position

/-- Every enabled entry has fill state READY. -/
def Context.allReady (x : Context) : Bool := x.enabled.all fun e => e.fill == .ready

/-- The survivors whose source is not LOCAL. -/
def Context.remotes (x : Context) : List Survivor := (x.survivors.getD []).filter fun v => v.source != .ownHoldings

/-- The lanes that a context holding a plan still lacks (R89, R90). -/
def Context.lanesLacking (x : Context) : Nat :=
  if x.state = .planning ∧ x.plan.isSome then x.remotes.length - x.reservation.length else 0

/-- The context waits for lanes or slots, and so holds back admission (R90). -/
def Context.waits (x : Context) : Bool := x.live && (!x.lacking.isEmpty || decide (0 < x.lanesLacking))

/-- A new lost-list entry: enabled, without a slot (R85, R96). -/
def LostEntry.fresh (position : Nat) : LostEntry where
  position := position
  enabled := true
  slot := none
  fill := .waiting
  digest := none
  delivery := .none_
  tag := none

/-- The tag of an entry whose request is outstanding (R101, step 5). -/
def LostEntry.requestedTag? (e : LostEntry) : Option Tag := if e.delivery = .requested then e.tag else none

/-! ## Slots for a context (R88, R90, R149) -/

/-- A zero fill requested for every enabled entry that holds a slot, its fill state becoming FILLING (R95, step 8). These
requests join the fill FIFO in lost-list order, which the manual does not give (R95; DESIGN CHOICE, log 37). -/
def Part.refill (p : Part) (c : Nat) : Part :=
  match p.context? c with
  | none => p
  | some x =>
    let q := p.editContext c fun y =>
      { y with lostList := y.lostList.map fun e =>
          if e.enabled && e.slot.isSome then { e with fill := .filling } else e }
    (x.enabled.filterMap LostEntry.slot).foldl (fun r j => r.requestFill c j) q

/-- A slot granted to a context for a position: its record, the entry's FILLING and the zero fill (R88, R90, R149). -/
def Part.giveSlot (p : Part) (c : Nat) (positionSlot : Nat × Nat) : Part :=
  let (position, j) := positionSlot
  ((p.setSlot j (accumulatorSlot c position)).editContext c fun y =>
    { y with lostList := y.lostList.map fun e =>
        if e.position = position ∧ e.lacksSlot then { e with slot := some j, fill := .filling } else e }).requestFill c j

/-- A context asks for the slots that its entries lack: all are granted or none (R90, R149). Which slot goes to which
entry, and the order of their fill requests, are the model's (DESIGN CHOICE, log 15, log 37). -/
def Part.askSlots (p : Part) (c : Nat) : Part :=
  match p.context? c with
  | none => p
  | some x =>
    if x.lacking.isEmpty then p
    else
      match p.grantSlots? x.lacking.length with
      | none => p
      | some (q, slots) => (x.lacking.zip slots).foldl (fun r ps => r.giveSlot c ps) q

/-! ## Release and outcomes (R101 to R104) -/

/-- What every outcome releases, in one event: jobs, lanes, the internal opener, tags and slots; a void tag leaves its
entry, so that a later use of its value finds no entry here (R101, R168). The survivor list and the decode plan are absent
from then on, since a context whose outcome is pending holds nothing (R29, R103). The lanes are released in the order of
the reservation (DESIGN CHOICE, log 8). -/
def Part.releaseContext (p : Part) (c : Nat) : Part :=
  match p.context? c with
  | none => p
  | some x =>
    let q := (p.tellPlanUnit c).tellVerifyUnit c
    let q := (q.releaseLanes x.reservation).freeLanes x.reservation
    let q := q.detachOpener c
    let q := (x.lostList.filterMap LostEntry.requestedTag?).foldl Part.voidTag q
    let q := q.editContext c fun y =>
      { y with
        reservation := []
        survivors := none
        plan := none
        lostList := y.lostList.map fun e => { e with slot := none, tag := none } }
    q.giveUpSlots (x.lostList.filterMap LostEntry.slot)

/-- A context becomes free, keeping its generation (R101). -/
def Part.freeContext (p : Part) (c : Nat) : Part :=
  { p with ctx := { p.ctx with contexts := p.ctx.contexts.dropRow c } }

/-- An outcome ordered by another block: the release, and the context free; a pending outcome is replaced without its
report (R103, R104). -/
def Part.endContext (p : Part) (c : Nat) : Part := (p.releaseContext c).freeContext c

/-- The context of a stripe, if any, ended by an ordered outcome (R104). -/
def Part.endContextOf (p : Part) (t : StripeId) : Part :=
  match p.contextOf? t with
  | some (c, _) => p.endContext c
  | none => p

/-- Outcome ABANDONED completed: the frame, the entry removed, the stripe QUIET, the report, the context free (R102). -/
def Part.completeAbandoned (p : Part) (c : Nat) (cause : AbandonCause) : Part :=
  match p.context? c with
  | none => p
  | some x =>
    let q := (p.withdrawPlain x.stripe .abandoned).removeClaimOf x.stripe
    let q := q.setStanding x.stripe [] .quiet
    (q.postReport (.repairAbandoned cause x.stripe)).freeContext c

/-- Outcome VERIFY-FAIL completed: the frame, the entry removed, the stripe UNRECOVERABLE with the claim entry's lost
set, the report, the context free (R102). -/
def Part.completeVerifyFail (p : Part) (c : Nat) (failed : Positions) : Part :=
  match p.context? c with
  | none => p
  | some x =>
    let lost := ((p.claimOf? x.stripe).map fun r => r.2.lost).getD []
    let q := (p.withdrawPlain x.stripe .unrecoverable).removeClaimOf x.stripe
    let q := q.setStanding x.stripe lost .unrecoverable
    (q.postReport (.verifyFail x.stripe failed)).freeContext c

/-- A pending outcome, or one just decided, completed (R102, R103). -/
def Part.completeReported (p : Part) (c : Nat) : PendingOutcome → Part
  | .abandoned cause => p.completeAbandoned c cause
  | .verifyFail failed => p.completeVerifyFail c failed

/-- An outcome that posts a report decided: the release at once, and the rest now or, while the report path is full,
as the context's pending outcome (R103). -/
def Part.decideReported (p : Part) (c : Nat) (o : PendingOutcome) : Part :=
  let q := p.releaseContext c
  if q.reportPathFull then q.editContext c fun y => { y with pendingOutcome := some o }
  else q.completeReported c o

/-- Outcome ABANDONED decided (R102). -/
def Part.abandon (p : Part) (c : Nat) (cause : AbandonCause) : Part := p.decideReported c (.abandoned cause)

/-! ## Planning (R26, R88, R91) -/

/-- A context enters PLANNING and posts a plan job, which joins the tail of the FIFO (R26, R88, R91, R95). -/
def Part.enterPlanning (p : Part) (c : Nat) : Part :=
  let q := p.editContext c fun y => { y with state := .planning }
  { q with plu := { q.plu with queue := q.plu.queue ++ [c] } }

/-! ## Re-plan (R95, R96) -/

/-- The lost list rebuilt from a new lost set: entries not kept leave and give up their slots, added positions get new
entries, and an enabled entry that stays keeps its slot (R96). -/
def Part.rebuildLostList (p : Part) (c : Nat) (new : Positions) : Part :=
  match p.context? c with
  | none => p
  | some x =>
    let kept := fun e : LostEntry => e.enabled && new.contains e.position
    let q := p.editContext c fun y =>
      { y with lostList := new.map fun position =>
          (y.lostList.find? fun e => e.enabled && e.position == position).getD (LostEntry.fresh position) }
    q.giveUpSlots ((x.lostList.filter fun e => !kept e).filterMap LostEntry.slot)

/-- A re-plan, in the order of its steps; the ninth cause ends the context ABANDONED. Where a change of the lost set
brought it, the new set is given (R95). The lanes are released in the order of the reservation (DESIGN CHOICE, log 8). At
step 8 the fills of the slots that the context keeps are requested first and those of newly granted slots after them, each
group in lost-list order, so that an added position's fill comes last also where the position is lower (DESIGN CHOICE,
log 37); and the context asks for its slots in this event, before any other context that waits is served with those that
its rebuilt lost list has returned (R90, R96; DESIGN CHOICE, log 44). -/
def Part.rePlan (p : Part) (c : Nat) (newLost : Option Positions) : Part :=
  match p.context? c with
  | none => p
  | some x =>
    if 8 ≤ x.rePlans then p.abandon c .rePlanLimit
    else
      let q := p.bumpGeneration c
      let q := q.tellPlanUnit c
      let q := q.releaseLanes x.reservation
      let q := q.detachOpener c
      let q := q.editContext c fun y =>
        { y with
          rePlans := y.rePlans + 1
          survivors := none
          plan := none
          contributions := List.replicate y.chunkCount []
          chunksComplete := 0
          deadline := .absent }
      let q := match newLost with
        | some new => q.rebuildLostList c new
        | none => q
      let q := (q.refill c).askSlots c
      q.enterPlanning c

/-! ## Failures that re-plan (R94, R118, R134) -/

/-- The context gathers under the generation, without a pending outcome. -/
def Part.gatheringAt (p : Part) (c : Nat) (generation : BitVec 8) : Bool :=
  match p.context? c with
  | some x => x.live && x.state == .gathering && p.generation c == generation
  | none => false

/-- A position added to a context's unusable set (R94). -/
def Part.markUnusable (p : Part) (c position : Nat) : Part :=
  p.editContext c fun y => { y with unusable := insertPosition position y.unusable }

/-- A lane enters FAILED: its unsent requests are withdrawn, its banks emptied, and a RELEASE is posted unless the
server holds no opener for it (R118, R159). The requests are withdrawn before the RELEASE is posted, which decides whether
it finds a place; the manual gives no order (DESIGN CHOICE, log 46). -/
def Part.enterFailed (p : Part) (n : Nat) (cause : LaneFailure) : Part :=
  match p.laneUse? n with
  | none => p
  | some u =>
    let q := (p.withdrawRequests n).setUse n { u with state := .failed cause, bank0 := .empty, bank1 := .empty }
    match cause with
    | .refused _ => q
    | .serverLost => q
    | .waitLimit => if u.waitBusy then q else q.postRelease n u.server
    | _ => q.postRelease n u.server

/-- A FAILED lane's report taken by its context: one of the current generation re-plans it in GATHERING, with the
survivor's position unusable unless its server was lost (R94, R118). The position joins the unusable set also at the ninth
cause, which ends the context (R95, step 1; DESIGN CHOICE, log 42): its plan and survivors are gone with that outcome, so
that no survivor of a plan is unusable (R29, R103). -/
def Part.reportFailedLane (p : Part) (n : Nat) : Part :=
  match p.laneUse? n with
  | none => p
  | some u =>
    match u.state with
    | .failed cause =>
      if p.gatheringAt u.context u.generation then
        (if cause = .serverLost then p else p.markUnusable u.context u.position).rePlan u.context none
      else p
    | _ => p

/-- A lane fails: it enters FAILED and reports to its context (R118). -/
def Part.failLane (p : Part) (n : Nat) (cause : LaneFailure) : Part := (p.enterFailed n cause).reportFailedLane n

/-- The failure of the local survivor taken by the context, if it gathers under the generation: a re-plan with the
local position unusable, which joins that set also at the ninth cause, as for a lane (R94, R95, R134; DESIGN CHOICE,
log 42). -/
def Part.failLocal (p : Part) (c : Nat) (generation : BitVec 8) (position : Nat) : Part :=
  if p.gatheringAt c generation then (p.markUnusable c position).rePlan c none else p

end Sys2Proof.Machine
end

