-- ==== Sys2Proof/Machine/Serve.lean ====
section
/-! DEFINITION. The serve unit's shared operations (chapter 8): entries and their STAGE requests, the internal opener's
feeding and attachment, and the replies to peers. -/

namespace Sys2Proof.Machine

/-- The number of serve entries (R122). -/
def serveEntries : Nat := 256

/-- The openers an entry may have (R122). -/
def openerPlaces : Nat := 16

/-- The entry holds its key: one that FAILED by a drop does not (R122, R131). -/
def ServeEntry.holdsKey (e : ServeEntry) : Bool := e.state != .failed .dropped

/-- The serve entry that holds a key (R122). -/
def Part.serveOf? (p : Part) (t : StripeId) (position : Nat) : Option (Nat × ServeEntry) :=
  p.svu.entries.findRow? fun e => e.holdsKey && e.stripe == t && e.position == position

/-- An opener added to an entry. -/
def Part.addOpener (p : Part) (n : Nat) (o : Opener) : Part :=
  match p.serve? n with
  | none => p
  | some e => p.setServe n { e with openers := e.openers ++ [o] }

/-! ## New entries (R124) -/

/-- An entry's STAGE request posted with a new tag, its slot taking the right WRITE under it; nothing while the report
path is full (R124, R150, R168). -/
def Part.postStageRequest (p : Part) (n : Nat) : Part :=
  match p.serve? n with
  | none => p
  | some e =>
    if p.reportPathFull then p
    else
      let tag := p.hlk.tagCounter
      let q := (p.takeTag .stage).setServe n { e with requested := true, tag := some tag }
      (q.editSlot e.slot fun r => { r with right := .write tag }).postReport
        (.stageRequest tag e.stripe e.position e.length e.slot)

/-- A new entry in STAGING on a slot, with its STAGE request (R124). -/
def Part.startServe (p : Part) (n slot : Nat) (t : StripeId) (position length : Nat) : Part :=
  ((p.setSlot slot (serveSlot n)).setServe n
    { stripe := t, position := position, length := length, slot := slot, state := .staging, requested := false,
      tag := none, openers := [], lastUse := p.now }).postStageRequest n

/-- A new entry sought for a key: a free entry with the lowest free slot, or one evicted entry's slot, or none
(R124, R150). -/
def Part.newServe? (p : Part) (t : StripeId) (position length : Nat) : Option (Part × Nat) :=
  match p.svu.entries.lowestFree? serveEntries, p.freeSlots.head? with
  | some n, some slot => some (p.startServe n slot t position length, n)
  | _, _ =>
    match p.evict? with
    | none => none
    | some (q, slot) =>
      (q.svu.entries.lowestFree? serveEntries).map fun n => (q.startServe n slot t position length, n)

/-! ## The internal opener (R132 to R134) -/

/-- The attached internal opener of a context, with its entry (R132). -/
def Part.attachedOpener? (p : Part) (c : Nat) : Option (Nat × ServeEntry × InternalOpener) :=
  p.svu.entries.findSome? fun r =>
    r.2.openers.findSome? fun o =>
      match o with
      | .internal i => if i.context = c then some (r.1, r.2, i) else none
      | .remote .. => none

/-- The internal opener of a context written in its entry. -/
def Part.setOpener (p : Part) (n : Nat) (i : InternalOpener) : Part :=
  match p.serve? n with
  | none => p
  | some e =>
    p.setServe n
      { e with openers := e.openers.map fun o => if o.isInternalOf i.context then .internal i else o }

/-- The last use of an entry written as the moment. -/
def Part.touchServe (p : Part) (n : Nat) : Part :=
  match p.serve? n with
  | none => p
  | some e => p.setServe n { e with lastUse := p.now }

/-- An internal opener in a STAGED entry posts its next chunk's combine request when the serve unit's combine mark of
its context is clear, and the mark is set (R133). -/
def Part.feed (p : Part) (c : Nat) : Part :=
  match p.attachedOpener? c with
  | some (_, e, i) =>
    if e.state = .staged ∧ i.ended = .open_ ∧ i.nextChunk < chunkCountOf e.length
        ∧ p.svu.combineMarks.contains c = false then
      { p with svu := { p.svu with combineMarks := insertPosition c p.svu.combineMarks } }.postCombine
        { context := c, generation := i.generation, survivor := 0, chunk := i.nextChunk, source := .internal }
    else p
  | none => p

/-- What an attempt to attach an internal opener comes to (R132). -/
inductive Attachment where
  | failed
  | attached (after : Part)
  | mustWait

/-- An internal opener attached to the serve entry of its key, step by step (R132). -/
def Part.attach (p : Part) (i : InternalOpener) : Attachment :=
  match p.recordOf? i.stripe i.position with
  | none => .failed
  | some (_, record) =>
    match p.serveOf? i.stripe i.position with
    | some (n, e) =>
      match e.state with
      | .failed _ => .failed
      | .staged =>
        if e.openers.length < openerPlaces then
          .attached (((p.addOpener n (.internal i)).touchServe n).feed i.context)
        else .mustWait
      | .staging =>
        if e.openers.length < openerPlaces then .attached (p.addOpener n (.internal i)) else .mustWait
    | none =>
      match p.newServe? i.stripe i.position record.length with
      | some (q, n) => .attached (q.addOpener n (.internal i))
      | none => .mustWait

/-- The failure of an attached internal opener: it posts nothing more, and its context is told (R134). -/
def Part.failOpener (p : Part) (n : Nat) (i : InternalOpener) : Part :=
  (p.setOpener n { i with ended := .failed }).failLocal i.context i.generation i.position

/-- The internal openers of an entry. -/
def ServeEntry.internals (e : ServeEntry) : List InternalOpener :=
  e.openers.filterMap fun o =>
    match o with
    | .internal i => some i
    | .remote .. => none

/-- A FAILED entry without openers freed (R126, R131). -/
def Part.freeIfEmpty (p : Part) (n : Nat) : Part :=
  match p.serve? n with
  | none => p
  | some e =>
    match e.state, e.openers with
    | .failed _, [] => p.freeServe n
    | _, _ => p

/-- An entry becomes FAILED with a cause, and keeps no request tag: its internal openers report, and it is freed if no
opener is left (R122, R126, R131). -/
def Part.failServe (p : Part) (n : Nat) (cause : ServeFailure) : Part :=
  match p.serve? n with
  | none => p
  | some e =>
    let q := p.setServe n { e with state := .failed cause, tag := none }
    let q := e.internals.foldl (fun r i => if i.ended = .failed then r else r.failOpener n i) q
    q.freeIfEmpty n

/-- The drop of a key at the serve unit: the entry that holds it, or has FAILED by the host, becomes FAILED with cause
DROPPED, its STAGE tag void and its request not posted (R131). -/
def Part.dropServed (p : Part) (t : StripeId) (position : Nat) : Part :=
  match p.serveOf? t position with
  | none => p
  | some (n, e) => ((p.voidTag? (if e.state = .staging then e.tag else none)).failServe n .dropped)

end Sys2Proof.Machine
end

