-- ==== Sys2Proof/Machine/Gather.lean ====
section
/-! DEFINITION. Entry to GATHERING and what runs in it: giving lanes (R92, R108), the window (R112), re-opening (R119),
a fragment's end (R116), and entry to VERIFYING (R93). -/

namespace Sys2Proof.Machine

/-! ## Attaching (R92, R132) -/

/-- An internal opener attached, put on the waiting list, or failed at once (R132). -/
def Part.attachOrWait (p : Part) (i : InternalOpener) : Part :=
  match p.attach i with
  | .attached q => q
  | .mustWait => { p with svu := { p.svu with waiting := p.svu.waiting ++ [i] } }
  | .failed => p.failLocal i.context i.generation i.position

/-- The waiting list served from its head until the head must wait again (R132). -/
def Part.serveWaiting (p : Part) : List InternalOpener → Part
  | [] => p
  | i :: rest =>
    match p.attach i with
    | .mustWait => p
    | .attached q => ({ q with svu := { q.svu with waiting := q.svu.waiting.drop 1 } }).serveWaiting rest
    | .failed =>
      (({ p with svu := { p.svu with waiting := p.svu.waiting.drop 1 } }).failLocal i.context i.generation
        i.position).serveWaiting rest

/-! ## Requests of a lane (R108, R112, R159) -/

/-- The bank is REQUESTED for the chunk. -/
def Bank.requestedFor (b : Bank) (chunk : Nat) : Bool :=
  match b with
  | .requested c _ _ => c == chunk
  | _ => false

/-- The reply timeout of a lane's OPEN started in OPENING (R108). -/
def Part.startOpenTimeout (p : Part) (n : Nat) : Part :=
  match p.laneUse? n with
  | none => p
  | some u =>
    match u.state with
    | .opening _ => p.setUse n { u with state := .opening (some (p.now + p.replyTimeout)) }
    | _ => p

/-- The reply timeout of a PULL started: the sent time of the bank that is REQUESTED for its chunk (R112). -/
def Part.startPullTimeout (p : Part) (n chunk : Nat) : Part :=
  match p.laneUse? n with
  | none => p
  | some u =>
    match u.bankOf chunk with
    | .requested c tries _ =>
      if c = chunk then p.setUse n (u.setBank chunk (.requested c tries (some p.now))) else p
    | _ => p

/-- A lane's OPEN posted, with its tag. One that is discarded unsent starts its timeout at once, since the lane recovers
from the discard through it (R108, R159, DEDUCED, log 10). -/
def Part.postOpen (p : Part) (n : Nat) (u : LaneUse) : Part :=
  let q := p.post (some u.server) (.fetchOpen u.stripe (BitVec.ofNat 8 u.position) (p.laneTag n))
  if p.takesControl then q else q.startOpenTimeout n

/-- A lane's PULL of a chunk posted, with its tag; one that is discarded unsent starts its timeout at once
(R112, R159, DEDUCED, log 10). -/
def Part.postPull (p : Part) (n : Nat) (u : LaneUse) (chunk : Nat) : Part :=
  let q := p.post (some u.server) (.pull (p.laneTag n) (BitVec.ofNat 8 chunk))
  if p.takesControl then q else q.startPullTimeout n chunk

/-! ## Giving a lane (R92, R108) -/

/-- A lane given to a survivor of a context: a new use with a new tag, and its OPEN posted; or FAILED at once if the
server is LOST or ABSENT (R108). -/
def Part.giveLane (p : Part) (n c index : Nat) (x : Context) (v : Survivor) : Part :=
  let u : LaneUse :=
    { context := c, generation := p.generation c, survivor := index, stripe := x.stripe, position := v.position,
      server := v.holder, state := .opening none, openSent := false, length := x.length,
      digest := p.expectedDigest? x.stripe v.position, openTries := 1, nextConsume := 0, nextRequest := 0,
      bank0 := .empty, bank1 := .empty, runningDigest := digestStart, waitCount := 0, waitBusy := false, reOpens := 0 }
  let q := p.editLane n fun l => { l with useCount := l.useCount + 1, use := some u }
  if p.gone v.holder then q.enterFailed n .serverLost
  else q.postOpen n u

/-- The survivors with their indices, each remote one with the lowest lane not yet given (R92). -/
def assignSources : Nat → List Survivor → List Nat → List (Nat × Survivor)
  | _, [], _ => []
  | index, v :: rest, lanes =>
    if v.source = .ownHoldings then (index, v) :: assignSources (index + 1) rest lanes
    else
      match lanes with
      | n :: more => (index, { v with source := .lane n }) :: assignSources (index + 1) rest more
      | [] => (index, v) :: assignSources (index + 1) rest []

/-- The context is ready to enter GATHERING: PLANNING with a plan, its lanes sufficient, every enabled entry
READY (R89, R90). -/
def Context.mayGather (x : Context) : Bool :=
  x.live && x.state == .planning && x.plan.isSome && decide (x.remotes.length ≤ x.reservation.length) && x.allReady

/-- Entry to GATHERING in one event: every survivor gets its source, the contribution record is emptied, and failures
met on the way are then reported (R92). Every lane is given before the local survivor attaches, so that a failure of that
one finds their OPENs posted (DESIGN CHOICE, log 34). -/
def Part.enterGathering (p : Part) (c : Nat) : Part :=
  match p.context? c with
  | none => p
  | some x =>
    let sources := assignSources 0 (x.survivors.getD []) (ascending x.reservation)
    let generation := p.generation c
    let q := p.editContext c fun y =>
      { y with
        state := .gathering
        survivors := some (sources.map Prod.snd)
        contributions := List.replicate y.chunkCount []
        chunksComplete := 0 }
    let given := sources.filterMap fun (i, v) =>
      match v.source with
      | .lane n => some (n, i, v)
      | _ => none
    let q := given.foldl (fun r (n, i, v) => r.giveLane n c i x v) q
    let q := match sources.find? fun (_, v) => v.source == .ownHoldings with
      | some (_, v) =>
        q.attachOrWait
          { context := c, generation := generation, stripe := x.stripe, position := v.position, nextChunk := 0,
            runningDigest := digestStart, ended := .open_ }
      | none => q
    given.foldl (fun r (n, _, _) => r.reportFailedLane n) q

/-- A context that may enter GATHERING enters it (R89, R90). -/
def Part.tryGather (p : Part) (c : Nat) : Part :=
  match p.context? c with
  | some x => if x.mayGather then p.enterGathering c else p
  | none => p

/-- What READY fills, lanes or a shrink may complete: ADMITTING goes on to PLANNING, PLANNING to GATHERING
(R88, R90, R97). -/
def Part.advance (p : Part) (c : Nat) : Part :=
  match p.context? c with
  | none => p
  | some x =>
    if x.live then
      match x.state with
      | .admitting => if x.allReady then p.enterPlanning c else p
      | .planning => p.tryGather c
      | _ => p
    else p

/-! ## The window (R112) -/

/-- The width of the window: 2 while the bandwidth warning is lowered, 1 while it is raised (R112). -/
def Part.windowWidth (p : Part) : Nat := if p.cbe.warning then 1 else 2

/-- A PULL may be sent for the next chunk to request (R112). -/
def LaneUse.mayPull (u : LaneUse) (width : Nat) : Bool :=
  u.state == .streaming
    && decide (u.nextRequest < u.nextConsume + 2) && decide (u.nextRequest < chunkCountOf u.length)
    && u.bankOf u.nextRequest == .empty
    && decide ((if u.bank0.isRequested then 1 else 0) + (if u.bank1.isRequested then 1 else 0) < width)

/-- The lowest chunk from a chunk on that is not FULL in its bank, for the chunk after a request: next to request never
names a chunk that a bank already holds (R106, R112). -/
def LaneUse.pastFull (u : LaneUse) (chunk : Nat) : Nat :=
  if (u.bankOf chunk).fullFor chunk then chunk + 1 else chunk

/-- One PULL sent where the window allows it (R112). -/
def Part.sendPull (p : Part) (n : Nat) : Part :=
  match p.laneUse? n with
  | none => p
  | some u =>
    if u.mayPull p.windowWidth then
      let v := u.setBank u.nextRequest (.requested u.nextRequest 1 none)
      (p.setUse n { v with nextRequest := v.pastFull (u.nextRequest + 1) }).postPull n u u.nextRequest
    else p

/-- The window tested: up to two PULLs, the lower chunk first (R112). -/
def Part.testWindow (p : Part) (n : Nat) : Part := (p.sendPull n).sendPull n

/-- Every STREAMING lane tests its window (R112, R143). -/
def Part.testAllWindows (p : Part) : Part := p.ftu.numbers.foldl Part.testWindow p

/-! ## Re-opening (R119) -/

/-- A bank that is REQUESTED becomes EMPTY (R119, step 2). -/
def Bank.dropRequest (b : Bank) : Bank := if b.isRequested then .empty else b

/-- The lowest chunk at or above next to consume whose bank is not FULL for it (R119, step 3). -/
def LaneUse.firstMissing (u : LaneUse) : Nat :=
  if !(u.bankOf u.nextConsume).fullFor u.nextConsume then u.nextConsume
  else if !(u.bankOf (u.nextConsume + 1)).fullFor (u.nextConsume + 1) then u.nextConsume + 1
  else u.nextConsume + 2

/-- A lane re-opens under its tag, or fails at the re-open limit (R119, R159). Its unsent requests are withdrawn before the
new OPEN is posted, which decides whether that finds a place; the manual gives no order (DESIGN CHOICE, log 46). -/
def Part.reOpen (p : Part) (n : Nat) : Part :=
  match p.laneUse? n with
  | none => p
  | some u =>
    if 2 ≤ u.reOpens then p.failLane n .reOpenLimit
    else
      let v := { u with bank0 := u.bank0.dropRequest, bank1 := u.bank1.dropRequest }
      ((p.withdrawRequests n).setUse n
        { v with
          reOpens := u.reOpens + 1
          nextRequest := v.firstMissing
          state := .opening none
          openTries := 1 }).postOpen n u

/-! ## Entry to VERIFYING (R93) -/

/-- The lane is COMPLETE. -/
def Part.laneComplete (p : Part) (n : Nat) : Bool :=
  match p.laneUse? n with
  | some u => u.state == .complete
  | none => false

/-- The context has no internal opener, or that has fed its last chunk (R93). -/
def Part.openerFed (p : Part) (c : Nat) (x : Context) : Bool :=
  if (x.survivors.getD []).any fun v => v.source == .ownHoldings then
    match p.attachedOpener? c with
    | some (_, _, i) => i.generation == p.generation c && i.ended == .fed
    | none => false
  else true

/-- Entry to VERIFYING when every chunk is complete, every lane COMPLETE and the internal opener has fed its last
chunk: the opener and the lanes leave the context, and a verify job is posted (R93). -/
def Part.checkGathered (p : Part) (c : Nat) : Part :=
  match p.context? c with
  | none => p
  | some x =>
    if x.live && x.state == .gathering && x.chunksComplete == x.chunkCount && x.reservation.all p.laneComplete
        && p.openerFed c x then
      let q := p.detachOpener c
      let q := (q.releaseLanes x.reservation).freeLanes x.reservation
      let q := q.editContext c fun y => { y with reservation := [], state := .verifying }
      { q with vfu := { q.vfu with queue := q.vfu.queue ++ [{ context := c, generation := q.generation c }] } }
    else p

/-- The end of a lane's fragment: FAILED by its digest, or COMPLETE with a RELEASE and the report to its context
(R116, R159). The unsent requests are withdrawn before the RELEASE is posted, as R115 case 3 lists it for an OPEN; for a
PULL sent again the manual gives no order (DESIGN CHOICE, log 46). -/
def Part.endFragment (p : Part) (n : Nat) : Part :=
  match p.laneUse? n with
  | none => p
  | some u =>
    if u.digest.isSome && u.digest != some (digestFinish u.runningDigest) then p.failLane n .damaged
    else
      let q := (p.withdrawRequests n).setUse n { u with state := .complete }
      let q := q.postRelease n u.server
      if q.generation u.context = u.generation then q.checkGathered u.context else q

end Sys2Proof.Machine
end

