-- ==== Sys2Proof/Machine/Evaluate.lean ====
section
/-! DEFINITION. Evaluation E (R57 to R61), the loss-changed event (R82) with what a context makes of it (R96, R97), and
the outcome DONE that evaluates the stripe again (R102). -/

namespace Sys2Proof.Machine

/-- The room of the repair queue (R61, R62). -/
def repairPlaces : Nat := 1024

/-! ## Loss changes at a context (R96, R97) -/

/-- Positions with an enabled entry (R96). -/
def Context.enabledPositions (x : Context) : Positions := x.enabled.map LostEntry.position

/-- Shrink: each returned position's entry is disabled and its slot given up; no re-plan follows (R97). -/
def Part.shrinkContext (p : Part) (c : Nat) (new : Positions) : Part :=
  match p.context? c with
  | none => p
  | some x =>
    let returned := fun e : LostEntry => e.enabled && !new.contains e.position
    let q := p.editContext c fun y =>
      { y with lostList := y.lostList.map fun e =>
          if returned e then { e with enabled := false, slot := none } else e }
    (q.giveUpSlots ((x.lostList.filter returned).filterMap LostEntry.slot)).advance c

/-- A new lost set of 1 to m members taken by a context according to its state (R96). Where growth rebuilds the lost list,
the context's own request for slots comes before the service of any other context that waits for the slots the rebuild has
returned (R90, R96, R152; DESIGN CHOICE, log 44). -/
def Part.changeContextLoss (p : Part) (c : Nat) (new : Positions) : Part :=
  match p.context? c with
  | none => p
  | some x =>
    if !x.live then p
    else
      let growth := new.any fun position => !x.enabledPositions.contains position
      let shrink := x.enabledPositions.any fun position => !new.contains position
      match x.state with
      | .verifying => p
      | .delivering => p
      | .admitting =>
        if growth then (p.rebuildLostList c new).askSlots c
        else if shrink then p.shrinkContext c new else p
      | _ =>
        if growth then p.rePlan c (some new)
        else if shrink then p.shrinkContext c new else p

/-! ## The loss-changed event (R82) -/

/-- A loss-changed event at a stripe's claim entry; none where the UNRECOVERABLE path would post its report while the
report path is full (R82). -/
def Part.lossChanged? (p : Part) (t : StripeId) (new : Positions) : Option Part :=
  match p.claimOf? t with
  | none => some p
  | some (n, e) =>
    if p.parityOf t < new.length then
      if p.reportPathFull then none
      else
        let q := p.endContextOf t
        let q := if e.announced then q.withdrawPlain t .unrecoverable else q
        let q := (q.removeClaim n).setStanding t new .unrecoverable
        some (q.postReport (.unrecoverable t new))
    else if new.isEmpty then
      let q := p.endContextOf t
      let q := if e.announced then q.withdrawPlain t .returned else q
      some ((q.removeClaim n).setStanding t [] .quiet)
    else
      let q := (p.setClaim n { e with lost := new }).setLost t new
      some (match q.contextOf? t with
        | some (c, _) => q.changeContextLoss c new
        | none => q)

/-! ## Evaluation E (R57 to R61) -/

/-- The sweep request set (R52). -/
def Part.requestSweep (p : Part) : Part := { p with scn := { p.scn with sweepRequest := true } }

/-- The stripe queued: lost set, standing QUEUED, and the tail of the repair queue; none while that is full
(R58, R59, R61). -/
def Part.queueStripe? (p : Part) (t : StripeId) (lost : Positions) : Option Part :=
  if repairPlaces ≤ p.rq.length then none
  else
    let q := p.setStanding t lost .queued
    some { q with rq := q.rq ++ [t] }

/-- The stripe leaves the repair queue from any place, the others keeping their order; the place it leaves frees, and the
scanner is told (R61, R62). -/
def Part.unqueue (p : Part) (t : StripeId) : Part :=
  if p.rq.contains t then
    { p with rq := p.rq.filter (· != t), rqWait := if p.rqWait = some t then none else p.rqWait }.tellScanner
  else p

/-- The stripe enters UNRECOVERABLE with its report; none while the report path is full (R58, R59, R61). -/
def Part.makeUnrecoverable? (p : Part) (t : StripeId) (lost : Positions) : Option Part :=
  if p.reportPathFull then none
  else some ((p.setStanding t lost .unrecoverable).postReport (.unrecoverable t lost))

/-- A PARKED stripe is taken up again: its outside claim is absent, stale, of the own station, or of a station that is
LOST or ABSENT (R59). -/
def Part.rivalSpent (p : Part) : Option HeardClaim → Bool
  | none => true
  | some o => p.staleClaim o || o.station == p.own || p.gone o.station

/-- Evaluation E of a stripe, by its standing; none where it cannot complete (R57 to R61). -/
def Part.evaluate? (p : Part) (t : StripeId) : Option Part :=
  if p.hlk.phase ≠ .running then some p
  else
    match p.firstRecord? t with
    | none => some p
    | some r =>
      let loss := p.lossSet t
      let m := p.parityOf t
      match r.standing with
      | .quiet =>
        if loss.isEmpty then some p
        else if loss.length ≤ m then p.queueStripe? t loss
        else p.makeUnrecoverable? t loss
      | .unrecoverable =>
        if loss.isEmpty then some (p.setStanding t [] .quiet)
        else if loss.length ≤ m then p.queueStripe? t loss
        else some (p.setStanding t loss .unrecoverable)
      | .queued =>
        if loss.isEmpty then some ((p.unqueue t).setStanding t [] .quiet)
        else if loss.length ≤ m then some (p.setStanding t loss .queued)
        else (p.makeUnrecoverable? t loss).map fun q => q.unqueue t
      | .parked =>
        if loss.isEmpty then some ((p.setStanding t [] .quiet).setOutside t none)
        else if m < loss.length then p.makeUnrecoverable? t loss
        else if p.rivalSpent r.outside then p.queueStripe? t loss
        else some (p.setStanding t loss .parked)
      | .claiming => if loss = r.lost then some p else p.lossChanged? t loss

/-- An evaluation outside a scan visit, a dequeue or a REQUEUE: one that cannot complete is dropped and sets the sweep
request (R61, case 4). R52 case 7 names any evaluation outside a scan visit; the model sets no sweep request at a dequeue
that waits or a REQUEUE refused FULL, for which R61 cases 2 and 3 name none (DESIGN CHOICE, log 47). -/
def Part.evaluateOrSweep (p : Part) (t : StripeId) : Part := (p.evaluate? t).getD p.requestSweep

/-- A loss-changed event of a withdrawal: one that cannot be applied is dropped and sets the sweep request (R82). -/
def Part.lossChangedOrSweep (p : Part) (t : StripeId) (new : Positions) : Part :=
  (p.lossChanged? t new).getD p.requestSweep

/-! ## Outcome DONE (R102) -/

/-- Outcome DONE: the release, WITHDRAW(DONE) with the delivered positions, the entry removed, the stripe QUIET, the
context free, and evaluation E (R102). -/
def Part.completeDone (p : Part) (c : Nat) : Part :=
  match p.context? c with
  | none => p
  | some x =>
    let delivered := (x.lostList.filter fun e => e.delivery == .delivered).map LostEntry.position
    let q := (p.releaseContext c).postWithdraw x.stripe .done 0xFF#8 delivered
    let q := (q.removeClaimOf x.stripe).setStanding x.stripe [] .quiet
    (q.freeContext c).evaluateOrSweep x.stripe

end Sys2Proof.Machine
end

