-- ==== Sys2Proof/Machine/Scan.lean ====
section
/-! DEFINITION. The scanner (chapter 4): the pending set and its held marks, the start and end of a pass, a visit, and
the dequeue from the repair queue with parking and the creation of a claim entry (R63, R68, R83). -/

namespace Sys2Proof.Machine

/-! ## The pending set (R52, R55) -/

/-- A rack added to the pending set: its held mark set or cleared where one is given, otherwise kept, and clear if the
rack is new (R52). -/
def Part.addPending (p : Part) (rack : Nat) (held : Option Bool) : Part :=
  let mark := held.getD ((p.scn.pending.row? rack).getD false)
  { p with scn := { p.scn with pending := p.scn.pending.setRow rack mark } }

/-- The DOWN racks, ascending. -/
def Part.downRacks (p : Part) : List Nat := (p.prs.racks.filter fun r => r.2.state == .down).map Prod.fst

/-- A HELD pass whose triggers hold no rack any more becomes WALKING (R55). -/
def Part.walkIfReleased (p : Part) : Part :=
  if p.scn.pass = .held ∧ (p.scn.triggers.any fun r => r.2) = false then
    { p with scn := { p.scn with pass := .walking } }
  else p

/-- The held mark of a rack cleared in the triggers of a HELD pass (R55). -/
def Part.releaseTrigger (p : Part) (rack : Nat) : Part :=
  if p.scn.pass = .held then
    { p with scn := { p.scn with triggers := p.scn.triggers.editRow rack fun _ => false } }.walkIfReleased
  else p

/-! ## Passes (R51, R54, R56) -/

/-- A pass may start: IDLE, RUNNING, and a rack pending or a sweep requested (R54). -/
def Part.passMayStart (p : Part) : Bool :=
  p.scn.pass == .idle && p.hlk.phase == .running && (!p.scn.pending.isEmpty || p.scn.sweepRequest)

/-- The start of a pass, in one event (R54). -/
def Part.startPass (p : Part) : Part :=
  { p with
    scn := { p.scn with
      pending := []
      sweepRequest := false
      triggers := p.scn.pending
      triggerSweep := p.scn.sweepRequest
      cursor := 0
      met := []
      pass := if p.scn.pending.any fun r => r.2 then .held else .walking } }

/-- The end of a pass (R56). -/
def Part.endPass (p : Part) : Part :=
  { p with
    scn := { p.scn with
      pass := .idle, placeFreed := false, triggers := [], triggerSweep := false, cursor := 0, met := [] } }

/-- The cursor moved on to the next position, or the pass ended after the last (R56). -/
def Part.moveCursor (p : Part) : Part :=
  if tablePositions ≤ p.scn.cursor + 1 then p.endPass
  else { p with scn := { p.scn with cursor := p.scn.cursor + 1, pass := .walking, placeFreed := false } }

/-- The pass in progress ended by HALT, its triggers returned: a rack is held if it was held in either set, and the
sweep it was started for is requested again (R51, R167, DEDUCED, log 13). -/
def Part.abandonPass (p : Part) : Part :=
  let pending := p.scn.triggers.foldl
    (fun t r => t.setRow r.1 (r.2 || (t.row? r.1).getD false)) p.scn.pending
  { p with
    scn := { p.scn with
      pending := pending
      sweepRequest := p.scn.sweepRequest || p.scn.triggerSweep } }.endPass

/-- One visit at the cursor; where its evaluation cannot complete the pass is BLOCKED, until a place frees (R56, R61). -/
def Part.visit (p : Part) : Part :=
  match p.hdt.row? p.scn.cursor with
  | none => p.moveCursor
  | some r =>
    if p.scn.met.contains r.stripe then p.moveCursor
    else
      match p.evaluate? r.stripe with
      | none => { p with scn := { p.scn with pass := .blocked, placeFreed := false } }
      | some q => ({ q with scn := { q.scn with met := q.scn.met ++ [r.stripe] } }).moveCursor

/-- A record dropped at which a BLOCKED pass waits: the cursor moves on and the sweep request is set
(R52 case 8, R56, DEDUCED, log 16). At position 131,071 there is no next position: the pass ends there, as after the visit
of that position (DESIGN CHOICE, log 48). -/
def Part.dropAtCursor (p : Part) (position : Nat) : Part :=
  if p.scn.pass = .blocked ∧ p.scn.cursor = position then p.requestSweep.moveCursor else p

/-! ## Dequeue (R63, R68, R83) -/

/-- The first YIELDED entry to be parked: the earliest time yielded, and among equal ones the lowest number (R83). -/
def firstParked? (entries : Table ClaimEntry) : Option (Nat × ClaimEntry × HeardClaim × Nat) :=
  entries.foldl
    (fun best r =>
      match r.2.state with
      | .yielded rival since _ =>
        match best with
        | none => some (r.1, r.2, rival, since)
        | some (_, _, _, earliest) => if since < earliest then some (r.1, r.2, rival, since) else best
      | _ => best)
    none

/-- One YIELDED entry parked: its rival becomes the outside claim, its stripe PARKED, and it is freed without a
frame (R83). -/
def Part.park? (p : Part) : Option Part :=
  (firstParked? p.clt.entries).map fun (n, e, rival, _) =>
    ((p.setOutside e.stripe (some rival)).setStanding e.stripe e.lost .parked).removeClaim n

/-- The outside claim that the creation of an entry reads, if it is not treated as absent (R68). -/
def Part.readOutside? (p : Part) (t : StripeId) : Option HeardClaim :=
  match (p.firstRecord? t).bind HoldingRecord.outside with
  | none => none
  | some o => if p.staleClaim o || p.gone o.station || o.station == p.own then none else some o

/-- A claim entry created under a free number: YIELDED to a preceding outside claim, or CONTENDING with its CLAIM
broadcast; the outside claim is cleared and the standing becomes CLAIMING (R68). -/
def Part.createClaim (p : Part) (n : Nat) (t : StripeId) (lost : Positions) : Part :=
  let rank := claimRank t p.own p.contextsInUse
  let outside := p.readOutside? t
  let q := (p.setOutside t none).setStanding t lost .claiming
  let entry : ClaimEntry := { stripe := t, lost := lost, rank := rank, state := .contending 0 }
  match outside with
  | some o =>
    if o.contender.precedes { rank := some rank, settled := false } then
      q.setClaim n { entry with state := q.yieldedState o q.now }
    else (q.setClaim n entry).contend n
  | none => (q.setClaim n entry).contend n

/-- The head leaves the repair queue; its place frees, and the scanner is told (R61, R62). -/
def Part.leaveHead (p : Part) : Part := { p with rq := p.rq.drop 1, rqWait := none }.tellScanner

/-- The head of the repair queue taken into a free entry, with the evaluation at dequeue; a head whose report has no
place stays, and waits for one (R61 case 2, R63). -/
def Part.takeHead (p : Part) (n : Nat) (t : StripeId) : Part :=
  let loss := p.lossSet t
  if loss.isEmpty then p.leaveHead.setStanding t [] .quiet
  else if p.parityOf t < loss.length then
    match p.makeUnrecoverable? t loss with
    | none => { p with rqWait := some t }
    | some q => q.leaveHead
  else p.leaveHead.createClaim n t loss

/-- The claim table takes the head of the repair queue when it has an entry or can park one, and the head does not wait for
a report place (R61 case 2, R63, R83). -/
def Part.dequeueHead (p : Part) : Part :=
  match p.rq with
  | [] => p
  | t :: _ =>
    if p.rqWait = some t then p
    else match p.clt.entries.lowestFree? claimEntries with
    | some n => p.takeHead n t
    | none =>
      match p.park? with
      | none => p
      | some q =>
        match q.clt.entries.lowestFree? claimEntries with
        | some n => q.takeHead n t
        | none => q

end Sys2Proof.Machine
end

