-- ==== Sys2Proof/Machine/ClaimCommands.lean ====
section
/-! DEFINITION. The meanings of the scanner's and the claim table's steps: CLAIM and WITHDRAW arrivals, the claim
timers, the sweep timer, the start of a pass, a visit and a dequeue (chapters 4 and 5). -/

namespace Sys2Proof.Machine

/-! ## CLAIM (R69 to R72) -/

/-- The settled bit of a CLAIM's flags (R161). -/
def settledBit (flags : Byte) : Bool := flags.getLsbD 0

/-- The repeat bit of a CLAIM's flags (R161). -/
def repeatBit (flags : Byte) : Bool := flags.getLsbD 1

/-- The body of a CLAIM fits the stripe's geometry: a lost set of 1 to m members below n, and no repeat without
settled (R69, step 3). -/
def claimFits (g : Geometry) (flags : Byte) (lost : Positions) : Bool :=
  !lost.isEmpty && decide (lost.length ≤ g.m) && lost.all (fun position => decide (position < g.width))
    && !(repeatBit flags && !settledBit flags)

/-- A claim heard now from a station, as an outside claim or a rival keeps it. -/
def Part.hearClaim (p : Part) (station : Nat) (rank : Rank) (settled : Bool) : HeardClaim where
  station := station
  rank := some rank
  settled := settled
  heard := p.now

/-- A CLAIM for a stripe without claim entry: it replaces the outside claim when that is absent, is preceded by it, or
names the same station (R7 case 1, R69 step 4). -/
def Part.hearOutside (p : Part) (t : StripeId) (arrival : HeardClaim) : Part :=
  match (p.firstRecord? t).bind HoldingRecord.outside with
  | none => p.setOutside t (some arrival)
  | some o =>
    if arrival.contender.precedes o.contender || o.station == arrival.station then p.setOutside t (some arrival)
    else p

/-- A CLAIM at an entry in CONTENDING (R70). -/
def Part.claimAtContending (p : Part) (n : Nat) (e : ClaimEntry) (arrival : HeardClaim) : Part :=
  if arrival.contender.precedes { rank := some e.rank, settled := false } then p.yieldEntry n e arrival p.now
  else p.broadcastClaim e false false

/-- A CLAIM at an entry in YIELDED (R71). -/
def Part.claimAtYielded (p : Part) (n : Nat) (e : ClaimEntry) (rival : HeardClaim) (timeYielded : Nat)
    (arrival : HeardClaim) : Part :=
  if rival.station = arrival.station ∨ arrival.contender.precedes rival.contender = true then
    p.setClaim n { e with state := p.yieldedState arrival timeYielded }
  else p

/-- A CLAIM at an entry in OWNED: a settled claim of lower rank ends the context, names the winner and takes the entry to
YIELDED; any other is answered (R72). -/
def Part.claimAtOwned (p : Part) (n : Nat) (e : ClaimEntry) (arrival : HeardClaim) : Part :=
  if arrival.contender.precedes { rank := some e.rank, settled := true } then
    ((p.endContextOf e.stripe).postWithdraw e.stripe .yield (BitVec.ofNat 8 arrival.station) []).yieldEntry n e arrival
      p.now
  else p.broadcastClaim e true false

/-- A CLAIM taken by the claim table, in the order of R69. -/
def Part.takeClaim (p : Part) (station : Nat) (t : StripeId) (rank : Rank) (flags : Byte) (lostMask : BitVec 16) :
    Part :=
  if p.hlk.phase = .halted then p
  else
    match p.geometryOf? t with
    | none => p
    | some g =>
      if !claimFits g flags (positionsOf lostMask) then p.dropFrame .body
      else
        let arrival := p.hearClaim station rank (settledBit flags)
        match p.claimOf? t with
        | none => p.hearOutside t arrival
        | some (n, e) =>
          match e.state with
          | .contending _ => p.claimAtContending n e arrival
          | .yielded rival timeYielded _ => p.claimAtYielded n e rival timeYielded arrival
          | .owned _ => p.claimAtOwned n e arrival

/-- CLAIM (R69 to R72, R156). -/
def execClaim (header : FrameHeader) (stripe : StripeId) (rank : Rank) (flags : Byte) (lostMask : BitVec 16)
    (s : State) : Host.Outcome State Fault Refusal :=
  run s fun p => p.receive header (.claim stripe rank flags lostMask) fun q =>
    q.takeClaim header.sender.toNat stripe rank flags lostMask

/-! ## WITHDRAW (R77 to R81) -/

/-- The placement update of a WITHDRAW(DONE), position by position (R15). -/
def Part.placementUpdate (p : Part) (station : Nat) (t : StripeId) (rebuilt : Positions) : Part :=
  rebuilt.foldl
    (fun q position =>
      if ((q.geometryOf? t).map Geometry.width).getD 0 ≤ position || q.holds t position then q
      else q.setPlacement t position station)
    p

/-- An entry's lost set and its stripe's lost set written, and the entry back in CONTENDING (R78 case 1, R81 case 2). -/
def Part.contendWith (p : Part) (n : Nat) (e : ClaimEntry) (lost : Positions) : Part :=
  ((p.setClaim n { e with lost := lost }).setLost e.stripe lost).contend n

/-- A loss-changed event where the loss set differs from the entry's (R78, R81, R82). -/
def Part.lossChangedIfNew (p : Part) (e : ClaimEntry) (loss : Positions) : Part :=
  if loss = e.lost then p else p.lossChangedOrSweep e.stripe loss

/-- WITHDRAW(DONE) after its placement update (R78). A stripe without claim entry is evaluated (R15): a QUIET one whose loss
set still has 1 to m members is QUEUED then, and with more it is UNRECOVERABLE, as the table of evaluation E says (R58),
though R15 says that a QUIET stripe stays QUIET (DESIGN CHOICE, log 45). -/
def Part.withdrawDone (p : Part) (station : Nat) (t : StripeId) : Part :=
  match p.claimOf? t with
  | none => p.evaluateOrSweep t
  | some (n, e) =>
    let loss := p.lossSet t
    if e.yieldedTo station then
      if loss.isEmpty then (p.removeClaim n).setStanding t [] .quiet
      else if p.parityOf t < loss.length then p.lossChangedOrSweep t loss
      else p.contendWith n e loss
    else p.lossChangedIfNew e loss

/-- The winner named by a WITHDRAW(YIELD), as a rival or an outside claim keeps it (R7 case 3, R79). -/
def Part.namedWinner (p : Part) (winner : Nat) : HeardClaim where
  station := winner
  rank := none
  settled := true
  heard := p.now

/-- WITHDRAW(YIELD) (R79). -/
def Part.withdrawYield (p : Part) (station : Nat) (t : StripeId) (winner : Nat) : Part :=
  match p.claimOf? t with
  | none =>
    match (p.firstRecord? t).bind HoldingRecord.outside with
    | some o => if o.station = station then p.setOutside t (some (p.namedWinner winner)) else p
    | none => p
  | some (n, e) =>
    match e.state with
    | .yielded rival timeYielded _ =>
      if rival.station ≠ station then p
      else if winner = p.own ∨ p.gone winner = true then p.contend n
      else p.setClaim n { e with state := p.yieldedState (p.namedWinner winner) timeYielded }
    | _ => p

/-- WITHDRAW with reason ABANDONED, HALT or DROPPED (R80). -/
def Part.withdrawGivenUp (p : Part) (station : Nat) (t : StripeId) : Part :=
  match p.claimOf? t with
  | some (n, e) => if e.yieldedTo station then p.contend n else p
  | none =>
    match (p.firstRecord? t).bind HoldingRecord.outside with
    | some o => if o.station = station then p.setOutside t none else p
    | none => p

/-- WITHDRAW with reason RETURNED or UNRECOVERABLE (R81). -/
def Part.withdrawJudged (p : Part) (station : Nat) (t : StripeId) : Part :=
  match p.claimOf? t with
  | none => p.evaluateOrSweep t
  | some (n, e) =>
    let loss := p.lossSet t
    if loss.isEmpty || decide (p.parityOf t < loss.length) then p.lossChangedOrSweep t loss
    else if e.yieldedTo station then p.contendWith n e loss
    else p.lossChangedIfNew e loss

/-- A WITHDRAW taken by the rule for its reason (R77). -/
def Part.takeWithdraw (p : Part) (station : Nat) (t : StripeId) (reason : WithdrawReason) (winner : Nat)
    (rebuilt : Positions) : Part :=
  if (p.firstRecord? t).isNone then p
  else if p.hlk.phase = .halted then
    if reason = .done then p.placementUpdate station t rebuilt else p
  else
    match reason with
    | .done => (p.placementUpdate station t rebuilt).withdrawDone station t
    | .yield =>
      if (p.peer? winner).isNone || winner == station then p.dropFrame .body else p.withdrawYield station t winner
    | .abandoned => p.withdrawGivenUp station t
    | .halt => p.withdrawGivenUp station t
    | .dropped => p.withdrawGivenUp station t
    | .returned => p.withdrawJudged station t
    | .unrecoverable => p.withdrawJudged station t

/-- WITHDRAW (R77 to R81, R156). -/
def execWithdraw (header : FrameHeader) (stripe : StripeId) (reason winner : Byte) (rebuiltMask : BitVec 16)
    (s : State) : Host.Outcome State Fault Refusal :=
  run s fun p => p.receive header (.withdraw stripe reason winner rebuiltMask) fun q =>
    match WithdrawReason.ofCode? reason with
    | some r => q.takeWithdraw header.sender.toNat stripe r winner.toNat (positionsOf rebuiltMask)
    | none => q

/-! ## The claim timers (R73 to R75) -/

/-- The hold-off of an entry in CONTENDING expires: OWNED, at the tail of the owned list, with CLAIM(settled)
broadcast (R73). -/
def Part.expireHoldOff (p : Part) (n : Nat) : Part :=
  match p.clt.entries.row? n with
  | none => p
  | some e =>
    match e.state with
    | .contending due =>
      let q := p.reach due
      let e' := { e with state := ClaimState.owned (q.now + q.claimRepeat) }
      let q := q.setClaim n e'
      { q with clt := { q.clt with owned := q.clt.owned ++ [n] } }.broadcastClaim e' true false
    | _ => p

/-- HOLD_OFF_EXPIRY (R73). -/
def execHoldOffExpiry (entry : Nat) (s : State) : Host.Outcome State Fault Refusal :=
  run s fun p => p.expireHoldOff entry

/-- The repeat timer of an entry in OWNED expires: a repeated CLAIM(settled), and the timer started again (R74). -/
def Part.expireRepeat (p : Part) (n : Nat) : Part :=
  match p.clt.entries.row? n with
  | none => p
  | some e =>
    match e.state with
    | .owned due =>
      let q := p.reach due
      let e' := { e with state := ClaimState.owned (q.now + q.claimRepeat) }
      (q.setClaim n e').broadcastClaim e' true true
    | _ => p

/-- REPEAT_TIMER_EXPIRY (R74). -/
def execRepeatTimerExpiry (entry : Nat) (s : State) : Host.Outcome State Fault Refusal :=
  run s fun p => p.expireRepeat entry

/-- The yield timer of an entry in YIELDED expires: back to CONTENDING (R75). -/
def Part.expireYield (p : Part) (n : Nat) : Part :=
  match p.clt.entries.row? n with
  | none => p
  | some e =>
    match e.state with
    | .yielded _ _ due => (p.reach due).contend n
    | _ => p

/-- YIELD_TIMER_EXPIRY (R75). -/
def execYieldTimerExpiry (entry : Nat) (s : State) : Host.Outcome State Fault Refusal :=
  run s fun p => p.expireYield entry

/-! ## The scanner's steps (R53, R54, R56, R63) -/

/-- An expiry of the sweep timer: the sweep request set, the next expiry one interval on (R53). -/
def Part.expireSweep (p : Part) : Part :=
  match p.scn.sweepDue with
  | none => p
  | some due =>
    let q := (p.reach due).requestSweep
    { q with scn := { q.scn with sweepDue := some (due + q.sweepInterval) } }

/-- SWEEP_TIMER_EXPIRY (R53). -/
def execSweepTimerExpiry (s : State) : Host.Outcome State Fault Refusal := run s Part.expireSweep

/-- PASS_START (R54). -/
def execPassStart (s : State) : Host.Outcome State Fault Refusal :=
  run s fun p => if p.passMayStart then p.startPass else p

/-- A visit is due, in RUNNING: the pass walks, or it is BLOCKED and a place has freed since (R56, R61). -/
def Part.visitDue (p : Part) : Bool :=
  p.hlk.phase == .running && (p.scn.pass == .walking || (p.scn.pass == .blocked && p.scn.placeFreed))

/-- SCAN_VISIT (R56, R61). -/
def execScanVisit (s : State) : Host.Outcome State Fault Refusal :=
  run s fun p => if p.visitDue then p.visit else p

/-- DEQUEUE (R63, R83). -/
def execDequeue (s : State) : Host.Outcome State Fault Refusal :=
  run s fun p => if p.hlk.phase = .running then p.dequeueHead else p

end Sys2Proof.Machine
end

