-- ==== Sys2Proof/Machine/CombineCommands.lean ====
section
/-! DEFINITION. The meanings of the combine engine's steps: the start of an operation, with the skipping of a stale
request, and its end, with the completions that the fetch unit and the serve unit take (R115, R133, R136 to R143). -/

namespace Sys2Proof.Machine

/-! ## Completions (R115, R133, R139, R143) -/

/-- A completion leaves the queue: the one that brings the depth to 32 lowers a raised warning, and every STREAMING lane
tests its window (R112, R143). -/
def Part.lowerWarning (p : Part) : Part :=
  if p.combineDepth = 32 ∧ p.cbe.warning = true then
    { p with cbe := { p.cbe with warning := false } }.testAllWindows
  else p

/-- The chunk of a completion consumed by a lane that is current: its bank EMPTY, the next chunk on; then the end of the
fragment, or the next request and, while STREAMING, the window (R115, cases 2 and 3). -/
def Part.consumeChunk (p : Part) (n : Nat) (u : LaneUse) (chunk : Nat) : Part :=
  let v := { u.setBank chunk .empty with nextConsume := u.nextConsume + 1 }
  let q := p.setUse n v
  if chunkCountOf u.length ≤ v.nextConsume then q.endFragment n
  else if u.state = .streaming then (q.laneCombine n).testWindow n
  else q.laneCombine n

/-- A combine completion taken by the lane of its request (R115). -/
def Part.completeAtLane (p : Part) (n : Nat) (tag : Tag) (chunk : Nat) : Part :=
  let q := p.editLane n fun l => { l with outstanding := false }
  match q.laneUse? n with
  | none => q
  | some u =>
    if tag ≠ q.laneTag n then q.laneCombine n
    else if u.active then q.consumeChunk n u chunk
    else q

/-- The last chunk of an internal opener consumed: its digest checked, and its end reported to the context; nothing more
is reported by one that has failed (R133, R135 case 7). -/
def Part.endOpener (p : Part) (n : Nat) (i : InternalOpener) : Part :=
  if i.ended ≠ .open_ then p
  else
    match p.expectedDigest? i.stripe i.position with
    | some expected =>
      if expected ≠ digestFinish i.runningDigest then p.failOpener n i
      else ((p.setOpener n { i with ended := .fed })).checkGathered i.context
    | none => (p.setOpener n { i with ended := .fed }).checkGathered i.context

/-- A combine completion taken by the serve unit (R133). -/
def Part.completeAtServe (p : Part) (c : Nat) (generation : BitVec 8) : Part :=
  let q := { p with svu := { p.svu with combineMarks := p.svu.combineMarks.filter (· != c) } }
  match q.attachedOpener? c with
  | none => q
  | some (n, e, i) =>
    if i.generation = generation then
      let i' := { i with nextChunk := i.nextChunk + 1 }
      let r := (q.setOpener n i').touchServe n
      if chunkCountOf e.length ≤ i'.nextChunk then r.endOpener n i' else r.feed c
    else q.feed c

/-- The completion of a request posted to its source, the depth having fallen (R139, R143). Where the completion brings
the depth to 32, the warning is lowered and every STREAMING lane tests its window before the source takes the completion;
the manual gives no order of the two within the event (R112, R143; DESIGN CHOICE, log 38). -/
def Part.completeCombine (p : Part) (r : CombineRequest) : Part :=
  let q := p.lowerWarning
  match r.source with
  | .lane n tag => q.completeAtLane n tag r.chunk
  | .internal => q.completeAtServe r.context r.generation

/-! ## The start of an operation (R137, R138) -/

/-- The context is current for a request: in use, at its generation, in GATHERING and without a pending outcome
(R137 cases 1 to 4, R139). -/
def Part.combineContext? (p : Part) (r : CombineRequest) : Option Context :=
  match p.context? r.context with
  | some x => if p.gatheringAt r.context r.generation then some x else none
  | none => none

/-- The operand of a request, where its source still supplies it: the lane's FULL bank under the request's tag
(R137 case 5, R138), or the slot of the serve entry. -/
def Part.operand? (p : Part) (r : CombineRequest) : Option (List Byte) :=
  match r.source with
  | .lane n tag =>
    match p.laneUse? n with
    | some u =>
      if p.laneTag n = tag ∧ u.active = true then
        match u.bankOf r.chunk with
        | .full c data => if c = r.chunk then some data else none
        | _ => none
      else none
    | none => none
  | .internal =>
    match p.attachedOpener? r.context with
    | some (_, e, _) =>
      some (p.smc.dram.bytes (slotOffset e.slot + r.chunk * chunkSize) (chunkLength e.length r.chunk))
    | none => none

/-- The slots of an operation with their coefficients: one for each enabled lost-list entry, that of an entry with
coefficient 00h too, which it holds without writing it (R138; DESIGN CHOICE, log 53). -/
def Context.targets (x : Context) (survivor : Nat) : List (Nat × Byte) :=
  (x.lostList.zip (x.plan.getD [])).filterMap fun (e, row) =>
    if e.enabled then e.slot.map fun j => (j, byteAt row survivor) else none

/-- The head request taken: a stale one is completed at once, any other begins its operation with the copies it will
use (R137, R138). -/
def Part.startCombine (p : Part) : Part :=
  match p.cbe.operation, p.cbe.queue with
  | none, r :: rest =>
    let q := { p with cbe := { p.cbe with queue := rest } }
    match q.combineContext? r, q.operand? r with
    | some x, some operand =>
      { q with
        cbe := { q.cbe with
          operation := some { request := r, operand := operand, targets := x.targets r.survivor } } }
    | _, _ => q.completeCombine r
  | _, _ => p

/-- COMBINE_START (R137, R138). -/
def execCombineStart (s : State) : Host.Outcome State Fault Refusal := run s Part.startCombine

/-! ## The end of an operation (R31, R139) -/

/-- One accumulator's chunk written: each byte its sum with the coefficient times the operand byte; a coefficient of 00h
writes nothing (R31, R138). -/
def Dram.combine (d : Dram) (offset : Nat) (coefficient : Byte) (operand : List Byte) : Dram :=
  if coefficient = 0 then d
  else d.write offset (contribute coefficient (d.bytes offset operand.length) operand)

/-- The DRAM after every accumulator of an operation has been written. -/
def Dram.combineAll (d : Dram) (o : CombineOperation) : Dram :=
  o.targets.foldl
    (fun d t => d.combine (slotOffset t.1 + o.request.chunk * chunkSize) t.2 o.operand) d

/-- A contribution in a context's record: the survivor index in the chunk's set, and the chunk complete when the set
comes to k members (R139, R140). -/
def Context.contributed (x : Context) (k chunk survivor : Nat) : Context :=
  let before := (x.contributions[chunk]?).getD []
  let after := insertPosition survivor before
  { x with
    contributions := x.contributions.set chunk after
    chunksComplete := if before.length ≠ k ∧ after.length = k then x.chunksComplete + 1 else x.chunksComplete }

/-- The running digest of a request's source advanced over the operand (R33, R139). -/
def Part.advanceDigest (p : Part) (r : CombineRequest) (operand : List Byte) : Part :=
  match r.source with
  | .lane n tag =>
    match p.laneUse? n with
    | some u =>
      if p.laneTag n = tag then p.setUse n { u with runningDigest := digestAdvance u.runningDigest operand } else p
    | none => p
  | .internal =>
    match p.attachedOpener? r.context with
    | some (n, _, i) =>
      if i.generation = r.generation then
        p.setOpener n { i with runningDigest := digestAdvance i.runningDigest operand }
      else p
    | none => p

/-- The contribution recorded and the source's digest advanced, where the context is still current (R139). -/
def Part.recordContribution (p : Part) (o : CombineOperation) : Part :=
  match p.combineContext? o.request with
  | none => p
  | some x =>
    let k := ((p.geometry? x.geometry).map Geometry.k).getD 0
    (p.editContext o.request.context fun y => y.contributed k o.request.chunk o.request.survivor).advanceDigest
      o.request o.operand

/-- The operation in progress ends: the accumulators written, the slots held no more, the contribution recorded and the
completion posted (R138, R139, R152). -/
def Part.endCombine (p : Part) : Part :=
  match p.cbe.operation with
  | none => p
  | some o =>
    let q := { p.setDram (p.smc.dram.combineAll o) with cbe := { p.cbe with operation := none } }
    let q := (o.targets.map Prod.fst).foldl Part.settleSlot q
    (q.recordContribution o).completeCombine o.request

/-- COMBINE_DONE (R139). -/
def execCombineDone (s : State) : Host.Outcome State Fault Refusal := run s Part.endCombine

end Sys2Proof.Machine
end

