-- ==== Sys2Proof/Machine/ContextCommands.lean ====
section
/-! DEFINITION. The meanings of the context array's steps and of the units that work for it: admission, waiting contexts,
zero fills, plan jobs, verify jobs, STORE requests and pending outcomes (chapters 2, 6, 9 and 10). -/

namespace Sys2Proof.Machine

/-! ## Admission (R87) -/

/-- The claim entry that admission may take: the first of the owned list whose stripe has no context (R87). -/
def Part.candidate? (p : Part) : Option ClaimEntry :=
  p.clt.owned.findSome? fun n =>
    match p.clt.entries.row? n with
    | some e => if (p.contextOf? e.stripe).isNone then some e else none
    | none => none

/-- A context waits for lanes or slots (R87, R90). -/
def Part.someContextWaits (p : Part) : Bool := p.ctx.contexts.any fun r => r.2.waits

/-- A context as admission makes it, its lost list without slots yet (R87). -/
def Context.admitted (e : ClaimEntry) (r : HoldingRecord) (lanes : List Nat) : Context where
  stripe := e.stripe
  geometry := r.geometry
  length := r.length
  chunkCount := chunkCountOf r.length
  lostList := e.lost.map LostEntry.fresh
  survivors := none
  unusable := []
  plan := none
  contributions := List.replicate (chunkCountOf r.length) []
  chunksComplete := 0
  rePlans := 0
  reservation := lanes
  deadline := .absent
  state := .admitting
  pendingOutcome := none

/-- The candidate admitted under a context number with the lanes and slots granted, in one event (R87). The slots go to the
lost positions in order (DESIGN CHOICE, log 15), and their zero fills join the fill FIFO in lost-list order, which step 6
does not give (DESIGN CHOICE, log 37). -/
def Part.admitCandidate (p : Part) (c : Nat) (e : ClaimEntry) (r : HoldingRecord) (lanes slots : List Nat) : Part :=
  let q := (p.bumpGeneration c).setContext c (Context.admitted e r lanes)
  (e.lost.zip slots).foldl (fun q ps => q.giveSlot c ps) (q.reserveLanes c lanes)

/-- The attempt to admit the candidate: a free context, k free lanes and a slot for each lost position, or
nothing (R87). -/
def Part.tryAdmit (p : Part) : Part :=
  if p.someContextWaits then p
  else
    match p.candidate? with
    | none => p
    | some e =>
      match p.firstRecord? e.stripe, p.geometryOf? e.stripe, p.ctx.contexts.lowestFree? contextCount with
      | some r, some g, some c =>
        if p.poolLanes.length < g.k then p
        else
          match p.grantSlots? e.lost.length with
          | none => p
          | some (q, slots) => q.admitCandidate c e r (p.poolLanes.take g.k) slots
      | _, _, _ => p

/-- ADMISSION (R87). A request for slots that was refused is made again whenever this row is given, whether or not a return
was reported (R149; DESIGN CHOICE, log 49). -/
def execAdmission (s : State) : Host.Outcome State Fault Refusal :=
  run s fun p => if p.hlk.phase = .running then p.tryAdmit else p

/-! ## Waiting contexts (R90) -/

/-- The lanes and slots that a context lacks given to it, and GATHERING where that is now possible (R90). The rule does not
say which free lanes it gets: the lowest of the free pool (DESIGN CHOICE, log 15). They stand last in its reservation, and
so in the order of a later release (DESIGN CHOICE, log 8). The fills of the slots are requested in lost-list order (DESIGN
CHOICE, log 37). -/
def Part.giveLacking (p : Part) (c : Nat) (x : Context) (slots : List Nat) : Part :=
  let lanes := p.poolLanes.take x.lanesLacking
  let q := (p.reserveLanes c lanes).editContext c fun y => { y with reservation := y.reservation ++ lanes }
  ((x.lacking.zip slots).foldl (fun r ps => r.giveSlot c ps) q).tryGather c

/-- One waiting context served: the whole of what it lacks, lanes and slots together, or nothing (R90). PLAN-DONE too asks
through this operation, for slots as well as lanes (DESIGN CHOICE, log 51). -/
def Part.serveContext (p : Part) (c : Nat) : Part :=
  match p.context? c with
  | none => p
  | some x =>
    if x.waits && decide (x.lanesLacking ≤ p.poolLanes.length) then
      if x.lacking.isEmpty then p.giveLacking c x []
      else
        match p.grantSlots? x.lacking.length with
        | none => p
        | some (q, slots) => q.giveLacking c x slots
    else p

/-- WAITING_CONTEXT_SERVED: the waiting contexts in ascending number (R90). A request for slots that was refused is made
again whenever this row is given, whether or not a return was reported (R149; DESIGN CHOICE, log 49). -/
def execWaitingContextServed (s : State) : Host.Outcome State Fault Refusal :=
  run s fun p => p.ctx.contexts.numbers.foldl Part.serveContext p

/-! ## Zero fills (R88, R151) -/

/-- The head zero fill begins when none is in progress and its slot has no hold (R151). -/
def Part.startFill (p : Part) : Part :=
  match p.smc.fill, p.smc.fillQueue with
  | none, f :: rest =>
    if p.slotHeld f.slot then p else { p with smc := { p.smc with fillQueue := rest, fill := some f } }
  | _, _ => p

/-- FILL_START (R151). -/
def execFillStart (s : State) : Host.Outcome State Fault Refusal := run s Part.startFill

/-- A FILL-DONE at its context: the entry of the slot READY, and what that completes; or ignored (R88). -/
def Part.takeFillDone (p : Part) (f : FillRequest) : Part :=
  match p.context? f.context with
  | none => p
  | some x =>
    if x.live && p.generation f.context == f.generation && x.enabled.any fun e => e.slot == some f.slot then
      (p.editContext f.context fun y =>
        { y with lostList := y.lostList.map fun e =>
            if e.enabled && e.slot == some f.slot then { e with fill := .ready } else e }).advance f.context
    else p

/-- The zero fill in progress ends: its slot holds zeros, a releasing slot may become FREE, and the FILL-DONE is
taken (R88, R151, R152). -/
def Part.endFill (p : Part) : Part :=
  match p.smc.fill with
  | none => p
  | some f =>
    let q := { p with smc := { p.smc with fill := none, dram := p.smc.dram.zeroBlock (slotBlock f.slot) } }
    (q.settleSlot f.slot).takeFillDone f

/-- FILL_DONE (R88, R151). -/
def execFillDone (s : State) : Host.Outcome State Fault Refusal := run s Part.endFill

/-! ## Survivor choice (R24, R25) -/

/-- The positions that survivor choice passes over: the lost list, enabled or disabled, and the unusable set
(R24, class 1). -/
def Context.excluded (x : Context) (position : Nat) : Bool :=
  (x.lostList.map LostEntry.position).contains position || x.unusable.contains position

/-- The positions of a context's stripe that are not in class 1, each with its holder (R24). -/
def Part.choosable (p : Part) (x : Context) : List (Nat × Nat) :=
  ((List.range (p.placementOf x.stripe).length).zip (p.placementOf x.stripe)).filter fun ps => !x.excluded ps.1

/-- The local position of a context: the lowest that the placement gives to the own station and a record holds
(R24, class 2). -/
def Part.localPosition? (p : Part) (x : Context) : Option Nat :=
  ((p.choosable x).find? fun ps => ps.2 == p.own && p.holds x.stripe ps.1).map Prod.fst

/-- The remote positions whose holder is in a state, ascending, with their holders (R24, class 3). -/
def Part.remotePositions (p : Part) (x : Context) (state : PeerState) : List (Nat × Nat) :=
  (p.choosable x).filter fun ps => ps.2 != p.own && p.peerState? ps.2 == some state

/-- The candidates in the order of choice: the local position first, then the reachable data positions and the reachable
parity positions, ascending (R25). -/
def Part.candidates (p : Part) (x : Context) : List Survivor :=
  ((p.localPosition? x).toList.map fun position =>
      { position := position, holder := p.own, source := .ownHoldings })
    ++ (p.remotePositions x .present).map fun ps => { position := ps.1, holder := ps.2, source := .unassigned }

/-- What survivor choice comes to (R25). -/
inductive Choice where
  | planned (survivors : List Survivor)
  | short
  | none_
  deriving DecidableEq, Repr

/-- Survivor choice for a context, with the k of its geometry (R25). -/
def Part.choose (p : Part) (x : Context) (k : Nat) : Choice :=
  let candidates := p.candidates x
  if k ≤ candidates.length then .planned (candidates.take k)
  else if k ≤ candidates.length + (p.remotePositions x .silent).length then .short
  else .none_

/-! ## Plan jobs (R26, R30, R89) -/

/-- PLAN-DONE with result SHORT at a context (R89, case 1). -/
def Part.planShort (p : Part) (c : Nat) (x : Context) : Part :=
  match x.deadline with
  | .absent => p.editContext c fun y => { y with state := .planWait, deadline := .due (p.now + 1000000) }
  | .due _ => p.editContext c fun y => { y with state := .planWait }
  | .passed => p.abandon c .planWaitLimit

/-- A plan job starts for a context with survivor choice, and ends at once SHORT or NONE (R24 to R26, R89). -/
def Part.startPlan (p : Part) (c : Nat) : Part :=
  match p.context? c with
  | none => p
  | some x =>
    match p.geometry? x.geometry with
    | none => p
    | some g =>
      if x.live && x.state == .planning then
        match p.choose x g.k with
        | .planned survivors =>
          { p with
            plu := { p.plu with
              job := some { context := c, void := false, geometry := g, survivors := survivors,
                            lost := x.lostList.map LostEntry.position } } }
        | .short => p.planShort c x
        | .none_ => p.abandon c .noSurvivors
      else p

/-- PLAN_JOB_START: the head job leaves the FIFO when none is in progress (R26). -/
def execPlanJobStart (s : State) : Host.Outcome State Fault Refusal :=
  run s fun p =>
    match p.plu.job, p.plu.queue with
    | none, c :: rest => { p with plu := { p.plu with queue := rest } }.startPlan c
    | _, _ => p

/-- The lanes a context needs no more returned to the free pool, highest numbers first (R89, case 3). -/
def Part.returnSurplus (p : Part) (c : Nat) (needed : Nat) : Part :=
  match p.context? c with
  | none => p
  | some x =>
    let lanes := ascending x.reservation
    (p.freeLanes (lanes.drop needed)).editContext c fun y => { y with reservation := lanes.take needed }

/-- PLAN-DONE with result PLANNED: the list and the plan written, a lost holder met with a re-plan, and otherwise the
deadline cleared, the lanes fitted, and GATHERING entered when all is ready (R30, R89, R90). The context asks for the lanes it
lacks in this event (DEDUCED, log 27); one that also lacks slots asks for them again then, together with the lanes, all or
nothing and with no return of slots reported, which R89 and R149 do not say (DESIGN CHOICE, log 51). -/
def Part.takePlan (p : Part) (j : PlanJob) : Part :=
  let c := j.context
  let rows := decodePlan j.geometry (j.survivors.map Survivor.position) j.lost
  let q := p.editContext c fun y => { y with survivors := some j.survivors, plan := some rows }
  let remotes := j.survivors.filter fun v => v.source != .ownHoldings
  if remotes.any fun v => p.gone v.holder then q.rePlan c none
  else
    let q := q.editContext c fun y => { y with deadline := .absent }
    ((q.returnSurplus c remotes.length).serveContext c).tryGather c

/-- The plan job in progress ends; a void one writes nothing (R27, R30). -/
def Part.endPlan (p : Part) : Part :=
  match p.plu.job with
  | none => p
  | some j =>
    let q := { p with plu := { p.plu with job := none } }
    match q.context? j.context with
    | none => q
    | some x => if !j.void && x.live && x.state == .planning then q.takePlan j else q

/-- PLAN_DONE (R28 to R30, R89). -/
def execPlanDone (s : State) : Host.Outcome State Fault Refusal := run s Part.endPlan

/-- The plan-wait deadline of a context is reached (R91). -/
def Part.expirePlanWait (p : Part) (c : Nat) : Part :=
  match p.context? c with
  | none => p
  | some x =>
    match x.deadline with
    | .due time =>
      if !x.live then p
      else
        match x.state with
        | .planWait => (p.reach time).abandon c .planWaitLimit
        | .planning => (p.reach time).editContext c fun y => { y with deadline := .passed }
        | _ => p
    | _ => p

/-- PLAN_WAIT_DEADLINE (R91). -/
def execPlanWaitDeadline (context : Nat) (s : State) : Host.Outcome State Fault Refusal :=
  run s fun p => p.expirePlanWait context

/-! ## Verify jobs (R98, R144, R145) -/

/-- The enabled entries of a context with their slots, in lost-list order. -/
def Context.slotted (x : Context) : List (Nat × Nat) :=
  x.enabled.filterMap fun e => e.slot.map fun j => (e.position, j)

/-- A verify job over a context: the slots it holds, and the digest of each enabled accumulator from offset 0 to the
fragment length (R144). -/
def Part.verifyJob (p : Part) (j : VerifyRequest) (x : Context) : VerifyJob where
  context := j.context
  generation := j.generation
  void := false
  slots := x.slotted.map Prod.snd
  digests := x.slotted.map fun ps => (ps.1, digestOf (p.smc.dram.bytes (slotOffset ps.2) x.length))

/-- VERIFY_JOB_START: the head job leaves the FIFO when none is in progress (R144). -/
def execVerifyJobStart (s : State) : Host.Outcome State Fault Refusal :=
  run s fun p =>
    match p.vfu.job, p.vfu.queue with
    | none, j :: rest =>
      { p with
        vfu := { queue := rest, job := (p.context? j.context).map fun x => p.verifyJob j x } }
    | _, _ => p

/-- The digest is MISMATCH: the expected digest is known and different (R145). -/
def Part.mismatched (p : Part) (t : StripeId) (r : Nat × Digest) : Bool :=
  match p.expectedDigest? t r.1 with
  | some expected => expected != r.2
  | none => false

/-- A verify completion at a context: the output digests written, then DELIVERING, or VERIFY-FAIL naming the positions
that failed (R98, R145). -/
def Part.takeVerify (p : Part) (j : VerifyJob) (x : Context) : Part :=
  let q := p.editContext j.context fun y =>
    { y with lostList := y.lostList.map fun e =>
        if e.enabled then { e with digest := (j.digests.lookup e.position).or e.digest } else e }
  let failed := (j.digests.filter (p.mismatched x.stripe)).map Prod.fst
  if failed.isEmpty then q.editContext j.context fun y => { y with state := .delivering }
  else q.decideReported j.context (.verifyFail failed)

/-- The verify job in progress ends: its slots are held no more, and a job that is not void completes at its
context (R145, R146, R152). -/
def Part.endVerify (p : Part) : Part :=
  match p.vfu.job with
  | none => p
  | some j =>
    let q := j.slots.foldl Part.settleSlot { p with vfu := { p.vfu with job := none } }
    match q.context? j.context with
    | none => q
    | some x =>
      if !j.void && x.live && x.state == .verifying && q.generation j.context == j.generation then q.takeVerify j x
      else q

/-- VERIFY_DONE (R98, R145, R146). -/
def execVerifyDone (s : State) : Host.Outcome State Fault Refusal := run s Part.endVerify

/-! ## Delivery and pending outcomes (R99, R103) -/

/-- The next entry whose STORE request is to be posted, with its slot: the first enabled one in lost-list order
(R99). -/
def Context.nextStore? (x : Context) : Option (LostEntry × Nat) :=
  match x.enabled.find? fun e => e.delivery == .none_ with
  | some e => e.slot.map fun j => (e, j)
  | none => none

/-- A STORE request posted with a new tag: the entry REQUESTED, its slot with the right READ (R99, R154, R168). -/
def Part.postStoreRequest (p : Part) (c : Nat) (x : Context) (e : LostEntry) (slot : Nat) : Part :=
  let tag := p.hlk.tagCounter
  let q := (p.takeTag .store).editContext c fun y =>
    { y with lostList := y.lostList.map fun f =>
        if f.position = e.position then { f with delivery := .requested, tag := some tag } else f }
  (q.editSlot slot fun r => { r with right := .read tag }).postReport
    (.storeRequest tag x.stripe e.position x.length (e.digest.getD 0) slot)

/-- STORE_REQUEST: a context in DELIVERING posts its next request, as the report path allows (R99). -/
def execStoreRequest (context : Nat) (s : State) : Host.Outcome State Fault Refusal :=
  run s fun p =>
    match p.context? context with
    | none => p
    | some x =>
      if x.live && x.state == .delivering && !p.reportPathFull then
        match x.nextStore? with
        | some (e, slot) => p.postStoreRequest context x e slot
        | none => p
      else p

/-- PENDING_OUTCOME_COMPLETE: a pending outcome completes where the report path has a place (R103). -/
def execPendingOutcomeComplete (context : Nat) (s : State) : Host.Outcome State Fault Refusal :=
  run s fun p =>
    match (p.context? context).bind Context.pendingOutcome with
    | some o => if p.reportPathFull then p else p.completeReported context o
    | none => p

end Sys2Proof.Machine
end

