-- ==== Sys2Proof/Machine/FetchCommands.lean ====
section
/-! DEFINITION. The meanings of the fetch unit's steps: READY, WAIT, REFUSE and CHUNK arrivals, and the timers of an
OPEN, of a PULL and of a WAIT (chapter 7). -/

namespace Sys2Proof.Machine

/-! ## Replies (R106) -/

/-- The lane that takes a frame of the fetch exchange: the one its tag names, in its current use, from its server
(R106). -/
def Part.laneFor? (p : Part) (station : Nat) (tag : Tag) : Option (Nat × LaneUse) :=
  let n := laneOfTag tag
  match p.laneUse? n with
  | none => none
  | some u => if p.laneTag n = tag ∧ u.server = station then some (n, u) else none

/-- The lane is in OPENING or OPEN-WAIT. -/
def LaneUse.opening (u : LaneUse) : Bool :=
  match u.state with
  | .opening _ => true
  | .openWait _ => true
  | _ => false

/-- A READY's checks at a lane, in order, and its entry to STREAMING (R109). -/
def Part.takeReady (p : Part) (n : Nat) (u : LaneUse) (length : Nat) (digest : Option Digest) : Part :=
  if !u.opening then p
  else if length ≠ u.length then p.failLane n .length
  else if digest.isSome && u.digest.isSome && digest != u.digest then p.failLane n .damaged
  else
    (p.setUse n
      { u with
        digest := if u.digest.isSome then u.digest else digest
        waitCount := 0
        state := .streaming }).testWindow n

/-- READY (R109, R156). -/
def execReady (header : FrameHeader) (tag : Tag) (digestPresent : Byte) (length : BitVec 32) (digest : Digest)
    (s : State) : Host.Outcome State Fault Refusal :=
  run s fun p => p.receive header (.ready tag digestPresent length digest) fun q =>
    match q.laneFor? header.sender.toNat tag with
    | some (n, u) => q.takeReady n u length.toNat (if flagSet digestPresent then some digest else none)
    | none => q

/-- The hint of a WAIT in ms; a hint of 0 is read as 1 (R110, R160). -/
def waitHint (hint : Byte) : Nat := max 1 hint.toNat

/-- A WAIT taken by a lane in OPENING: its busy flag kept, the wait count raised, and OPEN-WAIT or, at the 256th,
FAILED (R110). -/
def Part.takeWait (p : Part) (n : Nat) (u : LaneUse) (hint : Nat) (busy : Bool) : Part :=
  match u.state with
  | .opening _ =>
    let v := { u with waitCount := u.waitCount + 1, waitBusy := busy }
    if 256 ≤ v.waitCount then (p.setUse n v).failLane n .waitLimit
    else p.setUse n { v with state := .openWait (p.now + hint * 1000) }
  | _ => p

/-- WAIT (R110, R156). -/
def execWait (header : FrameHeader) (tag : Tag) (hint busy : Byte) (s : State) : Host.Outcome State Fault Refusal :=
  run s fun p => p.receive header (.wait tag hint busy) fun q =>
    match q.laneFor? header.sender.toNat tag with
    | some (n, u) => q.takeWait n u (waitHint hint) (flagSet busy)
    | none => q

/-- A REFUSE taken by a lane, by its state and reason (R111). -/
def Part.takeRefuse (p : Part) (n : Nat) (u : LaneUse) (reason : RefuseReason) : Part :=
  if reason = .notOpen then
    if u.state = .streaming then p.reOpen n else p
  else if u.active then p.failLane n (.refused reason)
  else p

/-- REFUSE (R111, R156). -/
def execRefuse (header : FrameHeader) (tag : Tag) (reason : Byte) (s : State) : Host.Outcome State Fault Refusal :=
  run s fun p => p.receive header (.refuse tag reason) fun q =>
    match q.laneFor? header.sender.toNat tag, RefuseReason.ofCode? reason with
    | some (n, u), some r => q.takeRefuse n u r
    | _, _ => q

/-- A CHUNK taken by a lane: into the bank that is REQUESTED for it, when its length is that of its chunk; and its combine
request when it is the next to consume (R113, R114). -/
def Part.takeChunk (p : Part) (n : Nat) (u : LaneUse) (chunk : Nat) (data : List Byte) : Part :=
  if u.state = .streaming ∧ (u.bankOf chunk).requestedFor chunk = true ∧ data.length = chunkLength u.length chunk then
    let q := p.setUse n (u.setBank chunk (.full chunk data))
    if chunk = u.nextConsume then q.laneCombine n else q
  else p

/-- CHUNK (R113, R156). -/
def execChunk (header : FrameHeader) (tag : Tag) (chunk : Byte) (data : List Byte) (s : State) :
    Host.Outcome State Fault Refusal :=
  run s fun p => p.receive header (.chunk tag chunk data) fun q =>
    match q.laneFor? header.sender.toNat tag with
    | some (n, u) => q.takeChunk n u chunk.toNat data
    | none => q

/-! ## Timers (R108, R110, R117) -/

/-- The reply timeout of an OPEN expires: the OPEN again, or FAILED after the last try (R108). -/
def Part.expireOpen (p : Part) (n : Nat) : Part :=
  match p.laneUse? n with
  | none => p
  | some u =>
    match u.state with
    | .opening (some due) =>
      let q := p.reach due
      if q.tries ≤ u.openTries then q.failLane n .noReply
      else (q.setUse n { u with state := .opening none, openTries := u.openTries + 1 }).postOpen n u
    | _ => p

/-- OPEN_REPLY_TIMEOUT (R108). -/
def execOpenReplyTimeout (lane : Nat) (s : State) : Host.Outcome State Fault Refusal :=
  run s fun p => p.expireOpen lane

/-- The bank of a number, 0 or 1. -/
def LaneUse.bankNumbered? (u : LaneUse) : Nat → Option Bank
  | 0 => some u.bank0
  | 1 => some u.bank1
  | _ => none

/-- The reply timeout of a REQUESTED bank expires while the lane streams: the PULL again, or FAILED after the last try
(R112, R117). -/
def Part.expirePull (p : Part) (n bank : Nat) : Part :=
  match p.laneUse? n with
  | none => p
  | some u =>
    match u.bankNumbered? bank with
    | some (.requested chunk tries (some sent)) =>
      if u.state = .streaming then
        let q := p.reach (sent + p.replyTimeout)
        if q.tries ≤ tries then q.failLane n .noReply
        else
          (q.setUse n (u.setBank bank (.requested chunk (tries + 1) none))).postPull n u chunk
      else p
    | _ => p

/-- PULL_REPLY_TIMEOUT (R117). -/
def execPullReplyTimeout (lane bank : Nat) (s : State) : Host.Outcome State Fault Refusal :=
  run s fun p => p.expirePull lane bank

/-- The wait timer of a lane in OPEN-WAIT expires: OPENING, and its OPEN again as a first try (R110). -/
def Part.expireWait (p : Part) (n : Nat) : Part :=
  match p.laneUse? n with
  | none => p
  | some u =>
    match u.state with
    | .openWait due =>
      ((p.reach due).setUse n { u with state := .opening none, openTries := 1 }).postOpen n u
    | _ => p

/-- WAIT_TIMER_EXPIRY (R110). -/
def execWaitTimerExpiry (lane : Nat) (s : State) : Host.Outcome State Fault Refusal :=
  run s fun p => p.expireWait lane

end Sys2Proof.Machine
end

