-- ==== Sys2Proof/Machine/RosterEvents.lean ====
section
/-! DEFINITION. The roster's transitions and the events it delivers (chapter 3): the liveness check (R39), peer and rack
transitions (R40 to R46), and PEER-LOST, PEER-RESTART, PEER-PRESENT, RACK-DOWN and RACK-UP at the blocks that take
them (R47). -/

namespace Sys2Proof.Machine

/-! ## Events delivered (R47) -/

/-- PEER-LOST at the contexts: each with a survivor held by the station re-plans, in PLANNING holding a plan or in
GATHERING (R94). -/
def Part.contextsPeerLost (p : Part) (station : Nat) : Part :=
  p.ctx.contexts.numbers.foldl
    (fun q c =>
      match q.context? c with
      | none => q
      | some x =>
        if x.live && ((x.state == .planning && x.plan.isSome) || x.state == .gathering)
            && (x.survivors.getD []).any fun v => v.holder == station then q.rePlan c none
        else q)
    p

/-- The lanes whose server is the station in OPENING, OPEN-WAIT or STREAMING, ascending (R119, R120). -/
def Part.activeLanesOf (p : Part) (station : Nat) : List Nat :=
  p.ftu.numbers.filter fun n =>
    match p.laneUse? n with
    | some u => u.active && u.server == station
    | none => false

/-- PEER-LOST at the lanes and the contexts. Every active lane of the station enters FAILED at once and sends nothing; then
the lanes' reports and the PEER-LOST itself reach the contexts, in either order (R94, R105 case 2, R118, R120, DESIGN
CHOICE, log 7). -/
def Part.lanesAndContextsPeerLost (p : Part) (station : Nat) (lanesFirst : Bool) : Part :=
  let lanes := p.activeLanesOf station
  let q := lanes.foldl (fun r n => r.enterFailed n .serverLost) p
  if lanesFirst then (lanes.foldl Part.reportFailedLane q).contextsPeerLost station
  else lanes.foldl Part.reportFailedLane (q.contextsPeerLost station)

/-- PEER-LOST delivered to the scanner, the claim table, the lanes and contexts, and the serve unit (R47). -/
def Part.deliverPeerLost (p : Part) (station : Nat) (lanesFirst : Bool) : Part :=
  let q := (p.requestSweep.revertYielded station).lanesAndContextsPeerLost station lanesFirst
  q.removeOpenersEverywhere (Opener.isRemoteOf station)

/-- A remote opener of a station under another epoch than the recorded one (R130). -/
def Opener.isStaleRemoteOf (station : Nat) (epoch : Option Epoch) : Opener → Bool
  | .remote s _ e _ => s == station && e != epoch
  | .internal _ => false

/-- PEER-RESTART at the lanes: each whose server is the station re-opens in OPENING, OPEN-WAIT or STREAMING (R119). The
lanes are taken one by one in ascending number, and one at its re-open limit reports at once, so that the re-plan it brings
releases its context's later lanes of that server before they would re-open (DESIGN CHOICE, log 39). -/
def Part.lanesPeerRestart (p : Part) (station : Nat) : Part :=
  p.ftu.numbers.foldl
    (fun q n =>
      match q.laneUse? n with
      | none => q
      | some u => if u.active && u.server == station then q.reOpen n else q)
    p

/-- PEER-RESTART delivered to the scanner, the claim table, the lanes and the serve unit (R47, R76, R130). -/
def Part.deliverPeerRestart (p : Part) (station : Nat) : Part :=
  let q := (p.requestSweep.revertYielded station).lanesPeerRestart station
  q.removeOpenersEverywhere (Opener.isStaleRemoteOf station ((q.peer? station).bind Peer.epoch))

/-- PEER-PRESENT delivered: each context in PLAN-WAIT enters PLANNING with a new plan job (R47, R91). -/
def Part.deliverPeerPresent (p : Part) : Part :=
  p.ctx.contexts.numbers.foldl
    (fun q c =>
      match q.context? c with
      | none => q
      | some x => if x.live && x.state == .planWait then q.enterPlanning c else q)
    p

/-! ## Rack transitions (R43 to R46) -/

/-- A rack becomes DOWN: RACKDOWN broadcast, RACK-DOWN to the scanner, the RACK flag set (R43, R52). No stripe is evaluated
here: R55 says that while a pass is HELD a CLAIMING stripe sees a newly DOWN rack in its lost set at once, but R57 lists no
evaluation at RACK-DOWN and R47 delivers it to the scanner and the host link alone, so a CLAIMING stripe sees the rack at its
next evaluation (DESIGN CHOICE, log 50). -/
def Part.rackGoesDown (p : Part) (rack : Nat) : Part :=
  let q := p.editRack rack fun r => { r with state := .down, suspectCount := 0 }
  let q := q.post none (.rackdown (BitVec.ofNat 8 rack))
  (q.addPending rack (if q.releaseHold then some true else none)).setFlag .rack

/-- Every member of the rack is LOST, and it has at least one. -/
def Part.allLost (p : Part) (r : Rack) : Bool :=
  !r.members.isEmpty && r.members.all fun station => p.peerState? station == some .lost

/-- A rack that is UP or SUSPECT goes DOWN when its last member that was not LOST has become LOST (R43). -/
def Part.checkRackDown (p : Part) (rack : Nat) : Part :=
  match p.prs.racks.row? rack with
  | some r => if r.state != .down && p.allLost r then p.rackGoesDown rack else p
  | none => p

/-- A DOWN rack returns to UP: RACK-UP to the scanner, the RACK flag set (R44, R52, R55). -/
def Part.rackReturns (p : Part) (rack : Nat) : Part :=
  if p.rackState rack = .down then
    (((p.editRack rack fun r => { r with state := .up }).addPending rack (some false)).releaseTrigger rack).setFlag
      .rack
  else p

/-- A SUSPECT rack's suspect count has reached 0: it returns to UP without event or flag (R46). -/
def Part.endSuspect (p : Part) (rack : Nat) : Part :=
  p.editRack rack fun r => if r.state = .suspect ∧ r.suspectCount = 0 then { r with state := .up } else r

/-- A SUSPECT rack's suspect count reduced by 1, and the rack UP when it has reached 0 (R39, R46). -/
def Part.reduceSuspect (p : Part) (rack : Nat) : Part :=
  (p.editRack rack fun r =>
    if r.state = .suspect then { r with suspectCount := r.suspectCount - 1 } else r).endSuspect rack

/-! ## Peer transitions (R40) -/

/-- The long count in force for a station: L, or S + 1 while its rack is SUSPECT (R40). -/
def Part.longCountFor (p : Part) (q : Peer) : Nat :=
  if p.rackState q.rack = .suspect then p.shortCount + 1 else p.longCount

/-- A PRESENT station becomes SILENT. -/
def Part.peerBecomesSilent (p : Part) (station : Nat) : Part :=
  p.editPeer station fun q => { q with state := .silent }

/-- A station becomes LOST, and PEER-LOST is delivered (R40). -/
def Part.peerBecomesLost (p : Part) (station : Nat) (lanesFirst : Bool) : Part :=
  (p.editPeer station fun q => { q with state := .lost }).deliverPeerLost station lanesFirst

/-- A PRESENT record whose missed count is at least S is due to become SILENT (R40, case 1). -/
def Part.silentDue (p : Part) (q : Peer) : Bool := q.state == .present && decide (p.shortCount ≤ q.missed)

/-- A SILENT or ABSENT record whose missed count is at least the long count in force is due to become LOST
(R40, cases 2 and 3). -/
def Part.lostDue (p : Part) (q : Peer) : Bool :=
  (q.state == .silent || q.state == .absent) && decide (p.longCountFor q ≤ q.missed)

/-- One record's transition in a liveness check: at most one step (R40). -/
def Part.checkPeer (p : Part) (station : Nat) (lanesFirst : Bool) : Part :=
  match p.peer? station with
  | none => p
  | some q =>
    if p.silentDue q then p.peerBecomesSilent station
    else if p.lostDue q then p.peerBecomesLost station lanesFirst
    else p

/-! ## The liveness check (R39) -/

/-- A record's missed count and heard flag after a check (R39). -/
def Peer.counted (q : Peer) : Peer :=
  if q.state = .self then q
  else if q.heard then { q with missed := 0, heard := false }
  else { q with missed := min 64 (q.missed + 1) }

/-- The liveness check, one event: the counts, then the peer transitions, then the racks going DOWN, then the suspect
counts (R39). Within each of these the manual gives no order: stations are taken in ascending number, and so are the racks
that go DOWN in one check, so that their RACKDOWN frames are posted in that order (R43; DESIGN CHOICE, log 8). -/
def Part.livenessCheck (p : Part) (lanesFirst : Bool) : Part :=
  let q : Part := { p with prs := { p.prs with peers := p.prs.peers.map fun (r : Nat × Peer) => (r.1, r.2.counted) } }
  let q := q.prs.peers.numbers.foldl (fun (r : Part) station => r.checkPeer station lanesFirst) q
  let q := q.prs.racks.numbers.foldl Part.checkRackDown q
  q.prs.racks.numbers.foldl Part.reduceSuspect q

/-! ## A BEACON taken (R38, R41, R44) -/

/-- The record fields that every way to PRESENT writes: missed count 0 and the state. -/
def Peer.nowPresent (q : Peer) : Peer := { q with missed := 0, state := .present }

/-- A restart of a peer: the new epoch and the link address recorded, and PEER-RESTART delivered (R41). -/
def Part.peerRestarts (p : Part) (station : Nat) (h : FrameHeader) : Part :=
  (p.editPeer station fun q => { q with epoch := some h.epoch, link := some h.source }).deliverPeerRestart station

/-- A BEACON taken by the roster (R38). Its contexts byte is recorded as it is, also above 32 (DESIGN CHOICE, log 33). -/
def Part.takeBeacon (p : Part) (h : FrameHeader) (rack status contexts : Byte) : Part :=
  let station := h.sender.toNat
  match p.peer? station with
  | none => p
  | some before =>
    if rack.toNat ≠ before.rack then p.dropFrame .body
    else
      let q := p.editPeer station fun q =>
        { q with heard := true, status := PeerStatus.ofCode? status, load := some contexts.toNat }
      match before.state with
      | .absent =>
        (q.editPeer station fun r => { r.nowPresent with link := some h.source, epoch := some h.epoch }).deliverPeerPresent
      | .lost =>
        ((q.editPeer station fun r =>
          { r.nowPresent with link := some h.source, epoch := some h.epoch }).deliverPeerPresent).rackReturns before.rack
      | .silent =>
        if before.epoch = some h.epoch then (q.editPeer station Peer.nowPresent).deliverPeerPresent
        else (((q.peerRestarts station h).editPeer station Peer.nowPresent)).deliverPeerPresent
      | .present => if before.epoch = some h.epoch then q else q.peerRestarts station h
      | .self => q

/-- A RACKDOWN taken by the roster: an UP rack with members other than the own rack becomes SUSPECT (R45). -/
def Part.takeRackdown (p : Part) (rack : Nat) : Part :=
  match p.prs.racks.row? rack with
  | none => p
  | some r =>
    if r.members.isEmpty ∨ r.members.contains p.own ∨ r.state ≠ .up then p
    else p.editRack rack fun r => { r with state := .suspect, suspectCount := p.longCount }

end Sys2Proof.Machine
end

