-- ==== Sys2Proof/Machine/ResetCommands.lean ====
section
/-! DEFINITION. The meanings of the resets, CONFIGURE, START, INIT-DONE and HALT (R147, R148, R162, R165 to R167). -/

namespace Sys2Proof.Machine

/-! ## Resets (R162) -/

/-- One accumulator's chunk whose writing by a combine operation was cut short: each byte is as it was or its sum with
the coefficient times the operand byte; a coefficient of 00h writes nothing (R31, R138, R141 case 6, DESIGN CHOICE,
log 12). -/
def Dram.cutCombine (d : Dram) (offset : Nat) (coefficient : Byte) (operand : List Byte) : Dram :=
  if coefficient = 0 then d
  else d.cutWrite offset (contribute coefficient (d.bytes offset operand.length) operand)

/-- The DRAM after the fill and the combine operation in progress have been cut short: each byte they were writing is as
it was or as they write it (R141 case 6, R151, DESIGN CHOICE, log 12). -/
def Part.cutShort (p : Part) : Dram :=
  let d := match p.smc.fill with
    | some f => p.smc.dram.cutZeroBlock (slotBlock f.slot)
    | none => p.smc.dram
  match p.cbe.operation with
  | some o =>
    o.targets.foldl (fun e t => e.cutCombine (slotOffset t.1 + o.request.chunk * chunkSize) t.2 o.operand) d
  | none => d

/-- The DRAM that a function reset keeps: what was being written is cut short, the initialization of the holdings region
too (R147, R148, DESIGN CHOICE, log 12). -/
def Part.dramKept (p : Part) : Dram :=
  if p.hlk.phase = .initializing then (List.range holdingsBlocks).foldl Dram.cutZeroBlock p.cutShort else p.cutShort

/-- Every block in its reset state, with the strap read and the given DRAM; the model's clock and its record of what
the part has sent and written outside are kept (R162, DESIGN CHOICE, log 17). -/
def Part.resetWith (p : Part) (strap : DramSize) (dram : Dram) : Part :=
  let q := Part.reset strap dram
  { q with
    now := p.now
    hlk := { q.hlk with
      interrupts := p.hlk.interrupts
      hostMemory := p.hlk.hostMemory
      windowData := p.hlk.windowData }
    sgp := { q.sgp with wire := p.sgp.wire } }

/-- POWER_ON_RESET: the part in SETUP, every block reset, the DRAM contents undefined (R147, R162). -/
def execPowerOnReset (strap : DramSize) (s : State) : Host.Outcome State Fault Refusal :=
  run s fun p => p.resetWith strap (Dram.undefined p.smc.dram.nextSeed)

/-- FUNCTION_RESET: the same block resets, the DRAM contents kept (R147, R162). -/
def execFunctionReset (strap : DramSize) (s : State) : Host.Outcome State Fault Refusal :=
  run s fun p => p.resetWith strap p.dramKept

/-! ## CONFIGURE (R165) -/

/-- A geometry entry is unconfigured, or within the bounds of R1. -/
def geometryAcceptable (g : Byte × Byte) : Bool :=
  let k := g.1.toNat
  let m := g.2.toNat
  k == 0 || (decide (2 ≤ k ∧ k ≤ 12) && decide (1 ≤ m ∧ m ≤ 4) && decide (k + m ≤ 16))

/-- A member map entry is FFh or a rack (R165). -/
def memberEntryAcceptable (b : Byte) : Bool := b == 0xFF#8 || decide (b.toNat ≤ 15)

/-- The record passes the checks of R165 that look at it alone. -/
def ConfigRecord.acceptable (c : ConfigRecord) : Bool :=
  c.memberMap.all memberEntryAcceptable && decide (c.ownStation.toNat < 64)
    && (c.rackOf? c.ownStation.toNat).isSome && c.geometries.all geometryAcceptable
    && decide (c.releaseHold.toNat ≤ 1)

/-- A number clamped into a range. -/
def clampNat (low high n : Nat) : Nat := max low (min high n)

/-- The record with its values clamped into their ranges, for a slot pool (R149, R165). The interrupt enable bits 5 to 7,
which R165 says are ignored, are 0 in the configuration in force, and the status block shows them so; the rule does not say
what the host reads back there (DESIGN CHOICE, log 55). -/
def ConfigRecord.clamped (c : ConfigRecord) (pool : Nat) : ConfigRecord :=
  let short := clampNat 2 8 c.shortCount.toNat
  { c with
    etherType := if c.etherType.toNat < 0x0600 then 0x88B6#16 else c.etherType
    interruptEnables := c.interruptEnables &&& 0x1F#8
    beaconPeriod := BitVec.ofNat 8 (clampNat 1 100 c.beaconPeriod.toNat)
    shortCount := BitVec.ofNat 8 short
    longCount := BitVec.ofNat 8 (clampNat (short + 1) 64 c.longCount.toNat)
    claimHoldOff := BitVec.ofNat 8 (clampNat 2 200 c.claimHoldOff.toNat)
    claimRepeat := BitVec.ofNat 16 (clampNat 20 1000 c.claimRepeat.toNat)
    replyTimeout := BitVec.ofNat 16 (clampNat 100 10000 c.replyTimeout.toNat)
    tries := BitVec.ofNat 8 (clampNat 1 8 c.tries.toNat)
    openerIdleLimit := BitVec.ofNat 16 (clampNat 100 5000 c.openerIdleLimit.toNat)
    sweepInterval := BitVec.ofNat 8 (clampNat 1 60 c.sweepInterval.toNat)
    serveReserve := BitVec.ofNat 16 (clampNat 16 (pool - 128) c.serveReserve.toNat) }

/-- The record of a member as CONFIGURE writes it: ABSENT, or SELF with the card's own address (R34, R36). The own record
has no reported load, now or later, so the status block shows FFh for it (DESIGN CHOICE, log 32). -/
def Peer.configured (rack : Nat) (own : Bool) : Peer where
  rack := rack
  state := if own then .self else .absent
  missed := 0
  heard := false
  link := if own then some Config.ownAddress else none
  epoch := none
  status := none
  load := none

/-- The peer records of a configuration (R34). -/
def ConfigRecord.peers (c : ConfigRecord) : Table Peer :=
  (List.range 64).filterMap fun station =>
    (c.rackOf? station).map fun rack => (station, Peer.configured rack (station == c.ownStation.toNat))

/-- The rack records of a configuration (R35). -/
def ConfigRecord.racks (c : ConfigRecord) : Table Rack :=
  (List.range 16).map fun rack =>
    (rack, { members := (List.range 64).filter fun station => c.rackOf? station == some rack, state := .up,
             suspectCount := 0 })

/-- An accepted configuration record put in force (R165). -/
def Part.putInForce (p : Part) (c : ConfigRecord) : Part :=
  { p with
    config := some (ConfigRecord.clamped c p.pool)
    prs := { p.prs with peers := ConfigRecord.peers c, racks := ConfigRecord.racks c }
    hlk := { p.hlk with phase := .configured } }

/-- CONFIGURE (R164, R165). -/
def execConfigure (record : ConfigRecord) (s : State) : Host.Outcome State Fault Refusal :=
  run s fun p => p.takeCommand fun q =>
    if q.hlk.phase ≠ .setup ∧ q.hlk.phase ≠ .configured then .error .badState
    else if ConfigRecord.acceptable record && ringSizeValid q.hlk.reportSize && statusAddressValid q.hlk.statusAddress then
      .ok (q.putInForce record)
    else .error .badField

/-! ## START (R166) -/

/-- A lane in the free pool, IDLE, without its combine outstanding mark; its use count is kept (R107). -/
def Lane.idled (l : Lane) : Lane := { l with holder := none, outstanding := false, use := none }

/-- The blocks that HALT empties and that both kinds of START find empty: the repair queue, the claim table, the
contexts, the jobs, the lanes, the serve table, the combine queue, the fills and the slots. -/
def Part.emptyBlocks (p : Part) : Part :=
  { p with
    rq := []
    rqWait := none
    clt := { entries := [], owned := [] }
    ctx := { p.ctx with contexts := [] }
    plu := { queue := [], job := none }
    ftu := p.ftu.map fun r => (r.1, r.2.idled)
    svu := ServeUnit.reset
    cbe := CombineEngine.reset
    vfu := { queue := [], job := none }
    smc := { p.smc with slots := [], fillQueue := [], fill := none } }

/-- The part enters a state. -/
def Part.enter (p : Part) (phase : Phase) : Part := { p with hlk := { p.hlk with phase := phase } }

/-- START from CONFIGURED: the own epoch takes the start epoch, and memory initialization begins (R36, R148, R166). -/
def Part.coldStart (p : Part) : Part :=
  let q := { p.emptyBlocks with
    prs := { p.prs with ownEpoch := (p.config.map ConfigRecord.startEpoch).getD 0 } }
  q.enter .initializing

/-- START from HALTED, one event: RUNNING, the own epoch moved on, one BEACON, every record QUIET, and every DOWN rack
in the pending set (R19, R36, R50, R52, R166). -/
def Part.warmStart (p : Part) : Part :=
  let q := { p.emptyBlocks with prs := { p.prs with ownEpoch := p.prs.ownEpoch + 1 } }
  let q := (q.enter .running).postBeacon.quietAll
  q.downRacks.foldl (fun r rack => r.addPending rack none) q

/-- START (R166). -/
def execStart (s : State) : Host.Outcome State Fault Refusal :=
  run s fun p => p.takeCommand fun q =>
    match q.hlk.phase with
    | .configured => .ok q.coldStart
    | .halted => .ok q.warmStart
    | _ => .error .badState

/-- The zero image written into all positions of the holdings region (R18, R148). -/
def Dram.initialized (d : Dram) : Dram := (List.range holdingsBlocks).foldl Dram.zeroBlock d

/-- The INIT-DONE completion: RUNNING with an empty table, the liveness and sweep timers started, the first BEACON
posted (R18, R37, R51, R53, R148, R166). -/
def Part.initDone (p : Part) : Part :=
  let q := { p.setDram p.smc.dram.initialized with
    hdt := []
    prs := { p.prs with livenessDue := some (p.now + p.beaconPeriod) }
    scn := { Scanner.reset with sweepDue := some (p.now + p.sweepInterval) } }
  (q.enter .running).postBeacon

/-- INIT_DONE: nothing where no initialization is in progress (DESIGN CHOICE, log 18). -/
def execInitDone (s : State) : Host.Outcome State Fault Refusal :=
  run s fun p => if p.hlk.phase = .initializing then p.initDone else p

/-! ## HALT (R167) -/

/-- WITHDRAW(HALT) broadcast for each CONTENDING and OWNED entry, in ascending number (R84). -/
def Part.withdrawClaims (p : Part) : Part :=
  (p.clt.entries.filter fun r => r.2.announced).foldl (fun q r => q.withdrawPlain r.2.stripe .halt) p

/-- Every outstanding tag made void, and the requests whose tags are void removed from the internal report queue
(R167, step 9). -/
def Part.voidAllTags (p : Part) : Part :=
  let q := p.outstandingTags.foldl Part.voidTag p
  { q with hlk := { q.hlk with reportQueue := q.hlk.reportQueue.filter fun r => !r.tagVoid } }

/-- HALT, one event, its blocks in the order of R167. -/
def Part.haltPart (p : Part) : Part :=
  let q := p.abandonPass
  let q := q.ctx.contexts.numbers.foldl Part.endContext q
  let q := { q.withdrawClaims with clt := { entries := [], owned := [] }, rq := [] }
  let q := q.quietAll
  let q := (q.setDram q.cutShort).emptyBlocks
  (q.withdrawAtHalt.voidAllTags).enter .halted

/-- HALT (R167). -/
def execHalt (s : State) : Host.Outcome State Fault Refusal :=
  run s fun p => p.takeCommand fun q => q.whileRunning fun r => .ok r.haltPart

end Sys2Proof.Machine
end

