-- ==== Sys2Proof/Machine/HostCommands.lean ====
section
/-! DEFINITION. The meanings of LOAD, DROP, STAGED, STORED, SCAN-RELEASE, REQUEUE, CLEAR-FLAGS and of an unknown command
code (R11 to R17, R55, R64, R100, R126, R164, R168, R171). -/

namespace Sys2Proof.Machine

/-! ## LOAD (R11, R12) -/

/-- The first n placement entries of a LOAD, as station numbers. -/
def LoadRecord.stations (l : LoadRecord) (n : Nat) : List Nat := (l.placement.take n).map BitVec.toNat

/-- The first n digest entries of a LOAD, each absent or present. -/
def LoadRecord.digestList (l : LoadRecord) (n : Nat) : List (Option Digest) :=
  (List.range n).map fun i => if l.digestPresent.getLsbD i then some ((l.digests[i]?).getD 0) else none

/-- The field checks of a LOAD against its geometry (R11, check 2). -/
def Part.loadFieldsOk (p : Part) (l : LoadRecord) (g : Geometry) : Bool :=
  let length := l.length.toNat
  let stations := LoadRecord.stations l g.width
  decide (4096 ≤ length ∧ length ≤ 1048576 ∧ length % 512 = 0) && decide (l.ownIndex.toNat < g.width)
    && stations.all (fun station => (p.peer? station).isSome) && stations[l.ownIndex.toNat]? == some p.own

/-- The racks that are DOWN and hold a station of a placement, added to the pending set with their marks kept
(R12, R52). -/
def Part.addDownRacksOf (p : Part) (placement : List Nat) : Part :=
  ((placement.filter p.stationDown).filterMap fun station => (p.peer? station).map Peer.rack).foldl
    (fun q rack => q.addPending rack none) p

/-- The record of a LOAD into a stripe that has no other record (R12). -/
def LoadRecord.firstRecord (l : LoadRecord) (n : Nat) : HoldingRecord where
  stripe := l.stripe
  ownIndex := l.ownIndex.toNat
  geometry := l.geometry.toNat
  length := l.length.toNat
  placement := LoadRecord.stations l n
  digests := LoadRecord.digestList l n
  standing := .quiet
  lost := []
  outside := none

/-- An accepted LOAD: the record inserted, an existing stripe joined with its own entry set to this station and
evaluated if that changed, and the DOWN racks of the resulting placement made pending (R12). -/
def Part.insertLoaded (p : Part) (l : LoadRecord) (n : Nat) : Option Part :=
  let t := l.stripe
  let index := l.ownIndex.toNat
  let inserted : Option Part := match p.firstRecord? t with
    | none => p.insertRecord? (LoadRecord.firstRecord l n)
    | some old =>
      (p.insertRecord? { LoadRecord.firstRecord l n with
        placement := old.placement.set index p.own, standing := old.standing, lost := old.lost,
        outside := old.outside }).map fun (q : Part) =>
          if old.placement[index]? = some p.own then q
          else
            let q := q.setPlacement t index p.own
            if old.standing = .quiet then q else q.evaluateOrSweep t
  inserted.map fun q => q.addDownRacksOf (q.placementOf t)

/-- LOAD's checks in order, and its effect (R11). -/
def Part.loadRecord (p : Part) (l : LoadRecord) : Except RefusalCode Part :=
  match p.geometry? l.geometry.toNat with
  | none => .error .badField
  | some g =>
    if !p.loadFieldsOk l g then .error .badField
    else if (p.recordsOf l.stripe).any fun r => r.geometry != l.geometry.toNat || r.length != l.length.toNat then
      .error .badField
    else if p.holds l.stripe l.ownIndex.toNat then .error .exists_
    else
      match p.insertLoaded l g.width with
      | none => .error .full
      | some q => .ok q

/-- LOAD (R11, R12, R164). -/
def execLoad (record : LoadRecord) (s : State) : Host.Outcome State Fault Refusal :=
  run s fun p => p.takeCommand fun q => q.whileRunning fun r => r.loadRecord record

/-! ## DROP (R13, R14) -/

/-- Every key of a stripe dropped at the serve unit (R14, R131). -/
def Part.dropStripeServed (p : Part) (t : StripeId) : Part :=
  ((p.svu.entries.filter fun r => r.2.stripe == t && r.2.holdsKey).map fun r => r.2.position).foldl
    (fun q position => q.dropServed t position) p

/-- The claim entry of a stripe whose last record is gone: WITHDRAW(DROPPED) from CONTENDING or OWNED, and removed
(R14, R84). -/
def Part.dropClaim (p : Part) (t : StripeId) : Part :=
  match p.claimOf? t with
  | none => p
  | some (n, e) => (if e.announced then p.withdrawPlain t .dropped else p).removeClaim n

/-- The record of a key removed: the serve entry of the key fails, and with the last record the stripe leaves the
repair queue, its context, its claim entry and the serve table, in that order (R13, R14). -/
def Part.dropRecord (p : Part) (t : StripeId) (index : Nat) : Except RefusalCode Part :=
  match p.recordOf? t index with
  | none => .error .notFound
  | some (position, _) =>
    let q := p.clearRecord position
    if (q.firstRecord? t).isSome then .ok ((q.dropAtCursor position).dropServed t index)
    else .ok (((((q.unqueue t).dropAtCursor position).endContextOf t).dropClaim t).dropStripeServed t)

/-- DROP (R13, R14, R164). -/
def execDrop (stripe : StripeId) (ownIndex : Byte) (s : State) : Host.Outcome State Fault Refusal :=
  run s fun p => p.takeCommand fun q => q.whileRunning fun r => r.dropRecord stripe ownIndex.toNat

/-! ## STAGED (R126, R168) -/

/-- A result byte: 01h ok, 02h failed (R161). -/
def resultOf? (b : Byte) : Option Bool := if b = 0x01 then some true else if b = 0x02 then some false else none

/-- The serve entry that holds an outstanding STAGE tag (R126). -/
def Part.stagingOf? (p : Part) (tag : Tag) : Option (Nat × ServeEntry) :=
  p.svu.entries.findRow? fun e => e.state == .staging && e.tag == some tag

/-- STAGED taken by a serve entry: STAGED and its internal opener feeding, or FAILED by the host (R126). -/
def Part.answerStage (p : Part) (tag : Tag) (ok : Bool) : Except RefusalCode Part :=
  if p.hlk.stageTags.contains tag then
    match p.stagingOf? tag with
    | none => .error .stale
    | some (n, e) =>
      let q := p.endTag tag
      if ok then
        let q := q.setServe n { e with state := .staged, tag := none, lastUse := q.now }
        .ok (e.internals.foldl (fun r i => r.feed i.context) q)
      else .ok (q.failServe n .hostFailed)
  else .error .stale

/-- STAGED (R126, R164, R168). -/
def execStaged (tag : Tag) (result : Byte) (s : State) : Host.Outcome State Fault Refusal :=
  run s fun p => p.takeCommand fun q => q.whileRunning fun r =>
    match resultOf? result with
    | none => .error .badField
    | some ok => r.answerStage tag ok

/-! ## STORED (R16, R17, R100, R168) -/

/-- The record that is auto-inserted for a rebuilt position (R17). -/
def Part.rebuiltRecord? (p : Part) (x : Context) (position : Nat) (digest : Option Digest) : Option HoldingRecord :=
  (p.firstRecord? x.stripe).map fun r =>
    { r with
      ownIndex := position
      geometry := x.geometry
      length := x.length
      digests := r.digests.set position digest }

/-- The auto-insert after a rebuild: nothing where the key exists, HOLDINGS-FULL where no position is empty (R17). Where
both hold, the key comes first and nothing is posted (DESIGN CHOICE, log 31). -/
def Part.autoInsert (p : Part) (x : Context) (position : Nat) (digest : Option Digest) : Part :=
  if p.holds x.stripe position then p
  else
    match p.rebuiltRecord? x position digest with
    | none => p
    | some r =>
      match p.insertRecord? r with
      | some q => q
      | none => p.postReport (.holdingsFull x.stripe position)

/-- The entry of a context in DELIVERING whose request has the tag (R100). -/
def Part.deliveryOf? (p : Part) (tag : Tag) : Option (Nat × Context × LostEntry) :=
  p.ctx.contexts.findSome? fun r =>
    if r.2.state = .delivering then
      (r.2.lostList.find? fun e => e.delivery == .requested && e.tag == some tag).map fun e => (r.1, r.2, e)
    else none

/-- Delivery ended when every enabled entry is DELIVERED or FAILED: DONE if all are DELIVERED, else ABANDONED with
cause STORE-FAILED (R100). -/
def Part.checkDelivered (p : Part) (c : Nat) : Part :=
  match p.context? c with
  | none => p
  | some x =>
    if x.enabled.all fun e => e.delivery == .delivered || e.delivery == .failed then
      if x.enabled.all fun e => e.delivery == .delivered then p.completeDone c else p.abandon c .storeFailed
    else p

/-- The delivery of a position written into a context. -/
def Part.setDelivery (p : Part) (c position : Nat) (d : Delivery) : Part :=
  p.editContext c fun y =>
    { y with lostList := y.lostList.map fun e => if e.position = position then { e with delivery := d } else e }

/-- STORED taken by a context: the entry DELIVERED with the placement updated and the record inserted, or FAILED
(R16, R17, R100). -/
def Part.answerStore (p : Part) (tag : Tag) (ok : Bool) : Except RefusalCode Part :=
  if p.hlk.storeTags.contains tag then
    match p.deliveryOf? tag with
    | none => .error .stale
    | some (c, x, e) =>
      let q := p.endTag tag
      if ok then
        let q := (q.setDelivery c e.position .delivered).setPlacement x.stripe e.position q.own
        .ok ((q.autoInsert x e.position e.digest).checkDelivered c)
      else .ok ((q.setDelivery c e.position .failed).checkDelivered c)
  else .error .stale

/-- STORED (R100, R164, R168). -/
def execStored (tag : Tag) (result : Byte) (s : State) : Host.Outcome State Fault Refusal :=
  run s fun p => p.takeCommand fun q => q.whileRunning fun r =>
    match resultOf? result with
    | none => .error .badField
    | some ok => r.answerStore tag ok

/-! ## SCAN-RELEASE, REQUEUE, CLEAR-FLAGS and unknown codes -/

/-- The held mark of a rack cleared wherever it stands (R55). -/
def Part.releaseRack (p : Part) (rack : Nat) : Part :=
  ({ p with scn := { p.scn with pending := p.scn.pending.editRow rack fun _ => false } }).releaseTrigger rack

/-- SCAN_RELEASE (R55, R164). -/
def execScanRelease (rack : Byte) (s : State) : Host.Outcome State Fault Refusal :=
  run s fun p => p.takeCommand fun q => q.whileRunning fun r =>
    if 15 < rack.toNat then .error .badField else .ok (r.releaseRack rack.toNat)

/-- REQUEUE's checks in order, and evaluation E (R64). -/
def Part.requeueStripe (p : Part) (t : StripeId) : Except RefusalCode Part :=
  match p.firstRecord? t with
  | none => .error .notFound
  | some r =>
    if r.standing = .quiet ∨ r.standing = .unrecoverable then
      match p.evaluate? t with
      | some q => .ok q
      | none => .error .full
    else .error .badState

/-- REQUEUE (R64, R164). -/
def execRequeue (stripe : StripeId) (s : State) : Host.Outcome State Fault Refusal :=
  run s fun p => p.takeCommand fun q => q.whileRunning fun r => r.requeueStripe stripe

/-- CLEAR_FLAGS, accepted in every state in which the reader takes it (R164, R171). -/
def execClearFlags (mask : Byte) (s : State) : Host.Outcome State Fault Refusal :=
  run s fun p => p.takeCommand fun q => .ok (q.clearFlags mask)

/-- UNKNOWN_COMMAND_CODE: a code that is not listed is refused with BAD-FIELD; an entry with a listed code is that
command's and not this row's (R164, DESIGN CHOICE, log 20). -/
def execUnknownCommandCode (code : Byte) (s : State) : Host.Outcome State Fault Refusal :=
  run s fun p =>
    if listedCommandCodes.contains code.toNat then p else p.takeCommand fun _ => .error .badField

end Sys2Proof.Machine
end

