-- ==== Sys2Proof/Machine/RegisterCommands.lean ====
section
/-! DEFINITION. The meanings of the host's accesses: the register window (R163, R169), the staging memory window
(R154) and the status block writer (R170). -/

namespace Sys2Proof.Machine

/-! ## The register window (R161, R163) -/

/-- What a read of the register window at an offset returns; an unnamed offset reads as 0 (R161, R163), and an offset
inside a register counts as unnamed (DESIGN CHOICE, log 36). The table has no row for a register read: it changes
nothing. -/
def Part.registerRead (p : Part) (offset : Nat) : Nat :=
  match offset with
  | 0x000 => p.hlk.commandBase.toNat
  | 0x008 => p.hlk.commandSize.toNat
  | 0x010 => p.hlk.reportBase.toNat
  | 0x018 => p.hlk.reportSize.toNat
  | 0x020 => p.hlk.statusAddress.toNat
  | 0x028 => p.hlk.postIndex.toNat
  | 0x02C => p.hlk.reportConsume.toNat
  | 0x030 => p.hlk.reportProduce.toNat
  | 0x034 => p.hlk.causeFlags.toNat
  | _ => 0

/-- A write of the command post index (R163, item 2). -/
def Part.writePostIndex (p : Part) (value : BitVec 32) : Part :=
  if ringSizeValid p.hlk.commandSize && decide (value.toNat < p.hlk.commandSize.toNat) then
    { p with hlk := { p.hlk with postIndex := value } }
  else p

/-- COMMAND_POST_INDEX_WRITE (R163). -/
def execCommandPostIndexWrite (value : BitVec 32) (s : State) : Host.Outcome State Fault Refusal :=
  run s fun p => p.writePostIndex value

/-- A write of the report consume index; an accepted one may free ring places, and the internal report queue then moves
into them (R163 item 3, R169). -/
def Part.writeReportConsume (p : Part) (value : BitVec 32) : Part :=
  if value.toNat < p.hlk.reportSize.toNat then
    { p with hlk := { p.hlk with reportConsume := value } }.drainReports
  else p

/-- REPORT_CONSUME_INDEX_WRITE (R163, R169). -/
def execReportConsumeIndexWrite (value : BitVec 32) (s : State) : Host.Outcome State Fault Refusal :=
  run s fun p => p.writeReportConsume value

/-- A ring register written; a changed command ring size restarts the command consume position, a changed report ring
size the report produce index (R163, R169). A status block address written after the block has been rewritten does not mark
it: it is written at the new address when a value that it shows next changes. R170 says that the block is written whenever
its address is valid, and no rule names the write of the address as a cause of a rewrite (DESIGN CHOICE, log 54). -/
def Part.setRingRegister (p : Part) (register : RingRegister) (value : BitVec 64) : Part :=
  let h := p.hlk
  let size : BitVec 32 := value.truncate 32
  match register with
  | .commandBase => { p with hlk := { h with commandBase := value } }
  | .commandSize =>
    { p with
      hlk := { h with
        commandSize := size
        commandConsume := if size = h.commandSize then h.commandConsume else 0 } }
  | .reportBase => { p with hlk := { h with reportBase := value } }.drainReports
  | .reportSize =>
    { p with
      hlk := { h with
        reportSize := size
        reportProduce := if size = h.reportSize then h.reportProduce else 0 } }.drainReports
  | .statusAddress => { p with hlk := { h with statusAddress := value } }

/-- RING_REGISTER_WRITE: accepted in SETUP, ignored in any other state (R163, item 1). -/
def execRingRegisterWrite (register : RingRegister) (value : BitVec 64) (s : State) :
    Host.Outcome State Fault Refusal :=
  run s fun p => if p.hlk.phase = .setup then p.setRingRegister register value else p

/-- REGISTER_WRITE: a write to a read-only or unnamed offset is ignored and sets no flag (R163, DESIGN CHOICE, log 20); so
is one at an offset inside a register (DESIGN CHOICE, log 36). -/
def execRegisterWrite (_offset : BitVec 32) (_value : BitVec 64) (s : State) : Host.Outcome State Fault Refusal :=
  run s fun p => p

/-! ## The staging memory window (R154) -/

/-- Every byte of an access lies in one slot whose window right meets the test (R154). -/
def Part.inSlotWith (p : Part) (offset length : Nat) (right : WindowRight → Bool) : Bool :=
  p.smc.slots.any fun r =>
    right r.2.right && decide (slotOffset r.1 ≤ offset ∧ offset + length ≤ slotOffset r.1 + Config.mebibyte)

/-- The right is READ. -/
def WindowRight.mayRead : WindowRight → Bool
  | .read _ => true
  | _ => false

/-- The right is WRITE. -/
def WindowRight.mayWrite : WindowRight → Bool
  | .write _ => true
  | _ => false

/-- The gate accepts a read (R154). -/
def Part.readAccepted (p : Part) (offset length : Nat) : Bool :=
  p.hlk.phase != .initializing
    && (decide (offset + length ≤ holdingsBlocks * Config.mebibyte)
      || p.inSlotWith offset length WindowRight.mayRead)

/-- The gate accepts a write (R154). -/
def Part.writeAccepted (p : Part) (offset length : Nat) : Bool :=
  p.hlk.phase != .initializing && p.inSlotWith offset length WindowRight.mayWrite

/-- The bytes that a window read returns left where the model keeps them. -/
def Part.returnBytes (p : Part) (bytes : List Byte) : Part := { p with hlk := { p.hlk with windowData := bytes } }

/-- A host read through the window: the DRAM contents, or 00h in every byte and the ACCESS flag set (R154). -/
def Part.readWindow (p : Part) (offset length : Nat) : Part :=
  if p.readAccepted offset length then p.returnBytes (p.smc.dram.bytes offset length)
  else (p.returnBytes (List.replicate length 0)).setFlag .access

/-- WINDOW_READ (R154). -/
def execWindowRead (offset length : Nat) (s : State) : Host.Outcome State Fault Refusal :=
  run s fun p => p.readWindow offset length

/-- A host write through the window: made into the DRAM, or discarded whole and the ACCESS flag set (R154). -/
def Part.writeWindow (p : Part) (offset : Nat) (data : List Byte) : Part :=
  if p.writeAccepted offset data.length then p.setDram (p.smc.dram.write offset data) else p.setFlag .access

/-- WINDOW_WRITE (R154). -/
def execWindowWrite (offset : Nat) (data : List Byte) (s : State) : Host.Outcome State Fault Refusal :=
  run s fun p => p.writeWindow offset data

/-! ## The status block writer (R170) -/

/-- The status block written whole with the values of the moment, where its address is valid and it is marked
(R170). -/
def Part.rewriteStatus (p : Part) : Part :=
  if p.hlk.statusMarked && statusAddressValid p.hlk.statusAddress then
    let count := p.hlk.updateCount + 1
    let q := p.writeHost p.hlk.statusAddress (p.statusBytes count)
    { q with hlk := { q.hlk with updateCount := count, statusMarked := false } }
  else p

/-- STATUS_BLOCK_REWRITE (R170). -/
def execStatusBlockRewrite (s : State) : Host.Outcome State Fault Refusal := run s Part.rewriteStatus

end Sys2Proof.Machine
end

