-- ==== Sys2Proof/Machine/RosterCommands.lean ====
section
/-! DEFINITION. The meanings of the roster's steps: the liveness timer, the peer and rack transitions, BEACON and
RACKDOWN (chapter 3). -/

namespace Sys2Proof.Machine

/-- An expiry of the liveness timer: the next one is one beacon period on, a BEACON is posted and the liveness check
performed (R37, R39). The manual gives no order of the two: the BEACON is posted first, so that its contexts count is the
one before the check, and it stands before the RACKDOWN and the other frames of the check (DESIGN CHOICE, log 43). -/
def Part.livenessExpiry (p : Part) (lanesFirst : Bool) : Part :=
  match p.prs.livenessDue with
  | none => p
  | some due =>
    let q := p.reach due
    let q := { q with prs := { q.prs with livenessDue := some (due + q.beaconPeriod) } }
    q.postBeacon.livenessCheck lanesFirst

/-- LIVENESS_TIMER_EXPIRY: the whole check as one event (R39). -/
def execLivenessTimerExpiry (lanesFirst : Bool) (s : State) : Host.Outcome State Fault Refusal :=
  run s fun p => p.livenessExpiry lanesFirst

/-! ### The rows of single transitions

R39 and R40 make a transition in a liveness check and nowhere else. The rows that name one transition therefore stand for
the check that makes it: where the check that is due makes it, the row is that check; where it does not, or while the
timer is stopped, the row does nothing (DESIGN CHOICE, log 6). In the check of PEER_SILENT or SUSPECT_COUNT_EXPIRY, as in
LIVENESS_TIMER_EXPIRY with lanesFirst, the lanes of a station that becomes LOST report before PEER-LOST reaches the contexts
(log 7). -/

/-- The check that is due takes the station to SILENT (R40, case 1). -/
def Part.checkSilences (p : Part) (station : Nat) : Bool :=
  match p.peer? station with
  | some q => p.silentDue q.counted
  | none => false

/-- The check that is due takes the station to LOST (R40, cases 2 and 3). -/
def Part.checkLoses (p : Part) (station : Nat) : Bool :=
  match p.peer? station with
  | some q => p.lostDue q.counted
  | none => false

/-- The check that is due takes the rack from SUSPECT to UP (R46, case 2). -/
def Part.checkEndsSuspect (p : Part) (rack : Nat) : Bool :=
  p.rackState rack == .suspect && (p.livenessExpiry true).rackState rack == .up

/-- PEER_SILENT: the liveness check that takes the station to SILENT (R39, R40, DESIGN CHOICE, log 6). -/
def execPeerSilent (station : Nat) (s : State) : Host.Outcome State Fault Refusal :=
  run s fun p => if p.checkSilences station then p.livenessExpiry true else p

/-- PEER_LOST: the liveness check that takes the station to LOST (R39, R40, R43, R47, DESIGN CHOICE, log 6). -/
def execPeerLost (station : Nat) (lanesFirst : Bool) (s : State) : Host.Outcome State Fault Refusal :=
  run s fun p => if p.checkLoses station then p.livenessExpiry lanesFirst else p

/-- SUSPECT_COUNT_EXPIRY: the liveness check that takes the rack from SUSPECT to UP (R39, R46, DESIGN CHOICE, log 6). -/
def execSuspectCountExpiry (rack : Nat) (s : State) : Host.Outcome State Fault Refusal :=
  run s fun p => if p.checkEndsSuspect rack then p.livenessExpiry true else p

/-- BEACON (R38, R156). -/
def execBeacon (header : FrameHeader) (rack status contexts : Byte) (s : State) : Host.Outcome State Fault Refusal :=
  run s fun p => p.receive header (.beacon rack status contexts) fun q => q.takeBeacon header rack status contexts

/-- RACKDOWN (R45, R156). -/
def execRackdown (header : FrameHeader) (rack : Byte) (s : State) : Host.Outcome State Fault Refusal :=
  run s fun p => p.receive header (.rackdown rack) fun q => q.takeRackdown rack.toNat

end Sys2Proof.Machine
end

