-- ==== Sys2Proof/Machine/SegmentCommands.lean ====
section
/-! DEFINITION. The meanings of the segment port's own steps: a dropped frame, a transmission, and a held frame that
enters the control queue (chapter 11). -/

namespace Sys2Proof.Machine

/-- A received frame that fails a receive check dropped and counted; a frame that is not the part's, or that passes, is
not this row's (R155, R156, DESIGN CHOICE, log 20). -/
def Part.dropIfBad (p : Part) (f : WireFrame) : Part :=
  if p.onSegment && p.takesFrame f.destination f.etherType then
    match p.payloadCheck f with
    | some k => p.dropFrame k
    | none => p
  else p

/-- FRAME_DROP (R156, R157). -/
def execFrameDrop (frame : WireFrame) (s : State) : Host.Outcome State Fault Refusal :=
  run s fun p => p.dropIfBad frame

/-- The first OPEN of the lane's use has been transmitted (R120). -/
def Part.markOpenSent (p : Part) (n : Nat) : Part :=
  p.editLane n fun l => { l with use := l.use.map fun u => { u with openSent := true } }

/-- The producer of a control frame told of its transmission: the reply timeout of an OPEN or a PULL starts
(R108, R112, R158). -/
def Part.tellProducer (p : Part) : FrameBody → Part
  | .fetchOpen _ _ tag =>
    if p.laneTag (laneOfTag tag) = tag then (p.markOpenSent (laneOfTag tag)).startOpenTimeout (laneOfTag tag) else p
  | .pull tag chunk =>
    if p.laneTag (laneOfTag tag) = tag then p.startPullTimeout (laneOfTag tag) chunk.toNat else p
  | _ => p

/-- The bytes of a CHUNK, read from its slot (R127). -/
def Part.chunkData (p : Part) (f : ChunkFrame) : List Byte :=
  p.smc.dram.bytes (slotOffset f.slot + f.chunk * chunkSize) f.length

/-- A CHUNK transmitted: its bytes read from the slot, and the queued chunks lowered, which may free a releasing slot
(R127, R152, R158). -/
def Part.transmitChunk (p : Part) (f : ChunkFrame) : Part :=
  let q := p.transmit (some f.target) f.epoch (.chunk f.tag (BitVec.ofNat 8 f.chunk) (p.chunkData f))
  (q.editSlot f.slot fun r => { r with queuedChunks := r.queuedChunks - 1 }).settleSlot f.slot

/-- The head frame transmitted, control first (R158). -/
def Part.transmitHead (p : Part) : Part :=
  match p.sgp.control, p.sgp.data with
  | f :: rest, _ =>
    ({ p with sgp := { p.sgp with control := rest } }.transmit f.target f.epoch f.body).tellProducer f.body
  | [], f :: rest => { p with sgp := { p.sgp with data := rest } }.transmitChunk f
  | [], [] => p

/-- FRAME_TRANSMIT: only while RUNNING or HALTED (R155, R158). -/
def execFrameTransmit (s : State) : Host.Outcome State Fault Refusal :=
  run s fun p => if p.onSegment then p.transmitHead else p

/-- HELD_FRAME_QUEUED (R159). -/
def execHeldFrameQueued (s : State) : Host.Outcome State Fault Refusal := run s Part.queueHeld

end Sys2Proof.Machine
end

