-- ==== Sys2Proof/Machine/ServeCommands.lean ====
section
/-! DEFINITION. The meanings of the serve unit's steps: OPEN, PULL and RELEASE arrivals, a STAGE request, the attachment
of waiting internal openers, an opener's idle expiry and the held CHUNK (chapter 8). -/

namespace Sys2Proof.Machine

/-! ## OPEN (R123) -/

/-- A REFUSE in answer to a frame. -/
def Part.replyRefuse (p : Part) (station : Nat) (tag : Tag) (reason : RefuseReason) : Part :=
  p.reply station (.refuse tag reason.code)

/-- A WAIT in answer to an OPEN. -/
def Part.replyWait (p : Part) (station : Nat) (tag : Tag) (hint : Byte) (busy : Bool) : Part :=
  p.reply station (.wait tag hint (flagByteOf busy))

/-- A READY in answer to an OPEN: the length, and the digest at the own index of the record when present
(R5, R123 step 7). Where it is absent the digest field is 0 (DESIGN CHOICE, log 35). -/
def Part.replyReady (p : Part) (station : Nat) (tag : Tag) (r : HoldingRecord) : Part :=
  let digest := (r.digests[r.ownIndex]?).join
  p.reply station (.ready tag (flagByteOf digest.isSome) (BitVec.ofNat 32 r.length) (digest.getD 0))

/-- A remote opener under the epoch that the roster records, active now (R123, step 7). -/
def Part.remoteOpener (p : Part) (station : Nat) (tag : Tag) : Opener :=
  .remote station tag ((p.peer? station).bind Peer.epoch) p.now

/-- An opener's last activity written, for the pair of station and fetch tag. -/
def Opener.touched (station : Nat) (tag : Tag) (now : Nat) : Opener → Opener
  | .remote s t epoch last => if s = station ∧ t = tag then .remote s t epoch now else .remote s t epoch last
  | .internal o => .internal o

/-- The last activity of an entry's opener becomes the moment. -/
def Part.touchOpener (p : Part) (n station : Nat) (tag : Tag) : Part :=
  match p.serve? n with
  | none => p
  | some e => p.setServe n { e with openers := e.openers.map (Opener.touched station tag p.now) }

/-- An opener removed from every entry but those of a list (R123, step 3). -/
def Part.removePairElsewhere (p : Part) (kept : Option Nat) (station : Nat) (tag : Tag) : Part :=
  (p.svu.entries.numbers.filter fun n => kept != some n).foldl
    (fun q n => q.removeOpeners n (Opener.isPair station tag)) p

/-- The entry has the opener of the pair. -/
def ServeEntry.hasPair (e : ServeEntry) (station : Nat) (tag : Tag) : Bool :=
  e.openers.any (Opener.isPair station tag)

/-- An OPEN at the entry that holds its key (R123, steps 4 to 8). -/
def Part.openAtEntry (p : Part) (n : Nat) (e : ServeEntry) (r : HoldingRecord) (station : Nat) (tag : Tag) : Part :=
  match e.state with
  | .failed _ => (p.removeOpeners n (Opener.isPair station tag)).replyRefuse station tag .damaged
  | .staged =>
    if e.hasPair station tag then (p.touchOpener n station tag).replyReady station tag r
    else if openerPlaces ≤ e.openers.length then p.replyWait station tag 2 true
    else ((p.addOpener n (p.remoteOpener station tag)).touchServe n).replyReady station tag r
  | .staging =>
    if e.hasPair station tag then (p.touchOpener n station tag).replyWait station tag 1 false
    else if openerPlaces ≤ e.openers.length then p.replyWait station tag 2 true
    else (p.addOpener n (p.remoteOpener station tag)).replyWait station tag 1 false

/-- An OPEN whose key no entry holds: a new entry with the opener, or nothing kept (R123, step 9). -/
def Part.openNewEntry (p : Part) (t : StripeId) (position : Nat) (r : HoldingRecord) (station : Nat) (tag : Tag) :
    Part :=
  match p.newServe? t position r.length with
  | some (q, n) => (q.addOpener n (q.remoteOpener station tag)).replyWait station tag 1 false
  | none => p.replyWait station tag 5 true

/-- An OPEN taken by the serve unit, in the order of R123. -/
def Part.takeOpen (p : Part) (station : Nat) (t : StripeId) (position : Nat) (tag : Tag) : Part :=
  if p.hlk.phase = .halted then p.replyRefuse station tag .halted
  else
    match p.recordOf? t position with
    | none => p.replyRefuse station tag .notHeld
    | some (_, r) =>
      let q := p.removePairElsewhere ((p.serveOf? t position).map Prod.fst) station tag
      match q.serveOf? t position with
      | some (n, e) => q.openAtEntry n e r station tag
      | none => q.openNewEntry t position r station tag

/-- OPEN (R123, R156). -/
def execFetchOpen (header : FrameHeader) (stripe : StripeId) (position : Byte) (tag : Tag) (s : State) :
    Host.Outcome State Fault Refusal :=
  run s fun p => p.receive header (.fetchOpen stripe position tag) fun q =>
    q.takeOpen header.sender.toNat stripe position.toNat tag

/-! ## PULL and RELEASE (R127, R128) -/

/-- The entry that has the opener of a pair; at most one has it (R122). -/
def Part.entryOfPair? (p : Part) (station : Nat) (tag : Tag) : Option (Nat × ServeEntry) :=
  p.svu.entries.findRow? fun e => e.hasPair station tag

/-- The CHUNK that answers a PULL in STAGED (R127, case 5). -/
def Part.chunkFor (p : Part) (e : ServeEntry) (station : Nat) (tag : Tag) (chunk : Nat) : ChunkFrame where
  target := station
  epoch := p.prs.ownEpoch
  tag := tag
  chunk := chunk
  slot := e.slot
  length := chunkLength e.length chunk

/-- A CHUNK put in the data queue, or in the hold place while that queue is full (R127). -/
def Part.placeChunk (p : Part) (f : ChunkFrame) : Part :=
  if p.sgp.data.length < dataPlaces then { p with sgp := { p.sgp with data := p.sgp.data ++ [f] } }
  else { p with svu := { p.svu with holdPlace := some f } }

/-- A PULL answered with its CHUNK, the activity and the queued chunks written; discarded without any change while the
hold place is taken (R127, DEDUCED, log 10). -/
def Part.answerPull (p : Part) (n : Nat) (e : ServeEntry) (station : Nat) (tag : Tag) (chunk : Nat) : Part :=
  if p.svu.holdPlace.isSome then p
  else
    let q := (p.touchOpener n station tag).touchServe n
    (q.editSlot e.slot fun r => { r with queuedChunks := r.queuedChunks + 1 }).placeChunk
      (p.chunkFor e station tag chunk)

/-- The REFUSE reason of a FAILED entry (R127, case 3). -/
def ServeFailure.refusal : ServeFailure → RefuseReason
  | .hostFailed => .damaged
  | .dropped => .notHeld

/-- A PULL taken by the serve unit (R127). -/
def Part.takePull (p : Part) (station : Nat) (tag : Tag) (chunk : Nat) : Part :=
  if p.hlk.phase = .halted then p.replyRefuse station tag .halted
  else
    match p.entryOfPair? station tag with
    | none => p.replyRefuse station tag .notOpen
    | some (n, e) =>
      match e.state with
      | .staging => p
      | .failed cause => (p.removeOpeners n (Opener.isPair station tag)).replyRefuse station tag cause.refusal
      | .staged =>
        if chunkCountOf e.length ≤ chunk then p.replyRefuse station tag .badChunk
        else p.answerPull n e station tag chunk

/-- PULL (R127, R156). -/
def execPull (header : FrameHeader) (tag : Tag) (chunk : Byte) (s : State) : Host.Outcome State Fault Refusal :=
  run s fun p => p.receive header (.pull tag chunk) fun q => q.takePull header.sender.toNat tag chunk.toNat

/-- RELEASE (R128, R156). -/
def execRelease (header : FrameHeader) (tag : Tag) (s : State) : Host.Outcome State Fault Refusal :=
  run s fun p => p.receive header (.release tag) fun q =>
    if q.hlk.phase = .halted then q else q.removeOpenersEverywhere (Opener.isPair header.sender.toNat tag)

/-! ## The serve unit's own steps -/

/-- The CHUNK in the hold place enters the data queue when that has a place (R127). -/
def Part.queueHeldChunk (p : Part) : Part :=
  match p.svu.holdPlace with
  | none => p
  | some f =>
    if p.sgp.data.length < dataPlaces then
      { p with svu := { p.svu with holdPlace := none }, sgp := { p.sgp with data := p.sgp.data ++ [f] } }
    else p

/-- SERVE_HOLD_CHUNK_QUEUED (R127). -/
def execServeHoldChunkQueued (s : State) : Host.Outcome State Fault Refusal := run s Part.queueHeldChunk

/-- The lowest entry in STAGING whose STAGE request has not been posted (R124). -/
def Part.unrequested? (p : Part) : Option (Nat × ServeEntry) :=
  p.svu.entries.findRow? fun e => e.state == .staging && !e.requested

/-- STAGE_REQUEST: the lowest waiting entry posts its request, as the report path allows (R124, R168, R169). -/
def execStageRequest (s : State) : Host.Outcome State Fault Refusal :=
  run s fun p =>
    match p.unrequested? with
    | some (n, _) => p.postStageRequest n
    | none => p

/-- INTERNAL_OPENER_ATTACH: the waiting list served from its head (R132). It is served whenever the row is given, whether or
not an opener place, an entry or a slot has freed since the head had to wait: also where an entry has only become one that
can be evicted, STAGED with no opener or with its last queued CHUNK sent (DESIGN CHOICE, log 57). -/
def execInternalOpenerAttach (s : State) : Host.Outcome State Fault Refusal :=
  run s fun p => p.serveWaiting p.svu.waiting

/-- The last activity of an entry's remote opener (R129). -/
def ServeEntry.lastActivity? (e : ServeEntry) (station : Nat) (tag : Tag) : Option Nat :=
  e.openers.findSome? fun o =>
    match o with
    | .remote s t _ last => if s = station ∧ t = tag then some last else none
    | .internal _ => none

/-- A remote opener removed at its idle limit (R129). -/
def Part.expireOpener (p : Part) (n station : Nat) (tag : Tag) : Part :=
  match (p.serve? n).bind fun e => e.lastActivity? station tag with
  | none => p
  | some last => (p.reach (last + p.openerIdleLimit)).removeOpeners n (Opener.isPair station tag)

/-- OPENER_IDLE_EXPIRY (R129). -/
def execOpenerIdleExpiry (entry station : Nat) (tag : Tag) (s : State) : Host.Outcome State Fault Refusal :=
  run s fun p => p.expireOpener entry station tag

end Sys2Proof.Machine
end

