-- ==== Sys2Proof/Machine/Dispatch.lean ====
section
/-! DEFINITION. The dispatch: one arm for each command, in the order of the table. -/

namespace Sys2Proof.Machine

/-- The effect of a command on everything but the queue of commands. -/
def exec (i : Instr) (s : State) : Host.Outcome State Fault Refusal :=
  match i with
  | .powerOnReset strap => Sys2Proof.Machine.execPowerOnReset strap s
  | .functionReset strap => Sys2Proof.Machine.execFunctionReset strap s
  | .configure record => Sys2Proof.Machine.execConfigure record s
  | .start => Sys2Proof.Machine.execStart s
  | .halt => Sys2Proof.Machine.execHalt s
  | .load record => Sys2Proof.Machine.execLoad record s
  | .drop stripe ownIndex => Sys2Proof.Machine.execDrop stripe ownIndex s
  | .staged tag result => Sys2Proof.Machine.execStaged tag result s
  | .stored tag result => Sys2Proof.Machine.execStored tag result s
  | .scanRelease rack => Sys2Proof.Machine.execScanRelease rack s
  | .requeue stripe => Sys2Proof.Machine.execRequeue stripe s
  | .clearFlags mask => Sys2Proof.Machine.execClearFlags mask s
  | .unknownCommandCode code => Sys2Proof.Machine.execUnknownCommandCode code s
  | .commandPostIndexWrite value => Sys2Proof.Machine.execCommandPostIndexWrite value s
  | .reportConsumeIndexWrite value => Sys2Proof.Machine.execReportConsumeIndexWrite value s
  | .ringRegisterWrite register value => Sys2Proof.Machine.execRingRegisterWrite register value s
  | .registerWrite offset value => Sys2Proof.Machine.execRegisterWrite offset value s
  | .windowRead offset length => Sys2Proof.Machine.execWindowRead offset length s
  | .windowWrite offset data => Sys2Proof.Machine.execWindowWrite offset data s
  | .statusBlockRewrite => Sys2Proof.Machine.execStatusBlockRewrite s
  | .initDone => Sys2Proof.Machine.execInitDone s
  | .livenessTimerExpiry lanesFirst => Sys2Proof.Machine.execLivenessTimerExpiry lanesFirst s
  | .peerSilent station => Sys2Proof.Machine.execPeerSilent station s
  | .peerLost station lanesFirst => Sys2Proof.Machine.execPeerLost station lanesFirst s
  | .suspectCountExpiry rack => Sys2Proof.Machine.execSuspectCountExpiry rack s
  | .beacon header rack status contexts => Sys2Proof.Machine.execBeacon header rack status contexts s
  | .rackdown header rack => Sys2Proof.Machine.execRackdown header rack s
  | .claim header stripe rank flags lostMask => Sys2Proof.Machine.execClaim header stripe rank flags lostMask s
  | .withdraw header stripe reason winner rebuiltMask => Sys2Proof.Machine.execWithdraw header stripe reason winner rebuiltMask s
  | .fetchOpen header stripe position tag => Sys2Proof.Machine.execFetchOpen header stripe position tag s
  | .pull header tag chunk => Sys2Proof.Machine.execPull header tag chunk s
  | .release header tag => Sys2Proof.Machine.execRelease header tag s
  | .ready header tag digestPresent length digest => Sys2Proof.Machine.execReady header tag digestPresent length digest s
  | .wait header tag hint busy => Sys2Proof.Machine.execWait header tag hint busy s
  | .refuse header tag reason => Sys2Proof.Machine.execRefuse header tag reason s
  | .chunk header tag chunk data => Sys2Proof.Machine.execChunk header tag chunk data s
  | .frameDrop frame => Sys2Proof.Machine.execFrameDrop frame s
  | .frameTransmit => Sys2Proof.Machine.execFrameTransmit s
  | .heldFrameQueued => Sys2Proof.Machine.execHeldFrameQueued s
  | .serveHoldChunkQueued => Sys2Proof.Machine.execServeHoldChunkQueued s
  | .sweepTimerExpiry => Sys2Proof.Machine.execSweepTimerExpiry s
  | .passStart => Sys2Proof.Machine.execPassStart s
  | .scanVisit => Sys2Proof.Machine.execScanVisit s
  | .dequeue => Sys2Proof.Machine.execDequeue s
  | .holdOffExpiry entry => Sys2Proof.Machine.execHoldOffExpiry entry s
  | .repeatTimerExpiry entry => Sys2Proof.Machine.execRepeatTimerExpiry entry s
  | .yieldTimerExpiry entry => Sys2Proof.Machine.execYieldTimerExpiry entry s
  | .admission => Sys2Proof.Machine.execAdmission s
  | .waitingContextServed => Sys2Proof.Machine.execWaitingContextServed s
  | .fillStart => Sys2Proof.Machine.execFillStart s
  | .fillDone => Sys2Proof.Machine.execFillDone s
  | .planJobStart => Sys2Proof.Machine.execPlanJobStart s
  | .planDone => Sys2Proof.Machine.execPlanDone s
  | .planWaitDeadline context => Sys2Proof.Machine.execPlanWaitDeadline context s
  | .internalOpenerAttach => Sys2Proof.Machine.execInternalOpenerAttach s
  | .verifyJobStart => Sys2Proof.Machine.execVerifyJobStart s
  | .verifyDone => Sys2Proof.Machine.execVerifyDone s
  | .storeRequest context => Sys2Proof.Machine.execStoreRequest context s
  | .pendingOutcomeComplete context => Sys2Proof.Machine.execPendingOutcomeComplete context s
  | .openReplyTimeout lane => Sys2Proof.Machine.execOpenReplyTimeout lane s
  | .pullReplyTimeout lane bank => Sys2Proof.Machine.execPullReplyTimeout lane bank s
  | .waitTimerExpiry lane => Sys2Proof.Machine.execWaitTimerExpiry lane s
  | .combineStart => Sys2Proof.Machine.execCombineStart s
  | .combineDone => Sys2Proof.Machine.execCombineDone s
  | .stageRequest => Sys2Proof.Machine.execStageRequest s
  | .openerIdleExpiry entry station tag => Sys2Proof.Machine.execOpenerIdleExpiry entry station tag s

end Sys2Proof.Machine
end

