-- ==== Sys2Proof/Safety.lean ====
section
/-! DEFINITION. What counts as a safe run, and the laws of the device that a lawful part obeys. -/

namespace Sys2Proof.Machine

/-- A step is safe when the machine goes on: it neither faults nor refuses. -/
def SafeStep (s : State) : Prop := ∃ t, step s = .next t

/-- A run of n steps is safe when each of them is. -/
def SafeRun : Nat → State → Prop
  | 0, _ => True
  | n + 1, s => ∃ t, step s = .next t ∧ SafeRun n t

/-! ## Laws of the device -/

/-- The staging memory is in its canonical form. -/
def Part.memoryLaw (p : Part) : Prop := p.smc.dram.wf = true

/-- The transmit queues, the hold list, the internal report queue and the repair queue keep to their room: 63 control
places beside the BEACON's one, 32 data places, 1,024 held frames, none of them a BEACON, 64 reports, 1,024 stripes
(R37, R61, R158, R159, R169). -/
def Part.queueLaw (p : Part) : Prop :=
  (p.sgp.control.filter fun f => !f.body.isBeacon).length ≤ controlPlaces
    ∧ (p.sgp.control.filter fun f => f.body.isBeacon).length ≤ 1
    ∧ p.sgp.data.length ≤ dataPlaces
    ∧ p.sgp.hold.length ≤ holdPlaces ∧ (∀ f ∈ p.sgp.hold, f.body.isBeacon = false)
    ∧ p.hlk.reportQueue.length ≤ 64 ∧ p.rq.length ≤ repairPlaces

/-- The members of a rack record are stations whose peer records name the rack; the own station's record is SELF and
the own station is a member of its rack: what CONFIGURE writes, and nothing else changes (R34 to R36). -/
def Part.rosterShape (p : Part) : Prop :=
  (∀ r rack station, p.prs.racks.row? r = some rack → station ∈ rack.members →
      ∃ q, p.peer? station = some q ∧ q.rack = r)
    ∧ ∀ q, p.peer? p.own = some q → q.state = .self ∧ ∀ rack, p.prs.racks.row? q.rack = some rack → p.own ∈ rack.members

/-- A rack is DOWN only while every member of it is LOST, and the own rack is never DOWN (R43, R44). -/
def Part.rackLaw (p : Part) : Prop :=
  (∀ r rack station, p.prs.racks.row? r = some rack → rack.state = .down → station ∈ rack.members →
      p.peerState? station = some .lost)
    ∧ ∀ q, p.peer? p.own = some q → p.rackState q.rack ≠ .down

/-- The bounds of the values of a configuration in force (R165). That the ignored interrupt enable bits 5 to 7 are 0 in it
is the model's choice (log 55). -/
structure ConfigRecord.InForce (c : ConfigRecord) (pool : Nat) : Prop where
  etherType : 0x0600 ≤ c.etherType.toNat
  interruptEnables : c.interruptEnables &&& 0xE0#8 = 0
  beaconPeriod : 1 ≤ c.beaconPeriod.toNat ∧ c.beaconPeriod.toNat ≤ 100
  shortCount : 2 ≤ c.shortCount.toNat ∧ c.shortCount.toNat ≤ 8
  longCount : c.shortCount.toNat + 1 ≤ c.longCount.toNat ∧ c.longCount.toNat ≤ 64
  claimHoldOff : 2 ≤ c.claimHoldOff.toNat ∧ c.claimHoldOff.toNat ≤ 200
  claimRepeat : 20 ≤ c.claimRepeat.toNat ∧ c.claimRepeat.toNat ≤ 1000
  replyTimeout : 100 ≤ c.replyTimeout.toNat ∧ c.replyTimeout.toNat ≤ 10000
  tries : 1 ≤ c.tries.toNat ∧ c.tries.toNat ≤ 8
  openerIdleLimit : 100 ≤ c.openerIdleLimit.toNat ∧ c.openerIdleLimit.toNat ≤ 5000
  sweepInterval : 1 ≤ c.sweepInterval.toNat ∧ c.sweepInterval.toNat ≤ 60
  serveReserve : 16 ≤ c.serveReserve.toNat ∧ c.serveReserve.toNat ≤ pool - 128

/-- The conditions under which CONFIGURE does not refuse a record as such (R1, R165). -/
structure ConfigRecord.Lawful (c : ConfigRecord) : Prop where
  memberMap : ∀ b ∈ c.memberMap, b = 0xFF#8 ∨ b.toNat ≤ 15
  ownStation : c.ownStation.toNat ≤ 63 ∧ ∃ rack, c.rackOf? c.ownStation.toNat = some rack
  geometries : ∀ g ∈ c.geometries, g.1 = 0 ∨
    (2 ≤ g.1.toNat ∧ g.1.toNat ≤ 12 ∧ 1 ≤ g.2.toNat ∧ g.2.toNat ≤ 4 ∧ g.1.toNat + g.2.toNat ≤ 16)
  releaseHold : c.releaseHold = 0 ∨ c.releaseHold = 1

/-! ## How statements speak of a command's outcome -/

/-- The part but for the status block's mark, which every change of a shown value sets (R170): a part of the model's own
bookkeeping that the statements about single commands pass over. -/
def Part.unmarked (p : Part) : Part := { p with hlk := { p.hlk with statusMarked := false } }

/-- The command answers a next state in which the commands that wait are as before and the part meets a condition. -/
def Leads (i : Instr) (s : State) (after : Part → Prop) : Prop :=
  ∃ t, exec i s = .next t ∧ t.pending = s.pending ∧ after t.part

/-- The command answers a next state in which the commands that wait are as before and the part is the given one, but for
the status block's mark: the whole effect and the whole frame in one. -/
def Answers (i : Instr) (s : State) (q : Part) : Prop := Leads i s fun r => r.unmarked = q.unmarked

/-- The part with the command consume position moved on, as after every command taken from the ring (R164; under an
invalid ring size as log 41 says). -/
def Part.consumed (p : Part) : Part :=
  { p with hlk := { p.hlk with commandConsume := ringNext p.hlk.commandConsume p.hlk.commandSize } }

/-- The part after a command entry has been refused with a code: one COMMAND-REFUSED posted, the position moved on
(R164). -/
def Part.refusedWith (p : Part) (code : RefusalCode) : Part :=
  (p.postReport (.commandRefused code p.hlk.commandConsume)).consumed

/-- A control frame other than the BEACON posted now goes straight to the control queue: no frame is held, and a place is
free (R158, R159). -/
abbrev Part.queueOpen (p : Part) : Prop := p.sgp.hold = [] ∧ p.controlPlace = true

/-- The part with a control frame at the tail of the control queue, under the own epoch (R36, R158). -/
def Part.queued (p : Part) (target : Option Nat) (body : FrameBody) : Part :=
  { p with
    sgp := { p.sgp with
      control := p.sgp.control ++ [{ target := target, epoch := p.prs.ownEpoch, body := body }] } }

/-- The header of a frame of the part's traffic that passes the receive checks: its sender a PRESENT or SILENT peer under
the recorded epoch, its target this station (R155, R156). -/
abbrev Part.fromPeer (p : Part) (h : FrameHeader) : Prop :=
  p.onSegment = true ∧ p.takesFrame h.destination h.etherType = true ∧ h.sender.toNat ≠ p.own
    ∧ p.hearable h.sender.toNat = true ∧ (p.peer? h.sender.toNat).bind Peer.epoch = some h.epoch ∧ h.target = BitVec.ofNat 8 p.own

/-- The header of a broadcast of the part's traffic that passes the receive checks of every kind but BEACON
(R155, R156). -/
abbrev Part.broadcastFromPeer (p : Part) (h : FrameHeader) : Prop :=
  p.onSegment = true ∧ p.takesFrame h.destination h.etherType = true ∧ h.sender.toNat ≠ p.own
    ∧ p.hearable h.sender.toNat = true ∧ (p.peer? h.sender.toNat).bind Peer.epoch = some h.epoch ∧ h.target = 0xFF#8

/-- The record of a stripe's row of the table after a change of its stripe-level fields (R8). -/
def changeStripe (t : StripeId) (f : HoldingRecord → HoldingRecord) (r : Nat × HoldingRecord) : Nat × HoldingRecord :=
  if r.2.stripe = t then (r.1, f r.2) else r

/-- The table with the lost set and the standing of a stripe written into all its records (R8). -/
def withStanding (hdt : Table HoldingRecord) (t : StripeId) (lost : Positions) (standing : Standing) :
    Table HoldingRecord :=
  hdt.map (changeStripe t fun r => { r with lost := lost, standing := standing })

/-- The DRAM follows a change of the holdings table: the image of a record that is new or changed is written as of the
moment, the zero image into a position that was emptied, and every other byte of the DRAM stays (R10). -/
def Part.imagesFollow (before after : Part) : Prop :=
  (∀ offset, before.hdt.row? (offset / 256) = after.hdt.row? (offset / 256) →
      after.smc.dram.byte offset = before.smc.dram.byte offset)
    ∧ (∀ position r, after.hdt.row? position = some r → before.hdt.row? position ≠ some r →
      after.smc.dram.bytes (imageOffset position) 256 = r.image before.now)
    ∧ ∀ position, after.hdt.row? position = none → before.hdt.row? position ≠ none →
      after.smc.dram.bytes (imageOffset position) 256 = List.replicate 256 0

/-- The command answers a next state whose part is the given one but for the DRAM, which follows the holdings table, and
for the status block's mark: the whole effect and the whole frame of a command that writes records. -/
def AnswersWithImages (i : Instr) (s : State) (q : Part) : Prop :=
  Leads i s fun r => (r.setDram s.part.smc.dram).unmarked = q.unmarked ∧ s.part.imagesFollow r

/-- The commands that are accepted in RUNNING alone (R164). -/
def Instr.runningOnly : Instr → Prop
  | .halt => True
  | .load _ => True
  | .drop _ _ => True
  | .staged _ _ => True
  | .stored _ _ => True
  | .scanRelease _ => True
  | .requeue _ => True
  | _ => False

/-- The part a reset leaves: every block empty, every register 0 but the tag counter, and the strap read (R1, R18, R34,
R35, R51, R85, R107, R122, R133, R136, R144, R147, R151, R156, R158, R162). -/
structure Part.JustReset (strap : DramSize) (q : Part) : Prop where
  config : q.config = none
  phase : q.hlk.phase = .setup
  rings : q.hlk.commandBase = 0 ∧ q.hlk.commandSize = 0 ∧ q.hlk.reportBase = 0 ∧ q.hlk.reportSize = 0
    ∧ q.hlk.statusAddress = 0
  indices : q.hlk.postIndex = 0 ∧ q.hlk.reportConsume = 0 ∧ q.hlk.reportProduce = 0 ∧ q.hlk.commandConsume = 0
  flags : q.hlk.causeFlags = 0 ∧ q.hlk.updateCount = 0
  reports : q.hlk.reportQueue = []
  tags : q.hlk.tagCounter = 1 ∧ q.hlk.stageTags = [] ∧ q.hlk.storeTags = []
  peers : q.prs.peers = []
  racks : ∀ rack, rack < 16 → q.prs.racks.row? rack = some { members := [], state := .up, suspectCount := 0 }
  liveness : q.prs.livenessDue = none
  table : q.hdt = []
  scanner : q.scn = { pending := [], sweepRequest := false, pass := .idle, placeFreed := false, triggers := [],
                      triggerSweep := false, cursor := 0, met := [], sweepDue := none }
  queue : q.rq = [] ∧ q.rqWait = none
  claims : q.clt = { entries := [], owned := [] }
  contexts : q.ctx.contexts = [] ∧ ∀ c, c < 32 → q.generation c = 0
  plans : q.plu = { queue := [], job := none }
  lanes : ∀ n, n < 128 → q.ftu.row? n = some { holder := none, useCount := 0, outstanding := false, use := none }
  serves : q.svu = { entries := [], holdPlace := none, waiting := [], combineMarks := [] }
  combine : q.cbe = { queue := [], operation := none, warning := false }
  verify : q.vfu = { queue := [], job := none }
  slots : q.smc.strap = strap ∧ q.smc.slots = [] ∧ q.smc.fillQueue = [] ∧ q.smc.fill = none
  port : q.sgp.control = [] ∧ q.sgp.data = [] ∧ q.sgp.hold = [] ∧ q.sgp.drops = List.replicate 10 0

/-- The address of the entry at the produce index of the report ring: 64 bytes an entry (R169). -/
def Part.produceAddress (p : Part) : Nat :=
  (p.hlk.reportBase + BitVec.ofNat 64 (p.hlk.reportProduce.toNat * 64)).toNat

/-- The report with its place in the ring written, as R169 and R161 lay it out: its 64 bytes, with zero in the fields that
its kind is not said to carry (log 52), at the produce index of the report ring and no other byte of host memory, the index
advanced, and the REPORTS flag set, with an interrupt where that flag was clear and is enabled. -/
def Part.reportWritten (p q : Part) (r : Report) : Prop :=
  (∀ k, k < 64 → q.hlk.hostMemory.row? (p.produceAddress + k) = r.bytes[k]?)
    ∧ (∀ a, a < p.produceAddress ∨ p.produceAddress + 64 ≤ a → q.hlk.hostMemory.row? a = p.hlk.hostMemory.row? a)
    ∧ q = { p with
        hlk := { p.hlk with
          hostMemory := q.hlk.hostMemory
          reportProduce := BitVec.ofNat 32 ((p.hlk.reportProduce.toNat + 1) % p.hlk.reportSize.toNat)
          causeFlags := p.hlk.causeFlags ||| 0x01#8
          interrupts := if p.hlk.causeFlags.getLsbD 0 = false ∧ p.enabled .reports = true then p.hlk.interrupts + 1
            else p.hlk.interrupts } }

/-- Reports written to the ring one after another, each into a place that the ring has at its turn (R169). -/
def Part.reportsWritten : Part → List Report → Part → Prop
  | p, [], q => q = p
  | p, r :: rest, q => p.ringPlace = true ∧ ∃ s, p.reportWritten s r ∧ s.reportsWritten rest q

/-- What an accepted write that may free report places ends with: the first reports of the internal report queue stand in the
ring, in order, as many as it has places for, and the others stay queued; where the queue was full and has room again, the
producers that wait for this event are told, a BLOCKED pass and the head of the repair queue. The other producers look at
the report path when their row is given (R61, R63, R169). -/
def Part.reportsDrained (p q : Part) : Prop :=
  ∃ moved left s, p.hlk.reportQueue = moved ++ left ∧ p.reportsWritten (moved.map QueuedReport.report) s
    ∧ (left = [] ∨ s.ringPlace = false)
    ∧ q = { s with
        hlk := { s.hlk with reportQueue := left }
        rqWait := if 64 ≤ p.hlk.reportQueue.length ∧ left.length < 64 then none else p.rqWait
        scn := { p.scn with
          placeFreed :=
            if 64 ≤ p.hlk.reportQueue.length ∧ left.length < 64 then p.scn.pass == .blocked
            else p.scn.placeFreed } }

/-- The command answers with the reports of a base part drained: the part with the register written (R163, R169). -/
def Drains (i : Instr) (w : List Instr) (p base : Part) : Prop :=
  Leads i ⟨w, p⟩ fun q => base.reportsDrained { q with hlk := { q.hlk with statusMarked := p.hlk.statusMarked } }

/-- The part with a cause flag set, and an interrupt sent where the flag was clear and its enable is set (R171). -/
def Part.flagged (p : Part) (c : Cause) : Part :=
  { p with
    hlk := { p.hlk with
      causeFlags := p.hlk.causeFlags ||| (1#8 <<< c.bit)
      interrupts := if p.hlk.causeFlags.getLsbD c.bit = false ∧ p.enabled c = true then p.hlk.interrupts + 1
        else p.hlk.interrupts } }

/-- The part with a drop count raised by 1 (R156). -/
def Part.counted (p : Part) (k : DropKind) : Part :=
  { p with sgp := { p.sgp with drops := p.sgp.drops.modify k.index (· + 1) } }

/-- The control queue has room for a number of frames besides the BEACON, and no frame is held (R158, R159). -/
abbrev Part.roomFor (p : Part) (n : Nat) : Prop :=
  p.sgp.hold = [] ∧ (p.sgp.control.filter fun f => !f.body.isBeacon).length + n ≤ 63

/-- The part with control frames at the tail of the control queue, in order, under the own epoch (R36, R158). -/
def Part.queuedAll (p : Part) (frames : List (Option Nat × FrameBody)) : Part :=
  { p with
    sgp := { p.sgp with
      control := p.sgp.control
        ++ frames.map fun f => { target := f.1, epoch := p.prs.ownEpoch, body := f.2 } } }

/-- The BEACON of the moment: the own rack, status 01h in RUNNING and 02h otherwise, and the contexts in use, under the own
epoch, as a broadcast (R36, R37). -/
def Part.beaconNow (p : Part) : ControlFrame where
  target := none
  epoch := p.prs.ownEpoch
  body := .beacon (BitVec.ofNat 8 (((p.peer? p.own).map Peer.rack).getD 0))
    (if p.hlk.phase = .running then 0x01 else 0x02) (BitVec.ofNat 8 p.ctx.contexts.length)

/-- The part with a BEACON in the place kept for it: in the place of the one that waits, or at the tail (R37), ahead of what
is held (log 56). -/
def Part.withBeacon (p : Part) (b : ControlFrame) : Part :=
  { p with
    sgp := { p.sgp with
      control :=
        if ∃ f ∈ p.sgp.control, f.body.isBeacon = true then
          p.sgp.control.map fun f => if f.body.isBeacon then b else f
        else p.sgp.control ++ [b] } }

/-- Nothing in the part depends on a station: no claim entry is YIELDED to it, no context has a survivor there, no lane
has it as its server, and no serve entry has an opener of it (R47). -/
abbrev Part.independentOf (p : Part) (station : Nat) : Prop :=
  (∀ r ∈ p.clt.entries, r.2.yieldedTo station = false)
    ∧ (∀ r ∈ p.ctx.contexts, ∀ v ∈ r.2.survivors.getD [], v.holder ≠ station)
    ∧ (∀ r ∈ p.ftu, r.2.use.map LaneUse.server ≠ some station)
    ∧ ∀ r ∈ p.svu.entries, ∀ o ∈ r.2.openers, o.isRemoteOf station = false

/-- The part with every context of PLAN-WAIT back in PLANNING, its plan job at the tail of the FIFO, in ascending context
number (R26, R47, R91). -/
def Part.planningAgain (p : Part) : Part :=
  { p with
    ctx := { p.ctx with
      contexts := p.ctx.contexts.map fun r =>
        if r.2.pendingOutcome = none ∧ r.2.state = .planWait then (r.1, { r.2 with state := .planning }) else r }
    plu := { p.plu with
      queue := p.plu.queue
        ++ ((p.ctx.contexts.filter fun r => r.2.pendingOutcome = none ∧ r.2.state = .planWait).map Prod.fst) } }

/-- The part with a request tag outstanding no more, and the window right that it carried ended (R154, R168). -/
def Part.tagEnded (p : Part) (tag : Tag) : Part :=
  { p with
    hlk := { p.hlk with
      stageTags := p.hlk.stageTags.filter (· != tag)
      storeTags := p.hlk.storeTags.filter (· != tag) }
    smc := { p.smc with
      slots := p.smc.slots.map fun r =>
        if r.2.right = .write tag ∨ r.2.right = .read tag then (r.1, { r.2 with right := .none_ }) else r } }

/-- The value that the tag counter goes on to from a value: the first after it that is not outstanding, 65,535 being
followed by 1 (R168). -/
def nextTag (outstanding : List Tag) (tag next : Tag) : Prop :=
  ∃ steps, next = Nat.repeat tagAfter (steps + 1) tag ∧ next ∉ outstanding
    ∧ ∀ k, k < steps → Nat.repeat tagAfter (k + 1) tag ∈ outstanding

/-- A rack is DOWN and holds a station of a list (R12, R52). -/
def Part.downRackOf (p : Part) (stations : List Nat) (rack : Nat) : Prop :=
  ∃ station ∈ stations, ∃ q, p.peer? station = some q ∧ q.rack = rack ∧ p.rackState rack = .down

/-- The pending set with racks added: a rack keeps the held mark it has, and a rack that is new is not held (R52). -/
def pendingWith (before after : Table Bool) (added : Nat → Prop) : Prop :=
  ∀ rack, (added rack → after.row? rack = some ((before.row? rack).getD false))
    ∧ (¬ added rack → after.row? rack = before.row? rack)

/-- The fields of a LOAD fit its geometry: the length, the own index, member stations in the placement, and the own
station at the own index (R11, check 2). -/
structure LoadRecord.Fits (p : Part) (l : LoadRecord) (g : Geometry) : Prop where
  length : 4096 ≤ l.length.toNat ∧ l.length.toNat ≤ 1048576 ∧ l.length.toNat % 512 = 0
  ownIndex : l.ownIndex.toNat < g.width
  members : ∀ b ∈ l.placement.take g.width, ∃ q, p.peer? b.toNat = some q
  own : ∃ b, l.placement[l.ownIndex.toNat]? = some b ∧ b.toNat = p.own

/-- The lane that a frame of the fetch exchange names is in use by a survivor whose server sent it, under its tag
(R106). -/
abbrev Part.laneUsed (p : Part) (h : FrameHeader) (tag : Tag) (n : Nat) (u : LaneUse) : Prop :=
  laneOfTag tag = n ∧ n ≤ 127 ∧ p.laneUse? n = some u ∧ fetchTag n (p.lane n).useCount = tag ∧ u.server = h.sender.toNat

/-- No lane takes a frame of the fetch exchange: its tag names a lane that is IDLE, or in a use under another tag, or has
another server than the sender (R106). -/
abbrev Part.noLaneFor (p : Part) (h : FrameHeader) (tag : Tag) : Prop :=
  laneOfTag tag ≤ 127
    ∧ ∀ u, p.laneUse? (laneOfTag tag) = some u → fetchTag (laneOfTag tag) (p.lane (laneOfTag tag)).useCount = tag →
      u.server ≠ h.sender.toNat

/-- The part with a stripe taken out of the repair queue, the others keeping their order; where it was queued its place
frees, and a BLOCKED pass is told (R61, R62). -/
def Part.leftQueue (p : Part) (t : StripeId) : Part :=
  { p with
    rq := p.rq.filter (· != t)
    rqWait := if t ∈ p.rq ∧ p.rqWait = some t then none else p.rqWait
    scn := { p.scn with placeFreed := if t ∈ p.rq then p.scn.pass == .blocked else p.scn.placeFreed } }

/-- The part with the head taken from the repair queue; its place frees, and a BLOCKED pass is told (R61, R62). -/
def Part.headTaken (p : Part) (rest : List StripeId) : Part :=
  { p with rq := rest, rqWait := none, scn := { p.scn with placeFreed := p.scn.pass == .blocked } }

/-- The part with the cursor of the pass at the next position and the pass WALKING, or with the pass ended after the last
position (R56). -/
def Part.cursorMoved (p : Part) : Part :=
  { p with
    scn :=
      if p.scn.cursor + 1 < 131072 then
        { p.scn with cursor := p.scn.cursor + 1, pass := .walking, placeFreed := false }
      else
        { p.scn with
          pass := .idle, placeFreed := false, triggers := [], triggerSweep := false, cursor := 0, met := [] } }

/-- The part after a completed visit of a stripe: the stripe is met, and the cursor moves on (R56). -/
def Part.visited (p : Part) (t : StripeId) : Part :=
  Part.cursorMoved { p with scn := { p.scn with met := p.scn.met ++ [t] } }

/-- The part with its pass BLOCKED at the cursor, told of no free place yet (R61). -/
def Part.blocked (p : Part) : Part := { p with scn := { p.scn with pass := .blocked, placeFreed := false } }

/-- The missed count of a record other than the own after a check (R39). -/
def Peer.missedNext (q : Peer) : Nat := if q.heard = true then 0 else min 64 (q.missed + 1)

/-- The part after a liveness check, due at a moment, in which no station becomes LOST and no rack goes DOWN: the next
expiry a beacon period on, the BEACON, the counts, the stations that become SILENT, and the suspect counts
(R37, R39, R40, R46); the clock is at that moment, where it is not past it (log 2). -/
def Part.quietlyChecked (p : Part) (due : Nat) : Part :=
  Part.withBeacon
    { p with
      now := max p.now due
      prs := { p.prs with
        livenessDue := some (due + p.beaconPeriod)
        peers := p.prs.peers.map fun r =>
          (r.1,
            if r.2.state = .self then r.2
            else
              { r.2 with
                missed := r.2.missedNext
                heard := false
                state := if r.2.state = .present ∧ p.shortCount ≤ r.2.missedNext then .silent else r.2.state })
        racks := p.prs.racks.map fun r =>
          (r.1,
            if r.2.state = .suspect then
              { r.2 with
                suspectCount := r.2.suspectCount - 1
                state := if r.2.suspectCount - 1 = 0 then .up else .suspect }
            else r.2) } }
    p.beaconNow

/-- The long count in force for a station: L, or S + 1 while its rack is SUSPECT (R40). -/
def Part.longInForce (p : Part) (q : Peer) : Nat :=
  if p.rackState q.rack = .suspect then p.shortCount + 1 else p.longCount

/-- The liveness check of the moment takes the station to LOST: it is SILENT or ABSENT, and its new missed count is at
least the long count in force (R40). -/
def Part.dueLost (p : Part) (q : Peer) : Prop :=
  (q.state = .silent ∨ q.state = .absent) ∧ p.longInForce q ≤ q.missedNext

/-- Every rack but one named has, unless it is DOWN, no members or a member that is neither a given station nor LOST, and
so does not go DOWN when that station becomes LOST (R43). -/
def Part.othersStand (p : Part) (station rack : Nat) : Prop :=
  ∀ r ∈ p.prs.racks, r.1 ≠ rack → r.2.state ≠ .down →
    r.2.members = [] ∨ ∃ other ∈ r.2.members, other ≠ station ∧ p.peerState? other ≠ some .lost

/-- The DRAM bytes of a range hold a list of bytes, and every other byte is as before. -/
def Dram.wrote (before after : Dram) (offset : Nat) (bytes : List Byte) : Prop :=
  ∀ a, after.byte a = if offset ≤ a ∧ a < offset + bytes.length then (bytes[a - offset]?).getD 0 else before.byte a

/-! ## Lanes that fail, and contexts that re-plan -/

/-- A lane that fails posts a RELEASE, unless its server has no opener for it: after a REFUSE, at the loss of the server,
and at the limit of WAITs when the last of them was busy (R118). -/
def LaneFailure.tellsServer (cause : LaneFailure) (u : LaneUse) : Bool :=
  match cause with
  | .refused _ => false
  | .serverLost => false
  | .waitLimit => !u.waitBusy
  | .noReply => true
  | .length => true
  | .damaged => true
  | .reOpenLimit => true

/-- The part with a lane FAILED: its unsent requests withdrawn, its banks EMPTY, and its RELEASE at the tail of the control
queue where it posts one (R118, R159). -/
def Part.laneFailed (p : Part) (n : Nat) (u : LaneUse) (cause : LaneFailure) : Part :=
  let q := p.withdrawRequests n
  Part.setUse
    (if cause.tellsServer u then q.queued (some u.server) (.release (fetchTag n (p.lane n).useCount)) else q) n
    { u with state := .failed cause, bank0 := .empty, bank1 := .empty }

/-- The part with lanes IDLE: the unsent requests of each that was in use withdrawn, and the RELEASEs that are due at the
tail of the control queue, in the order of the list (R120, R159). -/
def Part.lanesReleased (p : Part) (lanes : List Nat) : Part :=
  { p with
    ftu := p.ftu.map fun r => if r.1 ∈ lanes then (r.1, { r.2 with use := none }) else r
    sgp := { p.sgp with
      control :=
        (p.sgp.control.filter fun f => lanes.all fun n => (p.laneUse? n).isNone || !f.body.isRequestOf n)
          ++ lanes.filterMap fun n =>
            match p.laneUse? n with
            | some u =>
              if u.releaseDue then
                some { target := some u.server, epoch := p.prs.ownEpoch,
                       body := .release (fetchTag n (p.lane n).useCount) }
              else none
            | none => none } }

/-- The part after the re-plan of a context whose enabled entries all have slots, one by one: the lanes of its reservation
released, its internal opener gone, the position given unusable from now on, the survivor list, the plan and the
contributions gone, a new generation, a zero fill for each enabled entry, and a new plan job (R94, R95); the RELEASEs stand
in the order of the reservation (log 8), the fill requests in that of the lost list (log 37). -/
def Part.rePlanned (p : Part) (c : Nat) (x : Context) (position : Option Nat) : Part :=
  let slots := (x.lostList.filter LostEntry.enabled).filterMap LostEntry.slot
  { p.lanesReleased x.reservation with
    ctx := {
      contexts := p.ctx.contexts.editRow c fun y =>
        { y with
          state := .planning
          rePlans := y.rePlans + 1
          unusable := match position with
            | some i => insertPosition i y.unusable
            | none => y.unusable
          survivors := none
          plan := none
          contributions := List.replicate y.chunkCount []
          chunksComplete := 0
          deadline := .absent
          lostList := y.lostList.map fun e =>
            if e.enabled = true ∧ e.slot ≠ none then { e with fill := .filling } else e }
      generations := p.ctx.generations.setRow c (p.generation c + 1) }
    plu := {
      queue := p.plu.queue.filter (· != c) ++ [c]
      job := p.plu.job.map fun j => if j.context = c then { j with void := true } else j }
    svu := { p.svu with
      entries := p.svu.entries.map fun r =>
        (r.1, { r.2 with openers := r.2.openers.filter fun o => !o.isInternalOf c })
      waiting := p.svu.waiting.filter fun i => i.context != c }
    smc := { p.smc with
      fillQueue := (p.smc.fillQueue.filter fun f => !slots.contains f.slot)
        ++ slots.map fun j => { context := c, generation := p.generation c + 1, slot := j } } }

/-- Part.rePlanned says what a re-plan of the context does: its enabled entries have slots of their own, no FAILED serve
entry holds its internal opener, and the control queue has room for the RELEASEs. -/
structure Part.PlainRePlan (p : Part) (c : Nat) (x : Context) : Prop where
  inUse : p.context? c = some x
  granted : ∀ e ∈ x.lostList, e.enabled = true → e.slot ≠ none
  slots : ((x.lostList.filter LostEntry.enabled).filterMap LostEntry.slot).Nodup
  lanes : x.reservation.Nodup
  openers : ∀ r ∈ p.svu.entries, (∃ o ∈ r.2.openers, o.isInternalOf c = true) →
    r.2.state = .staging ∨ r.2.state = .staged
  rising : p.ftu.rising = true ∧ p.svu.entries.rising = true
  room : p.roomFor (x.reservation.length + 1)

/-- A context gathers under a generation, and Part.rePlanned says what its re-plan does. -/
structure Part.CanRePlan (p : Part) (c : Nat) (generation : BitVec 8) (x : Context) : Prop
    extends Part.PlainRePlan p c x where
  live : x.pendingOutcome = none
  gathers : x.state = .gathering
  current : p.generation c = generation

/-- The command fails a lane with a cause, the clock being that of the base: where its context does not gather under its
generation the lane is FAILED and nothing more happens; where it does, the context re-plans, with the survivor's position
unusable unless its server was lost (R94, R118). -/
def FailsLane (i : Instr) (w : List Instr) (p base : Part) (n : Nat) (u : LaneUse) (cause : LaneFailure) : Prop :=
  (p.gatheringAt u.context u.generation = false → (cause.tellsServer u = true → p.queueOpen) →
      Answers i ⟨w, p⟩ (base.laneFailed n u cause))
    ∧ ∀ x, p.CanRePlan u.context u.generation x → x.rePlans < 8 →
      Answers i ⟨w, p⟩ ((base.laneFailed n u cause).rePlanned u.context x
        (if cause = .serverLost then none else some u.position))

/-- The command fails a lane that is in use: a REFUSE, or a third cause of re-open; a READY of another length or another
digest; the 256th WAIT; the last try of an OPEN or of a PULL; or the combine completion that ends the fragment with another
digest than the expected one, with the warning lowered (R108 to R111, R116 to R119). -/
def Part.laneFailsBy (p : Part) (i : Instr) (n : Nat) (u : LaneUse) : Prop :=
  (∃ h tag reason, p.fromPeer h ∧ p.laneUsed h tag n u ∧ u.active = true ∧ reason ≠ .notOpen
      ∧ i = .refuse h tag (RefuseReason.code reason))
    ∨ (∃ h tag, p.fromPeer h ∧ p.laneUsed h tag n u ∧ u.state = .streaming ∧ 2 ≤ u.reOpens ∧ i = .refuse h tag 0x04)
    ∨ (∃ h tag present length digest, p.fromPeer h ∧ p.laneUsed h tag n u ∧ u.opening = true
      ∧ (length.toNat ≠ u.length ∨ (present = 1 ∧ ∃ d, u.digest = some d ∧ d ≠ digest))
      ∧ i = .ready h tag present length digest)
    ∨ (∃ h tag hint busy, p.fromPeer h ∧ p.laneUsed h tag n u ∧ (∃ old, u.state = .opening old) ∧ 255 ≤ u.waitCount
      ∧ i = .wait h tag hint busy)
    ∨ (p.laneUse? n = some u ∧ (∃ due, u.state = .opening (some due)) ∧ p.tries ≤ u.openTries
      ∧ i = .openReplyTimeout n)
    ∨ (p.laneUse? n = some u ∧ u.state = .streaming ∧ ∃ bank c tries sent,
      u.bankNumbered? bank = some (.requested c tries (some sent)) ∧ p.tries ≤ tries ∧ i = .pullReplyTimeout n bank)
    ∨ (p.laneUse? n = some u ∧ u.state = .streaming ∧ p.cbe.warning = false ∧ i = .combineDone
      ∧ ∃ o d, p.cbe.operation = some o ∧ o.request.source = .lane n (fetchTag n (p.lane n).useCount)
        ∧ o.request.context = u.context ∧ o.request.generation = u.generation ∧ o.request.chunk = u.nextConsume
        ∧ chunkCountOf u.length = u.nextConsume + 1 ∧ u.digest = some d
        ∧ d ≠ (digestAdvance u.runningDigest o.operand) ^^^ 0xFFFFFFFF#32)

/-- A report posted, with its place in the report path: in the ring at the produce index where none waits before it and the
ring has a place, at the tail of the internal report queue otherwise (R169). -/
def Part.reported (p q : Part) (r : Report) : Prop :=
  (p.hlk.reportQueue = [] → p.ringPlace = true →
      ∀ k, k < 64 → q.hlk.hostMemory.row? (p.produceAddress + k) = r.bytes[k]?)
    ∧ (p.hlk.reportQueue ≠ [] ∨ p.ringPlace = false →
      q.hlk.reportQueue.getLast? = some { report := r, tagVoid := false })

/-- Outcome ABANDONED of a context: its lanes back in the free pool; and the claim entry and the context gone, the stripe
QUIET, WITHDRAW(ABANDONED) sent where there is room and REPAIR-ABANDONED posted, or, while the report path is full, the
outcome pending in the context, which holds nothing any more, neither lanes, slots, survivors nor plan (R29, R101 to
R103). -/
def Part.abandoned (p q : Part) (c : Nat) (x : Context) (cause : AbandonCause) : Prop :=
  (∀ d, d ≠ c → q.context? d = p.context? d) ∧ q.generation c = p.generation c
    ∧ (∀ lane ∈ x.reservation, (q.lane lane).holder = none ∧ q.laneUse? lane = none)
    ∧ (p.reportPathFull = false →
      q.context? c = none ∧ q.hdt = withStanding p.hdt x.stripe [] .quiet
        ∧ (∀ n claim, p.claimOf? x.stripe = some (n, claim) →
          q.clt = { entries := p.clt.entries.dropRow n, owned := p.clt.owned.filter (· != n) })
        ∧ p.reported q (.repairAbandoned cause x.stripe)
        ∧ (p.roomFor (x.reservation.length + 2) →
          ∃ f ∈ q.sgp.control, f.target = none ∧ f.body = .withdraw x.stripe 0x03 0xFF 0))
    ∧ (p.reportPathFull = true →
      q.hdt = p.hdt ∧ q.clt = p.clt
        ∧ ∃ y, q.context? c = some y ∧ y.pendingOutcome = some (.abandoned cause) ∧ y.reservation = []
          ∧ y.survivors = none ∧ y.plan = none ∧ ∀ e ∈ y.lostList, e.slot = none)

/-! ## Requests to the host, and openers that wait -/

/-- A report posted on a part ends with a part of which a condition holds: in the ring, where none waits before it and the
ring has a place, and at the tail of the internal report queue otherwise (R169). -/
def Part.postsReport (p : Part) (r : Report) (ends : Part → Prop) : Prop :=
  (p.hlk.reportQueue = [] → p.ringPlace = true → ∃ q, p.reportWritten q r ∧ ends q)
    ∧ (p.hlk.reportQueue ≠ [] ∨ p.ringPlace = false → ends
      { p with hlk := { p.hlk with reportQueue := p.hlk.reportQueue ++ [{ report := r, tagVoid := false }] } })

/-- A free entry and a slot for a new key: the lowest ones where both are free; else the slot of the entry evicted, which
is STAGED without openers and queued chunks and has the earliest last use, the lower number first, and the lowest entry
that is free after it (R124, R125, R150). The base is the part without the evicted entry. -/
def Part.entryPlace (p base : Part) (n slot : Nat) : Prop :=
  (base = p ∧ p.svu.entries.lowestFree? 256 = some n ∧ p.freeSlots.head? = some slot)
    ∨ ((p.svu.entries.lowestFree? 256 = none ∨ p.freeSlots = []) ∧ p.svu.entries.rising = true
      ∧ p.smc.slots.rising = true
      ∧ ∃ r ∈ p.evictables, slot = r.2.slot
        ∧ (∀ s ∈ p.evictables, r.2.lastUse < s.2.lastUse ∨ (r.2.lastUse = s.2.lastUse ∧ r.1 ≤ s.1))
        ∧ base = { p with svu := { p.svu with entries := p.svu.entries.dropRow r.1 } }
        ∧ base.svu.entries.lowestFree? 256 = some n)

/-- The part with a new serve entry and its slot's record (R124, R150). -/
def Part.entryMade (p : Part) (n : Nat) (e : ServeEntry) : Part :=
  { p with
    svu := { p.svu with entries := p.svu.entries.setRow n e }
    smc := { p.smc with
      slots := p.smc.slots.setRow e.slot
        { class_ := .serve, owner := some (.serveEntry n), queuedChunks := 0, right := .none_ } } }

/-- The part with an entry's STAGE request under the value of the tag counter, which goes on to the next: the tag
outstanding, in the entry, and with the right WRITE in its slot; the report itself apart (R124, R154, R168). -/
def Part.stageAsked (p : Part) (n : Nat) (e : ServeEntry) (next : Tag) : Part :=
  { p with
    hlk := { p.hlk with stageTags := p.hlk.stageTags ++ [p.hlk.tagCounter], tagCounter := next }
    svu := { p.svu with
      entries := p.svu.entries.setRow n { e with requested := true, tag := some p.hlk.tagCounter } }
    smc := { p.smc with
      slots := p.smc.slots.editRow e.slot fun r => { r with right := .write p.hlk.tagCounter } } }

/-- The head of the waiting list is served with a part, and the openers after it are then served as from that part: it is
the answer where none waits after it (R132; whenever the row is given, log 57). -/
def ServesHead (w : List Instr) (p q : Part) : Prop :=
  (q.svu.waiting = [] → Answers .internalOpenerAttach ⟨w, p⟩ q)
    ∧ ∀ r, Answers .internalOpenerAttach ⟨w, q⟩ r → Answers .internalOpenerAttach ⟨w, p⟩ r

/-- An internal opener that has posted nothing tries to attach to a part, and this ends with a part of which a condition
holds, or with the opener waiting. Without a record, or where the entry of its key has FAILED, it fails: a context that
gathers under its generation plans again with the local position unusable, or, at the ninth re-plan, is ABANDONED, and no
other is told. An entry of its key with 16 openers makes it wait; with fewer it attaches, and in STAGED it posts the combine
request of its first chunk, unless a request of its context is in the combine queue. Where no entry has the key it gets a
new one, with the STAGE request posted where the report path has a place, or waits where none is to be had
(R94, R95, R124, R132 to R134). -/
def Part.attachesTo (p : Part) (i : InternalOpener) (waits : Prop) (ends : Part → Prop) : Prop :=
  ((p.recordOf? i.stripe i.position = none
        ∨ ∃ n e cause, p.serveOf? i.stripe i.position = some (n, e) ∧ e.state = .failed cause) →
      (p.gatheringAt i.context i.generation = false → ends p)
        ∧ ((∀ j ∈ p.svu.waiting, j.context ≠ i.context) → ∀ x,
          (p.CanRePlan i.context i.generation x → x.rePlans < 8 →
              ends (p.rePlanned i.context x (some i.position)))
            ∧ (p.gatheringAt i.context i.generation = true → p.context? i.context = some x → 8 ≤ x.rePlans →
              p.hdt.rising = true →
              ∃ q, p.abandoned q i.context x .rePlanLimit ∧ q.svu.waiting = p.svu.waiting ∧ ends q)))
    ∧ (∀ n e record, p.recordOf? i.stripe i.position = some record →
      p.serveOf? i.stripe i.position = some (n, e) → p.serve? n = some e →
      (16 ≤ e.openers.length → e.state = .staged ∨ e.state = .staging → waits)
        ∧ (e.state = .staging → e.openers.length < 16 → ends
          { p with
            svu := { p.svu with
              entries := p.svu.entries.setRow n { e with openers := e.openers ++ [.internal i] } } })
        ∧ ∀ attached, e.state = .staged → e.openers.length < 16 → 0 < e.length →
          (∀ r ∈ p.svu.entries, ∀ o ∈ r.2.openers, o.isInternalOf i.context = false) →
          attached = { p with
            svu := { p.svu with
              entries := p.svu.entries.setRow n
                { e with openers := e.openers ++ [.internal i], lastUse := p.now } } } →
          (i.context ∈ p.svu.combineMarks → ends attached)
            ∧ (i.context ∉ p.svu.combineMarks → ends (Part.postCombine
              { attached with
                svu := { attached.svu with combineMarks := insertPosition i.context p.svu.combineMarks } }
              { context := i.context, generation := i.generation, survivor := 0, chunk := 0,
                source := .internal })))
    ∧ ∀ place record, p.recordOf? i.stripe i.position = some (place, record) →
      p.serveOf? i.stripe i.position = none →
      (p.svu.entries.lowestFree? 256 = none ∨ p.freeSlots = [] → p.evictables = [] → waits)
        ∧ ∀ (n slot : Nat) (base made : Part) (entry : ServeEntry), p.entryPlace base n slot →
          entry = { stripe := i.stripe, position := i.position, length := record.length, slot := slot,
                    state := .staging, requested := false, tag := none, openers := [.internal i],
                    lastUse := p.now } →
          made = base.entryMade n entry →
          (p.reportPathFull = true → ends made)
            ∧ ∀ next, p.reportPathFull = false →
              nextTag (p.hlk.stageTags ++ [p.hlk.tagCounter] ++ p.hlk.storeTags) p.hlk.tagCounter next →
              (made.stageAsked n entry next).postsReport
                (.stageRequest p.hlk.tagCounter i.stripe i.position record.length slot) ends

/-! ## Entry to GATHERING -/

/-- The use of a lane that a survivor of a context is given, with its index in the survivor list (R106, R108). -/
def Part.firstUse (p : Part) (c index : Nat) (x : Context) (v : Survivor) : LaneUse where
  context := c
  generation := p.generation c
  survivor := index
  stripe := x.stripe
  position := v.position
  server := v.holder
  state := .opening none
  openSent := false
  length := x.length
  digest := p.expectedDigest? x.stripe v.position
  openTries := 1
  nextConsume := 0
  nextRequest := 0
  bank0 := .empty
  bank1 := .empty
  runningDigest := 0xFFFFFFFF
  waitCount := 0
  waitBusy := false
  reOpens := 0

/-- The internal opener that a context makes for its local survivor (R132, R133). -/
def Part.freshOpener (p : Part) (c : Nat) (x : Context) (v : Survivor) : InternalOpener where
  context := c
  generation := p.generation c
  stripe := x.stripe
  position := v.position
  nextChunk := 0
  runningDigest := 0xFFFFFFFF
  ended := .open_

/-- The remote survivors of a context, each with its lane: the reserved lanes in ascending order (R92). -/
def Context.lanesOf (x : Context) (remotes : List Survivor) : List (Survivor × Nat) :=
  remotes.zip (ascending x.reservation)

/-- A context as it stands in GATHERING: its local survivor, if it has one, first and then the remote ones, each with its
lane; and the contribution record empty (R92). -/
def Context.entered (x : Context) (own : Option Survivor) (remotes : List (Survivor × Nat)) : Context :=
  { x with
    state := .gathering
    survivors := some (own.toList ++ remotes.map fun g => { g.1 with source := .lane g.2 })
    contributions := List.replicate x.chunkCount []
    chunksComplete := 0 }

/-- The part with a context in GATHERING and each remote survivor's lane in its first use, under the next use count, with its
OPEN at the tail of the control queue in ascending lane number; what its local survivor does is not in it (R92, R108). -/
def Part.gatheringEntered (p : Part) (c : Nat) (x : Context) (own : Option Survivor) (remotes : List Survivor) : Part :=
  { p.queuedAll ((x.lanesOf remotes).map fun g =>
      (some g.1.holder,
        .fetchOpen x.stripe (BitVec.ofNat 8 g.1.position) (fetchTag g.2 ((p.lane g.2).useCount + 1)))) with
    ctx := { p.ctx with contexts := p.ctx.contexts.editRow c fun y => y.entered own (x.lanesOf remotes) }
    ftu := p.ftu.map fun r =>
      match ((x.lanesOf remotes).zipIdx).find? fun g => g.1.2 == r.1 with
      | some ((v, _), i) =>
        (r.1, { r.2 with
          useCount := r.2.useCount + 1
          use := some (p.firstUse c (own.toList.length + i) x v) })
      | none => r }

/-- A part in which a context gathers, each remote survivor with its lane and its OPEN sent, and the local one with its
internal opener attached or waiting (R92, R108, R132). -/
def Part.gathersIn (p q : Part) (c : Nat) (x : Context) (own : Option Survivor) (remotes : List Survivor) : Prop :=
  q.context? c = some (x.entered own (x.lanesOf remotes))
    ∧ (∀ v n i, (x.lanesOf remotes)[i]? = some (v, n) →
      q.laneUse? n = some (p.firstUse c (own.toList.length + i) x v)
        ∧ (q.lane n).useCount = (p.lane n).useCount + 1
        ∧ { target := some v.holder, epoch := p.prs.ownEpoch,
            body := .fetchOpen x.stripe (BitVec.ofNat 8 v.position) (fetchTag n ((p.lane n).useCount + 1)) }
          ∈ q.sgp.control)
    ∧ ∀ v, own = some v →
      p.freshOpener c x v ∈ q.svu.waiting ∨ ∃ r ∈ q.svu.entries, .internal (p.freshOpener c x v) ∈ r.2.openers

/-- The survivors of a context as its plan lists them: at most one local one, which is the first, and remote ones, none of
whose holders is LOST or ABSENT (R25, R108). -/
structure Part.ListsSurvivors (p : Part) (survivors : List Survivor) (own : Option Survivor) (remotes : List Survivor) :
    Prop where
  list : survivors = own.toList ++ remotes
  local_ : ∀ v, own = some v → v.source = .ownHoldings
  remote : ∀ v ∈ remotes, v.source ≠ .ownHoldings ∧ p.gone v.holder = false

/-- The context after PLAN-DONE with a plan, with the lanes it keeps and those it is given (R89, R90). -/
def Context.planWritten (y : Context) (j : PlanJob) (lanes : List Nat) : Context :=
  { y with
    survivors := some j.survivors
    plan := some (decodePlan j.geometry (j.survivors.map Survivor.position) j.lost)
    deadline := .absent
    reservation := lanes }

/-- The part after PLAN-DONE with a plan at a context: no job in progress, the plan in the context, the lanes beyond the first
of its reservation, as many as it needs, back in the free pool, and lanes of the pool given to it after those it keeps
(R30, R89, R90). -/
def Part.planTaken (p : Part) (j : PlanJob) (y : Context) (needed : Nat) (given : List Nat) : Part :=
  Part.editContext
    { p with
      plu := { p.plu with job := none }
      ftu := p.ftu.map fun r =>
        if r.1 ∈ (ascending y.reservation).drop needed then (r.1, { r.2 with holder := none })
        else if r.1 ∈ given then (r.1, { r.2 with holder := some j.context })
        else r }
    j.context fun z => z.planWritten j ((ascending y.reservation).take needed ++ given)

/-- The context with the entry of a slot READY (R88). -/
def Context.slotReady (x : Context) (slot : Nat) : Context :=
  { x with
    lostList := x.lostList.map fun e =>
      if e.enabled = true ∧ e.slot = some slot then { e with fill := .ready } else e }

/-- A command completes what a PLANNING context needs to gather: PLAN-DONE with a plan, where its lanes suffice, if need be
with lanes of the free pool; the FILL-DONE of the last slot that was not READY; or the service of the one context that
waits, for lanes alone. The base is the part as the entry to GATHERING finds it, x its context, with the survivors of its
plan (R88 to R90). -/
def Part.gathersBy (p : Part) (i : Instr) (base : Part) (c : Nat) (x : Context) (survivors : List Survivor)
    (remote : Nat) : Prop :=
  ∃ y, p.context? c = some y ∧ y.pendingOutcome = none ∧ y.state = .planning
    ∧ ((∃ j given, i = .planDone ∧ p.plu.job = some j ∧ j.void = false ∧ j.context = c ∧ survivors = j.survivors
        ∧ y.lacking = [] ∧ y.allReady = true ∧ given = p.poolLanes.take (remote - y.reservation.length)
        ∧ remote ≤ y.reservation.length + p.poolLanes.length
        ∧ x = y.planWritten j ((ascending y.reservation).take remote ++ given)
        ∧ base = p.planTaken j y remote given)
      ∨ (∃ f, i = .fillDone ∧ p.smc.fill = some f ∧ f.context = c ∧ p.generation c = f.generation
        ∧ (∃ r, p.slot? f.slot = some r ∧ r.owner ≠ none)
        ∧ (∃ e ∈ y.lostList, e.enabled = true ∧ e.slot = some f.slot)
        ∧ (∀ e ∈ y.lostList, e.enabled = true → e.slot = some f.slot ∨ e.fill = .ready)
        ∧ y.plan ≠ none ∧ y.survivors = some survivors ∧ remote ≤ y.reservation.length
        ∧ x = y.slotReady f.slot
        ∧ base = Part.editContext
          { p with smc := { p.smc with fill := none, dram := p.smc.dram.zeroBlock (32 + f.slot) } } c
          fun z => z.slotReady f.slot)
      ∨ ∃ given, i = .waitingContextServed ∧ y.plan ≠ none ∧ y.survivors = some survivors ∧ y.lacking = []
        ∧ y.allReady = true ∧ 0 < y.lanesLacking ∧ y.lanesLacking ≤ p.poolLanes.length
        ∧ (∀ r ∈ p.ctx.contexts, r.1 ≠ c → r.2.waits = false)
        ∧ given = p.poolLanes.take y.lanesLacking ∧ x = { y with reservation := y.reservation ++ given }
        ∧ base = Part.editContext
          { p with ftu := p.ftu.map fun r => if r.1 ∈ given then (r.1, { r.2 with holder := some c }) else r }
          c fun z => { z with reservation := z.reservation ++ given })

/-! ## The end of a combine operation -/

/-- The DRAM after an operation: each byte of the chunk in each target slot is its sum with the coefficient times the
operand byte, and no other byte changes (R31, R138). -/
def Dram.combined (before after : Dram) (o : CombineOperation) : Prop :=
  (∀ t ∈ o.targets, ∀ i b, o.operand[i]? = some b →
      after.byte ((32 + t.1) * 1048576 + o.request.chunk * 8192 + i)
        = before.byte ((32 + t.1) * 1048576 + o.request.chunk * 8192 + i) ^^^ fieldMul t.2 b)
    ∧ ∀ a, (∀ t ∈ o.targets, ¬ ((32 + t.1) * 1048576 + o.request.chunk * 8192 ≤ a
        ∧ a < (32 + t.1) * 1048576 + o.request.chunk * 8192 + o.operand.length)) →
      after.byte a = before.byte a

/-- The DRAM follows the end of an operation whose completion changes records too: the chunks are combined, and the images of
the changed records are then written over the holdings region. In a table of at most 131,072 positions these images lie
below 32 MiB, so that from there on the DRAM is the combined one (R10, R31, R138, R147). -/
def Part.combinedWithImages (p q : Part) (o : CombineOperation) : Prop :=
  ∃ d, p.smc.dram.combined d o ∧ (p.setDram d).imagesFollow q

/-- COMBINE_DONE answers the operation with a part, but for the DRAM, which it has combined, and the status block's mark. -/
def EndsCombine (w : List Instr) (p : Part) (o : CombineOperation) (q : Part) : Prop :=
  Leads .combineDone ⟨w, p⟩ fun r =>
    p.smc.dram.combined r.smc.dram o ∧ (r.setDram p.smc.dram).unmarked = q.unmarked

/-- The part without its operation in progress; the completion that brings the depth to 32 lowers the warning
(R139, R143). -/
def Part.operationEnded (p : Part) : Part :=
  { p with
    cbe := { p.cbe with
      operation := none
      warning := if p.cbe.queue.length = 32 then false else p.cbe.warning } }

/-- The part after an operation whose context is still current: the contribution in the chunk's set, and the chunk counted
complete where the set comes to k members (R139, R140). -/
def Part.contributionMade (p : Part) (o : CombineOperation) (k : Nat) : Part :=
  p.operationEnded.editContext o.request.context fun y =>
    { y with
      contributions := y.contributions.set o.request.chunk
        (insertPosition o.request.survivor ((y.contributions[o.request.chunk]?).getD []))
      chunksComplete :=
        if ((y.contributions[o.request.chunk]?).getD []).length ≠ k
          ∧ (insertPosition o.request.survivor ((y.contributions[o.request.chunk]?).getD [])).length = k
        then y.chunksComplete + 1 else y.chunksComplete }

/-- The lane after its next chunk has been combined: the bank EMPTY, the next chunk on, the digest advanced over the
operand (R115, R139). -/
def LaneUse.consumed (u : LaneUse) (operand : List Byte) : LaneUse :=
  { u.setBank u.nextConsume .empty with
    nextConsume := u.nextConsume + 1
    runningDigest := digestAdvance u.runningDigest operand }

/-- The part in which a lane has posted the combine request of its next chunk, where the bank of that chunk is FULL for
it (R114). -/
def Part.nextAsked (p : Part) (n : Nat) (u : LaneUse) : Part :=
  if (u.bankOf u.nextConsume).fullFor u.nextConsume = true then
    (p.editLane n fun l => { l with outstanding := true }).postCombine
      { context := u.context, generation := u.generation, survivor := u.survivor, chunk := u.nextConsume,
        source := .lane n (fetchTag n (p.lane n).useCount) }
  else p

/-- The window of a STREAMING lane allows a PULL of the next chunk to request: it is below next to consume + 2 and below
the chunk count, its bank is EMPTY, and fewer banks are REQUESTED than the width (R112). -/
abbrev LaneUse.windowOpen (u : LaneUse) (width : Nat) : Prop :=
  u.nextRequest < u.nextConsume + 2 ∧ u.nextRequest < chunkCountOf u.length ∧ u.bankOf u.nextRequest = .empty
    ∧ (if u.bank0.isRequested = true then 1 else 0) + (if u.bank1.isRequested = true then 1 else 0) < width

/-- The lane after a PULL: the bank REQUESTED as a first try with the sent time unset, and next to request past it, and
past the chunk after it where a bank holds that already (R106, R112). -/
def LaneUse.pulled (u : LaneUse) : LaneUse :=
  { u.setBank u.nextRequest (.requested u.nextRequest 1 none) with
    nextRequest := if (u.bankOf (u.nextRequest + 1)).fullFor (u.nextRequest + 1) = true then u.nextRequest + 2
      else u.nextRequest + 1 }

/-- The part with a PULL of a lane's next chunk to request at the tail of the control queue (R112, R158). -/
def Part.pullSent (p : Part) (n : Nat) (u : LaneUse) : Part :=
  Part.queued (p.setUse n u.pulled) (some u.server)
    (.pull (fetchTag n (p.lane n).useCount) (BitVec.ofNat 8 u.nextRequest))

/-- A test of a lane's window ends with a part of which a condition holds: no PULL, one, or two, the lower chunk first,
as the window allows, with room for them in the control queue (R112). -/
def Part.windowTested (p : Part) (n : Nat) (u : LaneUse) (width : Nat) (ends : Part → Prop) : Prop :=
  (¬ u.windowOpen width → ends p)
    ∧ (u.windowOpen width → ¬ u.pulled.windowOpen width → p.roomFor 1 → ends (p.pullSent n u))
    ∧ (u.windowOpen width → u.pulled.windowOpen width → p.roomFor 2 → ends ((p.pullSent n u).pullSent n u.pulled))

/-- The three conditions of entry to VERIFYING: every chunk complete, every reserved lane COMPLETE, and the internal
opener, where the context has a local survivor, fed under the current generation (R93). -/
def Part.gathered (p : Part) (c : Nat) : Prop :=
  ∃ x, p.context? c = some x ∧ x.chunksComplete = x.chunkCount
    ∧ (∀ lane ∈ x.reservation, ∃ u, p.laneUse? lane = some u ∧ u.state = .complete)
    ∧ ((∃ v ∈ x.survivors.getD [], v.source = .ownHoldings) →
      ∃ n e i, p.attachedOpener? c = some (n, e, i) ∧ i.generation = p.generation c ∧ i.ended = .fed)

/-- The part after a context's entry to VERIFYING: its internal opener gone, its lanes IDLE and in the free pool, its
reservation empty, and its verify job at the tail of the queue (R93). -/
def Part.verifying (p : Part) (c : Nat) (x : Context) : Part :=
  { p.lanesReleased x.reservation with
    ftu := p.ftu.map fun r => if r.1 ∈ x.reservation then (r.1, { r.2 with holder := none, use := none }) else r
    ctx := { p.ctx with
      contexts := p.ctx.contexts.editRow c fun y => { y with state := .verifying, reservation := [] } }
    svu := { p.svu with
      entries := p.svu.entries.map fun r =>
        (r.1, { r.2 with openers := r.2.openers.filter fun o => !o.isInternalOf c })
      waiting := p.svu.waiting.filter fun i => i.context != c }
    vfu := { p.vfu with queue := p.vfu.queue ++ [{ context := c, generation := p.generation c }] } }

/-- A report of a context's last lane or of its internal opener ends with a part of which a condition holds: the part as it
is, or, where all three conditions of R93 hold, the part with the context in VERIFYING, here with its internal opener in
an entry that has not failed. -/
def Part.gatheredTested (p : Part) (c : Nat) (x : Context) (ends : Part → Prop) : Prop :=
  (¬ p.gathered c → ends p)
    ∧ (p.gathered c → p.svu.entries.rising = true →
      (∀ r ∈ p.svu.entries, (∃ o ∈ r.2.openers, o.isInternalOf c = true) → r.2.state = .staging ∨ r.2.state = .staged) →
      p.sgp.hold = [] → ends (p.verifying c x))

/-! ## A station that restarts -/

/-- A lane that re-opens: REQUESTED banks EMPTY, FULL ones kept, next to request at the first chunk that is not FULL, and
OPENING as at a first try (R119). -/
def LaneUse.reOpened (u : LaneUse) : LaneUse :=
  { u with
    bank0 := if u.bank0.isRequested then .empty else u.bank0
    bank1 := if u.bank1.isRequested then .empty else u.bank1
    nextRequest := u.firstMissing
    state := .opening none
    openTries := 1
    reOpens := u.reOpens + 1 }

/-- The lane is in OPENING, OPEN-WAIT or STREAMING, and a station is its server. -/
def Lane.fetchesFrom (l : Lane) (station : Nat) : Bool :=
  match l.use with
  | some u => u.active && u.server == station
  | none => false

/-- The claim entries that are YIELDED to a station (R76). -/
def Part.yieldsTo (p : Part) (station : Nat) : Table ClaimEntry :=
  p.clt.entries.filter fun r => r.2.yieldedTo station

/-- The lanes that fetch from a station (R119). -/
def Part.lanesFrom (p : Part) (station : Nat) : Table Lane := p.ftu.filter fun r => r.2.fetchesFrom station

/-- The part after PEER-RESTART of a station, under its new epoch: a sweep requested; the entries YIELDED to it back in
CONTENDING with a fresh hold-off, each with its CLAIM; its lanes re-opened, each with its OPEN; and its openers of another
epoch gone (R47, R68, R76, R119, R130). -/
def Part.restarted (p : Part) (station : Nat) (epoch : Epoch) : Part :=
  { p with
    scn := { p.scn with sweepRequest := true }
    clt := { p.clt with
      entries := p.clt.entries.map fun r =>
        if r.2.yieldedTo station then (r.1, { r.2 with state := .contending (p.now + p.claimHoldOff) }) else r }
    ftu := p.ftu.map fun r =>
      if r.2.fetchesFrom station then (r.1, { r.2 with use := r.2.use.map LaneUse.reOpened }) else r
    svu := { p.svu with
      entries := p.svu.entries.map fun r =>
        (r.1, { r.2 with openers := r.2.openers.filter fun o => !o.isStaleRemoteOf station (some epoch) }) }
    sgp := { p.sgp with
      control :=
        (p.sgp.control.filter fun f => (p.lanesFrom station).all fun r => !f.body.isRequestOf r.1)
          ++ ((p.yieldsTo station).map fun r =>
            { target := none, epoch := p.prs.ownEpoch, body := .claim r.2.stripe r.2.rank 0x00 (maskOf r.2.lost) })
          ++ ((p.lanesFrom station).filterMap fun r =>
            r.2.use.map fun u =>
              { target := some station, epoch := p.prs.ownEpoch
                body := .fetchOpen u.stripe (BitVec.ofNat 8 u.position) (fetchTag r.1 r.2.useCount) }) } }

/-- Part.restarted says what PEER-RESTART of a station does: no lane of it has re-opened twice, no FAILED serve entry has an
opener of it, no CLAIM of a stripe that returns to CONTENDING waits, and the control queue has room. -/
structure Part.CanRestart (p : Part) (station : Nat) (epoch : Epoch) : Prop where
  lanes : ∀ r ∈ p.lanesFrom station, ∀ u, r.2.use = some u → u.reOpens < 2
  numbers : ∀ r ∈ p.ftu, r.1 ≤ 127
  openers : ∀ r ∈ p.svu.entries, (∃ o ∈ r.2.openers, o.isStaleRemoteOf station (some epoch) = true) →
    r.2.state = .staging ∨ r.2.state = .staged
  claims : ∀ r ∈ p.yieldsTo station, p.claimWaits r.2.stripe = false
  stripes : ((p.yieldsTo station).map fun r => r.2.stripe).Nodup
  rising : p.ftu.rising = true ∧ p.svu.entries.rising = true ∧ p.clt.entries.rising = true
  room : p.roomFor ((p.yieldsTo station).length + (p.lanesFrom station).length)

/-! ## Evaluation, delivery, waiting contexts -/

/-- The outside claim still stands against this station: fresh, and of another station that is neither LOST nor
ABSENT (R59). -/
def Part.rivalStands (p : Part) (outside : Option HeardClaim) : Prop :=
  ∃ o, outside = some o ∧ p.staleClaim o = false ∧ o.station ≠ p.own ∧ p.gone o.station = false

/-- Evaluation E of a stripe without claim entry, asked for by a WITHDRAW or a DONE outcome, ends with a part of which a
condition holds: by its standing and its loss set, and with a sweep requested where it cannot complete (R57 to R61). -/
def Part.evaluatedTo (p : Part) (t : StripeId) (ends : Part → Prop) : Prop :=
  ∀ r loss, p.firstRecord? t = some r → loss = p.lossSet t →
    (loss = [] →
        (r.standing = .quiet → ends p)
          ∧ (r.standing = .unrecoverable → ends { p with hdt := withStanding p.hdt t [] .quiet })
          ∧ (r.standing = .queued → ends { p.leftQueue t with hdt := withStanding p.hdt t [] .quiet })
          ∧ (r.standing = .parked → ends
            { p with
              hdt := p.hdt.map (changeStripe t fun h =>
                { h with lost := [], standing := .quiet, outside := none }) }))
      ∧ (loss ≠ [] → loss.length ≤ p.parityOf t →
        (r.standing = .queued → ends { p with hdt := withStanding p.hdt t loss .queued })
          ∧ (r.standing = .parked → p.rivalStands r.outside → ends { p with hdt := withStanding p.hdt t loss .parked })
          ∧ (r.standing = .quiet ∨ r.standing = .unrecoverable ∨ (r.standing = .parked ∧ ¬ p.rivalStands r.outside) →
            (p.rq.length < 1024 → ends { p with hdt := withStanding p.hdt t loss .queued, rq := p.rq ++ [t] })
              ∧ (1024 ≤ p.rq.length → ends { p with scn := { p.scn with sweepRequest := true } })))
      ∧ (p.parityOf t < loss.length →
        (r.standing = .unrecoverable → ends { p with hdt := withStanding p.hdt t loss .unrecoverable })
          ∧ (p.reportPathFull = false →
            (r.standing = .quiet ∨ r.standing = .parked → ends (Part.postReport
                { p with hdt := withStanding p.hdt t loss .unrecoverable } (.unrecoverable t loss)))
              ∧ (r.standing = .queued → ends (Part.postReport
                { p.leftQueue t with hdt := withStanding p.hdt t loss .unrecoverable } (.unrecoverable t loss))))
          ∧ (p.reportPathFull = true → r.standing = .quiet ∨ r.standing = .queued ∨ r.standing = .parked →
            ends { p with scn := { p.scn with sweepRequest := true } }))

/-- A loss-changed event at the claim entry of a stripe without context ends with a part of which a condition holds: the
entry removed, and withdrawn where it was announced, for more than m losses and for none; its lost set replaced
otherwise; and where the report path is full for more than m, a sweep requested alone (R61, R82). -/
def Part.lossChangesTo (p : Part) (t : StripeId) (n : Nat) (e : ClaimEntry) (loss : Positions) (ends : Part → Prop) :
    Prop :=
  ∀ removed, removed = ({ entries := p.clt.entries.dropRow n, owned := p.clt.owned.filter (· != n) } : ClaimTable) →
    (p.parityOf t < loss.length →
        (p.reportPathFull = true → ends { p with scn := { p.scn with sweepRequest := true } })
          ∧ (p.reportPathFull = false →
            (e.announced = true → p.queueOpen → p.claimWaits t = false → ends (Part.postReport (Part.queued
                { p with clt := removed, hdt := withStanding p.hdt t loss .unrecoverable }
                none (.withdraw t 0x07 0xFF 0)) (.unrecoverable t loss)))
              ∧ (e.announced = false → ends (Part.postReport
                { p with clt := removed, hdt := withStanding p.hdt t loss .unrecoverable } (.unrecoverable t loss)))))
      ∧ (loss = [] →
        (e.announced = true → p.queueOpen → p.claimWaits t = false → ends (Part.queued
            { p with clt := removed, hdt := withStanding p.hdt t [] .quiet } none (.withdraw t 0x06 0xFF 0)))
          ∧ (e.announced = false → ends { p with clt := removed, hdt := withStanding p.hdt t [] .quiet }))
      ∧ (loss ≠ [] → loss.length ≤ p.parityOf t → ends
        { p with
          clt := { p.clt with entries := p.clt.entries.setRow n { e with lost := loss } }
          hdt := p.hdt.map (changeStripe t fun h => { h with lost := loss }) })

/-- The holdings table after a rebuilt position has been delivered: this station in its placement entry in every record of
the stripe, and a record of it at the lowest empty position unless there is one (R16, R17). -/
def Part.deliveredTable (p : Part) (x : Context) (e : LostEntry) (table : Table HoldingRecord) : Prop :=
  let placed := p.hdt.map (changeStripe x.stripe fun r => { r with placement := r.placement.set e.position p.own })
  (p.holds x.stripe e.position = true ∧ table = placed)
    ∨ ∃ r0 position, p.holds x.stripe e.position = false ∧ p.firstRecord? x.stripe = some r0
      ∧ p.hdt.lowestFree? 131072 = some position
      ∧ table = Table.setRow placed position
        { r0 with
          ownIndex := e.position
          geometry := x.geometry
          length := x.length
          placement := r0.placement.set e.position p.own
          digests := r0.digests.set e.position e.digest }

/-- The lanes that waiting contexts are given from the free pool, in the order of the table: each the whole of what it
lacks, or nothing (R90). -/
def lanesServed : Table Context → List Nat → List (Nat × List Nat)
  | [], _ => []
  | (c, x) :: rest, pool =>
    if x.pendingOutcome = none ∧ 0 < x.lanesLacking ∧ x.lanesLacking ≤ pool.length then
      (c, pool.take x.lanesLacking) :: lanesServed rest (pool.drop x.lanesLacking)
    else lanesServed rest pool

/-- A context that cannot be given the whole of what it lacks: too few lanes are free, or the slots would exceed the
accumulator budget (R90, R149). -/
def Part.cannotServe (p : Part) (x : Context) : Prop :=
  p.poolLanes.length < x.lanesLacking
    ∨ (x.lacking ≠ [] ∧ p.pool - p.serveReserve < p.slotsOf .accumulator + x.lacking.length)

/-! ## How the host reads its structures (R161) -/

/-- What a report ring entry says, each field as its number. -/
structure ReportEntry where
  kind : Nat
  code : Nat
  cause : Nat
  tag : Nat
  stripe : Nat
  position : Nat
  length : Nat
  digest : Nat
  slotOffset : Nat
  mask : Nat
  deriving DecidableEq, Repr

/-- A report ring entry read by the table of R161. -/
def readReport (b : List Byte) : ReportEntry where
  kind := leField b 0 1
  code := leField b 1 1
  cause := leField b 2 1
  tag := leField b 4 2
  stripe := leField b 8 6
  position := leField b 14 1
  length := leField b 16 4
  digest := leField b 20 4
  slotOffset := leField b 24 4
  mask := leField b 28 2

/-- What the entry of a report is to say: its kind and codes, its fields, and 0 in those that its kind is not said to carry
(R161; that these are 0 is the model's choice, log 52). -/
def Report.entry : Report → ReportEntry
  | .stageRequest tag stripe position length slot =>
    { kind := 1, code := 0, cause := 0, tag := tag.toNat, stripe := stripe.toNat, position := position, length := length,
      digest := 0, slotOffset := (32 + slot) * 1048576, mask := 0 }
  | .storeRequest tag stripe position length digest slot =>
    { kind := 2, code := 0, cause := 0, tag := tag.toNat, stripe := stripe.toNat, position := position, length := length,
      digest := digest.toNat, slotOffset := (32 + slot) * 1048576, mask := 0 }
  | .commandRefused code index =>
    { kind := 3, code := code.code.toNat, cause := 0, tag := index.toNat % 65536, stripe := 0, position := 0, length := 0,
      digest := 0, slotOffset := 0, mask := 0 }
  | .unrecoverable stripe lost =>
    { kind := 4, code := 1, cause := 0, tag := 0, stripe := stripe.toNat, position := 0, length := 0, digest := 0,
      slotOffset := 0, mask := (maskOf lost).toNat }
  | .repairAbandoned cause stripe =>
    { kind := 4, code := 2, cause := cause.code.toNat, tag := 0, stripe := stripe.toNat, position := 0, length := 0,
      digest := 0, slotOffset := 0, mask := 0 }
  | .verifyFail stripe failed =>
    { kind := 4, code := 3, cause := 0, tag := 0, stripe := stripe.toNat, position := 0, length := 0, digest := 0,
      slotOffset := 0, mask := (maskOf failed).toNat }
  | .holdingsFull stripe position =>
    { kind := 4, code := 4, cause := 0, tag := 0, stripe := stripe.toNat, position := position, length := 0, digest := 0,
      slotOffset := 0, mask := 0 }

/-- The numbers of a request fit their fields: a position of a stripe, a fragment length, a slot of the largest pool. -/
def Report.fits : Report → Prop
  | .stageRequest _ _ position length slot => position ≤ 15 ∧ length ≤ 1048576 ∧ slot < 992
  | .storeRequest _ _ position length _ slot => position ≤ 15 ∧ length ≤ 1048576 ∧ slot < 992
  | .commandRefused .. => True
  | .unrecoverable .. => True
  | .repairAbandoned .. => True
  | .verifyFail .. => True
  | .holdingsFull _ position => position ≤ 15

/-- The numbers of a holding record fit their fields: stations, positions of a stripe, a geometry, a fragment length, and an
outside claim of a station. -/
structure HoldingRecord.Fits (r : HoldingRecord) (now : Nat) : Prop where
  ownIndex : r.ownIndex ≤ 15
  geometry : r.geometry ≤ 7
  length : r.length ≤ 1048576
  placement : r.placement.length ≤ 16 ∧ ∀ s ∈ r.placement, s ≤ 63
  digests : r.digests.length ≤ 16
  lost : ∀ i ∈ r.lost, i ≤ 15
  outside : ∀ o, r.outside = some o → o.station ≤ 63 ∧ (now - o.heard) / 1000 < 4294967296

/-- An image read by the table of R161 says what the record holds: in the bytes of positions that the stripe has not, of an
absent digest, an absent outside claim and an unknown rank it has 00h (log 29), and in every byte that no field names too. -/
structure HoldingRecord.ReadBack (r : HoldingRecord) (now : Nat) (b : List Byte) : Prop where
  size : b.length = 256
  valid : leField b 0 1 = 1
  standing : leField b 1 1 = r.standing.code.toNat
  ownIndex : leField b 2 1 = r.ownIndex
  geometry : leField b 3 1 = r.geometry
  stripe : leField b 4 6 = r.stripe.toNat
  length : leField b 12 4 = r.length
  placement : ∀ i, i < 16 → leField b (16 + i) 1 = (r.placement[i]?).getD 0
  lost : ∀ i, i < 16 → ((leField b 32 2).testBit i = true ↔ i ∈ r.lost)
  present : ∀ i, i < 16 → ((leField b 34 2).testBit i = true ↔ ∃ d, r.digests[i]? = some (some d))
  digests : ∀ i, i < 16 → leField b (36 + 4 * i) 4 = (((r.digests[i]?).join).map BitVec.toNat).getD 0
  noOutside : r.outside = none →
    leField b 100 1 = 0 ∧ leField b 101 1 = 0 ∧ leField b 102 3 = 0 ∧ leField b 108 4 = 0
  outside : ∀ o, r.outside = some o →
    leField b 100 1 = 1 + (if o.settled then 2 else 0) + (if o.rank.isSome then 4 else 0)
      ∧ leField b 101 1 = o.station ∧ leField b 102 3 = (o.rank.map BitVec.toNat).getD 0
      ∧ leField b 108 4 = (now - o.heard) / 1000
  unnamed : ∀ i, i < 256 → i = 10 ∨ i = 11 ∨ (105 ≤ i ∧ i < 108) ∨ 112 ≤ i → leField b i 1 = 0

/-- The counts that the status block shows fit their fields. -/
structure Part.CountsFit (p : Part) : Prop where
  records : p.hdt.length ≤ 131072
  queued : p.rq.length ≤ 1024
  claims : p.clt.entries.length ≤ 256
  contexts : p.ctx.contexts.length ≤ 32
  lanes : p.ftu.length ≤ 128
  serves : p.svu.entries.length ≤ 256
  drops : p.sgp.drops.length = 10
  racks : p.prs.racks.numbers = List.range 16
  config : ∀ c, p.config = some c → c.wellFormed = true

/-- The status block read by the table of R161 says what the part holds, under an update count. The status shown of the own
station is that of its own part, and its load is absent (log 32); a station that is no member has the status 00h and
the load FFh (log 11), and a reported load above 32 is shown as it was recorded (log 33). -/
structure Part.StatusReadBack (p : Part) (count : BitVec 32) (b : List Byte) : Prop where
  size : b.length = 576
  counts : leField b 0 4 = count.toNat ∧ leField b 572 4 = count.toNat
  state : leField b 4 1 = p.hlk.phase.code.toNat
  warning : leField b 5 1 = if p.cbe.warning then 1 else 0
  epoch : leField b 6 2 = p.prs.ownEpoch.toNat
  dram : leField b 8 2 = p.smc.strap.mebibytes
  positions : leField b 12 4 = p.hlk.commandConsume.toNat ∧ leField b 16 4 = p.hlk.reportProduce.toNat
  records : leField b 20 4 = p.hdt.length
  queued : leField b 24 2 = p.rq.length
  claims : leField b 26 2 = p.clt.entries.length
  contexts : leField b 28 1 = p.ctx.contexts.length
  lanes : leField b 29 1 = (p.ftu.filter fun l => l.2.holder.isSome).length
  serves : leField b 30 2 = p.svu.entries.length
  slots : leField b 32 2 = p.pool - p.smc.slots.length
  config : ∀ c, p.config = some c → readConfig (bytesAt b 64 104) = c
  noConfig : p.config = none → bytesAt b 64 104 = List.replicate 104 0
  drops : ∀ k : DropKind, leField b (168 + 4 * k.index) 4 = ((p.sgp.drops[k.index]?).map BitVec.toNat).getD 0
  racks : ∀ r, r < 16 → leField b (208 + r) 1 = (p.rackState r).code.toNat
  members : ∀ s q, s < 64 → p.peer? s = some q →
    leField b (256 + 4 * s) 1 = q.state.code.toNat
      ∧ (q.state ≠ .self → leField b (257 + 4 * s) 1 = (q.status.map fun a => a.code.toNat).getD 0)
      ∧ (q.state = .self → leField b (257 + 4 * s) 1 =
        if p.hlk.phase = .running then 1 else if p.hlk.phase = .halted then 2 else 0)
      ∧ (q.load = none → leField b (258 + 4 * s) 1 = 255)
      ∧ ∀ load, q.load = some load → load ≤ 255 → leField b (258 + 4 * s) 1 = load
  others : ∀ s, s < 64 → p.peer? s = none →
    leField b (256 + 4 * s) 1 = 0 ∧ leField b (257 + 4 * s) 1 = 0 ∧ leField b (258 + 4 * s) 1 = 255
  unnamed : ∀ i, i < 576 → (10 ≤ i ∧ i < 12) ∨ (34 ≤ i ∧ i < 64) ∨ (224 ≤ i ∧ i < 256)
    ∨ (256 ≤ i ∧ i < 512 ∧ i % 4 = 3) ∨ (512 ≤ i ∧ i < 572) → leField b i 1 = 0

/-- The commands that the host places in the command ring (R161, R164). -/
def Instr.ofRing : Instr → Prop
  | .configure _ => True
  | .start => True
  | .halt => True
  | .load _ => True
  | .drop _ _ => True
  | .staged _ _ => True
  | .stored _ _ => True
  | .scanRelease _ => True
  | .requeue _ => True
  | .clearFlags _ => True
  | .unknownCommandCode _ => True
  | _ => False

end Sys2Proof.Machine
end

