-- ==== Sys2Proof/Certificates/Slice0/Obligations.lean ====
section
/-! DEFINITION. The statements for the provers: what the commands of the part do, what they leave unchanged, and the
laws that every step keeps. A statement about a command says that it answers a next state, and which. -/

open Sys2Proof Sys2Proof.Machine

/-! ## The machine and its laws -/

/-- The command at the front of the queue runs with the queue's rest, whatever it is; on an empty queue one µs of the
model's clock passes (that clause is the model's choice, log 1). -/
def Obligations.FrontCommandRuns : Prop :=
  (∀ c rest p, step ⟨c :: rest, p⟩ = exec c ⟨rest, p⟩)
    ∧ ∀ p : Part, step ⟨[], p⟩ = .next ⟨[], { p with now := p.now + 1 }⟩

/-- No command stops the part, none touches the commands that wait, and a change of anything the status block shows
marks the block for rewriting; so does every command that the reader takes from the ring (R164, R170; that every shown
value counts, not only those whose rules say so, is the model's reading, log 11). -/
def Obligations.EveryCommandGoesOn : Prop :=
  ∀ i s, Leads i s fun q =>
    (q.statusView ≠ s.part.statusView → q.hlk.statusMarked = true)
      ∧ (Instr.ofRing i → Instr.wellFormed i = true → s.part.readerTakes = true → q.hlk.statusMarked = true)

/-- Every step keeps the memory in its canonical form, and keeps five queues within their room: the control queue, the data
queue, the hold list, the internal report queue and the repair queue (R37, R61, R158, R159, R169). Of the other queues of the
part, the combine queue, the plan FIFO and the verify FIFO among them, it says nothing. -/
def Obligations.EveryStepKeepsMemoryAndQueueLaws : Prop :=
  ∀ s t, s.part.memoryLaw → s.part.queueLaw → step s = .next t → t.part.memoryLaw ∧ t.part.queueLaw

/-- Every step keeps the law of the racks: a DOWN rack has only LOST members, and the own rack is never DOWN (R43,
R44). The shape of the roster, which CONFIGURE writes, is kept with it. -/
def Obligations.EveryStepKeepsRackLaw : Prop :=
  ∀ s t, s.part.rosterShape → s.part.rackLaw → step s = .next t → t.part.rosterShape ∧ t.part.rackLaw

/-- The machine right after reset obeys all of these laws. -/
def Obligations.ResetObeysTheLaws : Prop :=
  State.reset.part.memoryLaw ∧ State.reset.part.queueLaw ∧ State.reset.part.rosterShape ∧ State.reset.part.rackLaw

/-! ## Resets and configuration -/

/-- Both resets leave the part in SETUP with every block empty. After power-on the DRAM holds undefined bytes; a
function reset keeps its contents, where nothing was being written into it (R18, R147, R162). The model's record of the
frames sent and of the host's memory outlives both (that is the model's choice, log 17), and the suspect count of a rack is
0 (the model's choice too, log 4). -/
def Obligations.ResetsEmptyEveryBlock : Prop :=
  ∀ (strap : DramSize) (w : List Instr) (p : Part),
    Leads (.powerOnReset strap) ⟨w, p⟩ (fun q => q.JustReset strap
        ∧ (∀ offset, q.smc.dram.byte offset = Config.undefinedByte p.smc.dram.nextSeed offset)
        ∧ q.sgp.wire = p.sgp.wire ∧ q.hlk.hostMemory = p.hlk.hostMemory)
      ∧ Leads (.functionReset strap) ⟨w, p⟩ (fun q => q.JustReset strap
        ∧ (p.hlk.phase ≠ .initializing → p.smc.fill = none → p.cbe.operation = none → q.smc.dram = p.smc.dram)
        ∧ q.sgp.wire = p.sgp.wire ∧ q.hlk.hostMemory = p.hlk.hostMemory)

/-- An accepted CONFIGURE puts the clamped record in force, makes every member of its map ABSENT and the own station SELF,
every rack UP with its members, and enters CONFIGURED; nothing else changes. The record in force has every value within its
range, and one that was within them is taken as it is (R34 to R37, R40, R65, R108, R129, R149, R165; that the record of the
own station has no reported load is the model's choice, log 32, and so are the suspect count 0, log 4, and that the ignored
interrupt enable bits 5 to 7 are 0 in the record in force, log 55). -/
def Obligations.ConfigureTakesTheClampedRecord : Prop :=
  (∀ (c : ConfigRecord) (w : List Instr) (p : Part), p.readerTakes = true →
      (p.hlk.phase = .setup ∨ p.hlk.phase = .configured) → ConfigRecord.Lawful c → ringSizeValid p.hlk.reportSize = true →
      statusAddressValid p.hlk.statusAddress = true →
      Leads (.configure c) ⟨w, p⟩ fun q =>
        q.config = some (ConfigRecord.clamped c p.pool) ∧ q.hlk.phase = .configured
          ∧ (∀ station, q.peer? station =
              if station < 64 then (c.rackOf? station).map fun rack =>
                { rack := rack, state := if station = c.ownStation.toNat then .self else .absent, missed := 0,
                  heard := false, link := if station = c.ownStation.toNat then some Config.ownAddress else none,
                  epoch := none, status := none, load := none }
              else none)
          ∧ (∀ rack, q.prs.racks.row? rack =
              if rack < 16 then
                some { members := (List.range 64).filter fun station => c.rackOf? station = some rack, state := .up,
                       suspectCount := 0 }
              else none)
          ∧ Part.unmarked
              { q with
                config := p.config
                hlk := { q.hlk with phase := p.hlk.phase }
                prs := { q.prs with peers := p.prs.peers, racks := p.prs.racks } }
            = p.consumed.unmarked)
    ∧ (∀ (c : ConfigRecord) (strap : DramSize),
        ConfigRecord.InForce (ConfigRecord.clamped c strap.pool) strap.pool
          ∧ (ConfigRecord.InForce c strap.pool → ConfigRecord.clamped c strap.pool = c))

/-- A refused command posts one COMMAND-REFUSED and does nothing else. BAD-STATE refuses a command in a state that
does not accept it, and a REQUEUE of a stripe at work; BAD-FIELD a value that the fields do not allow, a LOAD that does
not fit its geometry or the records of its stripe, and an unlisted command code; EXISTS a LOAD of a key that has a
record, FULL one that finds no empty position; NOT-FOUND a DROP or a REQUEUE of something without a record; STALE an
answer to a tag that is not outstanding (R11, R13, R64, R164, R165, R168; how the consume position advances under a ring
size that is not valid is the model's, log 41). -/
def Obligations.RefusalsDoNothingElse : Prop :=
  (∀ (w : List Instr) (p : Part), p.readerTakes = true →
      (∀ i : Instr, Instr.runningOnly i → p.hlk.phase ≠ .running → Answers i ⟨w, p⟩ (p.refusedWith .badState))
        ∧ (p.hlk.phase = .running ∨ p.hlk.phase = .halted →
            ∀ c, Answers (.configure c) ⟨w, p⟩ (p.refusedWith .badState))
        ∧ (p.hlk.phase = .setup ∨ p.hlk.phase = .running → Answers .start ⟨w, p⟩ (p.refusedWith .badState)))
    ∧ (∀ (w : List Instr) (p : Part), p.readerTakes = true →
        (∀ code : Byte, code = 0 ∨ 0x0A < code.toNat →
            Answers (.unknownCommandCode code) ⟨w, p⟩ (p.refusedWith .badField))
          ∧ (∀ c : ConfigRecord, p.hlk.phase = .setup ∨ p.hlk.phase = .configured →
              (¬ ConfigRecord.Lawful c ∨ ringSizeValid p.hlk.reportSize = false ∨ statusAddressValid p.hlk.statusAddress = false) →
              Answers (.configure c) ⟨w, p⟩ (p.refusedWith .badField))
          ∧ (p.hlk.phase = .running →
              (∀ rack : Byte, 15 < rack.toNat → Answers (.scanRelease rack) ⟨w, p⟩ (p.refusedWith .badField))
                ∧ (∀ (tag : Tag) (result : Byte), result ≠ 0x01 → result ≠ 0x02 →
                  Answers (.staged tag result) ⟨w, p⟩ (p.refusedWith .badField)
                    ∧ Answers (.stored tag result) ⟨w, p⟩ (p.refusedWith .badField))
                ∧ ∀ l : LoadRecord, p.geometry? l.geometry.toNat = none →
                  Answers (.load l) ⟨w, p⟩ (p.refusedWith .badField)))
    ∧ (∀ (w : List Instr) (p : Part) (l : LoadRecord) (g : Geometry), p.readerTakes = true → p.hlk.phase = .running →
        p.geometry? l.geometry.toNat = some g →
        (¬ LoadRecord.Fits p l g → Answers (.load l) ⟨w, p⟩ (p.refusedWith .badField))
          ∧ (LoadRecord.Fits p l g →
            ((∃ r ∈ p.hdt, r.2.stripe = l.stripe
                  ∧ (r.2.geometry ≠ l.geometry.toNat ∨ r.2.length ≠ l.length.toNat)) →
                Answers (.load l) ⟨w, p⟩ (p.refusedWith .badField))
              ∧ ((∀ r ∈ p.hdt, r.2.stripe = l.stripe →
                    r.2.geometry = l.geometry.toNat ∧ r.2.length = l.length.toNat) →
                ((∃ r ∈ p.hdt, r.2.stripe = l.stripe ∧ r.2.ownIndex = l.ownIndex.toNat) →
                    Answers (.load l) ⟨w, p⟩ (p.refusedWith .exists_))
                  ∧ ((∀ r ∈ p.hdt, r.2.stripe = l.stripe → r.2.ownIndex ≠ l.ownIndex.toNat) →
                    p.hdt.lowestFree? 131072 = none → Answers (.load l) ⟨w, p⟩ (p.refusedWith .full)))))
    ∧ (∀ (w : List Instr) (p : Part), p.readerTakes = true → p.hlk.phase = .running →
        (∀ (t : StripeId) (index : Byte), p.recordOf? t index.toNat = none →
            Answers (.drop t index) ⟨w, p⟩ (p.refusedWith .notFound))
          ∧ (∀ t : StripeId, p.firstRecord? t = none → Answers (.requeue t) ⟨w, p⟩ (p.refusedWith .notFound))
          ∧ (∀ (t : StripeId) (r : HoldingRecord), p.firstRecord? t = some r →
              (r.standing = .queued ∨ r.standing = .claiming ∨ r.standing = .parked) →
              Answers (.requeue t) ⟨w, p⟩ (p.refusedWith .badState))
          ∧ ∀ (tag : Tag) (result : Byte), result = 0x01 ∨ result = 0x02 →
              (tag ∉ p.hlk.stageTags → Answers (.staged tag result) ⟨w, p⟩ (p.refusedWith .stale))
                ∧ (tag ∉ p.hlk.storeTags → Answers (.stored tag result) ⟨w, p⟩ (p.refusedWith .stale)))

/-- A report goes into the ring when none waits before it and the ring has a place, and into the internal report queue
otherwise. A control frame finds the held frames served: the oldest of them enter the control queue while that has a place.
It then joins the control queue while no frame is held and a place is free, the hold list while that has room, and is
otherwise discarded and counted; a CLAIM or WITHDRAW takes the place of a CLAIM of its stripe that still waits in the
control queue or the hold list. The OPEN and PULLs of a lane are withdrawn from both, and the places that this frees take
the oldest frames still held in the same event (R158, R159, R169; that held frames enter free places before a new frame is
posted is the model's reading, log 10, and that a report has zero in the fields that its kind is not said to carry its
choice, log 52). -/
def Obligations.ReportsAndFramesArePosted : Prop :=
  (∀ (p : Part) (r : Report),
      (p.hlk.reportQueue = [] → p.ringPlace = true → p.reportWritten (p.postReport r) r)
        ∧ (p.hlk.reportQueue ≠ [] ∨ p.ringPlace = false → p.hlk.reportQueue.length < 64 →
            p.postReport r =
              { p with hlk := { p.hlk with reportQueue := p.hlk.reportQueue ++ [{ report := r, tagVoid := false }] } }))
    ∧ (∀ (p : Part) (target : Option Nat) (b : FrameBody),
        ((∀ t, b.contestStripe? = some t → p.claimWaits t = false) →
            (p.queueOpen → p.post target b = p.queued target b)
              ∧ ∀ free q, free = 63 - (p.sgp.control.filter fun f => !f.body.isBeacon).length →
                q = { p with
                  sgp := { p.sgp with
                    control := p.sgp.control ++ p.sgp.hold.take free
                    hold := p.sgp.hold.drop free } } →
                (q.queueOpen → p.post target b = q.queued target b)
                  ∧ (q.sgp.hold ≠ [] ∨ q.controlPlace = false → q.sgp.hold.length < 1024 →
                    p.post target b =
                      { q with
                        sgp := { q.sgp with
                          hold := q.sgp.hold ++ [{ target := target, epoch := p.prs.ownEpoch, body := b }] } })
                  ∧ (1024 ≤ q.sgp.hold.length → p.post target b = q.counted .staleSend))
          ∧ ∀ t before after f, b.contestStripe? = some t → f.body.isClaimOf t = true →
            (p.sgp.control = before ++ f :: after → (∀ g ∈ before ++ after ++ p.sgp.hold, g.body.isClaimOf t = false) →
              p.post target b =
                { p with
                  sgp := { p.sgp with
                    control := before ++ { target := target, epoch := p.prs.ownEpoch, body := b } :: after } })
            ∧ (p.sgp.hold = before ++ f :: after → (∀ g ∈ p.sgp.control ++ before ++ after, g.body.isClaimOf t = false) →
              p.post target b =
                { p with
                  sgp := { p.sgp with
                    hold := before ++ { target := target, epoch := p.prs.ownEpoch, body := b } :: after } }))
    ∧ (∀ (p : Part) (lane free : Nat) (control hold : List ControlFrame),
        control = (p.sgp.control.filter fun f => !f.body.isRequestOf lane) →
        hold = (p.sgp.hold.filter fun f => !f.body.isRequestOf lane) →
        free = 63 - (control.filter fun f => !f.body.isBeacon).length →
        p.withdrawRequests lane =
          { p with sgp := { p.sgp with control := control ++ hold.take free, hold := hold.drop free } })

/-! ## START, INIT-DONE and HALT -/

/-- START from CONFIGURED: the own epoch takes the start epoch, the part enters INITIALIZING, and the blocks that a START
finds empty are empty. START from HALTED, one event: RUNNING under the next epoch, one BEACON posted, every record QUIET
with an empty lost set and no outside claim, every DOWN rack in the pending set. Nothing else changes (R19, R36, R37, R50,
R52, R148, R166; that a BEACON joins the queue ahead of the frames still held is the model's choice, log 56). -/
def Obligations.StartsBeginOrGoOn : Prop :=
  (∀ (w : List Instr) (p : Part) (c : ConfigRecord), p.readerTakes = true → p.hlk.phase = .configured →
      p.config = some c →
      Answers .start ⟨w, p⟩ (Part.consumed
        { p with
          hlk := { p.hlk with phase := .initializing }
          prs := { p.prs with ownEpoch := c.startEpoch }
          rq := []
          rqWait := none
          clt := { entries := [], owned := [] }
          ctx := { p.ctx with contexts := [] }
          plu := { queue := [], job := none }
          ftu := p.ftu.map fun r => (r.1, { r.2 with holder := none, outstanding := false, use := none })
          svu := { entries := [], holdPlace := none, waiting := [], combineMarks := [] }
          cbe := { queue := [], operation := none, warning := false }
          vfu := { queue := [], job := none }
          smc := { p.smc with slots := [], fillQueue := [], fill := none } }))
    ∧ (∀ (w : List Instr) (p : Part), p.readerTakes = true → p.hlk.phase = .halted → p.hdt.rising = true →
        p.prs.racks.rising = true →
        ∃ (pending : Table Bool) (beacon : ControlFrame),
          (∀ rack, pending.row? rack =
            if p.rackState rack = .down then some ((p.scn.pending.row? rack).getD false) else p.scn.pending.row? rack)
            ∧ beacon.target = none ∧ beacon.epoch = p.prs.ownEpoch + 1
            ∧ (∀ q, p.peer? p.own = some q → beacon.body = .beacon (BitVec.ofNat 8 q.rack) 0x01 0x00)
            ∧ AnswersWithImages .start ⟨w, p⟩ (Part.consumed
              { p with
                hlk := { p.hlk with phase := .running }
                prs := { p.prs with ownEpoch := p.prs.ownEpoch + 1 }
                hdt := p.hdt.map fun r => (r.1, { r.2 with standing := .quiet, lost := [], outside := none })
                scn := { p.scn with pending := pending }
                rq := []
                rqWait := none
                clt := { entries := [], owned := [] }
                ctx := { p.ctx with contexts := [] }
                plu := { queue := [], job := none }
                ftu := p.ftu.map fun r => (r.1, { r.2 with holder := none, outstanding := false, use := none })
                svu := { entries := [], holdPlace := none, waiting := [], combineMarks := [] }
                cbe := { queue := [], operation := none, warning := false }
                vfu := { queue := [], job := none }
                smc := { p.smc with slots := [], fillQueue := [], fill := none }
                sgp := { p.sgp with
                  control :=
                    if ∃ f ∈ p.sgp.control, f.body.isBeacon = true then
                      p.sgp.control.map fun f => if f.body.isBeacon then beacon else f
                    else p.sgp.control ++ [beacon] } }))

/-- INIT-DONE ends the initialization: RUNNING with an empty table and a holdings region of zeros, the liveness and the
sweep timer started, the first BEACON posted, the scanner as after reset; every other byte of the DRAM stays, and so does
everything else (R18, R37, R51, R53, R148, R166; that a BEACON joins the queue ahead of the frames still held is the model's
choice, log 56). Where no initialization is in progress nothing happens (log 18). -/
def Obligations.InitDone : Prop :=
  ∀ (w : List Instr) (p : Part),
    (p.hlk.phase ≠ .initializing → Answers .initDone ⟨w, p⟩ p)
      ∧ (p.hlk.phase = .initializing → p.sgp.control = [] → Leads .initDone ⟨w, p⟩ fun q =>
          (∀ offset, q.smc.dram.byte offset = if offset < 32 * 1048576 then 0 else p.smc.dram.byte offset)
            ∧ ∃ body : FrameBody,
              (∀ own, p.peer? p.own = some own →
                body = .beacon (BitVec.ofNat 8 own.rack) 0x01 (BitVec.ofNat 8 p.ctx.contexts.length))
              ∧ (q.setDram p.smc.dram).unmarked = Part.unmarked
                { p with
                  hlk := { p.hlk with phase := .running }
                  hdt := []
                  prs := { p.prs with livenessDue := some (p.now + p.beaconPeriod) }
                  scn := { pending := [], sweepRequest := false, pass := .idle, placeFreed := false, triggers := [],
                           triggerSweep := false, cursor := 0, met := [], sweepDue := some (p.now + p.sweepInterval) }
                  sgp := { p.sgp with control := [{ target := none, epoch := p.prs.ownEpoch, body := body }] } })

/-- HALT ends every piece of work and keeps what the rules say is kept: the records, QUIET; the roster, the
generations and the use counts of the lanes; the pending set, with the triggers and a requested sweep of the pass it
ended. Every CONTENDING and OWNED claim is withdrawn with HALT; no request or answer of the fetch exchange is left in the
control queue or the hold list; and the tags are void, their requests gone from the internal report queue. A fill or a
combine operation stops without writing further: each byte outside the holdings region is as it was, or as that write
leaves it (R19, R49, R51, R84, R141, R151, R159, R167, R168; that a rack in both sets is held where either holds it is the
model's inference, log 13, and so is that a request whose tag became void before goes too, log 25; which bytes a stopped
write had reached is a free value, log 12). -/
def Obligations.HaltEndsAllWork : Prop :=
  ∀ (w : List Instr) (p : Part), p.readerTakes = true → p.hlk.phase = .running → p.hdt.rising = true →
    Leads .halt ⟨w, p⟩ fun q =>
      q.hlk.phase = .halted
        ∧ q.hdt = p.hdt.map (fun r => (r.1, { r.2 with standing := .quiet, lost := [], outside := none }))
        ∧ q.scn =
          { p.scn with
            pending := q.scn.pending
            pass := .idle
            placeFreed := false
            triggers := []
            triggerSweep := false
            cursor := 0
            met := []
            sweepRequest := p.scn.sweepRequest || p.scn.triggerSweep }
        ∧ (p.scn.triggers = [] → q.scn.pending = p.scn.pending)
        ∧ (p.scn.triggers.rising = true → ∀ rack, q.scn.pending.row? rack =
          match p.scn.triggers.row? rack with
          | some held => some (held || (p.scn.pending.row? rack).getD false)
          | none => p.scn.pending.row? rack)
        ∧ q.rq = [] ∧ q.rqWait = none ∧ q.clt = { entries := [], owned := [] } ∧ q.ctx = { p.ctx with contexts := [] }
        ∧ q.plu = { queue := [], job := none } ∧ q.vfu = { queue := [], job := none }
        ∧ q.ftu = p.ftu.map (fun r => (r.1, { r.2 with holder := none, outstanding := false, use := none }))
        ∧ q.svu = { entries := [], holdPlace := none, waiting := [], combineMarks := [] }
        ∧ q.cbe = { queue := [], operation := none, warning := false }
        ∧ q.smc.slots = [] ∧ q.smc.fillQueue = [] ∧ q.smc.fill = none ∧ q.smc.strap = p.smc.strap
        ∧ (p.smc.fill = none → p.cbe.operation = none → p.imagesFollow q)
        ∧ (∀ f, p.smc.fill = some f → p.cbe.operation = none → (∀ r ∈ p.hdt, r.1 < 131072) →
          ∀ a, 32 * 1048576 ≤ a → q.smc.dram.byte a = p.smc.dram.byte a
            ∨ ((32 + f.slot) * 1048576 ≤ a ∧ a < (33 + f.slot) * 1048576 ∧ q.smc.dram.byte a = 0))
        ∧ (∀ o slot coefficient, p.smc.fill = none → p.cbe.operation = some o → o.targets = [(slot, coefficient)] →
          (∀ r ∈ p.hdt, r.1 < 131072) →
          ∀ a, 32 * 1048576 ≤ a → q.smc.dram.byte a = p.smc.dram.byte a
            ∨ ∃ i b, o.operand[i]? = some b ∧ a = (32 + slot) * 1048576 + o.request.chunk * 8192 + i
              ∧ q.smc.dram.byte a = p.smc.dram.byte a ^^^ fieldMul coefficient b)
        ∧ q.hlk.stageTags = [] ∧ q.hlk.storeTags = [] ∧ q.hlk.tagCounter = p.hlk.tagCounter
        ∧ q.hlk.causeFlags = p.hlk.causeFlags ∧ q.sgp.data = [] ∧ q.sgp.wire = p.sgp.wire
        ∧ q.prs = p.prs ∧ q.config = p.config ∧ q.now = p.now ∧ q.hlk.hostMemory = p.hlk.hostMemory
        ∧ q.hlk.reportQueue = (p.hlk.reportQueue.filter fun r =>
          !r.tagVoid && match r.report.tag? with
            | some tag => !(p.hlk.stageTags ++ p.hlk.storeTags).contains tag
            | none => true)
        ∧ (∀ f ∈ q.sgp.control ++ q.sgp.hold, f.body.withdrawnAtHalt = false)
        ∧ ((∀ f ∈ p.sgp.hold, f.body.isBeacon = false) → q.sgp.hold ≠ [] →
          63 ≤ (q.sgp.control.filter fun f => !f.body.isBeacon).length)
        ∧ (p.sgp.hold.length + p.ftu.length + p.clt.entries.length ≤ 1024 →
          ∀ r ∈ p.clt.entries, r.2.announced = true →
            { target := none, epoch := p.prs.ownEpoch, body := .withdraw r.2.stripe 0x04 0xFF 0 }
              ∈ q.sgp.control ++ q.sgp.hold)
        ∧ (p.ctx.contexts = [] → p.roomFor (p.clt.entries.filter fun r => r.2.announced).length →
          (∀ r ∈ p.clt.entries, r.2.announced = true → p.claimWaits r.2.stripe = false) →
          q.sgp.hold = [] ∧ q.sgp.drops = p.sgp.drops
            ∧ q.sgp.control = (p.sgp.control.filter fun f => !f.body.withdrawnAtHalt)
              ++ (p.clt.entries.filter fun r => r.2.announced).map fun r =>
                { target := none, epoch := p.prs.ownEpoch, body := .withdraw r.2.stripe 0x04 0xFF 0 })
        ∧ (p.ctx.contexts = [] → p.sgp.control = [] → p.sgp.hold = [] →
          (p.clt.entries.filter fun r => r.2.announced).length ≤ 63 →
          q.sgp.hold = [] ∧ q.sgp.drops = p.sgp.drops
            ∧ q.sgp.control = (p.clt.entries.filter fun r => r.2.announced).map fun r =>
              { target := none, epoch := p.prs.ownEpoch, body := .withdraw r.2.stripe 0x04 0xFF 0 })

/-! ## LOAD, DROP and the answers of the host -/

/-- An accepted LOAD inserts one record at the lowest empty position, with its image, and makes the DOWN racks of its
placement pending; nothing else changes. The first record of a stripe is QUIET with the placement of the command; a
further one joins with the stripe's placement, standing, lost set and outside claim, and the placement entry of its
own index becomes this station in every record. Where that entry was another station's and the stripe is not QUIET,
evaluation E of the stripe follows, before the DOWN racks become pending: by its standing, or, for a stripe that is CLAIMING,
as a loss-changed event at its claim entry where the loss set has changed, and one that cannot complete requests a sweep. A
stripe whose loss set has changed has no context here, or one in VERIFYING or DELIVERING; what any other makes of that event
is in FailuresRePlan (R8 to R12, R52, R57 to R61, R82, R96). -/
def Obligations.LoadsInsertRecords : Prop :=
  (∀ (w : List Instr) (p : Part) (l : LoadRecord) (g : Geometry) (position : Nat), p.readerTakes = true →
      p.hlk.phase = .running → p.geometry? l.geometry.toNat = some g → LoadRecord.Fits p l g →
      p.firstRecord? l.stripe = none → p.hdt.rising = true → p.hdt.lowestFree? 131072 = some position →
      ∃ pending, pendingWith p.scn.pending pending (p.downRackOf ((l.placement.take g.width).map BitVec.toNat))
        ∧ AnswersWithImages (.load l) ⟨w, p⟩ (Part.consumed
          { p with
            hdt := p.hdt.setRow position
              { stripe := l.stripe, ownIndex := l.ownIndex.toNat, geometry := l.geometry.toNat, length := l.length.toNat,
                placement := (l.placement.take g.width).map BitVec.toNat,
                digests := (List.range g.width).map fun i =>
                  if l.digestPresent.getLsbD i then some ((l.digests[i]?).getD 0) else none,
                standing := .quiet, lost := [], outside := none }
            scn := { p.scn with pending := pending } }))
    ∧ (∀ (w : List Instr) (p : Part) (l : LoadRecord) (g : Geometry) (position : Nat) (old : HoldingRecord),
        p.readerTakes = true → p.hlk.phase = .running → p.geometry? l.geometry.toNat = some g →
        LoadRecord.Fits p l g → p.firstRecord? l.stripe = some old →
        (∀ r ∈ p.hdt, r.2.stripe = l.stripe → r.2.geometry = l.geometry.toNat ∧ r.2.length = l.length.toNat
          ∧ r.2.placement = old.placement ∧ r.2.ownIndex ≠ l.ownIndex.toNat) →
        (old.standing = .quiet ∨ old.placement[l.ownIndex.toNat]? = some p.own) →
        p.hdt.rising = true → p.hdt.lowestFree? 131072 = some position →
        ∃ pending, pendingWith p.scn.pending pending (p.downRackOf (old.placement.set l.ownIndex.toNat p.own))
          ∧ AnswersWithImages (.load l) ⟨w, p⟩ (Part.consumed
            { p with
              hdt := Table.setRow (p.hdt.map (changeStripe l.stripe fun r =>
                  { r with placement := r.placement.set l.ownIndex.toNat p.own })) position
                { stripe := l.stripe, ownIndex := l.ownIndex.toNat, geometry := l.geometry.toNat, length := l.length.toNat,
                  placement := old.placement.set l.ownIndex.toNat p.own,
                  digests := (List.range g.width).map fun i =>
                    if l.digestPresent.getLsbD i then some ((l.digests[i]?).getD 0) else none,
                  standing := old.standing, lost := old.lost, outside := old.outside }
              scn := { p.scn with pending := pending } }))
    ∧ ∀ (w : List Instr) (p joined : Part) (l : LoadRecord) (g : Geometry) (position : Nat) (old : HoldingRecord)
        (ends : Part → Prop),
        p.readerTakes = true → p.hlk.phase = .running → p.geometry? l.geometry.toNat = some g →
        LoadRecord.Fits p l g → p.firstRecord? l.stripe = some old →
        (∀ r ∈ p.hdt, r.2.stripe = l.stripe → r.2.geometry = l.geometry.toNat ∧ r.2.length = l.length.toNat
          ∧ r.2.placement = old.placement ∧ r.2.ownIndex ≠ l.ownIndex.toNat) →
        old.standing ≠ .quiet → old.placement[l.ownIndex.toNat]? ≠ some p.own →
        p.hdt.rising = true → p.hdt.lowestFree? 131072 = some position →
        joined = { p with
          hdt := Table.setRow (p.hdt.map (changeStripe l.stripe fun r =>
              { r with placement := r.placement.set l.ownIndex.toNat p.own })) position
            { stripe := l.stripe, ownIndex := l.ownIndex.toNat, geometry := l.geometry.toNat, length := l.length.toNat,
              placement := old.placement.set l.ownIndex.toNat p.own,
              digests := (List.range g.width).map fun i =>
                if l.digestPresent.getLsbD i then some ((l.digests[i]?).getD 0) else none,
              standing := old.standing, lost := old.lost, outside := old.outside } } →
        ends = (fun q => ∃ pending,
          pendingWith p.scn.pending pending (p.downRackOf (old.placement.set l.ownIndex.toNat p.own))
            ∧ AnswersWithImages (.load l) ⟨w, p⟩
              (Part.consumed { q with scn := { q.scn with pending := pending } })) →
        (old.standing ≠ .claiming → joined.evaluatedTo l.stripe ends)
          ∧ (old.standing = .claiming →
            (joined.lossSet l.stripe = old.lost → ends joined)
              ∧ ∀ n e, joined.lossSet l.stripe ≠ old.lost → p.claimOf? l.stripe = some (n, e) →
                (p.contextOf? l.stripe = none → joined.lossChangesTo l.stripe n e (joined.lossSet l.stripe) ends)
                  ∧ ∀ c x, p.contextOf? l.stripe = some (c, x) → p.context? c = some x →
                    x.state = .verifying ∨ x.state = .delivering → joined.lossSet l.stripe ≠ [] →
                    (joined.lossSet l.stripe).length ≤ p.parityOf l.stripe →
                    ends
                      { joined with
                        clt := { p.clt with
                          entries := p.clt.entries.setRow n { e with lost := joined.lossSet l.stripe } }
                        hdt := joined.hdt.map (changeStripe l.stripe fun h =>
                          { h with lost := joined.lossSet l.stripe }) })

/-- A DROP removes the record and zeroes its image. While the stripe has another record nothing else changes, but at the
serve entry of the key, which becomes FAILED(DROPPED) without a tag, that of its STAGE request being void, and is freed
where it has no opener; an internal opener of it reports the failure, and its context, which gathers, plans again with the
local position unusable, or is ABANDONED at the ninth re-plan. With the last record the stripe leaves the repair queue, its
context ends, its claim entry goes, with WITHDRAW(DROPPED) from CONTENDING or OWNED and silently from YIELDED, and its
serve entry becomes FAILED(DROPPED) too. A pass that is BLOCKED at the record moves on, and a sweep is requested. Each
effect is stated where the others do not arise (R10, R13, R14, R56, R62, R84, R94, R95, R131, R134, R168; that the sweep is
requested wherever the other records lie is the model's reading, log 16, that the pass ends where it waits at the last
position is its choice, log 48, and so is the order of the re-plan's frames and fills, logs 8 and 37). -/
def Obligations.DropRemovesTheRecord : Prop :=
  ∀ (w : List Instr) (p : Part) (t : StripeId) (index : Byte) (position : Nat) (r : HoldingRecord),
    p.readerTakes = true → p.hlk.phase = .running → p.recordOf? t index.toNat = some (position, r) →
    p.hdt.rising = true →
    ((∀ e ∈ p.svu.entries, e.2.stripe ≠ t) → (∀ c ∈ p.ctx.contexts, c.2.stripe ≠ t) →
        ¬ (p.scn.pass = .blocked ∧ p.scn.cursor = position) →
        ((∃ other ∈ p.hdt, other.1 ≠ position ∧ other.2.stripe = t) →
            AnswersWithImages (.drop t index) ⟨w, p⟩ (Part.consumed { p with hdt := p.hdt.dropRow position }))
          ∧ ((∀ other ∈ p.hdt, other.1 ≠ position → other.2.stripe ≠ t) →
            (p.claimOf? t = none →
              AnswersWithImages (.drop t index) ⟨w, p⟩ (Part.consumed
                { p.leftQueue t with hdt := p.hdt.dropRow position }))
              ∧ (∀ n e, p.claimOf? t = some (n, e) → e.announced = true → p.queueOpen → p.claimWaits t = false →
                AnswersWithImages (.drop t index) ⟨w, p⟩ (Part.consumed (Part.queued
                  { p.leftQueue t with
                    hdt := p.hdt.dropRow position
                    clt := { entries := p.clt.entries.dropRow n, owned := p.clt.owned.filter (· != n) } }
                  none (.withdraw t 0x05 0xFF 0))))
              ∧ ∀ n e rival since due, p.claimOf? t = some (n, e) → e.state = .yielded rival since due →
                AnswersWithImages (.drop t index) ⟨w, p⟩ (Part.consumed
                  { p.leftQueue t with
                    hdt := p.hdt.dropRow position
                    clt := { entries := p.clt.entries.dropRow n, owned := p.clt.owned.filter (· != n) } })))
      ∧ ((∀ e ∈ p.svu.entries, e.2.stripe ≠ t) → (∀ c ∈ p.ctx.contexts, c.2.stripe ≠ t) → p.claimOf? t = none →
        p.scn.pass = .blocked → p.scn.cursor = position →
        ((∃ other ∈ p.hdt, other.1 ≠ position ∧ other.2.stripe = t) →
            AnswersWithImages (.drop t index) ⟨w, p⟩ (Part.consumed (Part.cursorMoved
              { p with hdt := p.hdt.dropRow position, scn := { p.scn with sweepRequest := true } })))
          ∧ ((∀ other ∈ p.hdt, other.1 ≠ position → other.2.stripe ≠ t) →
            AnswersWithImages (.drop t index) ⟨w, p⟩ (Part.consumed (Part.cursorMoved
              { p.leftQueue t with
                hdt := p.hdt.dropRow position
                scn := { p.scn with sweepRequest := true } }))))
      ∧ (∀ n e, p.serveOf? t index.toNat = some (n, e) → p.serve? n = some e → e.internals = [] →
        p.svu.entries.rising = true → (∀ c ∈ p.ctx.contexts, c.2.stripe ≠ t) → p.claimOf? t = none →
        ¬ (p.scn.pass = .blocked ∧ p.scn.cursor = position) →
        ((∃ other ∈ p.hdt, other.1 ≠ position ∧ other.2.stripe = t) →
            (e.openers ≠ [] →
                (e.state ≠ .staging ∨ e.tag = none →
                    AnswersWithImages (.drop t index) ⟨w, p⟩ (Part.consumed
                      { p with
                        hdt := p.hdt.dropRow position
                        svu := { p.svu with
                          entries := p.svu.entries.setRow n { e with state := .failed .dropped, tag := none } } }))
                  ∧ ∀ tag, e.state = .staging → e.tag = some tag → tag ∈ p.hlk.stageTags →
                    AnswersWithImages (.drop t index) ⟨w, p⟩ (Part.consumed
                      { p.tagEnded tag with
                        hdt := p.hdt.dropRow position
                        hlk := { (p.tagEnded tag).hlk with
                          reportQueue := p.hlk.reportQueue.map fun q =>
                            if q.report.tag? = some tag then { q with tagVoid := true } else q }
                        svu := { p.svu with
                          entries := p.svu.entries.setRow n { e with state := .failed .dropped, tag := none } } }))
              ∧ (e.openers = [] → Leads (.drop t index) ⟨w, p⟩ fun q =>
                q.svu.entries = p.svu.entries.dropRow n ∧ q.hdt = p.hdt.dropRow position
                  ∧ ∀ tag, e.state = .staging → e.tag = some tag → tag ∈ p.hlk.stageTags → tag ∉ q.hlk.stageTags))
          ∧ ((∀ other ∈ p.hdt, other.1 ≠ position → other.2.stripe ≠ t) →
            (∀ other ∈ p.svu.entries, other.1 ≠ n → other.2.stripe ≠ t) →
            e.openers ≠ [] → e.state = .staged →
            AnswersWithImages (.drop t index) ⟨w, p⟩ (Part.consumed
              { p.leftQueue t with
                hdt := p.hdt.dropRow position
                svu := { p.svu with
                  entries := p.svu.entries.setRow n { e with state := .failed .dropped, tag := none } } })))
      ∧ (∀ n e i x failed, p.serveOf? t index.toNat = some (n, e) → p.serve? n = some e → e.internals = [i] →
        i.ended = .open_ → e.state = .staged → p.svu.entries.rising = true →
        ¬ (p.scn.pass = .blocked ∧ p.scn.cursor = position) →
        (∃ other ∈ p.hdt, other.1 ≠ position ∧ other.2.stripe = t) →
        failed = { p with
          hdt := p.hdt.dropRow position
          svu := { p.svu with
            entries := p.svu.entries.setRow n { e with state := .failed .dropped, tag := none } } } →
        (p.gatheringAt i.context i.generation = false → AnswersWithImages (.drop t index) ⟨w, p⟩ (Part.consumed
            { failed with
              svu := { failed.svu with
                entries := p.svu.entries.setRow n
                  { e with
                    state := .failed .dropped
                    tag := none
                    openers := e.openers.map fun o =>
                      if o.isInternalOf i.context then .internal { i with ended := .failed } else o } } }))
          ∧ (p.CanRePlan i.context i.generation x → x.rePlans < 8 →
            (∃ o ∈ e.openers, o.isInternalOf i.context = false) →
            AnswersWithImages (.drop t index) ⟨w, p⟩
              (Part.consumed (failed.rePlanned i.context x (some i.position))))
          ∧ (p.gatheringAt i.context i.generation = true → p.context? i.context = some x → 8 ≤ x.rePlans →
            Leads (.drop t index) ⟨w, p⟩ fun q =>
              Part.abandoned { p with hdt := p.hdt.dropRow position } q i.context x .rePlanLimit))
      ∧ ∀ c x, p.contextOf? t = some (c, x) → (∀ e ∈ p.svu.entries, e.2.stripe ≠ t) →
        (∀ other ∈ p.hdt, other.1 ≠ position → other.2.stripe ≠ t) →
        Leads (.drop t index) ⟨w, p⟩ fun q =>
          q.context? c = none ∧ (∀ d, d ≠ c → q.context? d = p.context? d)
            ∧ (∀ lane ∈ x.reservation, (q.lane lane).holder = none ∧ q.laneUse? lane = none)
            ∧ q.hdt = p.hdt.dropRow position
            ∧ ∀ n e, p.claimOf? t = some (n, e) →
              q.clt = { entries := p.clt.entries.dropRow n, owned := p.clt.owned.filter (· != n) }

/-- STAGED for an outstanding tag: with result 01h the serve entry becomes STAGED, with 02h it becomes FAILED by the
host and stays while it has openers; the tag and the window right it carried end. An internal opener of the entry then
posts the combine request of its next chunk, unless a request of its context is still in the combine queue, or, with 02h,
its context, which gathers, plans again with the local position unusable, or is ABANDONED at the ninth re-plan (R94, R95,
R126, R133, R134, R154, R168; the order of the re-plan's frames and fills is the model's choice, logs 8 and 37). -/
def Obligations.StagedIsTaken : Prop :=
  ∀ (w : List Instr) (p : Part) (tag : Tag) (n : Nat) (e : ServeEntry), p.readerTakes = true →
    p.hlk.phase = .running → tag ∈ p.hlk.stageTags → p.stagingOf? tag = some (n, e) →
    (e.internals = [] →
        Answers (.staged tag 0x01) ⟨w, p⟩ (Part.consumed
            { p.tagEnded tag with
              svu := { p.svu with
                entries := p.svu.entries.setRow n { e with state := .staged, tag := none, lastUse := p.now } } })
          ∧ (e.openers ≠ [] →
            Answers (.staged tag 0x02) ⟨w, p⟩ (Part.consumed
              { p.tagEnded tag with
                svu := { p.svu with
                  entries := p.svu.entries.setRow n { e with state := .failed .hostFailed, tag := none } } }))
          ∧ (e.openers = [] → Leads (.staged tag 0x02) ⟨w, p⟩ fun q => q.svu.entries = p.svu.entries.dropRow n))
      ∧ ∀ i x staged, e.internals = [i] → i.ended = .open_ → p.serve? n = some e → p.svu.entries.rising = true →
        (∀ r ∈ p.svu.entries, r.1 ≠ n → ∀ o ∈ r.2.openers, o.isInternalOf i.context = false) →
        staged = { p.tagEnded tag with
          svu := { p.svu with
            entries := p.svu.entries.setRow n { e with state := .staged, tag := none, lastUse := p.now } } } →
        (i.context ∈ p.svu.combineMarks ∨ chunkCountOf e.length ≤ i.nextChunk →
            Answers (.staged tag 0x01) ⟨w, p⟩ staged.consumed)
          ∧ (i.context ∉ p.svu.combineMarks → i.nextChunk < chunkCountOf e.length →
            Answers (.staged tag 0x01) ⟨w, p⟩ (Part.consumed (Part.postCombine
              { staged with
                svu := { staged.svu with combineMarks := insertPosition i.context p.svu.combineMarks } }
              { context := i.context, generation := i.generation, survivor := 0, chunk := i.nextChunk,
                source := .internal })))
          ∧ (p.CanRePlan i.context i.generation x → x.rePlans < 8 →
            ((∃ o ∈ e.openers, o.isInternalOf i.context = false) →
                Answers (.staged tag 0x02) ⟨w, p⟩ (Part.consumed (Part.rePlanned
                  { p.tagEnded tag with
                    svu := { p.svu with
                      entries := p.svu.entries.setRow n { e with state := .failed .hostFailed, tag := none } } }
                  i.context x (some i.position))))
              ∧ ((∀ o ∈ e.openers, o.isInternalOf i.context = true) → Leads (.staged tag 0x02) ⟨w, p⟩ fun q =>
                q.svu.entries = p.svu.entries.dropRow n
                  ∧ q.ctx = (p.rePlanned i.context x (some i.position)).ctx
                  ∧ q.plu = (p.rePlanned i.context x (some i.position)).plu
                  ∧ q.sgp = (p.rePlanned i.context x (some i.position)).sgp))
          ∧ (p.gatheringAt i.context i.generation = true → p.context? i.context = some x → 8 ≤ x.rePlans →
            p.hdt.rising = true → Leads (.staged tag 0x02) ⟨w, p⟩ fun q => p.abandoned q i.context x .rePlanLimit)

/-- STORED takes a fragment that the context in DELIVERING has asked the host to store. With result 01h its position is
DELIVERED, its placement entry becomes this station in every record of the stripe, and a record of it is inserted where
none exists, or, where no position of the table is empty, HOLDINGS-FULL is posted; with 02h it is FAILED. While another
position is still to be answered nothing else changes but the tag and its window right. The last answer ends the
context: with outcome DONE where all are DELIVERED, WITHDRAW(DONE) naming them, the stripe QUIET and then evaluated again;
and with outcome ABANDONED where one is FAILED, the stripe QUIET again, WITHDRAW(ABANDONED) sent and REPAIR-ABANDONED
posted with cause STORE-FAILED; the context and the claim entry are gone (R16, R17, R58, R61, R100 to R102, R154, R168;
that no HOLDINGS-FULL is posted for a key that has a record, also where no position is empty, is the model's choice,
log 31). -/
def Obligations.StoredFragmentsAreTaken : Prop :=
  (∀ (w : List Instr) (p : Part) (tag : Tag) (c : Nat) (x : Context) (e f : LostEntry), p.readerTakes = true →
      p.hlk.phase = .running → tag ∈ p.hlk.storeTags → p.deliveryOf? tag = some (c, x, e) → p.context? c = some x →
      f ∈ x.lostList → f.enabled = true → f.position ≠ e.position →
      (f.delivery = .none_ ∨ f.delivery = .requested) → p.hdt.rising = true →
      (p.holds x.stripe e.position = true →
          AnswersWithImages (.stored tag 0x01) ⟨w, p⟩ (Part.consumed
            { p.tagEnded tag with
              hdt := p.hdt.map (changeStripe x.stripe fun r =>
                { r with placement := r.placement.set e.position p.own })
              ctx := { p.ctx with
                contexts := p.ctx.contexts.editRow c fun y =>
                  { y with lostList := y.lostList.map fun l =>
                      if l.position = e.position then { l with delivery := .delivered } else l } } }))
        ∧ (∀ r0 position, p.holds x.stripe e.position = false → p.firstRecord? x.stripe = some r0 →
          p.hdt.lowestFree? 131072 = some position →
          AnswersWithImages (.stored tag 0x01) ⟨w, p⟩ (Part.consumed
            { p.tagEnded tag with
              hdt := Table.setRow (p.hdt.map (changeStripe x.stripe fun r =>
                  { r with placement := r.placement.set e.position p.own })) position
                { r0 with
                  ownIndex := e.position
                  geometry := x.geometry
                  length := x.length
                  placement := r0.placement.set e.position p.own
                  digests := r0.digests.set e.position e.digest }
              ctx := { p.ctx with
                contexts := p.ctx.contexts.editRow c fun y =>
                  { y with lostList := y.lostList.map fun l =>
                      if l.position = e.position then { l with delivery := .delivered } else l } } }))
        ∧ (∀ r0, p.holds x.stripe e.position = false → p.firstRecord? x.stripe = some r0 →
          p.hdt.lowestFree? 131072 = none →
          AnswersWithImages (.stored tag 0x01) ⟨w, p⟩ (Part.consumed (Part.postReport
            { p.tagEnded tag with
              hdt := p.hdt.map (changeStripe x.stripe fun r =>
                { r with placement := r.placement.set e.position p.own })
              ctx := { p.ctx with
                contexts := p.ctx.contexts.editRow c fun y =>
                  { y with lostList := y.lostList.map fun l =>
                      if l.position = e.position then { l with delivery := .delivered } else l } } }
            (.holdingsFull x.stripe e.position))))
        ∧ Answers (.stored tag 0x02) ⟨w, p⟩ (Part.consumed
          { p.tagEnded tag with
            ctx := { p.ctx with
              contexts := p.ctx.contexts.editRow c fun y =>
                { y with lostList := y.lostList.map fun l =>
                    if l.position = e.position then { l with delivery := .failed } else l } } }))
    ∧ (∀ (w : List Instr) (p : Part) (tag : Tag) (c n : Nat) (x : Context) (e : LostEntry) (claim : ClaimEntry),
        p.readerTakes = true → p.hlk.phase = .running → tag ∈ p.hlk.storeTags → p.deliveryOf? tag = some (c, x, e) →
        p.context? c = some x → p.claimOf? x.stripe = some (n, claim) → x.reservation = [] →
        (∀ f ∈ x.lostList, f.position ≠ e.position → f.enabled = true ∧ f.delivery = .delivered) → e.enabled = true →
        p.holds x.stripe e.position = true → p.hdt.rising = true → p.queueOpen →
        Leads (.stored tag 0x01) ⟨w, p⟩ fun q =>
          q.context? c = none ∧ q.clt = { entries := p.clt.entries.dropRow n, owned := p.clt.owned.filter (· != n) }
            ∧ tag ∉ q.hlk.storeTags
            ∧ ∃ f ∈ q.sgp.control, f.target = none
              ∧ f.body = .withdraw x.stripe 0x01 0xFF (maskOf (x.lostList.map LostEntry.position)))
    ∧ (∀ (w : List Instr) (p posted : Part) (tag : Tag) (c n : Nat) (x : Context) (e : LostEntry) (claim : ClaimEntry)
        (table : Table HoldingRecord), p.readerTakes = true → p.hlk.phase = .running → tag ∈ p.hlk.storeTags →
        p.deliveryOf? tag = some (c, x, e) → p.context? c = some x → p.claimOf? x.stripe = some (n, claim) →
        x.reservation = [] → e.enabled = true → p.hdt.rising = true → p.queueOpen →
        ((p.deliveredTable x e table ∧ posted = p)
          ∨ (p.holds x.stripe e.position = false ∧ p.hdt.lowestFree? 131072 = none
            ∧ (∃ r0, p.firstRecord? x.stripe = some r0)
            ∧ table = p.hdt.map (changeStripe x.stripe fun r => { r with placement := r.placement.set e.position p.own })
            ∧ posted = p.postReport (.holdingsFull x.stripe e.position))) →
        ((∀ f ∈ x.lostList, f.position ≠ e.position →
            (f.enabled = true ∧ f.delivery = .delivered) ∨ (f.enabled = false ∧ f.delivery = .none_)) →
          Leads (.stored tag 0x01) ⟨w, p⟩ fun q =>
            q.context? c = none ∧ (∀ d, d ≠ c → q.context? d = p.context? d)
              ∧ q.clt = { entries := p.clt.entries.dropRow n, owned := p.clt.owned.filter (· != n) }
              ∧ tag ∉ q.hlk.storeTags
              ∧ (∃ f ∈ q.sgp.control, f.target = none ∧ f.body = .withdraw x.stripe 0x01 0xFF
                (maskOf ((x.lostList.filter LostEntry.enabled).map LostEntry.position)))
              ∧ Part.evaluatedTo { posted with hdt := withStanding table x.stripe [] .quiet } x.stripe fun after =>
                q.hdt = after.hdt ∧ q.rq = after.rq ∧ q.scn = after.scn
                  ∧ q.hlk.reportQueue = after.hlk.reportQueue ∧ q.hlk.hostMemory = after.hlk.hostMemory)
          ∧ (posted = p → (∀ f ∈ x.lostList, f.position ≠ e.position → f.enabled = true →
              f.delivery = .delivered ∨ f.delivery = .failed) →
            (∃ f ∈ x.lostList, f.position ≠ e.position ∧ f.enabled = true ∧ f.delivery = .failed) →
            Leads (.stored tag 0x01) ⟨w, p⟩ fun q =>
              q.context? c = none ∧ q.clt = { entries := p.clt.entries.dropRow n, owned := p.clt.owned.filter (· != n) }
                ∧ q.hdt = withStanding table x.stripe [] .quiet
                ∧ tag ∉ q.hlk.storeTags
                ∧ p.reported q (.repairAbandoned .storeFailed x.stripe)
                ∧ ∃ f ∈ q.sgp.control, f.target = none ∧ f.body = .withdraw x.stripe 0x03 0xFF 0))
    ∧ ∀ (w : List Instr) (p : Part) (tag : Tag) (c n : Nat) (x : Context) (e : LostEntry) (claim : ClaimEntry),
      p.readerTakes = true → p.hlk.phase = .running → tag ∈ p.hlk.storeTags → p.deliveryOf? tag = some (c, x, e) →
      p.context? c = some x → p.claimOf? x.stripe = some (n, claim) → x.reservation = [] →
      (∀ f ∈ x.lostList, f.position ≠ e.position → f.enabled = true →
        f.delivery = .delivered ∨ f.delivery = .failed) → e.enabled = true → p.hdt.rising = true → p.queueOpen →
      Leads (.stored tag 0x02) ⟨w, p⟩ fun q =>
        q.context? c = none ∧ q.clt = { entries := p.clt.entries.dropRow n, owned := p.clt.owned.filter (· != n) }
          ∧ q.hdt = withStanding p.hdt x.stripe [] .quiet
          ∧ tag ∉ q.hlk.storeTags
          ∧ p.reported q (.repairAbandoned .storeFailed x.stripe)
          ∧ ∃ f ∈ q.sgp.control, f.target = none ∧ f.body = .withdraw x.stripe 0x03 0xFF 0

/-- SCAN-RELEASE clears the held mark of its rack in the pending set and in the triggers of a HELD pass, which goes on
once no trigger is held; CLEAR-FLAGS clears the named flags, in every state; nothing else changes (R55, R171). -/
def Obligations.ReleasesAndFlags : Prop :=
  ∀ (w : List Instr) (p : Part), p.readerTakes = true →
    (∀ mask : Byte, Answers (.clearFlags mask) ⟨w, p⟩ (Part.consumed
        { p with hlk := { p.hlk with causeFlags := p.hlk.causeFlags &&& ~~~(mask &&& 0x1F#8) } }))
      ∧ ∀ rack : Byte, p.hlk.phase = .running → rack.toNat ≤ 15 →
        (p.scn.pass ≠ .held → Answers (.scanRelease rack) ⟨w, p⟩ (Part.consumed
            { p with scn := { p.scn with pending := p.scn.pending.editRow rack.toNat fun _ => false } }))
          ∧ (p.scn.pass = .held → Answers (.scanRelease rack) ⟨w, p⟩ (Part.consumed
            { p with
              scn := { p.scn with
                pending := p.scn.pending.editRow rack.toNat fun _ => false
                triggers := p.scn.triggers.editRow rack.toNat fun _ => false
                pass := if ∃ r ∈ p.scn.triggers.editRow rack.toNat fun _ => false, r.2 = true then .held
                  else .walking } }))

/-- REQUEUE makes evaluation E of a QUIET or UNRECOVERABLE stripe: no loss leaves it QUIET, 1 to m losses queue it at
the tail of the repair queue, more make it UNRECOVERABLE with a report; a full repair queue refuses it with FULL. The
loss set has the positions whose holder's rack is DOWN (R57, R58, R64; that a refusal with FULL requests no sweep is the
model's choice, log 47). -/
def Obligations.RequeueEvaluates : Prop :=
  (∀ (p : Part) (t : StripeId), (p.lossSet t).Pairwise (· < ·) ∧ ∀ i, i ∈ p.lossSet t ↔
      ∃ station q, (p.placementOf t)[i]? = some station ∧ p.peer? station = some q ∧ p.rackState q.rack = .down)
    ∧ ∀ (w : List Instr) (p : Part) (t : StripeId) (r : HoldingRecord) (loss : Positions), p.readerTakes = true →
      p.hlk.phase = .running → p.firstRecord? t = some r → p.hdt.rising = true → loss = p.lossSet t →
      (loss = [] → r.standing = .quiet → Answers (.requeue t) ⟨w, p⟩ p.consumed)
        ∧ (loss = [] → r.standing = .unrecoverable → AnswersWithImages (.requeue t) ⟨w, p⟩ (Part.consumed
          { p with hdt := p.hdt.map (changeStripe t fun h => { h with lost := [], standing := .quiet }) }))
        ∧ (loss ≠ [] → loss.length ≤ p.parityOf t → r.standing = .quiet ∨ r.standing = .unrecoverable →
          (p.rq.length < 1024 → AnswersWithImages (.requeue t) ⟨w, p⟩ (Part.consumed
            { p with
              hdt := p.hdt.map (changeStripe t fun h => { h with lost := loss, standing := .queued })
              rq := p.rq ++ [t] }))
            ∧ (1024 ≤ p.rq.length → Answers (.requeue t) ⟨w, p⟩ (p.refusedWith .full)))
        ∧ (p.parityOf t < loss.length → r.standing = .quiet → AnswersWithImages (.requeue t) ⟨w, p⟩ (Part.consumed
          (Part.postReport
            { p with hdt := p.hdt.map (changeStripe t fun h => { h with lost := loss, standing := .unrecoverable }) }
            (.unrecoverable t loss))))
        ∧ (p.parityOf t < loss.length → r.standing = .unrecoverable →
          AnswersWithImages (.requeue t) ⟨w, p⟩ (Part.consumed
            { p with hdt := p.hdt.map (changeStripe t fun h => { h with lost := loss, standing := .unrecoverable }) }))

/-! ## The host's accesses -/

/-- The command post index takes a value below a valid ring size and ignores any other; the report consume index takes
a value below the report ring size and ignores any other. In SETUP a ring register takes the value written, and a new ring
size starts that ring's index of the part again from 0; in any other state the write is ignored, as is every write to a
read-only or unnamed offset. After a write of the report consume index, of the report ring base or of the report ring size
the reports that wait move into the ring, in order, while it has places, and where their queue was full and has room
again, the pass that is BLOCKED and the head of the repair queue that waits are told (R61, R63, R163, R164, R169; that an
offset inside a register counts as unnamed is the model's choice, log 36). -/
def Obligations.RegisterWrites : Prop :=
  (∀ (w : List Instr) (p : Part) (value : BitVec 32),
      (ringSizeValid p.hlk.commandSize = true → value.toNat < p.hlk.commandSize.toNat →
          Answers (.commandPostIndexWrite value) ⟨w, p⟩ { p with hlk := { p.hlk with postIndex := value } })
        ∧ (ringSizeValid p.hlk.commandSize = false ∨ p.hlk.commandSize.toNat ≤ value.toNat →
          Answers (.commandPostIndexWrite value) ⟨w, p⟩ p)
        ∧ (p.hlk.reportSize.toNat ≤ value.toNat → Answers (.reportConsumeIndexWrite value) ⟨w, p⟩ p)
        ∧ (value.toNat < p.hlk.reportSize.toNat →
          (p.hlk.reportQueue = [] →
            Answers (.reportConsumeIndexWrite value) ⟨w, p⟩ { p with hlk := { p.hlk with reportConsume := value } })
            ∧ Drains (.reportConsumeIndexWrite value) w p { p with hlk := { p.hlk with reportConsume := value } }))
    ∧ (∀ (w : List Instr) (p : Part) (value : BitVec 64),
        (p.hlk.phase ≠ .setup → ∀ register, Answers (.ringRegisterWrite register value) ⟨w, p⟩ p)
          ∧ (∀ offset : BitVec 32, offset.toNat ∉ [0x000, 0x008, 0x010, 0x018, 0x020, 0x028, 0x02C] →
            Answers (.registerWrite offset value) ⟨w, p⟩ p)
          ∧ ∀ resized, resized = { p with
                hlk := { p.hlk with
                  reportSize := value.truncate 32
                  reportProduce := if value.truncate 32 = p.hlk.reportSize then p.hlk.reportProduce else 0 } } →
            p.hlk.phase = .setup →
            Answers (.ringRegisterWrite .commandBase value) ⟨w, p⟩ { p with hlk := { p.hlk with commandBase := value } }
              ∧ Answers (.ringRegisterWrite .statusAddress value) ⟨w, p⟩
                { p with hlk := { p.hlk with statusAddress := value } }
              ∧ Answers (.ringRegisterWrite .commandSize value) ⟨w, p⟩
                { p with
                  hlk := { p.hlk with
                    commandSize := value.truncate 32
                    commandConsume := if value.truncate 32 = p.hlk.commandSize then p.hlk.commandConsume else 0 } }
              ∧ (p.hlk.reportQueue = [] →
                Answers (.ringRegisterWrite .reportBase value) ⟨w, p⟩ { p with hlk := { p.hlk with reportBase := value } }
                  ∧ Answers (.ringRegisterWrite .reportSize value) ⟨w, p⟩ resized)
              ∧ Drains (.ringRegisterWrite .reportBase value) w p { p with hlk := { p.hlk with reportBase := value } }
              ∧ Drains (.ringRegisterWrite .reportSize value) w p resized)

/-- The staging memory window: an access within the holdings region (read only) or within one slot of the right for it
is made; any other is answered with zeros or discarded whole, and sets ACCESS. During initialization every access is
such (R154). -/
def Obligations.WindowAccesses : Prop :=
  ∀ (w : List Instr) (p : Part) (offset length : Nat) (data : List Byte), 1 ≤ length → data ≠ [] →
    (p.hlk.phase ≠ .initializing →
        (offset + length ≤ 32 * 1048576
          ∨ ∃ j r tag, (j, r) ∈ p.smc.slots ∧ r.right = .read tag ∧ (32 + j) * 1048576 ≤ offset
            ∧ offset + length ≤ (33 + j) * 1048576) →
        Answers (.windowRead offset length) ⟨w, p⟩
          { p with hlk := { p.hlk with windowData := (List.range length).map fun i => p.smc.dram.byte (offset + i) } })
      ∧ (p.hlk.phase = .initializing
          ∨ (32 * 1048576 < offset + length ∧ ∀ j r tag, (j, r) ∈ p.smc.slots → r.right = .read tag →
            offset < (32 + j) * 1048576 ∨ (33 + j) * 1048576 < offset + length) →
        Answers (.windowRead offset length) ⟨w, p⟩
          (Part.flagged { p with hlk := { p.hlk with windowData := List.replicate length 0 } } .access))
      ∧ (p.hlk.phase ≠ .initializing →
        (∃ j r tag, (j, r) ∈ p.smc.slots ∧ r.right = .write tag ∧ (32 + j) * 1048576 ≤ offset
          ∧ offset + data.length ≤ (33 + j) * 1048576) →
        Leads (.windowWrite offset data) ⟨w, p⟩ fun q =>
          p.smc.dram.wrote q.smc.dram offset data ∧ (q.setDram p.smc.dram).unmarked = p.unmarked)
      ∧ (p.hlk.phase = .initializing
          ∨ (∀ j r tag, (j, r) ∈ p.smc.slots → r.right = .write tag →
            offset < (32 + j) * 1048576 ∨ (33 + j) * 1048576 < offset + data.length) →
        Answers (.windowWrite offset data) ⟨w, p⟩ (p.flagged .access))

/-- A marked status block with a valid address is written whole to host memory under the next update count, which stands in
its first and its last four bytes; the mark is cleared and nothing else changes. Unmarked, or without a valid address, it is
not written. Read by its table, the block says what the part holds: its state, warning, epoch, DRAM size and positions, the
seven counts, the configuration in force or zeros, the drop counts, and the state of each rack and station, and has zero in
every byte that the table does not name (R161, R170; that a station which is no member shows, after the state 00h of the
table, the status 00h and the load FFh is the model's reading, log 11, and that the load of the own station reads as absent
its choice, log 32, and so are that a load above 32 is shown as it was recorded, log 33, that a new address alone marks
nothing, log 54, and what a block at the last addresses does, log 21). -/
def Obligations.StatusBlockIsWritten : Prop :=
  ∀ (w : List Instr) (p : Part),
    (p.hlk.statusMarked = false ∨ statusAddressValid p.hlk.statusAddress = false →
        exec .statusBlockRewrite ⟨w, p⟩ = .next ⟨w, p⟩)
      ∧ (p.hlk.statusMarked = true → statusAddressValid p.hlk.statusAddress = true → p.sgp.drops.length = 10 →
        p.prs.racks.length ≤ 16 →
        Leads .statusBlockRewrite ⟨w, p⟩ fun q =>
          q = { p with
            hlk := { p.hlk with
              hostMemory := q.hlk.hostMemory
              updateCount := p.hlk.updateCount + 1
              statusMarked := false } }
            ∧ (∀ a, a < p.hlk.statusAddress.toNat ∨ p.hlk.statusAddress.toNat + 576 ≤ a →
              q.hlk.hostMemory.row? a = p.hlk.hostMemory.row? a)
            ∧ (∀ k, k < 576 → q.hlk.hostMemory.row? (p.hlk.statusAddress.toNat + k)
              = (p.statusBytes (p.hlk.updateCount + 1))[k]?)
            ∧ (∀ k, k < 4 → (p.statusBytes (p.hlk.updateCount + 1))[k]?
                = (leBytes 4 (p.hlk.updateCount + 1).toNat)[k]?
              ∧ (p.statusBytes (p.hlk.updateCount + 1))[572 + k]?
                = (leBytes 4 (p.hlk.updateCount + 1).toNat)[k]?)
            ∧ (p.statusBytes (p.hlk.updateCount + 1))[4]? = some p.hlk.phase.code
            ∧ (p.CountsFit →
              p.StatusReadBack (p.hlk.updateCount + 1) (p.statusBytes (p.hlk.updateCount + 1))))

/-! ## The roster -/

/-- An expiry of the liveness timer: the next one a beacon period later, a BEACON, the counts, the stations that become
SILENT, and the suspect counts, of which one that reaches 0 returns its rack to UP. No station is due to become LOST here,
and no rack to go DOWN (R37, R39, R40, R46). That the clock moves to the moment that was due, where it is not past it, is
the model's choice (log 2), and so is that a BEACON joins the queue ahead of the frames still held (log 56). -/
def Obligations.LivenessCheck : Prop :=
  ∀ (w : List Instr) (p : Part) (lanesFirst : Bool) (due : Nat), p.onSegment = true → p.prs.livenessDue = some due →
    p.prs.peers.rising = true → p.prs.racks.rising = true → (∀ r ∈ p.prs.peers, ¬ p.dueLost r.2) →
    (∀ r ∈ p.prs.racks, r.2.state ≠ .down → p.allLost r.2 = false) →
    Answers (.livenessTimerExpiry lanesFirst) ⟨w, p⟩ (p.quietlyChecked due)

/-- The transitions that a liveness check makes of a PRESENT station to SILENT and of a SUSPECT rack to UP. The row that
names one is the check that makes it, with all that this check does, and does nothing where the check would not make it: a
PRESENT station becomes SILENT when its new missed count is at least S, and a SUSPECT rack, here in a check in which no
station becomes LOST, UP when its suspect count reaches 0. A RACKDOWN makes an UP rack with members, not the own one,
SUSPECT for L checks; nothing else changes there, or where the condition fails (R39, R40, R45, R46; that a row stands for
its whole check is the model's choice, log 6, that the lanes of a LOST station report first in it, log 7, and that the clock
moves to the moment that was due, where it is not past it, log 2, and that a BEACON joins the queue ahead of the frames
still held, log 56). -/
def Obligations.SilenceAndSuspicion : Prop :=
  ∀ (w : List Instr) (p : Part),
    (∀ station q, p.peer? station = some q →
        (q.state = .present → p.shortCount ≤ q.missedNext →
          exec (.peerSilent station) ⟨w, p⟩ = exec (.livenessTimerExpiry true) ⟨w, p⟩
            ∧ ∀ due, p.onSegment = true → p.prs.livenessDue = some due → p.prs.peers.rising = true →
              p.prs.racks.rising = true → (∀ r ∈ p.prs.peers, ¬ p.dueLost r.2) →
              (∀ r ∈ p.prs.racks, r.2.state ≠ .down → p.allLost r.2 = false) →
              Answers (.peerSilent station) ⟨w, p⟩ (p.quietlyChecked due))
          ∧ (q.state ≠ .present ∨ q.missedNext < p.shortCount →
            Answers (.peerSilent station) ⟨w, p⟩ p))
      ∧ (∀ rack r, p.prs.racks.row? rack = some r →
        (r.state ≠ .suspect ∨ p.prs.livenessDue = none →
            Answers (.suspectCountExpiry rack) ⟨w, p⟩ p)
          ∧ ∀ due, r.state = .suspect → p.onSegment = true → p.prs.livenessDue = some due →
            p.prs.peers.rising = true → p.prs.racks.rising = true → (∀ q ∈ p.prs.peers, ¬ p.dueLost q.2) →
            (∀ r ∈ p.prs.racks, r.2.state ≠ .down → p.allLost r.2 = false) →
            (r.suspectCount ≤ 1 → Answers (.suspectCountExpiry rack) ⟨w, p⟩ (p.quietlyChecked due))
              ∧ (1 < r.suspectCount → Answers (.suspectCountExpiry rack) ⟨w, p⟩ p))
      ∧ ∀ (h : FrameHeader) (rack : Byte) (r : Rack), p.broadcastFromPeer h → rack.toNat ≤ 15 →
        p.prs.racks.row? rack.toNat = some r →
        (r.state = .up → r.members ≠ [] → p.own ∉ r.members →
          Answers (.rackdown h rack) ⟨w, p⟩
            { p with
              prs := { p.prs with
                racks := p.prs.racks.editRow rack.toNat fun r =>
                  { r with state := .suspect, suspectCount := p.longCount } } })
          ∧ (r.state ≠ .up ∨ r.members = [] ∨ p.own ∈ r.members → Answers (.rackdown h rack) ⟨w, p⟩ p)

/-- The liveness check that takes a SILENT or ABSENT station to LOST, its new missed count being at least the long count in
force, as the row that names the station; the row does nothing where the check would not take it there. The check does all
that a check does, and requests a sweep. The rack of the station goes DOWN when its other members are LOST too: RACKDOWN is
broadcast, the rack is pending, held under the release hold, and RACK is set. No other station is due to become LOST here;
first, no other rack goes DOWN and nothing else depends on the station. Its lanes are FAILED with SERVER-LOST at once, said
alone for contexts that do not gather under their generation, and nothing is sent to it. What depends on it is told in the
same check: a claim entry YIELDED to it is CONTENDING again with its CLAIM and a fresh hold-off; a context with a survivor
there, which plans with a plan or gathers, is planned again, its lanes IDLE and no position unusable; every other lane of it
is FAILED; its openers are gone (R39, R40, R43, R47, R52, R76, R94, R95, R118, R120, R130). The model's choices: a row
stands for its whole check (log 6), the clock is at the moment that was due (log 2), and RACKDOWN stands behind the BEACON
of the same event, whose order no rule gives (log 8, log 43), a BEACON joins the queue ahead of the frames still held (log
56), and no stripe is evaluated when the rack goes DOWN, whose records and claim entries stay as they were (log 50). -/
def Obligations.StationsAreLost : Prop :=
  (∀ (w : List Instr) (p : Part) (station : Nat) (lanesFirst : Bool) (q : Peer), p.peer? station = some q →
      (p.dueLost q →
          exec (.peerLost station lanesFirst) ⟨w, p⟩ = exec (.livenessTimerExpiry lanesFirst) ⟨w, p⟩)
        ∧ (¬ p.dueLost q → Answers (.peerLost station lanesFirst) ⟨w, p⟩ p))
    ∧ (∀ (w : List Instr) (p c : Part) (station : Nat) (lanesFirst : Bool) (q : Peer) (rack : Rack) (due : Nat),
        p.onSegment = true → p.prs.livenessDue = some due → p.prs.peers.rising = true → p.prs.racks.rising = true →
        p.peer? station = some q → p.dueLost q → (∀ r ∈ p.prs.peers, r.1 ≠ station → ¬ p.dueLost r.2) →
        p.independentOf station → p.prs.racks.row? q.rack = some rack → p.othersStand station q.rack →
        c = p.quietlyChecked due →
        (rack.state = .down ∨ (∃ other ∈ rack.members, other ≠ station ∧ p.peerState? other ≠ some .lost) →
            Answers (.peerLost station lanesFirst) ⟨w, p⟩
              { c with
                prs := { c.prs with peers := c.prs.peers.editRow station fun r => { r with state := .lost } }
                scn := { c.scn with sweepRequest := true } })
          ∧ (rack.state ≠ .down → station ∈ rack.members →
            (∀ other ∈ rack.members, other ≠ station → p.peerState? other = some .lost) → p.queueOpen →
            Answers (.peerLost station lanesFirst) ⟨w, p⟩ (Part.flagged (Part.queued
              { c with
                prs := { c.prs with
                  peers := c.prs.peers.editRow station fun r => { r with state := .lost }
                  racks := c.prs.racks.editRow q.rack fun r => { r with state := .down, suspectCount := 0 } }
                scn := { c.scn with
                  sweepRequest := true
                  pending := p.scn.pending.setRow q.rack
                    (if p.releaseHold then true else (p.scn.pending.row? q.rack).getD false) } }
              none (.rackdown (BitVec.ofNat 8 q.rack))) .rack)))
    ∧ (∀ (p : Part) (station : Nat) (lanesFirst : Bool), p.ftu.rising = true →
      ((∀ r ∈ p.ctx.contexts, ∀ v ∈ r.2.survivors.getD [], v.holder ≠ station) →
          (∀ n u, p.laneUse? n = some u → u.active = true → u.server = station →
            p.gatheringAt u.context u.generation = false
              ∧ ∀ f ∈ p.sgp.control ++ p.sgp.hold, f.body.isRequestOf n = false) →
          p.lanesAndContextsPeerLost station lanesFirst =
            { p with
              ftu := p.ftu.map fun r =>
                (r.1,
                  { r.2 with
                    use := r.2.use.map fun u =>
                      if u.active = true ∧ u.server = station then
                        { u with state := .failed .serverLost, bank0 := .empty, bank1 := .empty }
                      else u }) })
        ∧ ∀ f ∈ (p.lanesAndContextsPeerLost station lanesFirst).sgp.control
            ++ (p.lanesAndContextsPeerLost station lanesFirst).sgp.hold,
          f ∈ p.sgp.control ++ p.sgp.hold ∨ f.target ≠ some station)
    ∧ ∀ (w : List Instr) (p : Part) (station : Nat) (lanesFirst : Bool) (lost : Peer) (due : Nat),
      p.onSegment = true → p.prs.livenessDue = some due → p.prs.peers.rising = true → p.prs.racks.rising = true →
      p.peer? station = some lost → p.dueLost lost → (∀ r ∈ p.prs.peers, r.1 ≠ station → ¬ p.dueLost r.2) →
      p.ctx.contexts.rising = true → p.clt.entries.rising = true → p.svu.entries.rising = true → p.ftu.rising = true →
      (∀ r ∈ p.ctx.contexts, r.2.state = .planning ∨ r.2.state = .gathering → r.2.rePlans < 8) →
      Leads (.peerLost station lanesFirst) ⟨w, p⟩ fun q =>
        q.peerState? station = some .lost ∧ q.scn.sweepRequest = true ∧ q.hdt = p.hdt
          ∧ q.clt = { p.clt with
            entries := p.clt.entries.map fun r =>
              if r.2.yieldedTo station then
                (r.1, { r.2 with state := .contending (max p.now due + p.claimHoldOff) })
              else r }
          ∧ (((p.yieldsTo station).map fun r => r.2.stripe).Nodup → p.roomFor (p.yieldsTo station).length →
            ∀ r ∈ p.yieldsTo station,
              { target := none, epoch := p.prs.ownEpoch, body := .claim r.2.stripe r.2.rank 0x00 (maskOf r.2.lost) }
                ∈ q.sgp.control)
          ∧ (∀ n u, p.laneUse? n = some u → u.active = true → u.server = station →
            q.laneUse? n = none
              ∨ q.laneUse? n = some { u with state := .failed .serverLost, bank0 := .empty, bank1 := .empty })
          ∧ (∀ r ∈ q.svu.entries, ∀ o ∈ r.2.openers, o.isRemoteOf station = false)
          ∧ (∀ n e o other, p.serve? n = some e → o ∈ e.openers → other ≠ station → o.isRemoteOf other = true →
            ∃ e', q.serve? n = some e' ∧ o ∈ e'.openers)
          ∧ ∀ c x, p.context? c = some x → x.pendingOutcome = none →
            (x.state = .gathering ∨ (x.state = .planning ∧ x.plan.isSome = true)) →
            (∃ v ∈ x.survivors.getD [], v.holder = station) →
            q.generation c = p.generation c + 1 ∧ c ∈ q.plu.queue
              ∧ (∀ lane ∈ x.reservation, q.laneUse? lane = none)
              ∧ ∃ y, q.context? c = some y ∧ y.state = .planning ∧ y.survivors = none ∧ y.plan = none
                ∧ y.contributions = List.replicate x.chunkCount [] ∧ y.chunksComplete = 0 ∧ y.deadline = .absent
                ∧ y.rePlans = x.rePlans + 1 ∧ y.unusable = x.unusable ∧ y.reservation = x.reservation

/-- A BEACON of a member, by the state of its record. It is heard, with its status and load. A PRESENT one under its
recorded epoch changes nothing more; an ABSENT, LOST or SILENT one becomes PRESENT, and every context of PLAN-WAIT
plans again, in ascending context number (that order is the model's choice, log 8); a LOST one's DOWN rack returns to UP,
pending and not held, with RACK set, and a HELD pass whose triggers hold no rack any more goes on; one under a new epoch,
PRESENT or SILENT, is a restart, which requests a sweep and records the epoch and the address. At a restart a claim entry
YIELDED to the station is CONTENDING again with its CLAIM and a fresh hold-off, its lanes re-open, here none at its
re-open limit, and its openers of another epoch are gone (R38, R40, R41, R44, R47, R52, R55, R76, R91, R119, R130; that a
contexts byte above 32 is recorded as it is, is the model's choice, log 33, and so is the order of the frames of a
restart, log 8). One whose rack byte is not the configured rack of its sender is dropped and counted (R38). Where a lane that
fetches from a restarted station has re-opened twice, here the one lane that does and nothing else that hears of the restart,
it is FAILED with its RELEASE, and its context, where that gathers under its generation, plans again with the survivor's
position unusable, or is ABANDONED at the ninth re-plan (R118, R119; the order of that re-plan's frames and fills is the
model's choice, logs 8 and 37). -/
def Obligations.BeaconsAreTaken : Prop :=
  ∀ (w : List Instr) (p : Part) (h : FrameHeader) (rack status contexts : Byte) (before : Peer) (said : PeerStatus),
    p.onSegment = true → p.takesFrame h.destination h.etherType = true → h.sender.toNat ≠ p.own → h.target = 0xFF#8 →
    p.peer? h.sender.toNat = some before → rack.toNat = before.rack → before.rack ≤ 15 → status = said.code → p.ctx.contexts.rising = true →
    (before.state = .present → before.epoch = some h.epoch →
        Answers (.beacon h rack status contexts) ⟨w, p⟩
          { p with
            prs := { p.prs with
              peers := p.prs.peers.editRow h.sender.toNat fun r =>
                { r with heard := true, status := some said, load := some contexts.toNat } } })
      ∧ (before.state = .present → before.epoch ≠ some h.epoch → p.independentOf h.sender.toNat →
        Answers (.beacon h rack status contexts) ⟨w, p⟩
          { p with
            scn := { p.scn with sweepRequest := true }
            prs := { p.prs with
              peers := p.prs.peers.editRow h.sender.toNat fun r =>
                { r with heard := true, status := some said, load := some contexts.toNat, epoch := some h.epoch,
                         link := some h.source } } })
      ∧ (p.CanRestart h.sender.toNat h.epoch → before.epoch ≠ some h.epoch →
        (before.state = .present → Answers (.beacon h rack status contexts) ⟨w, p⟩ (Part.restarted
            { p with
              prs := { p.prs with
                peers := p.prs.peers.editRow h.sender.toNat fun r =>
                  { r with heard := true, status := some said, load := some contexts.toNat, epoch := some h.epoch,
                           link := some h.source } } }
            h.sender.toNat h.epoch))
          ∧ (before.state = .silent → Answers (.beacon h rack status contexts) ⟨w, p⟩ (Part.planningAgain (Part.restarted
            { p with
              prs := { p.prs with
                peers := p.prs.peers.editRow h.sender.toNat fun r =>
                  { r with heard := true, status := some said, load := some contexts.toNat, missed := 0,
                           state := .present, epoch := some h.epoch, link := some h.source } } }
            h.sender.toNat h.epoch))))
      ∧ (before.state = .silent → before.epoch = some h.epoch →
        Answers (.beacon h rack status contexts) ⟨w, p⟩ (Part.planningAgain
          { p with
            prs := { p.prs with
              peers := p.prs.peers.editRow h.sender.toNat fun r =>
                { r with heard := true, status := some said, load := some contexts.toNat, missed := 0,
                         state := .present } } }))
      ∧ (before.state = .silent → before.epoch ≠ some h.epoch → p.independentOf h.sender.toNat →
        Answers (.beacon h rack status contexts) ⟨w, p⟩ (Part.planningAgain
          { p with
            scn := { p.scn with sweepRequest := true }
            prs := { p.prs with
              peers := p.prs.peers.editRow h.sender.toNat fun r =>
                { r with heard := true, status := some said, load := some contexts.toNat, missed := 0,
                         state := .present, epoch := some h.epoch, link := some h.source } } }))
      ∧ ((before.state = .absent ∨ (before.state = .lost ∧ p.rackState before.rack ≠ .down)) →
        Answers (.beacon h rack status contexts) ⟨w, p⟩ (Part.planningAgain
          { p with
            prs := { p.prs with
              peers := p.prs.peers.editRow h.sender.toNat fun r =>
                { r with heard := true, status := some said, load := some contexts.toNat, missed := 0,
                         state := .present, epoch := some h.epoch, link := some h.source } } }))
      ∧ (before.state = .lost → p.rackState before.rack = .down →
        (p.scn.pass ≠ .held →
            Answers (.beacon h rack status contexts) ⟨w, p⟩ (Part.flagged (Part.planningAgain
              { p with
                scn := { p.scn with pending := p.scn.pending.setRow before.rack false }
                prs := { p.prs with
                  racks := p.prs.racks.editRow before.rack fun r => { r with state := .up }
                  peers := p.prs.peers.editRow h.sender.toNat fun r =>
                    { r with heard := true, status := some said, load := some contexts.toNat, missed := 0,
                             state := .present, epoch := some h.epoch, link := some h.source } } }) .rack))
          ∧ (p.scn.pass = .held →
            Answers (.beacon h rack status contexts) ⟨w, p⟩ (Part.flagged (Part.planningAgain
              { p with
                scn := { p.scn with
                  pending := p.scn.pending.setRow before.rack false
                  triggers := p.scn.triggers.editRow before.rack fun _ => false
                  pass := if ∃ r ∈ p.scn.triggers.editRow before.rack fun _ => false, r.2 = true then .held
                    else .walking }
                prs := { p.prs with
                  racks := p.prs.racks.editRow before.rack fun r => { r with state := .up }
                  peers := p.prs.peers.editRow h.sender.toNat fun r =>
                    { r with heard := true, status := some said, load := some contexts.toNat, missed := 0,
                             state := .present, epoch := some h.epoch, link := some h.source } } }) .rack)))
      ∧ (∀ other : Byte, other.toNat ≠ before.rack →
        Answers (.beacon h other status contexts) ⟨w, p⟩ (p.counted .body))
      ∧ ∀ (n : Nat) (u : LaneUse) (lane : Lane) (missed : Nat) (again : Part → Part) (base : Part),
        before.epoch ≠ some h.epoch →
        (before.state = .present ∧ missed = before.missed ∧ (∀ q, again q = q))
          ∨ (before.state = .silent ∧ missed = 0 ∧ (∀ q, again q = q.planningAgain)) →
        base = { p with
          scn := { p.scn with sweepRequest := true }
          prs := { p.prs with
            peers := p.prs.peers.editRow h.sender.toNat fun r =>
              { r with heard := true, status := some said, load := some contexts.toNat, missed := missed,
                       state := .present, epoch := some h.epoch, link := some h.source } } } →
        p.prs.peers.rising = true → p.ftu.rising = true →
        p.yieldsTo h.sender.toNat = [] → p.lanesFrom h.sender.toNat = [(n, lane)] → lane.use = some u → 2 ≤ u.reOpens →
        (∀ r ∈ p.svu.entries, ∀ o ∈ r.2.openers, o.isStaleRemoteOf h.sender.toNat (some h.epoch) = false) →
        (p.gatheringAt u.context u.generation = false → p.queueOpen →
            Answers (.beacon h rack status contexts) ⟨w, p⟩ (again (base.laneFailed n u .reOpenLimit)))
          ∧ ∀ x, (p.CanRePlan u.context u.generation x → x.rePlans < 8 →
                Answers (.beacon h rack status contexts) ⟨w, p⟩
                  (again ((base.laneFailed n u .reOpenLimit).rePlanned u.context x (some u.position))))
              ∧ (p.gatheringAt u.context u.generation = true → p.context? u.context = some x → 8 ≤ x.rePlans →
                p.hdt.rising = true → Leads (.beacon h rack status contexts) ⟨w, p⟩ fun q =>
                  ∃ r, base.abandoned r u.context x .rePlanLimit ∧ q.unmarked = (again r).unmarked)

/-! ## Frames -/

/-- A frame that arrives outside RUNNING and HALTED is passed by unread, and so is one of another EtherType than the
configured one, or to another destination than broadcast and the own address. Of the rest the receive checks are made in
order, and the first that fails drops the frame and counts it, without any other effect; only the clash with the own station
also sets CLASH. Of payloads that spell no frame, one shorter than the header or of another version counts as VERSION,
and one of an unknown kind as KIND; what is not the part's traffic changes nothing (R155 to R157). -/
def Obligations.ReceiveChecksDropFrames : Prop :=
  (∀ (w : List Instr) (p : Part) (h : FrameHeader) (b : FrameBody),
      (p.onSegment = false ∨ p.takesFrame h.destination h.etherType = false → Answers (b.arrival h) ⟨w, p⟩ p)
        ∧ (p.onSegment = true → p.takesFrame h.destination h.etherType = true →
          (h.sender.toNat = p.own → Answers (b.arrival h) ⟨w, p⟩ ((p.counted .clash).flagged .clash))
            ∧ (h.sender.toNat ≠ p.own →
              (p.peer? h.sender.toNat = none → Answers (b.arrival h) ⟨w, p⟩ (p.counted .sender))
                ∧ ∀ q, p.peer? h.sender.toNat = some q →
                  (h.target ≠ (if b.code.toNat ≤ 4 then 0xFF#8 else BitVec.ofNat 8 p.own) →
                      Answers (b.arrival h) ⟨w, p⟩ (p.counted .target))
                    ∧ (h.target = (if b.code.toNat ≤ 4 then 0xFF#8 else BitVec.ofNat 8 p.own) →
                      (b.lengthOk = false → Answers (b.arrival h) ⟨w, p⟩ (p.counted .length))
                        ∧ (b.lengthOk = true → b.code ≠ 0x01 → q.state = .absent ∨ q.state = .lost →
                          Answers (b.arrival h) ⟨w, p⟩ (p.counted .unheard))
                        ∧ (b.lengthOk = true → b.code ≠ 0x01 → q.state = .present ∨ q.state = .silent →
                          q.epoch ≠ some h.epoch → Answers (b.arrival h) ⟨w, p⟩ (p.counted .epoch))
                        ∧ (b.lengthOk = true → b.valid = false →
                          (b.code = 0x01
                            ∨ ((q.state = .present ∨ q.state = .silent) ∧ q.epoch = some h.epoch)) →
                          Answers (b.arrival h) ⟨w, p⟩ (p.counted .body))))))
    ∧ (∀ (w : List Instr) (p : Part) (f : WireFrame),
        (p.onSegment = false ∨ p.takesFrame f.destination f.etherType = false → Answers (.frameDrop f) ⟨w, p⟩ p)
          ∧ (p.onSegment = true → p.takesFrame f.destination f.etherType = true →
            (f.payload.length < 16 ∨ byteAt f.payload 0 ≠ 0x01 ∨ bytesAt f.payload 6 2 ≠ [0, 0]
                ∨ bytesAt f.payload 10 6 ≠ [0, 0, 0, 0, 0, 0] →
              Answers (.frameDrop f) ⟨w, p⟩ (p.counted .version))
              ∧ (16 ≤ f.payload.length → byteAt f.payload 0 = 0x01 → bytesAt f.payload 6 2 = [0, 0] →
                bytesAt f.payload 10 6 = [0, 0, 0, 0, 0, 0] →
                (byteAt f.payload 1 = 0 ∨ 0x0B < (byteAt f.payload 1).toNat) →
                Answers (.frameDrop f) ⟨w, p⟩ (p.counted .kind))))

/-- The head frame is transmitted, control before data: it leaves its queue and stands on the wire as its layout says.
The reply timeout of an OPEN or a PULL starts then; the bytes of a CHUNK are read from its slot then, and the slot has
one queued chunk less. The oldest held frame enters the control queue, and the held CHUNK the data queue, when that
has a place, and not before (R108, R112, R127, R155, R158, R159; that the destination is the link address known at the
transmission, not at the posting, is the model's choice, log 40). -/
def Obligations.FramesLeaveTheirQueues : Prop :=
  (∀ (w : List Instr) (p : Part), p.onSegment = true →
      (p.sgp.control = [] → p.sgp.data = [] → Answers .frameTransmit ⟨w, p⟩ p)
        ∧ (∀ f rest, p.sgp.control = f :: rest →
          ((∀ tag, (∀ stripe position, f.body ≠ .fetchOpen stripe position tag) ∧ ∀ c, f.body ≠ .pull tag c) →
            Answers .frameTransmit ⟨w, p⟩ (Part.transmit { p with sgp := { p.sgp with control := rest } }
              f.target f.epoch f.body))
            ∧ (∀ stripe position tag n u, f.body = .fetchOpen stripe position tag → laneOfTag tag = n →
              fetchTag n (p.lane n).useCount = tag → p.laneUse? n = some u → (∃ old, u.state = .opening old) →
              Answers .frameTransmit ⟨w, p⟩ ((Part.transmit { p with sgp := { p.sgp with control := rest } }
                f.target f.epoch f.body).setUse n
                { u with openSent := true, state := .opening (some (p.now + p.replyTimeout)) }))
            ∧ ∀ tag c n u tries old, f.body = .pull tag c → laneOfTag tag = n →
              fetchTag n (p.lane n).useCount = tag → p.laneUse? n = some u →
              u.bankOf c.toNat = .requested c.toNat tries old →
              Answers .frameTransmit ⟨w, p⟩ ((Part.transmit { p with sgp := { p.sgp with control := rest } }
                f.target f.epoch f.body).setUse n (u.setBank c.toNat (.requested c.toNat tries (some p.now)))))
        ∧ ∀ f rest r, p.sgp.control = [] → p.sgp.data = f :: rest → p.slot? f.slot = some r → r.owner ≠ none →
          Answers .frameTransmit ⟨w, p⟩ ((Part.transmit { p with sgp := { p.sgp with data := rest } } (some f.target)
            f.epoch (.chunk f.tag (BitVec.ofNat 8 f.chunk)
              ((List.range f.length).map fun i =>
                p.smc.dram.byte ((32 + f.slot) * 1048576 + f.chunk * 8192 + i)))).editSlot f.slot
            fun r => { r with queuedChunks := r.queuedChunks - 1 }))
    ∧ (∀ (w : List Instr) (p : Part),
        (∀ f rest, p.sgp.hold = f :: rest →
            (p.controlPlace = true → Answers .heldFrameQueued ⟨w, p⟩
              { p with sgp := { p.sgp with control := p.sgp.control ++ [f], hold := rest } })
              ∧ (p.controlPlace = false → Answers .heldFrameQueued ⟨w, p⟩ p))
          ∧ ∀ f, p.svu.holdPlace = some f →
            (p.sgp.data.length < 32 → Answers .serveHoldChunkQueued ⟨w, p⟩
              { p with svu := { p.svu with holdPlace := none }, sgp := { p.sgp with data := p.sgp.data ++ [f] } })
              ∧ (32 ≤ p.sgp.data.length → Answers .serveHoldChunkQueued ⟨w, p⟩ p))

/-! ## The scanner and the repair queue -/

/-- An expiry of the sweep timer requests a sweep, and the next one is a sweep interval on. A pass starts from IDLE in
RUNNING when a rack is pending or a sweep requested: both become its triggers, the cursor goes to 0, and it is HELD
while a trigger is held; else nothing happens (R53, R54). That the clock moves to the moment that was due, where it is not
past it, is the model's choice (log 2). -/
def Obligations.SweepsAndPasses : Prop :=
  ∀ (w : List Instr) (p : Part),
    (∀ due, p.scn.sweepDue = some due → Answers .sweepTimerExpiry ⟨w, p⟩
        { p with
          now := max p.now due
          scn := { p.scn with sweepRequest := true, sweepDue := some (due + p.sweepInterval) } })
      ∧ (p.scn.pass = .idle → p.hlk.phase = .running → (p.scn.pending ≠ [] ∨ p.scn.sweepRequest = true) →
        Answers .passStart ⟨w, p⟩
          { p with
            scn := { p.scn with
              pending := []
              sweepRequest := false
              triggers := p.scn.pending
              triggerSweep := p.scn.sweepRequest
              cursor := 0
              met := []
              pass := if ∃ r ∈ p.scn.pending, r.2 = true then .held else .walking } })
      ∧ (p.scn.pass ≠ .idle ∨ p.hlk.phase ≠ .running ∨ (p.scn.pending = [] ∧ p.scn.sweepRequest = false) →
        Answers .passStart ⟨w, p⟩ p)

/-- A visit in RUNNING of a pass that walks, or that is BLOCKED and has been told of a freed place; one that is BLOCKED and
has not been told is not made. An empty position, or one whose stripe was met, is passed over; after the last position the
pass ends. A stripe not yet met is evaluated by its standing and its loss set, and is met then; an evaluation that meets a
full repair queue, or a full report path, leaves the pass BLOCKED at the position and changes nothing else. QUIET and
UNRECOVERABLE stripes of 1 to m losses are queued, and so is a PARKED one whose outside claim is absent, stale, the own
station's or of a station that is gone; more than m losses make the stripe UNRECOVERABLE, with a report unless it was
so; no loss makes it QUIET, and takes a QUEUED one out of the queue. At a CLAIMING stripe, here without a context, a
changed loss set removes the claim entry, with WITHDRAW(UNRECOVERABLE) or WITHDRAW(RETURNED) where it was announced, or
becomes the entry's and the stripe's (R56, R58 to R61, R82). -/
def Obligations.ScanVisits : Prop :=
  ∀ (w : List Instr) (p : Part), p.hlk.phase = .running →
    (p.scn.pass = .blocked → p.scn.placeFreed = false → Answers .scanVisit ⟨w, p⟩ p)
      ∧ ((p.scn.pass = .walking ∨ (p.scn.pass = .blocked ∧ p.scn.placeFreed = true)) →
        ((p.hdt.row? p.scn.cursor = none ∨ ∃ r, p.hdt.row? p.scn.cursor = some r ∧ r.stripe ∈ p.scn.met) →
            Answers .scanVisit ⟨w, p⟩ p.cursorMoved)
          ∧ ∀ (r r0 : HoldingRecord) (t : StripeId) (loss : Positions) (m : Nat) (met : Part → Prop) (stays : Prop),
            p.hdt.row? p.scn.cursor = some r → t = r.stripe → t ∉ p.scn.met → p.firstRecord? t = some r0 →
            loss = p.lossSet t → m = p.parityOf t → p.hdt.rising = true →
            met = (fun q => AnswersWithImages .scanVisit ⟨w, p⟩ (q.visited t)) →
            stays = Answers .scanVisit ⟨w, p⟩ p.blocked →
            ((loss ≠ [] → loss.length ≤ m →
                r0.standing = .quiet ∨ r0.standing = .unrecoverable
                  ∨ (r0.standing = .parked ∧ ∀ o, r0.outside = some o →
                    o.heard + 3 * p.claimRepeat < p.now ∨ o.station = p.own ∨ p.gone o.station = true) →
                (p.rq.length < 1024 → met { p with hdt := withStanding p.hdt t loss .queued, rq := p.rq ++ [t] })
                  ∧ (1024 ≤ p.rq.length → stays))
              ∧ (m < loss.length → r0.standing = .quiet ∨ r0.standing = .parked →
                (p.reportPathFull = false →
                    met (Part.postReport { p with hdt := withStanding p.hdt t loss .unrecoverable }
                      (.unrecoverable t loss)))
                  ∧ (p.reportPathFull = true → stays))
              ∧ (r0.standing = .quiet → loss = [] → met p)
              ∧ (r0.standing = .unrecoverable →
                (loss = [] → met { p with hdt := withStanding p.hdt t [] .quiet })
                  ∧ (m < loss.length → met { p with hdt := withStanding p.hdt t loss .unrecoverable }))
              ∧ (r0.standing = .queued →
                (loss = [] → met { p.leftQueue t with hdt := withStanding p.hdt t [] .quiet })
                  ∧ (loss ≠ [] → loss.length ≤ m → met { p with hdt := withStanding p.hdt t loss .queued })
                  ∧ (m < loss.length →
                    (p.reportPathFull = false →
                        met (Part.postReport { p.leftQueue t with hdt := withStanding p.hdt t loss .unrecoverable }
                          (.unrecoverable t loss)))
                      ∧ (p.reportPathFull = true → stays)))
              ∧ (r0.standing = .parked →
                (loss = [] → met
                    { p with
                      hdt := p.hdt.map (changeStripe t fun h =>
                        { h with lost := [], standing := .quiet, outside := none }) })
                  ∧ ∀ o, loss ≠ [] → loss.length ≤ m → r0.outside = some o → p.now ≤ o.heard + 3 * p.claimRepeat →
                    o.station ≠ p.own → p.gone o.station = false →
                    met { p with hdt := withStanding p.hdt t loss .parked })
              ∧ (r0.standing = .claiming →
                (loss = r0.lost → met p)
                  ∧ ∀ n e removed, loss ≠ r0.lost → p.claimOf? t = some (n, e) → p.contextOf? t = none →
                    p.queueOpen → p.claimWaits t = false →
                    removed = ({ entries := p.clt.entries.dropRow n, owned := p.clt.owned.filter (· != n) } : ClaimTable) →
                    (m < loss.length →
                        (p.reportPathFull = true → stays)
                          ∧ (p.reportPathFull = false →
                            (e.announced = true → met (Part.postReport (Part.queued
                                { p with clt := removed, hdt := withStanding p.hdt t loss .unrecoverable }
                                none (.withdraw t 0x07 0xFF 0)) (.unrecoverable t loss)))
                              ∧ (e.announced = false → met (Part.postReport
                                { p with clt := removed, hdt := withStanding p.hdt t loss .unrecoverable }
                                (.unrecoverable t loss)))))
                      ∧ (loss = [] →
                        (e.announced = true → met (Part.queued
                            { p with clt := removed, hdt := withStanding p.hdt t [] .quiet }
                            none (.withdraw t 0x06 0xFF 0)))
                          ∧ (e.announced = false →
                            met { p with clt := removed, hdt := withStanding p.hdt t [] .quiet }))
                      ∧ (loss ≠ [] → loss.length ≤ m → met
                        { p with
                          clt := { p.clt with entries := p.clt.entries.setRow n { e with lost := loss } }
                          hdt := p.hdt.map (changeStripe t fun h => { h with lost := loss }) }))))

/-- The head of the repair queue is taken into the lowest free claim entry, after evaluation at dequeue, and its place
frees. Without loss the stripe is QUIET; with more than m losses it is UNRECOVERABLE, with a report, and while the report
path is full the head stays, waiting for a report place, and is not taken before one frees. With 1 to m losses it gets an
entry and is CLAIMING: CONTENDING with its rank, its hold-off and CLAIM(unsettled) where there is no outside claim, where
that is stale, the own station's or of a station that is gone, or where it does not precede; and YIELDED to an outside
claim that stands and precedes, silently. Where no entry is free one YIELDED entry is parked first, the one that yielded
earliest and, among equal ones, the lowest: its rival becomes the outside claim of its stripe, which is PARKED. With
none to park the head waits (R61, R63, R66 to R68, R83; that a dequeue which waits requests no sweep is the model's choice,
log 47). -/
def Obligations.DequeuesMakeClaims : Prop :=
  (∀ (w : List Instr) (p : Part), p.hlk.phase = .running →
      (∀ t rest, p.rq = t :: rest → p.rqWait = some t → Answers .dequeue ⟨w, p⟩ p)
        ∧ (p.clt.entries.lowestFree? 256 = none → (∀ r ∈ p.clt.entries, r.2.announced = true) →
          Answers .dequeue ⟨w, p⟩ p))
    ∧ (∀ (w : List Instr) (p : Part) (t : StripeId) (rest : List StripeId) (r : HoldingRecord) (n : Nat)
        (loss : Positions) (rank : Rank),
        p.hlk.phase = .running → p.rq = t :: rest → p.rqWait ≠ some t → p.clt.entries.lowestFree? 256 = some n →
        p.firstRecord? t = some r → p.hdt.rising = true → loss = p.lossSet t →
        rank = claimRank t p.own p.ctx.contexts.length →
        (loss = [] → AnswersWithImages .dequeue ⟨w, p⟩
            { p.headTaken rest with hdt := withStanding p.hdt t [] .quiet })
          ∧ (p.parityOf t < loss.length →
            (p.reportPathFull = false → AnswersWithImages .dequeue ⟨w, p⟩ (Part.postReport
                { p.headTaken rest with hdt := withStanding p.hdt t loss .unrecoverable } (.unrecoverable t loss)))
              ∧ (p.reportPathFull = true → Answers .dequeue ⟨w, p⟩ { p with rqWait := some t }))
          ∧ (loss ≠ [] → loss.length ≤ p.parityOf t → p.queueOpen → p.claimWaits t = false →
            (∀ o, r.outside = some o → o.heard + 3 * p.claimRepeat < p.now ∨ o.station = p.own
              ∨ p.gone o.station = true
              ∨ (o.settled = false ∧ ∃ other, o.rank = some other ∧ rank.toNat ≤ other.toNat)) →
            AnswersWithImages .dequeue ⟨w, p⟩ (Part.queued
              { p.headTaken rest with
                hdt := p.hdt.map (changeStripe t fun h => { h with lost := loss, standing := .claiming, outside := none })
                clt := { p.clt with
                  entries := p.clt.entries.setRow n
                    { stripe := t, lost := loss, rank := rank, state := .contending (p.now + p.claimHoldOff) } } }
              none (.claim t rank 0x00 (maskOf loss))))
          ∧ ∀ o, loss ≠ [] → loss.length ≤ p.parityOf t → r.outside = some o → p.now ≤ o.heard + 3 * p.claimRepeat →
            o.station ≠ p.own → p.gone o.station = false →
            (o.rank = none ∨ o.settled = true ∨ ∃ other, o.rank = some other ∧ other.toNat < rank.toNat) →
            AnswersWithImages .dequeue ⟨w, p⟩
              { p.headTaken rest with
                hdt := p.hdt.map (changeStripe t fun h => { h with lost := loss, standing := .claiming, outside := none })
                clt := { p.clt with
                  entries := p.clt.entries.setRow n
                    { stripe := t, lost := loss, rank := rank,
                      state := .yielded o p.now (o.heard + 3 * p.claimRepeat) } } })
    ∧ ∀ (w : List Instr) (p : Part) (t : StripeId) (rest : List StripeId) (r : HoldingRecord) (n since due : Nat)
        (e : ClaimEntry) (rival : HeardClaim) (loss : Positions) (rank : Rank) (parked : Table HoldingRecord),
      p.hlk.phase = .running → p.rq = t :: rest → p.rqWait ≠ some t → p.clt.entries.rising = true →
      p.clt.entries.lowestFree? 256 = none → n ≤ 255 → p.clt.entries.row? n = some e →
      e.state = .yielded rival since due →
      (∀ k f other time timer, p.clt.entries.row? k = some f → f.state = .yielded other time timer →
        since < time ∨ (since = time ∧ n ≤ k)) →
      e.stripe ≠ t → p.firstRecord? t = some r → p.hdt.rising = true → loss = p.lossSet t →
      rank = claimRank t p.own p.ctx.contexts.length →
      parked = p.hdt.map (changeStripe e.stripe fun h =>
        { h with lost := e.lost, standing := .parked, outside := some rival }) →
      (loss = [] → AnswersWithImages .dequeue ⟨w, p⟩
          { p.headTaken rest with
            hdt := withStanding parked t [] .quiet
            clt := { entries := p.clt.entries.dropRow n, owned := p.clt.owned.filter (· != n) } })
        ∧ (p.parityOf t < loss.length → p.reportPathFull = true → AnswersWithImages .dequeue ⟨w, p⟩
          { p with
            rqWait := some t
            hdt := parked
            clt := { entries := p.clt.entries.dropRow n, owned := p.clt.owned.filter (· != n) } })
        ∧ (loss ≠ [] → loss.length ≤ p.parityOf t → r.outside = none → p.queueOpen → p.claimWaits t = false →
          AnswersWithImages .dequeue ⟨w, p⟩ (Part.queued
            { p.headTaken rest with
              hdt := parked.map (changeStripe t fun h => { h with lost := loss, standing := .claiming, outside := none })
              clt := {
                entries := (p.clt.entries.dropRow n).setRow n
                  { stripe := t, lost := loss, rank := rank, state := .contending (p.now + p.claimHoldOff) }
                owned := p.clt.owned.filter (· != n) } }
            none (.claim t rank 0x00 (maskOf loss))))

/-! ## The claim table -/

/-- The rank is load × 65,536 + h, h being the stripe id modulo 65,536 and the own station number times 1,025, by
exclusive-or; the ranks of two stations for one stripe differ whatever their loads. A claim of unknown rank precedes
one of known rank; among known ranks a settled claim precedes an unsettled one, and the lower rank the higher under
the same flag, and nothing else does; so two claims never precede each other, and of two known ranks that differ one
precedes (R66, R67). -/
def Obligations.RanksAndPrecedence : Prop :=
  ((∀ (t : StripeId) (own load : Nat), own ≤ 63 → load ≤ 32 →
        (claimRank t own load).toNat = load * 65536 + (t.toNat % 65536 ^^^ own * 1025))
      ∧ ∀ (t : StripeId) (own other load loadOther : Nat), own ≤ 63 → other ≤ 63 → own ≠ other → load ≤ 32 →
        loadOther ≤ 32 → claimRank t own load ≠ claimRank t other loadOther)
    ∧ ((∀ a b : Contender, a.precedes b = true ↔
          (a.rank = none ∧ ∃ y, b.rank = some y)
            ∨ (∃ x y, a.rank = some x ∧ b.rank = some y ∧ a.settled = true ∧ b.settled = false)
            ∨ ∃ x y, a.rank = some x ∧ b.rank = some y ∧ a.settled = b.settled ∧ x.toNat < y.toNat)
        ∧ (∀ a : Contender, a.precedes a = false)
        ∧ (∀ a b : Contender, a.precedes b = true → b.precedes a = false)
        ∧ ∀ (a b : Contender) (x y : Rank), a.rank = some x → b.rank = some y → x ≠ y →
          a.precedes b = true ∨ b.precedes a = true)

/-- A CLAIM that arrives in HALTED is ignored. One arrives in RUNNING: for a stripe without records it is ignored, and one
whose body does not fit the geometry is dropped and counted. Without a claim entry it becomes the outside claim where there is none, where it
precedes, or where it is of the same station. A CONTENDING entry yields to one that precedes, sending nothing, and
answers any other with its own CLAIM(unsettled), its hold-off running on; a YIELDED entry takes one that precedes, or is
of the same station, as its rival, keeps its time yielded and ignores any other, sending nothing; a rival of unknown rank
is preceded by no claim. A CLAIM that is sent is posted, which ReportsAndFramesArePosted says of any frame (R7, R69 to
R71). -/
def Obligations.ClaimsAreHeard : Prop :=
  (∀ (w : List Instr) (p : Part) (h : FrameHeader) (t : StripeId) (rank : Rank) (flags : Byte) (mask : BitVec 16),
    p.broadcastFromPeer h → p.hlk.phase = .halted → flags.toNat ≤ 3 →
    Answers (.claim h t rank flags mask) ⟨w, p⟩ p)
  ∧ ∀ (w : List Instr) (p : Part) (h : FrameHeader) (t : StripeId) (rank : Rank) (flags : Byte) (mask : BitVec 16)
    (g : Geometry) (arrival : HeardClaim), p.broadcastFromPeer h → p.hlk.phase = .running → flags.toNat ≤ 3 →
    arrival = { station := h.sender.toNat, rank := some rank, settled := flags.getLsbD 0, heard := p.now } →
    (p.geometryOf? t = none → Answers (.claim h t rank flags mask) ⟨w, p⟩ p)
      ∧ (p.geometryOf? t = some g →
        (positionsOf mask = [] ∨ g.m < (positionsOf mask).length ∨ (∃ i ∈ positionsOf mask, g.width ≤ i) ∨ flags = 2 →
          Answers (.claim h t rank flags mask) ⟨w, p⟩ (p.counted .body))
        ∧ (positionsOf mask ≠ [] → (positionsOf mask).length ≤ g.m → (∀ i ∈ positionsOf mask, i < g.width) → flags ≠ 2 →
          (∀ r, p.claimOf? t = none → p.firstRecord? t = some r → p.hdt.rising = true →
            ((∀ o, r.outside = some o → o.station = arrival.station ∨ arrival.contender.precedes o.contender = true) →
                AnswersWithImages (.claim h t rank flags mask) ⟨w, p⟩
                  { p with hdt := p.hdt.map (changeStripe t fun r => { r with outside := some arrival }) })
              ∧ ∀ o, r.outside = some o → o.station ≠ arrival.station →
                arrival.contender.precedes o.contender = false → Answers (.claim h t rank flags mask) ⟨w, p⟩ p)
          ∧ (∀ n e due, p.claimOf? t = some (n, e) → e.state = .contending due →
            (arrival.settled = true ∨ rank.toNat < e.rank.toNat →
                Answers (.claim h t rank flags mask) ⟨w, p⟩
                  { p with
                    clt := {
                      entries := p.clt.entries.setRow n
                        { e with state := .yielded arrival p.now (p.now + 3 * p.claimRepeat) }
                      owned := p.clt.owned.filter (· != n) } })
              ∧ (arrival.settled = false → e.rank.toNat ≤ rank.toNat →
                Answers (.claim h t rank flags mask) ⟨w, p⟩ (p.post none (.claim t e.rank 0x00 (maskOf e.lost)))))
          ∧ ∀ n e rival since due, p.claimOf? t = some (n, e) → e.state = .yielded rival since due →
            (rival.station = arrival.station ∨ arrival.contender.precedes rival.contender = true →
                Answers (.claim h t rank flags mask) ⟨w, p⟩
                  { p with
                    clt := { p.clt with
                      entries := p.clt.entries.setRow n
                        { e with state := .yielded arrival since (p.now + 3 * p.claimRepeat) } } })
              ∧ (rival.station ≠ arrival.station → arrival.contender.precedes rival.contender = false →
                Answers (.claim h t rank flags mask) ⟨w, p⟩ p)
              ∧ (rival.rank = none → arrival.contender.precedes rival.contender = false)))

/-- A CLAIM at an OWNED entry, in RUNNING. A settled claim of lower rank takes the stripe: WITHDRAW(YIELD) names the
winner, the entry leaves the owned list and is YIELDED to it, and the context of the stripe is gone; here it has none,
or the rest of what it releases is left to the statements about outcomes. Any other claim is answered with
CLAIM(settled) (R67, R72, R104). -/
def Obligations.OwnersYieldOrAnswer : Prop :=
  ∀ (w : List Instr) (p : Part) (h : FrameHeader) (t : StripeId) (rank : Rank) (flags : Byte) (mask : BitVec 16)
    (g : Geometry) (n : Nat) (e : ClaimEntry) (due : Nat), p.broadcastFromPeer h → p.hlk.phase = .running →
    (flags = 0 ∨ flags = 1 ∨ flags = 3) → p.geometryOf? t = some g → positionsOf mask ≠ [] →
    (positionsOf mask).length ≤ g.m → (∀ i ∈ positionsOf mask, i < g.width) → p.claimOf? t = some (n, e) →
    e.state = .owned due →
    (flags ≠ 0 → rank.toNat < e.rank.toNat →
        (p.contextOf? t = none → p.queueOpen → p.claimWaits t = false →
          Answers (.claim h t rank flags mask) ⟨w, p⟩ (Part.queued
            { p with
              clt := {
                entries := p.clt.entries.setRow n
                  { e with
                    state := .yielded { station := h.sender.toNat, rank := some rank, settled := true, heard := p.now }
                      p.now (p.now + 3 * p.claimRepeat) }
                owned := p.clt.owned.filter (· != n) } }
            none (.withdraw t 0x02 h.sender 0)))
        ∧ ∀ c x, p.contextOf? t = some (c, x) → Leads (.claim h t rank flags mask) ⟨w, p⟩ fun q =>
          q.context? c = none ∧ n ∉ q.clt.owned
            ∧ q.clt.entries.row? n = some
              { e with
                state := .yielded { station := h.sender.toNat, rank := some rank, settled := true, heard := p.now }
                  p.now (p.now + 3 * p.claimRepeat) })
      ∧ ((flags = 0 ∨ e.rank.toNat ≤ rank.toNat) → p.queueOpen → p.claimWaits t = false →
        Answers (.claim h t rank flags mask) ⟨w, p⟩ (p.queued none (.claim t e.rank 0x01 (maskOf e.lost))))

/-- A WITHDRAW for ABANDONED, HALT or DROPPED (codes 03h to 05h) sends an entry YIELDED to its sender back to
CONTENDING, and clears an outside claim of the sender; one for YIELD makes the named winner the rival, or sends the
entry back to CONTENDING when the winner is this station or gone, and makes the winner the outside claim where that is the
sender's; an entry in any other state, or YIELDED to another station, stays, and so does another station's outside claim;
a YIELD naming its sender or no member is dropped and counted (R7, R79, R80). -/
def Obligations.WithdrawalsGiveUpOrYield : Prop :=
  ∀ (w : List Instr) (p : Part) (h : FrameHeader) (t : StripeId) (reason winner : Byte) (mask : BitVec 16)
    (r : HoldingRecord), p.broadcastFromPeer h → p.hlk.phase = .running → p.firstRecord? t = some r →
    p.hdt.rising = true → p.clt.entries.rising = true →
    ((reason = 3 ∨ reason = 4 ∨ reason = 5) → winner = 0xFF →
        (∀ n e rival since due, p.claimOf? t = some (n, e) → e.state = .yielded rival since due →
          (rival.station = h.sender.toNat → p.queueOpen → p.claimWaits t = false →
              Answers (.withdraw h t reason winner mask) ⟨w, p⟩ (Part.queued
                { p with
                  clt := { p.clt with
                    entries := p.clt.entries.setRow n { e with state := .contending (p.now + p.claimHoldOff) } } }
                none (.claim t e.rank 0x00 (maskOf e.lost))))
            ∧ (rival.station ≠ h.sender.toNat → Answers (.withdraw h t reason winner mask) ⟨w, p⟩ p))
          ∧ (∀ n e, p.claimOf? t = some (n, e) → e.announced = true →
            Answers (.withdraw h t reason winner mask) ⟨w, p⟩ p)
          ∧ ∀ o, p.claimOf? t = none → r.outside = some o →
            (o.station = h.sender.toNat → AnswersWithImages (.withdraw h t reason winner mask) ⟨w, p⟩
              { p with hdt := p.hdt.map (changeStripe t fun r => { r with outside := none }) })
            ∧ (o.station ≠ h.sender.toNat → Answers (.withdraw h t reason winner mask) ⟨w, p⟩ p))
      ∧ (reason = 2 → winner.toNat ≤ 63 →
        ((p.peer? winner.toNat = none ∨ winner = h.sender →
            Answers (.withdraw h t reason winner mask) ⟨w, p⟩ (p.counted .body))
          ∧ (winner ≠ h.sender → (∃ q, p.peer? winner.toNat = some q) →
            (∀ n e rival since due, p.claimOf? t = some (n, e) → e.state = .yielded rival since due →
              (rival.station = h.sender.toNat →
                (winner.toNat ≠ p.own → p.gone winner.toNat = false →
                    Answers (.withdraw h t reason winner mask) ⟨w, p⟩
                      { p with
                        clt := { p.clt with
                          entries := p.clt.entries.setRow n
                            { e with
                              state := .yielded
                                { station := winner.toNat, rank := none, settled := true, heard := p.now }
                                since (p.now + 3 * p.claimRepeat) } } })
                  ∧ (winner.toNat = p.own ∨ p.gone winner.toNat = true → p.queueOpen → p.claimWaits t = false →
                    Answers (.withdraw h t reason winner mask) ⟨w, p⟩ (Part.queued
                      { p with
                        clt := { p.clt with
                          entries := p.clt.entries.setRow n
                            { e with state := .contending (p.now + p.claimHoldOff) } } }
                      none (.claim t e.rank 0x00 (maskOf e.lost)))))
                ∧ (rival.station ≠ h.sender.toNat → Answers (.withdraw h t reason winner mask) ⟨w, p⟩ p))
              ∧ (∀ n e, p.claimOf? t = some (n, e) → e.announced = true →
                Answers (.withdraw h t reason winner mask) ⟨w, p⟩ p)
              ∧ (p.claimOf? t = none →
                (∀ o, r.outside = some o → o.station = h.sender.toNat →
                  AnswersWithImages (.withdraw h t reason winner mask) ⟨w, p⟩
                    { p with
                      hdt := p.hdt.map (changeStripe t fun r =>
                        { r with
                          outside := some
                            { station := winner.toNat, rank := none, settled := true, heard := p.now } }) })
                  ∧ ((∀ o, r.outside = some o → o.station ≠ h.sender.toNat) →
                    Answers (.withdraw h t reason winner mask) ⟨w, p⟩ p)))))

/-- A WITHDRAW(DONE) writes its sender into the placement entries of the rebuilt positions that are below n and not
held here, also while HALTED. In RUNNING an entry YIELDED to the sender is then removed and its stripe QUIET when no loss
is left, goes back to CONTENDING with what is left of 1 to m positions, and makes the stripe UNRECOVERABLE without a frame
beyond that, or requests a sweep while the report path is full; an entry in any other state, here without a context,
stays while the loss set is the same, and a changed one is a loss-changed event. A WITHDRAW for RETURNED or UNRECOVERABLE
(06h, 07h) sends an entry YIELDED to its sender back to CONTENDING with the loss set of 1 to m positions; at any other
entry that set, where it is changed, is a loss-changed event, and an empty set or one beyond m is at every entry, here
without a context. All three make evaluation E of a stripe without claim entry (R15, R57 to R61, R77, R78, R81, R82; that
the evaluation after a WITHDRAW for DONE takes a QUIET stripe with losses as R58 says, where R15 has it stay QUIET, is the
model's choice, log 45). -/
def Obligations.WithdrawalsReportAndJudge : Prop :=
  ∀ (w : List Instr) (p after : Part) (h : FrameHeader) (t : StripeId) (mask : BitVec 16) (r : HoldingRecord)
    (g : Geometry), p.broadcastFromPeer h → p.firstRecord? t = some r → p.geometryOf? t = some g → p.hdt.rising = true →
    after = { p with
      hdt := p.hdt.map (changeStripe t fun x =>
        { x with
          placement := (positionsOf mask).foldl
            (fun placement i => if i < g.width ∧ p.holds t i = false then placement.set i h.sender.toNat else placement)
            x.placement }) } →
    (p.hlk.phase = .halted → AnswersWithImages (.withdraw h t 0x01 0xFF mask) ⟨w, p⟩ after)
      ∧ (∀ n e rival since due, p.hlk.phase = .running → p.claimOf? t = some (n, e) →
        e.state = .yielded rival since due → rival.station = h.sender.toNat → r.standing = .claiming →
        (after.lossSet t = [] → AnswersWithImages (.withdraw h t 0x01 0xFF mask) ⟨w, p⟩
            { after with
              clt := { entries := p.clt.entries.dropRow n, owned := p.clt.owned.filter (· != n) }
              hdt := after.hdt.map (changeStripe t fun x => { x with lost := [], standing := .quiet }) })
          ∧ (after.lossSet t ≠ [] → (after.lossSet t).length ≤ g.m → p.queueOpen → p.claimWaits t = false →
            AnswersWithImages (.withdraw h t 0x01 0xFF mask) ⟨w, p⟩ (Part.queued
              { after with
                clt := { p.clt with
                  entries := p.clt.entries.setRow n
                    { e with lost := after.lossSet t, state := .contending (p.now + p.claimHoldOff) } }
                hdt := after.hdt.map (changeStripe t fun x => { x with lost := after.lossSet t }) }
              none (.claim t e.rank 0x00 (maskOf (after.lossSet t)))))
          ∧ (g.m < (after.lossSet t).length → p.contextOf? t = none →
            (p.reportPathFull = false → AnswersWithImages (.withdraw h t 0x01 0xFF mask) ⟨w, p⟩ (Part.postReport
                { after with
                  clt := { entries := p.clt.entries.dropRow n, owned := p.clt.owned.filter (· != n) }
                  hdt := withStanding after.hdt t (after.lossSet t) .unrecoverable }
                (.unrecoverable t (after.lossSet t))))
              ∧ (p.reportPathFull = true → AnswersWithImages (.withdraw h t 0x01 0xFF mask) ⟨w, p⟩
                { after with scn := { p.scn with sweepRequest := true } }))
          ∧ ∀ reason : Byte, reason = 6 ∨ reason = 7 → p.lossSet t ≠ [] → (p.lossSet t).length ≤ p.parityOf t →
            p.queueOpen → p.claimWaits t = false →
            AnswersWithImages (.withdraw h t reason 0xFF mask) ⟨w, p⟩ (Part.queued
              { p with
                clt := { p.clt with
                  entries := p.clt.entries.setRow n
                    { e with lost := p.lossSet t, state := .contending (p.now + p.claimHoldOff) } }
                hdt := p.hdt.map (changeStripe t fun x => { x with lost := p.lossSet t }) }
              none (.claim t e.rank 0x00 (maskOf (p.lossSet t)))))
      ∧ (∀ n e, p.hlk.phase = .running → p.claimOf? t = some (n, e) → e.yieldedTo h.sender.toNat = false →
        p.contextOf? t = none →
        (after.lossSet t = e.lost → AnswersWithImages (.withdraw h t 0x01 0xFF mask) ⟨w, p⟩ after)
          ∧ (after.lossSet t ≠ e.lost → after.lossSet t ≠ [] → (after.lossSet t).length ≤ g.m →
            AnswersWithImages (.withdraw h t 0x01 0xFF mask) ⟨w, p⟩
              { after with
                clt := { p.clt with entries := p.clt.entries.setRow n { e with lost := after.lossSet t } }
                hdt := after.hdt.map (changeStripe t fun x => { x with lost := after.lossSet t }) })
          ∧ (after.lossSet t ≠ e.lost → after.lossSet t = [] → e.announced = true → p.queueOpen →
            p.claimWaits t = false →
            AnswersWithImages (.withdraw h t 0x01 0xFF mask) ⟨w, p⟩ (Part.queued
              { after with
                clt := { entries := p.clt.entries.dropRow n, owned := p.clt.owned.filter (· != n) }
                hdt := withStanding after.hdt t [] .quiet }
              none (.withdraw t 0x06 0xFF 0))))
      ∧ (p.hlk.phase = .running → p.claimOf? t = none →
        after.evaluatedTo t (AnswersWithImages (.withdraw h t 0x01 0xFF mask) ⟨w, p⟩)
          ∧ ∀ reason : Byte, reason = 6 ∨ reason = 7 →
            p.evaluatedTo t (AnswersWithImages (.withdraw h t reason 0xFF mask) ⟨w, p⟩))
      ∧ ∀ n e, p.hlk.phase = .running → p.claimOf? t = some (n, e) → p.contextOf? t = none →
        (e.yieldedTo h.sender.toNat = false → after.lossSet t ≠ e.lost →
            after.lossChangesTo t n e (after.lossSet t) (AnswersWithImages (.withdraw h t 0x01 0xFF mask) ⟨w, p⟩))
          ∧ ∀ reason : Byte, reason = 6 ∨ reason = 7 →
            (p.lossSet t = [] ∨ p.parityOf t < (p.lossSet t).length →
                p.lossChangesTo t n e (p.lossSet t) (AnswersWithImages (.withdraw h t reason 0xFF mask) ⟨w, p⟩))
              ∧ (e.yieldedTo h.sender.toNat = false → p.lossSet t ≠ [] → (p.lossSet t).length ≤ p.parityOf t →
                (p.lossSet t = e.lost → Answers (.withdraw h t reason 0xFF mask) ⟨w, p⟩ p)
                  ∧ (p.lossSet t ≠ e.lost →
                    p.lossChangesTo t n e (p.lossSet t) (AnswersWithImages (.withdraw h t reason 0xFF mask) ⟨w, p⟩)))

/-- The timers of a claim entry. A hold-off that expires makes a CONTENDING entry OWNED, at the tail of the owned
list, with CLAIM(settled); a repeat timer sends CLAIM(settled, repeat) and starts again; a yield timer sends a YIELDED
entry back to CONTENDING with CLAIM(unsettled) and a fresh hold-off. The rank and the lost set stay, and nothing else
changes but that the CLAIM is posted, which ReportsAndFramesArePosted says of any frame (R73 to R75). That the clock moves
to the moment that was due, where it is not past it, is the model's choice (log 2), and so is that no admission follows in
the same event (log 9). -/
def Obligations.ClaimTimersExpire : Prop :=
  ∀ (w : List Instr) (p : Part) (n : Nat) (e : ClaimEntry), p.clt.entries.row? n = some e →
    (∀ due, e.state = .contending due → Answers (.holdOffExpiry n) ⟨w, p⟩ (Part.post
        { p with
          now := max p.now due
          clt := {
            entries := p.clt.entries.setRow n { e with state := .owned (max p.now due + p.claimRepeat) }
            owned := p.clt.owned ++ [n] } }
        none (.claim e.stripe e.rank 0x01 (maskOf e.lost))))
      ∧ (∀ due, e.state = .owned due → Answers (.repeatTimerExpiry n) ⟨w, p⟩ (Part.post
        { p with
          now := max p.now due
          clt := { p.clt with
            entries := p.clt.entries.setRow n { e with state := .owned (max p.now due + p.claimRepeat) } } }
        none (.claim e.stripe e.rank 0x03 (maskOf e.lost))))
      ∧ ∀ rival since due, e.state = .yielded rival since due → Answers (.yieldTimerExpiry n) ⟨w, p⟩ (Part.post
        { p with
          now := max p.now due
          clt := { p.clt with
            entries := p.clt.entries.setRow n { e with state := .contending (max p.now due + p.claimHoldOff) } } }
        none (.claim e.stripe e.rank 0x00 (maskOf e.lost)))

/-! ## The serve unit -/

/-- An OPEN is answered. In HALTED with REFUSE(HALTED); without a record with REFUSE(NOT-HELD); at a FAILED entry with
REFUSE(DAMAGED); at an entry of 16 openers with WAIT of 2 ms, busy; at a STAGED entry with READY and a new opener; at
one in STAGING with WAIT of 1 ms and a new opener; with no entry, none free and none to evict, with WAIT of 5 ms,
busy. So far no entry has the pair of station and tag yet. An opener of the pair in the entry of the key is only active
again, with READY or WAIT by the entry's state, also where the entry has 16 openers, or is removed from a FAILED one;
openers of the pair in other entries, none of them FAILED here, are removed there first, and the OPEN is answered as
before (R123). The last use of an entry in STAGING stays when an opener is added (that is the model's reading,
log 28), and the digest field of a READY without a digest is 0 (the model's choice, log 35). -/
def Obligations.OpensAreAnswered : Prop :=
  ∀ (w : List Instr) (p : Part) (h : FrameHeader) (t : StripeId) (position : Byte) (tag : Tag), p.fromPeer h →
    p.queueOpen →
    ((∀ r ∈ p.svu.entries, r.2.hasPair h.sender.toNat tag = false) →
      (p.hlk.phase = .halted →
          Answers (.fetchOpen h t position tag) ⟨w, p⟩ (p.queued (some h.sender.toNat) (.refuse tag 0x02)))
      ∧ (p.hlk.phase = .running → p.recordOf? t position.toNat = none →
        Answers (.fetchOpen h t position tag) ⟨w, p⟩ (p.queued (some h.sender.toNat) (.refuse tag 0x01)))
      ∧ ∀ place r, p.hlk.phase = .running → p.recordOf? t position.toNat = some (place, r) →
        (p.serveOf? t position.toNat = none → p.svu.entries.lowestFree? 256 = none ∨ p.freeSlots = [] →
            p.evictables = [] →
            Answers (.fetchOpen h t position tag) ⟨w, p⟩ (p.queued (some h.sender.toNat) (.wait tag 5 0x01)))
          ∧ ∀ n e, p.serveOf? t position.toNat = some (n, e) → p.serve? n = some e →
            ((∀ cause, e.state = .failed cause →
              Answers (.fetchOpen h t position tag) ⟨w, p⟩ (p.queued (some h.sender.toNat) (.refuse tag 0x03)))
            ∧ (e.state = .staged ∨ e.state = .staging → 16 ≤ e.openers.length →
              Answers (.fetchOpen h t position tag) ⟨w, p⟩ (p.queued (some h.sender.toNat) (.wait tag 2 0x01)))
            ∧ (e.state = .staged → e.openers.length < 16 →
              Answers (.fetchOpen h t position tag) ⟨w, p⟩ (Part.queued
                { p with
                  svu := { p.svu with
                    entries := p.svu.entries.setRow n
                      { e with
                        openers := e.openers ++ [.remote h.sender.toNat tag (some h.epoch) p.now]
                        lastUse := p.now } } }
                (some h.sender.toNat)
                (.ready tag (if (r.digests[r.ownIndex]?).join.isSome then 0x01 else 0x00) (BitVec.ofNat 32 r.length)
                  ((r.digests[r.ownIndex]?).join.getD 0))))
            ∧ (e.state = .staging → e.openers.length < 16 →
              Answers (.fetchOpen h t position tag) ⟨w, p⟩ (Part.queued
                { p with
                  svu := { p.svu with
                    entries := p.svu.entries.setRow n
                      { e with openers := e.openers ++ [.remote h.sender.toNat tag (some h.epoch) p.now] } } }
                (some h.sender.toNat) (.wait tag 1 0x00)))))
      ∧ ∀ place r n e, p.hlk.phase = .running → p.recordOf? t position.toNat = some (place, r) →
        p.serveOf? t position.toNat = some (n, e) → p.serve? n = some e → p.svu.entries.rising = true →
        (e.hasPair h.sender.toNat tag = true →
            (∀ k ∈ p.svu.entries, k.1 ≠ n → k.2.hasPair h.sender.toNat tag = false) →
            (e.state = .staged → Answers (.fetchOpen h t position tag) ⟨w, p⟩ (Part.queued
                { p with
                  svu := { p.svu with
                    entries := p.svu.entries.setRow n
                      { e with openers := e.openers.map (Opener.touched h.sender.toNat tag p.now) } } }
                (some h.sender.toNat)
                (.ready tag (if (r.digests[r.ownIndex]?).join.isSome then 0x01 else 0x00) (BitVec.ofNat 32 r.length)
                  ((r.digests[r.ownIndex]?).join.getD 0))))
              ∧ (e.state = .staging → Answers (.fetchOpen h t position tag) ⟨w, p⟩ (Part.queued
                { p with
                  svu := { p.svu with
                    entries := p.svu.entries.setRow n
                      { e with openers := e.openers.map (Opener.touched h.sender.toNat tag p.now) } } }
                (some h.sender.toNat) (.wait tag 1 0x00)))
              ∧ ∀ cause, e.state = .failed cause → (e.openers.filter fun o => !o.isPair h.sender.toNat tag) ≠ [] →
                Answers (.fetchOpen h t position tag) ⟨w, p⟩ (Part.queued
                  { p with
                    svu := { p.svu with
                      entries := p.svu.entries.setRow n
                        { e with openers := e.openers.filter fun o => !o.isPair h.sender.toNat tag } } }
                  (some h.sender.toNat) (.refuse tag 0x03)))
          ∧ ∀ others, e.hasPair h.sender.toNat tag = false → (∃ k ∈ p.svu.entries, k.2.hasPair h.sender.toNat tag = true) →
            (∀ k ∈ p.svu.entries, k.2.hasPair h.sender.toNat tag = true → k.2.state = .staging ∨ k.2.state = .staged) →
            others = (p.svu.entries.map fun k =>
              (k.1, { k.2 with openers := k.2.openers.filter fun o => !o.isPair h.sender.toNat tag })) →
            (e.state = .staged → e.openers.length < 16 →
                Answers (.fetchOpen h t position tag) ⟨w, p⟩ (Part.queued
                  { p with
                    svu := { p.svu with
                      entries := Table.setRow others n
                        { e with
                          openers := e.openers ++ [.remote h.sender.toNat tag (some h.epoch) p.now]
                          lastUse := p.now } } }
                  (some h.sender.toNat)
                  (.ready tag (if (r.digests[r.ownIndex]?).join.isSome then 0x01 else 0x00) (BitVec.ofNat 32 r.length)
                    ((r.digests[r.ownIndex]?).join.getD 0))))
              ∧ (e.state = .staging → e.openers.length < 16 →
                Answers (.fetchOpen h t position tag) ⟨w, p⟩ (Part.queued
                  { p with
                    svu := { p.svu with
                      entries := Table.setRow others n
                        { e with openers := e.openers ++ [.remote h.sender.toNat tag (some h.epoch) p.now] } } }
                  (some h.sender.toNat) (.wait tag 1 0x00)))
              ∧ (e.state = .staged ∨ e.state = .staging → 16 ≤ e.openers.length →
                Answers (.fetchOpen h t position tag) ⟨w, p⟩ (Part.queued
                  { p with svu := { p.svu with entries := others } } (some h.sender.toNat) (.wait tag 2 0x01)))

/-- An OPEN of a held position that no entry serves makes an entry in STAGING with the opener, on the lowest free slot, or,
where no entry or no slot is free, on that of the entry evicted, and is answered with WAIT of 1 ms. Where the report path
has a place, the entry has a STAGE request under the value of the tag counter, from which that goes on to the next value
that is not outstanding, its slot has the right WRITE under the tag, and the STAGE-REQUEST report is posted to the host:
in the ring, or in the internal report queue. Where the path is full the entry asks later: STAGE_REQUEST posts the request
of the lowest entry that waits so (R123 to R125, R150, R154, R168, R169). -/
def Obligations.OpensStartStaging : Prop :=
  ∀ (w : List Instr) (p : Part),
    (∀ (h : FrameHeader) (t : StripeId) (position : Byte) (tag : Tag) (place n slot : Nat) (r : HoldingRecord)
        (base made : Part) (entry : ServeEntry),
      p.fromPeer h → p.hlk.phase = .running → p.queueOpen →
      (∀ e ∈ p.svu.entries, e.2.hasPair h.sender.toNat tag = false) →
      p.recordOf? t position.toNat = some (place, r) → p.serveOf? t position.toNat = none →
      p.entryPlace base n slot →
      entry = { stripe := t, position := position.toNat, length := r.length, slot := slot, state := .staging,
                requested := false, tag := none, openers := [.remote h.sender.toNat tag (some h.epoch) p.now],
                lastUse := p.now } →
      made = (base.entryMade n entry).queued (some h.sender.toNat) (.wait tag 1 0x00) →
      (p.reportPathFull = true → Answers (.fetchOpen h t position tag) ⟨w, p⟩ made)
        ∧ ∀ next, p.reportPathFull = false →
          nextTag (p.hlk.stageTags ++ [p.hlk.tagCounter] ++ p.hlk.storeTags) p.hlk.tagCounter next →
          (made.stageAsked n entry next).postsReport (.stageRequest p.hlk.tagCounter t position.toNat r.length slot)
            (Answers (.fetchOpen h t position tag) ⟨w, p⟩))
      ∧ ∀ (n : Nat) (e : ServeEntry), p.unrequested? = some (n, e) → p.serve? n = some e →
        (p.reportPathFull = true → Answers .stageRequest ⟨w, p⟩ p)
          ∧ ∀ next, p.reportPathFull = false →
            nextTag (p.hlk.stageTags ++ [p.hlk.tagCounter] ++ p.hlk.storeTags) p.hlk.tagCounter next →
            (p.stageAsked n e next).postsReport (.stageRequest p.hlk.tagCounter e.stripe e.position e.length e.slot)
              (Answers .stageRequest ⟨w, p⟩)

/-- A PULL is answered. In HALTED with REFUSE(HALTED); without the opener with REFUSE(NOT-OPEN); in STAGING not at
all; at a FAILED entry with REFUSE(DAMAGED) after a failure of the host and REFUSE(NOT-HELD) after a drop; beyond the
last chunk with REFUSE(BAD-CHUNK). In STAGED its CHUNK joins the data queue, or the hold place while that queue is
full, and the opener, the entry and the slot show it; while the hold place is taken nothing happens (R127). -/
def Obligations.PullsAreAnswered : Prop :=
  ∀ (w : List Instr) (p : Part) (h : FrameHeader) (tag : Tag) (c : Byte), p.fromPeer h → p.queueOpen →
    (p.hlk.phase = .halted → Answers (.pull h tag c) ⟨w, p⟩ (p.queued (some h.sender.toNat) (.refuse tag 0x02)))
      ∧ (p.hlk.phase = .running → p.entryOfPair? h.sender.toNat tag = none →
        Answers (.pull h tag c) ⟨w, p⟩ (p.queued (some h.sender.toNat) (.refuse tag 0x04)))
      ∧ ∀ n e, p.hlk.phase = .running → p.entryOfPair? h.sender.toNat tag = some (n, e) → p.serve? n = some e →
        (e.state = .staging → Answers (.pull h tag c) ⟨w, p⟩ p)
          ∧ (∀ cause, e.state = .failed cause → (e.openers.filter fun o => !o.isPair h.sender.toNat tag) ≠ [] →
            Answers (.pull h tag c) ⟨w, p⟩ (Part.queued
              { p with
                svu := { p.svu with
                  entries := p.svu.entries.setRow n
                    { e with openers := e.openers.filter fun o => !o.isPair h.sender.toNat tag } } }
              (some h.sender.toNat) (.refuse tag (if cause = .hostFailed then 0x03 else 0x01))))
          ∧ (e.state = .staged → chunkCountOf e.length ≤ c.toNat →
            Answers (.pull h tag c) ⟨w, p⟩ (p.queued (some h.sender.toNat) (.refuse tag 0x05)))
          ∧ (e.state = .staged → c.toNat < chunkCountOf e.length →
            (p.svu.holdPlace ≠ none → Answers (.pull h tag c) ⟨w, p⟩ p)
              ∧ ∀ frame entries, p.svu.holdPlace = none →
                frame = { target := h.sender.toNat, epoch := p.prs.ownEpoch, tag := tag, chunk := c.toNat,
                          slot := e.slot, length := chunkLength e.length c.toNat } →
                entries = p.svu.entries.setRow n
                  { e with
                    openers := e.openers.map (Opener.touched h.sender.toNat tag p.now)
                    lastUse := p.now } →
                (p.sgp.data.length < 32 → Answers (.pull h tag c) ⟨w, p⟩ (Part.editSlot
                    { p with
                      svu := { p.svu with entries := entries }
                      sgp := { p.sgp with data := p.sgp.data ++ [frame] } }
                    e.slot fun r => { r with queuedChunks := r.queuedChunks + 1 }))
                  ∧ (32 ≤ p.sgp.data.length → Answers (.pull h tag c) ⟨w, p⟩ (Part.editSlot
                    { p with svu := { p.svu with entries := entries, holdPlace := some frame } }
                    e.slot fun r => { r with queuedChunks := r.queuedChunks + 1 })))

/-- A RELEASE, in RUNNING, and an opener's idle expiry remove the remote opener of the pair of station and tag, the
one wherever it is, the other from its entry; no entry is FAILED here, so that none is freed, and nothing else
changes. In HALTED a RELEASE does nothing (R128, R129; that the clock moves to the moment the idle limit is reached, where
it is not past it, is the model's choice, log 2). -/
def Obligations.OpenersLeave : Prop :=
  ∀ (w : List Instr) (p : Part), p.svu.entries.rising = true → (∀ r ∈ p.svu.entries, r.2.state = .staging ∨ r.2.state = .staged) →
    (∀ h tag, p.fromPeer h →
        (p.hlk.phase = .halted → Answers (.release h tag) ⟨w, p⟩ p)
          ∧ (p.hlk.phase = .running → Answers (.release h tag) ⟨w, p⟩
            { p with
              svu := { p.svu with
                entries := p.svu.entries.map fun r =>
                  (r.1, { r.2 with openers := r.2.openers.filter fun o => !o.isPair h.sender.toNat tag }) } }))
      ∧ ∀ n station tag e last, p.serve? n = some e → e.lastActivity? station tag = some last →
        Answers (.openerIdleExpiry n station tag) ⟨w, p⟩
          { p with
            now := max p.now (last + p.openerIdleLimit)
            svu := { p.svu with
              entries := p.svu.entries.setRow n
                { e with openers := e.openers.filter fun o => !o.isPair station tag } } }

/-- The waiting internal openers are served from the head, and the next one is tried as from the part the head has left,
until one must wait, which it does where its entry has 16 openers, or where no entry has its key and none is to be had. A
head whose entry has room leaves the list and attaches; in STAGED it then posts the combine request of its first chunk,
unless a request of its context is still in the combine queue. One whose key no entry has gets a new entry in STAGING, with
the STAGE request posted where the report path has a place. One without a record, or whose entry has FAILED, leaves the list
and fails: a context that gathers under its generation plans again with the local position unusable, or, at the ninth
re-plan, is ABANDONED, and no other is told (R94, R95, R101 to R103, R124, R132 to R134; the order of the re-plan's frames
and fills is the model's choice, logs 8 and 37, and so is that the list is served whenever the row is given, whether or not
a place, an entry or a slot has freed since, log 57). -/
def Obligations.WaitingOpenersAttach : Prop :=
  ∀ (w : List Instr) (p : Part), (p.svu.waiting = [] → Answers .internalOpenerAttach ⟨w, p⟩ p)
    ∧ ∀ (i : InternalOpener) (rest : List InternalOpener) (left : Part), p.svu.waiting = i :: rest →
      i.nextChunk = 0 → i.ended = .open_ → left = { p with svu := { p.svu with waiting := rest } } →
      left.attachesTo i (Answers .internalOpenerAttach ⟨w, p⟩ p) (ServesHead w p)

/-! ## The fetch unit -/

/-- A READY at a lane in OPENING or OPEN-WAIT: one of the right length takes the lane to STREAMING with its digest, and the
lane then sends the PULLs that its window allows. A fresh lane under a lowered warning pulls its first two chunks; a lane of
a one-chunk fragment, or one under a raised warning, sends at most one PULL; and a lane that has re-opened asks for no chunk
that a FULL bank of it holds. A READY of another length, or with a digest that is not the expected one, fails the lane,
which empties its banks, withdraws its unsent requests and releases the server. A context that gathers under the lane's
generation then plans again, with the survivor's position unusable, and one that does not is as before. In any other state a
READY is ignored, and so is one that no lane takes (R94, R95, R106, R109, R112, R118 to R120, R159; the order of the releases
and of the fill requests of that re-plan is the model's, logs 8 and 37). -/
def Obligations.ReadiesStartStreaming : Prop :=
  ∀ (w : List Instr) (p : Part) (h : FrameHeader) (tag : Tag) (present : Byte) (length : BitVec 32) (digest : Digest),
    p.fromPeer h →
    (p.noLaneFor h tag → Answers (.ready h tag present length digest) ⟨w, p⟩ p)
      ∧ ∀ (n : Nat) (u : LaneUse), p.laneUsed h tag n u →
        (u.opening = false → Answers (.ready h tag present length digest) ⟨w, p⟩ p)
          ∧ (u.opening = true → present = 0 ∨ present = 1 →
            (∀ v, length.toNat = u.length → present = 0 ∨ u.digest = none ∨ u.digest = some digest →
                v = { u with
                  digest := if u.digest.isSome then u.digest else if present = 1 then some digest else none
                  waitCount := 0
                  state := .streaming } →
                (p.setUse n v).windowTested n v (if p.cbe.warning = true then 1 else 2)
                    (Answers (.ready h tag present length digest) ⟨w, p⟩)
                  ∧ (u.bank0 = .empty → u.bank1 = .empty → u.nextConsume = 0 → u.nextRequest = 0 →
                    2 ≤ chunkCountOf u.length → p.cbe.warning = false → p.roomFor 2 →
                    Answers (.ready h tag present length digest) ⟨w, p⟩ ((p.queuedAll
                        [(some u.server, .pull tag 0), (some u.server, .pull tag 1)]).setUse n
                      { v with
                        nextRequest := 2
                        bank0 := .requested 0 1 none
                        bank1 := .requested 1 1 none })))
              ∧ (length.toNat ≠ u.length → FailsLane (.ready h tag present length digest) w p p n u .length)
              ∧ (length.toNat = u.length → present = 1 → (∃ expected, u.digest = some expected ∧ expected ≠ digest) →
                FailsLane (.ready h tag present length digest) w p p n u .damaged))

/-- A WAIT takes a lane in OPENING to OPEN-WAIT for its hint, 0 read as 1 ms, counting it and keeping its busy flag; the
256th fails the lane, with a RELEASE unless it was busy; in any other state it is ignored. A REFUSE(NOT-OPEN) re-opens a
STREAMING lane under its tag: its unsent requests are withdrawn, a REQUESTED bank is EMPTY and a FULL one stays, next to
request goes back to the lowest chunk that no bank holds, and its OPEN is posted as a first try; the third re-open fails
the lane, with a RELEASE; and in any other state it is ignored. Any other REFUSE fails an active lane without a RELEASE.
A context that gathers under a failed lane's generation then plans again, with the survivor's position unusable, and one
that does not is as before (R94, R95, R106, R110, R111, R118 to R120, R159; the order of the releases and of the fill
requests of that re-plan is the model's, logs 8 and 37). -/
def Obligations.WaitsAndRefusals : Prop :=
  ∀ (w : List Instr) (p : Part) (h : FrameHeader) (tag : Tag) (n : Nat) (u : LaneUse), p.fromPeer h →
    p.laneUsed h tag n u →
    (∀ hint busy : Byte, busy = 0 ∨ busy = 1 →
        (∀ old, u.state = .opening old →
          (u.waitCount < 255 → Answers (.wait h tag hint busy) ⟨w, p⟩ (p.setUse n
              { u with
                waitCount := u.waitCount + 1
                waitBusy := busy == 1
                state := .openWait (p.now + (if hint = 0 then 1 else hint.toNat) * 1000) }))
            ∧ (255 ≤ u.waitCount → FailsLane (.wait h tag hint busy) w p p n
              { u with waitCount := u.waitCount + 1, waitBusy := busy == 1 } .waitLimit))
          ∧ ((∀ old, u.state ≠ .opening old) → Answers (.wait h tag hint busy) ⟨w, p⟩ p))
      ∧ (u.state ≠ .streaming → Answers (.refuse h tag 0x04) ⟨w, p⟩ p)
      ∧ (∀ next, u.state = .streaming → u.reOpens < 2 → u.nextConsume ≤ next →
        (u.bankOf next).fullFor next = false →
        (∀ c, u.nextConsume ≤ c → c < next → (u.bankOf c).fullFor c = true) → p.queueOpen →
        Answers (.refuse h tag 0x04) ⟨w, p⟩ (((p.withdrawRequests n).queued (some u.server)
            (.fetchOpen u.stripe (BitVec.ofNat 8 u.position) tag)).setUse n
          { u with
            state := .opening none
            openTries := 1
            reOpens := u.reOpens + 1
            nextRequest := next
            bank0 := if u.bank0.isRequested then .empty else u.bank0
            bank1 := if u.bank1.isRequested then .empty else u.bank1 }))
      ∧ (u.state = .streaming → 2 ≤ u.reOpens → FailsLane (.refuse h tag 0x04) w p p n u .reOpenLimit)
      ∧ ∀ reason : RefuseReason, reason ≠ .notOpen → u.active = true →
        FailsLane (.refuse h tag reason.code) w p p n u (.refused reason)

/-- A lane that fails in a context that gathers under its generation, by any command that can bring it, re-plans it, and
the survivor's position is unusable from then on: the generation goes on by 1, the survivor list, the plan and the
contributions are cleared, the reserved lanes are IDLE, and a new plan job is posted. The ninth re-plan is outcome
ABANDONED with cause RE-PLAN-LIMIT instead, whether a lane or a grown loss set brings it. A new loss set of 1 to m members, here found by a scan visit, is
the stripe's and the claim entry's, and comes to the context. Growth re-plans one in PLANNING, PLAN-WAIT or GATHERING, and
rebuilds the lost list, also in ADMITTING, where no re-plan follows: it has an enabled entry for each member, in ascending
position, and an entry that stays keeps its slot. Shrink disables the entries of the returned positions and frees their
slots, and nothing is planned again; where it leaves an ADMITTING context with every enabled entry READY, that enters
PLANNING, and where it leaves a PLANNING context so, that stays while it has no plan or too few lanes, and enters GATHERING
otherwise. In VERIFYING and DELIVERING both are ignored (R82, R89, R92, R94 to R97, R101 to R103, R116, R118; the loss of the
server as a cause is in StationsAreLost). -/
def Obligations.FailuresRePlan : Prop :=
  (∀ (w : List Instr) (p : Part) (i : Instr) (n : Nat) (u : LaneUse) (x : Context), p.laneFailsBy i n u →
    p.context? u.context = some x → x.pendingOutcome = none → x.state = .gathering →
    p.generation u.context = u.generation →
    (x.rePlans < 8 → Leads i ⟨w, p⟩ fun q =>
      (∃ y, q.context? u.context = some y ∧ y.state = .planning ∧ u.position ∈ y.unusable ∧ y.rePlans = x.rePlans + 1
          ∧ y.survivors = none ∧ y.plan = none ∧ y.contributions = List.replicate x.chunkCount []
          ∧ y.chunksComplete = 0 ∧ y.reservation = x.reservation ∧ y.deadline = .absent)
        ∧ q.generation u.context = u.generation + 1 ∧ u.context ∈ q.plu.queue
        ∧ (∀ lane ∈ x.reservation, q.laneUse? lane = none) ∧ q.clt = p.clt ∧ q.hdt = p.hdt ∧ q.prs = p.prs)
      ∧ (8 ≤ x.rePlans → p.hdt.rising = true → Leads i ⟨w, p⟩ fun q =>
        p.abandoned q u.context x .rePlanLimit))
    ∧ ∀ (w : List Instr) (p : Part) (t : StripeId) (r r0 : HoldingRecord) (n c : Nat) (e : ClaimEntry) (x : Context)
        (loss : Positions) (changed : Part), p.hlk.phase = .running →
      (p.scn.pass = .walking ∨ (p.scn.pass = .blocked ∧ p.scn.placeFreed = true)) →
      p.hdt.row? p.scn.cursor = some r → t = r.stripe → t ∉ p.scn.met → p.firstRecord? t = some r0 →
      r0.standing = .claiming → p.hdt.rising = true → loss = p.lossSet t → loss ≠ r0.lost → loss ≠ [] →
      loss.length ≤ p.parityOf t → p.claimOf? t = some (n, e) → p.contextOf? t = some (c, x) → p.context? c = some x →
      x.pendingOutcome = none → (x.lostList.map LostEntry.position).Nodup →
      changed = { p with
        clt := { p.clt with entries := p.clt.entries.setRow n { e with lost := loss } }
        hdt := p.hdt.map (changeStripe t fun h => { h with lost := loss }) } →
      ((x.state = .verifying ∨ x.state = .delivering) → AnswersWithImages .scanVisit ⟨w, p⟩ (changed.visited t))
        ∧ ((∃ i ∈ loss, i ∉ x.enabledPositions) →
          (∀ again, again = (x.state != .admitting) → x.state ≠ .verifying → x.state ≠ .delivering →
            (again = true → x.rePlans < 8) →
            Leads .scanVisit ⟨w, p⟩ fun q =>
              q.clt = changed.clt ∧ q.hdt = changed.hdt ∧ (∀ d, d ≠ c → q.context? d = p.context? d)
                ∧ (again = true → q.generation c = p.generation c + 1 ∧ c ∈ q.plu.queue)
                ∧ (again = false → q.generation c = p.generation c ∧ q.plu = p.plu)
                ∧ ∃ y, q.context? c = some y ∧ y.lostList.map LostEntry.position = loss
                  ∧ (∀ f ∈ y.lostList, f.enabled = true)
                  ∧ (∀ f ∈ x.lostList, f.enabled = true → f.position ∈ loss → f.slot ≠ none →
                    ∃ g ∈ y.lostList, g.position = f.position ∧ g.slot = f.slot)
                  ∧ (again = true → y.state = .planning ∧ y.rePlans = x.rePlans + 1 ∧ y.survivors = none ∧ y.plan = none
                    ∧ y.chunksComplete = 0 ∧ y.unusable = x.unusable)
                  ∧ (again = false → y.state = .admitting ∧ y.rePlans = x.rePlans))
            ∧ (x.state = .planning ∨ x.state = .planWait ∨ x.state = .gathering → 8 ≤ x.rePlans →
              Leads .scanVisit ⟨w, p⟩ fun q =>
                changed.abandoned q c x .rePlanLimit ∧ q.scn = (changed.visited t).scn))
        ∧ ((∀ i ∈ loss, i ∈ x.enabledPositions) → (∃ i ∈ x.enabledPositions, i ∉ loss) →
          ∀ shrunk, shrunk = (x.lostList.map fun f =>
              if f.enabled = true ∧ f.position ∉ loss then { f with enabled := false, slot := none } else f) →
          (x.state = .gathering ∨ x.state = .planWait
              ∨ ((x.state = .admitting ∨ x.state = .planning)
                ∧ ∃ f ∈ x.lostList, f.enabled = true ∧ f.position ∈ loss ∧ f.fill ≠ .ready)
              ∨ (x.state = .planning ∧ (x.plan = none ∨ x.reservation.length < x.remotes.length)) →
            Leads .scanVisit ⟨w, p⟩ fun q =>
              q.clt = changed.clt ∧ q.hdt = changed.hdt ∧ q.context? c = some { x with lostList := shrunk }
                ∧ (∀ d, d ≠ c → q.context? d = p.context? d) ∧ q.ctx.generations = p.ctx.generations ∧ q.plu = p.plu
                ∧ ∀ f ∈ x.lostList, f.enabled = true → f.position ∉ loss → ∀ j, f.slot = some j →
                  p.smc.fill.map FillRequest.slot ≠ some j → p.slotHeld j = false →
                  (∀ s, p.slot? j = some s → s.queuedChunks = 0) → q.slot? j = none)
            ∧ (x.state = .admitting → (∀ f ∈ x.lostList, f.enabled = true → f.position ∈ loss → f.fill = .ready) →
              Leads .scanVisit ⟨w, p⟩ fun q =>
                q.context? c = some { x with lostList := shrunk, state := .planning }
                  ∧ q.plu.queue = p.plu.queue ++ [c] ∧ q.ctx.generations = p.ctx.generations)
            ∧ ∀ own remotes, x.state = .planning →
              (∀ f ∈ x.lostList, f.enabled = true → f.position ∈ loss → f.fill = .ready) → x.plan ≠ none →
              p.ListsSurvivors (x.survivors.getD []) own remotes → remotes.length ≤ x.reservation.length →
              x.reservation.Nodup → (∀ lane ∈ x.reservation, ∃ l, p.ftu.row? lane = some l) →
              p.roomFor remotes.length → p.svu.entries.rising = true →
              (∀ v, own = some v → (p.recordOf? t v.position).isSome = true
                ∧ ∀ k f cause, p.serveOf? t v.position = some (k, f) → f.state ≠ .failed cause) →
              Leads .scanVisit ⟨w, p⟩ fun q =>
                p.gathersIn q c { x with lostList := shrunk } own remotes ∧ q.clt = changed.clt ∧ q.hdt = changed.hdt
                  ∧ (∀ d, d ≠ c → q.context? d = p.context? d) ∧ q.ctx.generations = p.ctx.generations
                  ∧ q.plu = p.plu ∧ q.scn = (changed.visited t).scn)

/-- A CHUNK of the right length for a bank that is REQUESTED for it fills the bank of a STREAMING lane; the next one
to be consumed then posts its combine request, once. The request that makes the depth of the combine queue 96 raises the
bandwidth warning where it stands lowered, and sets WARN. Any other CHUNK is ignored, and so is one that no lane takes
(R106, R113, R114, R143). -/
def Obligations.ChunksFillBanks : Prop :=
  ∀ (w : List Instr) (p : Part) (h : FrameHeader) (tag : Tag) (c : Byte) (data : List Byte), p.fromPeer h →
    1 ≤ data.length → data.length ≤ 8192 →
    (p.noLaneFor h tag → Answers (.chunk h tag c data) ⟨w, p⟩ p)
      ∧ ∀ (n : Nat) (u : LaneUse), p.laneUsed h tag n u →
        (u.state ≠ .streaming ∨ (u.bankOf c.toNat).requestedFor c.toNat = false
            ∨ data.length ≠ chunkLength u.length c.toNat → Answers (.chunk h tag c data) ⟨w, p⟩ p)
          ∧ (u.state = .streaming → (u.bankOf c.toNat).requestedFor c.toNat = true →
            data.length = chunkLength u.length c.toNat →
            (c.toNat ≠ u.nextConsume ∨ (p.lane n).outstanding = true →
                Answers (.chunk h tag c data) ⟨w, p⟩ (p.setUse n (u.setBank c.toNat (.full c.toNat data))))
              ∧ ∀ posted, posted = Part.editLane
                  { p with
                    cbe := { p.cbe with
                      queue := p.cbe.queue
                        ++ [{ context := u.context, generation := u.generation, survivor := u.survivor,
                              chunk := c.toNat, source := .lane n tag }] } }
                  n (fun l => { l with outstanding := true, use := some (u.setBank c.toNat (.full c.toNat data)) }) →
                c.toNat = u.nextConsume → (p.lane n).outstanding = false →
                (p.combineDepth ≠ 95 ∨ p.cbe.warning = true → Answers (.chunk h tag c data) ⟨w, p⟩ posted)
                  ∧ (p.combineDepth = 95 → p.cbe.warning = false → Answers (.chunk h tag c data) ⟨w, p⟩
                    (Part.flagged { posted with cbe := { posted.cbe with warning := true } } .warn)))

/-- The timers of a lane. The reply timeout of an OPEN or a PULL sends it again while tries are left; after the last
try the lane fails with a RELEASE. A context that gathers under its generation then plans again, with the survivor's
position unusable, and one that does not is as before. The wait timer sends the OPEN again as a first try. A repeated
request runs no timeout until it is transmitted (R94, R95, R108, R110, R112, R117, R118, R120; that the clock moves to the
moment that was due, where it is not past it, is the model's choice, log 2, and so is the order of the releases and of the
fill requests of that re-plan, logs 8 and 37). -/
def Obligations.LaneTimersExpire : Prop :=
  ∀ (w : List Instr) (p : Part) (n : Nat) (u : LaneUse) (tag : Tag), p.laneUse? n = some u → n ≤ 127 →
    tag = fetchTag n (p.lane n).useCount → p.queueOpen →
    (∀ due, u.state = .opening (some due) →
        (u.openTries < p.tries → Answers (.openReplyTimeout n) ⟨w, p⟩ (Part.setUse
            (Part.queued { p with now := max p.now due } (some u.server)
              (.fetchOpen u.stripe (BitVec.ofNat 8 u.position) tag)) n
            { u with state := .opening none, openTries := u.openTries + 1 }))
          ∧ (p.tries ≤ u.openTries →
            FailsLane (.openReplyTimeout n) w p { p with now := max p.now due } n u .noReply))
      ∧ (∀ bank c tries sent, u.bankNumbered? bank = some (.requested c tries (some sent)) → c % 2 = bank →
        u.state = .streaming →
        (tries < p.tries → Answers (.pullReplyTimeout n bank) ⟨w, p⟩ (Part.setUse
            (Part.queued { p with now := max p.now (sent + p.replyTimeout) } (some u.server)
              (.pull tag (BitVec.ofNat 8 c))) n
            (u.setBank bank (.requested c (tries + 1) none))))
          ∧ (p.tries ≤ tries →
            FailsLane (.pullReplyTimeout n bank) w p { p with now := max p.now (sent + p.replyTimeout) } n u .noReply))
      ∧ ∀ due, u.state = .openWait due → Answers (.waitTimerExpiry n) ⟨w, p⟩ (Part.setUse
        (Part.queued { p with now := max p.now due } (some u.server)
          (.fetchOpen u.stripe (BitVec.ofNat 8 u.position) tag)) n
        { u with state := .opening none, openTries := 1 })

/-! ## The contexts -/

/-- Admission takes the first owned entry without context into the lowest free context number, in RUNNING and while no
context waits for lanes or slots: under the next generation, with the k lowest free lanes and the lowest free slot for
each lost position, each with a zero fill requested. Without a candidate, or with too few lanes, nothing happens (R85,
R87, R149, R151; that the lanes are the lowest free ones and that the lowest slots go to the lost positions in order are
the model's choices, log 15, and so is the order in which the fills are requested, log 37, and that a refused request is
made again whenever the row is given, log 49). -/
def Obligations.AdmissionMakesAContext : Prop :=
  ∀ (w : List Instr) (p : Part), p.hlk.phase = .running →
    (p.someContextWaits = true ∨ p.candidate? = none → Answers .admission ⟨w, p⟩ p)
      ∧ ∀ e r g c lanes slots, p.someContextWaits = false → p.candidate? = some e → p.firstRecord? e.stripe = some r →
        p.geometryOf? e.stripe = some g → p.ctx.contexts.lowestFree? 32 = some c → e.lost.Nodup →
        lanes = p.poolLanes.take g.k → slots = p.freeSlots.take e.lost.length →
        (p.poolLanes.length < g.k → Answers .admission ⟨w, p⟩ p)
          ∧ (g.k ≤ p.poolLanes.length → e.lost.length ≤ p.freeSlots.length →
            p.slotsOf .accumulator + e.lost.length ≤ p.pool - p.serveReserve →
            Leads .admission ⟨w, p⟩ fun q =>
              q.context? c = some
                { stripe := e.stripe, geometry := r.geometry, length := r.length, chunkCount := chunkCountOf r.length,
                  lostList := (e.lost.zip slots).map fun ps =>
                    { position := ps.1, enabled := true, slot := some ps.2, fill := .filling, digest := none,
                      delivery := .none_, tag := none },
                  survivors := none, unusable := [], plan := none,
                  contributions := List.replicate (chunkCountOf r.length) [], chunksComplete := 0, rePlans := 0,
                  reservation := lanes, deadline := .absent, state := .admitting, pendingOutcome := none }
                ∧ (∀ d, d ≠ c → q.context? d = p.context? d) ∧ q.generation c = p.generation c + 1
                ∧ (∀ n, q.lane n = if n ∈ lanes then { p.lane n with holder := some c } else p.lane n)
                ∧ (∀ ps ∈ e.lost.zip slots, q.slot? ps.2 = some
                  { class_ := .accumulator, owner := some (.context c ps.1), queuedChunks := 0, right := .none_ })
                ∧ (∀ j, j ∉ slots → q.slot? j = p.slot? j)
                ∧ q.smc.fillQueue = (p.smc.fillQueue.filter fun f => !slots.contains f.slot)
                  ++ (slots.map fun j => { context := c, generation := p.generation c + 1, slot := j })
                ∧ q.smc.dram = p.smc.dram ∧ q.sgp = p.sgp ∧ q.clt = p.clt ∧ q.hdt = p.hdt ∧ q.svu = p.svu
                ∧ q.plu = p.plu)

/-- The waiting contexts are served in ascending number: one that lacks lanes alone gets them all when the free pool, as
the ones before it have left it, has them, and none otherwise, here where none lacks a slot or may gather at once. One that
lacks slots, here the one that can be served, gets a slot for each entry that has none, with its zero fill requested, and
the lanes it lacks, in one event; one for which there are not enough of both gets neither. A zero
fill begins when none is in progress and its slot is not held; when it is done the slot holds zeros, its entry is
READY, and an ADMITTING context all of whose enabled entries are READY posts its plan job (R88, R90, R151; that the lanes
given are the lowest of the free pool, and the slots the lowest free ones in the order of the lost list, is the model's
choice, log 15, that the lanes stand last in the reservation too, log 8, and so is the order of the fill requests,
log 37, that a refused request is made again whenever the row is given, log 49, and that an operation holds a slot whose
coefficient is 00h too, log 53). -/
def Obligations.WaitingContextsAndFills : Prop :=
  ∀ (w : List Instr) (p : Part),
    (∀ c x lanes, p.ctx.contexts = [(c, x)] → x.pendingOutcome = none → x.state = .planning → x.plan.isSome = true →
        x.lacking = [] → 0 < x.lanesLacking → x.allReady = false → lanes = p.poolLanes.take x.lanesLacking →
        (p.poolLanes.length < x.lanesLacking → Answers .waitingContextServed ⟨w, p⟩ p)
          ∧ (x.lanesLacking ≤ p.poolLanes.length → Answers .waitingContextServed ⟨w, p⟩
            { p with
              ctx := { p.ctx with contexts := [(c, { x with reservation := x.reservation ++ lanes })] }
              ftu := p.ftu.map fun r => if r.1 ∈ lanes then (r.1, { r.2 with holder := some c }) else r }))
      ∧ (∀ served, p.ctx.contexts.rising = true → p.ftu.rising = true →
        (∀ r ∈ p.ctx.contexts, r.2.pendingOutcome = none →
          r.2.lacking = [] ∧ (0 < r.2.lanesLacking → r.2.allReady = false)) →
        served = lanesServed p.ctx.contexts p.poolLanes → Answers .waitingContextServed ⟨w, p⟩
          { p with
            ctx := { p.ctx with
              contexts := p.ctx.contexts.map fun r =>
                match served.lookup r.1 with
                | some lanes => (r.1, { r.2 with reservation := r.2.reservation ++ lanes })
                | none => r }
            ftu := p.ftu.map fun r =>
              match served.find? fun s => s.2.contains r.1 with
              | some s => (r.1, { r.2 with holder := some s.1 })
              | none => r })
      ∧ ((∀ r ∈ p.ctx.contexts, r.2.waits = false ∨ p.cannotServe r.2) → Answers .waitingContextServed ⟨w, p⟩ p)
      ∧ (∀ c x lanes slots, p.ctx.contexts.rising = true → p.context? c = some x → x.pendingOutcome = none →
        (∀ r ∈ p.ctx.contexts, r.1 ≠ c → r.2.waits = false ∨ p.cannotServe r.2) →
        x.lacking ≠ [] → x.lanesLacking ≤ p.poolLanes.length → x.lacking.length ≤ p.freeSlots.length →
        p.slotsOf .accumulator + x.lacking.length ≤ p.pool - p.serveReserve →
        lanes = p.poolLanes.take x.lanesLacking → slots = p.freeSlots.take x.lacking.length →
        Leads .waitingContextServed ⟨w, p⟩ fun q =>
          q.context? c = some
            { x with
              reservation := x.reservation ++ lanes
              lostList := x.lostList.map fun e =>
                match (x.lacking.zip slots).lookup e.position with
                | some j => if e.lacksSlot then { e with slot := some j, fill := .filling } else e
                | none => e }
            ∧ (∀ d, d ≠ c → q.context? d = p.context? d)
            ∧ (∀ n, q.lane n = if n ∈ lanes then { p.lane n with holder := some c } else p.lane n)
            ∧ (∀ ps ∈ x.lacking.zip slots, q.slot? ps.2 = some
              { class_ := .accumulator, owner := some (.context c ps.1), queuedChunks := 0, right := .none_ })
            ∧ (∀ j, j ∉ slots → q.slot? j = p.slot? j)
            ∧ q.smc.fillQueue = (p.smc.fillQueue.filter fun f => !slots.contains f.slot)
              ++ (slots.map fun j => { context := c, generation := p.generation c, slot := j })
            ∧ q.smc.dram = p.smc.dram ∧ q.smc.fill = p.smc.fill ∧ q.ctx.generations = p.ctx.generations
            ∧ q.plu = p.plu ∧ q.cbe = p.cbe ∧ q.svu = p.svu ∧ q.sgp = p.sgp ∧ q.hdt = p.hdt ∧ q.clt = p.clt)
      ∧ (∀ f rest, p.smc.fill = none → p.smc.fillQueue = f :: rest →
        (p.slotHeld f.slot = false → Answers .fillStart ⟨w, p⟩
            { p with smc := { p.smc with fillQueue := rest, fill := some f } })
          ∧ (p.slotHeld f.slot = true → Answers .fillStart ⟨w, p⟩ p))
      ∧ ∀ f r x, p.smc.fill = some f → p.slot? f.slot = some r → r.owner ≠ none → p.context? f.context = some x →
        x.pendingOutcome = none → p.generation f.context = f.generation →
        (∃ e ∈ x.lostList, e.enabled = true ∧ e.slot = some f.slot) →
        ((∃ e ∈ x.lostList, e.enabled = true ∧ e.slot ≠ some f.slot ∧ e.fill ≠ .ready) →
            Leads .fillDone ⟨w, p⟩ fun q =>
              p.smc.dram.wrote q.smc.dram ((32 + f.slot) * 1048576) (List.replicate 1048576 0)
                ∧ (q.setDram p.smc.dram).unmarked = Part.unmarked (Part.editContext
                  { p with smc := { p.smc with fill := none } } f.context fun y =>
                    { y with lostList := y.lostList.map fun e =>
                        if e.enabled = true ∧ e.slot = some f.slot then { e with fill := .ready } else e }))
          ∧ ((∀ e ∈ x.lostList, e.enabled = true → e.slot = some f.slot ∨ e.fill = .ready) → x.state = .admitting →
            Leads .fillDone ⟨w, p⟩ fun q =>
              p.smc.dram.wrote q.smc.dram ((32 + f.slot) * 1048576) (List.replicate 1048576 0)
                ∧ (q.setDram p.smc.dram).unmarked = Part.unmarked (Part.editContext
                  { p with
                    smc := { p.smc with fill := none }
                    plu := { p.plu with queue := p.plu.queue ++ [f.context] } } f.context fun y =>
                    { y with
                      state := .planning
                      lostList := y.lostList.map fun e =>
                        if e.enabled = true ∧ e.slot = some f.slot then { e with fill := .ready } else e }))

/-- A plan job starts with survivor choice. With k candidates the first k are the survivors; with too few, but enough
together with the SILENT holders, the context waits in PLAN-WAIT, under a deadline of 1 s or the one that still runs, or,
where that has passed, it is ABANDONED with cause PLAN-WAIT-LIMIT; with still fewer it is ABANDONED with cause
NO-SURVIVORS. An outcome frees the lanes and slots that the context holds, removes its claim entry and makes the stripe
QUIET, with WITHDRAW(ABANDONED) and its report; while the report path is full it is pending in the context. A position outside the lost list and the unusable set is the local one when it is the lowest that the placement gives this
station and that is held here, reachable when its holder is PRESENT, and waiting when that is SILENT. The candidates are
the local position, if there is one, and then every reachable one in ascending order, so that the data positions, which
are below k, stand before the parity positions (R24 to R26, R89, R91, R101 to R103). -/
def Obligations.PlanJobsStart : Prop :=
  (∀ (p : Part) (x : Context) (open_ : Nat → Nat → Prop),
      open_ = (fun i holder => (p.placementOf x.stripe)[i]? = some holder ∧ i ∉ x.lostList.map LostEntry.position
        ∧ i ∉ x.unusable) →
      (∃ first others, p.candidates x = first ++ others
          ∧ ((first = [] ∧ ∀ i, open_ i p.own → p.holds x.stripe i = false)
            ∨ ∃ i, open_ i p.own ∧ p.holds x.stripe i = true
              ∧ (∀ j, open_ j p.own → p.holds x.stripe j = true → i ≤ j)
              ∧ first = [{ position := i, holder := p.own, source := .ownHoldings }])
          ∧ (others.map Survivor.position).Pairwise (· < ·)
          ∧ ∀ v, v ∈ others ↔ v.source = .unassigned ∧ open_ v.position v.holder ∧ v.holder ≠ p.own
            ∧ p.peerState? v.holder = some .present)
        ∧ ((p.remotePositions x .silent).map Prod.fst).Pairwise (· < ·)
        ∧ ∀ i holder, (i, holder) ∈ p.remotePositions x .silent ↔ open_ i holder ∧ holder ≠ p.own
          ∧ p.peerState? holder = some .silent)
    ∧ ∀ (w : List Instr) (p : Part) (c : Nat) (rest : List Nat) (x : Context) (g : Geometry), p.plu.job = none →
      p.plu.queue = c :: rest → p.context? c = some x → x.pendingOutcome = none → x.state = .planning →
      p.geometry? x.geometry = some g →
      (g.k ≤ (p.candidates x).length → Answers .planJobStart ⟨w, p⟩
          { p with
            plu := {
              queue := rest
              job := some { context := c, void := false, geometry := g, survivors := (p.candidates x).take g.k,
                            lost := x.lostList.map LostEntry.position } } })
        ∧ ((p.candidates x).length < g.k → g.k ≤ (p.candidates x).length + (p.remotePositions x .silent).length →
          x.deadline = .absent → Answers .planJobStart ⟨w, p⟩ (Part.editContext
            { p with plu := { p.plu with queue := rest } } c fun y =>
              { y with state := .planWait, deadline := .due (p.now + 1000000) }))
        ∧ ((p.candidates x).length < g.k → g.k ≤ (p.candidates x).length + (p.remotePositions x .silent).length →
          ∀ time, x.deadline = .due time → Answers .planJobStart ⟨w, p⟩ (Part.editContext
            { p with plu := { p.plu with queue := rest } } c fun y => { y with state := .planWait }))
        ∧ ((p.candidates x).length < g.k → g.k ≤ (p.candidates x).length + (p.remotePositions x .silent).length →
          x.deadline = .passed → p.hdt.rising = true →
          Leads .planJobStart ⟨w, p⟩ fun q => p.abandoned q c x .planWaitLimit)
        ∧ ((p.candidates x).length + (p.remotePositions x .silent).length < g.k → p.hdt.rising = true →
          Leads .planJobStart ⟨w, p⟩ fun q => p.abandoned q c x .noSurvivors)
        ∧ ∀ n claim, (p.candidates x).length + (p.remotePositions x .silent).length < g.k →
          (∀ lane ∈ x.reservation, p.laneUse? lane = none) → p.claimOf? x.stripe = some (n, claim) →
          p.reportPathFull = false → p.queueOpen → p.hdt.rising = true →
          Leads .planJobStart ⟨w, p⟩ fun q =>
            q.context? c = none
              ∧ (∀ lane ∈ x.reservation, (q.lane lane).holder = none ∧ q.laneUse? lane = none)
              ∧ q.clt = { entries := p.clt.entries.dropRow n, owned := p.clt.owned.filter (· != n) }
              ∧ q.hdt = p.hdt.map (changeStripe x.stripe fun r => { r with lost := [], standing := .quiet })
              ∧ ∃ f ∈ q.sgp.control, f.target = none ∧ f.body = .withdraw x.stripe 0x03 0xFF 0

/-- PLAN-DONE with no lost holder writes the survivors and the decode plan into the context, clears its deadline and returns
the lanes beyond those it needs, the highest first. A context that lacks lanes is served at once, as the one context that
waits would be: it is given all of them, the lowest of the free pool, where that has enough, and otherwise stays in PLANNING
and waits with its plan; with a fill that is not READY it stays in PLANNING too. Where the holder of a remote survivor has
become LOST or ABSENT the context plans again, with no position more unusable, and at the ninth re-plan it is ABANDONED. A
void job writes nothing (R27, R30, R89, R90, R94, R95, R101 to R103; that the lanes are the lowest of the free pool is the
model's choice, log 15, that they stand last in the reservation too, log 8, that they are asked for in this event, log 27,
and that a context that also lacks slots asks for them then together with its lanes, all or nothing, log 51; the order in
which the RELEASEs and the fill requests of a re-plan are posted, and in which the fills of slots given here are requested,
is its choice too, logs 8 and 37). -/
def Obligations.PlanJobsEnd : Prop :=
  ∀ (w : List Instr) (p : Part) (j : PlanJob), p.plu.job = some j →
    (j.void = true → Answers .planDone ⟨w, p⟩ { p with plu := { p.plu with job := none } })
      ∧ ∀ x needed, j.void = false → p.context? j.context = some x → x.pendingOutcome = none → x.state = .planning →
        needed = (j.survivors.filter fun v => v.source != .ownHoldings).length →
        ((∀ v ∈ j.survivors, v.source ≠ .ownHoldings → p.gone v.holder = false) → x.reservation.Nodup →
          (needed ≤ x.reservation.length → x.lacking = [] → x.allReady = false →
              Answers .planDone ⟨w, p⟩ (p.planTaken j x needed []))
            ∧ (∀ given, x.reservation.length < needed → needed ≤ x.reservation.length + p.poolLanes.length →
              x.lacking = [] → x.allReady = false → given = p.poolLanes.take (needed - x.reservation.length) →
              Answers .planDone ⟨w, p⟩ (p.planTaken j x needed given))
            ∧ (x.reservation.length + p.poolLanes.length < needed →
              Answers .planDone ⟨w, p⟩ (p.planTaken j x needed []))
            ∧ ((x.lacking ≠ [] ∨ x.reservation.length < needed) → (∀ e ∈ x.lostList, e.lacksSlot = true → e.fill ≠ .ready) →
              p.ctx.contexts.rising = true → (∀ r ∈ p.ctx.contexts, r.1 ≠ j.context → r.2.waits = false) →
              ∀ q, Answers .waitingContextServed ⟨w, p.planTaken j x needed []⟩ q → Answers .planDone ⟨w, p⟩ q))
          ∧ ((∃ v ∈ j.survivors, v.source ≠ .ownHoldings ∧ p.gone v.holder = true) →
            (p.PlainRePlan j.context x → x.rePlans < 8 → Answers .planDone ⟨w, p⟩
                (Part.rePlanned { p with plu := { p.plu with job := none } } j.context x none))
              ∧ (x.rePlans < 8 → Leads .planDone ⟨w, p⟩ fun q =>
                (∃ y, q.context? j.context = some y ∧ y.state = .planning ∧ y.unusable = x.unusable
                    ∧ y.rePlans = x.rePlans + 1 ∧ y.survivors = none ∧ y.plan = none
                    ∧ y.contributions = List.replicate x.chunkCount [] ∧ y.chunksComplete = 0
                    ∧ y.reservation = x.reservation ∧ y.deadline = .absent)
                  ∧ q.generation j.context = p.generation j.context + 1 ∧ j.context ∈ q.plu.queue ∧ q.plu.job = none
                  ∧ (∀ lane ∈ x.reservation, q.laneUse? lane = none) ∧ q.clt = p.clt ∧ q.hdt = p.hdt ∧ q.prs = p.prs)
              ∧ (8 ≤ x.rePlans → p.hdt.rising = true → Leads .planDone ⟨w, p⟩ fun q =>
                p.abandoned q j.context x .rePlanLimit ∧ q.plu.job = none))

/-- Entry to GATHERING, by PLAN-DONE with a plan for a context whose fills are all READY, by the FILL-DONE that makes the
last of them READY, or by the service of a waiting context that lacked lanes: each remote survivor, here none of them lost,
gets a reserved lane of its own in ascending order, with its OPEN posted under the lane's new tag, and the contribution
record is empty. The local survivor, where there is one, then gets its internal opener, which attaches to the serve entry of
its key, there to post its first combine request where the entry is STAGED; or gets a new entry with its STAGE request; or
joins the tail of the waiting list; or fails, so that the context plans again with the local position unusable, or is
ABANDONED at the ninth re-plan (R88 to R90, R92, R94, R95, R108, R124, R132 to R134; that the lanes are given before the
local survivor attaches is the model's choice, log 34, that a context lacking lanes is given the lowest of the pool, which
stand last in its reservation, logs 8 and 15, and that PLAN-DONE asks for them in its event, log 27; the order in which the
RELEASEs and the fill requests of the re-plan are posted is its choice too, logs 8 and 37). -/
def Obligations.GatheringOpensLanes : Prop :=
  ∀ (w : List Instr) (p base entered : Part) (i : Instr) (c : Nat) (x : Context) (survivors : List Survivor)
    (own : Option Survivor) (remotes : List Survivor), p.gathersBy i base c x survivors remotes.length →
    p.ListsSurvivors survivors own remotes → x.reservation.Nodup →
    (∀ n ∈ x.reservation, ∃ l, p.ftu.row? n = some l) → p.roomFor remotes.length →
    entered = base.gatheringEntered c x own remotes →
    (own = none → Answers i ⟨w, p⟩ entered)
      ∧ ∀ v opener, own = some v → opener = p.freshOpener c x v →
        entered.attachesTo opener
          (Answers i ⟨w, p⟩ { entered with svu := { p.svu with waiting := p.svu.waiting ++ [opener] } })
          (Answers i ⟨w, p⟩)

/-- The plan-wait deadline passes for a context in PLANNING, and abandons one in PLAN-WAIT. While the report path is
full the outcome waits in the context, which has released everything; PENDING_OUTCOME_COMPLETE then completes an
outcome, and only when the path has a place: the WITHDRAW, the claim entry's end, the standing, the report and the
context's end (R91, R101 to R103; that the clock moves to the deadline, where it is not past it, is the model's choice,
log 2). -/
def Obligations.OutcomesWaitForTheirReport : Prop :=
  ∀ (w : List Instr) (p : Part) (c : Nat) (x : Context), p.context? c = some x → p.hdt.rising = true →
    (∀ time, x.pendingOutcome = none → x.deadline = .due time →
        (x.state = .planning → Answers (.planWaitDeadline c) ⟨w, p⟩ (Part.editContext
            { p with now := max p.now time } c fun y => { y with deadline := .passed }))
          ∧ (x.state = .planWait → p.reportPathFull = true → Leads (.planWaitDeadline c) ⟨w, p⟩ fun q =>
            (∃ y, q.context? c = some y ∧ y.pendingOutcome = some (.abandoned .planWaitLimit) ∧ y.reservation = []
                ∧ y.survivors = none ∧ y.plan = none ∧ ∀ e ∈ y.lostList, e.slot = none)
              ∧ q.clt = p.clt ∧ q.hdt = p.hdt)
          ∧ (x.state = .planWait → p.reportPathFull = false → Leads (.planWaitDeadline c) ⟨w, p⟩ fun q =>
            q.context? c = none
              ∧ q.hdt = p.hdt.map (changeStripe x.stripe fun r => { r with lost := [], standing := .quiet })))
      ∧ (p.reportPathFull = true → Answers (.pendingOutcomeComplete c) ⟨w, p⟩ p)
      ∧ ∀ n claim, p.claimOf? x.stripe = some (n, claim) → p.reportPathFull = false → p.queueOpen →
        p.claimWaits x.stripe = false →
        (∀ cause, x.pendingOutcome = some (.abandoned cause) →
            AnswersWithImages (.pendingOutcomeComplete c) ⟨w, p⟩ (Part.postReport (Part.queued
              { p with
                ctx := { p.ctx with contexts := p.ctx.contexts.dropRow c }
                clt := { entries := p.clt.entries.dropRow n, owned := p.clt.owned.filter (· != n) }
                hdt := p.hdt.map (changeStripe x.stripe fun r => { r with lost := [], standing := .quiet }) }
              none (.withdraw x.stripe 0x03 0xFF 0)) (.repairAbandoned cause x.stripe)))
          ∧ ∀ failed, x.pendingOutcome = some (.verifyFail failed) →
            AnswersWithImages (.pendingOutcomeComplete c) ⟨w, p⟩ (Part.postReport (Part.queued
              { p with
                ctx := { p.ctx with contexts := p.ctx.contexts.dropRow c }
                clt := { entries := p.clt.entries.dropRow n, owned := p.clt.owned.filter (· != n) }
                hdt := p.hdt.map (changeStripe x.stripe fun r =>
                  { r with lost := claim.lost, standing := .unrecoverable }) }
              none (.withdraw x.stripe 0x07 0xFF 0)) (.verifyFail x.stripe failed))

/-- A verify job computes the digest of every enabled accumulator over the fragment length. When it is done and no
known digest differs, the digests stand in the lost list and the context is DELIVERING; where one differs, the stripe
becomes UNRECOVERABLE, with WITHDRAW(UNRECOVERABLE). A void job does nothing more. The slots of the job are still
owned here (R98, R102, R144 to R146; that the digests are those of the moment the job starts is the model's reading,
log 26). -/
def Obligations.RebuiltFragmentsAreVerified : Prop :=
  ∀ (w : List Instr) (p : Part),
    (∀ j rest x, p.vfu.job = none → p.vfu.queue = j :: rest → p.context? j.context = some x →
        Answers .verifyJobStart ⟨w, p⟩
          { p with
            vfu := {
              queue := rest
              job := some
                { context := j.context, generation := j.generation, void := false, slots := x.slotted.map Prod.snd,
                  digests := x.slotted.map fun ps =>
                    (ps.1, digestOf ((List.range x.length).map fun i =>
                      p.smc.dram.byte ((32 + ps.2) * 1048576 + i))) } } })
      ∧ ∀ j, p.vfu.job = some j → (∀ slot ∈ j.slots, ∃ r, p.slot? slot = some r ∧ r.owner ≠ none) →
        (j.void = true → Answers .verifyDone ⟨w, p⟩ { p with vfu := { p.vfu with job := none } })
          ∧ ∀ x, j.void = false → p.context? j.context = some x → x.pendingOutcome = none → x.state = .verifying →
            p.generation j.context = j.generation →
            ((∀ d ∈ j.digests, ∀ expected, p.expectedDigest? x.stripe d.1 = some expected → expected = d.2) →
                Answers .verifyDone ⟨w, p⟩ (Part.editContext { p with vfu := { p.vfu with job := none } } j.context
                  fun y =>
                    { y with
                      state := .delivering
                      lostList := y.lostList.map fun e =>
                        if e.enabled then { e with digest := (j.digests.lookup e.position).or e.digest } else e }))
              ∧ ∀ n claim d expected, d ∈ j.digests → p.expectedDigest? x.stripe d.1 = some expected → expected ≠ d.2 →
                p.claimOf? x.stripe = some (n, claim) → p.reportPathFull = false → x.reservation = [] → p.queueOpen →
                p.hdt.rising = true →
                Leads .verifyDone ⟨w, p⟩ fun q =>
                  q.context? j.context = none
                    ∧ q.hdt = p.hdt.map (changeStripe x.stripe fun r =>
                      { r with lost := claim.lost, standing := .unrecoverable })
                    ∧ ∃ f ∈ q.sgp.control, f.target = none ∧ f.body = .withdraw x.stripe 0x07 0xFF 0

/-- A context in DELIVERING posts the STORE request of its next entry, the first enabled one that has none, when the report
path has a place: the entry is REQUESTED under the value of the tag counter, which is outstanding then and from which the
counter goes on to the next value that is not; its slot has the right READ under the tag. The report is written into the
ring when none waits before it and the ring has a place, and joins the internal report queue otherwise; nothing else
changes. While the report path is full nothing happens (R99, R154, R168, R169). -/
def Obligations.StoreRequestsArePosted : Prop :=
  ∀ (w : List Instr) (p : Part) (c : Nat) (x : Context) (e : LostEntry) (slot : Nat), p.context? c = some x →
    x.pendingOutcome = none → x.state = .delivering → x.nextStore? = some (e, slot) →
    (p.reportPathFull = true → Answers (.storeRequest c) ⟨w, p⟩ p)
      ∧ ∀ (tag next : Tag) (report : Report) (posted : Part), p.reportPathFull = false → tag = p.hlk.tagCounter →
        nextTag (p.hlk.stageTags ++ p.hlk.storeTags ++ [tag]) tag next →
        report = .storeRequest tag x.stripe e.position x.length (e.digest.getD 0) slot →
        posted = { p with
          hlk := { p.hlk with storeTags := p.hlk.storeTags ++ [tag], tagCounter := next }
          ctx := { p.ctx with
            contexts := p.ctx.contexts.editRow c fun y =>
              { y with lostList := y.lostList.map fun f =>
                  if f.position = e.position then { f with delivery := .requested, tag := some tag } else f } }
          smc := { p.smc with slots := p.smc.slots.editRow slot fun r => { r with right := .read tag } } } →
        posted.postsReport report (Answers (.storeRequest c) ⟨w, p⟩)

/-! ## The combine engine -/

/-- The head combine request starts its operation when its context gathers under its generation and its source still
supplies the operand, a lane's FULL bank under the request's tag or the slot of the serve entry: with copies of the
operand and of the slots and coefficients. A stale one, here of a lane that is IDLE, is completed at once: the lane's
mark is cleared. Posting the request that makes the depth 96 raises the warning and sets WARN (R136 to R138, R143; that the operation holds
the slot of an entry with coefficient 00h too is the model's choice, log 53). -/
def Obligations.CombinesStart : Prop :=
  (∀ (p : Part) (r : CombineRequest), p.cbe.warning = false →
      p.postCombine r =
        if p.combineDepth = 95 then
          Part.flagged { p with cbe := { p.cbe with queue := p.cbe.queue ++ [r], warning := true } } .warn
        else { p with cbe := { p.cbe with queue := p.cbe.queue ++ [r] } })
    ∧ ∀ (w : List Instr) (p : Part) (r : CombineRequest) (rest : List CombineRequest), p.cbe.operation = none →
      p.cbe.queue = r :: rest →
      (∀ x, p.context? r.context = some x → x.pendingOutcome = none → x.state = .gathering →
          p.generation r.context = r.generation →
          (∀ n tag u data, r.source = .lane n tag → p.laneUse? n = some u → fetchTag n (p.lane n).useCount = tag →
            u.active = true → u.bankOf r.chunk = .full r.chunk data →
            Answers .combineStart ⟨w, p⟩
              { p with
                cbe := { p.cbe with
                  queue := rest
                  operation := some { request := r, operand := data, targets := x.targets r.survivor } } })
            ∧ ∀ n e i, r.source = .internal → p.attachedOpener? r.context = some (n, e, i) →
              Answers .combineStart ⟨w, p⟩
                { p with
                  cbe := { p.cbe with
                    queue := rest
                    operation := some
                      { request := r
                        operand := (List.range (chunkLength e.length r.chunk)).map fun t =>
                          p.smc.dram.byte ((32 + e.slot) * 1048576 + r.chunk * 8192 + t)
                        targets := x.targets r.survivor } } })
        ∧ ∀ n tag, r.source = .lane n tag → p.gatheringAt r.context r.generation = false → p.cbe.warning = false →
          p.laneUse? n = none →
          Answers .combineStart ⟨w, p⟩ (Part.editLane { p with cbe := { p.cbe with queue := rest } } n fun l =>
            { l with outstanding := false })

/-- A combine operation ends: each byte of the chunk in each target slot becomes its sum with the coefficient times
the operand byte, and no other byte changes; the warning falls where the depth comes to 32. Where its context is still
current the contribution is recorded, and the source takes its completion. A lane's chunk is consumed and its digest
advanced over the operand. Before the last chunk the lane posts the request of the next where that bank is FULL, and in
STREAMING it sends the PULLs that the window allows. After the last one, with a matching or unknown digest, it is COMPLETE,
its unsent requests withdrawn and its RELEASE sent. The internal opener goes on to its next chunk, its entry used now, and
posts the request of that chunk in STAGED; after the last one it has fed, or, with another digest than the expected one,
the context plans again with the local position unusable, or is ABANDONED at the ninth re-plan, which changes no byte of
the combined DRAM but those of the images of records that it makes QUIET. The report of the last source brings a context that has gathered everything to VERIFYING, with its verify job posted. Where the context is no
longer current nothing is recorded: the lane or the serve unit clears its mark, and a later use of it posts its waiting
request. The slots are still owned here, and no lane's window opens where the warning falls (R10, R31, R33, R93, R94, R101 to
R103, R112, R114 to R116, R120, R133, R134, R138 to R140, R143; that the operation writes its bytes at its end is the
model's reading, log 26, and the order of the re-plan's frames and fills is its choice, logs 8 and 37). -/
def Obligations.CombinesEnd : Prop :=
  ∀ (w : List Instr) (p : Part) (o : CombineOperation), p.cbe.operation = some o →
    (o.targets.map Prod.fst).Nodup → o.request.chunk < 128 → o.operand.length ≤ 8192 →
    (∀ t ∈ o.targets, ∃ r, p.slot? t.1 = some r ∧ r.owner ≠ none) →
    (p.cbe.warning = true → p.cbe.queue.length = 32 →
      ∀ r ∈ p.ftu, ∀ u, r.2.use = some u → u.state = .streaming → ¬ u.windowOpen 2) →
    (∀ (x : Context) (g : Geometry), p.context? o.request.context = some x →
        p.gatheringAt o.request.context o.request.generation = true → p.geometry? x.geometry = some g →
        (∀ (n : Nat) (tag : Tag) (u v : LaneUse) (done : Part), o.request.source = .lane n tag →
          p.laneUse? n = some u → fetchTag n (p.lane n).useCount = tag → u.active = true →
          u.nextConsume = o.request.chunk → v = u.consumed o.operand →
          done = ((p.contributionMade o g.k).editLane n fun l => { l with outstanding := false, use := some v }) →
          (v.nextConsume < chunkCountOf u.length →
              (u.state ≠ .streaming → EndsCombine w p o (done.nextAsked n v))
                ∧ (u.state = .streaming → (done.nextAsked n v).windowTested n v
                  (if (done.nextAsked n v).cbe.warning = true then 1 else 2) (EndsCombine w p o)))
            ∧ (chunkCountOf u.length ≤ v.nextConsume →
              (u.digest = none ∨ u.digest = some (v.runningDigest ^^^ 0xFFFFFFFF#32)) →
              u.context = o.request.context → u.generation = o.request.generation → p.roomFor 1 →
              Part.gatheredTested (((done.withdrawRequests n).setUse n { v with state := .complete }).queued
                (some u.server) (.release tag)) o.request.context x (EndsCombine w p o)))
          ∧ ∀ (n : Nat) (e : ServeEntry) (i j : InternalOpener) (ended : OpenerEnd → Part), o.request.source = .internal →
            p.attachedOpener? o.request.context = some (n, e, i) → p.serve? n = some e → p.svu.entries.rising = true →
            i.generation = o.request.generation → i.ended = .open_ →
            j = { i with nextChunk := i.nextChunk + 1, runningDigest := digestAdvance i.runningDigest o.operand } →
            (∀ z, ended z = { p.contributionMade o g.k with
              svu := { p.svu with
                entries := p.svu.entries.setRow n
                  { e with
                    openers := e.openers.map fun k =>
                      if k.isInternalOf o.request.context = true then .internal { j with ended := z } else k
                    lastUse := p.now }
                combineMarks := p.svu.combineMarks.filter (· != o.request.context) } }) →
            (j.nextChunk < chunkCountOf e.length →
                (e.state ≠ .staged → EndsCombine w p o (ended .open_))
                  ∧ (e.state = .staged → EndsCombine w p o (Part.postCombine
                    { ended .open_ with
                      svu := { (ended .open_).svu with
                        combineMarks := insertPosition o.request.context (ended .open_).svu.combineMarks } }
                    { context := o.request.context, generation := i.generation, survivor := 0, chunk := j.nextChunk,
                      source := .internal })))
              ∧ (chunkCountOf e.length ≤ j.nextChunk →
                (∀ d, p.expectedDigest? i.stripe i.position = some d → d = j.runningDigest ^^^ 0xFFFFFFFF#32) →
                p.sgp.hold = [] → (ended .fed).gatheredTested o.request.context x (EndsCombine w p o))
              ∧ ∀ d, chunkCountOf e.length ≤ j.nextChunk → p.expectedDigest? i.stripe i.position = some d →
                d ≠ j.runningDigest ^^^ 0xFFFFFFFF#32 →
                (p.CanRePlan o.request.context o.request.generation x → x.rePlans < 8 → EndsCombine w p o
                    ((ended .open_).rePlanned o.request.context x (some i.position)))
                  ∧ (8 ≤ x.rePlans → p.hdt.rising = true → Leads .combineDone ⟨w, p⟩ fun q =>
                    p.combinedWithImages q o ∧ p.abandoned q o.request.context x .rePlanLimit))
      ∧ (p.gatheringAt o.request.context o.request.generation = false →
        (∀ n tag done, o.request.source = .lane n tag →
          done = (p.operationEnded.editLane n fun l => { l with outstanding := false }) →
          (p.laneUse? n = none → EndsCombine w p o done)
            ∧ ∀ u, p.laneUse? n = some u → fetchTag n (p.lane n).useCount ≠ tag →
              EndsCombine w p o (if u.active = true then done.nextAsked n u else done))
          ∧ ∀ done, o.request.source = .internal →
            done = { p.operationEnded with
              svu := { p.svu with combineMarks := p.svu.combineMarks.filter (· != o.request.context) } } →
            (p.attachedOpener? o.request.context = none → EndsCombine w p o done)
              ∧ ∀ n e i, p.attachedOpener? o.request.context = some (n, e, i) → i.generation ≠ o.request.generation →
                (e.state ≠ .staged ∨ i.ended ≠ .open_ ∨ chunkCountOf e.length ≤ i.nextChunk → EndsCombine w p o done)
                  ∧ (e.state = .staged → i.ended = .open_ → i.nextChunk < chunkCountOf e.length →
                    EndsCombine w p o (Part.postCombine
                      { done with
                        svu := { done.svu with
                          combineMarks := insertPosition o.request.context done.svu.combineMarks } }
                      { context := o.request.context, generation := i.generation, survivor := 0, chunk := i.nextChunk,
                        source := .internal })))

/-! ## The code of a stripe -/

/-- The field product: it distributes over the field sum, commutes and associates; 00h gives 00h and 01h the byte
itself; 02h shifts a byte one place and adds 2Dh where bit 7 was set. Every nonzero byte has exactly one inverse, and
00h has none (R21, R22). -/
def Obligations.BytesAreAField : Prop :=
  (∀ a b c : Byte, fieldMul (a ^^^ b) c = fieldMul a c ^^^ fieldMul b c)
    ∧ (∀ a b : Byte, fieldMul a b = fieldMul b a)
    ∧ (∀ a b c : Byte, fieldMul (fieldMul a b) c = fieldMul a (fieldMul b c))
    ∧ (∀ a : Byte, fieldMul a 0x00 = 0x00 ∧ fieldMul a 0x01 = a)
    ∧ (∀ a : Byte, fieldMul a 0x02 = (a <<< 1) ^^^ (if a.getLsbD 7 then 0x2D#8 else 0))
    ∧ (∀ a : Byte, a ≠ 0 → ∀ b : Byte, fieldMul a b = 0x01 ↔ b = fieldInverse a)
    ∧ ∀ b : Byte, fieldMul 0x00 b ≠ 0x01

/-- A decode plan has one row for each lost position, in their order, and restores what was lost: for every geometry,
every list of k different survivors and every lost position, the field sum of the plan's coefficients times the survivors' bytes is the byte of the lost fragment,
whatever the data bytes (R23, R28, R29). -/
def Obligations.DecodePlansRestoreFragments : Prop :=
  ∀ (g : Geometry) (survivors lost : Positions) (data : List Byte) (i position : Nat),
    2 ≤ g.k → g.k ≤ 12 → 1 ≤ g.m → g.m ≤ 4 → g.width ≤ 16 → survivors.length = g.k → survivors.Nodup →
    (∀ s ∈ survivors, s < g.width) → data.length = g.k → lost[i]? = some position → position < g.width →
    (decodePlan g survivors lost).length = lost.length
      ∧ ∃ row, (decodePlan g survivors lost)[i]? = some row ∧ row.length = g.k
        ∧ fieldDot row (survivors.map fun s => fieldDot (generatorRow g s) data) = fieldDot (generatorRow g position) data

/-! ## Layouts -/

/-- What the part puts on the wire is read back as the arrival of the frame it stands for, by every kind and with
every field, its addresses and its EtherType among them, also when the frame is padded with zeros to the shortest one (R155, R156, R160, R161; the shortest
payload of 46 bytes is the model's, log 19). -/
def Obligations.FramesAreReadBack : Prop :=
  ∀ (destination source : Mac) (etherType : BitVec 16) (sender target : Byte) (epoch : Epoch) (body : FrameBody),
    body.lengthOk = true →
    decodeFrame { destination := destination, source := source, etherType := etherType,
                  payload := framePayload sender target epoch body }
      = body.arrival { destination := destination, source := source, etherType := etherType, sender := sender,
                       target := target, epoch := epoch }
    ∧ decodeFrame { destination := destination, source := source, etherType := etherType,
                    payload := framePayload sender target epoch body
                      ++ List.replicate (46 - (framePayload sender target epoch body).length) 0 }
      = body.arrival { destination := destination, source := source, etherType := etherType, sender := sender,
                       target := target, epoch := epoch }

/-- Every command of the host's has a command ring entry, and only those; it is 128 bytes, and is read back as the
command it stands for, with every field at every value. A report ring entry is 64 bytes; read by its table it says the
report's kind, codes and fields, and has zero in every byte of another kind's fields and in every byte that no field names.
A mask has the bit of each position of its set and no other. The image of a holding record is 256 bytes, and read by its
table it says what the record holds (R10, R161, R164, R169; that the fields of a report that its kind is not said to carry
are zero is the model's choice, log 52; that the bytes of absent fields and positions of an image are zero, and that the age
is rounded down, is its reading, log 29). -/
def Obligations.RingEntriesAreReadBack : Prop :=
  (∀ i : Instr, Instr.wellFormed i = true →
      (Instr.ofRing i → ∃ entry, encodeEntry? i = some entry)
        ∧ ∀ entry, encodeEntry? i = some entry → Instr.ofRing i ∧ entry.length = 128 ∧ decodeEntry entry = i)
    ∧ (∀ r : Report, r.fits →
        r.bytes.length = 64 ∧ readReport r.bytes = r.entry
          ∧ ∀ k, k < 64 → k = 3 ∨ k = 15 ∨ 30 ≤ k → leField r.bytes k 1 = 0)
    ∧ (∀ (positions : Positions) (i : Nat), i < 16 →
        ((maskOf positions).toNat.testBit i = true ↔ i ∈ positions))
    ∧ ∀ (r : HoldingRecord) (now : Nat), r.Fits now → r.ReadBack now (r.image now)
end

