-- ==== Sys2Proof/Laws/State.lean ====
section
/-! SUPPORT. The updates of single fields of the part: one lemma for each field and each update, so that no later proof
unfolds an update. -/

namespace Sys2Proof.Machine

variable (p : Part)

@[simp] theorem Part.reach_now (time : Nat) : (p.reach time).now = max p.now time := rfl
@[simp] theorem Part.reach_config (time : Nat) : (p.reach time).config = p.config := rfl
@[simp] theorem Part.reach_hlk (time : Nat) : (p.reach time).hlk = p.hlk := rfl
@[simp] theorem Part.reach_prs (time : Nat) : (p.reach time).prs = p.prs := rfl
@[simp] theorem Part.reach_hdt (time : Nat) : (p.reach time).hdt = p.hdt := rfl
@[simp] theorem Part.reach_scn (time : Nat) : (p.reach time).scn = p.scn := rfl
@[simp] theorem Part.reach_rq (time : Nat) : (p.reach time).rq = p.rq := rfl
@[simp] theorem Part.reach_rqWait (time : Nat) : (p.reach time).rqWait = p.rqWait := rfl
@[simp] theorem Part.reach_clt (time : Nat) : (p.reach time).clt = p.clt := rfl
@[simp] theorem Part.reach_ctx (time : Nat) : (p.reach time).ctx = p.ctx := rfl
@[simp] theorem Part.reach_plu (time : Nat) : (p.reach time).plu = p.plu := rfl
@[simp] theorem Part.reach_ftu (time : Nat) : (p.reach time).ftu = p.ftu := rfl
@[simp] theorem Part.reach_svu (time : Nat) : (p.reach time).svu = p.svu := rfl
@[simp] theorem Part.reach_cbe (time : Nat) : (p.reach time).cbe = p.cbe := rfl
@[simp] theorem Part.reach_vfu (time : Nat) : (p.reach time).vfu = p.vfu := rfl
@[simp] theorem Part.reach_smc (time : Nat) : (p.reach time).smc = p.smc := rfl
@[simp] theorem Part.reach_sgp (time : Nat) : (p.reach time).sgp = p.sgp := rfl

@[simp] theorem Part.tick_now : (p.tick).now = p.now + 1 := rfl
@[simp] theorem Part.tick_config : (p.tick).config = p.config := rfl
@[simp] theorem Part.tick_hlk : (p.tick).hlk = p.hlk := rfl
@[simp] theorem Part.tick_prs : (p.tick).prs = p.prs := rfl
@[simp] theorem Part.tick_hdt : (p.tick).hdt = p.hdt := rfl
@[simp] theorem Part.tick_scn : (p.tick).scn = p.scn := rfl
@[simp] theorem Part.tick_rq : (p.tick).rq = p.rq := rfl
@[simp] theorem Part.tick_rqWait : (p.tick).rqWait = p.rqWait := rfl
@[simp] theorem Part.tick_clt : (p.tick).clt = p.clt := rfl
@[simp] theorem Part.tick_ctx : (p.tick).ctx = p.ctx := rfl
@[simp] theorem Part.tick_plu : (p.tick).plu = p.plu := rfl
@[simp] theorem Part.tick_ftu : (p.tick).ftu = p.ftu := rfl
@[simp] theorem Part.tick_svu : (p.tick).svu = p.svu := rfl
@[simp] theorem Part.tick_cbe : (p.tick).cbe = p.cbe := rfl
@[simp] theorem Part.tick_vfu : (p.tick).vfu = p.vfu := rfl
@[simp] theorem Part.tick_smc : (p.tick).smc = p.smc := rfl
@[simp] theorem Part.tick_sgp : (p.tick).sgp = p.sgp := rfl

@[simp] theorem Part.editPeer_now (n : Nat) (f : Peer → Peer) : (p.editPeer n f).now = p.now := rfl
@[simp] theorem Part.editPeer_config (n : Nat) (f : Peer → Peer) : (p.editPeer n f).config = p.config := rfl
@[simp] theorem Part.editPeer_hlk (n : Nat) (f : Peer → Peer) : (p.editPeer n f).hlk = p.hlk := rfl
@[simp] theorem Part.editPeer_prs (n : Nat) (f : Peer → Peer) :
    (p.editPeer n f).prs = { p.prs with peers := p.prs.peers.editRow n f } := rfl
@[simp] theorem Part.editPeer_hdt (n : Nat) (f : Peer → Peer) : (p.editPeer n f).hdt = p.hdt := rfl
@[simp] theorem Part.editPeer_scn (n : Nat) (f : Peer → Peer) : (p.editPeer n f).scn = p.scn := rfl
@[simp] theorem Part.editPeer_rq (n : Nat) (f : Peer → Peer) : (p.editPeer n f).rq = p.rq := rfl
@[simp] theorem Part.editPeer_rqWait (n : Nat) (f : Peer → Peer) : (p.editPeer n f).rqWait = p.rqWait := rfl
@[simp] theorem Part.editPeer_clt (n : Nat) (f : Peer → Peer) : (p.editPeer n f).clt = p.clt := rfl
@[simp] theorem Part.editPeer_ctx (n : Nat) (f : Peer → Peer) : (p.editPeer n f).ctx = p.ctx := rfl
@[simp] theorem Part.editPeer_plu (n : Nat) (f : Peer → Peer) : (p.editPeer n f).plu = p.plu := rfl
@[simp] theorem Part.editPeer_ftu (n : Nat) (f : Peer → Peer) : (p.editPeer n f).ftu = p.ftu := rfl
@[simp] theorem Part.editPeer_svu (n : Nat) (f : Peer → Peer) : (p.editPeer n f).svu = p.svu := rfl
@[simp] theorem Part.editPeer_cbe (n : Nat) (f : Peer → Peer) : (p.editPeer n f).cbe = p.cbe := rfl
@[simp] theorem Part.editPeer_vfu (n : Nat) (f : Peer → Peer) : (p.editPeer n f).vfu = p.vfu := rfl
@[simp] theorem Part.editPeer_smc (n : Nat) (f : Peer → Peer) : (p.editPeer n f).smc = p.smc := rfl
@[simp] theorem Part.editPeer_sgp (n : Nat) (f : Peer → Peer) : (p.editPeer n f).sgp = p.sgp := rfl

@[simp] theorem Part.editRack_now (n : Nat) (f : Rack → Rack) : (p.editRack n f).now = p.now := rfl
@[simp] theorem Part.editRack_config (n : Nat) (f : Rack → Rack) : (p.editRack n f).config = p.config := rfl
@[simp] theorem Part.editRack_hlk (n : Nat) (f : Rack → Rack) : (p.editRack n f).hlk = p.hlk := rfl
@[simp] theorem Part.editRack_prs (n : Nat) (f : Rack → Rack) :
    (p.editRack n f).prs = { p.prs with racks := p.prs.racks.editRow n f } := rfl
@[simp] theorem Part.editRack_hdt (n : Nat) (f : Rack → Rack) : (p.editRack n f).hdt = p.hdt := rfl
@[simp] theorem Part.editRack_scn (n : Nat) (f : Rack → Rack) : (p.editRack n f).scn = p.scn := rfl
@[simp] theorem Part.editRack_rq (n : Nat) (f : Rack → Rack) : (p.editRack n f).rq = p.rq := rfl
@[simp] theorem Part.editRack_rqWait (n : Nat) (f : Rack → Rack) : (p.editRack n f).rqWait = p.rqWait := rfl
@[simp] theorem Part.editRack_clt (n : Nat) (f : Rack → Rack) : (p.editRack n f).clt = p.clt := rfl
@[simp] theorem Part.editRack_ctx (n : Nat) (f : Rack → Rack) : (p.editRack n f).ctx = p.ctx := rfl
@[simp] theorem Part.editRack_plu (n : Nat) (f : Rack → Rack) : (p.editRack n f).plu = p.plu := rfl
@[simp] theorem Part.editRack_ftu (n : Nat) (f : Rack → Rack) : (p.editRack n f).ftu = p.ftu := rfl
@[simp] theorem Part.editRack_svu (n : Nat) (f : Rack → Rack) : (p.editRack n f).svu = p.svu := rfl
@[simp] theorem Part.editRack_cbe (n : Nat) (f : Rack → Rack) : (p.editRack n f).cbe = p.cbe := rfl
@[simp] theorem Part.editRack_vfu (n : Nat) (f : Rack → Rack) : (p.editRack n f).vfu = p.vfu := rfl
@[simp] theorem Part.editRack_smc (n : Nat) (f : Rack → Rack) : (p.editRack n f).smc = p.smc := rfl
@[simp] theorem Part.editRack_sgp (n : Nat) (f : Rack → Rack) : (p.editRack n f).sgp = p.sgp := rfl

@[simp] theorem Part.setContext_now (c : Nat) (x : Context) : (p.setContext c x).now = p.now := rfl
@[simp] theorem Part.setContext_config (c : Nat) (x : Context) : (p.setContext c x).config = p.config := rfl
@[simp] theorem Part.setContext_hlk (c : Nat) (x : Context) : (p.setContext c x).hlk = p.hlk := rfl
@[simp] theorem Part.setContext_prs (c : Nat) (x : Context) : (p.setContext c x).prs = p.prs := rfl
@[simp] theorem Part.setContext_hdt (c : Nat) (x : Context) : (p.setContext c x).hdt = p.hdt := rfl
@[simp] theorem Part.setContext_scn (c : Nat) (x : Context) : (p.setContext c x).scn = p.scn := rfl
@[simp] theorem Part.setContext_rq (c : Nat) (x : Context) : (p.setContext c x).rq = p.rq := rfl
@[simp] theorem Part.setContext_rqWait (c : Nat) (x : Context) : (p.setContext c x).rqWait = p.rqWait := rfl
@[simp] theorem Part.setContext_clt (c : Nat) (x : Context) : (p.setContext c x).clt = p.clt := rfl
@[simp] theorem Part.setContext_ctx (c : Nat) (x : Context) :
    (p.setContext c x).ctx = { p.ctx with contexts := p.ctx.contexts.setRow c x } := rfl
@[simp] theorem Part.setContext_plu (c : Nat) (x : Context) : (p.setContext c x).plu = p.plu := rfl
@[simp] theorem Part.setContext_ftu (c : Nat) (x : Context) : (p.setContext c x).ftu = p.ftu := rfl
@[simp] theorem Part.setContext_svu (c : Nat) (x : Context) : (p.setContext c x).svu = p.svu := rfl
@[simp] theorem Part.setContext_cbe (c : Nat) (x : Context) : (p.setContext c x).cbe = p.cbe := rfl
@[simp] theorem Part.setContext_vfu (c : Nat) (x : Context) : (p.setContext c x).vfu = p.vfu := rfl
@[simp] theorem Part.setContext_smc (c : Nat) (x : Context) : (p.setContext c x).smc = p.smc := rfl
@[simp] theorem Part.setContext_sgp (c : Nat) (x : Context) : (p.setContext c x).sgp = p.sgp := rfl

@[simp] theorem Part.editContext_now (c : Nat) (f : Context → Context) : (p.editContext c f).now = p.now := rfl
@[simp] theorem Part.editContext_config (c : Nat) (f : Context → Context) :
    (p.editContext c f).config = p.config := rfl
@[simp] theorem Part.editContext_hlk (c : Nat) (f : Context → Context) : (p.editContext c f).hlk = p.hlk := rfl
@[simp] theorem Part.editContext_prs (c : Nat) (f : Context → Context) : (p.editContext c f).prs = p.prs := rfl
@[simp] theorem Part.editContext_hdt (c : Nat) (f : Context → Context) : (p.editContext c f).hdt = p.hdt := rfl
@[simp] theorem Part.editContext_scn (c : Nat) (f : Context → Context) : (p.editContext c f).scn = p.scn := rfl
@[simp] theorem Part.editContext_rq (c : Nat) (f : Context → Context) : (p.editContext c f).rq = p.rq := rfl
@[simp] theorem Part.editContext_rqWait (c : Nat) (f : Context → Context) : (p.editContext c f).rqWait = p.rqWait := rfl
@[simp] theorem Part.editContext_clt (c : Nat) (f : Context → Context) : (p.editContext c f).clt = p.clt := rfl
@[simp] theorem Part.editContext_ctx (c : Nat) (f : Context → Context) :
    (p.editContext c f).ctx = { p.ctx with contexts := p.ctx.contexts.editRow c f } := rfl
@[simp] theorem Part.editContext_plu (c : Nat) (f : Context → Context) : (p.editContext c f).plu = p.plu := rfl
@[simp] theorem Part.editContext_ftu (c : Nat) (f : Context → Context) : (p.editContext c f).ftu = p.ftu := rfl
@[simp] theorem Part.editContext_svu (c : Nat) (f : Context → Context) : (p.editContext c f).svu = p.svu := rfl
@[simp] theorem Part.editContext_cbe (c : Nat) (f : Context → Context) : (p.editContext c f).cbe = p.cbe := rfl
@[simp] theorem Part.editContext_vfu (c : Nat) (f : Context → Context) : (p.editContext c f).vfu = p.vfu := rfl
@[simp] theorem Part.editContext_smc (c : Nat) (f : Context → Context) : (p.editContext c f).smc = p.smc := rfl
@[simp] theorem Part.editContext_sgp (c : Nat) (f : Context → Context) : (p.editContext c f).sgp = p.sgp := rfl

@[simp] theorem Part.bumpGeneration_now (c : Nat) : (p.bumpGeneration c).now = p.now := rfl
@[simp] theorem Part.bumpGeneration_config (c : Nat) : (p.bumpGeneration c).config = p.config := rfl
@[simp] theorem Part.bumpGeneration_hlk (c : Nat) : (p.bumpGeneration c).hlk = p.hlk := rfl
@[simp] theorem Part.bumpGeneration_prs (c : Nat) : (p.bumpGeneration c).prs = p.prs := rfl
@[simp] theorem Part.bumpGeneration_hdt (c : Nat) : (p.bumpGeneration c).hdt = p.hdt := rfl
@[simp] theorem Part.bumpGeneration_scn (c : Nat) : (p.bumpGeneration c).scn = p.scn := rfl
@[simp] theorem Part.bumpGeneration_rq (c : Nat) : (p.bumpGeneration c).rq = p.rq := rfl
@[simp] theorem Part.bumpGeneration_rqWait (c : Nat) : (p.bumpGeneration c).rqWait = p.rqWait := rfl
@[simp] theorem Part.bumpGeneration_clt (c : Nat) : (p.bumpGeneration c).clt = p.clt := rfl
@[simp] theorem Part.bumpGeneration_ctx (c : Nat) :
    (p.bumpGeneration c).ctx = { p.ctx with generations := p.ctx.generations.setRow c (p.generation c + 1) } := rfl
@[simp] theorem Part.bumpGeneration_plu (c : Nat) : (p.bumpGeneration c).plu = p.plu := rfl
@[simp] theorem Part.bumpGeneration_ftu (c : Nat) : (p.bumpGeneration c).ftu = p.ftu := rfl
@[simp] theorem Part.bumpGeneration_svu (c : Nat) : (p.bumpGeneration c).svu = p.svu := rfl
@[simp] theorem Part.bumpGeneration_cbe (c : Nat) : (p.bumpGeneration c).cbe = p.cbe := rfl
@[simp] theorem Part.bumpGeneration_vfu (c : Nat) : (p.bumpGeneration c).vfu = p.vfu := rfl
@[simp] theorem Part.bumpGeneration_smc (c : Nat) : (p.bumpGeneration c).smc = p.smc := rfl
@[simp] theorem Part.bumpGeneration_sgp (c : Nat) : (p.bumpGeneration c).sgp = p.sgp := rfl

@[simp] theorem Part.editLane_now (n : Nat) (f : Lane → Lane) : (p.editLane n f).now = p.now := rfl
@[simp] theorem Part.editLane_config (n : Nat) (f : Lane → Lane) : (p.editLane n f).config = p.config := rfl
@[simp] theorem Part.editLane_hlk (n : Nat) (f : Lane → Lane) : (p.editLane n f).hlk = p.hlk := rfl
@[simp] theorem Part.editLane_prs (n : Nat) (f : Lane → Lane) : (p.editLane n f).prs = p.prs := rfl
@[simp] theorem Part.editLane_hdt (n : Nat) (f : Lane → Lane) : (p.editLane n f).hdt = p.hdt := rfl
@[simp] theorem Part.editLane_scn (n : Nat) (f : Lane → Lane) : (p.editLane n f).scn = p.scn := rfl
@[simp] theorem Part.editLane_rq (n : Nat) (f : Lane → Lane) : (p.editLane n f).rq = p.rq := rfl
@[simp] theorem Part.editLane_rqWait (n : Nat) (f : Lane → Lane) : (p.editLane n f).rqWait = p.rqWait := rfl
@[simp] theorem Part.editLane_clt (n : Nat) (f : Lane → Lane) : (p.editLane n f).clt = p.clt := rfl
@[simp] theorem Part.editLane_ctx (n : Nat) (f : Lane → Lane) : (p.editLane n f).ctx = p.ctx := rfl
@[simp] theorem Part.editLane_plu (n : Nat) (f : Lane → Lane) : (p.editLane n f).plu = p.plu := rfl
@[simp] theorem Part.editLane_ftu (n : Nat) (f : Lane → Lane) : (p.editLane n f).ftu = p.ftu.editRow n f := rfl
@[simp] theorem Part.editLane_svu (n : Nat) (f : Lane → Lane) : (p.editLane n f).svu = p.svu := rfl
@[simp] theorem Part.editLane_cbe (n : Nat) (f : Lane → Lane) : (p.editLane n f).cbe = p.cbe := rfl
@[simp] theorem Part.editLane_vfu (n : Nat) (f : Lane → Lane) : (p.editLane n f).vfu = p.vfu := rfl
@[simp] theorem Part.editLane_smc (n : Nat) (f : Lane → Lane) : (p.editLane n f).smc = p.smc := rfl
@[simp] theorem Part.editLane_sgp (n : Nat) (f : Lane → Lane) : (p.editLane n f).sgp = p.sgp := rfl

@[simp] theorem Part.setUse_now (n : Nat) (u : LaneUse) : (p.setUse n u).now = p.now := rfl
@[simp] theorem Part.setUse_config (n : Nat) (u : LaneUse) : (p.setUse n u).config = p.config := rfl
@[simp] theorem Part.setUse_hlk (n : Nat) (u : LaneUse) : (p.setUse n u).hlk = p.hlk := rfl
@[simp] theorem Part.setUse_prs (n : Nat) (u : LaneUse) : (p.setUse n u).prs = p.prs := rfl
@[simp] theorem Part.setUse_hdt (n : Nat) (u : LaneUse) : (p.setUse n u).hdt = p.hdt := rfl
@[simp] theorem Part.setUse_scn (n : Nat) (u : LaneUse) : (p.setUse n u).scn = p.scn := rfl
@[simp] theorem Part.setUse_rq (n : Nat) (u : LaneUse) : (p.setUse n u).rq = p.rq := rfl
@[simp] theorem Part.setUse_rqWait (n : Nat) (u : LaneUse) : (p.setUse n u).rqWait = p.rqWait := rfl
@[simp] theorem Part.setUse_clt (n : Nat) (u : LaneUse) : (p.setUse n u).clt = p.clt := rfl
@[simp] theorem Part.setUse_ctx (n : Nat) (u : LaneUse) : (p.setUse n u).ctx = p.ctx := rfl
@[simp] theorem Part.setUse_plu (n : Nat) (u : LaneUse) : (p.setUse n u).plu = p.plu := rfl
@[simp] theorem Part.setUse_ftu (n : Nat) (u : LaneUse) :
    (p.setUse n u).ftu = p.ftu.editRow n fun l => { l with use := some u } := rfl
@[simp] theorem Part.setUse_svu (n : Nat) (u : LaneUse) : (p.setUse n u).svu = p.svu := rfl
@[simp] theorem Part.setUse_cbe (n : Nat) (u : LaneUse) : (p.setUse n u).cbe = p.cbe := rfl
@[simp] theorem Part.setUse_vfu (n : Nat) (u : LaneUse) : (p.setUse n u).vfu = p.vfu := rfl
@[simp] theorem Part.setUse_smc (n : Nat) (u : LaneUse) : (p.setUse n u).smc = p.smc := rfl
@[simp] theorem Part.setUse_sgp (n : Nat) (u : LaneUse) : (p.setUse n u).sgp = p.sgp := rfl

@[simp] theorem Part.setClaim_now (n : Nat) (e : ClaimEntry) : (p.setClaim n e).now = p.now := rfl
@[simp] theorem Part.setClaim_config (n : Nat) (e : ClaimEntry) : (p.setClaim n e).config = p.config := rfl
@[simp] theorem Part.setClaim_hlk (n : Nat) (e : ClaimEntry) : (p.setClaim n e).hlk = p.hlk := rfl
@[simp] theorem Part.setClaim_prs (n : Nat) (e : ClaimEntry) : (p.setClaim n e).prs = p.prs := rfl
@[simp] theorem Part.setClaim_hdt (n : Nat) (e : ClaimEntry) : (p.setClaim n e).hdt = p.hdt := rfl
@[simp] theorem Part.setClaim_scn (n : Nat) (e : ClaimEntry) : (p.setClaim n e).scn = p.scn := rfl
@[simp] theorem Part.setClaim_rq (n : Nat) (e : ClaimEntry) : (p.setClaim n e).rq = p.rq := rfl
@[simp] theorem Part.setClaim_rqWait (n : Nat) (e : ClaimEntry) : (p.setClaim n e).rqWait = p.rqWait := rfl
@[simp] theorem Part.setClaim_clt (n : Nat) (e : ClaimEntry) :
    (p.setClaim n e).clt = { p.clt with entries := p.clt.entries.setRow n e } := rfl
@[simp] theorem Part.setClaim_ctx (n : Nat) (e : ClaimEntry) : (p.setClaim n e).ctx = p.ctx := rfl
@[simp] theorem Part.setClaim_plu (n : Nat) (e : ClaimEntry) : (p.setClaim n e).plu = p.plu := rfl
@[simp] theorem Part.setClaim_ftu (n : Nat) (e : ClaimEntry) : (p.setClaim n e).ftu = p.ftu := rfl
@[simp] theorem Part.setClaim_svu (n : Nat) (e : ClaimEntry) : (p.setClaim n e).svu = p.svu := rfl
@[simp] theorem Part.setClaim_cbe (n : Nat) (e : ClaimEntry) : (p.setClaim n e).cbe = p.cbe := rfl
@[simp] theorem Part.setClaim_vfu (n : Nat) (e : ClaimEntry) : (p.setClaim n e).vfu = p.vfu := rfl
@[simp] theorem Part.setClaim_smc (n : Nat) (e : ClaimEntry) : (p.setClaim n e).smc = p.smc := rfl
@[simp] theorem Part.setClaim_sgp (n : Nat) (e : ClaimEntry) : (p.setClaim n e).sgp = p.sgp := rfl

@[simp] theorem Part.setServe_now (n : Nat) (e : ServeEntry) : (p.setServe n e).now = p.now := rfl
@[simp] theorem Part.setServe_config (n : Nat) (e : ServeEntry) : (p.setServe n e).config = p.config := rfl
@[simp] theorem Part.setServe_hlk (n : Nat) (e : ServeEntry) : (p.setServe n e).hlk = p.hlk := rfl
@[simp] theorem Part.setServe_prs (n : Nat) (e : ServeEntry) : (p.setServe n e).prs = p.prs := rfl
@[simp] theorem Part.setServe_hdt (n : Nat) (e : ServeEntry) : (p.setServe n e).hdt = p.hdt := rfl
@[simp] theorem Part.setServe_scn (n : Nat) (e : ServeEntry) : (p.setServe n e).scn = p.scn := rfl
@[simp] theorem Part.setServe_rq (n : Nat) (e : ServeEntry) : (p.setServe n e).rq = p.rq := rfl
@[simp] theorem Part.setServe_rqWait (n : Nat) (e : ServeEntry) : (p.setServe n e).rqWait = p.rqWait := rfl
@[simp] theorem Part.setServe_clt (n : Nat) (e : ServeEntry) : (p.setServe n e).clt = p.clt := rfl
@[simp] theorem Part.setServe_ctx (n : Nat) (e : ServeEntry) : (p.setServe n e).ctx = p.ctx := rfl
@[simp] theorem Part.setServe_plu (n : Nat) (e : ServeEntry) : (p.setServe n e).plu = p.plu := rfl
@[simp] theorem Part.setServe_ftu (n : Nat) (e : ServeEntry) : (p.setServe n e).ftu = p.ftu := rfl
@[simp] theorem Part.setServe_svu (n : Nat) (e : ServeEntry) :
    (p.setServe n e).svu = { p.svu with entries := p.svu.entries.setRow n e } := rfl
@[simp] theorem Part.setServe_cbe (n : Nat) (e : ServeEntry) : (p.setServe n e).cbe = p.cbe := rfl
@[simp] theorem Part.setServe_vfu (n : Nat) (e : ServeEntry) : (p.setServe n e).vfu = p.vfu := rfl
@[simp] theorem Part.setServe_smc (n : Nat) (e : ServeEntry) : (p.setServe n e).smc = p.smc := rfl
@[simp] theorem Part.setServe_sgp (n : Nat) (e : ServeEntry) : (p.setServe n e).sgp = p.sgp := rfl

@[simp] theorem Part.setSlot_now (j : Nat) (r : Slot) : (p.setSlot j r).now = p.now := rfl
@[simp] theorem Part.setSlot_config (j : Nat) (r : Slot) : (p.setSlot j r).config = p.config := rfl
@[simp] theorem Part.setSlot_hlk (j : Nat) (r : Slot) : (p.setSlot j r).hlk = p.hlk := rfl
@[simp] theorem Part.setSlot_prs (j : Nat) (r : Slot) : (p.setSlot j r).prs = p.prs := rfl
@[simp] theorem Part.setSlot_hdt (j : Nat) (r : Slot) : (p.setSlot j r).hdt = p.hdt := rfl
@[simp] theorem Part.setSlot_scn (j : Nat) (r : Slot) : (p.setSlot j r).scn = p.scn := rfl
@[simp] theorem Part.setSlot_rq (j : Nat) (r : Slot) : (p.setSlot j r).rq = p.rq := rfl
@[simp] theorem Part.setSlot_rqWait (j : Nat) (r : Slot) : (p.setSlot j r).rqWait = p.rqWait := rfl
@[simp] theorem Part.setSlot_clt (j : Nat) (r : Slot) : (p.setSlot j r).clt = p.clt := rfl
@[simp] theorem Part.setSlot_ctx (j : Nat) (r : Slot) : (p.setSlot j r).ctx = p.ctx := rfl
@[simp] theorem Part.setSlot_plu (j : Nat) (r : Slot) : (p.setSlot j r).plu = p.plu := rfl
@[simp] theorem Part.setSlot_ftu (j : Nat) (r : Slot) : (p.setSlot j r).ftu = p.ftu := rfl
@[simp] theorem Part.setSlot_svu (j : Nat) (r : Slot) : (p.setSlot j r).svu = p.svu := rfl
@[simp] theorem Part.setSlot_cbe (j : Nat) (r : Slot) : (p.setSlot j r).cbe = p.cbe := rfl
@[simp] theorem Part.setSlot_vfu (j : Nat) (r : Slot) : (p.setSlot j r).vfu = p.vfu := rfl
@[simp] theorem Part.setSlot_smc (j : Nat) (r : Slot) :
    (p.setSlot j r).smc = { p.smc with slots := p.smc.slots.setRow j r } := rfl
@[simp] theorem Part.setSlot_sgp (j : Nat) (r : Slot) : (p.setSlot j r).sgp = p.sgp := rfl

@[simp] theorem Part.editSlot_now (j : Nat) (f : Slot → Slot) : (p.editSlot j f).now = p.now := rfl
@[simp] theorem Part.editSlot_config (j : Nat) (f : Slot → Slot) : (p.editSlot j f).config = p.config := rfl
@[simp] theorem Part.editSlot_hlk (j : Nat) (f : Slot → Slot) : (p.editSlot j f).hlk = p.hlk := rfl
@[simp] theorem Part.editSlot_prs (j : Nat) (f : Slot → Slot) : (p.editSlot j f).prs = p.prs := rfl
@[simp] theorem Part.editSlot_hdt (j : Nat) (f : Slot → Slot) : (p.editSlot j f).hdt = p.hdt := rfl
@[simp] theorem Part.editSlot_scn (j : Nat) (f : Slot → Slot) : (p.editSlot j f).scn = p.scn := rfl
@[simp] theorem Part.editSlot_rq (j : Nat) (f : Slot → Slot) : (p.editSlot j f).rq = p.rq := rfl
@[simp] theorem Part.editSlot_rqWait (j : Nat) (f : Slot → Slot) : (p.editSlot j f).rqWait = p.rqWait := rfl
@[simp] theorem Part.editSlot_clt (j : Nat) (f : Slot → Slot) : (p.editSlot j f).clt = p.clt := rfl
@[simp] theorem Part.editSlot_ctx (j : Nat) (f : Slot → Slot) : (p.editSlot j f).ctx = p.ctx := rfl
@[simp] theorem Part.editSlot_plu (j : Nat) (f : Slot → Slot) : (p.editSlot j f).plu = p.plu := rfl
@[simp] theorem Part.editSlot_ftu (j : Nat) (f : Slot → Slot) : (p.editSlot j f).ftu = p.ftu := rfl
@[simp] theorem Part.editSlot_svu (j : Nat) (f : Slot → Slot) : (p.editSlot j f).svu = p.svu := rfl
@[simp] theorem Part.editSlot_cbe (j : Nat) (f : Slot → Slot) : (p.editSlot j f).cbe = p.cbe := rfl
@[simp] theorem Part.editSlot_vfu (j : Nat) (f : Slot → Slot) : (p.editSlot j f).vfu = p.vfu := rfl
@[simp] theorem Part.editSlot_smc (j : Nat) (f : Slot → Slot) :
    (p.editSlot j f).smc = { p.smc with slots := p.smc.slots.editRow j f } := rfl
@[simp] theorem Part.editSlot_sgp (j : Nat) (f : Slot → Slot) : (p.editSlot j f).sgp = p.sgp := rfl

@[simp] theorem Part.setDram_now (d : Dram) : (p.setDram d).now = p.now := rfl
@[simp] theorem Part.setDram_config (d : Dram) : (p.setDram d).config = p.config := rfl
@[simp] theorem Part.setDram_hlk (d : Dram) : (p.setDram d).hlk = p.hlk := rfl
@[simp] theorem Part.setDram_prs (d : Dram) : (p.setDram d).prs = p.prs := rfl
@[simp] theorem Part.setDram_hdt (d : Dram) : (p.setDram d).hdt = p.hdt := rfl
@[simp] theorem Part.setDram_scn (d : Dram) : (p.setDram d).scn = p.scn := rfl
@[simp] theorem Part.setDram_rq (d : Dram) : (p.setDram d).rq = p.rq := rfl
@[simp] theorem Part.setDram_rqWait (d : Dram) : (p.setDram d).rqWait = p.rqWait := rfl
@[simp] theorem Part.setDram_clt (d : Dram) : (p.setDram d).clt = p.clt := rfl
@[simp] theorem Part.setDram_ctx (d : Dram) : (p.setDram d).ctx = p.ctx := rfl
@[simp] theorem Part.setDram_plu (d : Dram) : (p.setDram d).plu = p.plu := rfl
@[simp] theorem Part.setDram_ftu (d : Dram) : (p.setDram d).ftu = p.ftu := rfl
@[simp] theorem Part.setDram_svu (d : Dram) : (p.setDram d).svu = p.svu := rfl
@[simp] theorem Part.setDram_cbe (d : Dram) : (p.setDram d).cbe = p.cbe := rfl
@[simp] theorem Part.setDram_vfu (d : Dram) : (p.setDram d).vfu = p.vfu := rfl
@[simp] theorem Part.setDram_smc (d : Dram) : (p.setDram d).smc = { p.smc with dram := d } := rfl
@[simp] theorem Part.setDram_sgp (d : Dram) : (p.setDram d).sgp = p.sgp := rfl

@[simp] theorem Part.clearFlags_now (mask : Byte) : (p.clearFlags mask).now = p.now := rfl
@[simp] theorem Part.clearFlags_config (mask : Byte) : (p.clearFlags mask).config = p.config := rfl
@[simp] theorem Part.clearFlags_hlk (mask : Byte) :
    (p.clearFlags mask).hlk = { p.hlk with causeFlags := p.hlk.causeFlags &&& ~~~(mask &&& 0x1F#8) } := rfl
@[simp] theorem Part.clearFlags_prs (mask : Byte) : (p.clearFlags mask).prs = p.prs := rfl
@[simp] theorem Part.clearFlags_hdt (mask : Byte) : (p.clearFlags mask).hdt = p.hdt := rfl
@[simp] theorem Part.clearFlags_scn (mask : Byte) : (p.clearFlags mask).scn = p.scn := rfl
@[simp] theorem Part.clearFlags_rq (mask : Byte) : (p.clearFlags mask).rq = p.rq := rfl
@[simp] theorem Part.clearFlags_rqWait (mask : Byte) : (p.clearFlags mask).rqWait = p.rqWait := rfl
@[simp] theorem Part.clearFlags_clt (mask : Byte) : (p.clearFlags mask).clt = p.clt := rfl
@[simp] theorem Part.clearFlags_ctx (mask : Byte) : (p.clearFlags mask).ctx = p.ctx := rfl
@[simp] theorem Part.clearFlags_plu (mask : Byte) : (p.clearFlags mask).plu = p.plu := rfl
@[simp] theorem Part.clearFlags_ftu (mask : Byte) : (p.clearFlags mask).ftu = p.ftu := rfl
@[simp] theorem Part.clearFlags_svu (mask : Byte) : (p.clearFlags mask).svu = p.svu := rfl
@[simp] theorem Part.clearFlags_cbe (mask : Byte) : (p.clearFlags mask).cbe = p.cbe := rfl
@[simp] theorem Part.clearFlags_vfu (mask : Byte) : (p.clearFlags mask).vfu = p.vfu := rfl
@[simp] theorem Part.clearFlags_smc (mask : Byte) : (p.clearFlags mask).smc = p.smc := rfl
@[simp] theorem Part.clearFlags_sgp (mask : Byte) : (p.clearFlags mask).sgp = p.sgp := rfl

@[simp] theorem Part.countDrop_now (k : DropKind) : (p.countDrop k).now = p.now := rfl
@[simp] theorem Part.countDrop_config (k : DropKind) : (p.countDrop k).config = p.config := rfl
@[simp] theorem Part.countDrop_hlk (k : DropKind) : (p.countDrop k).hlk = p.hlk := rfl
@[simp] theorem Part.countDrop_prs (k : DropKind) : (p.countDrop k).prs = p.prs := rfl
@[simp] theorem Part.countDrop_hdt (k : DropKind) : (p.countDrop k).hdt = p.hdt := rfl
@[simp] theorem Part.countDrop_scn (k : DropKind) : (p.countDrop k).scn = p.scn := rfl
@[simp] theorem Part.countDrop_rq (k : DropKind) : (p.countDrop k).rq = p.rq := rfl
@[simp] theorem Part.countDrop_rqWait (k : DropKind) : (p.countDrop k).rqWait = p.rqWait := rfl
@[simp] theorem Part.countDrop_clt (k : DropKind) : (p.countDrop k).clt = p.clt := rfl
@[simp] theorem Part.countDrop_ctx (k : DropKind) : (p.countDrop k).ctx = p.ctx := rfl
@[simp] theorem Part.countDrop_plu (k : DropKind) : (p.countDrop k).plu = p.plu := rfl
@[simp] theorem Part.countDrop_ftu (k : DropKind) : (p.countDrop k).ftu = p.ftu := rfl
@[simp] theorem Part.countDrop_svu (k : DropKind) : (p.countDrop k).svu = p.svu := rfl
@[simp] theorem Part.countDrop_cbe (k : DropKind) : (p.countDrop k).cbe = p.cbe := rfl
@[simp] theorem Part.countDrop_vfu (k : DropKind) : (p.countDrop k).vfu = p.vfu := rfl
@[simp] theorem Part.countDrop_smc (k : DropKind) : (p.countDrop k).smc = p.smc := rfl
@[simp] theorem Part.countDrop_sgp (k : DropKind) :
    (p.countDrop k).sgp = { p.sgp with drops := p.sgp.drops.modify k.index (· + 1) } := rfl

@[simp] theorem Part.setFlag_now (c : Cause) : (p.setFlag c).now = p.now := rfl
@[simp] theorem Part.setFlag_config (c : Cause) : (p.setFlag c).config = p.config := rfl
@[simp] theorem Part.setFlag_prs (c : Cause) : (p.setFlag c).prs = p.prs := rfl
@[simp] theorem Part.setFlag_hdt (c : Cause) : (p.setFlag c).hdt = p.hdt := rfl
@[simp] theorem Part.setFlag_scn (c : Cause) : (p.setFlag c).scn = p.scn := rfl
@[simp] theorem Part.setFlag_rq (c : Cause) : (p.setFlag c).rq = p.rq := rfl
@[simp] theorem Part.setFlag_rqWait (c : Cause) : (p.setFlag c).rqWait = p.rqWait := rfl
@[simp] theorem Part.setFlag_clt (c : Cause) : (p.setFlag c).clt = p.clt := rfl
@[simp] theorem Part.setFlag_ctx (c : Cause) : (p.setFlag c).ctx = p.ctx := rfl
@[simp] theorem Part.setFlag_plu (c : Cause) : (p.setFlag c).plu = p.plu := rfl
@[simp] theorem Part.setFlag_ftu (c : Cause) : (p.setFlag c).ftu = p.ftu := rfl
@[simp] theorem Part.setFlag_svu (c : Cause) : (p.setFlag c).svu = p.svu := rfl
@[simp] theorem Part.setFlag_cbe (c : Cause) : (p.setFlag c).cbe = p.cbe := rfl
@[simp] theorem Part.setFlag_vfu (c : Cause) : (p.setFlag c).vfu = p.vfu := rfl
@[simp] theorem Part.setFlag_smc (c : Cause) : (p.setFlag c).smc = p.smc := rfl
@[simp] theorem Part.setFlag_sgp (c : Cause) : (p.setFlag c).sgp = p.sgp := rfl

/-! ## The scanner told of a free place, and the head of the repair queue leaving -/

@[simp] theorem Part.tellScanner_now : p.tellScanner.now = p.now := rfl
@[simp] theorem Part.tellScanner_config : p.tellScanner.config = p.config := rfl
@[simp] theorem Part.tellScanner_hlk : p.tellScanner.hlk = p.hlk := rfl
@[simp] theorem Part.tellScanner_prs : p.tellScanner.prs = p.prs := rfl
@[simp] theorem Part.tellScanner_hdt : p.tellScanner.hdt = p.hdt := rfl
@[simp] theorem Part.tellScanner_rq : p.tellScanner.rq = p.rq := rfl
@[simp] theorem Part.tellScanner_rqWait : p.tellScanner.rqWait = p.rqWait := rfl
@[simp] theorem Part.tellScanner_clt : p.tellScanner.clt = p.clt := rfl
@[simp] theorem Part.tellScanner_ctx : p.tellScanner.ctx = p.ctx := rfl
@[simp] theorem Part.tellScanner_plu : p.tellScanner.plu = p.plu := rfl
@[simp] theorem Part.tellScanner_ftu : p.tellScanner.ftu = p.ftu := rfl
@[simp] theorem Part.tellScanner_svu : p.tellScanner.svu = p.svu := rfl
@[simp] theorem Part.tellScanner_cbe : p.tellScanner.cbe = p.cbe := rfl
@[simp] theorem Part.tellScanner_vfu : p.tellScanner.vfu = p.vfu := rfl
@[simp] theorem Part.tellScanner_smc : p.tellScanner.smc = p.smc := rfl
@[simp] theorem Part.tellScanner_sgp : p.tellScanner.sgp = p.sgp := rfl
@[simp] theorem Part.tellScanner_scn : p.tellScanner.scn = { p.scn with placeFreed := p.scn.pass == .blocked } := rfl

@[simp] theorem Part.leaveHead_now : p.leaveHead.now = p.now := rfl
@[simp] theorem Part.leaveHead_config : p.leaveHead.config = p.config := rfl
@[simp] theorem Part.leaveHead_hlk : p.leaveHead.hlk = p.hlk := rfl
@[simp] theorem Part.leaveHead_prs : p.leaveHead.prs = p.prs := rfl
@[simp] theorem Part.leaveHead_hdt : p.leaveHead.hdt = p.hdt := rfl
@[simp] theorem Part.leaveHead_rq : p.leaveHead.rq = p.rq.drop 1 := rfl
@[simp] theorem Part.leaveHead_rqWait : p.leaveHead.rqWait = none := rfl
@[simp] theorem Part.leaveHead_clt : p.leaveHead.clt = p.clt := rfl
@[simp] theorem Part.leaveHead_ctx : p.leaveHead.ctx = p.ctx := rfl
@[simp] theorem Part.leaveHead_plu : p.leaveHead.plu = p.plu := rfl
@[simp] theorem Part.leaveHead_ftu : p.leaveHead.ftu = p.ftu := rfl
@[simp] theorem Part.leaveHead_svu : p.leaveHead.svu = p.svu := rfl
@[simp] theorem Part.leaveHead_cbe : p.leaveHead.cbe = p.cbe := rfl
@[simp] theorem Part.leaveHead_vfu : p.leaveHead.vfu = p.vfu := rfl
@[simp] theorem Part.leaveHead_smc : p.leaveHead.smc = p.smc := rfl
@[simp] theorem Part.leaveHead_sgp : p.leaveHead.sgp = p.sgp := rfl
@[simp] theorem Part.leaveHead_scn : p.leaveHead.scn = { p.scn with placeFreed := p.scn.pass == .blocked } := rfl

/-! ## The mark of the status block -/

@[simp] theorem Part.markStatus_now (q : Part) : (p.markStatus q).now = q.now := by
  unfold Part.markStatus; split <;> rfl
@[simp] theorem Part.markStatus_config (q : Part) : (p.markStatus q).config = q.config := by
  unfold Part.markStatus; split <;> rfl
@[simp] theorem Part.markStatus_prs (q : Part) : (p.markStatus q).prs = q.prs := by
  unfold Part.markStatus; split <;> rfl
@[simp] theorem Part.markStatus_hdt (q : Part) : (p.markStatus q).hdt = q.hdt := by
  unfold Part.markStatus; split <;> rfl
@[simp] theorem Part.markStatus_scn (q : Part) : (p.markStatus q).scn = q.scn := by
  unfold Part.markStatus; split <;> rfl
@[simp] theorem Part.markStatus_rq (q : Part) : (p.markStatus q).rq = q.rq := by unfold Part.markStatus; split <;> rfl
@[simp] theorem Part.markStatus_rqWait (q : Part) : (p.markStatus q).rqWait = q.rqWait := by
  unfold Part.markStatus; split <;> rfl
@[simp] theorem Part.markStatus_clt (q : Part) : (p.markStatus q).clt = q.clt := by
  unfold Part.markStatus; split <;> rfl
@[simp] theorem Part.markStatus_ctx (q : Part) : (p.markStatus q).ctx = q.ctx := by
  unfold Part.markStatus; split <;> rfl
@[simp] theorem Part.markStatus_plu (q : Part) : (p.markStatus q).plu = q.plu := by
  unfold Part.markStatus; split <;> rfl
@[simp] theorem Part.markStatus_ftu (q : Part) : (p.markStatus q).ftu = q.ftu := by
  unfold Part.markStatus; split <;> rfl
@[simp] theorem Part.markStatus_svu (q : Part) : (p.markStatus q).svu = q.svu := by
  unfold Part.markStatus; split <;> rfl
@[simp] theorem Part.markStatus_cbe (q : Part) : (p.markStatus q).cbe = q.cbe := by
  unfold Part.markStatus; split <;> rfl
@[simp] theorem Part.markStatus_vfu (q : Part) : (p.markStatus q).vfu = q.vfu := by
  unfold Part.markStatus; split <;> rfl
@[simp] theorem Part.markStatus_smc (q : Part) : (p.markStatus q).smc = q.smc := by
  unfold Part.markStatus; split <;> rfl
@[simp] theorem Part.markStatus_sgp (q : Part) : (p.markStatus q).sgp = q.sgp := by
  unfold Part.markStatus; split <;> rfl
@[simp] theorem Part.markStatus_hlk_phase (q : Part) :
    (p.markStatus q).hlk.phase = q.hlk.phase := by
  unfold Part.markStatus; split <;> rfl
@[simp] theorem Part.markStatus_hlk_commandBase (q : Part) :
    (p.markStatus q).hlk.commandBase = q.hlk.commandBase := by
  unfold Part.markStatus; split <;> rfl
@[simp] theorem Part.markStatus_hlk_commandSize (q : Part) :
    (p.markStatus q).hlk.commandSize = q.hlk.commandSize := by
  unfold Part.markStatus; split <;> rfl
@[simp] theorem Part.markStatus_hlk_reportBase (q : Part) :
    (p.markStatus q).hlk.reportBase = q.hlk.reportBase := by
  unfold Part.markStatus; split <;> rfl
@[simp] theorem Part.markStatus_hlk_reportSize (q : Part) :
    (p.markStatus q).hlk.reportSize = q.hlk.reportSize := by
  unfold Part.markStatus; split <;> rfl
@[simp] theorem Part.markStatus_hlk_statusAddress (q : Part) :
    (p.markStatus q).hlk.statusAddress = q.hlk.statusAddress := by
  unfold Part.markStatus; split <;> rfl
@[simp] theorem Part.markStatus_hlk_postIndex (q : Part) :
    (p.markStatus q).hlk.postIndex = q.hlk.postIndex := by
  unfold Part.markStatus; split <;> rfl
@[simp] theorem Part.markStatus_hlk_reportConsume (q : Part) :
    (p.markStatus q).hlk.reportConsume = q.hlk.reportConsume := by
  unfold Part.markStatus; split <;> rfl
@[simp] theorem Part.markStatus_hlk_reportProduce (q : Part) :
    (p.markStatus q).hlk.reportProduce = q.hlk.reportProduce := by
  unfold Part.markStatus; split <;> rfl
@[simp] theorem Part.markStatus_hlk_commandConsume (q : Part) :
    (p.markStatus q).hlk.commandConsume = q.hlk.commandConsume := by
  unfold Part.markStatus; split <;> rfl
@[simp] theorem Part.markStatus_hlk_causeFlags (q : Part) :
    (p.markStatus q).hlk.causeFlags = q.hlk.causeFlags := by
  unfold Part.markStatus; split <;> rfl
@[simp] theorem Part.markStatus_hlk_reportQueue (q : Part) :
    (p.markStatus q).hlk.reportQueue = q.hlk.reportQueue := by
  unfold Part.markStatus; split <;> rfl
@[simp] theorem Part.markStatus_hlk_tagCounter (q : Part) :
    (p.markStatus q).hlk.tagCounter = q.hlk.tagCounter := by
  unfold Part.markStatus; split <;> rfl
@[simp] theorem Part.markStatus_hlk_stageTags (q : Part) :
    (p.markStatus q).hlk.stageTags = q.hlk.stageTags := by
  unfold Part.markStatus; split <;> rfl
@[simp] theorem Part.markStatus_hlk_storeTags (q : Part) :
    (p.markStatus q).hlk.storeTags = q.hlk.storeTags := by
  unfold Part.markStatus; split <;> rfl
@[simp] theorem Part.markStatus_hlk_updateCount (q : Part) :
    (p.markStatus q).hlk.updateCount = q.hlk.updateCount := by
  unfold Part.markStatus; split <;> rfl
@[simp] theorem Part.markStatus_hlk_interrupts (q : Part) :
    (p.markStatus q).hlk.interrupts = q.hlk.interrupts := by
  unfold Part.markStatus; split <;> rfl
@[simp] theorem Part.markStatus_hlk_hostMemory (q : Part) :
    (p.markStatus q).hlk.hostMemory = q.hlk.hostMemory := by
  unfold Part.markStatus; split <;> rfl
@[simp] theorem Part.markStatus_hlk_windowData (q : Part) :
    (p.markStatus q).hlk.windowData = q.hlk.windowData := by
  unfold Part.markStatus; split <;> rfl

/-- A shown value that changes marks the status block (R170). -/
theorem Part.markStatus_marks (q : Part) (h : p.statusView ≠ q.statusView) :
    (p.markStatus q).hlk.statusMarked = true := by
  simp [Part.markStatus, h]

/-- Every meaning goes on: it leaves the waiting commands, and marks the status block where a shown value changes. -/
theorem run_eq (s : State) (f : Part → Part) : run s f = .next { s with part := s.part.markStatus (f s.part) } := rfl

end Sys2Proof.Machine
end

