-- ==== Sys2Proof/Laws/Tables.lean ====
section
/-! SUPPORT. The ordered tables: what a write, a removal and a change of a record leave readable, and that each keeps
the numbers rising. -/

namespace Sys2Proof

variable {α : Type}

/-! ## Reading after writing -/

@[simp] theorem Table.row?_nil (k : Nat) : Table.row? ([] : Table α) k = none := rfl

@[simp] theorem Table.row?_setRow_self (t : Table α) (k : Nat) (a : α) : (t.setRow k a).row? k = some a := by
  induction t with
  | nil => simp [Table.setRow, Table.row?]
  | cons r rest ih =>
    obtain ⟨i, b⟩ := r
    simp only [Table.setRow]
    split
    · simp [Table.row?]
    · split
      · simp [Table.row?]
      · simp_all [Table.row?]

theorem Table.row?_setRow_ne (t : Table α) {j k : Nat} (a : α) (h : j ≠ k) : (t.setRow k a).row? j = t.row? j := by
  induction t with
  | nil => simp [Table.setRow, Table.row?, h.symm]
  | cons r rest ih =>
    obtain ⟨i, b⟩ := r
    simp only [Table.setRow]
    split
    · simp [Table.row?, h.symm]
    · split
      · subst i; simp [Table.row?, h.symm]
      · simp [Table.row?, ih]

theorem Table.row?_setRow (t : Table α) (j k : Nat) (a : α) :
    (t.setRow k a).row? j = if j = k then some a else t.row? j := by
  split
  · subst j; simp
  · exact t.row?_setRow_ne a ‹_›

theorem Table.row?_filter (t : Table α) (j : Nat) (f : Nat → Bool) :
    Table.row? (t.filter fun r => f r.1) j = if f j then t.row? j else none := by
  induction t with
  | nil => simp [Table.row?]
  | cons r rest ih =>
    obtain ⟨i, b⟩ := r
    by_cases hf : f i
    · simp only [List.filter_cons, hf, if_true, Table.row?, ih]
      by_cases hi : i = j
      · subst hi; simp [hf]
      · simp [hi]
    · have hf' : f i = false := by simpa using hf
      simp only [List.filter_cons, hf', Table.row?]
      by_cases hi : i = j
      · subst hi; simpa [hf'] using ih
      · simpa [hi] using ih

theorem Table.row?_dropRow (t : Table α) (j k : Nat) : (t.dropRow k).row? j = if j = k then none else t.row? j := by
  have h := t.row?_filter j fun i => i != k
  simp only [Table.dropRow, h]
  by_cases hj : j = k <;> simp [hj]

theorem Table.row?_map (t : Table α) (j : Nat) (f : Nat → α → α) :
    Table.row? (t.map fun r => (r.1, f r.1 r.2)) j = (t.row? j).map (f j) := by
  induction t with
  | nil => rfl
  | cons r rest ih =>
    obtain ⟨i, b⟩ := r
    by_cases hi : i = j
    · subst hi; simp [Table.row?]
    · simp [Table.row?, hi, ih]

theorem Table.editRow_eq_map (t : Table α) (k : Nat) (f : α → α) :
    t.editRow k f = t.map fun r => (r.1, if r.1 = k then f r.2 else r.2) := by
  unfold Table.editRow
  apply List.map_congr_left
  intro r _
  split <;> rfl

theorem Table.row?_editRow (t : Table α) (j k : Nat) (f : α → α) :
    (t.editRow k f).row? j = if j = k then (t.row? j).map f else t.row? j := by
  have h := t.row?_map j fun i a => if i = k then f a else a
  rw [Table.editRow_eq_map, h]
  by_cases hj : j = k <;> simp [hj]

theorem Table.row?_append (t u : Table α) (j : Nat) : Table.row? (t ++ u) j = (t.row? j).or (u.row? j) := by
  induction t with
  | nil => simp [Table.row?]
  | cons r rest ih =>
    obtain ⟨i, b⟩ := r
    by_cases hi : i = j <;> simp [Table.row?, hi, ih]

/-! ## Numbers -/

@[simp] theorem Table.numbers_editRow (t : Table α) (k : Nat) (f : α → α) : (t.editRow k f).numbers = t.numbers := by
  simp only [Table.numbers, Table.editRow, List.map_map]
  apply List.map_congr_left
  intro r _
  simp only [Function.comp]
  split <;> rfl

@[simp] theorem Table.length_editRow (t : Table α) (k : Nat) (f : α → α) :
    List.length (t.editRow k f) = List.length t := by
  simp [Table.editRow]

theorem Table.row?_isSome_iff (t : Table α) (k : Nat) : (t.row? k).isSome ↔ k ∈ t.numbers := by
  induction t with
  | nil => simp [Table.row?, Table.numbers]
  | cons r rest ih =>
    obtain ⟨i, b⟩ := r
    by_cases hi : i = k
    · simp [Table.row?, Table.numbers, hi]
    · simp only [Table.row?, hi, if_false, ih, Table.numbers, List.map_cons, List.mem_cons]
      constructor
      · exact Or.inr
      · rintro (h | h)
        · exact absurd h.symm hi
        · exact h

theorem Table.row?_mem {t : Table α} {k : Nat} {a : α} (h : t.row? k = some a) : (k, a) ∈ t := by
  induction t with
  | nil => cases h
  | cons r rest ih =>
    obtain ⟨i, b⟩ := r
    by_cases hi : i = k
    · subst hi; simp [Table.row?] at h; simp [h]
    · simp only [Table.row?, hi, if_false] at h; exact List.mem_cons_of_mem _ (ih h)

/-! ## The canonical form -/

theorem Table.rising_iff (t : Table α) : t.rising = true ↔ List.Pairwise (· < ·) (t.map Prod.fst) := by
  simp [Table.rising]

theorem Table.rising_cons (i : Nat) (a : α) (t : Table α) :
    Table.rising ((i, a) :: t) = true ↔ (∀ r ∈ t, i < r.1) ∧ t.rising = true := by
  simp [Table.rising_iff]

theorem Table.row?_of_mem {t : Table α} (ht : t.rising = true) {k : Nat} {a : α} (h : (k, a) ∈ t) :
    t.row? k = some a := by
  induction t with
  | nil => cases h
  | cons r rest ih =>
    obtain ⟨i, b⟩ := r
    rw [Table.rising_cons] at ht
    rcases List.mem_cons.1 h with h | h
    · cases h; simp [Table.row?]
    · have := ht.1 _ h
      simp only at this
      have hne : i ≠ k := by omega
      simp [Table.row?, hne, ih ht.2 h]

theorem Table.rising_filter {t : Table α} (f : Nat × α → Bool) (h : t.rising = true) :
    Table.rising (t.filter f) = true := by
  rw [Table.rising_iff] at *
  exact h.sublist (List.filter_sublist.map _)

theorem Table.rising_dropRow {t : Table α} (k : Nat) (h : t.rising = true) : (t.dropRow k).rising = true :=
  Table.rising_filter _ h

theorem Table.rising_editRow (t : Table α) (k : Nat) (f : α → α) : (t.editRow k f).rising = t.rising := by
  have h := t.numbers_editRow k f
  simp only [Table.numbers] at h
  simp only [Table.rising, h]

theorem Table.mem_setRow {t : Table α} {k : Nat} {a : α} {r : Nat × α} (h : r ∈ t.setRow k a) :
    r = (k, a) ∨ r ∈ t := by
  induction t with
  | nil => simpa [Table.setRow] using h
  | cons q rest ih =>
    obtain ⟨i, b⟩ := q
    simp only [Table.setRow] at h
    split at h
    · simpa using h
    · split at h
      · rcases List.mem_cons.1 h with h | h
        · exact .inl h
        · exact .inr (List.mem_cons_of_mem _ h)
      · rcases List.mem_cons.1 h with h | h
        · exact .inr (by simp [h])
        · rcases ih h with h | h
          · exact .inl h
          · exact .inr (List.mem_cons_of_mem _ h)

theorem Table.rising_setRow {t : Table α} (k : Nat) (a : α) (h : t.rising = true) : (t.setRow k a).rising = true := by
  induction t with
  | nil => simp [Table.setRow, Table.rising]
  | cons q rest ih =>
    obtain ⟨i, b⟩ := q
    have h' := (Table.rising_cons i b rest).1 h
    simp only [Table.setRow]
    split
    · rw [Table.rising_cons]
      refine ⟨fun r hr => ?_, h⟩
      rcases List.mem_cons.1 hr with hr | hr
      · subst hr; assumption
      · have := h'.1 r hr; omega
    · split
      · subst i; rw [Table.rising_cons]; exact h'
      · rw [Table.rising_cons]
        refine ⟨fun r hr => ?_, ih h'.2⟩
        rcases Table.mem_setRow hr with hr | hr
        · subst hr; simp only; omega
        · exact h'.1 r hr

theorem Table.rising_append {t u : Table α} (ht : t.rising = true) (hu : u.rising = true)
    (h : ∀ r ∈ t, ∀ q ∈ u, r.1 < q.1) : Table.rising (t ++ u) = true := by
  rw [Table.rising_iff] at *
  rw [List.map_append, List.pairwise_append]
  refine ⟨ht, hu, ?_⟩
  intro a ha b hb
  obtain ⟨r, hr, rfl⟩ := List.mem_map.1 ha
  obtain ⟨q, hq, rfl⟩ := List.mem_map.1 hb
  exact h r hr q hq

/-! ## Cells -/

theorem cellsFrom_bounds {address : Nat} {bytes : List Byte} {c : Nat × Byte} (h : c ∈ cellsFrom address bytes) :
    address ≤ c.1 ∧ c.1 < address + bytes.length := by
  induction bytes generalizing address with
  | nil => cases h
  | cons b rest ih =>
    rcases List.mem_cons.1 h with h | h
    · subst h; simp
    · have := ih h; simp only [List.length_cons]; omega

theorem cellsFrom_rising (address : Nat) (bytes : List Byte) : Table.rising (cellsFrom address bytes) = true := by
  induction bytes generalizing address with
  | nil => rfl
  | cons b rest ih =>
    rw [cellsFrom, Table.rising_cons]
    refine ⟨fun r hr => ?_, ih _⟩
    have := cellsFrom_bounds hr
    omega

theorem cellsFrom_row? (address : Nat) (bytes : List Byte) (j : Nat) :
    Table.row? (cellsFrom address bytes) j = if address ≤ j then bytes[j - address]? else none := by
  induction bytes generalizing address with
  | nil => simp [cellsFrom]
  | cons b rest ih =>
    simp only [cellsFrom, Table.row?, ih]
    by_cases h : address = j
    · subst h; simp
    · simp only [h, if_false]
      by_cases h' : address + 1 ≤ j
      · have : j - address = (j - (address + 1)) + 1 := by omega
        simp [h', this, show address ≤ j by omega]
      · simp [h', show ¬ address ≤ j by omega]

theorem Table.splice_rising {t : Table Byte} (address length : Nat) {new : Table Byte} (ht : t.rising = true)
    (hn : new.rising = true) (hb : ∀ c ∈ new, address ≤ c.1 ∧ c.1 < address + length) :
    (t.splice address length new).rising = true := by
  unfold Table.splice
  refine Table.rising_append (Table.rising_append (Table.rising_filter _ ht) hn ?_) (Table.rising_filter _ ht) ?_
  · intro r hr q hq
    have h1 := (List.mem_filter.1 hr).2
    have h2 := hb q hq
    simp only [decide_eq_true_eq] at h1
    omega
  · intro r hr q hq
    have h2 := (List.mem_filter.1 hq).2
    simp only [decide_eq_true_eq] at h2
    rcases List.mem_append.1 hr with hr | hr
    · have h1 := (List.mem_filter.1 hr).2
      simp only [decide_eq_true_eq] at h1
      omega
    · have h1 := hb r hr
      omega

theorem Table.splice_row? (t : Table Byte) (address length : Nat) (new : Table Byte) (j : Nat)
    (hb : ∀ c ∈ new, address ≤ c.1 ∧ c.1 < address + length) :
    (t.splice address length new).row? j =
      if address ≤ j ∧ j < address + length then new.row? j else t.row? j := by
  have hnew : ¬ (address ≤ j ∧ j < address + length) → new.row? j = none := by
    intro h
    cases hr : new.row? j with
    | none => rfl
    | some b => exact absurd (hb _ (Table.row?_mem hr)) h
  have h1 := t.row?_filter j fun i => decide (i < address)
  have h2 := t.row?_filter j fun i => decide (address + length ≤ i)
  simp only [Table.splice, Table.row?_append, h1, h2]
  by_cases h : address ≤ j ∧ j < address + length
  · simp [h, show ¬ j < address by omega, show ¬ address + length ≤ j by omega]
  · rw [hnew h]
    by_cases hj : j < address
    · simp [h, hj, show ¬ address + length ≤ j by omega]
    · simp [h, hj, show address + length ≤ j by omega]

/-! ## Lowest free numbers -/

theorem Table.gapFrom_bound {t : Table α} {n : Nat} : n ≤ Table.gapFrom n t := by
  induction t generalizing n with
  | nil => simp [Table.gapFrom]
  | cons r rest ih =>
    obtain ⟨i, b⟩ := r
    simp only [Table.gapFrom]
    split
    · exact Nat.le_of_succ_le ih
    · exact Nat.le_refl n

theorem Table.gapFrom_free {t : Table α} {n : Nat} (h : t.rising = true) (hn : ∀ r ∈ t, n ≤ r.1) :
    t.row? (Table.gapFrom n t) = none := by
  induction t generalizing n with
  | nil => rfl
  | cons r rest ih =>
    obtain ⟨i, b⟩ := r
    have h' := (Table.rising_cons i b rest).1 h
    simp only [Table.gapFrom]
    split
    · subst i
      have hb : n + 1 ≤ Table.gapFrom (n + 1) rest := Table.gapFrom_bound
      simp only [Table.row?, show ¬ n = Table.gapFrom (n + 1) rest by omega, if_false]
      exact ih h'.2 fun r hr => by have := h'.1 r hr; omega
    · rename_i hne
      have := hn (i, b) (by simp)
      cases hr : Table.row? ((i, b) :: rest) n with
      | none => rfl
      | some a =>
        rcases List.mem_cons.1 (Table.row?_mem hr) with hm | hm
        · cases hm; exact absurd rfl hne
        · have := h'.1 _ hm; simp only at this; omega

/-- The lowest free number is below the bound and has no record. -/
theorem Table.lowestFree?_spec {t : Table α} {bound n : Nat} (h : t.rising = true) (hf : t.lowestFree? bound = some n) :
    n < bound ∧ t.row? n = none := by
  simp only [Table.lowestFree?] at hf
  split at hf
  · cases hf
    exact ⟨‹_›, Table.gapFrom_free h fun _ _ => Nat.zero_le _⟩
  · cases hf

end Sys2Proof
end

