-- ==== Sys2Proof/Laws/Dram.lean ====
section
/-! SUPPORT. The staging memory: reading after writing, byte by byte, and that every operation on it keeps its
canonical form. -/

namespace Sys2Proof.Machine

theorem Dram.wf_iff (d : Dram) :
    d.wf = true ↔ d.cells.rising = true ∧ d.blocks.rising = true ∧ ∀ c ∈ d.cells, d.unlisted? c.1 ≠ some c.2 := by
  simp [Dram.wf, and_assoc]

/-! ## Reading one byte -/

@[simp] theorem Dram.write_blocks (d : Dram) (o : Nat) (b : List Byte) : (d.write o b).blocks = d.blocks := rfl

@[simp] theorem Dram.write_powerSeed (d : Dram) (o : Nat) (b : List Byte) : (d.write o b).powerSeed = d.powerSeed := rfl

@[simp] theorem Dram.write_nextSeed (d : Dram) (o : Nat) (b : List Byte) : (d.write o b).nextSeed = d.nextSeed := rfl

@[simp] theorem Dram.write_background (d : Dram) (o : Nat) (b : List Byte) (a : Nat) :
    (d.write o b).background a = d.background a := rfl

/-- What a byte reads as where it is not listed. -/
def Dram.unlistedByte (d : Dram) (offset : Nat) : Byte := (d.background offset).byte offset

theorem Dram.byte_eq (d : Dram) (o : Nat) : d.byte o = (d.cells.row? o).getD (d.unlistedByte o) := rfl

theorem Dram.unlisted?_eq {d : Dram} {o : Nat} {b : Byte} (h : d.unlisted? o = some b) : d.unlistedByte o = b := by
  unfold Dram.unlisted? at h
  unfold Dram.unlistedByte
  split at h <;> simp_all [Background.byte]

theorem cellsFrom_filter_row? (o : Nat) (bytes : List Byte) (f : Nat × Byte → Bool) (j : Nat) :
    Table.row? ((cellsFrom o bytes).filter f) j =
      (Table.row? (cellsFrom o bytes) j).bind fun b => if f (j, b) then some b else none := by
  induction bytes generalizing o with
  | nil => simp [cellsFrom]
  | cons b rest ih =>
    simp only [cellsFrom, List.filter_cons]
    by_cases hj : o = j
    · subst hj
      have hrest : Table.row? (cellsFrom (o + 1) rest) o = none := by
        rw [cellsFrom_row?]; simp
      by_cases hf : f (o, b)
      · simp [hf, Table.row?]
      · simp [hf, Table.row?, ih, hrest]
    · by_cases hf : f (o, b)
      · simp [hf, Table.row?, hj, ih]
      · simp [hf, Table.row?, hj, ih]

/-- Reading a byte after a write: the byte written there, or what stood there before. -/
theorem Dram.byte_write (d : Dram) (o : Nat) (bytes : List Byte) (a : Nat) :
    (d.write o bytes).byte a =
      if o ≤ a ∧ a < o + bytes.length then (bytes[a - o]?).getD 0 else d.byte a := by
  have hb : ∀ c ∈ (cellsFrom o bytes).filter (fun c => decide (d.unlisted? c.1 ≠ some c.2)),
      o ≤ c.1 ∧ c.1 < o + bytes.length := fun c hc => cellsFrom_bounds (List.mem_filter.1 hc).1
  have hbg : (d.write o bytes).unlistedByte a = d.unlistedByte a := rfl
  rw [Dram.byte_eq, Dram.byte_eq, hbg]
  simp only [Dram.write, Table.splice_row? _ _ _ _ _ hb]
  by_cases h : o ≤ a ∧ a < o + bytes.length
  · have hlt : a - o < bytes.length := by omega
    simp only [h, and_self, if_true, cellsFrom_filter_row?, cellsFrom_row?, List.getElem?_eq_getElem hlt,
      Option.bind_some]
    by_cases hu : d.unlisted? a = some bytes[a - o]
    · simp [hu, Dram.unlisted?_eq hu]
    · simp [hu]
  · simp [h]

theorem Dram.byte_write_outside (d : Dram) (o : Nat) (bytes : List Byte) {a : Nat}
    (h : a < o ∨ o + bytes.length ≤ a) : (d.write o bytes).byte a = d.byte a := by
  rw [Dram.byte_write, if_neg (by omega)]

/-- Reading back what was written. -/
theorem Dram.bytes_write_self (d : Dram) (o : Nat) (bytes : List Byte) :
    (d.write o bytes).bytes o bytes.length = bytes := by
  apply List.ext_getElem
  · simp [Dram.bytes]
  · intro i h1 h2
    simp [Dram.bytes, Dram.byte_write, h2]

/-- Reading bytes that a write does not touch. -/
theorem Dram.bytes_write_outside (d : Dram) (o : Nat) (bytes : List Byte) (a n : Nat)
    (h : a + n ≤ o ∨ o + bytes.length ≤ a) : (d.write o bytes).bytes a n = d.bytes a n := by
  unfold Dram.bytes
  apply List.map_congr_left
  intro i hi
  have hi' := List.mem_range.1 hi
  exact d.byte_write_outside o bytes (by omega)

@[simp] theorem Dram.length_bytes (d : Dram) (o n : Nat) : (d.bytes o n).length = n := by simp [Dram.bytes]

theorem Dram.background_setBlock (d : Dram) (k : Nat) (b : Background) (a : Nat) :
    (d.setBlock k b).background a = if a / Config.mebibyte = k then b else d.background a := by
  simp only [Dram.background, Dram.setBlock, Table.row?_setRow]
  split <;> simp

theorem Dram.unlisted?_setBlock (d : Dram) (k : Nat) (b : Background) {a : Nat} (h : a / Config.mebibyte ≠ k) :
    (d.setBlock k b).unlisted? a = d.unlisted? a := by
  simp only [Dram.unlisted?, Dram.background_setBlock, h, if_false]

/-- Reading a byte after a whole MiB has been given a background. -/
theorem Dram.byte_setBlock_outside (d : Dram) (k : Nat) (b : Background) {a : Nat} (h : a / Config.mebibyte ≠ k) :
    (d.setBlock k b).byte a = d.byte a := by
  have hc : (d.setBlock k b).cells.row? a = d.cells.row? a := by
    have := d.cells.row?_filter a fun i => decide (i / Config.mebibyte ≠ k)
    simp only [Dram.setBlock, this, h, ne_eq, not_false_eq_true, decide_true, if_true]
  simp only [Dram.byte_eq, Dram.unlistedByte, Dram.background_setBlock, h, if_false, hc]

theorem Dram.byte_zeroBlock (d : Dram) (k a : Nat) :
    (d.zeroBlock k).byte a = if a / Config.mebibyte = k then 0 else d.byte a := by
  by_cases h : a / Config.mebibyte = k
  · have hc : (d.setBlock k .zeros).cells.row? a = none := by
      have := d.cells.row?_filter a fun i => decide (i / Config.mebibyte ≠ k)
      simp only [Dram.setBlock, this, h, ne_eq, not_true_eq_false, decide_false]
      rfl
    simp only [Dram.zeroBlock, Dram.byte_eq, Dram.unlistedByte, Dram.background_setBlock, h, if_true, hc]
    rfl
  · rw [if_neg h]; exact d.byte_setBlock_outside k .zeros h

/-! ## The canonical form -/

theorem Dram.write_wf {d : Dram} (o : Nat) (bytes : List Byte) (h : d.wf = true) : (d.write o bytes).wf = true := by
  rw [Dram.wf_iff] at *
  obtain ⟨hc, hb, hu⟩ := h
  refine ⟨Table.splice_rising _ _ hc (Table.rising_filter _ (cellsFrom_rising o bytes)) fun c hc =>
    cellsFrom_bounds (List.mem_filter.1 hc).1, hb, fun c hm => ?_⟩
  have hun : (d.write o bytes).unlisted? c.1 = d.unlisted? c.1 := rfl
  rw [hun]
  simp only [Dram.write, Table.splice] at hm
  rcases List.mem_append.1 hm with hm | hm
  · rcases List.mem_append.1 hm with hm | hm
    · exact hu c (List.mem_filter.1 hm).1
    · simpa using (List.mem_filter.1 hm).2
  · exact hu c (List.mem_filter.1 hm).1

theorem Dram.setBlock_wf {d : Dram} (k : Nat) (b : Background) (h : d.wf = true) : (d.setBlock k b).wf = true := by
  rw [Dram.wf_iff] at *
  obtain ⟨hc, hb, hu⟩ := h
  refine ⟨Table.rising_filter _ hc, Table.rising_setRow _ _ hb, fun c hm => ?_⟩
  have hk : c.1 / Config.mebibyte ≠ k := by simpa using (List.mem_filter.1 hm).2
  rw [Dram.unlisted?_setBlock d k b hk]
  exact hu c (List.mem_filter.1 hm).1

theorem Dram.zeroBlock_wf {d : Dram} (k : Nat) (h : d.wf = true) : (d.zeroBlock k).wf = true := d.setBlock_wf k _ h

/-- The number of the next unused seed says nothing about the form. -/
theorem Dram.withSeed_wf (d : Dram) (n : Nat) : Dram.wf { d with nextSeed := n } = d.wf := rfl

/-- A background is zeros after a fill was cut short exactly where it was before. -/
theorem Background.cut_eq_zeros (b : Background) (seed : Nat) : b.cut seed = .zeros ↔ b = .zeros := by
  cases b <;> simp [Background.cut]

/-- What a fill that was cut short leaves of a background: 00h where it had reached, the old byte elsewhere. -/
theorem Background.byte_cut (b : Background) (seed o : Nat) :
    (b.cut seed).byte o = if Config.writeReached seed o = true then 0 else b.byte o := by
  cases b <;> simp [Background.cut, Background.byte]

theorem Dram.background_cutZeroBlock (d : Dram) (k o : Nat) :
    (d.cutZeroBlock k).background o =
      if o / Config.mebibyte = k then (d.background o).cut d.nextSeed else d.background o := by
  simp only [Dram.background, Dram.cutZeroBlock, Table.row?_setRow]
  split <;> simp_all

theorem Dram.unlisted?_cutZeroBlock (d : Dram) (k o : Nat) : (d.cutZeroBlock k).unlisted? o = d.unlisted? o := by
  simp only [Dram.unlisted?, Dram.background_cutZeroBlock]
  by_cases hk : o / Config.mebibyte = k
  · rw [if_pos hk]
    cases d.background o <;> rfl
  · rw [if_neg hk]

/-- Reading a byte after a fill of an MiB was cut short: 00h where it had reached, the old byte elsewhere. -/
theorem Dram.byte_cutZeroBlock (d : Dram) (k o : Nat) :
    (d.cutZeroBlock k).byte o =
      if o / Config.mebibyte = k ∧ Config.writeReached d.nextSeed o = true then 0 else d.byte o := by
  have hc : (d.cutZeroBlock k).cells.row? o =
      if (!(decide (o / Config.mebibyte = k) && Config.writeReached d.nextSeed o)) = true then d.cells.row? o
      else none := by
    have := d.cells.row?_filter o fun i => !(decide (i / Config.mebibyte = k) && Config.writeReached d.nextSeed i)
    exact this
  simp only [Dram.byte_eq, Dram.unlistedByte, Dram.background_cutZeroBlock, hc]
  by_cases hk : o / Config.mebibyte = k <;> by_cases hr : Config.writeReached d.nextSeed o = true <;>
    simp [hk, hr, Background.byte_cut]

theorem Dram.cutZeroBlock_wf {d : Dram} (k : Nat) (h : d.wf = true) : (d.cutZeroBlock k).wf = true := by
  rw [Dram.wf_iff] at *
  obtain ⟨hc, hb, hu⟩ := h
  refine ⟨Table.rising_filter _ hc, Table.rising_setRow _ _ hb, fun c hm => ?_⟩
  rw [Dram.unlisted?_cutZeroBlock]
  exact hu c (List.mem_filter.1 hm).1

theorem Dram.cutWrite_wf {d : Dram} (o : Nat) (bytes : List Byte) (h : d.wf = true) : (d.cutWrite o bytes).wf = true :=
  (Dram.withSeed_wf _ _).trans (d.write_wf o _ h)

/-- Reading a byte after a write that was cut short: the new byte where it had reached, the old one elsewhere. -/
theorem Dram.byte_cutWrite (d : Dram) (o : Nat) (bytes : List Byte) (a : Nat) :
    (d.cutWrite o bytes).byte a =
      if o ≤ a ∧ a < o + bytes.length ∧ Config.writeReached d.nextSeed a = true then (bytes[a - o]?).getD 0
      else d.byte a := by
  have hs : (d.cutWrite o bytes).byte a = (d.write o (bytes.mapIdx fun i b =>
      if Config.writeReached d.nextSeed (o + i) then b else d.byte (o + i))).byte a := rfl
  rw [hs, Dram.byte_write, List.length_mapIdx]
  by_cases h : o ≤ a ∧ a < o + bytes.length
  · have hlt : a - o < bytes.length := by omega
    have ha : o + (a - o) = a := by omega
    by_cases hr : Config.writeReached d.nextSeed a = true <;>
      simp [h, hr, ha, List.getElem?_mapIdx, List.getElem?_eq_getElem hlt]
  · rw [if_neg h, if_neg (fun hh => h ⟨hh.1, hh.2.1⟩)]

theorem Dram.undefined_wf (seed : Nat) : (Dram.undefined seed).wf = true := rfl

/-- A property that each operation of a list keeps holds after all of them. -/
theorem foldl_keeps {α β : Type} (P : β → Prop) (f : β → α → β) (l : List α) (b : β) (h : P b)
    (hf : ∀ q a, P q → P (f q a)) : P (l.foldl f b) := by
  induction l generalizing b with
  | nil => exact h
  | cons a rest ih => exact ih _ (hf b a h)

theorem Dram.combine_wf {d : Dram} (o : Nat) (c : Byte) (x : List Byte) (h : d.wf = true) :
    (d.combine o c x).wf = true := by
  unfold Dram.combine
  split
  · exact h
  · exact d.write_wf _ _ h

theorem Dram.combineAll_wf {d : Dram} (o : CombineOperation) (h : d.wf = true) : (d.combineAll o).wf = true :=
  foldl_keeps (fun e : Dram => e.wf = true) _ _ _ h fun _ _ hq => Dram.combine_wf _ _ _ hq

theorem Dram.cutCombine_wf {d : Dram} (o : Nat) (c : Byte) (x : List Byte) (h : d.wf = true) :
    (d.cutCombine o c x).wf = true := by
  unfold Dram.cutCombine
  split
  · exact h
  · exact Dram.cutWrite_wf _ _ h

theorem Part.cutShort_wf {p : Part} (h : p.smc.dram.wf = true) : p.cutShort.wf = true := by
  unfold Part.cutShort
  cases p.smc.fill with
  | none =>
    cases p.cbe.operation with
    | none => exact h
    | some o => exact foldl_keeps (fun e : Dram => e.wf = true) _ _ _ h fun _ _ hq => Dram.cutCombine_wf _ _ _ hq
  | some f =>
    have hd := Dram.cutZeroBlock_wf (slotBlock f.slot) h
    cases p.cbe.operation with
    | none => exact hd
    | some o => exact foldl_keeps (fun e : Dram => e.wf = true) _ _ _ hd fun _ _ hq => Dram.cutCombine_wf _ _ _ hq

theorem Part.dramKept_wf {p : Part} (h : p.smc.dram.wf = true) : p.dramKept.wf = true := by
  unfold Part.dramKept
  split
  · exact foldl_keeps (fun e : Dram => e.wf = true) _ _ _ (Part.cutShort_wf h) fun _ _ hq => Dram.cutZeroBlock_wf _ hq
  · exact Part.cutShort_wf h

theorem Dram.initialized_wf {d : Dram} (h : d.wf = true) : d.initialized.wf = true :=
  foldl_keeps (fun e : Dram => e.wf = true) _ _ _ h fun _ _ hq => Dram.zeroBlock_wf _ hq

/-- After initialization the holdings region reads as zeros, and every other byte as before (R18, R148). -/
theorem Dram.byte_initialized (d : Dram) (a : Nat) :
    d.initialized.byte a = if a < holdingsBlocks * Config.mebibyte then 0 else d.byte a := by
  have key : ∀ (l : List Nat) (e : Dram),
      (l.foldl Dram.zeroBlock e).byte a = if a / Config.mebibyte ∈ l then 0 else e.byte a := by
    intro l
    induction l with
    | nil => simp
    | cons k rest ih =>
      intro e
      simp only [List.foldl_cons, ih, Dram.byte_zeroBlock, List.mem_cons]
      split <;> split <;> simp_all
  have hm : a / Config.mebibyte ∈ List.range holdingsBlocks ↔ a < holdingsBlocks * Config.mebibyte := by
    rw [List.mem_range, Nat.div_lt_iff_lt_mul (by decide)]
  simp only [Dram.initialized, key, hm]

/-- The machine right after reset has its memory in canonical form. -/
theorem State.reset_memory_wf : State.reset.part.smc.dram.wf = true := rfl

end Sys2Proof.Machine
end

