-- ==== Sys2Proof/Laws/Keeps.lean ====
section
/-! SUPPORT. What every shared operation keeps: the roster, the configuration in force, the strap, the canonical form of
the memory and the room of the queues. One lemma for each operation; a later proof cites it and unfolds nothing. -/

namespace Sys2Proof.Machine

/-- From one part to another the roster, the configuration and the strap are the same, and the memory law and the queue
law are kept. -/
structure Part.Keeps (p q : Part) : Prop where
  prs : q.prs = p.prs
  config : q.config = p.config
  strap : q.smc.strap = p.smc.strap
  lawful : p.memoryLaw ∧ p.queueLaw → q.memoryLaw ∧ q.queueLaw

theorem Part.Keeps.rfl {p : Part} : p.Keeps p := ⟨Eq.refl _, Eq.refl _, Eq.refl _, id⟩

theorem Part.Keeps.trans {p q r : Part} (h : p.Keeps q) (h' : q.Keeps r) : p.Keeps r :=
  ⟨h'.prs.trans h.prs, h'.config.trans h.config, h'.strap.trans h.strap, fun hp => h'.lawful (h.lawful hp)⟩

/-- An update that touches none of the fields the laws speak of. -/
theorem Part.Keeps.work {p0 q : Part} {now hlk hdt scn rq rqWait clt ctx plu ftu svu cbe vfu smc}
    (h : p0.Keeps q) (hr : HostLink.reportQueue hlk = q.hlk.reportQueue) (hm : StagingMemory.dram smc = q.smc.dram)
    (hs : StagingMemory.strap smc = q.smc.strap) (hq : List.length rq ≤ q.rq.length) :
    p0.Keeps ⟨now, q.config, hlk, q.prs, hdt, scn, rq, rqWait, clt, ctx, plu, ftu, svu, cbe, vfu, smc,
      q.sgp⟩ := by
  refine h.trans ⟨Eq.refl _, Eq.refl _, hs, ?_⟩
  rintro ⟨h1, h2, h3, h4, h5, h6, h7, h8⟩
  refine ⟨?_, h2, h3, h4, h5, h6, ?_, Nat.le_trans hq h8⟩
  · simpa only [Part.memoryLaw, hm] using h1
  · simpa only [hr] using h7

/-- A new DRAM in its canonical form. -/
theorem Part.Keeps.dram {p0 q : Part} (d : Dram) (h : p0.Keeps q) (hd : q.smc.dram.wf = true → d.wf = true) :
    p0.Keeps (q.setDram d) :=
  h.trans ⟨Eq.refl _, Eq.refl _, Eq.refl _, fun hp => ⟨hd hp.1, hp.2⟩⟩

/-- Changes of the transmit queues and the hold list that keep to their room. -/
theorem Part.Keeps.port {p0 q : Part} (sgp : SegmentPort) (h : p0.Keeps q)
    (h1 : (sgp.control.filter fun f => !f.body.isBeacon).length ≤
        (q.sgp.control.filter fun f => !f.body.isBeacon).length)
    (h2 : (sgp.control.filter fun f => f.body.isBeacon).length ≤ (q.sgp.control.filter fun f => f.body.isBeacon).length)
    (h3 : sgp.data.length ≤ q.sgp.data.length) (h4 : sgp.hold.length ≤ q.sgp.hold.length)
    (h5 : (∀ f ∈ q.sgp.hold, f.body.isBeacon = false) → ∀ f ∈ sgp.hold, f.body.isBeacon = false) :
    p0.Keeps { q with sgp := sgp } :=
  h.trans ⟨Eq.refl _, Eq.refl _, Eq.refl _, fun hp => ⟨hp.1, Nat.le_trans h1 hp.2.1, Nat.le_trans h2 hp.2.2.1,
    Nat.le_trans h3 hp.2.2.2.1, Nat.le_trans h4 hp.2.2.2.2.1, h5 hp.2.2.2.2.2.1, hp.2.2.2.2.2.2⟩⟩

/-! ## Flags, reports and tags -/

theorem Part.setFlag_keeps {p0 p : Part} (c : Cause) (h : p0.Keeps p) : p0.Keeps (p.setFlag c) :=
  h.work (Eq.refl _) (Eq.refl _) (Eq.refl _) (Nat.le_refl _)

theorem Part.countDrop_keeps {p0 p : Part} (k : DropKind) (h : p0.Keeps p) : p0.Keeps (p.countDrop k) :=
  h.port _ (Nat.le_refl _) (Nat.le_refl _) (Nat.le_refl _) (Nat.le_refl _) id

theorem Part.dropFrame_keeps {p0 p : Part} (k : DropKind) (h : p0.Keeps p) : p0.Keeps (p.dropFrame k) := by
  unfold Part.dropFrame
  split
  · exact Part.setFlag_keeps _ (Part.countDrop_keeps _ h)
  · exact Part.countDrop_keeps _ h

theorem Part.receive_keeps {p0 p : Part} (hd : FrameHeader) (body : FrameBody) (owner : Part → Part) (h : p0.Keeps p)
    (ho : p0.Keeps (owner p)) : p0.Keeps (p.receive hd body owner) := by
  unfold Part.receive
  split
  · split
    · exact Part.dropFrame_keeps _ h
    · exact ho
  · exact h

theorem Part.writeHost_keeps {p0 p : Part} (a : BitVec 64) (b : List Byte) (h : p0.Keeps p) :
    p0.Keeps (p.writeHost a b) :=
  h.work (Eq.refl _) (Eq.refl _) (Eq.refl _) (Nat.le_refl _)

theorem Part.writeReport_keeps {p0 p : Part} (r : Report) (h : p0.Keeps p) : p0.Keeps (p.writeReport r) :=
  Part.setFlag_keeps _ ((Part.writeHost_keeps _ _ h).work (Eq.refl _) (Eq.refl _) (Eq.refl _) (Nat.le_refl _))

theorem Part.postReport?_keeps {p0 p q : Part} {r : Report} (h : p0.Keeps p) (hq : p.postReport? r = some q) :
    p0.Keeps q := by
  unfold Part.postReport? at hq
  split at hq
  · cases hq; exact Part.writeReport_keeps _ h
  · split at hq
    · cases hq
      refine h.trans ⟨Eq.refl _, Eq.refl _, Eq.refl _, fun hp => ⟨hp.1, ?_⟩⟩
      obtain ⟨h2, h3, h4, h5, h6, h7, h8⟩ := hp.2
      refine ⟨h2, h3, h4, h5, h6, ?_, h8⟩
      simp only [List.length_append, List.length_cons, List.length_nil]
      omega
    · cases hq

theorem Part.postReport_keeps {p0 p : Part} (r : Report) (h : p0.Keeps p) : p0.Keeps (p.postReport r) := by
  unfold Part.postReport
  cases hq : p.postReport? r with
  | none => exact h
  | some q => exact Part.postReport?_keeps h hq

/-- A shorter internal report queue. -/
theorem Part.Keeps.reports {p0 q : Part} (hlk : HostLink) (h : p0.Keeps q)
    (hl : hlk.reportQueue.length ≤ q.hlk.reportQueue.length) : p0.Keeps { q with hlk := hlk } :=
  h.trans ⟨Eq.refl _, Eq.refl _, Eq.refl _, fun hp => by
    obtain ⟨h1, h2, h3, h4, h5, h6, h7, h8⟩ := hp
    exact ⟨h1, h2, h3, h4, h5, h6, Nat.le_trans hl h7, h8⟩⟩

theorem Part.moveReports_keeps {p0 p : Part} (l : List QueuedReport) (h : p0.Keeps p)
    (hl : l.length ≤ p.hlk.reportQueue.length) : p0.Keeps (p.moveReports l) := by
  induction l generalizing p with
  | nil => exact h.reports _ (Nat.zero_le _)
  | cons r rest ih =>
    unfold Part.moveReports
    split
    · exact ih (Part.writeReport_keeps _ h) (Nat.le_trans (Nat.le_succ _) hl)
    · exact h.reports _ hl

theorem Part.tellScanner_keeps {p0 p : Part} (h : p0.Keeps p) : p0.Keeps p.tellScanner :=
  h.work (Eq.refl _) (Eq.refl _) (Eq.refl _) (Nat.le_refl _)

theorem Part.reportPlaceFrees_keeps {p0 p : Part} (h : p0.Keeps p) : p0.Keeps p.reportPlaceFrees :=
  h.work (Eq.refl _) (Eq.refl _) (Eq.refl _) (Nat.le_refl _)

theorem Part.drainReports_keeps {p0 p : Part} (h : p0.Keeps p) : p0.Keeps p.drainReports := by
  have hm := Part.moveReports_keeps p.hlk.reportQueue h (Nat.le_refl _)
  unfold Part.drainReports
  dsimp only
  split
  · exact Part.reportPlaceFrees_keeps hm
  · exact hm

theorem Part.takeTag_keeps {p0 p : Part} (k : TagKind) (h : p0.Keeps p) : p0.Keeps (p.takeTag k) := by
  cases k <;> exact h.work (Eq.refl _) (Eq.refl _) (Eq.refl _) (Nat.le_refl _)

theorem Part.endTag_keeps {p0 p : Part} (t : Tag) (h : p0.Keeps p) : p0.Keeps (p.endTag t) :=
  h.work (Eq.refl _) (Eq.refl _) (Eq.refl _) (Nat.le_refl _)

theorem Part.voidTag_keeps {p0 p : Part} (t : Tag) (h : p0.Keeps p) : p0.Keeps (p.voidTag t) := by
  unfold Part.voidTag
  split
  · exact (Part.endTag_keeps t h).reports _ (by simp)
  · exact h

theorem Part.voidTag?_keeps {p0 p : Part} (t : Option Tag) (h : p0.Keeps p) : p0.Keeps (p.voidTag? t) := by
  cases t
  · exact h
  · exact Part.voidTag_keeps _ h

/-! ## The segment port -/

theorem Part.serveHeld_keeps {p0 p : Part} (h : p0.Keeps p) : p0.Keeps p.serveHeld := by
  refine h.trans ⟨Eq.refl _, Eq.refl _, Eq.refl _, fun hp => ⟨hp.1, ?_⟩⟩
  obtain ⟨h2, h3, h4, h5, h6, h7, h8⟩ := hp.2
  have hb : ∀ f ∈ p.sgp.hold.take p.freeControlPlaces, f.body.isBeacon = false :=
    fun f hf => h6 f (List.mem_of_mem_take hf)
  have e1 : (p.sgp.hold.take p.freeControlPlaces).filter (fun f => f.body.isBeacon) = [] :=
    List.filter_eq_nil_iff.2 fun f hf => by simp [hb f hf]
  refine ⟨?_, ?_, h4, ?_, fun f hf => h6 f (List.mem_of_mem_drop hf), h7, h8⟩
  · have := List.length_filter_le (fun f => !f.body.isBeacon) (p.sgp.hold.take p.freeControlPlaces)
    simp only [Part.serveHeld, List.filter_append, List.length_append, List.length_take] at this ⊢
    simp only [Part.freeControlPlaces] at this ⊢
    omega
  · simpa only [Part.serveHeld, List.filter_append, e1, List.append_nil] using h3
  · exact Nat.le_trans (by simp [Part.serveHeld]) h5

/-- Where no frame is held, none is served. -/
theorem Part.serveHeld_of_hold_nil {p : Part} (h : p.sgp.hold = []) : p.serveHeld = p := by
  obtain ⟨_, _, _, _, _, _, _, _, _, _, _, _, _, _, _, _, sgp⟩ := p
  cases sgp
  simp_all [Part.serveHeld]

/-- A frame posted while the queue is open goes to its tail. -/
theorem Part.enqueueControl_of_queueOpen {p : Part} (f : ControlFrame) (h : p.queueOpen) :
    p.enqueueControl f = { p with sgp := { p.sgp with control := p.sgp.control ++ [f] } } := by
  simp [Part.enqueueControl, Part.serveHeld_of_hold_nil h.1, h.1, h.2]

theorem Part.enqueueControl_keeps {p0 p : Part} (f : ControlFrame) (h : p0.Keeps p) (hf : f.body.isBeacon = false) :
    p0.Keeps (p.enqueueControl f) := by
  unfold Part.enqueueControl
  have hq := Part.serveHeld_keeps h
  generalize p.serveHeld = q at hq
  dsimp only
  split
  · rename_i hc
    have hc' : (q.sgp.control.filter fun f => !f.body.isBeacon).length < controlPlaces := by
      simp only [Bool.and_eq_true, Part.controlPlace, decide_eq_true_eq] at hc
      exact hc.2
    refine hq.trans ⟨Eq.refl _, Eq.refl _, Eq.refl _, fun hp => ⟨hp.1, ?_⟩⟩
    obtain ⟨h2, h3, h4, h5, h6, h7, h8⟩ := hp.2
    refine ⟨?_, ?_, h4, h5, h6, h7, h8⟩
    · simp only [List.filter_append, List.length_append, List.filter_cons, hf, Bool.not_false, if_true, List.filter_nil,
        List.length_cons, List.length_nil]
      omega
    · simpa [List.filter_append, hf] using h3
  · split
    · refine hq.trans ⟨Eq.refl _, Eq.refl _, Eq.refl _, fun hp => ⟨hp.1, ?_⟩⟩
      obtain ⟨h2, h3, h4, h5, h6, h7, h8⟩ := hp.2
      refine ⟨h2, h3, h4, ?_, ?_, h7, h8⟩
      · simp only [List.length_append, List.length_cons, List.length_nil]
        omega
      · intro g hg
        rcases List.mem_append.1 hg with hg | hg
        · exact h6 g hg
        · rw [List.mem_singleton] at hg; subst hg; exact hf
    · exact Part.countDrop_keeps _ hq

theorem FrameBody.isClaimOf_not_beacon {t : StripeId} {b : FrameBody} (h : b.isClaimOf t = true) :
    b.isBeacon = false := by
  cases b <;> simp_all [FrameBody.isClaimOf, FrameBody.isBeacon]

theorem filter_replaceClaim (t : StripeId) (f : ControlFrame) (hf : f.body.isBeacon = false) (b : Bool)
    (l : List ControlFrame) :
    ((replaceClaim t f l).filter fun g => g.body.isBeacon == b).length =
      (l.filter fun g => g.body.isBeacon == b).length := by
  induction l with
  | nil => rfl
  | cons g rest ih =>
    unfold replaceClaim at ih ⊢
    simp only [List.map_cons]
    by_cases hg : g.body.isClaimOf t = true
    · have hb := FrameBody.isClaimOf_not_beacon hg
      simp only [hg, if_true, List.filter_cons, hf, hb]
      split <;> simp [ih]
    · simp only [if_neg hg, List.filter_cons]
      split <;> simp [ih]

theorem Part.post_keeps {p0 p : Part} (target : Option Nat) (body : FrameBody) (h : p0.Keeps p)
    (hb : body.isBeacon = false) : p0.Keeps (p.post target body) := by
  unfold Part.post
  dsimp only
  split
  · rename_i t _
    split
    · have e1 := filter_replaceClaim t { target := target, epoch := p.prs.ownEpoch, body := body } hb false
          p.sgp.control
      have e2 := filter_replaceClaim t { target := target, epoch := p.prs.ownEpoch, body := body } hb true p.sgp.control
      simp only [beq_false, beq_true] at e1 e2
      refine h.port _ (Nat.le_of_eq e1) (Nat.le_of_eq e2) (Nat.le_refl _) (by simp [replaceClaim]) ?_
      intro hold f hf
      simp only [replaceClaim, List.mem_map] at hf
      obtain ⟨g, hg, rfl⟩ := hf
      split
      · exact hb
      · exact hold g hg
    · exact Part.enqueueControl_keeps _ h hb
  · exact Part.enqueueControl_keeps _ h hb

theorem Part.postBeacon_keeps {p0 p : Part} (h : p0.Keeps p) : p0.Keeps p.postBeacon := by
  have hbe : p.beaconBody.isBeacon = true := rfl
  unfold Part.postBeacon
  dsimp only
  split
  · have e : ∀ (b : Bool) (l : List ControlFrame) (f : ControlFrame), f.body.isBeacon = true →
        ((l.map fun g => if g.body.isBeacon then f else g).filter fun g => g.body.isBeacon == b).length =
          (l.filter fun g => g.body.isBeacon == b).length := by
      intro b l f hf
      induction l with
      | nil => rfl
      | cons g rest ih =>
        by_cases hg : g.body.isBeacon = true
        · simp only [List.map_cons, hg, if_true, List.filter_cons, hf]
          split <;> simp [ih]
        · simp only [List.map_cons, if_neg hg, List.filter_cons]
          split <;> simp [ih]
    have e1 := e false p.sgp.control { target := none, epoch := p.prs.ownEpoch, body := p.beaconBody } hbe
    have e2 := e true p.sgp.control { target := none, epoch := p.prs.ownEpoch, body := p.beaconBody } hbe
    simp only [beq_false, beq_true] at e1 e2
    exact h.port _ (Nat.le_of_eq e1) (Nat.le_of_eq e2) (Nat.le_refl _) (Nat.le_refl _) id
  · rename_i hn
    refine h.trans ⟨Eq.refl _, Eq.refl _, Eq.refl _, fun hp => ⟨hp.1, ?_⟩⟩
    obtain ⟨h2, h3, h4, h5, h6, h7, h8⟩ := hp.2
    refine ⟨?_, ?_, h4, h5, h6, h7, h8⟩
    · simpa [List.filter_append, hbe] using h2
    · have : p.sgp.control.filter (fun f => f.body.isBeacon) = [] := by
        rw [List.filter_eq_nil_iff]
        intro f hf hfb
        exact hn (List.any_eq_true.2 ⟨f, hf, hfb⟩)
      simp [List.filter_append, hbe, this]

theorem filter_filter_length_le {α : Type} (l : List α) (f g : α → Bool) :
    ((l.filter f).filter g).length ≤ (l.filter g).length := by
  rw [List.filter_comm]
  exact List.length_filter_le _ _

theorem Part.withdrawFrames_keeps {p0 p : Part} (withdrawn : FrameBody → Bool) (h : p0.Keeps p) :
    p0.Keeps (p.withdrawFrames withdrawn) :=
  Part.serveHeld_keeps (h.port _ (filter_filter_length_le _ _ _) (filter_filter_length_le _ _ _) (Nat.le_refl _)
    (List.length_filter_le _ _) fun hh f hf => hh f (List.mem_filter.1 hf).1)

theorem Part.withdrawRequests_keeps {p0 p : Part} (lane : Nat) (h : p0.Keeps p) :
    p0.Keeps (p.withdrawRequests lane) := Part.withdrawFrames_keeps _ h

theorem Part.withdrawAtHalt_keeps {p0 p : Part} (h : p0.Keeps p) : p0.Keeps p.withdrawAtHalt :=
  Part.Keeps.port _ (Part.withdrawFrames_keeps _ h) (Nat.le_refl _) (Nat.le_refl _) (Nat.zero_le _) (Nat.le_refl _) id

theorem Part.queueHeld_keeps {p0 p : Part} (h : p0.Keeps p) : p0.Keeps p.queueHeld := by
  unfold Part.queueHeld
  split
  · exact h
  · rename_i f rest hh
    split
    · rename_i hc
      simp only [Part.controlPlace, decide_eq_true_eq] at hc
      refine h.trans ⟨Eq.refl _, Eq.refl _, Eq.refl _, fun hp => ⟨hp.1, ?_⟩⟩
      obtain ⟨h2, h3, h4, h5, h6, h7, h8⟩ := hp.2
      rw [hh] at h5 h6
      have hf := h6 f (by simp)
      refine ⟨?_, ?_, h4, Nat.le_trans (Nat.le_succ _) h5, fun g hg => h6 g (by simp [hg]), h7, h8⟩
      · simp only [List.filter_append, List.length_append, List.filter_cons, hf, Bool.not_false, if_true,
          List.filter_nil, List.length_cons, List.length_nil]
        omega
      · simpa [List.filter_append, hf] using h3
    · exact h

theorem Part.transmit_keeps {p0 p : Part} (target : Option Nat) (epoch : Epoch) (body : FrameBody) (h : p0.Keeps p) :
    p0.Keeps (p.transmit target epoch body) :=
  h.port _ (Nat.le_refl _) (Nat.le_refl _) (Nat.le_refl _) (Nat.le_refl _) id

theorem Part.postWithdraw_keeps {p0 p : Part} (t : StripeId) (r : WithdrawReason) (w : Byte) (l : Positions)
    (h : p0.Keeps p) : p0.Keeps (p.postWithdraw t r w l) := Part.post_keeps _ _ h (Eq.refl _)

theorem Part.withdrawPlain_keeps {p0 p : Part} (t : StripeId) (r : WithdrawReason) (h : p0.Keeps p) :
    p0.Keeps (p.withdrawPlain t r) := Part.postWithdraw_keeps _ _ _ _ h

/-! ## Single fields -/

theorem Part.reach_keeps {p0 p : Part} (time : Nat) (h : p0.Keeps p) :
    p0.Keeps (p.reach time) :=
  h.work (Eq.refl _) (Eq.refl _) (Eq.refl _) (Nat.le_refl _)

theorem Part.tick_keeps {p0 p : Part} (h : p0.Keeps p) :
    p0.Keeps p.tick :=
  h.work (Eq.refl _) (Eq.refl _) (Eq.refl _) (Nat.le_refl _)

theorem Part.setContext_keeps {p0 p : Part} (c : Nat) (x : Context) (h : p0.Keeps p) :
    p0.Keeps (p.setContext c x) :=
  h.work (Eq.refl _) (Eq.refl _) (Eq.refl _) (Nat.le_refl _)

theorem Part.editContext_keeps {p0 p : Part} (c : Nat) (f : Context → Context) (h : p0.Keeps p) :
    p0.Keeps (p.editContext c f) :=
  h.work (Eq.refl _) (Eq.refl _) (Eq.refl _) (Nat.le_refl _)

theorem Part.bumpGeneration_keeps {p0 p : Part} (c : Nat) (h : p0.Keeps p) :
    p0.Keeps (p.bumpGeneration c) :=
  h.work (Eq.refl _) (Eq.refl _) (Eq.refl _) (Nat.le_refl _)

theorem Part.editLane_keeps {p0 p : Part} (n : Nat) (f : Lane → Lane) (h : p0.Keeps p) :
    p0.Keeps (p.editLane n f) :=
  h.work (Eq.refl _) (Eq.refl _) (Eq.refl _) (Nat.le_refl _)

theorem Part.setUse_keeps {p0 p : Part} (n : Nat) (u : LaneUse) (h : p0.Keeps p) :
    p0.Keeps (p.setUse n u) :=
  h.work (Eq.refl _) (Eq.refl _) (Eq.refl _) (Nat.le_refl _)

theorem Part.setClaim_keeps {p0 p : Part} (n : Nat) (e : ClaimEntry) (h : p0.Keeps p) :
    p0.Keeps (p.setClaim n e) :=
  h.work (Eq.refl _) (Eq.refl _) (Eq.refl _) (Nat.le_refl _)

theorem Part.setServe_keeps {p0 p : Part} (n : Nat) (e : ServeEntry) (h : p0.Keeps p) :
    p0.Keeps (p.setServe n e) :=
  h.work (Eq.refl _) (Eq.refl _) (Eq.refl _) (Nat.le_refl _)

theorem Part.setSlot_keeps {p0 p : Part} (j : Nat) (r : Slot) (h : p0.Keeps p) :
    p0.Keeps (p.setSlot j r) :=
  h.work (Eq.refl _) (Eq.refl _) (Eq.refl _) (Nat.le_refl _)

theorem Part.editSlot_keeps {p0 p : Part} (j : Nat) (f : Slot → Slot) (h : p0.Keeps p) :
    p0.Keeps (p.editSlot j f) :=
  h.work (Eq.refl _) (Eq.refl _) (Eq.refl _) (Nat.le_refl _)

theorem Part.clearFlags_keeps {p0 p : Part} (mask : Byte) (h : p0.Keeps p) :
    p0.Keeps (p.clearFlags mask) :=
  h.work (Eq.refl _) (Eq.refl _) (Eq.refl _) (Nat.le_refl _)

/-! ## The holdings table -/

theorem Part.setRecord_keeps {p0 p : Part} (position : Nat) (r : HoldingRecord) (h : p0.Keeps p) :
    p0.Keeps (p.setRecord position r) := by
  unfold Part.setRecord
  split
  · exact h
  · exact (h.work (Eq.refl _) (Eq.refl _) (Eq.refl _) (Nat.le_refl _)).dram _ fun hd => Dram.write_wf _ _ hd

theorem Part.clearRecord_keeps {p0 p : Part} (position : Nat) (h : p0.Keeps p) :
    p0.Keeps (p.clearRecord position) :=
  (h.work (Eq.refl _) (Eq.refl _) (Eq.refl _) (Nat.le_refl _)).dram _ fun hd => Dram.write_wf _ _ hd

theorem Part.insertRecord?_keeps {p0 p q : Part} {r : HoldingRecord} (h : p0.Keeps p)
    (hq : p.insertRecord? r = some q) : p0.Keeps q := by
  obtain ⟨n, -, rfl⟩ := Option.map_eq_some_iff.1 hq
  exact Part.setRecord_keeps _ _ h

theorem Part.updateStripe_keeps {p0 p : Part} (t : StripeId) (f : HoldingRecord → HoldingRecord) (h : p0.Keeps p) :
    p0.Keeps (p.updateStripe t f) :=
  foldl_keeps (p0.Keeps ·) _ _ _ h fun q row hq => by
    split
    · exact Part.setRecord_keeps _ _ hq
    · exact hq

theorem Part.setStanding_keeps {p0 p : Part} (t : StripeId) (lost : Positions) (standing : Standing) (h : p0.Keeps p) :
    p0.Keeps (p.setStanding t lost standing) :=
  Part.updateStripe_keeps _ _ h

theorem Part.setLost_keeps {p0 p : Part} (t : StripeId) (lost : Positions) (h : p0.Keeps p) :
    p0.Keeps (p.setLost t lost) :=
  Part.updateStripe_keeps _ _ h

theorem Part.setOutside_keeps {p0 p : Part} (t : StripeId) (o : Option HeardClaim) (h : p0.Keeps p) :
    p0.Keeps (p.setOutside t o) :=
  Part.updateStripe_keeps _ _ h

theorem Part.setPlacement_keeps {p0 p : Part} (t : StripeId) (position station : Nat) (h : p0.Keeps p) :
    p0.Keeps (p.setPlacement t position station) :=
  Part.updateStripe_keeps _ _ h

theorem Part.quietAll_keeps {p0 p : Part} (h : p0.Keeps p) :
    p0.Keeps p.quietAll :=
  foldl_keeps (p0.Keeps ·) _ _ _ h fun _ _ hq => Part.setRecord_keeps _ _ hq

/-! ## Slots and serve entries -/

theorem Part.settleSlot_keeps {p0 p : Part} (j : Nat) (h : p0.Keeps p) :
    p0.Keeps (p.settleSlot j) := by
  unfold Part.settleSlot
  split
  · exact h
  · split
    · exact h.work (Eq.refl _) (Eq.refl _) (Eq.refl _) (Nat.le_refl _)
    · exact h

theorem Part.giveUpSlot_keeps {p0 p : Part} (j : Nat) (h : p0.Keeps p) :
    p0.Keeps (p.giveUpSlot j) :=
  Part.settleSlot_keeps _ ((Part.editSlot_keeps _ _ h).work (Eq.refl _) (Eq.refl _) (Eq.refl _) (Nat.le_refl _))

theorem Part.giveUpSlots_keeps {p0 p : Part} (slots : List Nat) (h : p0.Keeps p) :
    p0.Keeps (p.giveUpSlots slots) :=
  foldl_keeps (p0.Keeps ·) _ _ _ h fun _ _ hq => Part.giveUpSlot_keeps _ hq

theorem Part.requestFill_keeps {p0 p : Part} (c slot : Nat) (h : p0.Keeps p) :
    p0.Keeps (p.requestFill c slot) :=
  h.work (Eq.refl _) (Eq.refl _) (Eq.refl _) (Nat.le_refl _)

theorem Part.freeServe_keeps {p0 p : Part} (n : Nat) (h : p0.Keeps p) :
    p0.Keeps (p.freeServe n) := by
  unfold Part.freeServe
  split
  · exact h
  · exact Part.giveUpSlot_keeps _ (h.work (Eq.refl _) (Eq.refl _) (Eq.refl _) (Nat.le_refl _))

theorem Part.evict?_keeps {p0 p q : Part} {j : Nat} (h : p0.Keeps p) (hq : p.evict? = some (q, j)) : p0.Keeps q := by
  obtain ⟨r, -, hr⟩ := Option.map_eq_some_iff.1 hq
  cases hr
  exact h.work (Eq.refl _) (Eq.refl _) (Eq.refl _) (Nat.le_refl _)

theorem Part.evictMany_keeps {p0 p : Part} (n : Nat) (h : p0.Keeps p) : p0.Keeps (p.evictMany n).1 := by
  induction n generalizing p with
  | zero => exact h
  | succ n ih =>
    unfold Part.evictMany
    split
    · exact h
    · rename_i q slot hq
      exact ih (Part.evict?_keeps h hq)

theorem Part.grantSlots?_keeps {p0 p q : Part} {n : Nat} {slots : List Nat} (h : p0.Keeps p)
    (hq : p.grantSlots? n = some (q, slots)) : p0.Keeps q := by
  unfold Part.grantSlots? at hq
  dsimp only at hq
  split at hq
  · cases hq
  · split at hq
    · cases hq; exact h
    · split at hq
      · have he := Part.evictMany_keeps (n - p.freeSlots.length) h
        cases hm : p.evictMany (n - p.freeSlots.length) with
        | mk q' evicted =>
          rw [hm] at hq he
          cases hq
          exact he
      · cases hq

/-! ## Claims -/

theorem Part.broadcastClaim_keeps {p0 p : Part} (e : ClaimEntry) (settled repeated : Bool) (h : p0.Keeps p) :
    p0.Keeps (p.broadcastClaim e settled repeated) :=
  Part.post_keeps _ _ h (Eq.refl _)

theorem Part.contend_keeps {p0 p : Part} (n : Nat) (h : p0.Keeps p) :
    p0.Keeps (p.contend n) := by
  unfold Part.contend
  split
  · exact h
  · exact Part.broadcastClaim_keeps _ _ _ (Part.setClaim_keeps _ _ h)

theorem Part.yieldEntry_keeps {p0 p : Part} (n : Nat) (e : ClaimEntry) (rival : HeardClaim) (timeYielded : Nat)
    (h : p0.Keeps p) :
    p0.Keeps (p.yieldEntry n e rival timeYielded) :=
  (Part.setClaim_keeps _ _ h).work (Eq.refl _) (Eq.refl _) (Eq.refl _) (Nat.le_refl _)

theorem Part.removeClaim_keeps {p0 p : Part} (n : Nat) (h : p0.Keeps p) :
    p0.Keeps (p.removeClaim n) :=
  h.work (Eq.refl _) (Eq.refl _) (Eq.refl _) (Nat.le_refl _)

theorem Part.removeClaimOf_keeps {p0 p : Part} (t : StripeId) (h : p0.Keeps p) :
    p0.Keeps (p.removeClaimOf t) := by
  unfold Part.removeClaimOf
  split
  · exact Part.removeClaim_keeps _ h
  · exact h

theorem Part.revertYielded_keeps {p0 p : Part} (station : Nat) (h : p0.Keeps p) :
    p0.Keeps (p.revertYielded station) :=
  foldl_keeps (p0.Keeps ·) _ _ _ h fun _ _ hq => Part.contend_keeps _ hq

/-! ## Lanes -/

theorem Part.postRelease_keeps {p0 p : Part} (n server : Nat) (h : p0.Keeps p) :
    p0.Keeps (p.postRelease n server) :=
  Part.post_keeps _ _ h (Eq.refl _)

theorem Part.releaseLane_keeps {p0 p : Part} (n : Nat) (h : p0.Keeps p) :
    p0.Keeps (p.releaseLane n) := by
  unfold Part.releaseLane
  split
  · exact h
  · apply Part.editLane_keeps
    split
    · exact Part.postRelease_keeps _ _ (Part.withdrawRequests_keeps _ h)
    · exact Part.withdrawRequests_keeps _ h

theorem Part.releaseLanes_keeps {p0 p : Part} (lanes : List Nat) (h : p0.Keeps p) :
    p0.Keeps (p.releaseLanes lanes) :=
  foldl_keeps (p0.Keeps ·) _ _ _ h fun _ _ hq => Part.releaseLane_keeps _ hq

theorem Part.freeLanes_keeps {p0 p : Part} (lanes : List Nat) (h : p0.Keeps p) :
    p0.Keeps (p.freeLanes lanes) :=
  foldl_keeps (p0.Keeps ·) _ _ _ h fun _ _ hq => Part.editLane_keeps _ _ hq

theorem Part.reserveLanes_keeps {p0 p : Part} (c : Nat) (lanes : List Nat) (h : p0.Keeps p) :
    p0.Keeps (p.reserveLanes c lanes) :=
  foldl_keeps (p0.Keeps ·) _ _ _ h fun _ _ hq => Part.editLane_keeps _ _ hq

theorem Part.removeOpeners_keeps {p0 p : Part} (n : Nat) (leaves : Opener → Bool) (h : p0.Keeps p) :
    p0.Keeps (p.removeOpeners n leaves) := by
  unfold Part.removeOpeners
  split
  · exact h
  · split
    · dsimp only
      split
      · exact Part.freeServe_keeps _ (Part.setServe_keeps _ _ h)
      · exact Part.setServe_keeps _ _ h
    · exact h

theorem Part.removeOpenersEverywhere_keeps {p0 p : Part} (leaves : Opener → Bool) (h : p0.Keeps p) :
    p0.Keeps (p.removeOpenersEverywhere leaves) :=
  foldl_keeps (p0.Keeps ·) _ _ _ h fun _ _ hq => Part.removeOpeners_keeps _ _ hq

theorem Part.detachOpener_keeps {p0 p : Part} (c : Nat) (h : p0.Keeps p) :
    p0.Keeps (p.detachOpener c) :=
  (Part.removeOpenersEverywhere_keeps (Opener.isInternalOf c) h).work (Eq.refl _) (Eq.refl _) (Eq.refl _)
      (Nat.le_refl _)

theorem Part.tellPlanUnit_keeps {p0 p : Part} (c : Nat) (h : p0.Keeps p) :
    p0.Keeps (p.tellPlanUnit c) :=
  h.work (Eq.refl _) (Eq.refl _) (Eq.refl _) (Nat.le_refl _)

theorem Part.tellVerifyUnit_keeps {p0 p : Part} (c : Nat) (h : p0.Keeps p) :
    p0.Keeps (p.tellVerifyUnit c) :=
  h.work (Eq.refl _) (Eq.refl _) (Eq.refl _) (Nat.le_refl _)

theorem Part.postCombine_keeps {p0 p : Part} (r : CombineRequest) (h : p0.Keeps p) :
    p0.Keeps (p.postCombine r) := by
  unfold Part.postCombine
  dsimp only
  split
  · exact Part.setFlag_keeps _ (h.work (Eq.refl _) (Eq.refl _) (Eq.refl _) (Nat.le_refl _))
  · exact h.work (Eq.refl _) (Eq.refl _) (Eq.refl _) (Nat.le_refl _)

theorem Part.laneCombine_keeps {p0 p : Part} (n : Nat) (h : p0.Keeps p) :
    p0.Keeps (p.laneCombine n) := by
  unfold Part.laneCombine
  split
  · exact h
  · split
    · exact Part.postCombine_keeps _ (Part.editLane_keeps _ _ h)
    · exact h

/-! ## Contexts -/

theorem Part.refill_keeps {p0 p : Part} (c : Nat) (h : p0.Keeps p) :
    p0.Keeps (p.refill c) := by
  unfold Part.refill
  split
  · exact h
  · exact foldl_keeps (p0.Keeps ·) _ _ _ (Part.editContext_keeps _ _ h) fun _ _ hq => Part.requestFill_keeps _ _ hq

theorem Part.giveSlot_keeps {p0 p : Part} (c : Nat) (positionSlot : Nat × Nat) (h : p0.Keeps p) :
    p0.Keeps (p.giveSlot c positionSlot) :=
  Part.requestFill_keeps _ _ (Part.editContext_keeps _ _ (Part.setSlot_keeps _ _ h))

theorem Part.askSlots_keeps {p0 p : Part} (c : Nat) (h : p0.Keeps p) :
    p0.Keeps (p.askSlots c) := by
  unfold Part.askSlots
  split
  · exact h
  · split
    · exact h
    · split
      · exact h
      · rename_i hg
        exact foldl_keeps (p0.Keeps ·) _ _ _ (Part.grantSlots?_keeps h hg) fun _ _ hq => Part.giveSlot_keeps _ _ hq

theorem Part.releaseContext_keeps {p0 p : Part} (c : Nat) (h : p0.Keeps p) :
    p0.Keeps (p.releaseContext c) := by
  unfold Part.releaseContext
  split
  · exact h
  · rename_i x _
    have h1 := Part.tellVerifyUnit_keeps c (Part.tellPlanUnit_keeps c h)
    have h2 := Part.freeLanes_keeps x.reservation (Part.releaseLanes_keeps x.reservation h1)
    have h3 := Part.detachOpener_keeps c h2
    have h4 := foldl_keeps (p0.Keeps ·) Part.voidTag (x.lostList.filterMap LostEntry.requestedTag?) _ h3
      fun _ _ hq => Part.voidTag_keeps _ hq
    exact Part.giveUpSlots_keeps _ (Part.editContext_keeps _ _ h4)

theorem Part.freeContext_keeps {p0 p : Part} (c : Nat) (h : p0.Keeps p) :
    p0.Keeps (p.freeContext c) :=
  h.work (Eq.refl _) (Eq.refl _) (Eq.refl _) (Nat.le_refl _)

theorem Part.endContext_keeps {p0 p : Part} (c : Nat) (h : p0.Keeps p) :
    p0.Keeps (p.endContext c) :=
  Part.freeContext_keeps _ (Part.releaseContext_keeps _ h)

theorem Part.endContextOf_keeps {p0 p : Part} (t : StripeId) (h : p0.Keeps p) :
    p0.Keeps (p.endContextOf t) := by
  unfold Part.endContextOf
  split
  · exact Part.endContext_keeps _ h
  · exact h

theorem Part.completeAbandoned_keeps {p0 p : Part} (c : Nat) (cause : AbandonCause) (h : p0.Keeps p) :
    p0.Keeps (p.completeAbandoned c cause) := by
  unfold Part.completeAbandoned
  split
  · exact h
  · exact Part.freeContext_keeps _ (Part.postReport_keeps _ (Part.setStanding_keeps _ _ _ (Part.removeClaimOf_keeps _
      (Part.withdrawPlain_keeps _ _ h))))

theorem Part.completeVerifyFail_keeps {p0 p : Part} (c : Nat) (failed : Positions) (h : p0.Keeps p) :
    p0.Keeps (p.completeVerifyFail c failed) := by
  unfold Part.completeVerifyFail
  split
  · exact h
  · exact Part.freeContext_keeps _ (Part.postReport_keeps _ (Part.setStanding_keeps _ _ _ (Part.removeClaimOf_keeps _
      (Part.withdrawPlain_keeps _ _ h))))

theorem Part.completeReported_keeps {p0 p : Part} (c : Nat) (o : PendingOutcome) (h : p0.Keeps p) :
    p0.Keeps (p.completeReported c o) := by
  cases o
  · exact Part.completeAbandoned_keeps _ _ h
  · exact Part.completeVerifyFail_keeps _ _ h

theorem Part.decideReported_keeps {p0 p : Part} (c : Nat) (o : PendingOutcome) (h : p0.Keeps p) :
    p0.Keeps (p.decideReported c o) := by
  have h1 := Part.releaseContext_keeps c h
  unfold Part.decideReported
  dsimp only
  split
  · exact Part.editContext_keeps _ _ h1
  · exact Part.completeReported_keeps _ _ h1

theorem Part.abandon_keeps {p0 p : Part} (c : Nat) (cause : AbandonCause) (h : p0.Keeps p) :
    p0.Keeps (p.abandon c cause) :=
  Part.decideReported_keeps _ _ h

theorem Part.enterPlanning_keeps {p0 p : Part} (c : Nat) (h : p0.Keeps p) :
    p0.Keeps (p.enterPlanning c) :=
  (Part.editContext_keeps c (fun y => { y with state := .planning }) h).work (Eq.refl _) (Eq.refl _) (Eq.refl _)
      (Nat.le_refl _)

theorem Part.rebuildLostList_keeps {p0 p : Part} (c : Nat) (new : Positions) (h : p0.Keeps p) :
    p0.Keeps (p.rebuildLostList c new) := by
  unfold Part.rebuildLostList
  split
  · exact h
  · exact Part.giveUpSlots_keeps _ (Part.editContext_keeps _ _ h)

theorem Part.rePlan_keeps {p0 p : Part} (c : Nat) (newLost : Option Positions) (h : p0.Keeps p) :
    p0.Keeps (p.rePlan c newLost) := by
  unfold Part.rePlan
  split
  · exact h
  · rename_i x _
    split
    · exact Part.abandon_keeps _ _ h
    · have h1 := Part.detachOpener_keeps c (Part.releaseLanes_keeps x.reservation (Part.tellPlanUnit_keeps c
        (Part.bumpGeneration_keeps c h)))
      have h2 := Part.editContext_keeps c (fun y =>
        { y with
          rePlans := y.rePlans + 1
          survivors := none
          plan := none
          contributions := List.replicate y.chunkCount []
          chunksComplete := 0
          deadline := .absent }) h1
      cases newLost with
      | none => exact Part.enterPlanning_keeps _ (Part.askSlots_keeps _ (Part.refill_keeps _ h2))
      | some new =>
        exact Part.enterPlanning_keeps _ (Part.askSlots_keeps _ (Part.refill_keeps _ (Part.rebuildLostList_keeps _ _
            h2)))

theorem Part.markUnusable_keeps {p0 p : Part} (c position : Nat) (h : p0.Keeps p) :
    p0.Keeps (p.markUnusable c position) :=
  Part.editContext_keeps _ _ h

theorem Part.enterFailed_keeps {p0 p : Part} (n : Nat) (cause : LaneFailure) (h : p0.Keeps p) :
    p0.Keeps (p.enterFailed n cause) := by
  unfold Part.enterFailed
  split
  · exact h
  · rename_i u _
    have h1 := Part.setUse_keeps n { u with state := .failed cause, bank0 := .empty, bank1 := .empty }
      (Part.withdrawRequests_keeps n h)
    dsimp only
    split
    · exact h1
    · exact h1
    · split
      · exact h1
      · exact Part.postRelease_keeps _ _ h1
    · exact Part.postRelease_keeps _ _ h1

theorem Part.reportFailedLane_keeps {p0 p : Part} (n : Nat) (h : p0.Keeps p) :
    p0.Keeps (p.reportFailedLane n) := by
  unfold Part.reportFailedLane
  split
  · exact h
  · split
    · split
      · apply Part.rePlan_keeps
        split
        · exact h
        · exact Part.markUnusable_keeps _ _ h
      · exact h
    · exact h

theorem Part.failLane_keeps {p0 p : Part} (n : Nat) (cause : LaneFailure) (h : p0.Keeps p) :
    p0.Keeps (p.failLane n cause) :=
  Part.reportFailedLane_keeps _ (Part.enterFailed_keeps _ _ h)

theorem Part.failLocal_keeps {p0 p : Part} (c : Nat) (generation : BitVec 8) (position : Nat) (h : p0.Keeps p) :
    p0.Keeps (p.failLocal c generation position) := by
  unfold Part.failLocal
  split
  · exact Part.rePlan_keeps _ _ (Part.markUnusable_keeps _ _ h)
  · exact h

/-! ## Serving -/

theorem Part.addOpener_keeps {p0 p : Part} (n : Nat) (o : Opener) (h : p0.Keeps p) :
    p0.Keeps (p.addOpener n o) := by
  unfold Part.addOpener
  split
  · exact h
  · exact Part.setServe_keeps _ _ h

theorem Part.setOpener_keeps {p0 p : Part} (n : Nat) (i : InternalOpener) (h : p0.Keeps p) :
    p0.Keeps (p.setOpener n i) := by
  unfold Part.setOpener
  split
  · exact h
  · exact Part.setServe_keeps _ _ h

theorem Part.touchServe_keeps {p0 p : Part} (n : Nat) (h : p0.Keeps p) :
    p0.Keeps (p.touchServe n) := by
  unfold Part.touchServe
  split
  · exact h
  · exact Part.setServe_keeps _ _ h

theorem Part.postStageRequest_keeps {p0 p : Part} (n : Nat) (h : p0.Keeps p) :
    p0.Keeps (p.postStageRequest n) := by
  unfold Part.postStageRequest
  split
  · exact h
  · split
    · exact h
    · exact Part.postReport_keeps _ (Part.editSlot_keeps _ _ (Part.setServe_keeps _ _ (Part.takeTag_keeps _ h)))

theorem Part.startServe_keeps {p0 p : Part} (n slot : Nat) (t : StripeId) (position length : Nat) (h : p0.Keeps p) :
    p0.Keeps (p.startServe n slot t position length) :=
  Part.postStageRequest_keeps _ (Part.setServe_keeps _ _ (Part.setSlot_keeps _ _ h))

theorem Part.newServe?_keeps {p0 p q : Part} {t : StripeId} {position length n : Nat} (h : p0.Keeps p)
    (hq : p.newServe? t position length = some (q, n)) : p0.Keeps q := by
  unfold Part.newServe? at hq
  split at hq
  · cases hq; exact Part.startServe_keeps _ _ _ _ _ h
  · split at hq
    · cases hq
    · rename_i he
      obtain ⟨m, -, hm⟩ := Option.map_eq_some_iff.1 hq
      cases hm
      exact Part.startServe_keeps _ _ _ _ _ (Part.evict?_keeps h he)

theorem Part.feed_keeps {p0 p : Part} (c : Nat) (h : p0.Keeps p) :
    p0.Keeps (p.feed c) := by
  unfold Part.feed
  split
  · split
    · exact Part.postCombine_keeps _ (h.work (Eq.refl _) (Eq.refl _) (Eq.refl _) (Nat.le_refl _))
    · exact h
  · exact h

theorem Part.attach_keeps {p0 p q : Part} {i : InternalOpener} (h : p0.Keeps p) (hq : p.attach i = .attached q) :
    p0.Keeps q := by
  unfold Part.attach at hq
  split at hq
  · cases hq
  · split at hq
    · split at hq
      · cases hq
      · split at hq
        · cases hq; exact Part.feed_keeps _ (Part.touchServe_keeps _ (Part.addOpener_keeps _ _ h))
        · cases hq
      · split at hq
        · cases hq; exact Part.addOpener_keeps _ _ h
        · cases hq
    · split at hq
      · rename_i hn
        cases hq; exact Part.addOpener_keeps _ _ (Part.newServe?_keeps h hn)
      · cases hq

theorem Part.failOpener_keeps {p0 p : Part} (n : Nat) (i : InternalOpener) (h : p0.Keeps p) :
    p0.Keeps (p.failOpener n i) :=
  Part.failLocal_keeps _ _ _ (Part.setOpener_keeps _ _ h)

theorem Part.freeIfEmpty_keeps {p0 p : Part} (n : Nat) (h : p0.Keeps p) :
    p0.Keeps (p.freeIfEmpty n) := by
  unfold Part.freeIfEmpty
  split
  · exact h
  · split
    · exact Part.freeServe_keeps _ h
    · exact h

theorem Part.failServe_keeps {p0 p : Part} (n : Nat) (cause : ServeFailure) (h : p0.Keeps p) :
    p0.Keeps (p.failServe n cause) := by
  unfold Part.failServe
  split
  · exact h
  · apply Part.freeIfEmpty_keeps
    refine foldl_keeps (p0.Keeps ·) _ _ _ (Part.setServe_keeps _ _ h) fun q i hq => ?_
    split
    · exact hq
    · exact Part.failOpener_keeps _ _ hq

theorem Part.dropServed_keeps {p0 p : Part} (t : StripeId) (position : Nat) (h : p0.Keeps p) :
    p0.Keeps (p.dropServed t position) := by
  unfold Part.dropServed
  split
  · exact h
  · exact Part.failServe_keeps _ _ (Part.voidTag?_keeps _ h)

/-! ## Gathering -/

theorem Part.attachOrWait_keeps {p0 p : Part} (i : InternalOpener) (h : p0.Keeps p) :
    p0.Keeps (p.attachOrWait i) := by
  unfold Part.attachOrWait
  split
  · rename_i ha; exact Part.attach_keeps h ha
  · exact h.work (Eq.refl _) (Eq.refl _) (Eq.refl _) (Nat.le_refl _)
  · exact Part.failLocal_keeps _ _ _ h

theorem Part.serveWaiting_keeps {p0 p : Part} (l : List InternalOpener) (h : p0.Keeps p) :
    p0.Keeps (p.serveWaiting l) := by
  induction l generalizing p with
  | nil => exact h
  | cons i rest ih =>
    unfold Part.serveWaiting
    split
    · exact h
    · rename_i ha; exact ih ((Part.attach_keeps h ha).work (Eq.refl _) (Eq.refl _) (Eq.refl _) (Nat.le_refl _))
    · exact ih (Part.failLocal_keeps _ _ _ (h.work (Eq.refl _) (Eq.refl _) (Eq.refl _) (Nat.le_refl _)))

theorem Part.startOpenTimeout_keeps {p0 p : Part} (n : Nat) (h : p0.Keeps p) :
    p0.Keeps (p.startOpenTimeout n) := by
  unfold Part.startOpenTimeout
  split
  · exact h
  · split
    · exact Part.setUse_keeps _ _ h
    · exact h

theorem Part.startPullTimeout_keeps {p0 p : Part} (n chunk : Nat) (h : p0.Keeps p) :
    p0.Keeps (p.startPullTimeout n chunk) := by
  unfold Part.startPullTimeout
  split
  · exact h
  · split
    · split
      · exact Part.setUse_keeps _ _ h
      · exact h
    · exact h

theorem Part.postOpen_keeps {p0 p : Part} (n : Nat) (u : LaneUse) (h : p0.Keeps p) :
    p0.Keeps (p.postOpen n u) := by
  unfold Part.postOpen
  dsimp only
  split
  · exact Part.post_keeps _ _ h (Eq.refl _)
  · exact Part.startOpenTimeout_keeps _ (Part.post_keeps _ _ h (Eq.refl _))

theorem Part.postPull_keeps {p0 p : Part} (n : Nat) (u : LaneUse) (chunk : Nat) (h : p0.Keeps p) :
    p0.Keeps (p.postPull n u chunk) := by
  unfold Part.postPull
  dsimp only
  split
  · exact Part.post_keeps _ _ h (Eq.refl _)
  · exact Part.startPullTimeout_keeps _ _ (Part.post_keeps _ _ h (Eq.refl _))

theorem Part.giveLane_keeps {p0 p : Part} (n c index : Nat) (x : Context) (v : Survivor) (h : p0.Keeps p) :
    p0.Keeps (p.giveLane n c index x v) := by
  unfold Part.giveLane
  dsimp only
  split
  · exact Part.enterFailed_keeps _ _ (Part.editLane_keeps _ _ h)
  · exact Part.postOpen_keeps _ _ (Part.editLane_keeps _ _ h)

theorem Part.enterGathering_keeps {p0 p : Part} (c : Nat) (h : p0.Keeps p) :
    p0.Keeps (p.enterGathering c) := by
  unfold Part.enterGathering
  split
  · exact h
  · dsimp only
    refine foldl_keeps (p0.Keeps ·) _ _ _ ?_ fun _ _ hq => Part.reportFailedLane_keeps _ hq
    split
    · exact Part.attachOrWait_keeps _ (foldl_keeps (p0.Keeps ·) _ _ _ (Part.editContext_keeps _ _ h) fun _ _ hq =>
        Part.giveLane_keeps _ _ _ _ _ hq)
    · exact foldl_keeps (p0.Keeps ·) _ _ _ (Part.editContext_keeps _ _ h) fun _ _ hq => Part.giveLane_keeps _ _ _ _ _ hq

theorem Part.tryGather_keeps {p0 p : Part} (c : Nat) (h : p0.Keeps p) :
    p0.Keeps (p.tryGather c) := by
  unfold Part.tryGather
  split
  · split
    · exact Part.enterGathering_keeps _ h
    · exact h
  · exact h

theorem Part.advance_keeps {p0 p : Part} (c : Nat) (h : p0.Keeps p) :
    p0.Keeps (p.advance c) := by
  unfold Part.advance
  split
  · exact h
  · split
    · split
      · split
        · exact Part.enterPlanning_keeps _ h
        · exact h
      · exact Part.tryGather_keeps _ h
      · exact h
    · exact h

theorem Part.sendPull_keeps {p0 p : Part} (n : Nat) (h : p0.Keeps p) :
    p0.Keeps (p.sendPull n) := by
  unfold Part.sendPull
  split
  · exact h
  · split
    · exact Part.postPull_keeps _ _ _ (Part.setUse_keeps _ _ h)
    · exact h

theorem Part.testWindow_keeps {p0 p : Part} (n : Nat) (h : p0.Keeps p) :
    p0.Keeps (p.testWindow n) :=
  Part.sendPull_keeps _ (Part.sendPull_keeps _ h)

theorem Part.testAllWindows_keeps {p0 p : Part} (h : p0.Keeps p) :
    p0.Keeps p.testAllWindows :=
  foldl_keeps (p0.Keeps ·) _ _ _ h fun _ _ hq => Part.testWindow_keeps _ hq

theorem Part.reOpen_keeps {p0 p : Part} (n : Nat) (h : p0.Keeps p) :
    p0.Keeps (p.reOpen n) := by
  unfold Part.reOpen
  split
  · exact h
  · split
    · exact Part.failLane_keeps _ _ h
    · exact Part.postOpen_keeps _ _ (Part.setUse_keeps _ _ (Part.withdrawRequests_keeps _ h))

theorem Part.checkGathered_keeps {p0 p : Part} (c : Nat) (h : p0.Keeps p) :
    p0.Keeps (p.checkGathered c) := by
  unfold Part.checkGathered
  split
  · exact h
  · rename_i x _
    split
    · have h1 := Part.freeLanes_keeps x.reservation (Part.releaseLanes_keeps x.reservation (Part.detachOpener_keeps c
          h))
      exact (Part.editContext_keeps c (fun y => { y with reservation := [], state := .verifying }) h1).work (Eq.refl
          _) (Eq.refl _) (Eq.refl _) (Nat.le_refl _)
    · exact h

theorem Part.endFragment_keeps {p0 p : Part} (n : Nat) (h : p0.Keeps p) :
    p0.Keeps (p.endFragment n) := by
  unfold Part.endFragment
  split
  · exact h
  · rename_i u _
    split
    · exact Part.failLane_keeps _ _ h
    · have h1 := Part.postRelease_keeps n u.server (Part.setUse_keeps n { u with state := .complete }
        (Part.withdrawRequests_keeps n h))
      dsimp only
      split
      · exact Part.checkGathered_keeps _ h1
      · exact h1

/-! ## Evaluation -/

theorem Part.shrinkContext_keeps {p0 p : Part} (c : Nat) (new : Positions) (h : p0.Keeps p) :
    p0.Keeps (p.shrinkContext c new) := by
  unfold Part.shrinkContext
  split
  · exact h
  · exact Part.advance_keeps _ (Part.giveUpSlots_keeps _ (Part.editContext_keeps _ _ h))

theorem Part.changeContextLoss_keeps {p0 p : Part} (c : Nat) (new : Positions) (h : p0.Keeps p) :
    p0.Keeps (p.changeContextLoss c new) := by
  unfold Part.changeContextLoss
  split
  · exact h
  · split
    · exact h
    · dsimp only
      split
      · exact h
      · exact h
      · split
        · exact Part.askSlots_keeps _ (Part.rebuildLostList_keeps _ _ h)
        · split
          · exact Part.shrinkContext_keeps _ _ h
          · exact h
      · split
        · exact Part.rePlan_keeps _ _ h
        · split
          · exact Part.shrinkContext_keeps _ _ h
          · exact h

/-- A stripe's WITHDRAW posted or not, as its entry has announced itself. -/
theorem Part.withdrawIf_keeps {p0 p : Part} (b : Bool) (t : StripeId) (r : WithdrawReason) (h : p0.Keeps p) :
    p0.Keeps (if b = true then p.withdrawPlain t r else p) := by
  split
  · exact Part.withdrawPlain_keeps _ _ h
  · exact h

theorem Part.lossChanged?_keeps {p0 p q : Part} {t : StripeId} {new : Positions} (h : p0.Keeps p)
    (hq : p.lossChanged? t new = some q) : p0.Keeps q := by
  have h1 := Part.endContextOf_keeps t h
  unfold Part.lossChanged? at hq
  split at hq
  · cases hq; exact h
  · split at hq
    · split at hq
      · cases hq
      · cases hq
        exact Part.postReport_keeps _ (Part.setStanding_keeps _ _ _ (Part.removeClaim_keeps _
          (Part.withdrawIf_keeps _ _ _ h1)))
    · split at hq
      · cases hq
        exact Part.setStanding_keeps _ _ _ (Part.removeClaim_keeps _ (Part.withdrawIf_keeps _ _ _ h1))
      · have h2 := fun n e => Part.setLost_keeps t new (Part.setClaim_keeps n e h)
        cases hq
        split
        · exact Part.changeContextLoss_keeps _ _ (h2 _ _)
        · exact h2 _ _

theorem Part.requestSweep_keeps {p0 p : Part}
    (h : p0.Keeps p) : p0.Keeps p.requestSweep := h.work (Eq.refl _) (Eq.refl _) (Eq.refl _) (Nat.le_refl _)

theorem Part.queueStripe?_keeps {p0 p q : Part} {t : StripeId} {lost : Positions} (h : p0.Keeps p)
    (hq : p.queueStripe? t lost = some q) : p0.Keeps q := by
  unfold Part.queueStripe? at hq
  split at hq
  · cases hq
  · rename_i hr
    cases hq
    have hs := Part.setStanding_keeps t lost .queued (Part.Keeps.rfl (p := p))
    have hrq : (p.setStanding t lost .queued).rq = p.rq :=
      foldl_keeps (fun q : Part => q.rq = p.rq) _ _ _ (Eq.refl _) fun q r hq => by
        unfold Part.setRecord
        split
        · split
          · exact hq
          · exact hq
        · exact hq
    refine h.trans ⟨hs.prs, hs.config, hs.strap, fun hp => ?_⟩
    obtain ⟨hm, h2, h3, h4, h5, h6, h7, h8⟩ := hs.lawful hp
    refine ⟨hm, h2, h3, h4, h5, h6, h7, ?_⟩
    simp only [hrq, List.length_append, List.length_cons, List.length_nil]
    omega

theorem Part.unqueue_keeps {p0 p : Part} (t : StripeId) (h : p0.Keeps p) : p0.Keeps (p.unqueue t) := by
  unfold Part.unqueue
  split
  · exact h.work (Eq.refl _) (Eq.refl _) (Eq.refl _) (List.length_filter_le _ _)
  · exact h

theorem Part.makeUnrecoverable?_keeps {p0 p q : Part} {t : StripeId} {lost : Positions} (h : p0.Keeps p)
    (hq : p.makeUnrecoverable? t lost = some q) : p0.Keeps q := by
  unfold Part.makeUnrecoverable? at hq
  split at hq
  · cases hq
  · cases hq; exact Part.postReport_keeps _ (Part.setStanding_keeps _ _ _ h)

theorem Part.evaluate?_keeps {p0 p q : Part} {t : StripeId} (h : p0.Keeps p) (hq : p.evaluate? t = some q) :
    p0.Keeps q := by
  have hu : ∀ {lost} {r : Part}, p.makeUnrecoverable? t lost = some r → p0.Keeps r :=
    fun hm => Part.makeUnrecoverable?_keeps h hm
  have hv : ∀ {lost} {r : Part}, (p.makeUnrecoverable? t lost).map (fun q => q.unqueue t) = some r → p0.Keeps r := by
    intro lost r hm
    obtain ⟨q, hmq, rfl⟩ := Option.map_eq_some_iff.1 hm
    exact Part.unqueue_keeps _ (hu hmq)
  unfold Part.evaluate? at hq
  grind [Part.queueStripe?_keeps, Part.setStanding_keeps, Part.unqueue_keeps, Part.lossChanged?_keeps,
    Part.setOutside_keeps]

theorem Part.evaluateOrSweep_keeps {p0 p : Part} (t : StripeId) (h : p0.Keeps p) :
    p0.Keeps (p.evaluateOrSweep t) := by
  unfold Part.evaluateOrSweep
  cases hq : p.evaluate? t with
  | none => exact Part.requestSweep_keeps h
  | some q => exact Part.evaluate?_keeps h hq

theorem Part.lossChangedOrSweep_keeps {p0 p : Part} (t : StripeId) (new : Positions) (h : p0.Keeps p) :
    p0.Keeps (p.lossChangedOrSweep t new) := by
  unfold Part.lossChangedOrSweep
  cases hq : p.lossChanged? t new with
  | none => exact Part.requestSweep_keeps h
  | some q => exact Part.lossChanged?_keeps h hq

theorem Part.completeDone_keeps {p0 p : Part} (c : Nat) (h : p0.Keeps p) :
    p0.Keeps (p.completeDone c) := by
  unfold Part.completeDone
  split
  · exact h
  · exact Part.evaluateOrSweep_keeps _ (Part.freeContext_keeps _ (Part.setStanding_keeps _ _ _
        (Part.removeClaimOf_keeps _
      (Part.postWithdraw_keeps _ _ _ _ (Part.releaseContext_keeps _ h)))))

/-! ## The scanner -/

theorem Part.addPending_keeps {p0 p : Part} (rack : Nat) (held : Option Bool) (h : p0.Keeps p) :
    p0.Keeps (p.addPending rack held) :=
  h.work (Eq.refl _) (Eq.refl _) (Eq.refl _) (Nat.le_refl _)

theorem Part.walkIfReleased_keeps {p0 p : Part} (h : p0.Keeps p) :
    p0.Keeps p.walkIfReleased := by
  unfold Part.walkIfReleased
  split
  · exact h.work (Eq.refl _) (Eq.refl _) (Eq.refl _) (Nat.le_refl _)
  · exact h

theorem Part.releaseTrigger_keeps {p0 p : Part} (rack : Nat) (h : p0.Keeps p) :
    p0.Keeps (p.releaseTrigger rack) := by
  unfold Part.releaseTrigger
  split
  · exact Part.walkIfReleased_keeps (h.work (Eq.refl _) (Eq.refl _) (Eq.refl _) (Nat.le_refl _))
  · exact h

theorem Part.startPass_keeps {p0 p : Part} (h : p0.Keeps p) :
    p0.Keeps p.startPass :=
  h.work (Eq.refl _) (Eq.refl _) (Eq.refl _) (Nat.le_refl _)

theorem Part.endPass_keeps {p0 p : Part} (h : p0.Keeps p) :
    p0.Keeps p.endPass :=
  h.work (Eq.refl _) (Eq.refl _) (Eq.refl _) (Nat.le_refl _)

theorem Part.moveCursor_keeps {p0 p : Part} (h : p0.Keeps p) :
    p0.Keeps p.moveCursor := by
  unfold Part.moveCursor
  split
  · exact Part.endPass_keeps h
  · exact h.work (Eq.refl _) (Eq.refl _) (Eq.refl _) (Nat.le_refl _)

theorem Part.abandonPass_keeps {p0 p : Part} (h : p0.Keeps p) :
    p0.Keeps p.abandonPass :=
  Part.endPass_keeps (h.work (Eq.refl _) (Eq.refl _) (Eq.refl _) (Nat.le_refl _))

theorem Part.visit_keeps {p0 p : Part} (h : p0.Keeps p) :
    p0.Keeps p.visit := by
  unfold Part.visit
  split
  · exact Part.moveCursor_keeps h
  · split
    · exact Part.moveCursor_keeps h
    · split
      · exact h.work (Eq.refl _) (Eq.refl _) (Eq.refl _) (Nat.le_refl _)
      · rename_i hq
        exact Part.moveCursor_keeps ((Part.evaluate?_keeps h hq).work (Eq.refl _) (Eq.refl _) (Eq.refl _)
            (Nat.le_refl _))

theorem Part.dropAtCursor_keeps {p0 p : Part} (position : Nat) (h : p0.Keeps p) :
    p0.Keeps (p.dropAtCursor position) := by
  unfold Part.dropAtCursor
  split
  · exact Part.moveCursor_keeps (Part.requestSweep_keeps h)
  · exact h

theorem Part.park?_keeps {p0 p q : Part} (h : p0.Keeps p) (hq : p.park? = some q) : p0.Keeps q := by
  obtain ⟨r, -, hr⟩ := Option.map_eq_some_iff.1 hq
  cases hr
  exact Part.removeClaim_keeps _ (Part.setStanding_keeps _ _ _ (Part.setOutside_keeps _ _ h))

theorem Part.createClaim_keeps {p0 p : Part} (n : Nat) (t : StripeId) (lost : Positions) (h : p0.Keeps p) :
    p0.Keeps (p.createClaim n t lost) := by
  have h1 := Part.setStanding_keeps t lost .claiming (Part.setOutside_keeps t none h)
  unfold Part.createClaim
  dsimp only
  split
  · split
    · exact Part.setClaim_keeps _ _ h1
    · exact Part.contend_keeps _ (Part.setClaim_keeps _ _ h1)
  · exact Part.contend_keeps _ (Part.setClaim_keeps _ _ h1)

theorem Part.leaveHead_keeps {p0 p : Part} (h : p0.Keeps p) : p0.Keeps p.leaveHead :=
  h.work (Eq.refl _) (Eq.refl _) (Eq.refl _) (by simp)

theorem Part.takeHead_keeps {p0 p : Part} (n : Nat) (t : StripeId) (h : p0.Keeps p) :
    p0.Keeps (p.takeHead n t) := by
  unfold Part.takeHead
  dsimp only
  split
  · exact Part.setStanding_keeps _ _ _ (Part.leaveHead_keeps h)
  · split
    · split
      · exact h.work (Eq.refl _) (Eq.refl _) (Eq.refl _) (Nat.le_refl _)
      · rename_i hq; exact Part.leaveHead_keeps (Part.makeUnrecoverable?_keeps h hq)
    · exact Part.createClaim_keeps _ _ _ (Part.leaveHead_keeps h)

theorem Part.dequeueHead_keeps {p0 p : Part} (h : p0.Keeps p) :
    p0.Keeps p.dequeueHead := by
  unfold Part.dequeueHead
  split
  · exact h
  · split
    · exact h
    · split
      · exact Part.takeHead_keeps _ _ h
      · split
        · exact h
        · rename_i hq
          split
          · exact Part.takeHead_keeps _ _ (Part.park?_keeps h hq)
          · exact Part.park?_keeps h hq

end Sys2Proof.Machine
end

