-- ==== Sys2Proof/Laws/CommandKeeps.lean ====
section
/-! SUPPORT. What the effects of the commands keep, one lemma for each: the roster, the configuration in force, the
strap, the canonical form of the memory and the room of the queues. -/

namespace Sys2Proof.Machine

/-! ## Claim and WITHDRAW arrivals, and the claim timers -/

theorem Part.hearOutside_keeps {p0 p : Part} (t : StripeId) (arrival : HeardClaim) (h : p0.Keeps p) :
    p0.Keeps (p.hearOutside t arrival) := by
  unfold Part.hearOutside
  split
  · exact Part.setOutside_keeps _ _ h
  · split
    · exact Part.setOutside_keeps _ _ h
    · exact h

theorem Part.claimAtContending_keeps {p0 p : Part} (n : Nat) (e : ClaimEntry) (arrival : HeardClaim) (h : p0.Keeps p) :
    p0.Keeps (p.claimAtContending n e arrival) := by
  unfold Part.claimAtContending
  split
  · exact Part.yieldEntry_keeps _ _ _ _ h
  · exact Part.broadcastClaim_keeps _ _ _ h

theorem Part.claimAtYielded_keeps {p0 p : Part} (n : Nat) (e : ClaimEntry) (rival : HeardClaim) (timeYielded : Nat)
    (arrival : HeardClaim) (h : p0.Keeps p) :
    p0.Keeps (p.claimAtYielded n e rival timeYielded arrival) := by
  unfold Part.claimAtYielded
  split
  · exact Part.setClaim_keeps _ _ h
  · exact h

theorem Part.claimAtOwned_keeps {p0 p : Part} (n : Nat) (e : ClaimEntry) (arrival : HeardClaim) (h : p0.Keeps p) :
    p0.Keeps (p.claimAtOwned n e arrival) := by
  unfold Part.claimAtOwned
  split
  · exact Part.yieldEntry_keeps _ _ _ _ (Part.postWithdraw_keeps _ _ _ _ (Part.endContextOf_keeps _ h))
  · exact Part.broadcastClaim_keeps _ _ _ h

theorem Part.takeClaim_keeps {p0 p : Part} (station : Nat) (t : StripeId) (rank : Rank) (flags : Byte) (lostMask :
    BitVec 16) (h : p0.Keeps p) :
    p0.Keeps (p.takeClaim station t rank flags lostMask) := by
  unfold Part.takeClaim
  split
  · exact h
  · split
    · exact h
    · split
      · exact Part.dropFrame_keeps _ h
      · dsimp only
        split
        · exact Part.hearOutside_keeps _ _ h
        · split
          · exact Part.claimAtContending_keeps _ _ _ h
          · exact Part.claimAtYielded_keeps _ _ _ _ _ h
          · exact Part.claimAtOwned_keeps _ _ _ h

theorem Part.placementUpdate_keeps {p0 p : Part} (station : Nat) (t : StripeId) (rebuilt : Positions) (h : p0.Keeps p) :
    p0.Keeps (p.placementUpdate station t rebuilt) := by
  refine foldl_keeps (p0.Keeps ·) _ _ _ h fun _ _ hq => ?_
  split
  · exact hq
  · exact Part.setPlacement_keeps _ _ _ hq

theorem Part.contendWith_keeps {p0 p : Part} (n : Nat) (e : ClaimEntry) (lost : Positions) (h : p0.Keeps p) :
    p0.Keeps (p.contendWith n e lost) :=
  Part.contend_keeps _ (Part.setLost_keeps _ _ (Part.setClaim_keeps _ _ h))

theorem Part.lossChangedIfNew_keeps {p0 p : Part} (e : ClaimEntry) (loss : Positions) (h : p0.Keeps p) :
    p0.Keeps (p.lossChangedIfNew e loss) := by
  unfold Part.lossChangedIfNew
  split
  · exact h
  · exact Part.lossChangedOrSweep_keeps _ _ h

theorem Part.withdrawDone_keeps {p0 p : Part} (station : Nat) (t : StripeId) (h : p0.Keeps p) :
    p0.Keeps (p.withdrawDone station t) := by
  unfold Part.withdrawDone
  split
  · exact Part.evaluateOrSweep_keeps _ h
  · dsimp only
    split
    · split
      · exact Part.setStanding_keeps _ _ _ (Part.removeClaim_keeps _ h)
      · split
        · exact Part.lossChangedOrSweep_keeps _ _ h
        · exact Part.contendWith_keeps _ _ _ h
    · exact Part.lossChangedIfNew_keeps _ _ h

theorem Part.withdrawYield_keeps {p0 p : Part} (station : Nat) (t : StripeId) (winner : Nat) (h : p0.Keeps p) :
    p0.Keeps (p.withdrawYield station t winner) := by
  unfold Part.withdrawYield
  split
  · split
    · split
      · exact Part.setOutside_keeps _ _ h
      · exact h
    · exact h
  · split
    · split
      · exact h
      · split
        · exact Part.contend_keeps _ h
        · exact Part.setClaim_keeps _ _ h
    · exact h

theorem Part.withdrawGivenUp_keeps {p0 p : Part} (station : Nat) (t : StripeId) (h : p0.Keeps p) :
    p0.Keeps (p.withdrawGivenUp station t) := by
  unfold Part.withdrawGivenUp
  split
  · split
    · exact Part.contend_keeps _ h
    · exact h
  · split
    · split
      · exact Part.setOutside_keeps _ _ h
      · exact h
    · exact h

theorem Part.withdrawJudged_keeps {p0 p : Part} (station : Nat) (t : StripeId) (h : p0.Keeps p) :
    p0.Keeps (p.withdrawJudged station t) := by
  unfold Part.withdrawJudged
  split
  · exact Part.evaluateOrSweep_keeps _ h
  · dsimp only
    split
    · exact Part.lossChangedOrSweep_keeps _ _ h
    · split
      · exact Part.contendWith_keeps _ _ _ h
      · exact Part.lossChangedIfNew_keeps _ _ h

theorem Part.takeWithdraw_keeps {p0 p : Part} (station : Nat) (t : StripeId) (reason : WithdrawReason) (winner : Nat)
    (rebuilt : Positions) (h : p0.Keeps p) :
    p0.Keeps (p.takeWithdraw station t reason winner rebuilt) := by
  unfold Part.takeWithdraw
  split
  · exact h
  · split
    · split
      · exact Part.placementUpdate_keeps _ _ _ h
      · exact h
    · cases reason
      · exact Part.withdrawDone_keeps _ _ (Part.placementUpdate_keeps _ _ _ h)
      · dsimp only
        split
        · exact Part.dropFrame_keeps _ h
        · exact Part.withdrawYield_keeps _ _ _ h
      · exact Part.withdrawGivenUp_keeps _ _ h
      · exact Part.withdrawGivenUp_keeps _ _ h
      · exact Part.withdrawGivenUp_keeps _ _ h
      · exact Part.withdrawJudged_keeps _ _ h
      · exact Part.withdrawJudged_keeps _ _ h

theorem Part.expireHoldOff_keeps {p0 p : Part} (n : Nat) (h : p0.Keeps p) :
    p0.Keeps (p.expireHoldOff n) := by
  unfold Part.expireHoldOff
  split
  · exact h
  · rename_i e _
    split
    · rename_i due _
      exact Part.broadcastClaim_keeps _ _ _ ((Part.setClaim_keeps n
        { e with state := .owned ((p.reach due).now + (p.reach due).claimRepeat) } (Part.reach_keeps due h)).work
            (Eq.refl _) (Eq.refl _) (Eq.refl _) (Nat.le_refl _))
    · exact h

theorem Part.expireRepeat_keeps {p0 p : Part} (n : Nat) (h : p0.Keeps p) :
    p0.Keeps (p.expireRepeat n) := by
  unfold Part.expireRepeat
  split
  · exact h
  · split
    · exact Part.broadcastClaim_keeps _ _ _ (Part.setClaim_keeps _ _ (Part.reach_keeps _ h))
    · exact h

theorem Part.expireYield_keeps {p0 p : Part} (n : Nat) (h : p0.Keeps p) :
    p0.Keeps (p.expireYield n) := by
  unfold Part.expireYield
  split
  · exact h
  · split
    · exact Part.contend_keeps _ (Part.reach_keeps _ h)
    · exact h

theorem Part.expireSweep_keeps {p0 p : Part} (h : p0.Keeps p) :
    p0.Keeps p.expireSweep := by
  unfold Part.expireSweep
  split
  · exact h
  · exact (Part.requestSweep_keeps (Part.reach_keeps _ h)).work (Eq.refl _) (Eq.refl _) (Eq.refl _) (Nat.le_refl _)

/-! ## The fetch unit -/

theorem Part.takeReady_keeps {p0 p : Part} (n : Nat) (u : LaneUse) (length : Nat) (digest : Option Digest)
    (h : p0.Keeps p) :
    p0.Keeps (p.takeReady n u length digest) := by
  unfold Part.takeReady
  split
  · exact h
  · split
    · exact Part.failLane_keeps _ _ h
    · split
      · exact Part.failLane_keeps _ _ h
      · exact Part.testWindow_keeps _ (Part.setUse_keeps _ _ h)

theorem Part.takeWait_keeps {p0 p : Part} (n : Nat) (u : LaneUse) (hint : Nat) (busy : Bool) (h : p0.Keeps p) :
    p0.Keeps (p.takeWait n u hint busy) := by
  unfold Part.takeWait
  split
  · dsimp only
    split
    · exact Part.failLane_keeps _ _ (Part.setUse_keeps _ _ h)
    · exact Part.setUse_keeps _ _ h
  · exact h

theorem Part.takeRefuse_keeps {p0 p : Part} (n : Nat) (u : LaneUse) (reason : RefuseReason) (h : p0.Keeps p) :
    p0.Keeps (p.takeRefuse n u reason) := by
  unfold Part.takeRefuse
  split
  · split
    · exact Part.reOpen_keeps _ h
    · exact h
  · split
    · exact Part.failLane_keeps _ _ h
    · exact h

theorem Part.takeChunk_keeps {p0 p : Part} (n : Nat) (u : LaneUse) (chunk : Nat) (data : List Byte) (h : p0.Keeps p) :
    p0.Keeps (p.takeChunk n u chunk data) := by
  unfold Part.takeChunk
  split
  · dsimp only
    split
    · exact Part.laneCombine_keeps _ (Part.setUse_keeps _ _ h)
    · exact Part.setUse_keeps _ _ h
  · exact h

theorem Part.expireOpen_keeps {p0 p : Part} (n : Nat) (h : p0.Keeps p) :
    p0.Keeps (p.expireOpen n) := by
  unfold Part.expireOpen
  split
  · exact h
  · split
    · dsimp only
      split
      · exact Part.failLane_keeps _ _ (Part.reach_keeps _ h)
      · exact Part.postOpen_keeps _ _ (Part.setUse_keeps _ _ (Part.reach_keeps _ h))
    · exact h

theorem Part.expirePull_keeps {p0 p : Part} (n bank : Nat) (h : p0.Keeps p) :
    p0.Keeps (p.expirePull n bank) := by
  unfold Part.expirePull
  split
  · exact h
  · split
    · split
      · dsimp only
        split
        · exact Part.failLane_keeps _ _ (Part.reach_keeps _ h)
        · exact Part.postPull_keeps _ _ _ (Part.setUse_keeps _ _ (Part.reach_keeps _ h))
      · exact h
    · exact h

theorem Part.expireWait_keeps {p0 p : Part} (n : Nat) (h : p0.Keeps p) :
    p0.Keeps (p.expireWait n) := by
  unfold Part.expireWait
  split
  · exact h
  · split
    · exact Part.postOpen_keeps _ _ (Part.setUse_keeps _ _ (Part.reach_keeps _ h))
    · exact h

/-! ## The serve unit -/

theorem Part.replyRefuse_keeps {p0 p : Part} (station : Nat) (tag : Tag) (reason : RefuseReason) (h : p0.Keeps p) :
    p0.Keeps (p.replyRefuse station tag reason) :=
  Part.post_keeps (some station) (.refuse tag reason.code) h (Eq.refl _)

theorem Part.replyWait_keeps {p0 p : Part} (station : Nat) (tag : Tag) (hint : Byte) (busy : Bool) (h : p0.Keeps p) :
    p0.Keeps (p.replyWait station tag hint busy) :=
  Part.post_keeps (some station) (.wait tag hint (flagByteOf busy)) h (Eq.refl _)

theorem Part.replyReady_keeps {p0 p : Part} (station : Nat) (tag : Tag) (r : HoldingRecord) (h : p0.Keeps p) :
    p0.Keeps (p.replyReady station tag r) := by
  unfold Part.replyReady
  exact Part.post_keeps _ _ h (Eq.refl _)

theorem Part.touchOpener_keeps {p0 p : Part} (n station : Nat) (tag : Tag) (h : p0.Keeps p) :
    p0.Keeps (p.touchOpener n station tag) := by
  unfold Part.touchOpener
  split
  · exact h
  · exact Part.setServe_keeps _ _ h

theorem Part.removePairElsewhere_keeps {p0 p : Part} (kept : Option Nat) (station : Nat) (tag : Tag) (h : p0.Keeps p) :
    p0.Keeps (p.removePairElsewhere kept station tag) :=
  foldl_keeps (p0.Keeps ·) _ _ _ h fun _ _ hq => Part.removeOpeners_keeps _ _ hq

theorem Part.openAtEntry_keeps {p0 p : Part} (n : Nat) (e : ServeEntry) (r : HoldingRecord) (station : Nat) (tag :
    Tag) (h : p0.Keeps p) :
    p0.Keeps (p.openAtEntry n e r station tag) := by
  unfold Part.openAtEntry
  split
  · exact Part.replyRefuse_keeps _ _ _ (Part.removeOpeners_keeps _ _ h)
  · split
    · exact Part.replyReady_keeps _ _ _ (Part.touchOpener_keeps _ _ _ h)
    · split
      · exact Part.replyWait_keeps _ _ _ _ h
      · exact Part.replyReady_keeps _ _ _ (Part.touchServe_keeps _ (Part.addOpener_keeps _ _ h))
  · split
    · exact Part.replyWait_keeps _ _ _ _ (Part.touchOpener_keeps _ _ _ h)
    · split
      · exact Part.replyWait_keeps _ _ _ _ h
      · exact Part.replyWait_keeps _ _ _ _ (Part.addOpener_keeps _ _ h)

theorem Part.openNewEntry_keeps {p0 p : Part} (t : StripeId) (position : Nat) (r : HoldingRecord) (station : Nat)
    (tag : Tag) (h : p0.Keeps p) :
    p0.Keeps (p.openNewEntry t position r station tag) := by
  unfold Part.openNewEntry
  split
  · rename_i hn; exact Part.replyWait_keeps _ _ _ _ (Part.addOpener_keeps _ _ (Part.newServe?_keeps h hn))
  · exact Part.replyWait_keeps _ _ _ _ h

theorem Part.takeOpen_keeps {p0 p : Part} (station : Nat) (t : StripeId) (position : Nat) (tag : Tag) (h : p0.Keeps p) :
    p0.Keeps (p.takeOpen station t position tag) := by
  unfold Part.takeOpen
  split
  · exact Part.replyRefuse_keeps _ _ _ h
  · split
    · exact Part.replyRefuse_keeps _ _ _ h
    · have h1 := Part.removePairElsewhere_keeps ((p.serveOf? t position).map Prod.fst) station tag h
      dsimp only
      split
      · exact Part.openAtEntry_keeps _ _ _ _ _ h1
      · exact Part.openNewEntry_keeps _ _ _ _ _ h1

theorem Part.placeChunk_keeps {p0 p : Part} (f : ChunkFrame) (h : p0.Keeps p) :
    p0.Keeps (p.placeChunk f) := by
  unfold Part.placeChunk
  split
  · rename_i hl
    refine h.trans ⟨Eq.refl _, Eq.refl _, Eq.refl _, fun hp => ⟨hp.1, ?_⟩⟩
    obtain ⟨h2, h3, h4, h5, h6, h7, h8⟩ := hp.2
    refine ⟨h2, h3, ?_, h5, h6, h7, h8⟩
    simp only [List.length_append, List.length_cons, List.length_nil]
    omega
  · exact h.work (Eq.refl _) (Eq.refl _) (Eq.refl _) (Nat.le_refl _)

theorem Part.answerPull_keeps {p0 p : Part} (n : Nat) (e : ServeEntry) (station : Nat) (tag : Tag) (chunk : Nat)
    (h : p0.Keeps p) :
    p0.Keeps (p.answerPull n e station tag chunk) := by
  unfold Part.answerPull
  split
  · exact h
  · exact Part.placeChunk_keeps _ (Part.editSlot_keeps _ _ (Part.touchServe_keeps _ (Part.touchOpener_keeps _ _ _ h)))

theorem Part.takePull_keeps {p0 p : Part} (station : Nat) (tag : Tag) (chunk : Nat) (h : p0.Keeps p) :
    p0.Keeps (p.takePull station tag chunk) := by
  unfold Part.takePull
  split
  · exact Part.replyRefuse_keeps _ _ _ h
  · split
    · exact Part.replyRefuse_keeps _ _ _ h
    · split
      · exact h
      · exact Part.replyRefuse_keeps _ _ _ (Part.removeOpeners_keeps _ _ h)
      · split
        · exact Part.replyRefuse_keeps _ _ _ h
        · exact Part.answerPull_keeps _ _ _ _ _ h

theorem Part.queueHeldChunk_keeps {p0 p : Part} (h : p0.Keeps p) :
    p0.Keeps p.queueHeldChunk := by
  unfold Part.queueHeldChunk
  split
  · exact h
  · split
    · rename_i hl
      refine h.trans ⟨Eq.refl _, Eq.refl _, Eq.refl _, fun hp => ⟨hp.1, ?_⟩⟩
      obtain ⟨h2, h3, h4, h5, h6, h7, h8⟩ := hp.2
      refine ⟨h2, h3, ?_, h5, h6, h7, h8⟩
      simp only [List.length_append, List.length_cons, List.length_nil]
      omega
    · exact h

theorem Part.expireOpener_keeps {p0 p : Part} (n station : Nat) (tag : Tag) (h : p0.Keeps p) :
    p0.Keeps (p.expireOpener n station tag) := by
  unfold Part.expireOpener
  split
  · exact h
  · exact Part.removeOpeners_keeps _ _ (Part.reach_keeps _ h)

/-! ## The segment port's own steps -/

theorem Part.dropIfBad_keeps {p0 p : Part} (f : WireFrame) (h : p0.Keeps p) :
    p0.Keeps (p.dropIfBad f) := by
  unfold Part.dropIfBad
  split
  · split
    · exact Part.dropFrame_keeps _ h
    · exact h
  · exact h

theorem Part.markOpenSent_keeps {p0 p : Part} (n : Nat) (h : p0.Keeps p) :
    p0.Keeps (p.markOpenSent n) :=
  Part.editLane_keeps _ _ h

theorem Part.tellProducer_keeps {p0 p : Part} (body : FrameBody) (h : p0.Keeps p) :
    p0.Keeps (p.tellProducer body) := by
  unfold Part.tellProducer
  split
  · split
    · exact Part.startOpenTimeout_keeps _ (Part.markOpenSent_keeps _ h)
    · exact h
  · split
    · exact Part.startPullTimeout_keeps _ _ h
    · exact h
  · exact h

theorem Part.transmitChunk_keeps {p0 p : Part} (f : ChunkFrame) (h : p0.Keeps p) :
    p0.Keeps (p.transmitChunk f) :=
  Part.settleSlot_keeps _ (Part.editSlot_keeps _ _ (Part.transmit_keeps _ _ _ h))

theorem Part.transmitHead_keeps {p0 p : Part} (h : p0.Keeps p) :
    p0.Keeps p.transmitHead := by
  unfold Part.transmitHead
  cases hc : p.sgp.control with
  | cons f rest =>
    refine Part.tellProducer_keeps _ (Part.transmit_keeps _ _ _ (h.port _ ?_ ?_ (Nat.le_refl _) (Nat.le_refl _) id))
    · rw [hc]; simp only [List.filter_cons]; split <;> simp
    · rw [hc]; simp only [List.filter_cons]; split <;> simp
  | nil =>
    cases hd : p.sgp.data with
    | cons f rest =>
      refine Part.transmitChunk_keeps _ (h.port _ ?_ ?_ ?_ (Nat.le_refl _) id)
      · rw [hc]
      · rw [hc]
      · rw [hd]; simp
    | nil => exact h

/-! ## The context array's steps -/

theorem Part.admit_keeps {p0 p : Part} (c : Nat) (e : ClaimEntry) (r : HoldingRecord) (lanes slots : List Nat)
    (h : p0.Keeps p) :
    p0.Keeps (p.admitCandidate c e r lanes slots) :=
  foldl_keeps (p0.Keeps ·) _ _ _ (Part.reserveLanes_keeps _ _ (Part.setContext_keeps _ _ (Part.bumpGeneration_keeps _
      h)))
    fun _ _ hq => Part.giveSlot_keeps _ _ hq

theorem Part.tryAdmit_keeps {p0 p : Part} (h : p0.Keeps p) :
    p0.Keeps p.tryAdmit := by
  unfold Part.tryAdmit
  split
  · exact h
  · split
    · exact h
    · split
      · split
        · exact h
        · split
          · exact h
          · rename_i hg; exact Part.admit_keeps _ _ _ _ _ (Part.grantSlots?_keeps h hg)
      · exact h

theorem Part.giveLacking_keeps {p0 p : Part} (c : Nat) (x : Context) (slots : List Nat) (h : p0.Keeps p) :
    p0.Keeps (p.giveLacking c x slots) :=
  Part.tryGather_keeps _ (foldl_keeps (p0.Keeps ·) _ _ _ (Part.editContext_keeps _ _ (Part.reserveLanes_keeps _ _ h))
    fun _ _ hq => Part.giveSlot_keeps _ _ hq)

theorem Part.serveContext_keeps {p0 p : Part} (c : Nat) (h : p0.Keeps p) :
    p0.Keeps (p.serveContext c) := by
  unfold Part.serveContext
  split
  · exact h
  · split
    · split
      · exact Part.giveLacking_keeps _ _ _ h
      · split
        · exact h
        · rename_i hg; exact Part.giveLacking_keeps _ _ _ (Part.grantSlots?_keeps h hg)
    · exact h

theorem Part.startFill_keeps {p0 p : Part} (h : p0.Keeps p) :
    p0.Keeps p.startFill := by
  unfold Part.startFill
  split
  · split
    · exact h
    · exact h.work (Eq.refl _) (Eq.refl _) (Eq.refl _) (Nat.le_refl _)
  · exact h

theorem Part.takeFillDone_keeps {p0 p : Part} (f : FillRequest) (h : p0.Keeps p) :
    p0.Keeps (p.takeFillDone f) := by
  unfold Part.takeFillDone
  split
  · exact h
  · split
    · exact Part.advance_keeps _ (Part.editContext_keeps _ _ h)
    · exact h

theorem Part.endFill_keeps {p0 p : Part} (h : p0.Keeps p) :
    p0.Keeps p.endFill := by
  unfold Part.endFill
  split
  · exact h
  · exact Part.takeFillDone_keeps _ (Part.settleSlot_keeps _ (h.trans ⟨Eq.refl _, Eq.refl _, Eq.refl _,
      fun hp => ⟨Dram.zeroBlock_wf _ hp.1, hp.2⟩⟩))

theorem Part.planShort_keeps {p0 p : Part} (c : Nat) (x : Context) (h : p0.Keeps p) :
    p0.Keeps (p.planShort c x) := by
  unfold Part.planShort
  split
  · exact Part.editContext_keeps _ _ h
  · exact Part.editContext_keeps _ _ h
  · exact Part.abandon_keeps _ _ h

theorem Part.startPlan_keeps {p0 p : Part} (c : Nat) (h : p0.Keeps p) :
    p0.Keeps (p.startPlan c) := by
  unfold Part.startPlan
  split
  · exact h
  · split
    · exact h
    · split
      · split
        · exact h.work (Eq.refl _) (Eq.refl _) (Eq.refl _) (Nat.le_refl _)
        · exact Part.planShort_keeps _ _ h
        · exact Part.abandon_keeps _ _ h
      · exact h

theorem Part.returnSurplus_keeps {p0 p : Part} (c : Nat) (needed : Nat) (h : p0.Keeps p) :
    p0.Keeps (p.returnSurplus c needed) := by
  unfold Part.returnSurplus
  split
  · exact h
  · exact Part.editContext_keeps _ _ (Part.freeLanes_keeps _ h)

theorem Part.takePlan_keeps {p0 p : Part} (j : PlanJob) (h : p0.Keeps p) :
    p0.Keeps (p.takePlan j) := by
  unfold Part.takePlan
  dsimp only
  split
  · exact Part.rePlan_keeps _ _ (Part.editContext_keeps _ _ h)
  · exact Part.tryGather_keeps _ (Part.serveContext_keeps _ (Part.returnSurplus_keeps _ _ (Part.editContext_keeps _ _
      (Part.editContext_keeps _ _ h))))

theorem Part.endPlan_keeps {p0 p : Part} (h : p0.Keeps p) :
    p0.Keeps p.endPlan := by
  unfold Part.endPlan
  split
  · exact h
  · rename_i j _
    have h1 : p0.Keeps { p with plu := { p.plu with job := none } } := h.work (Eq.refl _) (Eq.refl _) (Eq.refl _)
        (Nat.le_refl _)
    dsimp only
    split
    · exact h1
    · split
      · exact Part.takePlan_keeps _ h1
      · exact h1

theorem Part.expirePlanWait_keeps {p0 p : Part} (c : Nat) (h : p0.Keeps p) :
    p0.Keeps (p.expirePlanWait c) := by
  unfold Part.expirePlanWait
  split
  · exact h
  · split
    · split
      · exact h
      · split
        · exact Part.abandon_keeps _ _ (Part.reach_keeps _ h)
        · exact Part.editContext_keeps _ _ (Part.reach_keeps _ h)
        · exact h
    · exact h

theorem Part.takeVerify_keeps {p0 p : Part} (j : VerifyJob) (x : Context) (h : p0.Keeps p) :
    p0.Keeps (p.takeVerify j x) := by
  unfold Part.takeVerify
  dsimp only
  split
  · exact Part.editContext_keeps _ _ (Part.editContext_keeps _ _ h)
  · exact Part.decideReported_keeps _ _ (Part.editContext_keeps _ _ h)

theorem Part.endVerify_keeps {p0 p : Part} (h : p0.Keeps p) :
    p0.Keeps p.endVerify := by
  unfold Part.endVerify
  split
  · exact h
  · rename_i j _
    have h0 : p0.Keeps { p with vfu := { p.vfu with job := none } } := h.work (Eq.refl _) (Eq.refl _) (Eq.refl _)
        (Nat.le_refl _)
    have h1 := foldl_keeps (p0.Keeps ·) Part.settleSlot j.slots _ h0 fun _ _ hq => Part.settleSlot_keeps _ hq
    dsimp only
    split
    · exact h1
    · split
      · exact Part.takeVerify_keeps _ _ h1
      · exact h1

theorem Part.postStoreRequest_keeps {p0 p : Part} (c : Nat) (x : Context) (e : LostEntry) (slot : Nat)
    (h : p0.Keeps p) :
    p0.Keeps (p.postStoreRequest c x e slot) :=
  Part.postReport_keeps _ (Part.editSlot_keeps _ _ (Part.editContext_keeps _ _ (Part.takeTag_keeps _ h)))

/-! ## The combine engine -/

theorem Part.lowerWarning_keeps {p0 p : Part} (h : p0.Keeps p) :
    p0.Keeps p.lowerWarning := by
  unfold Part.lowerWarning
  split
  · exact Part.testAllWindows_keeps (h.work (Eq.refl _) (Eq.refl _) (Eq.refl _) (Nat.le_refl _))
  · exact h

theorem Part.consumeChunk_keeps {p0 p : Part} (n : Nat) (u : LaneUse) (chunk : Nat) (h : p0.Keeps p) :
    p0.Keeps (p.consumeChunk n u chunk) := by
  unfold Part.consumeChunk
  dsimp only
  split
  · exact Part.endFragment_keeps _ (Part.setUse_keeps _ _ h)
  · split
    · exact Part.testWindow_keeps _ (Part.laneCombine_keeps _ (Part.setUse_keeps _ _ h))
    · exact Part.laneCombine_keeps _ (Part.setUse_keeps _ _ h)

theorem Part.completeAtLane_keeps {p0 p : Part} (n : Nat) (tag : Tag) (chunk : Nat) (h : p0.Keeps p) :
    p0.Keeps (p.completeAtLane n tag chunk) := by
  have h1 := Part.editLane_keeps n (fun l => { l with outstanding := false }) h
  unfold Part.completeAtLane
  dsimp only
  split
  · exact h1
  · split
    · exact Part.laneCombine_keeps _ h1
    · split
      · exact Part.consumeChunk_keeps _ _ _ h1
      · exact h1

theorem Part.endOpener_keeps {p0 p : Part} (n : Nat) (i : InternalOpener) (h : p0.Keeps p) :
    p0.Keeps (p.endOpener n i) := by
  unfold Part.endOpener
  split
  · exact h
  · split
    · split
      · exact Part.failOpener_keeps _ _ h
      · exact Part.checkGathered_keeps _ (Part.setOpener_keeps _ _ h)
    · exact Part.checkGathered_keeps _ (Part.setOpener_keeps _ _ h)

theorem Part.completeAtServe_keeps {p0 p : Part} (c : Nat) (generation : BitVec 8) (h : p0.Keeps p) :
    p0.Keeps (p.completeAtServe c generation) := by
  have h1 : p0.Keeps { p with svu := { p.svu with combineMarks := p.svu.combineMarks.filter (· != c) } } := h.work
      (Eq.refl _) (Eq.refl _) (Eq.refl _) (Nat.le_refl _)
  unfold Part.completeAtServe
  dsimp only
  split
  · exact h1
  · split
    · split
      · exact Part.endOpener_keeps _ _ (Part.touchServe_keeps _ (Part.setOpener_keeps _ _ h1))
      · exact Part.feed_keeps _ (Part.touchServe_keeps _ (Part.setOpener_keeps _ _ h1))
    · exact Part.feed_keeps _ h1

theorem Part.completeCombine_keeps {p0 p : Part} (r : CombineRequest) (h : p0.Keeps p) :
    p0.Keeps (p.completeCombine r) := by
  unfold Part.completeCombine
  dsimp only
  split
  · exact Part.completeAtLane_keeps _ _ _ (Part.lowerWarning_keeps h)
  · exact Part.completeAtServe_keeps _ _ (Part.lowerWarning_keeps h)

theorem Part.startCombine_keeps {p0 p : Part} (h : p0.Keeps p) :
    p0.Keeps p.startCombine := by
  unfold Part.startCombine
  split
  · rename_i rest _ _
    have h1 : p0.Keeps { p with cbe := { p.cbe with queue := rest } } := h.work (Eq.refl _) (Eq.refl _) (Eq.refl _)
        (Nat.le_refl _)
    dsimp only
    split
    · exact h.work (Eq.refl _) (Eq.refl _) (Eq.refl _) (Nat.le_refl _)
    · exact Part.completeCombine_keeps _ h1
  · exact h

theorem Part.advanceDigest_keeps {p0 p : Part} (r : CombineRequest) (operand : List Byte) (h : p0.Keeps p) :
    p0.Keeps (p.advanceDigest r operand) := by
  unfold Part.advanceDigest
  split
  · split
    · split
      · exact Part.setUse_keeps _ _ h
      · exact h
    · exact h
  · split
    · split
      · exact Part.setOpener_keeps _ _ h
      · exact h
    · exact h

theorem Part.recordContribution_keeps {p0 p : Part} (o : CombineOperation) (h : p0.Keeps p) :
    p0.Keeps (p.recordContribution o) := by
  unfold Part.recordContribution
  split
  · exact h
  · exact Part.advanceDigest_keeps _ _ (Part.editContext_keeps _ _ h)

theorem Part.endCombine_keeps {p0 p : Part} (h : p0.Keeps p) :
    p0.Keeps p.endCombine := by
  unfold Part.endCombine
  split
  · exact h
  · rename_i o _
    have h0 : p0.Keeps { p.setDram (p.smc.dram.combineAll o) with cbe := { p.cbe with operation := none } } :=
      (h.dram _ fun hd => Dram.combineAll_wf o hd).work (Eq.refl _) (Eq.refl _) (Eq.refl _) (Nat.le_refl _)
    have h1 := foldl_keeps (p0.Keeps ·) Part.settleSlot (o.targets.map Prod.fst) _ h0
      fun _ _ hq => Part.settleSlot_keeps _ hq
    exact Part.completeCombine_keeps _ (Part.recordContribution_keeps _ h1)

/-! ## Host commands -/

theorem Part.addDownRacksOf_keeps {p0 p : Part} (placement : List Nat) (h : p0.Keeps p) :
    p0.Keeps (p.addDownRacksOf placement) :=
  foldl_keeps (p0.Keeps ·) _ _ _ h fun _ _ hq => Part.addPending_keeps _ _ hq

theorem Part.insertLoaded_keeps {p0 p q : Part} {l : LoadRecord} {n : Nat} (h : p0.Keeps p)
    (hq : p.insertLoaded l n = some q) : p0.Keeps q := by
  unfold Part.insertLoaded at hq
  dsimp only at hq
  obtain ⟨r, hr, rfl⟩ := Option.map_eq_some_iff.1 hq
  apply Part.addDownRacksOf_keeps
  split at hr
  · exact Part.insertRecord?_keeps h hr
  · obtain ⟨r', hr', rfl⟩ := Option.map_eq_some_iff.1 hr
    have h1 := Part.insertRecord?_keeps h hr'
    split
    · exact h1
    · split
      · exact Part.setPlacement_keeps _ _ _ h1
      · exact Part.evaluateOrSweep_keeps _ (Part.setPlacement_keeps _ _ _ h1)

theorem Part.loadRecord_keeps {p0 p q : Part} {l : LoadRecord} (h : p0.Keeps p) (hq : p.loadRecord l = .ok q) :
    p0.Keeps q := by
  unfold Part.loadRecord at hq
  split at hq
  · cases hq
  · split at hq
    · cases hq
    · split at hq
      · cases hq
      · split at hq
        · cases hq
        · split at hq
          · cases hq
          · rename_i hi; cases hq; exact Part.insertLoaded_keeps h hi

theorem Part.dropStripeServed_keeps {p0 p : Part} (t : StripeId) (h : p0.Keeps p) :
    p0.Keeps (p.dropStripeServed t) :=
  foldl_keeps (p0.Keeps ·) _ _ _ h fun _ _ hq => Part.dropServed_keeps _ _ hq

theorem Part.dropClaim_keeps {p0 p : Part} (t : StripeId) (h : p0.Keeps p) :
    p0.Keeps (p.dropClaim t) := by
  unfold Part.dropClaim
  split
  · exact h
  · exact Part.removeClaim_keeps _ (Part.withdrawIf_keeps _ _ _ h)

theorem Part.dropRecord_keeps {p0 p q : Part} {t : StripeId} {index : Nat} (h : p0.Keeps p)
    (hq : p.dropRecord t index = .ok q) : p0.Keeps q := by
  unfold Part.dropRecord at hq
  split at hq
  · cases hq
  · rename_i position _ _
    have h1 := Part.clearRecord_keeps position h
    dsimp only at hq
    split at hq
    · cases hq; exact Part.dropServed_keeps _ _ (Part.dropAtCursor_keeps _ h1)
    · cases hq
      exact Part.dropStripeServed_keeps _ (Part.dropClaim_keeps _ (Part.endContextOf_keeps _ (Part.dropAtCursor_keeps _
        (Part.unqueue_keeps _ h1))))

theorem Part.answerStage_keeps {p0 p q : Part} {tag : Tag} {ok : Bool} (h : p0.Keeps p)
    (hq : p.answerStage tag ok = .ok q) : p0.Keeps q := by
  have h1 := Part.endTag_keeps tag h
  unfold Part.answerStage at hq
  split at hq
  · split at hq
    · cases hq
    · dsimp only at hq
      split at hq
      · cases hq
        exact foldl_keeps (p0.Keeps ·) _ _ _ (Part.setServe_keeps _ _ h1) fun _ _ hq => Part.feed_keeps _ hq
      · cases hq; exact Part.failServe_keeps _ _ h1
  · cases hq

theorem Part.autoInsert_keeps {p0 p : Part} (x : Context) (position : Nat) (digest : Option Digest) (h : p0.Keeps p) :
    p0.Keeps (p.autoInsert x position digest) := by
  unfold Part.autoInsert
  split
  · exact h
  · split
    · exact h
    · split
      · rename_i hi; exact Part.insertRecord?_keeps h hi
      · exact Part.postReport_keeps _ h

theorem Part.checkDelivered_keeps {p0 p : Part} (c : Nat) (h : p0.Keeps p) :
    p0.Keeps (p.checkDelivered c) := by
  unfold Part.checkDelivered
  split
  · exact h
  · split
    · split
      · exact Part.completeDone_keeps _ h
      · exact Part.abandon_keeps _ _ h
    · exact h

theorem Part.setDelivery_keeps {p0 p : Part} (c position : Nat) (d : Delivery) (h : p0.Keeps p) :
    p0.Keeps (p.setDelivery c position d) :=
  Part.editContext_keeps _ _ h

theorem Part.answerStore_keeps {p0 p q : Part} {tag : Tag} {ok : Bool} (h : p0.Keeps p)
    (hq : p.answerStore tag ok = .ok q) : p0.Keeps q := by
  have h1 := Part.endTag_keeps tag h
  unfold Part.answerStore at hq
  split at hq
  · split at hq
    · cases hq
    · dsimp only at hq
      split at hq
      · cases hq
        exact Part.checkDelivered_keeps _ (Part.autoInsert_keeps _ _ _ (Part.setPlacement_keeps _ _ _
          (Part.setDelivery_keeps _ _ _ h1)))
      · cases hq; exact Part.checkDelivered_keeps _ (Part.setDelivery_keeps _ _ _ h1)
  · cases hq

theorem Part.releaseRack_keeps {p0 p : Part} (rack : Nat) (h : p0.Keeps p) :
    p0.Keeps (p.releaseRack rack) :=
  Part.releaseTrigger_keeps _ (h.work (Eq.refl _) (Eq.refl _) (Eq.refl _) (Nat.le_refl _))

theorem Part.requeueStripe_keeps {p0 p q : Part} {t : StripeId} (h : p0.Keeps p) (hq : p.requeueStripe t = .ok q) :
    p0.Keeps q := by
  unfold Part.requeueStripe at hq
  split at hq
  · cases hq
  · split at hq
    · split at hq
      · rename_i he; cases hq; exact Part.evaluate?_keeps h he
      · cases hq
    · cases hq

/-- A command taken from the ring keeps what its effect keeps. -/
theorem Part.takeCommand_keeps {p0 p : Part} {body : Part → Except RefusalCode Part} (h : p0.Keeps p)
    (hb : ∀ q, body p = .ok q → p0.Keeps q) : p0.Keeps (p.takeCommand body) := by
  unfold Part.takeCommand
  split
  · cases hq : body p with
    | ok q => exact (hb q hq).work (Eq.refl _) (Eq.refl _) (Eq.refl _) (Nat.le_refl _)
    | error code => exact (Part.postReport_keeps _ h).work (Eq.refl _) (Eq.refl _) (Eq.refl _) (Nat.le_refl _)
  · exact h

theorem Part.whileRunning_keeps {p0 p q : Part} {body : Part → Except RefusalCode Part}
    (hb : ∀ q, body p = .ok q → p0.Keeps q) (hq : p.whileRunning body = .ok q) : p0.Keeps q := by
  unfold Part.whileRunning at hq
  split at hq
  · exact hb q hq
  · cases hq

/-! ## The host's accesses -/

theorem Part.writePostIndex_keeps {p0 p : Part} (value : BitVec 32) (h : p0.Keeps p) :
    p0.Keeps (p.writePostIndex value) := by
  unfold Part.writePostIndex
  split
  · exact h.work (Eq.refl _) (Eq.refl _) (Eq.refl _) (Nat.le_refl _)
  · exact h

theorem Part.writeReportConsume_keeps {p0 p : Part} (value : BitVec 32) (h : p0.Keeps p) :
    p0.Keeps (p.writeReportConsume value) := by
  unfold Part.writeReportConsume
  split
  · exact Part.drainReports_keeps (h.work (Eq.refl _) (Eq.refl _) (Eq.refl _) (Nat.le_refl _))
  · exact h

theorem Part.setRingRegister_keeps {p0 p : Part} (register : RingRegister) (value : BitVec 64) (h : p0.Keeps p) :
    p0.Keeps (p.setRingRegister register value) := by
  cases register
  · exact h.work (Eq.refl _) (Eq.refl _) (Eq.refl _) (Nat.le_refl _)
  · exact h.work (Eq.refl _) (Eq.refl _) (Eq.refl _) (Nat.le_refl _)
  · exact Part.drainReports_keeps (h.work (Eq.refl _) (Eq.refl _) (Eq.refl _) (Nat.le_refl _))
  · exact Part.drainReports_keeps (h.work (Eq.refl _) (Eq.refl _) (Eq.refl _) (Nat.le_refl _))
  · exact h.work (Eq.refl _) (Eq.refl _) (Eq.refl _) (Nat.le_refl _)

theorem Part.readWindow_keeps {p0 p : Part} (offset length : Nat) (h : p0.Keeps p) :
    p0.Keeps (p.readWindow offset length) := by
  unfold Part.readWindow
  split
  · exact h.work (Eq.refl _) (Eq.refl _) (Eq.refl _) (Nat.le_refl _)
  · exact Part.setFlag_keeps _ (h.work (Eq.refl _) (Eq.refl _) (Eq.refl _) (Nat.le_refl _))

theorem Part.writeWindow_keeps {p0 p : Part} (offset : Nat) (data : List Byte) (h : p0.Keeps p) :
    p0.Keeps (p.writeWindow offset data) := by
  unfold Part.writeWindow
  split
  · exact h.dram _ fun hd => Dram.write_wf _ _ hd
  · exact Part.setFlag_keeps _ h

theorem Part.rewriteStatus_keeps {p0 p : Part} (h : p0.Keeps p) :
    p0.Keeps p.rewriteStatus := by
  unfold Part.rewriteStatus
  split
  · exact (Part.writeHost_keeps _ _ h).work (Eq.refl _) (Eq.refl _) (Eq.refl _) (Nat.le_refl _)
  · exact h

theorem Part.markStatus_keeps {p0 p q : Part} (h : p0.Keeps q) : p0.Keeps (p.markStatus q) := by
  unfold Part.markStatus
  split
  · exact h
  · exact h.work (Eq.refl _) (Eq.refl _) (Eq.refl _) (Nat.le_refl _)

end Sys2Proof.Machine
end

