-- ==== Sys2Proof/Laws/Lanes.lean ====
section
/-! SUPPORT. The lanes: what posting a frame and writing a lane's use leave, which lane takes a frame, and what a test of the
window sends (R106, R112, R156, R158). -/

namespace Sys2Proof.Machine

/-! ## Posting with room (R158, R159) -/

theorem Part.serveHeld_of_noneHeld (p : Part) (h : p.sgp.hold = []) : p.serveHeld = p := by
  unfold Part.serveHeld
  obtain ⟨⟩ := p
  rename_i sgp
  obtain ⟨⟩ := sgp
  simp only at h
  subst h
  simp

/-- A frame that is neither a CLAIM nor a WITHDRAW joins an open control queue at its tail. -/
theorem Part.post_open (p : Part) (target : Option Nat) (b : FrameBody) (h : p.queueOpen)
    (hb : b.contestStripe? = none) : p.post target b = p.queued target b := by
  unfold Part.post Part.queued
  simp only [hb, Part.enqueueControl, p.serveHeld_of_noneHeld h.1]
  rw [if_pos]
  simp [h.1, h.2]

theorem Part.takesControl_open (p : Part) (h : p.queueOpen) : p.takesControl = true := by
  simp [Part.takesControl, p.serveHeld_of_noneHeld h.1, h.1, holdPlaces]

theorem Part.queueOpen_of_roomFor (p : Part) {n : Nat} (hn : 1 ≤ n) (h : p.roomFor n) : p.queueOpen :=
  ⟨h.1, decide_eq_true (by have := h.2; unfold controlPlaces; omega)⟩

/-! ## The use of a lane -/

theorem Part.lane_setUse (p : Part) (n : Nat) (u v : LaneUse) (h : p.laneUse? n = some v) :
    (p.setUse n u).lane n = { p.lane n with use := some u } := by
  unfold Part.laneUse? Part.lane at h
  unfold Part.lane Part.setUse Part.editLane
  simp only [Table.row?_editRow, if_true]
  cases hr : p.ftu.row? n with
  | none => rw [hr] at h; simp [Lane.reset] at h
  | some l => simp

theorem Part.laneUse?_setUse (p : Part) (n : Nat) (u v : LaneUse) (h : p.laneUse? n = some v) :
    (p.setUse n u).laneUse? n = some u := by
  unfold Part.laneUse?
  rw [p.lane_setUse n u v h]

/-! ## The window (R112) -/

theorem LaneUse.mayPull_iff (u : LaneUse) (width : Nat) (h : u.state = .streaming) :
    u.mayPull width = true ↔ u.windowOpen width := by
  unfold LaneUse.mayPull LaneUse.windowOpen
  simp [h, and_assoc]

/-- What sendPull writes into the lane is the lane after a PULL. -/
theorem LaneUse.pulled_eq (u : LaneUse) :
    { u.setBank u.nextRequest (.requested u.nextRequest 1 none) with
      nextRequest := (u.setBank u.nextRequest (.requested u.nextRequest 1 none)).pastFull (u.nextRequest + 1) }
      = u.pulled := by
  have other : (u.setBank u.nextRequest (.requested u.nextRequest 1 none)).bankOf (u.nextRequest + 1)
      = u.bankOf (u.nextRequest + 1) := by
    unfold LaneUse.setBank LaneUse.bankOf
    rcases Nat.mod_two_eq_zero_or_one u.nextRequest with h | h <;> simp [h, Nat.add_mod]
  simp [LaneUse.pulled, LaneUse.pastFull, other]

@[simp] theorem LaneUse.pulled_state (u : LaneUse) : u.pulled.state = u.state := by
  unfold LaneUse.pulled LaneUse.setBank
  split <;> rfl

theorem Part.sendPull_closed (p : Part) (n : Nat) (u : LaneUse) (h : p.laneUse? n = some u) (hs : u.state = .streaming)
    (hc : ¬ u.windowOpen p.windowWidth) : p.sendPull n = p := by
  unfold Part.sendPull
  simp only [h]
  exact if_neg fun ho => hc ((u.mayPull_iff _ hs).1 ho)

theorem Part.sendPull_open (p : Part) (n : Nat) (u : LaneUse) (h : p.laneUse? n = some u) (hs : u.state = .streaming)
    (ho : u.windowOpen p.windowWidth) (hr : p.queueOpen) : p.sendPull n = p.pullSent n u := by
  have hq : (p.setUse n u.pulled).queueOpen := hr
  unfold Part.sendPull
  simp only [h]
  rw [if_pos ((u.mayPull_iff _ hs).2 ho), u.pulled_eq]
  unfold Part.postPull Part.pullSent
  simp only [Part.takesControl_open _ hq, if_true]
  rw [Part.post_open _ _ _ hq rfl]
  unfold Part.laneTag
  rw [p.lane_setUse n _ u h]

/-- A test of the window sends no PULL, one or two, as the window allows. -/
theorem Part.testWindow_tested (p : Part) (n : Nat) (u : LaneUse) (h : p.laneUse? n = some u)
    (hs : u.state = .streaming) (ends : Part → Prop) (he : ends (p.testWindow n)) :
    p.windowTested n u (if p.cbe.warning = true then 1 else 2) ends := by
  have use : (p.pullSent n u).laneUse? n = some u.pulled := p.laneUse?_setUse n _ u h
  have state := u.pulled_state.trans hs
  refine ⟨fun hc => ?_, fun ho hc hr => ?_, fun ho ho' hr => ?_⟩
  · have e := p.sendPull_closed n u h hs hc
    rwa [Part.testWindow, e, e] at he
  · have e := p.sendPull_open n u h hs ho (p.queueOpen_of_roomFor (Nat.le_refl 1) hr)
    rwa [Part.testWindow, e, Part.sendPull_closed _ n _ use state hc] at he
  · have e := p.sendPull_open n u h hs ho (p.queueOpen_of_roomFor (by omega) hr)
    have room : (p.pullSent n u).roomFor 1 := by
      refine ⟨hr.1, ?_⟩
      change (List.filter _ (p.sgp.control ++ [_])).length + 1 ≤ 63
      rw [List.filter_append, List.length_append]
      exact hr.2
    rwa [Part.testWindow, e, Part.sendPull_open _ n _ use state ho'
      (Part.queueOpen_of_roomFor _ (Nat.le_refl 1) room)] at he

/-! ## Frames of the fetch exchange (R106, R156) -/

/-- A frame to this station that passes the receive checks reaches its owner. -/
theorem Part.receive_fromPeer (p : Part) (h : FrameHeader) (b : FrameBody) (owner : Part → Part) (hp : p.fromPeer h)
    (hb : broadcastKind b.code = false) (hl : b.lengthOk = true) (hv : b.valid = true) :
    p.receive h b owner = owner p := by
  obtain ⟨segment, taken, sender, hearable, epoch, target⟩ := hp
  have member : (p.peer? h.sender.toNat).isNone = false := by
    cases hq : p.peer? h.sender.toNat with
    | none => rw [hq] at epoch; simp at epoch
    | some _ => rfl
  simp [Part.receive, segment, taken, Part.receiveCheck, Part.headerCheck, sender, member, hb, target, hl, hearable, epoch,
    hv]

theorem Part.laneFor?_of_laneUsed (p : Part) (h : FrameHeader) (tag : Tag) (n : Nat) (u : LaneUse)
    (hu : p.laneUsed h tag n u) : p.laneFor? h.sender.toNat tag = some (n, u) := by
  obtain ⟨rfl, -, use, current, server⟩ := hu
  simp [Part.laneFor?, use, Part.laneTag, current, server]

theorem Part.laneFor?_of_noLaneFor (p : Part) (h : FrameHeader) (tag : Tag) (hn : p.noLaneFor h tag) :
    p.laneFor? h.sender.toNat tag = none := by
  unfold Part.laneFor?
  cases use : p.laneUse? (laneOfTag tag) with
  | none => simp [use]
  | some u =>
    simp only [use]
    exact if_neg fun ⟨current, server⟩ => hn.2 u use current server

end Sys2Proof.Machine
end

