-- ==== Sys2Proof/Laws/Roster.lean ====
section
/-! SUPPORT. What the roster's operations keep: the shape of the roster and the rack law, which one record's change may
disturb and the whole transition restores, and the laws of the memory and of the queues. -/

namespace Sys2Proof.Machine

/-! ## The laws together -/

/-- The memory law and the queue law. -/
def Part.roomLaws (p : Part) : Prop := p.memoryLaw ∧ p.queueLaw

/-- The roster's shape and the rack law. -/
def Part.rosterLaws (p : Part) : Prop := p.rosterShape ∧ p.rackLaw

theorem Part.Keeps.room {p q : Part} (h : p.Keeps q) (hp : p.roomLaws) : q.roomLaws := h.lawful hp

theorem Part.own_congr {p q : Part} (h : q.config = p.config) : q.own = p.own := by simp only [Part.own, Part.setting, h]

theorem Part.Keeps.roster {p q : Part} (h : p.Keeps q) (hp : p.rosterLaws) : q.rosterLaws := by
  have ho := Part.own_congr h.config
  have hpeer : ∀ s, q.peer? s = p.peer? s := fun s => by simp only [Part.peer?, h.prs]
  unfold Part.rosterLaws Part.rosterShape Part.rackLaw Part.peerState? Part.rackState at *
  simpa only [ho, hpeer, h.prs] using hp

/-- The second half of the rack law follows from the first and the roster's shape: the own record is SELF. -/
theorem Part.rackLaw_of_shape {p : Part} (hs : p.rosterShape)
    (h : ∀ r rack station, p.prs.racks.row? r = some rack → rack.state = .down → station ∈ rack.members →
      p.peerState? station = some .lost) : p.rackLaw := by
  refine ⟨h, fun q hq hd => ?_⟩
  obtain ⟨hself, hmem⟩ := hs.2 q hq
  unfold Part.rackState at hd
  cases hr : p.prs.racks.row? q.rack with
  | none => rw [hr] at hd; cases hd
  | some rack =>
    rw [hr] at hd
    have := h q.rack rack p.own hr hd (hmem rack hr)
    simp [Part.peerState?, hq, hself] at this

/-! ## Single records -/

theorem Part.editPeer_room {p : Part} (n : Nat) (f : Peer → Peer) (h : p.roomLaws) : (p.editPeer n f).roomLaws := h

theorem Part.editRack_room {p : Part} (n : Nat) (f : Rack → Rack) (h : p.roomLaws) : (p.editRack n f).roomLaws := h

theorem Part.peer?_editPeer (p : Part) (n j : Nat) (f : Peer → Peer) :
    (p.editPeer n f).peer? j = if j = n then (p.peer? j).map f else p.peer? j :=
  Table.row?_editRow _ _ _ _

theorem Part.peer?_editRack (p : Part) (n j : Nat) (f : Rack → Rack) : (p.editRack n f).peer? j = p.peer? j := rfl

theorem Part.editPeer_shape {p : Part} (n : Nat) (f : Peer → Peer) (hp : p.rosterShape)
    (hrack : ∀ q, p.peer? n = some q → (f q).rack = q.rack)
    (hself : ∀ q, p.peer? n = some q → q.state = .self → (f q).state = .self) : (p.editPeer n f).rosterShape := by
  refine ⟨fun r rack station hr hm => ?_, fun q hq => ?_⟩
  · obtain ⟨q, hq, hqr⟩ := hp.1 r rack station hr hm
    rw [Part.peer?_editPeer]
    split
    · subst n; exact ⟨f q, by rw [hq]; rfl, (hrack q hq).trans hqr⟩
    · exact ⟨q, hq, hqr⟩
  · have ho : (p.editPeer n f).own = p.own := rfl
    rw [ho, Part.peer?_editPeer] at hq
    rw [ho]
    split at hq
    · rename_i hn
      obtain ⟨q', hq', rfl⟩ := Option.map_eq_some_iff.1 hq
      obtain ⟨h1, h2⟩ := hp.2 q' hq'
      rw [hn] at hq'
      refine ⟨hself q' hq' h1, fun rack hr => h2 rack ?_⟩
      rw [← hrack q' hq']; exact hr
    · exact hp.2 q hq

/-- A change of one peer record that makes no LOST station another thing keeps the roster's laws. -/
theorem Part.editPeer_roster {p : Part} (n : Nat) (f : Peer → Peer) (hp : p.rosterLaws)
    (hrack : ∀ q, p.peer? n = some q → (f q).rack = q.rack)
    (hself : ∀ q, p.peer? n = some q → q.state = .self → (f q).state = .self)
    (hlost : ∀ q, p.peer? n = some q → q.state = .lost → (f q).state = .lost) : (p.editPeer n f).rosterLaws := by
  have hs := Part.editPeer_shape n f hp.1 hrack hself
  refine ⟨hs, Part.rackLaw_of_shape hs fun r rack station hr hd hm => ?_⟩
  have hl := hp.2.1 r rack station hr hd hm
  unfold Part.peerState? at hl ⊢
  rw [Part.peer?_editPeer]
  split
  · subst n
    obtain ⟨q, hq, hst⟩ := Option.map_eq_some_iff.1 hl
    rw [hq]
    simp [hlost q hq hst]
  · exact hl

/-- A change of one rack record that makes it DOWN only where all its members are LOST keeps the roster's laws. -/
theorem Part.editRack_roster {p : Part} (n : Nat) (g : Rack → Rack) (hp : p.rosterLaws)
    (hmem : ∀ r, (g r).members = r.members)
    (hdown : ∀ r, p.prs.racks.row? n = some r → (g r).state = .down → r.state = .down ∨ p.allLost r = true) :
    (p.editRack n g).rosterLaws := by
  have hrow : ∀ j, (p.editRack n g).prs.racks.row? j = if j = n then (p.prs.racks.row? j).map g else p.prs.racks.row? j :=
    fun j => Table.row?_editRow _ _ _ _
  have hs : (p.editRack n g).rosterShape := by
    refine ⟨fun r rack station hr hm => ?_, fun q hq => ?_⟩
    · rw [hrow] at hr
      split at hr
      · obtain ⟨r', hr', rfl⟩ := Option.map_eq_some_iff.1 hr
        rw [hmem] at hm
        exact hp.1.1 r r' station hr' hm
      · exact hp.1.1 r rack station hr hm
    · obtain ⟨h1, h2⟩ := hp.1.2 q hq
      refine ⟨h1, fun rack hr => ?_⟩
      rw [hrow] at hr
      split at hr
      · obtain ⟨r', hr', rfl⟩ := Option.map_eq_some_iff.1 hr
        rw [hmem]; exact h2 r' hr'
      · exact h2 rack hr
  refine ⟨hs, Part.rackLaw_of_shape hs fun r rack station hr hd hm => ?_⟩
  change p.peerState? station = some .lost
  rw [hrow] at hr
  split at hr
  · subst r
    obtain ⟨r', hr', rfl⟩ := Option.map_eq_some_iff.1 hr
    rw [hmem] at hm
    rcases hdown r' hr' hd with hd' | hd'
    · exact hp.2.1 n r' station hr' hd' hm
    · simp only [Part.allLost, Bool.and_eq_true, List.all_eq_true] at hd'
      simpa using hd'.2 station hm
  · exact hp.2.1 r rack station hr hd hm

/-! ## Events delivered -/

theorem Part.contextsPeerLost_keeps {p0 p : Part} (station : Nat) (h : p0.Keeps p) :
    p0.Keeps (p.contextsPeerLost station) := by
  refine foldl_keeps (p0.Keeps ·) _ _ _ h fun q c hq => ?_
  split
  · exact hq
  · split
    · exact Part.rePlan_keeps _ _ hq
    · exact hq

theorem Part.lanesAndContextsPeerLost_keeps {p0 p : Part} (station : Nat) (lanesFirst : Bool) (h : p0.Keeps p) :
    p0.Keeps (p.lanesAndContextsPeerLost station lanesFirst) := by
  have hf := foldl_keeps (p0.Keeps ·) (fun r n => r.enterFailed n .serverLost) (p.activeLanesOf station) p h
    fun _ _ hq => Part.enterFailed_keeps _ _ hq
  have hr : ∀ {q : Part}, p0.Keeps q → p0.Keeps ((p.activeLanesOf station).foldl Part.reportFailedLane q) :=
    fun hq => foldl_keeps (p0.Keeps ·) _ _ _ hq fun _ _ hq => Part.reportFailedLane_keeps _ hq
  unfold Part.lanesAndContextsPeerLost
  cases lanesFirst
  · exact hr (Part.contextsPeerLost_keeps _ hf)
  · exact Part.contextsPeerLost_keeps _ (hr hf)

theorem Part.lanesPeerRestart_keeps {p0 p : Part} (station : Nat) (h : p0.Keeps p) :
    p0.Keeps (p.lanesPeerRestart station) := by
  refine foldl_keeps (p0.Keeps ·) _ _ _ h fun q n hq => ?_
  split
  · exact hq
  · split
    · exact Part.reOpen_keeps _ hq
    · exact hq

theorem Part.deliverPeerLost_keeps {p0 p : Part} (station : Nat) (lanesFirst : Bool) (h : p0.Keeps p) :
    p0.Keeps (p.deliverPeerLost station lanesFirst) :=
  Part.removeOpenersEverywhere_keeps _ (Part.lanesAndContextsPeerLost_keeps _ _
    (Part.revertYielded_keeps station (Part.requestSweep_keeps h)))

theorem Part.deliverPeerRestart_keeps {p0 p : Part} (station : Nat) (h : p0.Keeps p) :
    p0.Keeps (p.deliverPeerRestart station) :=
  Part.removeOpenersEverywhere_keeps _ (Part.lanesPeerRestart_keeps _ (Part.revertYielded_keeps _
    (Part.requestSweep_keeps h)))

theorem Part.deliverPeerPresent_keeps {p0 p : Part} (h : p0.Keeps p) : p0.Keeps p.deliverPeerPresent := by
  refine foldl_keeps (p0.Keeps ·) _ _ _ h fun q c hq => ?_
  split
  · exact hq
  · split
    · exact Part.enterPlanning_keeps _ hq
    · exact hq

/-! ## Rack transitions -/

theorem Part.rackGoesDown_room {p : Part} (rack : Nat) (h : p.roomLaws) : (p.rackGoesDown rack).roomLaws :=
  Part.Keeps.room (p := p.editRack rack fun r => { r with state := .down, suspectCount := 0 })
    (Part.setFlag_keeps _ (Part.addPending_keeps _ _ (Part.post_keeps _ _ Part.Keeps.rfl (Eq.refl _)))) h

theorem Part.rackGoesDown_roster {p : Part} (rack : Nat) (h : p.rosterLaws)
    (hl : ∀ r, p.prs.racks.row? rack = some r → p.allLost r = true) : (p.rackGoesDown rack).rosterLaws :=
  Part.Keeps.roster (p := p.editRack rack fun r => { r with state := .down, suspectCount := 0 })
    (Part.setFlag_keeps _ (Part.addPending_keeps _ _ (Part.post_keeps _ _ Part.Keeps.rfl (Eq.refl _))))
    (Part.editRack_roster _ _ h (fun _ => rfl) fun r hr _ => .inr (hl r hr))

theorem Part.checkRackDown_room {p : Part} (rack : Nat) (h : p.roomLaws) : (p.checkRackDown rack).roomLaws := by
  unfold Part.checkRackDown
  split
  · split
    · exact Part.rackGoesDown_room _ h
    · exact h
  · exact h

theorem Part.checkRackDown_roster {p : Part} (rack : Nat) (h : p.rosterLaws) : (p.checkRackDown rack).rosterLaws := by
  unfold Part.checkRackDown
  split
  · rename_i r hr
    split
    · rename_i hc
      refine Part.rackGoesDown_roster _ h fun r' hr' => ?_
      rw [hr] at hr'; cases hr'
      simp only [Bool.and_eq_true] at hc
      exact hc.2
    · exact h
  · exact h

theorem Part.rackReturns_room {p : Part} (rack : Nat) (h : p.roomLaws) : (p.rackReturns rack).roomLaws := by
  unfold Part.rackReturns
  split
  · exact Part.Keeps.room (p := p.editRack rack fun r => { r with state := .up })
      (Part.setFlag_keeps _ (Part.releaseTrigger_keeps _ (Part.addPending_keeps _ _ Part.Keeps.rfl))) h
  · exact h

theorem Part.endSuspect_room {p : Part} (rack : Nat) (h : p.roomLaws) : (p.endSuspect rack).roomLaws := h

theorem Part.endSuspect_roster {p : Part} (rack : Nat) (h : p.rosterLaws) : (p.endSuspect rack).rosterLaws := by
  refine Part.editRack_roster _ _ h (fun r => ?_) fun r _ hd => .inl ?_
  · split <;> rfl
  · split at hd
    · cases hd
    · exact hd

theorem Part.reduceSuspect_room {p : Part} (rack : Nat) (h : p.roomLaws) : (p.reduceSuspect rack).roomLaws := h

theorem Part.reduceSuspect_roster {p : Part} (rack : Nat) (h : p.rosterLaws) : (p.reduceSuspect rack).rosterLaws := by
  refine Part.endSuspect_roster _ (Part.editRack_roster _ _ h (fun r => ?_) fun r _ hd => .inl ?_)
  · split <;> rfl
  · split at hd
    · exact hd
    · exact hd

theorem Part.takeRackdown_room {p : Part} (rack : Nat) (h : p.roomLaws) : (p.takeRackdown rack).roomLaws := by
  unfold Part.takeRackdown
  split
  · exact h
  · split
    · exact h
    · exact h

theorem Part.takeRackdown_roster {p : Part} (rack : Nat) (h : p.rosterLaws) : (p.takeRackdown rack).rosterLaws := by
  unfold Part.takeRackdown
  split
  · exact h
  · split
    · exact h
    · exact Part.editRack_roster _ _ h (fun _ => rfl) fun _ _ hd => nomatch hd

/-! ## Peer transitions -/

theorem Part.peerBecomesSilent_roster {p : Part} (station : Nat) (q : Peer) (h : p.rosterLaws)
    (hq : p.peer? station = some q) (hs : q.state = .present) : (p.peerBecomesSilent station).rosterLaws := by
  refine Part.editPeer_roster _ _ h (fun _ _ => rfl) (fun r hr hself => ?_) fun r hr hl => ?_
  · rw [hq] at hr; cases hr; rw [hs] at hself; cases hself
  · rw [hq] at hr; cases hr; rw [hs] at hl; cases hl

theorem Part.peerBecomesLost_room {p : Part} (station : Nat) (lanesFirst : Bool) (h : p.roomLaws) :
    (p.peerBecomesLost station lanesFirst).roomLaws :=
  Part.Keeps.room (Part.deliverPeerLost_keeps _ _ Part.Keeps.rfl) (Part.editPeer_room station _ h)

theorem Part.peerBecomesLost_roster {p : Part} (station : Nat) (lanesFirst : Bool) (q : Peer) (h : p.rosterLaws)
    (hq : p.peer? station = some q) (hs : q.state ≠ .self) : (p.peerBecomesLost station lanesFirst).rosterLaws := by
  refine Part.Keeps.roster (Part.deliverPeerLost_keeps _ _ Part.Keeps.rfl)
    (Part.editPeer_roster _ _ h (fun _ _ => rfl) (fun r hr hself => ?_) fun _ _ _ => rfl)
  rw [hq] at hr; cases hr; exact absurd hself hs

theorem Part.lostDue_not_self {p : Part} {q : Peer} (h : p.lostDue q = true) : q.state ≠ .self := by
  intro hs
  simp [Part.lostDue, hs] at h

theorem Part.checkPeer_room {p : Part} (station : Nat) (lanesFirst : Bool) (h : p.roomLaws) :
    (p.checkPeer station lanesFirst).roomLaws := by
  unfold Part.checkPeer
  split
  · exact h
  · split
    · exact h
    · split
      · exact Part.peerBecomesLost_room _ _ h
      · exact h

theorem Part.checkPeer_roster {p : Part} (station : Nat) (lanesFirst : Bool) (h : p.rosterLaws) :
    (p.checkPeer station lanesFirst).rosterLaws := by
  unfold Part.checkPeer
  split
  · exact h
  · rename_i q hq
    split
    · rename_i hs
      refine Part.peerBecomesSilent_roster _ q h hq ?_
      simp only [Part.silentDue, Bool.and_eq_true, beq_iff_eq] at hs
      exact hs.1
    · split
      · rename_i hl
        exact Part.peerBecomesLost_roster _ _ q h hq (Part.lostDue_not_self hl)
      · exact h

theorem Peer.counted_state (q : Peer) : q.counted.state = q.state := by
  unfold Peer.counted; split
  · rfl
  · split <;> rfl

theorem Peer.counted_rack (q : Peer) : q.counted.rack = q.rack := by
  unfold Peer.counted; split
  · rfl
  · split <;> rfl

/-- A change of every peer record that leaves its state and its rack keeps the roster's laws. -/
theorem Part.mapPeers_roster {p : Part} (f : Peer → Peer) (hs : ∀ q, (f q).state = q.state)
    (hr : ∀ q, (f q).rack = q.rack) (h : p.rosterLaws) :
    Part.rosterLaws { p with prs := { p.prs with peers := p.prs.peers.map fun r => (r.1, f r.2) } } := by
  let q : Part := { p with prs := { p.prs with peers := p.prs.peers.map fun r => (r.1, f r.2) } }
  have hpeer : ∀ s, q.peer? s = (p.peer? s).map f := fun s => Table.row?_map _ _ fun _ => f
  have hst : ∀ s, q.peerState? s = p.peerState? s := fun s => by
    unfold Part.peerState?
    rw [hpeer, Option.map_map]
    congr 1
    funext x; exact hs x
  have hshape : q.rosterShape := by
    refine ⟨fun r rack station hrow hm => ?_, fun x hx => ?_⟩
    · obtain ⟨y, hy, hyr⟩ := h.1.1 r rack station hrow hm
      exact ⟨f y, by rw [hpeer, hy]; rfl, (hr y).trans hyr⟩
    · have ho : q.own = p.own := rfl
      rw [ho, hpeer] at hx
      obtain ⟨y, hy, rfl⟩ := Option.map_eq_some_iff.1 hx
      rw [hs, hr, ho]
      exact h.1.2 y hy
  exact ⟨hshape, Part.rackLaw_of_shape hshape fun r rack station hrow hd hm => by
    rw [hst]; exact h.2.1 r rack station hrow hd hm⟩

theorem Part.livenessCheck_room {p : Part} (lanesFirst : Bool) (h : p.roomLaws) :
    (p.livenessCheck lanesFirst).roomLaws :=
  foldl_keeps Part.roomLaws _ _ _ (foldl_keeps Part.roomLaws _ _ _ (foldl_keeps Part.roomLaws _ _ _ h
    fun _ _ hq => Part.checkPeer_room _ _ hq) fun _ _ hq => Part.checkRackDown_room _ hq)
    fun _ _ hq => Part.reduceSuspect_room _ hq

theorem Part.livenessCheck_roster {p : Part} (lanesFirst : Bool) (h : p.rosterLaws) :
    (p.livenessCheck lanesFirst).rosterLaws :=
  foldl_keeps Part.rosterLaws _ _ _ (foldl_keeps Part.rosterLaws _ _ _ (foldl_keeps Part.rosterLaws _ _ _
    (Part.mapPeers_roster Peer.counted Peer.counted_state Peer.counted_rack h)
    fun _ _ hq => Part.checkPeer_roster _ _ hq) fun _ _ hq => Part.checkRackDown_roster _ hq)
    fun _ _ hq => Part.reduceSuspect_roster _ hq

/-! ## BEACONs -/

theorem Part.peerRestarts_room {p : Part} (station : Nat) (hd : FrameHeader) (h : p.roomLaws) :
    (p.peerRestarts station hd).roomLaws :=
  Part.Keeps.room (Part.deliverPeerRestart_keeps _ Part.Keeps.rfl) (Part.editPeer_room station _ h)

theorem Part.peerRestarts_roster {p : Part} (station : Nat) (hd : FrameHeader) (h : p.rosterLaws) :
    (p.peerRestarts station hd).rosterLaws :=
  Part.Keeps.roster (Part.deliverPeerRestart_keeps _ Part.Keeps.rfl)
    (Part.editPeer_roster _ _ h (fun _ _ => rfl) (fun _ _ hs => hs) fun _ _ hl => hl)

theorem Part.takeBeacon_room {p : Part} (hd : FrameHeader) (rack status contexts : Byte) (h : p.roomLaws) :
    (p.takeBeacon hd rack status contexts).roomLaws := by
  have hpres : ∀ {q : Part}, q.roomLaws → q.deliverPeerPresent.roomLaws :=
    fun hq => Part.Keeps.room (Part.deliverPeerPresent_keeps Part.Keeps.rfl) hq
  unfold Part.takeBeacon
  dsimp only
  split
  · exact h
  · split
    · exact Part.Keeps.room (Part.dropFrame_keeps _ Part.Keeps.rfl) h
    · split
      · exact hpres (Part.editPeer_room _ _ (Part.editPeer_room _ _ h))
      · exact Part.rackReturns_room _ (hpres (Part.editPeer_room _ _ (Part.editPeer_room _ _ h)))
      · split
        · exact hpres (Part.editPeer_room _ _ (Part.editPeer_room _ _ h))
        · exact hpres (Part.editPeer_room _ _ (Part.peerRestarts_room _ _ (Part.editPeer_room _ _ h)))
      · split
        · exact Part.editPeer_room _ _ h
        · exact Part.peerRestarts_room _ _ (Part.editPeer_room _ _ h)
      · exact Part.editPeer_room _ _ h

/-- A LOST station that becomes PRESENT takes its rack out of DOWN, and the roster's laws stand again. -/
theorem Part.lostReturns_roster {p : Part} (n : Nat) (f : Peer → Peer) (q0 : Peer) (h : p.rosterLaws)
    (hq0 : p.peer? n = some q0) (hl : q0.state = .lost) (hrack : ∀ q, (f q).rack = q.rack) :
    (((p.editPeer n f).deliverPeerPresent).rackReturns q0.rack).rosterLaws := by
  have hk : (p.editPeer n f).Keeps (p.editPeer n f).deliverPeerPresent := Part.deliverPeerPresent_keeps Part.Keeps.rfl
  have hs : (p.editPeer n f).rosterShape := Part.editPeer_shape n f h.1 (fun q _ => hrack q) fun q hq hself => by
    rw [hq0] at hq; cases hq; rw [hl] at hself; cases hself
  -- outside the station's own rack, every DOWN rack has only LOST members
  have hother : ∀ r rack station, p.prs.racks.row? r = some rack → rack.state = .down → station ∈ rack.members →
      r ≠ q0.rack → (p.editPeer n f).peerState? station = some .lost := by
    intro r rack station hr hd hm hne
    have hst := h.2.1 r rack station hr hd hm
    unfold Part.peerState? at hst ⊢
    rw [Part.peer?_editPeer]
    split
    · subst n
      obtain ⟨q, hq, hqr⟩ := h.1.1 r rack station hr hm
      rw [hq0] at hq; cases hq
      exact absurd hqr.symm hne
    · exact hst
  unfold Part.rackReturns
  split
  · -- the rack returns to UP
    refine Part.Keeps.roster (p := (p.editPeer n f).editRack q0.rack fun r => { r with state := .up }) ?_ ?_
    · have hk2 : ((p.editPeer n f).editRack q0.rack fun r => { r with state := .up }).Keeps
          ((p.editPeer n f).deliverPeerPresent.editRack q0.rack fun r => { r with state := .up }) :=
        ⟨by simp [hk.prs], hk.config, hk.strap, hk.lawful⟩
      exact Part.setFlag_keeps _ (Part.releaseTrigger_keeps _ (Part.addPending_keeps _ _ hk2))
    · have hrow : ∀ j, ((p.editPeer n f).editRack q0.rack fun r => { r with state := .up }).prs.racks.row? j =
          if j = q0.rack then (p.prs.racks.row? j).map fun r => { r with state := .up } else p.prs.racks.row? j :=
        fun j => Table.row?_editRow p.prs.racks j q0.rack fun r => { r with state := .up }
      have hs2 : ((p.editPeer n f).editRack q0.rack fun r => { r with state := .up }).rosterShape := by
        refine ⟨fun r rack station hr hm => ?_, fun q hq => ?_⟩
        · rw [hrow] at hr
          split at hr
          · obtain ⟨r', hr', rfl⟩ := Option.map_eq_some_iff.1 hr
            exact hs.1 r r' station hr' hm
          · exact hs.1 r rack station hr hm
        · obtain ⟨h1, h2⟩ := hs.2 q hq
          refine ⟨h1, fun rack hr => ?_⟩
          rw [hrow] at hr
          split at hr
          · obtain ⟨r', hr', rfl⟩ := Option.map_eq_some_iff.1 hr
            exact h2 r' hr'
          · exact h2 rack hr
      refine ⟨hs2, Part.rackLaw_of_shape hs2 fun r rack station hr hd hm => ?_⟩
      rw [hrow] at hr
      split at hr
      · obtain ⟨r', _, rfl⟩ := Option.map_eq_some_iff.1 hr
        cases hd
      · exact hother r rack station hr hd hm ‹_›
  · -- the rack was not DOWN
    rename_i hnd
    refine Part.Keeps.roster hk ⟨hs, Part.rackLaw_of_shape hs fun r rack station hr hd hm => ?_⟩
    by_cases hne : r = q0.rack
    · subst hne
      refine absurd ?_ hnd
      have hrow : (p.editPeer n f).deliverPeerPresent.prs.racks.row? q0.rack = some rack := by rw [hk.prs]; exact hr
      simp [Part.rackState, hrow, hd]
    · exact hother r rack station hr hd hm hne

theorem Part.takeBeacon_roster {p : Part} (hd : FrameHeader) (rack status contexts : Byte) (h : p.rosterLaws) :
    (p.takeBeacon hd rack status contexts).rosterLaws := by
  have hpres : ∀ {q : Part}, q.rosterLaws → q.deliverPeerPresent.rosterLaws :=
    fun hq => Part.Keeps.roster (Part.deliverPeerPresent_keeps Part.Keeps.rfl) hq
  unfold Part.takeBeacon
  dsimp only
  split
  · exact h
  · rename_i before hb
    split
    · exact Part.Keeps.roster (Part.dropFrame_keeps _ Part.Keeps.rfl) h
    · -- the heard fields change neither state nor rack
      have h1 : (p.editPeer hd.sender.toNat fun q =>
          { q with heard := true, status := PeerStatus.ofCode? status, load := some contexts.toNat }).rosterLaws :=
        Part.editPeer_roster _ _ h (fun _ _ => rfl) (fun _ _ hs => hs) fun _ _ hl => hl
      have hb1 : (p.editPeer hd.sender.toNat fun q =>
          { q with heard := true, status := PeerStatus.ofCode? status, load := some contexts.toNat }).peer?
          hd.sender.toNat =
          some { before with heard := true, status := PeerStatus.ofCode? status, load := some contexts.toNat } := by
        rw [Part.peer?_editPeer, if_pos rfl, hb]; rfl
      split
      · rename_i hst
        refine hpres (Part.editPeer_roster _ _ h1 (fun _ _ => rfl) (fun q hq hs => ?_) fun q hq hl => ?_)
        · rw [hb1] at hq; cases hq; rw [hst] at hs; cases hs
        · rw [hb1] at hq; cases hq; rw [hst] at hl; cases hl
      · rename_i hst
        exact Part.lostReturns_roster _ _
          { before with heard := true, status := PeerStatus.ofCode? status, load := some contexts.toNat } h1 hb1 hst
          fun _ => rfl
      · rename_i hst
        split
        · refine hpres (Part.editPeer_roster _ _ h1 (fun _ _ => rfl) (fun q hq hs => ?_) fun q hq hl => ?_)
          · rw [hb1] at hq; cases hq; rw [hst] at hs; cases hs
          · rw [hb1] at hq; cases hq; rw [hst] at hl; cases hl
        · have h2 := Part.peerRestarts_roster hd.sender.toNat hd h1
          have hk := Part.deliverPeerRestart_keeps hd.sender.toNat (Part.Keeps.rfl (p :=
            (p.editPeer hd.sender.toNat fun q =>
              { q with heard := true, status := PeerStatus.ofCode? status, load := some contexts.toNat }).editPeer
              hd.sender.toNat fun q => { q with epoch := some hd.epoch, link := some hd.source }))
          have hb2 : ∀ q, ((p.editPeer hd.sender.toNat fun q =>
              { q with heard := true, status := PeerStatus.ofCode? status, load := some contexts.toNat }).peerRestarts
              hd.sender.toNat hd).peer? hd.sender.toNat = some q → q.state = .silent := by
            intro q hq
            unfold Part.peerRestarts Part.peer? at hq
            rw [hk.prs] at hq
            change (Part.editPeer _ _ _).peer? _ = some q at hq
            rw [Part.peer?_editPeer, if_pos rfl, hb1] at hq
            cases hq
            exact hst
          refine hpres (Part.editPeer_roster _ _ h2 (fun _ _ => rfl) (fun q hq hs => ?_) fun q hq hl => ?_)
          · rw [hb2 q hq] at hs; cases hs
          · rw [hb2 q hq] at hl; cases hl
      · split
        · exact h1
        · exact Part.peerRestarts_roster _ _ h1
      · exact h1

/-! ## The roster's own steps -/

theorem Part.livenessExpiry_room {p : Part} (lanesFirst : Bool) (h : p.roomLaws) :
    (p.livenessExpiry lanesFirst).roomLaws := by
  unfold Part.livenessExpiry
  split
  · exact h
  · exact Part.livenessCheck_room _ (Part.Keeps.room (Part.postBeacon_keeps Part.Keeps.rfl) h)

theorem Part.livenessExpiry_roster {p : Part} (lanesFirst : Bool) (h : p.rosterLaws) :
    (p.livenessExpiry lanesFirst).rosterLaws := by
  unfold Part.livenessExpiry
  split
  · exact h
  · exact Part.livenessCheck_roster _ (Part.Keeps.roster (Part.postBeacon_keeps Part.Keeps.rfl) h)

end Sys2Proof.Machine
end

