-- ==== Sys2Proof/Laws/Phases.lean ====
section
/-! SUPPORT. What the resets, CONFIGURE, START, INIT-DONE and HALT keep or set up: the laws of the memory, of the queues
and of the roster. -/

namespace Sys2Proof.Machine

/-! ## Resets -/

theorem Part.resetWith_room {p : Part} (strap : DramSize) {d : Dram} (hd : d.wf = true) :
    (p.resetWith strap d).roomLaws := by
  refine ⟨hd, ?_⟩
  simp [Part.queueLaw, Part.resetWith, Part.reset, SegmentPort.reset, HostLink.reset]

theorem Table.row?_range {α : Type} (f : Nat → α) (n k : Nat) :
    Table.row? ((List.range n).map fun i => (i, f i)) k = if k < n then some (f k) else none := by
  induction n with
  | zero => simp
  | succ n ih =>
    rw [List.range_succ, List.map_append, Table.row?_append, ih]
    by_cases h : k < n
    · simp [h, show k < n + 1 by omega]
    · by_cases hk : k = n
      · subst hk; simp [Table.row?]
      · simp [h, Table.row?, Ne.symm hk, show ¬ k < n + 1 by omega]

theorem Part.resetWith_roster (p : Part) (strap : DramSize) (d : Dram) : (p.resetWith strap d).rosterLaws := by
  have hpeer : ∀ s, (p.resetWith strap d).peer? s = none := fun _ => rfl
  have hshape : (p.resetWith strap d).rosterShape := by
    refine ⟨fun r rack station hr hm => ?_, fun q hq => ?_⟩
    · have hr' : Table.row? ((List.range 16).map fun r =>
          (r, ({ members := [], state := .up, suspectCount := 0 } : Rack))) r = some rack := hr
      rw [Table.row?_range] at hr'
      split at hr'
      · cases hr'; cases hm
      · cases hr'
    · rw [hpeer] at hq; cases hq
  refine ⟨hshape, Part.rackLaw_of_shape hshape fun r rack station hr hd hm => ?_⟩
  obtain ⟨q, hq, -⟩ := hshape.1 r rack station hr hm
  rw [hpeer] at hq; cases hq

/-! ## CONFIGURE -/

theorem Table.row?_filterMap_range {α : Type} (f : Nat → Option α) (n k : Nat) :
    Table.row? ((List.range n).filterMap fun i => (f i).map fun a => (i, a)) k = if k < n then f k else none := by
  induction n with
  | zero => simp
  | succ n ih =>
    rw [List.range_succ, List.filterMap_append, Table.row?_append, ih]
    by_cases h : k < n
    · rw [if_pos h, if_pos (show k < n + 1 by omega)]
      cases hf : f k with
      | some a => rfl
      | none =>
        cases hn : f n with
        | none => simp [hn]
        | some a => simp [hn, Table.row?, show ¬ n = k by omega]
    · by_cases hk : k = n
      · subst hk
        cases hf : f k with
        | none => simp [hf]
        | some a => simp [hf, Table.row?]
      · cases hn : f n with
        | none => simp [h, hn, show ¬ k < n + 1 by omega]
        | some a => simp [h, hn, Table.row?, Ne.symm hk, show ¬ k < n + 1 by omega]

/-- The peer records of a configuration: a member of the map has one, ABSENT or SELF (R34, R36). -/
theorem ConfigRecord.peers_row? (c : ConfigRecord) (station : Nat) :
    (ConfigRecord.peers c).row? station =
      if station < 64 then
        (c.rackOf? station).map fun rack => Peer.configured rack (station == c.ownStation.toNat)
      else none := by
  have h := Table.row?_filterMap_range
    (fun s => (c.rackOf? s).map fun rack => Peer.configured rack (s == c.ownStation.toNat)) 64 station
  simp only [Option.map_map] at h
  exact h

theorem ConfigRecord.racks_row? (c : ConfigRecord) (rack : Nat) :
    (ConfigRecord.racks c).row? rack =
      if rack < 16 then
        some { members := (List.range 64).filter fun station => c.rackOf? station == some rack, state := .up,
               suspectCount := 0 }
      else none := Table.row?_range _ 16 rack

theorem Part.own_putInForce (p : Part) (c : ConfigRecord) : (p.putInForce c).own = c.ownStation.toNat := rfl

theorem Part.putInForce_room {p : Part} (c : ConfigRecord) (h : p.roomLaws) : (p.putInForce c).roomLaws := h

theorem Part.putInForce_roster (p : Part) (c : ConfigRecord) : (p.putInForce c).rosterLaws := by
  have hpeer : ∀ s, (p.putInForce c).peer? s = (ConfigRecord.peers c).row? s := fun _ => rfl
  have hrow : ∀ r, (p.putInForce c).prs.racks.row? r = (ConfigRecord.racks c).row? r := fun _ => rfl
  have hshape : (p.putInForce c).rosterShape := by
    refine ⟨fun r rack station hr hm => ?_, fun q hq => ?_⟩
    · rw [hrow, ConfigRecord.racks_row?] at hr
      split at hr
      · cases hr
        obtain ⟨hlt, hs⟩ := List.mem_filter.1 hm
        rw [List.mem_range] at hlt
        have hs' : c.rackOf? station = some r := by simpa using hs
        exact ⟨_, by rw [hpeer, ConfigRecord.peers_row?, if_pos hlt, hs']; rfl, rfl⟩
      · cases hr
    · rw [Part.own_putInForce] at hq ⊢
      rw [hpeer, ConfigRecord.peers_row?] at hq
      split at hq
      · rename_i hlt
        obtain ⟨rack, hrack, rfl⟩ := Option.map_eq_some_iff.1 hq
        refine ⟨by simp [Peer.configured], fun r hr => ?_⟩
        rw [hrow, ConfigRecord.racks_row?] at hr
        split at hr
        · cases hr
          refine List.mem_filter.2 ⟨List.mem_range.2 hlt, ?_⟩
          simp [hrack, Peer.configured]
        · cases hr
      · cases hq
  refine ⟨hshape, Part.rackLaw_of_shape hshape fun r rack station hr hd hm => ?_⟩
  rw [hrow, ConfigRecord.racks_row?] at hr
  split at hr
  · cases hr; cases hd
  · cases hr

/-! ## START and INIT-DONE -/

theorem Part.emptyBlocks_keeps {p0 p : Part} (h : p0.Keeps p) : p0.Keeps p.emptyBlocks :=
  h.work (Eq.refl _) (Eq.refl _) (Eq.refl _) (Nat.zero_le _)

theorem Part.enter_keeps {p0 p : Part} (phase : Phase) (h : p0.Keeps p) : p0.Keeps (p.enter phase) :=
  h.work (Eq.refl _) (Eq.refl _) (Eq.refl _) (Nat.le_refl _)

/-- The own epoch and the liveness timer are outside the roster's laws. -/
theorem Part.withTimers_roster {p q : Part} (hc : q.config = p.config) (hp : q.prs.peers = p.prs.peers)
    (hr : q.prs.racks = p.prs.racks) (h : p.rosterLaws) : q.rosterLaws := by
  have ho := Part.own_congr hc
  have hpeer : ∀ s, q.peer? s = p.peer? s := fun s => by simp only [Part.peer?, hp]
  unfold Part.rosterLaws Part.rosterShape Part.rackLaw Part.peerState? Part.rackState at *
  simpa only [ho, hpeer, hr] using h

theorem Part.coldStart_room {p : Part} (h : p.roomLaws) : p.coldStart.roomLaws := by
  have h1 : p.emptyBlocks.roomLaws := Part.Keeps.room (Part.emptyBlocks_keeps Part.Keeps.rfl) h
  exact h1

theorem Part.coldStart_roster {p : Part} (h : p.rosterLaws) : p.coldStart.rosterLaws :=
  Part.withTimers_roster rfl rfl rfl h

/-- The part at the start of a warm START: every block empty, under the next epoch. -/
theorem Part.warmStart_keeps (p : Part) :
    Part.Keeps { p.emptyBlocks with prs := { p.prs with ownEpoch := p.prs.ownEpoch + 1 } } p.warmStart :=
  foldl_keeps (Part.Keeps _ ·) _ _ _ (Part.quietAll_keeps (Part.postBeacon_keeps (Part.enter_keeps .running
    Part.Keeps.rfl))) fun _ _ hq => Part.addPending_keeps _ _ hq

theorem Part.warmStart_room {p : Part} (h : p.roomLaws) : p.warmStart.roomLaws :=
  Part.Keeps.room p.warmStart_keeps (by
    have h1 : p.emptyBlocks.roomLaws := Part.Keeps.room (Part.emptyBlocks_keeps Part.Keeps.rfl) h
    exact h1)

theorem Part.warmStart_roster {p : Part} (h : p.rosterLaws) : p.warmStart.rosterLaws :=
  Part.Keeps.roster p.warmStart_keeps (Part.withTimers_roster rfl rfl rfl h)

/-- The part at INIT-DONE: an empty table over an initialized DRAM, and both timers started. -/
theorem Part.initDone_keeps (p : Part) :
    Part.Keeps
      { p with
        hdt := []
        smc := { p.smc with dram := p.smc.dram.initialized }
        prs := { p.prs with livenessDue := some (p.now + p.beaconPeriod) }
        scn := { Scanner.reset with sweepDue := some (p.now + p.sweepInterval) } }
      p.initDone := by
  unfold Part.initDone
  generalize p.smc.dram.initialized = d
  exact Part.postBeacon_keeps (Part.enter_keeps .running Part.Keeps.rfl)

theorem Part.initDone_room {p : Part} (h : p.roomLaws) : p.initDone.roomLaws :=
  Part.Keeps.room p.initDone_keeps ⟨Dram.initialized_wf h.1, h.2⟩

theorem Part.initDone_roster {p : Part} (h : p.rosterLaws) : p.initDone.rosterLaws :=
  Part.Keeps.roster p.initDone_keeps (Part.withTimers_roster rfl rfl rfl h)

/-! ## HALT -/

theorem Part.withdrawClaims_keeps {p0 p : Part} (h : p0.Keeps p) : p0.Keeps p.withdrawClaims :=
  foldl_keeps (p0.Keeps ·) _ _ _ h fun _ _ hq => Part.withdrawPlain_keeps _ _ hq

theorem Part.voidAllTags_keeps {p0 p : Part} (h : p0.Keeps p) : p0.Keeps p.voidAllTags :=
  Part.Keeps.reports _ (foldl_keeps (p0.Keeps ·) Part.voidTag p.outstandingTags _ h fun _ _ hq =>
    Part.voidTag_keeps _ hq) (List.length_filter_le _ _)

theorem Part.haltPart_keeps {p0 p : Part} (h : p0.Keeps p) : p0.Keeps p.haltPart := by
  have h1 := Part.abandonPass_keeps h
  have h2 := foldl_keeps (p0.Keeps ·) Part.endContext p.abandonPass.ctx.contexts.numbers _ h1
    fun _ _ hq => Part.endContext_keeps _ hq
  have h3 := Part.withdrawClaims_keeps h2
  have h4 : p0.Keeps { Part.withdrawClaims (p.abandonPass.ctx.contexts.numbers.foldl Part.endContext p.abandonPass) with
      clt := { entries := [], owned := [] }, rq := [] } :=
    h3.work (Eq.refl _) (Eq.refl _) (Eq.refl _) (Nat.zero_le _)
  have h5 := Part.quietAll_keeps h4
  exact Part.enter_keeps _ (Part.voidAllTags_keeps (Part.withdrawAtHalt_keeps (Part.emptyBlocks_keeps
    (h5.dram _ fun hd => Part.cutShort_wf hd))))

end Sys2Proof.Machine
end

