-- ==== Sys2Proof/Laws/Records.lean ====
section
/-! SUPPORT. The holdings table: what writing a record, emptying a position and updating a stripe leave in the table, and
that the images in the DRAM follow (R8, R10). -/

namespace Sys2Proof.Machine

/-! ## Layouts -/

theorem length_overlay_ge (base : List Byte) (o : Nat) (b : List Byte) : base.length ≤ (overlay base o b).length := by
  simp only [overlay, List.length_append, List.length_take, List.length_drop]
  omega

theorem length_overlay {base : List Byte} {o : Nat} {b : List Byte} (h : o + b.length ≤ base.length) :
    (overlay base o b).length = base.length := by
  simp only [overlay, List.length_append, List.length_take, List.length_drop]
  omega

theorem length_layout_ge (size : Nat) (fields : List (Nat × List Byte)) : size ≤ (layout size fields).length := by
  unfold layout
  refine foldl_keeps (fun l : List Byte => size ≤ l.length) _ _ _ (by simp) fun l f h => ?_
  exact Nat.le_trans h (length_overlay_ge _ _ _)

@[simp] theorem HoldingRecord.length_image (r : HoldingRecord) (now : Nat) : (r.image now).length = 256 := by
  have h := length_layout_ge 256 ([(0, [0x01]), (1, [r.standing.code]), (2, leBytes 1 r.ownIndex),
    (3, leBytes 1 r.geometry), (4, leBytes 6 r.stripe.toNat), (12, leBytes 4 r.length),
    (16, r.placement.map (BitVec.ofNat 8)), (32, leBytes 2 (maskOf r.lost).toNat),
    (34, leBytes 2 (maskOf ((List.range r.digests.length).filter fun i => ((r.digests[i]?).join).isSome)).toNat),
    (36, r.digests.flatMap fun d => leBytes 4 ((d.map BitVec.toNat).getD 0))] ++ outsideFields now r.outside)
  unfold HoldingRecord.image
  rw [List.length_take]
  omega

/-! ## Tables as functions of the number -/

theorem Table.ext_row? {α : Type} {t u : Table α} (ht : t.rising = true) (hu : u.rising = true)
    (h : ∀ j, t.row? j = u.row? j) : t = u := by
  induction t generalizing u with
  | nil =>
    cases u with
    | nil => rfl
    | cons r rest => have := h r.1; simp [Table.row?] at this
  | cons r rest ih =>
    obtain ⟨i, a⟩ := r
    obtain ⟨h1, h2⟩ := (Table.rising_cons i a rest).1 ht
    cases u with
    | nil => have := h i; simp [Table.row?] at this
    | cons r' rest' =>
      obtain ⟨k, b⟩ := r'
      obtain ⟨h1', h2'⟩ := (Table.rising_cons k b rest').1 hu
      have hik : i = k := by
        have e1 := h i
        have e2 := h k
        rcases Nat.lt_trichotomy i k with hlt | heq | hgt
        · simp only [Table.row?, if_true, show ¬ k = i by omega, if_false] at e1
          have := h1' _ (Table.row?_mem e1.symm)
          simp only at this; omega
        · exact heq
        · simp only [Table.row?, if_true, show ¬ i = k by omega, if_false] at e2
          have := h1 _ (Table.row?_mem e2)
          simp only at this; omega
      subst hik
      have e := h i
      simp only [Table.row?, if_true, Option.some.injEq] at e
      subst e
      congr 1
      refine ih h2 h2' fun j => ?_
      have ej := h j
      by_cases hj : i = j
      · subst hj
        have n1 : Table.row? rest i = none := by
          cases hr : Table.row? rest i with
          | none => rfl
          | some b => have := h1 _ (Table.row?_mem hr); simp at this
        have n2 : Table.row? rest' i = none := by
          cases hr : Table.row? rest' i with
          | none => rfl
          | some b => have := h1' _ (Table.row?_mem hr); simp at this
        rw [n1, n2]
      · simpa [Table.row?, hj] using ej

/-! ## One record -/

/-- Everything but the holdings table and the DRAM is the same. -/
def Part.sameButRecords (p q : Part) : Prop := ({ q with hdt := p.hdt } : Part).setDram p.smc.dram = p

theorem Part.sameButRecords_refl (p : Part) : p.sameButRecords p := rfl

theorem Part.sameButRecords_trans {p q r : Part} (h : p.sameButRecords q) (h' : q.sameButRecords r) :
    p.sameButRecords r := by
  have e := congrArg (fun x : Part => ({ x with hdt := p.hdt } : Part).setDram p.smc.dram) h'
  exact e.trans h

theorem Part.setRecord_row? (p : Part) (n j : Nat) (r : HoldingRecord) :
    (p.setRecord n r).hdt.row? j = if j = n then some r else p.hdt.row? j := by
  unfold Part.setRecord
  split
  · split
    · subst j; assumption
    · rfl
  · exact Table.row?_setRow _ _ _ _

theorem Part.setRecord_rising {p : Part} (n : Nat) (r : HoldingRecord) (h : p.hdt.rising = true) :
    (p.setRecord n r).hdt.rising = true := by
  unfold Part.setRecord
  split
  · exact h
  · exact Table.rising_setRow _ _ h

@[simp] theorem Part.setRecord_now (p : Part) (n : Nat) (r : HoldingRecord) : (p.setRecord n r).now = p.now := by
  unfold Part.setRecord; split <;> rfl

theorem Part.setRecord_same (p : Part) (n : Nat) (r : HoldingRecord) : p.sameButRecords (p.setRecord n r) := by
  unfold Part.setRecord; split <;> rfl

theorem Part.clearRecord_same (p : Part) (n : Nat) : p.sameButRecords (p.clearRecord n) := rfl

/-- The bytes of an image and no others lie at its position. -/
theorem imageOffset_iff (n o : Nat) : imageOffset n ≤ o ∧ o < imageOffset n + 256 ↔ o / 256 = n := by
  unfold imageOffset; omega

theorem Part.setRecord_byte (p : Part) (n : Nat) (r : HoldingRecord) (o : Nat) :
    (p.setRecord n r).smc.dram.byte o =
      if o / 256 = n ∧ p.hdt.row? n ≠ some r then ((r.image p.now)[o - imageOffset n]?).getD 0
      else p.smc.dram.byte o := by
  unfold Part.setRecord
  split
  · simp_all
  · rename_i hne
    change (p.smc.dram.write (imageOffset n) (r.image p.now)).byte o = _
    rw [Dram.byte_write, HoldingRecord.length_image, if_congr (imageOffset_iff n o) rfl rfl]
    simp [hne]

/-- The DRAM holds in 256 bytes of a position what each byte of it gives. -/
theorem Dram.bytes_image (d : Dram) (n : Nat) (l : List Byte) (hl : l.length = 256)
    (h : ∀ o, o / 256 = n → d.byte o = (l[o - imageOffset n]?).getD 0) : d.bytes (imageOffset n) 256 = l := by
  apply List.ext_getElem
  · simp [hl]
  · intro i h1 h2
    have hi : i < 256 := by simpa using h1
    simp only [Dram.bytes, List.getElem_map, List.getElem_range]
    rw [h (imageOffset n + i) (by unfold imageOffset; omega)]
    simp [h2]

theorem Part.setRecord_images (p : Part) (n : Nat) (r : HoldingRecord) : p.imagesFollow (p.setRecord n r) := by
  refine ⟨fun o ho => ?_, fun j x hx hne => ?_, fun j hx hne => ?_⟩
  · rw [Part.setRecord_byte, if_neg]
    rintro ⟨hn, hr⟩
    rw [Part.setRecord_row?, if_pos hn] at ho
    rw [hn] at ho
    exact hr ho
  · rw [Part.setRecord_row?] at hx
    split at hx
    · subst j; cases hx
      refine Dram.bytes_image _ _ _ (HoldingRecord.length_image _ _) fun o ho => ?_
      rw [Part.setRecord_byte, if_pos ⟨ho, hne⟩]
    · exact absurd hx hne
  · rw [Part.setRecord_row?] at hx
    split at hx
    · cases hx
    · exact absurd hx hne

theorem Part.clearRecord_row? (p : Part) (n j : Nat) :
    (p.clearRecord n).hdt.row? j = if j = n then none else p.hdt.row? j := Table.row?_dropRow _ _ _

theorem Part.clearRecord_images {p : Part} (n : Nat) (h : p.hdt.row? n ≠ none) : p.imagesFollow (p.clearRecord n) := by
  have hb : ∀ o, (p.clearRecord n).smc.dram.byte o =
      if o / 256 = n then ((List.replicate 256 (0 : Byte))[o - imageOffset n]?).getD 0 else p.smc.dram.byte o := by
    intro o
    change (p.smc.dram.write (imageOffset n) (List.replicate 256 0)).byte o = _
    rw [Dram.byte_write, List.length_replicate, if_congr (imageOffset_iff n o) rfl rfl]
  refine ⟨fun o ho => ?_, fun j x hx hne => ?_, fun j hx hne => ?_⟩
  · rw [hb, if_neg]
    intro hn
    rw [Part.clearRecord_row?, if_pos hn, hn] at ho
    exact h ho
  · rw [Part.clearRecord_row?] at hx
    split at hx
    · cases hx
    · exact absurd hx hne
  · rw [Part.clearRecord_row?] at hx
    split at hx
    · subst j
      refine Dram.bytes_image _ _ _ (List.length_replicate ..) fun o ho => ?_
      rw [hb, if_pos ho]
    · exact absurd hx hne

/-! ## A whole stripe, and the whole table -/

/-- Records rewritten row by row, where each row is visited once: the table, the images, and everything else. -/
theorem Part.rewriteRows_spec (sel : HoldingRecord → Bool) (f : HoldingRecord → HoldingRecord)
    (l : List (Nat × HoldingRecord)) (p : Part) (hl : Table.rising l = true) :
    let q := l.foldl (fun q row => if sel row.2 then q.setRecord row.1 (f row.2) else q) p
    (∀ j, q.hdt.row? j =
        match Table.row? l j with
        | some r => if sel r then some (f r) else p.hdt.row? j
        | none => p.hdt.row? j)
      ∧ (p.hdt.rising = true → q.hdt.rising = true) ∧ q.now = p.now ∧ p.sameButRecords q
      ∧ ∀ o, q.smc.dram.byte o =
          match Table.row? l (o / 256) with
          | some r =>
            if sel r = true ∧ p.hdt.row? (o / 256) ≠ some (f r) then
              (((f r).image p.now)[o - imageOffset (o / 256)]?).getD 0
            else p.smc.dram.byte o
          | none => p.smc.dram.byte o := by
  induction l generalizing p with
  | nil => exact ⟨fun _ => rfl, id, rfl, p.sameButRecords_refl, fun _ => rfl⟩
  | cons row rest ih =>
    obtain ⟨i, r⟩ := row
    obtain ⟨h1, h2⟩ := (Table.rising_cons i r rest).1 hl
    have hnone : Table.row? rest i = none := by
      cases hr : Table.row? rest i with
      | none => rfl
      | some b => have := h1 _ (Table.row?_mem hr); simp at this
    dsimp only [List.foldl_cons]
    by_cases hs : sel r = true
    · simp only [hs, if_true]
      obtain ⟨e1, e2, e3, e4, e5⟩ := ih (p.setRecord i (f r)) h2
      refine ⟨fun j => ?_, fun hp => e2 (Part.setRecord_rising _ _ hp), by rw [e3]; simp,
        Part.sameButRecords_trans (p.setRecord_same i (f r)) e4, fun o => ?_⟩
      · rw [e1]
        by_cases hj : i = j
        · subst hj
          simp [Table.row?, hnone, Part.setRecord_row?, hs]
        · simp [Table.row?, hj, Part.setRecord_row?, Ne.symm hj]
      · rw [e5]
        by_cases hj : i = o / 256
        · rw [← hj, hnone]
          simp only [Table.row?, if_true, hs, true_and, Part.setRecord_byte, ← hj]
        · simp only [Table.row?, if_neg hj, Part.setRecord_row?, Part.setRecord_byte, Part.setRecord_now,
            Ne.symm hj, false_and, if_false]
    · have hs' : sel r = false := by simpa using hs
      simp only [hs', if_false, Bool.false_eq_true]
      obtain ⟨e1, e2, e3, e4, e5⟩ := ih p h2
      refine ⟨fun j => ?_, e2, e3, e4, fun o => ?_⟩
      · rw [e1]
        by_cases hj : i = j
        · subst hj; simp [Table.row?, hnone, hs']
        · simp [Table.row?, hj]
      · rw [e5]
        by_cases hj : i = o / 256
        · rw [← hj, hnone]; simp [Table.row?, hs']
        · simp [Table.row?, if_neg hj]

/-- The rows of a rising table rewritten where a test holds: the images follow. -/
theorem Part.rewriteTable_spec (sel : HoldingRecord → Bool) (f : HoldingRecord → HoldingRecord) (p : Part)
    (hp : p.hdt.rising = true) :
    let q := p.hdt.foldl (fun q row => if sel row.2 then q.setRecord row.1 (f row.2) else q) p
    q.hdt = p.hdt.map (fun r => (r.1, if sel r.2 then f r.2 else r.2)) ∧ p.sameButRecords q ∧ q.now = p.now
      ∧ p.imagesFollow q := by
  obtain ⟨e1, e2, e3, e4, e5⟩ := p.rewriteRows_spec sel f p.hdt hp
  have hrow := fun j => Table.row?_map p.hdt j fun _ r => if sel r then f r else r
  have hmap : Table.rising (p.hdt.map fun r => (r.1, if sel r.2 then f r.2 else r.2)) = true := by
    rw [Table.rising_iff] at hp ⊢
    simpa [List.map_map, Function.comp_def] using hp
  have hhdt := Table.ext_row? (e2 hp) hmap fun j => by
    rw [e1, hrow]
    cases hj : p.hdt.row? j with
    | none => rfl
    | some r => by_cases hs : sel r = true <;> simp [hs]
  refine ⟨hhdt, e4, e3, fun o ho => ?_, fun j x hx hne => ?_, fun j hx hne => ?_⟩
  · rw [e5]
    cases hj : p.hdt.row? (o / 256) with
    | none => rfl
    | some r =>
      rw [e1, hj] at ho
      by_cases hs : sel r = true
      · simp only [hs, if_true] at ho
        simp [hs, ho]
      · simp [hs]
  · rw [e1] at hx
    cases hj : p.hdt.row? j with
    | none => rw [hj] at hx; cases hx
    | some r =>
      rw [hj] at hx hne
      by_cases hs : sel r = true
      · simp only [hs, if_true] at hx
        cases hx
        refine Dram.bytes_image _ _ _ (HoldingRecord.length_image _ _) fun o ho => ?_
        rw [e5, ho, hj]
        simp [hs, hne]
      · simp only [hs, if_false, Bool.false_eq_true] at hx
        exact absurd hx hne
  · rw [e1] at hx
    cases hj : p.hdt.row? j with
    | none => exact absurd hj hne
    | some r =>
      rw [hj] at hx
      by_cases hs : sel r = true <;> simp [hs] at hx

/-- The stripe-level fields of a stripe change in all of its records, and the images follow (R8, R10). -/
theorem Part.updateStripe_spec (p : Part) (t : StripeId) (f : HoldingRecord → HoldingRecord)
    (hp : p.hdt.rising = true) :
    (p.updateStripe t f).hdt = p.hdt.map (changeStripe t f) ∧ p.sameButRecords (p.updateStripe t f)
      ∧ (p.updateStripe t f).now = p.now ∧ p.imagesFollow (p.updateStripe t f) := by
  obtain ⟨h1, h2, h3, h4⟩ := p.rewriteTable_spec (fun r => decide (r.stripe = t)) f hp
  have e : p.updateStripe t f = p.hdt.foldl
      (fun q row => if decide (row.2.stripe = t) then q.setRecord row.1 (f row.2) else q) p := by
    unfold Part.updateStripe
    congr 1
    funext q row
    simp
  rw [e]
  refine ⟨h1.trans ?_, h2, h3, h4⟩
  apply List.map_congr_left
  intro r _
  unfold changeStripe
  by_cases hr : r.2.stripe = t <;> simp [hr]

/-- Every record becomes QUIET, and the images follow (R19). -/
theorem Part.quietAll_spec (p : Part) (hp : p.hdt.rising = true) :
    p.quietAll.hdt = p.hdt.map (fun r => (r.1, { r.2 with standing := .quiet, lost := [], outside := none }))
      ∧ p.sameButRecords p.quietAll ∧ p.quietAll.now = p.now ∧ p.imagesFollow p.quietAll := by
  obtain ⟨h1, h2, h3, h4⟩ :=
    p.rewriteTable_spec (fun _ => true) (fun r => { r with standing := .quiet, lost := [], outside := none }) hp
  simp only [if_true] at h1 h2 h3 h4
  exact ⟨h1, h2, h3, h4⟩

end Sys2Proof.Machine
end

