-- ==== Sys2Proof/Laws/Reports.lean ====
section
/-! SUPPORT. The report path (R169): what writing a report into the ring leaves, and that draining the internal report queue
moves the reports in order while the ring has places and tells the producers that wait. -/

namespace Sys2Proof.Machine

theorem Report.length_bytes (r : Report) : r.bytes.length = 64 := by
  have width : ∀ n v, (leBytes n v).length = n := fun n v => by simp [leBytes]
  cases r <;> simp [Report.bytes, layout, overlay, width]

/-- A report written to the ring where that has a place (R169). -/
theorem Part.writeReport_written (p : Part) (r : Report) (h : p.ringPlace = true) : p.reportWritten (p.writeReport r) r := by
  have row : ∀ a, (p.writeReport r).hlk.hostMemory.row? a =
      if p.produceAddress ≤ a ∧ a < p.produceAddress + 64 then r.bytes[a - p.produceAddress]?
      else p.hlk.hostMemory.row? a := by
    intro a
    change Table.row? (p.hlk.hostMemory.splice p.produceAddress r.bytes.length (cellsFrom p.produceAddress r.bytes)) a = _
    rw [Table.splice_row? _ _ _ _ _ fun c hc => cellsFrom_bounds hc, Report.length_bytes, cellsFrom_row?]
    by_cases ha : p.produceAddress ≤ a <;> simp [ha]
  refine ⟨fun k hk => ?_, fun a ha => ?_, ?_⟩
  · rw [row, if_pos (by omega), Nat.add_sub_cancel_left]
  · rw [row, if_neg (by omega)]
  · have hs : p.hlk.reportSize ≠ 0 := by
      rintro hs
      simp [Part.ringPlace, ringSizeValid, hs] at h
    have next : ringNext p.hlk.reportProduce p.hlk.reportSize =
        BitVec.ofNat 32 ((p.hlk.reportProduce.toNat + 1) % p.hlk.reportSize.toNat) := if_neg hs
    simp [Part.writeReport, Part.setFlag, Part.writeHost, Cause.bit, Part.flag, next, Part.enabled]

@[simp] theorem Part.writeReport_reportQueue (p : Part) (r : Report) :
    (p.writeReport r).hlk.reportQueue = p.hlk.reportQueue := rfl

@[simp] theorem Part.writeReport_scn (p : Part) (r : Report) : (p.writeReport r).scn = p.scn := rfl

@[simp] theorem Part.writeReport_rqWait (p : Part) (r : Report) : (p.writeReport r).rqWait = p.rqWait := rfl

/-- Reports moved into the ring from the head of a list: the first ones, as many as find a place (R169). -/
theorem Part.moveReports_spec (p : Part) (queue : List QueuedReport) :
    ∃ moved left s, queue = moved ++ left ∧ p.reportsWritten (moved.map QueuedReport.report) s
      ∧ (left = [] ∨ s.ringPlace = false)
      ∧ p.moveReports queue = { s with hlk := { s.hlk with reportQueue := left } }
      ∧ s.scn = p.scn ∧ s.rqWait = p.rqWait := by
  induction queue generalizing p with
  | nil => exact ⟨[], [], p, rfl, rfl, .inl rfl, rfl, rfl, rfl⟩
  | cons x rest ih =>
    by_cases place : p.ringPlace = true
    · obtain ⟨moved, left, s, split, written, full, moves, scn, wait⟩ := ih (p.writeReport x.report)
      exact ⟨x :: moved, left, s, by rw [split, List.cons_append],
        ⟨place, _, p.writeReport_written x.report place, written⟩, full, by rw [Part.moveReports, if_pos place, moves],
        by simpa using scn, by simpa using wait⟩
    · exact ⟨[], x :: rest, p, rfl, rfl, .inr (by simpa using place), by rw [Part.moveReports, if_neg place], rfl, rfl⟩

/-- The internal report queue drained: reports move as long as the ring has places, and the producers that wait are told where
the queue was full and has room again (R169). -/
theorem Part.drainReports_drained (p : Part) : p.reportsDrained p.drainReports := by
  obtain ⟨moved, left, s, split, written, full, moves, scn, wait⟩ := p.moveReports_spec p.hlk.reportQueue
  refine ⟨moved, left, s, split, written, full, ?_⟩
  rw [Part.drainReports, moves]
  by_cases told : 64 ≤ p.hlk.reportQueue.length ∧ left.length < 64
  · simp [told, Part.reportPlaceFrees, Part.tellScanner, scn]
  · simp only [if_neg told, ← scn, ← wait]

end Sys2Proof.Machine
end

