-- ==== Sys2Proof/Laws/Tags.lean ====
section
/-! SUPPORT. The tag counter (R168): skipping finds the next value that is not outstanding. -/

namespace Sys2Proof.Machine

theorem repeat_add {α : Type} (f : α → α) (m n : Nat) (a : α) :
    Nat.repeat f (m + n) a = Nat.repeat f m (Nat.repeat f n a) := by
  induction m with
  | zero => rw [Nat.zero_add]; rfl
  | succ m ih => rw [Nat.succ_add]; exact congrArg f ih

/-- Values that recur before a step recur for ever: a value met at a step, and not before, comes after distinct ones. -/
theorem nextTag_steps {outstanding : List Tag} {tag : Tag} {steps : Nat}
    (hn : Nat.repeat tagAfter (steps + 1) tag ∉ outstanding)
    (hs : ∀ k, k < steps → Nat.repeat tagAfter (k + 1) tag ∈ outstanding) : steps ≤ outstanding.length := by
  have inj : ∀ i j, i < j → j < steps → Nat.repeat tagAfter (i + 1) tag ≠ Nat.repeat tagAfter (j + 1) tag := by
    intro i j hij hj e
    have h := congrArg (Nat.repeat tagAfter (steps - j)) e
    rw [← repeat_add, ← repeat_add, show steps - j + (j + 1) = steps + 1 by omega,
      show steps - j + (i + 1) = (steps - j + i) + 1 by omega] at h
    exact hn (h ▸ hs _ (by omega))
  have nodup : ((List.range steps).map fun k => Nat.repeat tagAfter (k + 1) tag).Nodup := by
    rw [List.nodup_map_iff_inj_on (List.nodup_range)]
    intro i hi j hj e
    simp only [List.mem_range] at hi hj
    rcases Nat.lt_trichotomy i j with h | h | h
    · exact absurd e (inj i j h hj)
    · exact h
    · exact absurd e.symm (inj j i h hi)
  have sub : ((List.range steps).map fun k => Nat.repeat tagAfter (k + 1) tag) ⊆ outstanding := by
    intro x hx
    simp only [List.mem_map, List.mem_range] at hx
    obtain ⟨k, hk, rfl⟩ := hx
    exact hs k hk
  simpa using (nodup.subperm sub).length_le

theorem skipOutstanding_steps (outstanding : List Tag) (tag : Tag) (steps fuel : Nat) (hf : steps < fuel)
    (hn : Nat.repeat tagAfter steps tag ∉ outstanding)
    (hs : ∀ k, k < steps → Nat.repeat tagAfter k tag ∈ outstanding) :
    skipOutstanding outstanding fuel tag = Nat.repeat tagAfter steps tag := by
  induction steps generalizing tag fuel with
  | zero =>
    obtain ⟨fuel, rfl⟩ := Nat.exists_eq_succ_of_ne_zero (by omega : fuel ≠ 0)
    simp only [skipOutstanding, Nat.repeat] at hn ⊢
    simp [hn]
  | succ steps ih =>
    obtain ⟨fuel, rfl⟩ := Nat.exists_eq_succ_of_ne_zero (by omega : fuel ≠ 0)
    have h0 : tag ∈ outstanding := hs 0 (by omega)
    have shift : ∀ k, Nat.repeat tagAfter (k + 1) tag = Nat.repeat tagAfter k (tagAfter tag) := fun k =>
      repeat_add tagAfter k 1 tag
    simp only [skipOutstanding, List.contains_iff_mem, h0, if_true]
    rw [shift]
    refine ih (tagAfter tag) fuel (by omega) (by rw [← shift]; exact hn) fun k hk => ?_
    rw [← shift]; exact hs (k + 1) (by omega)

/-- The tag counter after a tag has been given out is the next value that is not outstanding (R168). -/
theorem skipOutstanding_nextTag {outstanding : List Tag} {tag next : Tag} (h : nextTag outstanding tag next) :
    skipOutstanding outstanding (outstanding.length + 1) (tagAfter tag) = next := by
  obtain ⟨steps, rfl, hn, hs⟩ := h
  have shift : ∀ k, Nat.repeat tagAfter (k + 1) tag = Nat.repeat tagAfter k (tagAfter tag) := fun k =>
    repeat_add tagAfter k 1 tag
  have bound := nextTag_steps hn hs
  rw [shift]
  refine skipOutstanding_steps _ _ _ _ (by omega) (by rw [← shift]; exact hn) fun k hk => ?_
  rw [← shift]; exact hs k hk

end Sys2Proof.Machine
end

