-- ==== Sys2Proof/Tests/Slice0.lean ====
section
/-! SUPPORT. The author's own tests: ill-formed commands that the checks refuse, worked cases of the specification, and for
each statement with hypotheses a concrete part and operands that meet them. -/

namespace Sys2Proof.Tests
open Sys2Proof Sys2Proof.Machine

set_option Elab.async false

/-! ## A small part to test on -/

/-- Station 7 of rack 0, with station 1; stations 12 and 13 in rack 1, 20 and 21 in rack 2, 22 in rack 3. -/
def memberRacks (i : Nat) : Byte :=
  if i = 7 ∨ i = 1 then 0 else if i = 12 ∨ i = 13 then 1 else if i = 20 ∨ i = 21 then 2 else if i = 22 then 3 else 0xFF

/-- A configuration of one geometry, (2, 2). -/
def config : ConfigRecord where
  ownStation := 7
  releaseHold := 1
  startEpoch := 5
  etherType := 0x88B6
  interruptEnables := 0x1F
  memberMap := (List.range 64).map memberRacks
  geometries := (2, 2) :: List.replicate 7 (0, 0)
  beaconPeriod := 10
  shortCount := 3
  longCount := 10
  claimHoldOff := 20
  claimRepeat := 100
  replyTimeout := 1000
  tries := 3
  openerIdleLimit := 500
  sweepInterval := 5
  serveReserve := 16

/-- A peer record. -/
def peer (rack : Nat) (state : PeerState) (epoch : Option Epoch) : Peer where
  rack := rack
  state := state
  missed := 0
  heard := false
  link := epoch.map fun _ => 0x020000000000#48
  epoch := epoch
  status := epoch.map fun _ => .running
  load := epoch.map fun _ => 0

/-- The peers: 1 and 20 PRESENT, 21 SILENT, 22 ABSENT, 12 and 13 LOST. -/
def peers : Table Peer :=
  [(1, peer 0 .present (some 3)), (7, { peer 0 .self none with link := some Config.ownAddress }),
    (12, peer 1 .lost (some 4)), (13, peer 1 .lost (some 4)), (20, peer 2 .present (some 9)),
    (21, peer 2 .silent (some 9)), (22, peer 3 .absent none)]

/-- The racks: rack 1 DOWN, the others UP. -/
def racks : Table Rack :=
  (ConfigRecord.racks config).map fun r => if r.1 = 1 then (1, { r.2 with state := .down }) else r

/-- The record of stripe 12345h at own index 0, with one fragment in the DOWN rack. -/
def recordA (standing : Standing) (lost : Positions) (outside : Option HeardClaim) : HoldingRecord where
  stripe := 0x12345
  ownIndex := 0
  geometry := 0
  length := 16384
  placement := [7, 1, 12, 20]
  digests := [none, none, none, none]
  standing := standing
  lost := lost
  outside := outside

/-- The record of stripe 222h at own index 1, without loss. -/
def recordB : HoldingRecord where
  stripe := 0x222
  ownIndex := 1
  geometry := 0
  length := 16384
  placement := [1, 7, 20, 21]
  digests := [none, none, none, none]
  standing := .quiet
  lost := []
  outside := none

/-- A DRAM of zeros in the holdings region and in slots 0 to 3. -/
def dram : Dram where
  cells := []
  blocks := (List.range 36).map fun b => (b, .zeros)
  powerSeed := 0
  nextSeed := 1

/-- The part in RUNNING with the two records and one command waiting in its ring. -/
def part : Part :=
  { Part.reset .mib256 dram with
    now := 1000
    config := some config
    prs := { peers := peers, racks := racks, ownEpoch := 6, livenessDue := some 10000 }
    hdt := [(0, recordA .quiet [] none), (1, recordB)]
    scn := { Scanner.reset with sweepDue := some 5000000 }
    hlk := { HostLink.reset with
      phase := .running
      commandBase := 0x10000
      commandSize := 64
      reportBase := 0x20000
      reportSize := 64
      statusAddress := 0x40000
      postIndex := 1 } }

/-- The part with another state of the host link. -/
def inPhase (phase : Phase) (p : Part) : Part := { p with hlk := { p.hlk with phase := phase } }

/-- The part with other first records. -/
def withA (r : HoldingRecord) : Part := { part with hdt := [(0, r), (1, recordB)] }

/-- The part with its internal report queue filled and its report ring without a place. -/
def reportsFull (p : Part) : Part :=
  { p with
    hlk := { p.hlk with
      reportConsume := 1
      reportQueue := List.replicate 64 { report := .commandRefused .badState 0, tagVoid := false } } }

/-- A claim entry of stripe 12345h. -/
def claimA (state : ClaimState) : ClaimEntry where
  stripe := 0x12345
  lost := [2]
  rank := 0x03F42
  state := state

/-- The part with that claim entry. -/
def withClaim (state : ClaimState) : Part :=
  { withA (recordA .claiming [2] none) with
    clt := { entries := [(0, claimA state)], owned := match state with
      | .owned _ => [0]
      | _ => [] } }

/-- A claim heard from a station. -/
def heard (station : Nat) (rank : Option Rank) (settled : Bool) : HeardClaim where
  station := station
  rank := rank
  settled := settled
  heard := 900

/-- The header of a broadcast of station 1. -/
def fromAll : FrameHeader where
  destination := 0xFFFFFFFFFFFF
  source := 0x020000000000
  etherType := 0x88B6
  sender := 1
  target := 0xFF
  epoch := 3

/-- The header of a frame of station 1 to this station. -/
def fromOne : FrameHeader := { fromAll with target := 7 }

/-- A LOAD of another stripe at own index 0. -/
def loadRecord : LoadRecord where
  stripe := 0x333
  ownIndex := 0
  geometry := 0
  length := 4096
  placement := [7, 1, 12, 20] ++ List.replicate 12 0
  digestPresent := 0x5
  digests := [0xE3069283, 0, 0x11, 0] ++ List.replicate 12 0

/-- A serve entry of stripe 12345h, position 0, on slot 0. -/
def serveA (state : ServeState) (openers : List Opener) : ServeEntry where
  stripe := 0x12345
  position := 0
  length := 16384
  slot := 0
  state := state
  requested := true
  tag := none
  openers := openers
  lastUse := 500

/-- The part with that serve entry and its slot. -/
def withServe (e : ServeEntry) : Part :=
  { part with
    svu := { part.svu with entries := [(0, e)] }
    smc := { part.smc with
      slots := [(0, { class_ := .serve, owner := some (.serveEntry 0), queuedChunks := 0, right := .none_ })] } }

/-- The remote opener of station 1 under tag 0501h. -/
def openerOne : Opener := .remote 1 0x0501 (some 3) 700

/-- A use of lane 5 by context 0, with station 1 as its server. -/
def laneUse (state : LaneState) : LaneUse where
  context := 0
  generation := 1
  survivor := 1
  stripe := 0x12345
  position := 1
  server := 1
  state := state
  openSent := true
  length := 16384
  digest := none
  openTries := 1
  nextConsume := 0
  nextRequest := 0
  bank0 := .empty
  bank1 := .empty
  runningDigest := digestStart
  waitCount := 0
  waitBusy := false
  reOpens := 0

/-- The part with lane 5 in that use. -/
def withLane (u : LaneUse) : Part :=
  { part with ftu := part.ftu.setRow 5 { holder := some 0, useCount := 1, outstanding := false, use := some u } }

/-- A lost-list entry of position 2. -/
def lostEntry (slot : Option Nat) (fill : FillState) (delivery : Delivery) (tag : Option Tag) : LostEntry where
  position := 2
  enabled := true
  slot := slot
  fill := fill
  digest := none
  delivery := delivery
  tag := tag

/-- A context of stripe 12345h. -/
def contextA (state : ContextState) (lostList : List LostEntry) (reservation : List Nat) : Context where
  stripe := 0x12345
  geometry := 0
  length := 16384
  chunkCount := 2
  lostList := lostList
  survivors := none
  unusable := []
  plan := none
  contributions := [[], []]
  chunksComplete := 0
  rePlans := 0
  reservation := reservation
  deadline := .absent
  state := state
  pendingOutcome := none

/-- An accumulator slot of context 0. -/
def slotA : Slot where
  class_ := .accumulator
  owner := some (.context 0 2)
  queuedChunks := 0
  right := .none_

/-- The part at work on stripe 12345h: an OWNED claim entry, and context 0 under generation 1 with slot 0. -/
def withContext (x : Context) : Part :=
  { withClaim (.owned 50000) with
    ctx := { contexts := [(0, x)], generations := part.ctx.generations.setRow 0 1 }
    smc := { part.smc with slots := [(0, slotA)] } }

/-- That part with lane 5 in a use too. -/
def withContextLane (x : Context) (u : LaneUse) : Part :=
  { withContext x with
    ftu := part.ftu.setRow 5 { holder := some 0, useCount := 1, outstanding := false, use := some u } }

/-! ## Hypotheses that are met: resets, configuration, refusals and phases -/

/-- The part before CONFIGURE. -/
def inSetup : Part := { inPhase .setup part with config := none, prs := Roster.reset, hdt := [] }

theorem met_steps : part.memoryLaw ∧ State.reset.part.memoryLaw := by
  simp only [Part.memoryLaw]; decide +kernel

theorem met_queueLaw : State.reset.part.queueLaw := by
  simp only [Part.queueLaw]; decide +kernel

theorem config_lawful : ConfigRecord.Lawful config :=
  ⟨by decide +kernel, ⟨by decide, 0, by decide +kernel⟩, by
    intro g hg
    simp only [config, List.mem_cons, List.mem_replicate] at hg
    rcases hg with rfl | ⟨-, rfl⟩
    · exact .inr (by decide)
    · exact .inl rfl, by decide⟩

theorem met_configure : inSetup.readerTakes = true ∧ (inSetup.hlk.phase = .setup ∨ inSetup.hlk.phase = .configured)
    ∧ ringSizeValid inSetup.hlk.reportSize = true ∧ statusAddressValid inSetup.hlk.statusAddress = true := by
  decide +kernel

theorem config_inForce : ConfigRecord.InForce config 224 := by constructor <;> decide

theorem met_refusals : (inPhase .halted part).readerTakes = true ∧ part.readerTakes = true
    ∧ inSetup.readerTakes = true ∧ (inPhase .configured part).readerTakes = true
    ∧ part.recordOf? 0x444 0 = none ∧ part.firstRecord? 0x444 = none ∧ part.geometry? 1 = none
    ∧ part.firstRecord? 0x12345 = some (recordA .quiet [] none)
    ∧ (withA (recordA .parked [2] none)).firstRecord? 0x12345 = some (recordA .parked [2] none) ∧ 9 ∉ part.hlk.stageTags := by
  decide +kernel

theorem met_posting : part.hlk.reportQueue = [] ∧ part.ringPlace = true ∧ (reportsFull part).ringPlace = false
    ∧ part.queueOpen ∧ part.claimWaits 0x12345 = false := by
  decide +kernel

theorem met_starts : (inPhase .configured part).readerTakes = true ∧ (inPhase .halted part).readerTakes = true
    ∧ part.config = some config ∧ part.hdt.rising = true ∧ part.prs.racks.rising = true := by
  decide +kernel

theorem met_initDone : (inPhase .initializing part).hlk.phase = .initializing ∧ part.sgp.control = [] := by decide +kernel

theorem met_halt : (withClaim (.owned 50000)).readerTakes = true ∧ (withClaim (.owned 50000)).hlk.phase = .running
    ∧ (withClaim (.owned 50000)).hdt.rising = true ∧ (withClaim (.owned 50000)).ctx.contexts = []
    ∧ ((withClaim (.owned 50000)).clt.entries.filter fun r => r.2.announced).length ≤ 63 := by
  decide +kernel

/-! ## The host's commands -/

/-- A table with a record of stripe 222h at every position, but for the first. -/
def fullTable (r : HoldingRecord) : Table HoldingRecord := (0, r) :: (List.range' 1 131071).map fun i => (i, recordB)

theorem gapFrom_range (r : HoldingRecord) (n k : Nat) :
    Table.gapFrom n ((List.range' n k).map fun i => (i, r)) = n + k := by
  induction k generalizing n with
  | zero => rfl
  | succ k ih => simp only [List.range'_succ, List.map_cons, Table.gapFrom, if_true, ih]; omega

theorem fullTable_full (r : HoldingRecord) : (fullTable r).lowestFree? 131072 = none := by
  simp only [Table.lowestFree?, fullTable, Table.gapFrom, if_true, gapFrom_range]; rfl

theorem mem_fullTable {r : HoldingRecord} {x : Nat × HoldingRecord} (h : x ∈ fullTable r) : x.2 = r ∨ x.2 = recordB := by
  simp only [fullTable, List.mem_cons, List.mem_map] at h
  rcases h with rfl | ⟨i, -, rfl⟩
  · exact .inl rfl
  · exact .inr rfl

theorem loadRecord_fits : LoadRecord.Fits part loadRecord { k := 2, m := 2 } :=
  ⟨by decide, by decide, by
    have h : ∀ b ∈ loadRecord.placement.take (Geometry.width { k := 2, m := 2 }), (part.peer? b.toNat).isSome = true := by
      decide +kernel
    exact fun b hb => Option.isSome_iff_exists.mp (h b hb), 7, by decide +kernel⟩

/-- A LOAD that joins stripe 12345h at own index 2. -/
def joinRecord : LoadRecord :=
  { loadRecord with stripe := 0x12345, ownIndex := 2, length := 16384, placement := [7, 1, 7, 20] ++ List.replicate 12 0 }

theorem joinRecord_fits : LoadRecord.Fits part joinRecord { k := 2, m := 2 } :=
  ⟨by decide, by decide, by
    have h : ∀ b ∈ joinRecord.placement.take (Geometry.width { k := 2, m := 2 }), (part.peer? b.toNat).isSome = true := by
      decide +kernel
    exact fun b hb => Option.isSome_iff_exists.mp (h b hb), 7, by decide +kernel⟩

theorem met_load : part.geometry? loadRecord.geometry.toNat = some { k := 2, m := 2 }
    ∧ part.firstRecord? loadRecord.stripe = none ∧ part.hdt.lowestFree? 131072 = some 2
    ∧ part.firstRecord? joinRecord.stripe = some (recordA .quiet [] none)
    ∧ (∀ r ∈ part.hdt, r.2.stripe = joinRecord.stripe → r.2.geometry = joinRecord.geometry.toNat
      ∧ r.2.length = joinRecord.length.toNat ∧ r.2.placement = (recordA .quiet [] none).placement
      ∧ r.2.ownIndex ≠ joinRecord.ownIndex.toNat) := by
  decide +kernel

/-- A part whose first stripe has another standing and placement, for a LOAD that takes its entry at index 2. -/
def joining (standing : Standing) (placement : List Nat) : Part :=
  { withA { recordA standing [2] none with placement := placement } with
    clt := match standing with
      | .claiming => (withClaim (.owned 50000)).clt
      | _ => part.clt }

theorem met_loadEvaluates : (joining .parked [7, 12, 13, 20]).readerTakes = true
    ∧ (joining .parked [7, 12, 13, 20]).firstRecord? joinRecord.stripe
      = some { recordA .parked [2] none with placement := [7, 12, 13, 20] }
    ∧ (∀ r ∈ (joining .parked [7, 12, 13, 20]).hdt, r.2.stripe = joinRecord.stripe →
      r.2.geometry = joinRecord.geometry.toNat ∧ r.2.length = joinRecord.length.toNat
        ∧ r.2.placement = [7, 12, 13, 20] ∧ r.2.ownIndex ≠ joinRecord.ownIndex.toNat)
    ∧ [7, 12, 13, 20][joinRecord.ownIndex.toNat]? ≠ some part.own
    ∧ (joining .parked [7, 12, 13, 20]).hdt.rising = true
    ∧ (joining .parked [7, 12, 13, 20]).hdt.lowestFree? 131072 = some 2
    ∧ (joining .claiming [7, 12, 7, 20]).lossSet joinRecord.stripe = [1]
    ∧ (joining .claiming [7, 1, 7, 20]).lossSet joinRecord.stripe = []
    ∧ (joining .claiming [7, 12, 13, 20]).claimOf? joinRecord.stripe = some (0, claimA (.owned 50000))
    ∧ (joining .claiming [7, 12, 13, 20]).contextOf? joinRecord.stripe = none
    ∧ (withContext (contextA .verifying [lostEntry (some 0) .ready .none_ none] [])).contextOf? joinRecord.stripe
      = some (0, contextA .verifying [lostEntry (some 0) .ready .none_ none] []) := by
  decide +kernel

theorem joinRecord_fitsJoining :
    LoadRecord.Fits (joining .parked [7, 12, 13, 20]) joinRecord { k := 2, m := 2 }
      ∧ LoadRecord.Fits (joining .claiming [7, 12, 13, 20]) joinRecord { k := 2, m := 2 } :=
  ⟨⟨joinRecord_fits.length, joinRecord_fits.ownIndex, joinRecord_fits.members, joinRecord_fits.own⟩,
    ⟨joinRecord_fits.length, joinRecord_fits.ownIndex, joinRecord_fits.members, joinRecord_fits.own⟩⟩

/-- A LOAD of a fragment without length. -/
def noLength : LoadRecord := { loadRecord with length := 0 }

theorem met_loadUnfit : ¬ LoadRecord.Fits part noLength { k := 2, m := 2 }
    ∧ part.geometry? noLength.geometry.toNat = some { k := 2, m := 2 } :=
  ⟨fun h => absurd h.length (by decide), by decide +kernel⟩

/-- A LOAD of stripe 12345h with another length than its record has. -/
def otherLength : LoadRecord := { joinRecord with length := 4096 }

theorem met_loadDiffers : LoadRecord.Fits part otherLength { k := 2, m := 2 }
    ∧ ∃ r ∈ part.hdt, r.2.stripe = otherLength.stripe
      ∧ (r.2.geometry ≠ otherLength.geometry.toNat ∨ r.2.length ≠ otherLength.length.toNat) :=
  ⟨⟨by decide, by decide, joinRecord_fits.members, joinRecord_fits.own⟩, by decide +kernel⟩

/-- A LOAD of a key that has a record. -/
def sameKey : LoadRecord := { joinRecord with ownIndex := 0 }

theorem met_loadExists : LoadRecord.Fits part sameKey { k := 2, m := 2 }
    ∧ (∀ r ∈ part.hdt, r.2.stripe = sameKey.stripe →
      r.2.geometry = sameKey.geometry.toNat ∧ r.2.length = sameKey.length.toNat)
    ∧ ∃ r ∈ part.hdt, r.2.stripe = sameKey.stripe ∧ r.2.ownIndex = sameKey.ownIndex.toNat :=
  ⟨⟨by decide, by decide, joinRecord_fits.members, 7, by decide +kernel⟩, by decide +kernel⟩

/-- The part without an empty position in its table. -/
def fullPart : Part := { part with hdt := fullTable (recordA .quiet [] none) }

theorem met_loadFull : fullPart.hdt.lowestFree? 131072 = none ∧ fullPart.readerTakes = true
    ∧ fullPart.hlk.phase = .running ∧ LoadRecord.Fits fullPart loadRecord { k := 2, m := 2 }
    ∧ (∀ r ∈ fullPart.hdt, r.2.stripe = loadRecord.stripe →
      r.2.geometry = loadRecord.geometry.toNat ∧ r.2.length = loadRecord.length.toNat)
    ∧ ∀ r ∈ fullPart.hdt, r.2.stripe = loadRecord.stripe → r.2.ownIndex ≠ loadRecord.ownIndex.toNat := by
  have other : ∀ r ∈ fullPart.hdt, r.2.stripe ≠ loadRecord.stripe := fun r hr => by
    rcases mem_fullTable hr with h | h <;> rw [h] <;> decide
  exact ⟨fullTable_full _, by decide +kernel, rfl, ⟨loadRecord_fits.length, loadRecord_fits.ownIndex,
    loadRecord_fits.members, loadRecord_fits.own⟩, fun r hr h => absurd h (other r hr),
    fun r hr h => absurd h (other r hr)⟩

/-- The part with a second record of stripe 12345h, at position 2. -/
def twoRecords : Part :=
  { part with hdt := [(0, recordA .quiet [] none), (1, recordB), (2, { recordA .quiet [] none with ownIndex := 2 })] }

/-- The part with its stripe queued. -/
def queuedA : Part := { withA (recordA .queued [2] none) with rq := [0x12345] }

theorem met_drop : twoRecords.recordOf? 0x12345 0 = some (0, recordA .quiet [] none)
    ∧ (∃ other ∈ twoRecords.hdt, other.1 ≠ 0 ∧ other.2.stripe = 0x12345)
    ∧ queuedA.recordOf? 0x12345 0 = some (0, recordA .queued [2] none)
    ∧ (∀ other ∈ queuedA.hdt, other.1 ≠ 0 → other.2.stripe ≠ 0x12345) ∧ queuedA.claimOf? 0x12345 = none
    ∧ (withClaim (.owned 50000)).claimOf? 0x12345 = some (0, claimA (.owned 50000))
    ∧ (claimA (.owned 50000)).announced = true ∧ (withClaim (.owned 50000)).queueOpen
    ∧ (withClaim (.owned 50000)).claimWaits 0x12345 = false
    ∧ (∀ other ∈ (withClaim (.owned 50000)).hdt, other.1 ≠ 0 → other.2.stripe ≠ 0x12345)
    ∧ ¬ (part.scn.pass = .blocked ∧ part.scn.cursor = 0) := by
  decide +kernel

/-- The part with its claim of stripe 12345h YIELDED to station 1. -/
def yieldedA : Part := withClaim (.yielded (heard 1 none true) 800 30000)

/-- The part with a second record of stripe 12345h and a serve entry of the key that is dropped. -/
def twoServed (e : ServeEntry) : Part := { withServe e with hdt := twoRecords.hdt }

/-- The part with a pass BLOCKED at the first position. -/
def blockedAt (p : Part) : Part := { p with scn := { p.scn with pass := .blocked } }

theorem met_dropMore : yieldedA.claimOf? 0x12345 = some (0, claimA (.yielded (heard 1 none true) 800 30000))
    ∧ (blockedAt twoRecords).scn.pass = .blocked ∧ (blockedAt twoRecords).scn.cursor = 0
    ∧ (∃ other ∈ (blockedAt twoRecords).hdt, other.1 ≠ 0 ∧ other.2.stripe = 0x12345)
    ∧ (∀ other ∈ (blockedAt queuedA).hdt, other.1 ≠ 0 → other.2.stripe ≠ 0x12345)
    ∧ (twoServed (serveA .staged [openerOne])).serveOf? 0x12345 0 = some (0, serveA .staged [openerOne])
    ∧ (twoServed (serveA .staged [])).serveOf? 0x12345 0 = some (0, serveA .staged [])
    ∧ (serveA .staged [openerOne]).internals = [] ∧ (twoServed (serveA .staged [openerOne])).svu.entries.rising = true
    ∧ (∀ other ∈ (withServe (serveA .staged [openerOne])).hdt, other.1 ≠ 0 → other.2.stripe ≠ 0x12345)
    ∧ (∀ other ∈ (withServe (serveA .staged [openerOne])).svu.entries, other.1 ≠ 0 → other.2.stripe ≠ 0x12345)
    ∧ (withContext (contextA .planning [] [5])).contextOf? 0x12345 = some (0, contextA .planning [] [5])
    ∧ (∀ other ∈ (withContext (contextA .planning [] [5])).hdt, other.1 ≠ 0 → other.2.stripe ≠ 0x12345) := by
  decide +kernel

/-- The part with a STAGE request of tag 9 outstanding. -/
def staging (openers : List Opener) : Part :=
  let p := withServe { serveA .staging openers with tag := some 9 }
  { p with hlk := { p.hlk with stageTags := [9] } }

theorem met_staged : (staging [openerOne]).readerTakes = true
    ∧ (staging [openerOne]).stagingOf? 9 = some (0, { serveA .staging [openerOne] with tag := some 9 })
    ∧ (serveA .staging [openerOne]).internals = [] ∧ 9 ∈ (staging []).hlk.stageTags
    ∧ (staging []).stagingOf? 9 = some (0, { serveA .staging [] with tag := some 9 }) := by
  decide +kernel

theorem met_dropStaging : ({ staging [openerOne] with hdt := twoRecords.hdt } : Part).serveOf? 0x12345 0
      = some (0, { serveA .staging [openerOne] with tag := some 9 })
    ∧ 9 ∈ (staging [openerOne]).hlk.stageTags ∧ (serveA .staging []).openers = []
    ∧ ({ staging [] with hdt := twoRecords.hdt } : Part).serveOf? 0x12345 0
      = some (0, { serveA .staging [] with tag := some 9 }) := by
  decide +kernel

/-- A context in DELIVERING whose position 2 has its STORE request outstanding under tag 4. -/
def delivering (more : List LostEntry) : Part :=
  let p := withContext (contextA .delivering (lostEntry (some 0) .ready .requested (some 4) :: more) [])
  { p with hlk := { p.hlk with storeTags := [4] } }

/-- A second lost position, still to be delivered. -/
def laterEntry : LostEntry := { lostEntry none .ready .none_ none with position := 3 }

/-- A context whose rebuilt position 2 has a record here already. -/
def deliveringHeld (more : List LostEntry) : Part :=
  { delivering more with
    hdt := [(0, recordA .claiming [2] none), (2, { recordA .claiming [2] none with ownIndex := 2 })] }

theorem met_stored : (delivering [laterEntry]).readerTakes = true
    ∧ ((delivering [laterEntry]).deliveryOf? 4).map Prod.fst = some 0
    ∧ (delivering [laterEntry]).context? 0
      = some (contextA .delivering [lostEntry (some 0) .ready .requested (some 4), laterEntry] [])
    ∧ laterEntry.enabled = true ∧ laterEntry.position ≠ 2 ∧ laterEntry.delivery = .none_
    ∧ (delivering [laterEntry]).holds 0x12345 2 = false ∧ (deliveringHeld [laterEntry]).holds 0x12345 2 = true
    ∧ (delivering [laterEntry]).firstRecord? 0x12345 = some (recordA .claiming [2] none)
    ∧ (delivering [laterEntry]).hdt.lowestFree? 131072 = some 2 ∧ (deliveringHeld []).queueOpen
    ∧ (deliveringHeld []).claimOf? 0x12345 = some (0, claimA (.owned 50000)) := by
  decide +kernel

/-- A context in DELIVERING on a table without an empty position. -/
def deliveringFull : Part := { delivering [laterEntry] with hdt := fullTable (recordA .claiming [2] none) }

theorem met_holdingsFull : deliveringFull.hdt.lowestFree? 131072 = none
    ∧ deliveringFull.firstRecord? 0x12345 = some (recordA .claiming [2] none) ∧ deliveringFull.holds 0x12345 2 = false
    ∧ (deliveringFull.deliveryOf? 4).map Prod.fst = some 0 := by
  refine ⟨fullTable_full _, by decide +kernel, ?_, by decide +kernel⟩
  simp only [Part.holds, Part.recordOf?, Table.findRow?, Option.isSome_eq_false_iff, Option.isNone_iff_eq_none,
    List.find?_eq_none]
  intro r hr
  rcases mem_fullTable hr with h | h <;> rw [h] <;> decide

theorem met_storedFailed : (delivering []).deliveryOf? 4
      = some (0, contextA .delivering [lostEntry (some 0) .ready .requested (some 4)] [],
        lostEntry (some 0) .ready .requested (some 4))
    ∧ (delivering []).claimOf? 0x12345 = some (0, claimA (.owned 50000)) ∧ (delivering []).queueOpen
    ∧ 4 ∈ (delivering []).hlk.storeTags ∧ (delivering []).readerTakes = true := by
  decide +kernel

/-- The full table has its positions in rising order. -/
theorem fullTable_rising (r : HoldingRecord) : (fullTable r).rising = true := by
  have numbers : (fullTable r).map Prod.fst = List.range' 0 131072 := by
    simp only [fullTable, List.map_cons, List.map_map, Function.comp_def, List.map_id']
    exact (List.range'_succ (s := 0) (n := 131071) (step := 1)).symm
  rw [Table.rising, numbers]
  exact decide_eq_true List.pairwise_lt_range'

/-- A second lost position, already DELIVERED, and one that the host could not store. -/
def deliveredEntry : LostEntry := { lostEntry (some 1) .ready .delivered none with position := 3 }

def failedEntry : LostEntry := { deliveredEntry with delivery := .failed }

/-- A position that returned: its entry is disabled. -/
def returnedEntry : LostEntry := { lostEntry none .ready .none_ none with position := 1, enabled := false }

theorem met_delivered : (delivering [deliveredEntry, returnedEntry]).context? 0
      = some (contextA .delivering [lostEntry (some 0) .ready .requested (some 4), deliveredEntry, returnedEntry] [])
    ∧ (delivering [deliveredEntry, returnedEntry]).deliveryOf? 4
      = some (0, contextA .delivering [lostEntry (some 0) .ready .requested (some 4), deliveredEntry, returnedEntry] [],
        lostEntry (some 0) .ready .requested (some 4))
    ∧ deliveredEntry.enabled = true ∧ deliveredEntry.delivery = .delivered ∧ deliveredEntry.position ≠ 2
    ∧ returnedEntry.enabled = false ∧ returnedEntry.delivery = .none_
    ∧ failedEntry.enabled = true ∧ failedEntry.delivery = .failed ∧ failedEntry.position ≠ 2
    ∧ (delivering [failedEntry]).claimOf? 0x12345 = some (0, claimA (.owned 50000))
    ∧ (delivering [deliveredEntry, returnedEntry]).readerTakes = true
    ∧ (delivering [deliveredEntry, returnedEntry]).queueOpen := by
  decide +kernel

theorem met_deliveredTable :
    (∃ table, (delivering []).deliveredTable (contextA .delivering [] []) (lostEntry (some 0) .ready .delivered none) table)
      ∧ ∃ table, (deliveringHeld []).deliveredTable (contextA .delivering [] [])
        (lostEntry (some 0) .ready .delivered none) table :=
  ⟨⟨_, .inr ⟨recordA .claiming [2] none, 2, by decide +kernel, by decide +kernel, by decide +kernel, rfl⟩⟩,
    ⟨_, .inl ⟨by decide +kernel, rfl⟩⟩⟩

/-- A context whose last position is answered on a table without an empty position. -/
def deliveringLast : Part := { delivering [] with hdt := fullTable (recordA .claiming [2] none) }

theorem met_deliveringLast : deliveringLast.hdt.lowestFree? 131072 = none ∧ deliveringLast.hdt.rising = true
    ∧ deliveringLast.firstRecord? 0x12345 = some (recordA .claiming [2] none) ∧ deliveringLast.holds 0x12345 2 = false
    ∧ (deliveringLast.deliveryOf? 4).map Prod.fst = some 0 ∧ deliveringLast.readerTakes = true :=
  ⟨fullTable_full _, fullTable_rising _, by decide +kernel, met_holdingsFull.2.2.1, by decide +kernel, by decide +kernel⟩

/-- The part with a pass HELD by rack 1, which is pending too. -/
def heldPass : Part :=
  { part with scn := { part.scn with pending := [(1, true)], pass := .held, triggers := [(1, true), (2, true)] } }

theorem met_releases : heldPass.readerTakes = true ∧ heldPass.hlk.phase = .running ∧ heldPass.scn.pass = .held
    ∧ part.scn.pass ≠ .held := by
  decide +kernel

theorem met_haltPass : heldPass.hlk.phase = .running ∧ heldPass.scn.triggers.rising = true
    ∧ heldPass.scn.triggers.row? 2 = some true ∧ heldPass.scn.triggers.row? 5 = none
    ∧ (withClaim (.owned 50000)).sgp.hold.length + (withClaim (.owned 50000)).ftu.length
      + (withClaim (.owned 50000)).clt.entries.length ≤ 1024
    ∧ (withClaim (.owned 50000)).roomFor ((withClaim (.owned 50000)).clt.entries.filter fun r => r.2.announced).length
    ∧ (∀ r ∈ (withClaim (.owned 50000)).clt.entries, r.2.announced = true →
      (withClaim (.owned 50000)).claimWaits r.2.stripe = false) := by
  decide +kernel

/-- The part with stripe 12345h on more lost stations than its parity. -/
def lostBeyond (standing : Standing) : Part :=
  withA { recordA standing [] none with placement := [12, 13, 12, 20] }

theorem met_requeue : part.firstRecord? 0x12345 = some (recordA .quiet [] none) ∧ part.lossSet 0x12345 = [2]
    ∧ part.parityOf 0x12345 = 2 ∧ part.lossSet 0x222 = [] ∧ part.rq.length < 1024
    ∧ (lostBeyond .quiet).lossSet 0x12345 = [0, 1, 2] ∧ (lostBeyond .unrecoverable).parityOf 0x12345 = 2
    ∧ 1024 ≤ ({ part with rq := List.replicate 1024 0 } : Part).rq.length := by
  decide +kernel

/-! ## The host's accesses -/

/-- The part at the end of its report ring, with room for a report, 64 of which wait, a BLOCKED pass and a head that
waits. -/
def reportsWait (phase : Phase) : Part :=
  { reportsFull part with
    scn := { part.scn with pass := .blocked }
    rqWait := some 0x222
    hlk := { (reportsFull part).hlk with phase := phase, reportProduce := 63 } }

theorem met_registerWrites : ringSizeValid part.hlk.commandSize = true ∧ (63 : BitVec 32).toNat < part.hlk.commandSize.toNat
    ∧ part.hlk.reportQueue = [] ∧ inSetup.hlk.reportQueue = [] ∧ inSetup.hlk.phase = .setup
    ∧ (0x030 : BitVec 32).toNat ∉ [0x000, 0x008, 0x010, 0x018, 0x020, 0x028, 0x02C]
    ∧ (1 : BitVec 32).toNat < (reportsWait .running).hlk.reportSize.toNat ∧ (reportsWait .setup).hlk.phase = .setup := by
  decide +kernel

/-- R169: two places free at a write of the report consume index, and two of the 64 reports that wait move into the ring, at
places 63 and 0; the BLOCKED pass and the waiting head are told. -/
theorem test_reportsDrain : Leads (.reportConsumeIndexWrite 2) ⟨[], reportsWait .running⟩ fun q =>
    q.hlk.reportProduce = 1 ∧ q.hlk.reportQueue.length = 62 ∧ q.scn.placeFreed = true ∧ q.rqWait = none
      ∧ q.hlk.hostMemory.row? (0x20000 + 63 * 64) = some 0x03 ∧ q.hlk.hostMemory.row? 0x20000 = some 0x03 :=
  ⟨_, rfl, rfl, by decide +kernel⟩

/-- R169: a write of the report ring base in SETUP moves reports too, here the one that the ring has a place for. -/
theorem test_reportsDrainInSetup : Leads (.ringRegisterWrite .reportBase 0x80000) ⟨[], reportsWait .setup⟩ fun q =>
    q.hlk.reportProduce = 0 ∧ q.hlk.reportQueue.length = 63 ∧ q.scn.placeFreed = true
      ∧ q.hlk.hostMemory.row? (0x80000 + 63 * 64) = some 0x03 :=
  ⟨_, rfl, rfl, by decide +kernel⟩

/-- The part with a slot of each right. -/
def windows : Part :=
  { part with
    smc := { part.smc with
      slots := [(0, { slotA with right := .read 4 }), (1, { slotA with right := .write 5 }), (2, slotA)] } }

theorem met_windows : ((0, { slotA with right := .read 4 }) ∈ windows.smc.slots ∧ (32 + 0) * 1048576 ≤ 33554432
      ∧ 33554432 + 16 ≤ (33 + 0) * 1048576)
    ∧ ((1, { slotA with right := .write 5 }) ∈ windows.smc.slots ∧ (32 + 1) * 1048576 ≤ 34603008
      ∧ 34603008 + 4 ≤ (33 + 1) * 1048576)
    ∧ 16 + 8 ≤ 32 * 1048576 ∧ windows.hlk.phase ≠ .initializing := by
  decide +kernel

theorem met_statusBlock : part.hlk.statusMarked = true ∧ statusAddressValid part.hlk.statusAddress = true
    ∧ part.sgp.drops.length = 10 ∧ part.prs.racks.length ≤ 16 := by
  decide +kernel

/-! ## The roster -/

theorem met_liveness : part.onSegment = true ∧ part.prs.livenessDue = some 10000 ∧ part.prs.peers.rising = true
    ∧ part.prs.racks.rising = true ∧ (∀ r ∈ part.prs.peers, ¬ part.dueLost r.2)
    ∧ ∀ r ∈ part.prs.racks, r.2.state ≠ .down → part.allLost r.2 = false := by
  simp only [Part.dueLost]; decide +kernel

/-- The part with station 1 two checks behind, and rack 2 SUSPECT for one check more. -/
def behind : Part :=
  { part with
    prs := { part.prs with
      peers := peers.editRow 1 fun q => { q with missed := 2 }
      racks := racks.editRow 2 fun r => { r with state := .suspect, suspectCount := 1 } } }

theorem met_silence : behind.peer? 1 = some { peer 0 .present (some 3) with missed := 2 }
    ∧ behind.shortCount ≤ ({ peer 0 .present (some 3) with missed := 2 } : Peer).missedNext
    ∧ (peer 0 .present (some 3)).missedNext < part.shortCount
    ∧ part.peer? 1 = some (peer 0 .present (some 3)) ∧ part.broadcastFromPeer fromAll
    ∧ part.prs.racks.row? 2 = some { members := [20, 21], state := .up, suspectCount := 0 } ∧ part.own ∉ [20, 21]
    ∧ (part.prs.racks.row? 1).map Rack.state = some .down ∧ (part.prs.racks.row? 9).map Rack.members = some []
    ∧ behind.prs.racks.row? 2 = some { members := [20, 21], state := .suspect, suspectCount := 1 }
    ∧ behind.prs.peers.rising = true ∧ behind.prs.racks.rising = true ∧ (∀ r ∈ behind.prs.peers, ¬ behind.dueLost r.2)
    ∧ ∀ r ∈ behind.prs.racks, r.2.state ≠ .down → behind.allLost r.2 = false := by
  simp only [Part.dueLost]; decide +kernel

/-- The part with a station as many checks behind as makes the next one its last: 22 is the only one of its rack. -/
def farBehind (station : Nat) : Part :=
  { part with prs := { part.prs with peers := peers.editRow station fun q => { q with missed := 9 } } }

theorem met_lost : (farBehind 21).peer? 21 = some { peer 2 .silent (some 9) with missed := 9 }
    ∧ (farBehind 22).peer? 22 = some { peer 3 .absent none with missed := 9 }
    ∧ (farBehind 21).dueLost { peer 2 .silent (some 9) with missed := 9 }
    ∧ (farBehind 22).dueLost { peer 3 .absent none with missed := 9 } ∧ ¬ part.dueLost (peer 2 .silent (some 9))
    ∧ (∀ r ∈ (farBehind 21).prs.peers, r.1 ≠ 21 → ¬ (farBehind 21).dueLost r.2)
    ∧ (∀ r ∈ (farBehind 22).prs.peers, r.1 ≠ 22 → ¬ (farBehind 22).dueLost r.2)
    ∧ (farBehind 21).independentOf 21 ∧ (farBehind 22).independentOf 22
    ∧ (farBehind 21).prs.racks.row? 2 = some { members := [20, 21], state := .up, suspectCount := 0 }
    ∧ (∃ other ∈ [20, 21], other ≠ 21 ∧ (farBehind 21).peerState? other ≠ some .lost)
    ∧ (farBehind 22).prs.racks.row? 3 = some { members := [22], state := .up, suspectCount := 0 }
    ∧ (∀ other ∈ [22], other ≠ 22 → (farBehind 22).peerState? other = some .lost) ∧ (farBehind 22).queueOpen
    ∧ (farBehind 21).prs.peers.rising = true ∧ (farBehind 22).prs.racks.rising = true := by
  simp only [Part.dueLost]; decide +kernel

theorem met_othersStand : (farBehind 21).othersStand 21 2 ∧ (farBehind 22).othersStand 22 3 := by
  simp only [Part.othersStand]; decide +kernel

theorem met_lanesLost : (withLane (laneUse .streaming)).ftu.rising = true
    ∧ (∀ r ∈ (withLane (laneUse .streaming)).ctx.contexts, ∀ v ∈ r.2.survivors.getD [], v.holder ≠ 1)
    ∧ (withLane (laneUse .streaming)).gatheringAt 0 1 = false
    ∧ ∀ f ∈ (withLane (laneUse .streaming)).sgp.control ++ (withLane (laneUse .streaming)).sgp.hold,
      f.body.isRequestOf 5 = false := by
  decide +kernel

/-- The header of a BEACON of a station. -/
def beaconOf (station : Byte) (epoch : Epoch) : FrameHeader :=
  { fromAll with sender := station, epoch := epoch }

theorem met_beacons : part.peer? (beaconOf 1 3).sender.toNat = some (peer 0 .present (some 3))
    ∧ part.independentOf (beaconOf 1 4).sender.toNat ∧ part.ctx.contexts.rising = true
    ∧ part.peer? (beaconOf 21 9).sender.toNat = some (peer 2 .silent (some 9))
    ∧ part.independentOf (beaconOf 21 10).sender.toNat ∧ (peer 2 .silent (some 9)).epoch ≠ some (beaconOf 21 10).epoch
    ∧ heldPass.peer? (beaconOf 12 5).sender.toNat = some (peer 1 .lost (some 4)) ∧ heldPass.rackState 1 = .down
    ∧ heldPass.scn.pass = .held
    ∧ part.peer? (beaconOf 22 0).sender.toNat = some (peer 3 .absent none)
    ∧ part.peer? (beaconOf 12 5).sender.toNat = some (peer 1 .lost (some 4)) ∧ part.rackState 1 = .down
    ∧ part.scn.pass ≠ .held ∧ (0x01 : Byte) = PeerStatus.running.code ∧ (beaconOf 1 3).sender.toNat ≠ part.own
    ∧ (beaconOf 1 3).target = 0xFF ∧ part.onSegment = true ∧ (0 : Byte).toNat = (peer 0 .present (some 3)).rack := by
  decide +kernel

/-! ## Frames -/

/-- A frame of station 1 as it comes from the segment. -/
def wireFrame (payload : List Byte) : WireFrame where
  destination := 0xFFFFFFFFFFFF
  source := 0x020000000000
  etherType := 0x88B6
  payload := payload

theorem met_checks : part.onSegment = true ∧ inSetup.onSegment = false ∧ part.takesFrame 0xFFFFFFFFFFFF 0x88B6 = true
    ∧ part.takesFrame 0xFFFFFFFFFFFF 0x0800 = false
    ∧ fromAll.sender.toNat ≠ part.own ∧ ({ fromAll with sender := 7 } : FrameHeader).sender.toNat = part.own
    ∧ part.peer? 60 = none ∧ part.peer? 22 = some (peer 3 .absent none)
    ∧ part.peer? fromAll.sender.toNat = some (peer 0 .present (some 3)) ∧ (FrameBody.rackdown 16).valid = false
    ∧ (FrameBody.chunk 0 0 []).lengthOk = false := by
  decide +kernel

/-- A control frame of the part. -/
def controlFrame (body : FrameBody) : ControlFrame where
  target := some 1
  epoch := 6
  body := body

/-- A part whose control queue holds a frame. -/
def withControl (p : Part) (body : FrameBody) : Part := { p with sgp := { p.sgp with control := [controlFrame body] } }

/-- The bank of a PULL of chunk 0 that has not been transmitted. -/
def pulled : Bank := .requested 0 1 none

/-- A CHUNK of slot 0 that waits. -/
def chunkFrame : ChunkFrame where
  target := 1
  epoch := 6
  tag := 0x0501
  chunk := 1
  slot := 0
  length := 8192

/-- The serving part with that CHUNK queued. -/
def withChunk : Part :=
  let p := withServe (serveA .staged [openerOne])
  { p with
    sgp := { p.sgp with data := [chunkFrame] }
    smc := { p.smc with slots := p.smc.slots.editRow 0 fun r => { r with queuedChunks := 1 } } }

theorem met_transmit : part.onSegment = true ∧ part.sgp.control = [] ∧ part.sgp.data = []
    ∧ laneOfTag 0x0501 = 5 ∧ fetchTag 5 ((withLane (laneUse (.opening none))).lane 5).useCount = 0x0501
    ∧ (withLane (laneUse (.opening none))).laneUse? 5 = some (laneUse (.opening none))
    ∧ ({ laneUse .streaming with bank0 := pulled } : LaneUse).bankOf 0 = .requested 0 1 none
    ∧ withChunk.slot? 0
      = some { class_ := .serve, owner := some (.serveEntry 0), queuedChunks := 1, right := .none_ } := by
  decide +kernel

/-- A part with a held frame and a held CHUNK. -/
def holding : Part :=
  { part with
    sgp := { part.sgp with hold := [controlFrame (.release 0x0501)] }
    svu := { part.svu with holdPlace := some chunkFrame } }

theorem met_held : holding.sgp.hold = [controlFrame (.release 0x0501)] ∧ holding.controlPlace = true
    ∧ holding.svu.holdPlace = some chunkFrame ∧ holding.sgp.data.length < 32
    ∧ ({ holding with
        sgp := { holding.sgp with control := List.replicate 63 (controlFrame (.release 0x0501)) } } : Part).controlPlace
      = false := by
  decide +kernel

/-- A part with frames held, and a number of other frames in its control queue. -/
def heldBehind (queued held : Nat) : Part :=
  { part with
    sgp := { part.sgp with
      control := List.replicate queued (controlFrame (.release 0x0501))
      hold := List.replicate held (controlFrame (.release 0x0501)) } }

/-- The part with the frames of its hold list that have a free place served. -/
def afterServing (p : Part) : Part :=
  { p with
    sgp := { p.sgp with
      control := p.sgp.control ++ p.sgp.hold.take (63 - (p.sgp.control.filter fun f => !f.body.isBeacon).length)
      hold := p.sgp.hold.drop (63 - (p.sgp.control.filter fun f => !f.body.isBeacon).length) } }

theorem met_postingHeld : (afterServing (heldBehind 60 2)).queueOpen ∧ (afterServing (heldBehind 62 2)).sgp.hold ≠ []
    ∧ (afterServing (heldBehind 62 2)).sgp.hold.length < 1024 ∧ 1024 ≤ (afterServing (heldBehind 63 1024)).sgp.hold.length
    ∧ (FrameBody.release 3).contestStripe? = none
    ∧ (FrameBody.claim 0x222 5 0 2).contestStripe? = some 0x222 ∧ (FrameBody.claim 0x222 5 0 2).isClaimOf 0x222 = true
    ∧ (∀ g ∈ (heldBehind 62 2).sgp.control, g.body.isClaimOf 0x222 = false)
    ∧ (heldBehind 30 40).readerTakes = true ∧ (∀ f ∈ (heldBehind 30 40).sgp.hold, f.body.isBeacon = false)
    ∧ (heldBehind 30 40).haltPart.sgp.hold ≠ [] := by
  decide +kernel

/-! ## The scanner and the repair queue -/

/-- A part whose pass walks. -/
def walking (p : Part) : Part := { p with scn := { p.scn with pass := .walking } }

/-- A part whose pass is BLOCKED at the first position, and has been told of a freed place. -/
def toldOfPlace (p : Part) : Part := { p with scn := { p.scn with pass := .blocked, placeFreed := true } }

/-- The part with stripe 12345h on the given stations. -/
def placedAt (p : Part) (placement : List Nat) : Part :=
  { p with hdt := p.hdt.editRow 0 fun r => { r with placement := placement } }

theorem met_scanner : part.scn.sweepDue = some 5000000 ∧ part.scn.pass = .idle
    ∧ ({ part with scn := { part.scn with pending := [(1, true)] } } : Part).scn.pending ≠ []
    ∧ part.scn.pending = [] ∧ part.scn.sweepRequest = false := by
  decide +kernel

theorem met_visits : (walking part).hlk.phase = .running ∧ (walking part).scn.pass = .walking
    ∧ (walking { part with hdt := [] }).hdt.row? (walking part).scn.cursor = none
    ∧ (walking part).hdt.row? 0 = some (recordA .quiet [] none) ∧ 0x12345 ∉ (walking part).scn.met
    ∧ (walking part).lossSet 0x12345 = [2] ∧ [2].length ≤ (walking part).parityOf 0x12345
    ∧ (walking part).firstRecord? 0x12345 = some (recordA .quiet [] none)
    ∧ (blockedAt part).scn.pass = .blocked ∧ (blockedAt part).scn.placeFreed = false
    ∧ (toldOfPlace part).scn.placeFreed = true ∧ (toldOfPlace part).hlk.phase = .running
    ∧ (walking { part with scn := { part.scn with met := [0x12345] } }).hdt.row? 0 = some (recordA .quiet [] none)
    ∧ 1024 ≤ ({ walking part with rq := List.replicate 1024 0 } : Part).rq.length := by
  decide +kernel

theorem met_visitsByStanding :
    (walking (withA (recordA .parked [2] (some (heard 20 none true))))).firstRecord? 0x12345
      = some (recordA .parked [2] (some (heard 20 none true)))
    ∧ part.now ≤ (heard 20 none true).heard + 3 * part.claimRepeat ∧ part.gone 20 = false ∧ part.gone 22 = true
    ∧ (walking (lostBeyond .parked)).firstRecord? 0x12345
      = some { recordA .parked [] none with placement := [12, 13, 12, 20] }
    ∧ (walking (lostBeyond .parked)).parityOf 0x12345 < ((walking (lostBeyond .parked)).lossSet 0x12345).length
    ∧ (walking queuedA).firstRecord? 0x12345 = some (recordA .queued [2] none)
    ∧ (placedAt (walking queuedA) [7, 1, 1, 20]).lossSet 0x12345 = []
    ∧ (placedAt (walking queuedA) [7, 12, 13, 20]).lossSet 0x12345 = [1, 2]
    ∧ (placedAt (walking queuedA) [12, 13, 12, 20]).lossSet 0x12345 = [0, 1, 2]
    ∧ (placedAt (walking (withA (recordA .unrecoverable [2] none))) [7, 1, 1, 20]).lossSet 0x12345 = []
    ∧ (walking (lostBeyond .unrecoverable)).lossSet 0x12345 = [0, 1, 2]
    ∧ (reportsFull (walking (lostBeyond .quiet))).reportPathFull = true := by
  decide +kernel

theorem met_visitsClaiming : (walking (withClaim (.owned 50000))).firstRecord? 0x12345 = some (recordA .claiming [2] none)
    ∧ (walking (withClaim (.owned 50000))).claimOf? 0x12345 = some (0, claimA (.owned 50000))
    ∧ (walking (withClaim (.owned 50000))).contextOf? 0x12345 = none
    ∧ (walking (withClaim (.owned 50000))).queueOpen ∧ (walking (withClaim (.owned 50000))).claimWaits 0x12345 = false
    ∧ (walking (withClaim (.owned 50000))).lossSet 0x12345 = [2]
    ∧ (placedAt (walking (withClaim (.owned 50000))) [12, 13, 12, 20]).lossSet 0x12345 = [0, 1, 2]
    ∧ (placedAt (walking (withClaim (.owned 50000))) [7, 1, 1, 20]).lossSet 0x12345 = []
    ∧ (placedAt (walking (withClaim (.owned 50000))) [7, 12, 13, 20]).lossSet 0x12345 = [1, 2]
    ∧ (claimA (.owned 50000)).announced = true ∧ (claimA (.yielded (heard 1 none true) 800 30000)).announced = false
    ∧ (placedAt (walking yieldedA) [12, 13, 12, 20]).lossSet 0x12345 = [0, 1, 2]
    ∧ (placedAt (walking yieldedA) [7, 1, 1, 20]).lossSet 0x12345 = [] := by
  decide +kernel

/-- The part with stripe 12345h at the head of the repair queue, under an outside claim. -/
def queuedUnder (o : Option HeardClaim) : Part := { withA (recordA .queued [2] o) with rq := [0x12345, 0x222] }

theorem met_dequeue : (queuedUnder none).rq = 0x12345 :: [0x222] ∧ (queuedUnder none).clt.entries.lowestFree? 256 = some 0
    ∧ (queuedUnder none).firstRecord? 0x12345 = some (recordA .queued [2] none)
    ∧ (queuedUnder none).lossSet 0x12345 = [2] ∧ (queuedUnder none).queueOpen
    ∧ (queuedUnder none).claimWaits 0x12345 = false
    ∧ (queuedUnder (some (heard 20 none true))).firstRecord? 0x12345
      = some (recordA .queued [2] (some (heard 20 none true)))
    ∧ part.now ≤ (heard 20 none true).heard + 3 * part.claimRepeat ∧ (heard 20 none true).station ≠ part.own
    ∧ part.gone 20 = false ∧ ({ part with rq := [0x222] } : Part).lossSet 0x222 = []
    ∧ (queuedUnder none).rqWait ≠ some 0x12345
    ∧ ({ queuedUnder none with rqWait := some 0x12345 } : Part).rqWait = some 0x12345
    ∧ (placedAt (queuedUnder none) [12, 13, 12, 20]).parityOf 0x12345
      < ((placedAt (queuedUnder none) [12, 13, 12, 20]).lossSet 0x12345).length
    ∧ (reportsFull (placedAt (queuedUnder none) [12, 13, 12, 20])).reportPathFull = true
    ∧ (heard 7 none true).station = part.own ∧ part.gone 22 = true
    ∧ ({ heard 20 none true with heard := 0 } : HeardClaim).heard + 3 * part.claimRepeat < 300001
    ∧ (claimRank 0x12345 7 0).toNat ≤ (0x03F42 : Rank).toNat := by
  decide +kernel

/-- The claim entries of 256 other stripes, every one YIELDED at the same moment, or at a later one below the fifth. -/
def yieldedEntries : Table ClaimEntry :=
  (List.range 256).map fun n =>
    (n, { stripe := BitVec.ofNat 48 (0x9000 + n), lost := [2], rank := 1,
          state := .yielded (heard 20 none true) (if n < 5 then 900 else 800) 30000 })

/-- The part with stripe 12345h at the head of the repair queue and no claim entry free. -/
def noFreeEntry (p : Part) : Part := { p with clt := { entries := yieldedEntries, owned := [] } }

theorem met_parking : (noFreeEntry (queuedUnder none)).clt.entries.lowestFree? 256 = none
    ∧ (noFreeEntry (queuedUnder none)).clt.entries.rising = true
    ∧ ((noFreeEntry (queuedUnder none)).clt.entries.row? 5).map ClaimEntry.state
      = some (.yielded (heard 20 none true) 800 30000)
    ∧ (∀ r ∈ yieldedEntries, 800 < (if r.1 < 5 then 900 else 800) ∨ 5 ≤ r.1)
    ∧ ((noFreeEntry (queuedUnder none)).clt.entries.row? 5).map ClaimEntry.stripe = some 0x9005
    ∧ (noFreeEntry (queuedUnder none)).lossSet 0x12345 = [2]
    ∧ (reportsFull (noFreeEntry (placedAt (queuedUnder none) [12, 13, 12, 20]))).reportPathFull = true
    ∧ (noFreeEntry (placedAt (queuedUnder none) [7, 1, 1, 20])).lossSet 0x12345 = [] := by
  decide +kernel

theorem met_noneToPark : ({ queuedUnder none with
      clt := {
        entries := (List.range 256).map fun n => (n, { claimA (.owned 50000) with stripe := BitVec.ofNat 48 n })
        owned := List.range 256 } } : Part).clt.entries.lowestFree? 256 = none
    ∧ (claimA (.owned 50000)).announced = true := by
  decide +kernel

/-! ## The claim table -/

theorem met_ranks : (7 : Nat) ≤ 63 ∧ (12 : Nat) ≠ 7 ∧ claimRank 0x12345 7 2 = 0x23F42 ∧ claimRank 0x12345 12 5 = 0x51349
    ∧ claimRank 0x12345 40 0 = 0x0836D := by
  decide +kernel

/-- A CLAIM for stripe 12345h, as station 1 sends it. -/
def arrival (rank : Rank) (settled : Bool) : HeardClaim where
  station := 1
  rank := some rank
  settled := settled
  heard := 1000

theorem met_claims : part.broadcastFromPeer fromAll ∧ part.geometryOf? 0x444 = none
    ∧ part.geometryOf? 0x12345 = some { k := 2, m := 2 } ∧ positionsOf 0x0004 = [2] ∧ positionsOf 0x0010 = [4]
    ∧ part.claimOf? 0x12345 = none ∧ (arrival 0 false).contender.precedes (heard 20 (some 9) false).contender = true
    ∧ (arrival 9 false).contender.precedes (heard 20 (some 9) false).contender = false
    ∧ (withClaim (.contending 30000)).claimOf? 0x12345 = some (0, claimA (.contending 30000))
    ∧ (withClaim (.yielded (heard 1 none true) 800 30000)).claimOf? 0x12345
      = some (0, claimA (.yielded (heard 1 none true) 800 30000))
    ∧ (withClaim (.contending 30000)).queueOpen ∧ (withClaim (.contending 30000)).claimWaits 0x12345 = false
    ∧ positionsOf 0x0004 ≠ [] ∧ (positionsOf 0x0004).length ≤ 2
    ∧ (∀ i ∈ positionsOf 0x0004, i < Geometry.width { k := 2, m := 2 }) ∧ part.hlk.phase = .running
    ∧ (0x03F41 : Rank).toNat < (claimA (.contending 30000)).rank.toNat
    ∧ (heard 20 none true).rank = none ∧ (heard 20 none true).station ≠ (arrival 0 true).station := by
  decide +kernel

theorem met_owners : (withClaim (.owned 50000)).claimOf? 0x12345 = some (0, claimA (.owned 50000))
    ∧ (withClaim (.owned 50000)).contextOf? 0x12345 = none
    ∧ (withContext (contextA .planning [] [])).contextOf? 0x12345 = some (0, contextA .planning [] [])
    ∧ (0x03F41 : Rank).toNat < (claimA (.owned 50000)).rank.toNat ∧ (withClaim (.owned 50000)).queueOpen
    ∧ (withClaim (.owned 50000)).claimWaits 0x12345 = false ∧ (withClaim (.owned 50000)).broadcastFromPeer fromAll
    ∧ (withContext (contextA .planning [] [])).broadcastFromPeer fromAll
    ∧ (withClaim (.owned 50000)).hlk.phase = .running ∧ (withClaim (.owned 50000)).geometryOf? 0x12345 = some { k := 2, m := 2 }
    ∧ positionsOf 0x0004 ≠ [] ∧ (positionsOf 0x0004).length ≤ 2
    ∧ ∀ i ∈ positionsOf 0x0004, i < Geometry.width { k := 2, m := 2 } := by
  decide +kernel

theorem met_withdrawals : (withClaim (.yielded (heard 1 none true) 800 30000)).broadcastFromPeer fromAll
    ∧ (withClaim (.yielded (heard 1 none true) 800 30000)).clt.entries.rising = true
    ∧ (withClaim (.yielded (heard 1 none true) 800 30000)).claimOf? 0x12345
      = some (0, claimA (.yielded (heard 1 none true) 800 30000))
    ∧ (withA (recordA .parked [2] (some (heard 1 none true)))).claimOf? 0x12345 = none
    ∧ (withA (recordA .parked [2] (some (heard 1 none true)))).firstRecord? 0x12345
      = some (recordA .parked [2] (some (heard 1 none true)))
    ∧ part.peer? 20 = some (peer 2 .present (some 9)) ∧ part.gone 20 = false ∧ part.gone 22 = true
    ∧ part.peer? 60 = none ∧ (20 : Byte).toNat ≤ 63 ∧ part.queueOpen
    ∧ (withClaim (.yielded (heard 20 none true) 800 30000)).claimOf? 0x12345
      = some (0, claimA (.yielded (heard 20 none true) 800 30000))
    ∧ (heard 20 none true).station ≠ fromAll.sender.toNat ∧ (withClaim (.contending 30000)).broadcastFromPeer fromAll
    ∧ (claimA (.contending 30000)).announced = true
    ∧ (withA (recordA .parked [2] (some (heard 20 none true)))).firstRecord? 0x12345
      = some (recordA .parked [2] (some (heard 20 none true))) := by
  decide +kernel

/-- The part after station 1 has rebuilt position 2. -/
def rebuiltByOne (p : Part) : Part :=
  { p with hdt := [(0, { recordA .claiming [2] none with placement := [7, 1, 1, 20] }), (1, recordB)] }

theorem met_judged : (rebuiltByOne (withClaim (.yielded (heard 1 none true) 800 30000))).lossSet 0x12345 = []
    ∧ positionsOf 0x0005 = [0, 2] ∧ part.holds 0x12345 0 = true
    ∧ (withClaim (.yielded (heard 1 none true) 800 30000)).lossSet 0x12345 = [2]
    ∧ (withClaim (.yielded (heard 1 none true) 800 30000)).parityOf 0x12345 = 2
    ∧ (withClaim (.yielded (heard 1 none true) 800 30000)).claimWaits 0x12345 = false
    ∧ (inPhase .halted part).broadcastFromPeer fromAll := by
  decide +kernel

theorem met_judgedMore : (placedAt yieldedA [7, 12, 1, 20]).lossSet 0x12345 = [1]
    ∧ (placedAt yieldedA [12, 13, 1, 12]).lossSet 0x12345 = [0, 1, 3] ∧ yieldedA.contextOf? 0x12345 = none
    ∧ yieldedA.geometryOf? 0x12345 = some { k := 2, m := 2 } ∧ yieldedA.reportPathFull = false
    ∧ (reportsFull yieldedA).reportPathFull = true
    ∧ (claimA (.owned 50000)).yieldedTo fromAll.sender.toNat = false
    ∧ (placedAt (withClaim (.owned 50000)) [7, 1, 12, 20]).lossSet 0x12345 = (claimA (.owned 50000)).lost
    ∧ (placedAt (withClaim (.owned 50000)) [7, 12, 1, 20]).lossSet 0x12345 = [1]
    ∧ (placedAt (withClaim (.owned 50000)) [7, 1, 1, 20]).lossSet 0x12345 = [] := by
  decide +kernel

/-- The part under a standing of stripe 12345h, in a placement, as another station's WITHDRAW finds it. -/
def standingAt (standing : Standing) (outside : Option HeardClaim) (placement : List Nat) : Part :=
  placedAt (withA (recordA standing [2] outside)) placement

theorem met_evaluated : (standingAt .quiet none [7, 1, 12, 20]).claimOf? 0x12345 = none
    ∧ (standingAt .quiet none [7, 1, 12, 20]).firstRecord? 0x12345 = some (recordA .quiet [2] none)
    ∧ (standingAt .quiet none [7, 1, 12, 20]).lossSet 0x12345 = [2]
    ∧ (standingAt .unrecoverable none [7, 1, 1, 20]).lossSet 0x12345 = []
    ∧ (standingAt .queued none [12, 13, 12, 20]).lossSet 0x12345 = [0, 1, 2]
    ∧ (standingAt .parked none [7, 1, 12, 20]).lossSet 0x12345 = [2]
    ∧ (standingAt .quiet none [7, 1, 12, 20]).parityOf 0x12345 = 2
    ∧ (standingAt .quiet none [7, 1, 12, 20]).rq.length < 1024
    ∧ ({ standingAt .quiet none [7, 1, 12, 20] with rq := List.replicate 1024 0x222 } : Part).rq.length = 1024
    ∧ (standingAt .queued none [12, 13, 12, 20]).reportPathFull = false
    ∧ (reportsFull (standingAt .queued none [12, 13, 12, 20])).reportPathFull = true
    ∧ (standingAt .quiet none [7, 1, 12, 20]).broadcastFromPeer fromAll := by
  decide +kernel

theorem met_rivals : part.rivalStands (some (heard 20 none true)) ∧ ¬ part.rivalStands none
    ∧ ¬ part.rivalStands (some (heard 22 none true)) :=
  ⟨⟨heard 20 none true, rfl, by decide +kernel⟩, fun ⟨_, h, _⟩ => by simp at h, fun h => by
    obtain ⟨_, h, -, -, gone⟩ := h
    cases h
    exact absurd gone (by decide +kernel)⟩

theorem met_lossChanges : (placedAt yieldedA [7, 1, 1, 20]).lossSet 0x12345 = []
    ∧ (placedAt yieldedA [7, 1, 1, 20]).claimOf? 0x12345 = some (0, claimA (.yielded (heard 1 none true) 800 30000))
    ∧ (placedAt yieldedA [7, 1, 1, 20]).contextOf? 0x12345 = none
    ∧ (placedAt yieldedA [12, 13, 12, 20]).parityOf 0x12345 < ((placedAt yieldedA [12, 13, 12, 20]).lossSet 0x12345).length
    ∧ (placedAt (withClaim (.owned 50000)) [12, 13, 12, 20]).lossSet 0x12345 = [0, 1, 2]
    ∧ (placedAt (withClaim (.owned 50000)) [7, 1, 1, 20]).claimWaits 0x12345 = false
    ∧ (placedAt (withClaim (.owned 50000)) [7, 12, 13, 20]).lossSet 0x12345 ≠ (claimA (.owned 50000)).lost
    ∧ (claimA (.contending 30000)).yieldedTo fromAll.sender.toNat = false ∧ (claimA (.contending 30000)).announced = true
    ∧ (reportsFull (placedAt yieldedA [12, 13, 12, 20])).reportPathFull = true := by
  decide +kernel

theorem met_claimTimers : (withClaim (.contending 30000)).clt.entries.row? 0 = some (claimA (.contending 30000))
    ∧ (withClaim (.owned 30000)).clt.entries.row? 0 = some (claimA (.owned 30000))
    ∧ (withClaim (.yielded (heard 1 none true) 800 30000)).clt.entries.row? 0
      = some (claimA (.yielded (heard 1 none true) 800 30000))
    ∧ (withClaim (.owned 30000)).queueOpen ∧ (withClaim (.owned 30000)).claimWaits 0x12345 = false := by
  decide +kernel

/-! ## The serve unit -/

theorem met_opens : part.fromPeer fromOne ∧ (inPhase .halted part).fromPeer fromOne ∧ part.queueOpen
    ∧ (∀ r ∈ (withServe (serveA .staged [])).svu.entries, r.2.hasPair fromOne.sender.toNat 0x0501 = false)
    ∧ part.recordOf? 0x12345 3 = none ∧ part.recordOf? 0x12345 (0 : Byte).toNat = some (0, recordA .quiet [] none)
    ∧ (withServe (serveA .staged [])).serveOf? 0x12345 0 = some (0, serveA .staged [])
    ∧ (withServe (serveA .staging [])).serveOf? 0x12345 0 = some (0, serveA .staging [])
    ∧ (withServe (serveA (.failed .hostFailed) [])).serveOf? 0x12345 0 = some (0, serveA (.failed .hostFailed) [])
    ∧ (serveA .staged (List.replicate 16 openerOne)).openers.length = 16
    ∧ ({ part with
        smc := { part.smc with slots := (List.range 224).map fun j => (j, slotA) } } : Part).freeSlots = []
    ∧ part.serveOf? 0x12345 0 = none ∧ part.evictables = [] := by
  decide +kernel

/-- The serving part with a second entry, of stripe 222h on slot 1, that has the opener of station 1. -/
def servedElsewhere (e : ServeEntry) : Part :=
  { withServe e with
    svu := { part.svu with
      entries := [(0, e), (1, { serveA .staged [openerOne] with stripe := 0x222, position := 1, slot := 1 })] } }

theorem met_opensAgain : (withServe (serveA .staged [openerOne])).serveOf? 0x12345 0
      = some (0, serveA .staged [openerOne])
    ∧ (serveA .staged [openerOne]).hasPair fromOne.sender.toNat 0x0501 = true
    ∧ (serveA .staged (List.replicate 16 openerOne)).hasPair fromOne.sender.toNat 0x0501 = true
    ∧ (withServe (serveA .staging [openerOne])).serveOf? 0x12345 0 = some (0, serveA .staging [openerOne])
    ∧ (withServe (serveA (.failed .hostFailed) [openerOne, .remote 20 0 none 0])).serveOf? 0x12345 0
      = some (0, serveA (.failed .hostFailed) [openerOne, .remote 20 0 none 0])
    ∧ ((serveA (.failed .hostFailed) [openerOne, .remote 20 0 none 0]).openers.filter fun o => !o.isPair 1 0x0501) ≠ []
    ∧ (∀ k ∈ (withServe (serveA .staged [openerOne])).svu.entries, k.1 ≠ 0 →
      k.2.hasPair fromOne.sender.toNat 0x0501 = false)
    ∧ (servedElsewhere (serveA .staged [])).serveOf? 0x12345 0 = some (0, serveA .staged [])
    ∧ (servedElsewhere (serveA .staging [])).serveOf? 0x12345 0 = some (0, serveA .staging [])
    ∧ (serveA .staged []).hasPair fromOne.sender.toNat 0x0501 = false
    ∧ (∃ k ∈ (servedElsewhere (serveA .staged [])).svu.entries, k.2.hasPair fromOne.sender.toNat 0x0501 = true)
    ∧ (∀ k ∈ (servedElsewhere (serveA .staged [])).svu.entries, k.2.hasPair fromOne.sender.toNat 0x0501 = true →
      k.2.state = .staging ∨ k.2.state = .staged)
    ∧ (servedElsewhere (serveA .staged [])).svu.entries.rising = true
    ∧ (servedElsewhere (serveA .staged (List.replicate 16 (.remote 20 0 none 0)))).serveOf? 0x12345 0
      = some (0, serveA .staged (List.replicate 16 (.remote 20 0 none 0))) := by
  decide +kernel

/-- A serving part whose STAGE request waits for the report path. -/
def unrequested : Part := withServe { serveA .staging [] with requested := false }

theorem met_stageRequest : part.freeSlots.head? = some 0 ∧ part.svu.entries.lowestFree? 256 = some 0
    ∧ part.reportPathFull = false ∧ unrequested.unrequested? = some (0, { serveA .staging [] with requested := false })
    ∧ unrequested.slot? 0 = some { class_ := .serve, owner := some (.serveEntry 0), queuedChunks := 0, right := .none_ }
    ∧ (reportsFull unrequested).reportPathFull = true := by
  decide +kernel

theorem met_pulls : (inPhase .halted part).fromPeer fromOne ∧ part.entryOfPair? 1 0x0501 = none
    ∧ (withServe (serveA .staged [openerOne])).entryOfPair? 1 0x0501 = some (0, serveA .staged [openerOne])
    ∧ (withServe (serveA .staged [openerOne])).serve? 0 = some (serveA .staged [openerOne])
    ∧ (withServe (serveA .staging [openerOne])).entryOfPair? 1 0x0501 = some (0, serveA .staging [openerOne])
    ∧ ((serveA (.failed .dropped) [openerOne, .remote 20 0 none 0]).openers.filter fun o => !o.isPair 1 0x0501) ≠ []
    ∧ chunkCountOf 16384 = 2 ∧ holding.svu.holdPlace ≠ none ∧ part.sgp.data.length < 32 := by
  decide +kernel

theorem met_openersLeave : (withServe (serveA .staged [openerOne])).svu.entries.rising = true
    ∧ (∀ r ∈ (withServe (serveA .staged [openerOne])).svu.entries, r.2.state = .staging ∨ r.2.state = .staged)
    ∧ (withServe (serveA .staged [openerOne])).serve? 0 = some (serveA .staged [openerOne])
    ∧ (serveA .staged [openerOne]).lastActivity? 1 0x0501 = some 700
    ∧ (withServe (serveA .staged [openerOne])).fromPeer fromOne := by
  decide +kernel

/-- The internal opener of context 0 on position 0. -/
def openerA : InternalOpener where
  context := 0
  generation := 1
  stripe := 0x12345
  position := 0
  nextChunk := 0
  runningDigest := digestStart
  ended := .open_

/-- A part with that opener waiting. -/
def waitingOpener (p : Part) : Part := { p with svu := { p.svu with waiting := [openerA] } }

theorem met_waiting : (waitingOpener part).svu.waiting = [openerA] ∧ part.gatheringAt 0 1 = false
    ∧ (waitingOpener { part with hdt := [] }).recordOf? 0x12345 0 = none
    ∧ (waitingOpener (withServe (serveA .staged []))).serveOf? 0x12345 0 = some (0, serveA .staged [])
    ∧ (waitingOpener (withServe (serveA .staging []))).serveOf? 0x12345 0 = some (0, serveA .staging [])
    ∧ (∀ r ∈ (withServe (serveA .staged [])).svu.entries, ∀ o ∈ r.2.openers, o.isInternalOf 0 = false)
    ∧ part.svu.combineMarks = [] ∧ part.combineDepth < 95 ∧ 0 < (serveA .staged []).length := by
  decide +kernel

/-! ## The fetch unit -/

theorem met_lane : (withLane (laneUse (.opening none))).fromPeer fromOne
    ∧ (withLane (laneUse (.opening none))).laneUsed fromOne 0x0501 5 (laneUse (.opening none))
    ∧ (laneUse (.opening none)).opening = true ∧ 2 ≤ chunkCountOf 16384 ∧ part.cbe.warning = false ∧ part.roomFor 2
    ∧ part.gatheringAt 0 1 = false ∧ (∀ f ∈ part.sgp.control, f.body.isRequestOf 5 = false)
    ∧ (withLane (laneUse .streaming)).laneUsed fromOne 0x0501 5 (laneUse .streaming)
    ∧ (laneUse .streaming).active = true := by
  decide +kernel

/-- A lane of one chunk, or of two with FULL banks kept at a re-open, as the READY takes it. -/
def oneChunk : LaneUse := { laneUse .streaming with length := 4096 }

def keptFirst : LaneUse := { laneUse .streaming with bank0 := .full 0 [5], nextRequest := 1, reOpens := 1 }

def keptBoth : LaneUse := { keptFirst with bank1 := .full 1 [6], nextRequest := 2 }

theorem met_readies : oneChunk.windowOpen 2 ∧ ¬ oneChunk.pulled.windowOpen 2 ∧ (laneUse .streaming).windowOpen 1
    ∧ ¬ (laneUse .streaming).pulled.windowOpen 1 ∧ (laneUse .streaming).pulled.windowOpen 2
    ∧ keptFirst.windowOpen 2 ∧ ¬ keptFirst.pulled.windowOpen 2 ∧ ¬ keptBoth.windowOpen 2
    ∧ (laneUse .streaming).opening = false ∧ ({ keptBoth with state := .opening none } : LaneUse).opening = true
    ∧ (withLane { keptBoth with state := .opening none }).laneUsed fromOne 0x0501 5 { keptBoth with state := .opening none }
    ∧ part.roomFor 2 ∧ laneOfTag 0x0577 ≤ 127 := by
  decide +kernel

/-- R106: no lane takes a frame whose tag names an IDLE lane, or a use that has ended. -/
theorem met_noLaneFor : part.noLaneFor fromOne 0x0501 ∧ (withLane (laneUse .streaming)).noLaneFor fromOne 0x0577 := by
  have idle : part.laneUse? (laneOfTag 0x0501) = none := by decide +kernel
  have ended : fetchTag (laneOfTag 0x0577) ((withLane (laneUse .streaming)).lane (laneOfTag 0x0577)).useCount ≠ 0x0577 := by
    decide +kernel
  exact ⟨⟨by decide, fun u hu => absurd (idle.symm.trans hu) (by simp)⟩, ⟨by decide, fun u _ tag => absurd tag ended⟩⟩

theorem met_rePlan : (withContextLane (contextA .gathering [lostEntry (some 0) .ready .none_ none] [5])
        (laneUse .streaming)).laneUsed fromOne 0x0501 5 (laneUse .streaming)
    ∧ (withContextLane (contextA .gathering [lostEntry (some 0) .ready .none_ none] [5]) (laneUse .streaming)).context? 0
      = some (contextA .gathering [lostEntry (some 0) .ready .none_ none] [5])
    ∧ (withContextLane (contextA .gathering [lostEntry (some 0) .ready .none_ none] [5])
        (laneUse .streaming)).generation 0 = 1
    ∧ (withContextLane (contextA .gathering [lostEntry (some 0) .ready .none_ none] [5]) (laneUse .streaming)).fromPeer
        fromOne
    ∧ (laneUse .streaming).active = true ∧ (contextA .gathering [] []).rePlans < 8 := by
  decide +kernel

/-- The part at a visit of its stripe, whose context has a lost list of position 2 and the given others. -/
def visiting (placement : List Nat) (state : ContextState) (others : List LostEntry) : Part :=
  placedAt (walking (withContext (contextA state (others ++ [lostEntry (some 0) .ready .none_ none]) []))) placement

/-- A lost-list entry of position 1, on slot 1. -/
def firstEntry (fill : FillState) : LostEntry := { lostEntry (some 1) fill .none_ none with position := 1 }

theorem met_growth : (visiting [7, 12, 13, 20] .gathering []).firstRecord? 0x12345
      = some { recordA .claiming [2] none with placement := [7, 12, 13, 20] }
    ∧ (visiting [7, 12, 13, 20] .gathering []).lossSet 0x12345 = [1, 2]
    ∧ [1, 2].length ≤ (visiting [7, 12, 13, 20] .gathering []).parityOf 0x12345
    ∧ (visiting [7, 12, 13, 20] .gathering []).contextOf? 0x12345
      = some (0, contextA .gathering [lostEntry (some 0) .ready .none_ none] [])
    ∧ (contextA .gathering [lostEntry (some 0) .ready .none_ none] []).enabledPositions = [2]
    ∧ (visiting [7, 12, 13, 20] .admitting []).contextOf? 0x12345
      = some (0, contextA .admitting [lostEntry (some 0) .ready .none_ none] [])
    ∧ (visiting [7, 12, 13, 20] .verifying []).contextOf? 0x12345
      = some (0, contextA .verifying [lostEntry (some 0) .ready .none_ none] [])
    ∧ (visiting [7, 12, 13, 20] .gathering []).claimOf? 0x12345 = some (0, claimA (.owned 50000)) := by
  decide +kernel

theorem met_shrink : (visiting [7, 12, 1, 20] .gathering [firstEntry .ready]).lossSet 0x12345 = [1]
    ∧ (contextA .gathering [firstEntry .ready, lostEntry (some 0) .ready .none_ none] []).enabledPositions = [1, 2]
    ∧ ([firstEntry .ready, lostEntry (some 0) .ready .none_ none].map LostEntry.position).Nodup
    ∧ (visiting [7, 12, 1, 20] .admitting [firstEntry .filling]).contextOf? 0x12345
      = some (0, contextA .admitting [firstEntry .filling, lostEntry (some 0) .ready .none_ none] [])
    ∧ (firstEntry .filling).fill ≠ .ready ∧ (firstEntry .ready).fill = .ready := by
  decide +kernel

/-- A chunk of zeros. -/
def zeros : List Byte := List.replicate 8192 0

/-- The part with lane 5 in a use and 95 combine requests waiting. -/
def nearWarning (u : LaneUse) : Part :=
  { withLane u with
    cbe := { part.cbe with
      queue := List.replicate 95 { context := 1, generation := 1, survivor := 0, chunk := 0, source := .internal } } }

theorem met_chunks : (withLane { laneUse .streaming with bank0 := pulled }).laneUsed fromOne 0x0501 5
        { laneUse .streaming with bank0 := pulled }
    ∧ (({ laneUse .streaming with bank0 := pulled } : LaneUse).bankOf 0).requestedFor 0 = true
    ∧ zeros.length = chunkLength 16384 0
    ∧ ((withLane { laneUse .streaming with bank0 := pulled }).lane 5).outstanding = false ∧ part.combineDepth ≠ 95
    ∧ (nearWarning { laneUse .streaming with bank0 := pulled }).combineDepth = 95
    ∧ (nearWarning { laneUse .streaming with bank0 := pulled }).cbe.warning = false
    ∧ (nearWarning { laneUse .streaming with bank0 := pulled }).laneUsed fromOne 0x0501 5
      { laneUse .streaming with bank0 := pulled } := by
  decide +kernel

/-- R143: the CHUNK whose request makes the depth 96 raises the warning and sets WARN. -/
theorem test_warningRaised : Leads (.chunk fromOne 0x0501 0 zeros)
    ⟨[], nearWarning { laneUse .streaming with bank0 := pulled }⟩ fun q =>
      q.combineDepth = 96 ∧ q.cbe.warning = true ∧ q.hlk.causeFlags = 0x04 :=
  ⟨_, rfl, rfl, by decide +kernel⟩

theorem met_laneTimers : (withLane (laneUse (.opening (some 5000)))).laneUse? 5 = some (laneUse (.opening (some 5000)))
    ∧ 0x0501 = fetchTag 5 ((withLane (laneUse (.opening (some 5000)))).lane 5).useCount ∧ part.queueOpen
    ∧ (laneUse .streaming).openTries < part.tries
    ∧ ({ laneUse .streaming with bank1 := .requested 1 3 (some 900) } : LaneUse).bankNumbered? 1
      = some (.requested 1 3 (some 900))
    ∧ part.tries ≤ 3 := by
  decide +kernel

/-! ## The contexts -/

theorem met_admission : (withClaim (.owned 50000)).someContextWaits = false
    ∧ (withClaim (.owned 50000)).candidate? = some (claimA (.owned 50000)) ∧ part.candidate? = none
    ∧ (withClaim (.owned 50000)).firstRecord? 0x12345 = some (recordA .claiming [2] none)
    ∧ (withClaim (.owned 50000)).geometryOf? 0x12345 = some { k := 2, m := 2 }
    ∧ (withClaim (.owned 50000)).ctx.contexts.lowestFree? 32 = some 0 ∧ [2].Nodup
    ∧ 2 ≤ (withClaim (.owned 50000)).poolLanes.length ∧ [2].length ≤ (withClaim (.owned 50000)).freeSlots.length
    ∧ part.slotsOf .accumulator + [2].length ≤ part.pool - part.serveReserve
    ∧ ({ withClaim (.owned 50000) with
        ftu := part.ftu.map fun r => (r.1, { r.2 with holder := some 9 }) } : Part).poolLanes.length < 2 := by
  decide +kernel

/-- A context that holds its plan and lacks its two lanes. -/
def lackingLanes : Context :=
  { contextA .planning [lostEntry (some 0) .filling .none_ none] [] with
    survivors := some [{ position := 1, holder := 1, source := .unassigned },
      { position := 3, holder := 20, source := .unassigned }]
    plan := some [[1, 1]] }

/-- The part with the fill of slot 0 in progress. -/
def filling (x : Context) : Part :=
  { withContext x with
    smc := { (withContext x).smc with fill := some { context := 0, generation := 1, slot := 0 } } }

theorem met_fills : (withContext lackingLanes).ctx.contexts = [(0, lackingLanes)] ∧ lackingLanes.lacking = []
    ∧ lackingLanes.lanesLacking = 2 ∧ lackingLanes.allReady = false ∧ 2 ≤ (withContext lackingLanes).poolLanes.length
    ∧ part.slotHeld 0 = false ∧ (filling (contextA .admitting [lostEntry (some 0) .filling .none_ none] [])).slot? 0 = some slotA
    ∧ slotA.owner ≠ none
    ∧ (filling (contextA .admitting [lostEntry (some 0) .filling .none_ none] [])).generation 0 = 1 := by
  decide +kernel

/-- Two contexts that lack two lanes each, with the free lanes given. -/
def twoWaiting (free : Nat) : Part :=
  { withContext lackingLanes with
    ctx := { contexts := [(1, lackingLanes), (4, { lackingLanes with stripe := 0x222 })],
             generations := part.ctx.generations }
    ftu := part.ftu.map fun r => if r.1 < free then r else (r.1, { r.2 with holder := some 31 }) }

theorem met_waitingContexts : (twoWaiting 3).ctx.contexts.rising = true ∧ (twoWaiting 3).ftu.rising = true
    ∧ (∀ r ∈ (twoWaiting 3).ctx.contexts, r.2.pendingOutcome = none →
      r.2.lacking = [] ∧ (0 < r.2.lanesLacking → r.2.allReady = false))
    ∧ lanesServed (twoWaiting 3).ctx.contexts (twoWaiting 3).poolLanes = [(1, [0, 1])]
    ∧ lanesServed (twoWaiting 4).ctx.contexts (twoWaiting 4).poolLanes = [(1, [0, 1]), (4, [2, 3])] := by
  decide +kernel

theorem met_cannotServe : (∀ r ∈ (twoWaiting 1).ctx.contexts, r.2.waits = false ∨ (twoWaiting 1).cannotServe r.2)
    ∧ ∃ r ∈ (twoWaiting 1).ctx.contexts, r.2.waits = true := by
  simp only [Part.cannotServe]; decide +kernel

/-- A context that lacks two slots and two lanes. -/
def lackingSlots : Context :=
  { lackingLanes with lostList := [LostEntry.fresh 0, lostEntry (some 0) .ready .none_ none, LostEntry.fresh 3] }

theorem met_lackingSlots : (withContext lackingSlots).context? 0 = some lackingSlots
    ∧ (withContext lackingSlots).ctx.contexts.rising = true
    ∧ (∀ r ∈ (withContext lackingSlots).ctx.contexts, r.1 = 0) ∧ lackingSlots.pendingOutcome = none
    ∧ lackingSlots.lacking = [0, 3] ∧ lackingSlots.lanesLacking ≤ (withContext lackingSlots).poolLanes.length
    ∧ lackingSlots.lacking.length ≤ (withContext lackingSlots).freeSlots.length
    ∧ (withContext lackingSlots).slotsOf .accumulator + lackingSlots.lacking.length
      ≤ (withContext lackingSlots).pool - (withContext lackingSlots).serveReserve := by
  decide +kernel

/-- The part with the plan job of context 0 at the head of its FIFO. -/
def planning (x : Context) : Part := { withContext x with plu := { queue := [0], job := none } }

/-- A context in PLANNING with its slot filled. -/
def planned : Context := contextA .planning [lostEntry (some 0) .ready .none_ none] []

theorem met_planStart : (planning planned).plu.queue = [0] ∧ (planning planned).context? 0 = some planned
    ∧ (planning planned).geometry? 0 = some { k := 2, m := 2 }
    ∧ (planning planned).candidates planned =
      [{ position := 0, holder := 7, source := .ownHoldings }, { position := 1, holder := 1, source := .unassigned },
        { position := 3, holder := 20, source := .unassigned }]
    ∧ ((planning planned).candidates { planned with unusable := [1, 3] }).length = 1
    ∧ ((planning planned).remotePositions { planned with unusable := [1, 3] } .silent).length = 0
    ∧ (planning planned).claimOf? 0x12345 = some (0, claimA (.owned 50000))
    ∧ (planning planned).reportPathFull = false ∧ (planning planned).queueOpen := by
  decide +kernel

/-- The part in which station 1 is SILENT, so that a survivor waits. -/
def oneSilent : Part :=
  { planning { planned with unusable := [3] } with
    prs := { part.prs with peers := peers.editRow 1 fun q => { q with state := .silent } } }

theorem met_planShort : (oneSilent.candidates { planned with unusable := [3] }).length < 2
    ∧ 2 ≤ (oneSilent.candidates { planned with unusable := [3] }).length
      + (oneSilent.remotePositions { planned with unusable := [3] } .silent).length := by
  decide +kernel

/-- A plan job of two remote survivors. -/
def planJob (void : Bool) : PlanJob where
  context := 0
  void := void
  geometry := { k := 2, m := 2 }
  survivors := [{ position := 1, holder := 1, source := .unassigned },
    { position := 3, holder := 20, source := .unassigned }]
  lost := [2]

/-- The part with that job in progress, and three lanes reserved for its context. -/
def planEnding (lanes : List Nat) (fill : FillState) (void : Bool) : Part :=
  { withContext (contextA .planning [lostEntry (some 0) fill .none_ none] lanes) with
    plu := { queue := [], job := some (planJob void) }
    ftu := part.ftu.map fun r => if r.1 < lanes.length then (r.1, { r.2 with holder := some 0 }) else r }

theorem met_planDone : (planEnding [0, 1, 2] .filling false).plu.job = some (planJob false)
    ∧ (planEnding [0, 1, 2] .filling false).context? 0
      = some (contextA .planning [lostEntry (some 0) .filling .none_ none] [0, 1, 2])
    ∧ ((planJob false).survivors.filter fun v => v.source != .ownHoldings).length = 2 ∧ [0, 1, 2].Pairwise (· < ·)
    ∧ (contextA .planning [lostEntry (some 0) .filling .none_ none] [0, 1, 2]).lacking = []
    ∧ (contextA .planning [lostEntry (some 0) .filling .none_ none] [0, 1, 2]).allReady = false
    ∧ (∀ v ∈ (planJob false).survivors, v.source ≠ .ownHoldings → part.gone v.holder = false)
    ∧ (contextA .planning [lostEntry (some 0) .ready .none_ none] [0, 1]).allReady = true
    ∧ (∀ v ∈ (planJob false).survivors, v.source = .unassigned ∧ part.gone v.holder = false)
    ∧ (∀ n ∈ [0, 1], ((planEnding [0, 1] .ready false).ftu.row? n).isSome = true)
    ∧ (planEnding [0, 1] .ready false).roomFor 2 := by
  decide +kernel

/-- A context whose plan-wait deadline is at 5 ms. -/
def waitingPlan (state : ContextState) : Context :=
  { contextA state [lostEntry (some 0) .ready .none_ none] [] with deadline := .due 5000 }

/-- A context whose outcome waits for its report. -/
def pendingContext (o : PendingOutcome) : Context :=
  { contextA .planWait [lostEntry none .ready .none_ none] [] with pendingOutcome := some o }

theorem met_outcomes : (withContext (waitingPlan .planWait)).context? 0 = some (waitingPlan .planWait)
    ∧ (withContext (waitingPlan .planning)).hdt.rising = true
    ∧ (reportsFull (withContext (waitingPlan .planWait))).reportPathFull = true
    ∧ (withContext (waitingPlan .planWait)).reportPathFull = false
    ∧ (withContext (pendingContext (.abandoned .planWaitLimit))).claimOf? 0x12345 = some (0, claimA (.owned 50000))
    ∧ (withContext (pendingContext (.verifyFail [2]))).context? 0 = some (pendingContext (.verifyFail [2]))
    ∧ (withContext (pendingContext (.verifyFail [2]))).queueOpen
    ∧ (withContext (pendingContext (.verifyFail [2]))).claimWaits 0x12345 = false := by
  decide +kernel

/-- A short context in VERIFYING: a fragment of 16 bytes, so that the kernel can compute its digest. -/
def verifying : Context :=
  { contextA .verifying [lostEntry (some 0) .ready .none_ none] [] with length := 16 }

/-- A verify job with a digest for position 2. -/
def verifyJob (void : Bool) : VerifyJob where
  context := 0
  generation := 1
  void := void
  slots := [0]
  digests := [(2, 0x11)]

/-- The part with that job in progress; its records expect a digest at position 2. -/
def verifyEnding (expected : Option Digest) (void : Bool) : Part :=
  { withContext verifying with
    vfu := { queue := [], job := some (verifyJob void) }
    hdt := [(0, { recordA .claiming [2] none with digests := [none, none, expected, none] })] }

theorem met_verify : (withContext verifying).vfu.job = none ∧ (withContext verifying).context? 0 = some verifying
    ∧ (verifyEnding none false).vfu.job = some (verifyJob false)
    ∧ ((verifyEnding none false).slot? 0).map Slot.owner = some slotA.owner ∧ slotA.owner ≠ none
    ∧ (verifyEnding none false).expectedDigest? 0x12345 2 = none
    ∧ (verifyEnding (some 0x12) false).expectedDigest? 0x12345 2 = some 0x12 ∧ (0x12 : Digest) ≠ 0x11
    ∧ (verifyEnding (some 0x12) false).claimOf? 0x12345 = some (0, claimA (.owned 50000))
    ∧ (verifyEnding (some 0x12) false).generation 0 = 1 ∧ (verifyEnding (some 0x12) false).queueOpen := by
  decide +kernel

/-- A context in DELIVERING with no request posted yet. -/
def storing : Context := contextA .delivering [{ lostEntry (some 0) .ready .none_ none with digest := some 0x11 }] []

theorem met_storeRequest : (withContext storing).context? 0 = some storing
    ∧ storing.nextStore? = some ({ lostEntry (some 0) .ready .none_ none with digest := some 0x11 }, 0)
    ∧ (withContext storing).reportPathFull = false ∧ (reportsFull (withContext storing)).reportPathFull = true
    ∧ (withContext storing).hlk.reportQueue = [] ∧ (withContext storing).ringPlace = true
    ∧ ({ withContext storing with
        hlk := { part.hlk with reportConsume := 1 } } : Part).ringPlace = false := by
  decide +kernel

/-- The counter passes over the tags that are outstanding. -/
theorem met_nextTag : nextTag [2, 3, 1] 1 4 ∧ nextTag [0xFFFF] 0xFFFF 1 :=
  ⟨⟨2, by decide, by decide, by decide⟩, ⟨0, by decide, by decide, by decide⟩⟩

/-! ## The combine engine -/

/-- The combine request of lane 5 for chunk 0. -/
def request : CombineRequest where
  context := 0
  generation := 1
  survivor := 1
  chunk := 0
  source := .lane 5 0x0501

/-- A gathering context with its plan. -/
def gathering : Context :=
  { contextA .gathering [lostEntry (some 0) .ready .none_ none] [5] with plan := some [[3, 2]] }

/-- The use of a lane whose first bank is FULL. -/
def fullLane : LaneUse := { laneUse .streaming with bank0 := .full 0 [5], nextRequest := 2 }

/-- The part with that request at the head of the combine queue. -/
def combining : Part :=
  { withContextLane gathering fullLane with cbe := { queue := [request], operation := none, warning := false } }

/-- The part with the operation in progress. -/
def combineEnding : Part :=
  { combining with
    cbe := { queue := [], operation := some { request := request, operand := [5], targets := [(0, 2)] }, warning := false } }

theorem met_combineStart : combining.cbe.queue = [request] ∧ combining.context? 0 = some gathering
    ∧ combining.generation 0 = 1 ∧ combining.laneUse? 5 = some fullLane
    ∧ fetchTag 5 (combining.lane 5).useCount = 0x0501 ∧ fullLane.active = true ∧ fullLane.bankOf 0 = .full 0 [5]
    ∧ part.gatheringAt 0 1 = false ∧ part.laneUse? 5 = none
    ∧ ({ withServe (serveA .staged [.internal openerA]) with
        ctx := { contexts := [(0, gathering)], generations := part.ctx.generations.setRow 0 1 } } : Part).attachedOpener? 0
      = some (0, serveA .staged [.internal openerA], openerA) := by
  decide +kernel

theorem met_combineDone : combineEnding.cbe.operation = some { request := request, operand := [5], targets := [(0, 2)] }
    ∧ ([(0, (2 : Byte))].map Prod.fst).Nodup ∧ combineEnding.slot? 0 = some slotA ∧ slotA.owner ≠ none
    ∧ combineEnding.context? 0 = some gathering ∧ combineEnding.geometry? 0 = some { k := 2, m := 2 }
    ∧ combineEnding.laneUse? 5 = some fullLane ∧ fullLane.nextConsume + 1 < chunkCountOf fullLane.length
    ∧ chunkCountOf fullLane.length ≤ fullLane.nextRequest ∧ (fullLane.bankOf 1).fullFor 1 = false := by
  decide +kernel

/-! ## Lanes that fail -/

/-- The other lane of the gathering context, on station 20. -/
def otherLane : LaneUse := { laneUse .streaming with survivor := 0, position := 3, server := 20 }

/-- A context that gathers from stations 1 and 20. -/
def gatheringTwo : Context :=
  { contextA .gathering [lostEntry (some 0) .ready .none_ none] [3, 5] with
    survivors := some [{ position := 3, holder := 20, source := .lane 3 }, { position := 1, holder := 1, source := .lane 5 }]
    plan := some [[3, 2]] }

/-- The part with that context, or another of the number, and lane 5 in a use; a PULL of the lane waits. -/
def gatheringOn (x : Context) (u : LaneUse) : Part :=
  { withContext x with
    ftu := (part.ftu.setRow 5 { holder := some 0, useCount := 1, outstanding := false, use := some u }).setRow 3
      { holder := some 0, useCount := 1, outstanding := false, use := some otherLane }
    sgp := { part.sgp with control := [controlFrame (.pull 0x0501 1)] }
    svu := { part.svu with entries := [(0, serveA .staged [openerOne, .internal openerA])] } }

theorem met_canRePlan (u : LaneUse) : (gatheringOn gatheringTwo u).CanRePlan 0 1 gatheringTwo where
  inUse := rfl
  live := rfl
  gathers := rfl
  current := rfl
  granted := by decide +kernel
  slots := by decide +kernel
  lanes := by decide +kernel
  openers := fun r hr _ => by
    simp only [gatheringOn, List.mem_singleton] at hr
    subst hr; exact .inr rfl
  rising := ⟨by
    have numbers : (gatheringOn gatheringTwo u).ftu.map Prod.fst = List.range 128 := rfl
    rw [Table.rising, numbers]
    exact decide_eq_true List.pairwise_lt_range, rfl⟩
  room := ⟨rfl, show 1 + 3 ≤ 63 by decide⟩

/-- A lane in OPENING that has been told to wait 255 times; one that has re-opened twice; one at its last try. -/
def waitedOut : LaneUse := { laneUse (.opening none) with waitCount := 255 }

def reOpenedTwice : LaneUse := { laneUse .streaming with reOpens := 2 }

def lastTry : LaneUse := { laneUse (.opening (some 5000)) with openTries := 3 }

/-- A lane whose fragment is to end with another digest than the expected one. -/
def endingLane : LaneUse := { laneUse .streaming with bank0 := .full 0 [5], nextRequest := 1, length := 4096, digest := some 1 }

/-- The combine operation of that lane's last chunk in progress. -/
def lastCombine : Part :=
  { gatheringOn gatheringTwo endingLane with
    cbe := { queue := [], operation := some { request := request, operand := [5], targets := [(0, 2)] }, warning := false } }

theorem met_laneFails : (gatheringOn gatheringTwo (laneUse .streaming)).laneFailsBy (.refuse fromOne 0x0501 0x03) 5
      (laneUse .streaming)
    ∧ (gatheringOn gatheringTwo reOpenedTwice).laneFailsBy (.refuse fromOne 0x0501 0x04) 5 reOpenedTwice
    ∧ (gatheringOn gatheringTwo (laneUse (.opening none))).laneFailsBy (.ready fromOne 0x0501 0 5 0) 5
      (laneUse (.opening none))
    ∧ (gatheringOn gatheringTwo { laneUse (.opening none) with digest := some 9 }).laneFailsBy
      (.ready fromOne 0x0501 1 16384 7) 5 { laneUse (.opening none) with digest := some 9 }
    ∧ (gatheringOn gatheringTwo waitedOut).laneFailsBy (.wait fromOne 0x0501 1 0) 5 waitedOut
    ∧ (gatheringOn gatheringTwo lastTry).laneFailsBy (.openReplyTimeout 5) 5 lastTry
    ∧ (gatheringOn gatheringTwo { laneUse .streaming with bank1 := .requested 1 3 (some 900) }).laneFailsBy
      (.pullReplyTimeout 5 1) 5 { laneUse .streaming with bank1 := .requested 1 3 (some 900) }
    ∧ lastCombine.laneFailsBy .combineDone 5 endingLane :=
  ⟨.inl ⟨fromOne, 0x0501, .damaged, by decide +kernel, by decide +kernel, rfl, by decide, rfl⟩,
    .inr (.inl ⟨fromOne, 0x0501, by decide +kernel, by decide +kernel, rfl, by decide, rfl⟩),
    .inr (.inr (.inl ⟨fromOne, 0x0501, 0, 5, 0, by decide +kernel, by decide +kernel, rfl, .inl (by decide), rfl⟩)),
    .inr (.inr (.inl ⟨fromOne, 0x0501, 1, 16384, 7, by decide +kernel, by decide +kernel, rfl,
      .inr ⟨rfl, 9, rfl, by decide⟩, rfl⟩)),
    .inr (.inr (.inr (.inl ⟨fromOne, 0x0501, 1, 0, by decide +kernel, by decide +kernel, ⟨none, rfl⟩, by decide, rfl⟩))),
    .inr (.inr (.inr (.inr (.inl ⟨by decide +kernel, ⟨5000, rfl⟩, by decide +kernel, rfl⟩)))),
    .inr (.inr (.inr (.inr (.inr (.inl ⟨by decide +kernel, rfl, 1, 1, 3, 900, rfl, by decide +kernel, rfl⟩))))),
    .inr (.inr (.inr (.inr (.inr (.inr ⟨by decide +kernel, rfl, rfl, rfl, _, 1, rfl, by decide +kernel, rfl, by decide +kernel,
      by decide +kernel, by decide +kernel, rfl, by decide +kernel⟩)))))⟩

theorem met_reOpen : (gatheringOn gatheringTwo (laneUse .streaming)).laneUsed fromOne 0x0501 5 (laneUse .streaming)
    ∧ (laneUse .streaming).reOpens < 2
    ∧ (({ laneUse .streaming with bank0 := .requested 0 1 (some 900) } : LaneUse).bankOf 0).fullFor 0 = false
    ∧ (({ laneUse .streaming with bank0 := .full 0 [5], bank1 := .requested 1 1 (some 900) } : LaneUse).bankOf 0).fullFor 0
      = true
    ∧ (({ laneUse .streaming with bank0 := .full 0 [5], bank1 := .requested 1 1 (some 900) } : LaneUse).bankOf 1).fullFor 1
      = false
    ∧ (gatheringOn gatheringTwo (laneUse .streaming)).queueOpen := by
  decide +kernel

/-- The context after eight re-plans. -/
def eightPlans : Context := { gatheringTwo with rePlans := 8 }

theorem met_ninth : (gatheringOn eightPlans (laneUse .streaming)).context? 0 = some eightPlans ∧ 8 ≤ eightPlans.rePlans
    ∧ eightPlans.state = .gathering ∧ (gatheringOn eightPlans (laneUse .streaming)).generation 0 = 1
    ∧ (gatheringOn eightPlans (laneUse .streaming)).hdt.rising = true
    ∧ (gatheringOn eightPlans (laneUse .streaming)).claimOf? 0x12345 = some (0, claimA (.owned 50000))
    ∧ (gatheringOn eightPlans (laneUse .streaming)).roomFor 4
    ∧ (reportsFull (gatheringOn eightPlans (laneUse .streaming))).reportPathFull = true := by
  decide +kernel

/-! ## Requests to the host, openers that wait or fail, and the end of an operation -/

/-- A slot of a serve entry. -/
def serveSlotOf (entry : Nat) : Slot where
  class_ := .serve
  owner := some (.serveEntry entry)
  queuedChunks := 0
  right := .none_

/-- The part without a free slot, with two entries to evict, the second of which has been used less lately. -/
def noFreeSlot : Part :=
  { part with
    svu := { part.svu with
      entries := [(2, { serveA .staged [] with stripe := 0x98, slot := 7 }),
        (5, { serveA .staged [] with stripe := 0x99, slot := 9, lastUse := 20 })] }
    smc := { part.smc with slots := (List.range 224).map fun j => (j, serveSlotOf 5) } }

theorem met_entryPlace : part.entryPlace part 0 0
    ∧ noFreeSlot.entryPlace
      { noFreeSlot with svu := { noFreeSlot.svu with entries := noFreeSlot.svu.entries.dropRow 5 } } 0 9
    ∧ noFreeSlot.recordOf? 0x12345 0 = some (0, recordA .quiet [] none) ∧ noFreeSlot.serveOf? 0x12345 0 = none :=
  ⟨.inl ⟨rfl, by decide +kernel, by decide +kernel⟩,
    .inr ⟨.inr (by decide +kernel), by decide +kernel, by decide +kernel,
      (5, { serveA .staged [] with stripe := 0x99, slot := 9, lastUse := 20 }), by decide +kernel, rfl,
      by decide +kernel, rfl, by decide +kernel⟩, by decide +kernel, by decide +kernel⟩

theorem met_stageTag : nextTag (part.hlk.stageTags ++ [part.hlk.tagCounter] ++ part.hlk.storeTags) part.hlk.tagCounter 2
    ∧ part.hlk.reportQueue = [] ∧ part.ringPlace = true ∧ (reportsFull part).ringPlace = false
    ∧ (reportsFull part).reportPathFull = true ∧ unrequested.serve? 0 = some { serveA .staging [] with requested := false } :=
  ⟨⟨0, by decide +kernel, by decide +kernel, fun _ h => absurd h (Nat.not_lt_zero _)⟩, by decide +kernel⟩

/-- The opener of context 4 on a stripe without record. -/
def openerB : InternalOpener := { openerA with context := 4, generation := 2, stripe := 0x444 }

/-- The part that gathers with two openers waiting, that of its own context before another. -/
def twoOpeners (x : Context) (entries : Table ServeEntry) (hdt : Table HoldingRecord) : Part :=
  { gatheringOn x (laneUse .streaming) with
    hdt := hdt
    svu := { part.svu with entries := entries, waiting := [openerA, openerB] } }

/-- The table of that part. -/
def tableA : Table HoldingRecord := [(0, recordA .claiming [2] none), (1, recordB)]

theorem met_waitingFails : (twoOpeners gatheringTwo [] []).svu.waiting = [openerA, openerB]
    ∧ (twoOpeners gatheringTwo [] []).recordOf? 0x12345 0 = none
    ∧ (twoOpeners gatheringTwo [(0, serveA (.failed .hostFailed) [openerOne])] tableA).serveOf? 0x12345 0
      = some (0, serveA (.failed .hostFailed) [openerOne])
    ∧ (∀ j ∈ [openerB], j.context ≠ openerA.context)
    ∧ (twoOpeners gatheringTwo [] []).CanRePlan 0 1 gatheringTwo ∧ gatheringTwo.rePlans < 8
    ∧ (twoOpeners eightPlans [] tableA).gatheringAt 0 1 = true
    ∧ (twoOpeners eightPlans [] tableA).context? 0 = some eightPlans
    ∧ (twoOpeners eightPlans [] tableA).hdt.rising = true :=
  ⟨rfl, by decide +kernel, by decide +kernel, by decide +kernel,
    { met_canRePlan (laneUse .streaming) with openers := fun _ hr _ => by simp [twoOpeners] at hr }, by decide, by decide +kernel,
    by decide +kernel, by decide +kernel⟩

theorem met_waitingAttaches :
    (twoOpeners gatheringTwo [(0, serveA .staged [openerOne])] tableA).serveOf? 0x12345 0
      = some (0, serveA .staged [openerOne])
    ∧ (twoOpeners gatheringTwo [(0, serveA .staging [openerOne])] tableA).serveOf? 0x12345 0
      = some (0, serveA .staging [openerOne])
    ∧ (twoOpeners gatheringTwo [(0, serveA .staged (List.replicate 16 openerOne))] tableA).serveOf? 0x12345 0
      = some (0, serveA .staged (List.replicate 16 openerOne))
    ∧ (∀ r ∈ (twoOpeners gatheringTwo [(0, serveA .staged [openerOne])] tableA).svu.entries, ∀ o ∈ r.2.openers,
      o.isInternalOf 0 = false)
    ∧ 0 ∉ part.svu.combineMarks ∧ 0 ∈ ({ part.svu with combineMarks := [0] } : ServeUnit).combineMarks
    ∧ (twoOpeners gatheringTwo [] tableA).serveOf? 0x12345 0 = none
    ∧ (twoOpeners gatheringTwo [] tableA).recordOf? 0x12345 0 = some (0, recordA .claiming [2] none)
    ∧ (twoOpeners gatheringTwo [] tableA).svu.entries.lowestFree? 256 = some 0
    ∧ (twoOpeners gatheringTwo [] tableA).freeSlots.head? = some 1
    ∧ ({ twoOpeners gatheringTwo [] tableA with
        smc := { part.smc with slots := (List.range 224).map fun j => (j, slotA) } } : Part).freeSlots = []
    ∧ (twoOpeners gatheringTwo [] tableA).evictables = [] := by
  decide +kernel

/-- The part that gathers from its own fragment too, the serve entry of which has the internal opener. -/
def gatheringLocal (x : Context) (state : ServeState) (openers : List Opener) : Part :=
  { gatheringOn x (laneUse .streaming) with
    hlk := { part.hlk with stageTags := [9] }
    hdt := twoRecords.hdt
    svu := { part.svu with entries := [(0, { serveA state openers with tag := some 9 })] } }

theorem met_localFails :
    (gatheringLocal gatheringTwo .staging [.internal openerA, openerOne]).stagingOf? 9
      = some (0, { serveA .staging [.internal openerA, openerOne] with tag := some 9 })
    ∧ (serveA .staging [.internal openerA, openerOne]).internals = [openerA]
    ∧ (serveA .staging [.internal openerA]).internals = [openerA]
    ∧ (gatheringLocal gatheringTwo .staging [.internal openerA]).CanRePlan 0 1 gatheringTwo
    ∧ (gatheringLocal gatheringTwo .staged [.internal openerA, openerOne]).CanRePlan 0 1 gatheringTwo
    ∧ (gatheringLocal gatheringTwo .staged [.internal openerA, openerOne]).serveOf? 0x12345 0
      = some (0, { serveA .staged [.internal openerA, openerOne] with tag := some 9 })
    ∧ (gatheringLocal gatheringTwo .staged [.internal openerA]).readerTakes = true
    ∧ (gatheringLocal eightPlans .staging [.internal openerA]).gatheringAt 0 1 = true
    ∧ (gatheringLocal eightPlans .staging [.internal openerA]).hdt.rising = true
    ∧ (gatheringLocal (contextA .planning [] []) .staged [.internal openerA]).gatheringAt 0 1 = false
    ∧ openerA.nextChunk < chunkCountOf (serveA .staging []).length :=
  ⟨by decide +kernel, by decide, by decide,
    { met_canRePlan (laneUse .streaming) with
      openers := fun r hr _ => by
        simp only [gatheringLocal, List.mem_singleton] at hr
        subst hr; exact .inl rfl },
    { met_canRePlan (laneUse .streaming) with
      openers := fun r hr _ => by
        simp only [gatheringLocal, List.mem_singleton] at hr
        subst hr; exact .inr rfl },
    by decide +kernel, by decide +kernel, by decide +kernel, by decide +kernel, by decide +kernel, by decide⟩

/-- A context in PLANNING that holds two lanes, neither in use, with too few survivors left. -/
def holdingLanes (deadline : Deadline) (unusable : Positions) : Context :=
  { planned with reservation := [3, 5], deadline := deadline, unusable := unusable }

theorem met_planOutcomes : (planning (holdingLanes .absent [1, 3])).context? 0 = some (holdingLanes .absent [1, 3])
    ∧ ((planning (holdingLanes .absent [1, 3])).candidates (holdingLanes .absent [1, 3])).length
      + ((planning (holdingLanes .absent [1, 3])).remotePositions (holdingLanes .absent [1, 3]) .silent).length < 2
    ∧ (∀ lane ∈ (holdingLanes .absent [1, 3]).reservation,
      (planning (holdingLanes .absent [1, 3])).laneUse? lane = none)
    ∧ (planning (holdingLanes .absent [1, 3])).roomFor 4
    ∧ (reportsFull (planning (holdingLanes .absent [1, 3]))).reportPathFull = true
    ∧ (oneSilent.candidates (holdingLanes (.due 7000) [3])).length < 2
    ∧ 2 ≤ (oneSilent.candidates (holdingLanes (.due 7000) [3])).length
      + (oneSilent.remotePositions (holdingLanes (.due 7000) [3]) .silent).length
    ∧ (oneSilent.candidates (holdingLanes .passed [3])).length < 2
    ∧ 2 ≤ (oneSilent.candidates (holdingLanes .passed [3])).length
      + (oneSilent.remotePositions (holdingLanes .passed [3]) .silent).length := by
  decide +kernel

/-! ## Re-plans of other causes, and entry to GATHERING -/

/-- A context at its limit of re-plans, visited with a grown loss set. -/
def eightGrown (state : ContextState) : Context :=
  { contextA state [lostEntry (some 0) .ready .none_ none] [5] with rePlans := 8 }

/-- The part at that visit. -/
def visitingEight (state : ContextState) : Part := placedAt (walking (withContext (eightGrown state))) [7, 12, 13, 20]

/-- A PLANNING context that waits for the fill of a position that has come back, with a plan and lanes for it. -/
def shrinking (plan : Option (List (List Byte))) (lanes : List Nat) : Context :=
  { contextA .planning [firstEntry .ready, lostEntry (some 0) .filling .none_ none] lanes with
    survivors := some [{ position := 0, holder := 7, source := .ownHoldings },
      { position := 3, holder := 20, source := .unassigned }]
    plan := plan }

/-- The part at the visit that finds it back. -/
def visitingShrunk (x : Context) : Part := placedAt (walking (withContext x)) [7, 12, 1, 20]

theorem met_ninthGrowth : (visitingEight .planning).contextOf? 0x12345 = some (0, eightGrown .planning)
    ∧ (visitingEight .gathering).contextOf? 0x12345 = some (0, eightGrown .gathering)
    ∧ (visitingEight .planWait).context? 0 = some (eightGrown .planWait) ∧ 8 ≤ (eightGrown .planning).rePlans
    ∧ (visitingEight .planning).lossSet 0x12345 = [1, 2] ∧ (eightGrown .planning).enabledPositions = [2]
    ∧ (visitingEight .planning).claimOf? 0x12345 = some (0, claimA (.owned 50000))
    ∧ (visitingEight .planning).hdt.rising = true := by
  decide +kernel

theorem met_shrinkPlanning : (visitingShrunk (shrinking none [4])).lossSet 0x12345 = [1]
    ∧ (shrinking none [4]).enabledPositions = [1, 2] ∧ (shrinking (some [[1, 1]]) []).remotes.length = 1
    ∧ (visitingShrunk (shrinking (some [[1, 1]]) [4])).contextOf? 0x12345 = some (0, shrinking (some [[1, 1]]) [4])
    ∧ (∀ f ∈ (shrinking (some [[1, 1]]) [4]).lostList, f.enabled = true → f.position ∈ [1] → f.fill = .ready)
    ∧ ((visitingShrunk (shrinking (some [[1, 1]]) [4])).ftu.row? 4).isSome = true
    ∧ (visitingShrunk (shrinking (some [[1, 1]]) [4])).roomFor 1
    ∧ ((visitingShrunk (shrinking (some [[1, 1]]) [4])).recordOf? 0x12345 0).isSome = true
    ∧ (visitingShrunk (shrinking (some [[1, 1]]) [4])).serveOf? 0x12345 0 = none
    ∧ (visitingShrunk (shrinking (some [[1, 1]]) [4])).svu.entries.rising = true
    ∧ (visitingShrunk (shrinking (some [[1, 1]]) [4])).ListsSurvivors ((shrinking none [4]).survivors.getD [])
      (some { position := 0, holder := 7, source := .ownHoldings })
      [{ position := 3, holder := 20, source := .unassigned }] :=
  ⟨by decide +kernel, by decide +kernel, by decide, by decide +kernel, by decide, by decide +kernel, by decide +kernel,
    by decide +kernel, by decide +kernel, by decide +kernel,
    ⟨rfl, fun v h => by cases h; rfl, by decide +kernel⟩⟩

/-- The part with the given free lanes alone. -/
def freeOnly (p : Part) (free : List Nat) : Part :=
  { p with
    ftu := p.ftu.map fun r =>
      if r.2.holder = none ∧ r.1 ∉ free then (r.1, { r.2 with holder := some 31 }) else r }

/-- The part in which the holder of the second survivor, station 20, is LOST. -/
def holderLost (p : Part) : Part :=
  { p with prs := { p.prs with peers := p.prs.peers.editRow 20 fun q => { q with state := .lost } } }

/-- The context of a plan that ends, with its lanes. -/
def ending (lanes : List Nat) (fill : FillState) : Context := contextA .planning [lostEntry (some 0) fill .none_ none] lanes

theorem met_planLacks : (planEnding [0] .filling false).context? 0 = some (ending [0] .filling)
    ∧ (planEnding [0] .filling false).poolLanes.take (2 - [0].length) = [1]
    ∧ (freeOnly (planEnding [] .ready false) [7]).poolLanes = [7] ∧ (ending [0] .filling).allReady = false
    ∧ (∀ e ∈ (ending [0] .filling).lostList, e.lacksSlot = true → e.fill ≠ .ready)
    ∧ (planEnding [0] .filling false).ctx.contexts.rising = true
    ∧ (∀ r ∈ (planEnding [0] .filling false).ctx.contexts, r.1 ≠ 0 → r.2.waits = false) := by
  decide +kernel

theorem met_planLost : (∃ v ∈ (planJob false).survivors,
      v.source ≠ .ownHoldings ∧ (holderLost (planEnding [0, 1] .ready false)).gone v.holder = true)
    ∧ (ending [0, 1] .ready).rePlans < 8 ∧ (holderLost (planEnding [0, 1] .ready false)).hdt.rising = true
    ∧ (holderLost (planEnding [0, 1] .ready false)).PlainRePlan 0 (ending [0, 1] .ready) :=
  ⟨by decide +kernel, by decide, by decide +kernel,
    { inUse := by decide +kernel
      granted := by decide
      slots := by decide
      lanes := by decide
      openers := fun r hr _ => (nomatch hr)
      rising := ⟨by decide +kernel, by decide +kernel⟩
      room := by decide +kernel }⟩

/-- A context that lacks its fill, or a lane, alone. -/
def almost (lanes : List Nat) (fill : FillState) : Context := { lackingLanes with
  lostList := [lostEntry (some 0) fill .none_ none], reservation := lanes }

theorem met_gathersBy :
    (∃ base x, (planEnding [0, 1, 2] .ready false).gathersBy .planDone base 0 x (planJob false).survivors 2)
    ∧ (∃ base x, (planEnding [0] .ready false).gathersBy .planDone base 0 x (planJob false).survivors 2)
    ∧ (∃ base x, (filling (almost [3, 5] .filling)).gathersBy .fillDone base 0 x (planJob false).survivors 2)
    ∧ (∃ base x, (withContext (almost [3] .ready)).gathersBy .waitingContextServed base 0 x (planJob false).survivors 2)
    ∧ part.ListsSurvivors (planJob false).survivors none (planJob false).survivors
    ∧ part.ListsSurvivors
      ({ position := 0, holder := 7, source := .ownHoldings } :: (planJob false).survivors)
      (some { position := 0, holder := 7, source := .ownHoldings }) (planJob false).survivors :=
  ⟨⟨_, _, _, rfl, rfl, rfl, .inl ⟨_, _, rfl, rfl, rfl, rfl, rfl, by decide, by decide, rfl, by decide +kernel, rfl, rfl⟩⟩,
    ⟨_, _, _, rfl, rfl, rfl, .inl ⟨_, _, rfl, rfl, rfl, rfl, rfl, by decide, by decide, rfl, by decide +kernel, rfl, rfl⟩⟩,
    ⟨_, _, _, rfl, rfl, rfl, .inr (.inl ⟨_, rfl, rfl, rfl, by decide +kernel, ⟨slotA, by decide +kernel, by decide⟩,
      by decide, by decide, by decide, rfl, by decide, rfl, rfl⟩)⟩,
    ⟨_, _, _, rfl, rfl, rfl, .inr (.inr ⟨_, rfl, by decide, rfl, by decide, by decide, by decide, by decide +kernel,
      by decide +kernel, rfl, rfl, rfl⟩)⟩,
    ⟨rfl, fun v h => (nomatch h), by decide +kernel⟩, ⟨rfl, fun v h => by cases h; rfl, by decide +kernel⟩⟩

/-- The local survivor, and a plan job of it and a remote one. -/
def ownSurvivor : Survivor := { position := 0, holder := 7, source := .ownHoldings }

def localJob : PlanJob :=
  { planJob false with survivors := [ownSurvivor, { position := 3, holder := 20, source := .unassigned }] }

/-- The part in which that job ends for a context that is ready, with a table and serve entries. -/
def localEnding (rePlans : Nat) (hdt : Table HoldingRecord) (entries : Table ServeEntry) : Part :=
  { withContext { ending [4] .ready with rePlans := rePlans } with
    hdt := hdt
    svu := { part.svu with entries := entries }
    plu := { queue := [], job := some localJob } }

/-- The context at its entry to GATHERING, and the part that its local survivor finds. -/
def localContext (rePlans : Nat) : Context :=
  { ending [4] .ready with rePlans := rePlans }.planWritten localJob [4]

def localEntered (rePlans : Nat) (hdt : Table HoldingRecord) (entries : Table ServeEntry) : Part :=
  ((localEnding rePlans hdt entries).planTaken localJob { ending [4] .ready with rePlans := rePlans } 1
    []).gatheringEntered 0 (localContext rePlans) (some ownSurvivor) [{ position := 3, holder := 20, source := .unassigned }]

theorem met_localSurvivor (hdt : Table HoldingRecord) (entries : Table ServeEntry) :
    (localEnding 0 hdt entries).gathersBy .planDone
      ((localEnding 0 hdt entries).planTaken localJob { ending [4] .ready with rePlans := 0 } 1 []) 0 (localContext 0)
      localJob.survivors 1
    ∧ (localEnding 0 hdt entries).ListsSurvivors localJob.survivors (some ownSurvivor)
      [{ position := 3, holder := 20, source := .unassigned }]
    ∧ (localContext 0).reservation = [4] ∧ ((localEnding 0 hdt entries).ftu.row? 4).isSome = true
    ∧ (localEnding 0 hdt entries).roomFor 1 :=
  ⟨⟨_, rfl, rfl, rfl, .inl ⟨_, _, rfl, rfl, rfl, rfl, rfl, by decide, by decide, rfl, Nat.le_add_right 1 _, rfl, rfl⟩⟩,
    ⟨rfl, fun v h => by cases h; rfl, fun v h => by
      rw [List.mem_singleton.1 h]
      exact ⟨by decide, rfl⟩⟩,
    rfl, rfl, ⟨rfl, show 0 + 1 ≤ 63 by decide⟩⟩

theorem met_localEntered : (localEntered 0 tableA []).recordOf? 0x12345 0 = some (0, recordA .claiming [2] none)
    ∧ (localEntered 0 tableA []).serveOf? 0x12345 0 = none
    ∧ (localEntered 0 tableA []).svu.entries.lowestFree? 256 = some 0 ∧ (localEntered 0 tableA []).freeSlots.head? = some 1
    ∧ (localEntered 0 tableA [(3, serveA .staged [])]).serveOf? 0x12345 0 = some (3, serveA .staged [])
    ∧ (localEntered 0 tableA [(3, serveA .staging [])]).serveOf? 0x12345 0 = some (3, serveA .staging [])
    ∧ (localEntered 0 [] []).recordOf? 0x12345 0 = none ∧ (localEntered 0 [] []).svu.waiting = []
    ∧ (localEntered 0 [] []).CanRePlan 0 1
      ((localContext 0).entered (some ownSurvivor) [({ position := 3, holder := 20, source := .unassigned }, 4)])
    ∧ (localEntered 8 [] []).gatheringAt 0 1 = true ∧ (localEntered 8 [] []).hdt.rising = true :=
  ⟨by decide +kernel, by decide +kernel, by decide +kernel, by decide +kernel, by decide +kernel, by decide +kernel,
    by decide +kernel, by decide +kernel,
    { inUse := by decide +kernel
      granted := by decide
      slots := by decide
      lanes := by decide
      openers := fun r hr _ => (nomatch hr)
      rising := ⟨by decide +kernel, by decide +kernel⟩
      room := by decide +kernel
      live := by decide
      gathers := by decide
      current := by decide +kernel },
    by decide +kernel, by decide +kernel⟩

/-- A lane whose first chunk of three is being combined: with the second one in its bank, or with both PULLs to send. -/
def nextFull : LaneUse :=
  { laneUse .streaming with length := 24576, bank0 := .full 0 [5], bank1 := .full 1 [6], nextRequest := 2 }

def nextEmpty : LaneUse := { nextFull with bank1 := .empty, nextRequest := 1 }

theorem met_pullWindows : (nextFull.consumed [5]).windowOpen 2 ∧ ¬ (nextFull.consumed [5]).pulled.windowOpen 2
    ∧ ((nextFull.consumed [5]).bankOf 1).fullFor 1 = true ∧ (nextEmpty.consumed [5]).windowOpen 2
    ∧ (nextEmpty.consumed [5]).pulled.windowOpen 2 ∧ ¬ (nextEmpty.consumed [5]).pulled.windowOpen 1
    ∧ ¬ (fullLane.consumed [5]).windowOpen 2 ∧ (nextFull.consumed [5]).nextConsume < chunkCountOf nextFull.length
    ∧ part.roomFor 2 ∧ ({ nextFull with state := .opening none } : LaneUse).active = true := by
  decide +kernel

/-- The last chunk of lane 5 being combined for a context whose other lane is in a state. -/
def gatheringLast (chunks : Nat) (other : LaneState) (u : LaneUse) : Part :=
  { gatheringOn { gatheringTwo with chunkCount := 1, chunksComplete := chunks, contributions := [[0, 1]] } u with
    ftu := (part.ftu.setRow 5 { holder := some 0, useCount := 1, outstanding := true, use := some u }).setRow 3
      { holder := some 0, useCount := 1, outstanding := false, use := some { otherLane with state := other } } }

/-- The part whose context has gathered from a local survivor, the opener of which has fed its last chunk. -/
def gatheredLocal : Part :=
  { gatheringOn { gatheringTwo with
        chunkCount := 1, chunksComplete := 1, reservation := [5]
        survivors := some [{ position := 0, holder := 7, source := .ownHoldings },
          { position := 1, holder := 1, source := .lane 5 }] } (laneUse .complete) with
    svu := { part.svu with entries := [(0, serveA .staged [.internal { openerA with ended := .fed }])] } }

theorem met_gathered : (gatheringLast 1 .complete (laneUse .complete)).gathered 0 ∧ gatheredLocal.gathered 0
    ∧ ¬ (gatheringLast 1 .streaming (laneUse .complete)).gathered 0
    ∧ chunkCountOf endingLane.length ≤ (endingLane.consumed [5]).nextConsume
    ∧ ({ endingLane with digest := none } : LaneUse).digest = none ∧ endingLane.active = true
    ∧ (gatheringLast 1 .complete (laneUse .complete)).roomFor 1
    ∧ (gatheringLast 1 .complete (laneUse .complete)).svu.entries.rising = true :=
  ⟨⟨_, rfl, rfl, by decide +kernel, fun ⟨v, hv, source⟩ => by
      simp only [gatheringTwo, Option.getD_some, List.mem_cons, List.not_mem_nil, or_false] at hv
      rcases hv with rfl | rfl <;> exact absurd source (by decide)⟩,
    ⟨_, rfl, rfl, by decide +kernel, fun _ => ⟨0, serveA .staged [.internal { openerA with ended := .fed }],
      { openerA with ended := .fed }, by decide +kernel, by decide +kernel, rfl⟩⟩,
    fun ⟨x, hx, _, lanes, _⟩ => by
      obtain rfl : _ = x := Option.some.inj hx
      obtain ⟨u, hu, state⟩ := lanes 3 (by decide)
      have use : (gatheringLast 1 .streaming (laneUse .complete)).laneUse? 3 = some { otherLane with state := .streaming } := by
        decide +kernel
      rw [use] at hu
      obtain rfl := Option.some.inj hu
      exact absurd state (by decide), by decide +kernel⟩

/-- The internal opener's last chunk being combined. -/
def feedingLast (x : Context) (state : ServeState) (expected : Option Digest) (length : Nat) : Part :=
  { gatheringOn x (laneUse .complete) with
    hdt := [(0, { recordA .claiming [2] none with digests := [expected, none, none, none] })]
    svu := { part.svu with
      entries := [(0, { serveA state [openerOne, .internal openerA] with length := length })], combineMarks := [0] }
    cbe :=
      { queue := []
        operation := some
          { request := { request with survivor := 0, source := .internal }, operand := [5], targets := [(0, 2)] }
        warning := false } }

theorem met_feeding : (feedingLast gatheringTwo .staged none 4096).attachedOpener? 0
      = some (0, { serveA .staged [openerOne, .internal openerA] with length := 4096 }, openerA)
    ∧ (feedingLast gatheringTwo .staged none 4096).gatheringAt 0 1 = true
    ∧ chunkCountOf 4096 ≤ openerA.nextChunk + 1 ∧ openerA.nextChunk + 1 < chunkCountOf 16384
    ∧ (feedingLast gatheringTwo .staged (some 1) 4096).expectedDigest? 0x12345 0 = some 1
    ∧ (1 : Digest) ≠ digestAdvance openerA.runningDigest [5] ^^^ 0xFFFFFFFF#32
    ∧ (feedingLast gatheringTwo .staged none 4096).expectedDigest? 0x12345 0 = none
    ∧ (feedingLast gatheringTwo .staged (some 1) 4096).CanRePlan 0 1 gatheringTwo
    ∧ (feedingLast eightPlans .staged (some 1) 4096).gatheringAt 0 1 = true
    ∧ (feedingLast eightPlans .staged (some 1) 4096).hdt.rising = true
    ∧ (feedingLast gatheringTwo .staged none 4096).svu.entries.rising = true :=
  ⟨by decide +kernel, by decide +kernel, by decide, by decide, by decide +kernel, by decide +kernel, by decide +kernel,
    { met_canRePlan (laneUse .complete) with
      openers := fun r hr _ => by
        simp only [feedingLast, List.mem_singleton] at hr
        subst hr; exact .inr rfl },
    by decide +kernel, by decide +kernel, by decide +kernel⟩

/-- R10, R31 and R102: at the ninth re-plan the combined byte is in the slot, and the image of the stripe's record says
QUIET. -/
theorem test_ninthAtCombine : Leads .combineDone ⟨[], feedingLast eightPlans .staged (some 1) 4096⟩ fun q =>
    q.smc.dram.byte (32 * 1048576) = fieldMul 2 5 ∧ q.smc.dram.byte 1 = 0x01 ∧ q.context? 0 = none
      ∧ q.firstRecord? 0x12345 = some { recordA .quiet [] none with digests := [some 1, none, none, none] } :=
  ⟨_, rfl, rfl, by decide +kernel⟩

/-- A stale operation ends: its context plans again, its lane is idle or has another tag, its opener is gone or another. -/
theorem met_staleEnds : (gatheringOn (contextA .planning [] []) nextFull).gatheringAt 0 1 = false
    ∧ part.laneUse? 5 = none ∧ (gatheringOn (contextA .planning [] []) nextFull).laneUse? 5 = some nextFull
    ∧ fetchTag 5 ((gatheringOn (contextA .planning [] []) nextFull).lane 5).useCount ≠ 0x0577
    ∧ part.attachedOpener? 0 = none
    ∧ (gatheringOn (contextA .planning [] []) nextFull).attachedOpener? 0
      = some (0, serveA .staged [openerOne, .internal openerA], openerA) ∧ openerA.generation ≠ 2
    ∧ combineEnding.cbe.warning = false := by
  decide +kernel

/-! ## What depends on a station -/

/-- The part with a second claim entry, YIELDED to a station. -/
def yieldedToo (p : Part) (station : Nat) : Part :=
  { p with
    clt := { p.clt with
      entries := p.clt.entries
        ++ [(7, { claimA (.yielded (heard station none true) 900 30000) with stripe := 0x222, lost := [1] })] } }

/-- The part in which the SILENT station 21 is about to be LOST, and an entry, a survivor, a lane and openers depend on
it. -/
def dependents : Part :=
  let x : Context := { gatheringTwo with survivors := some [{ position := 1, holder := 21, source := .lane 5 }] }
  let p := yieldedToo (gatheringOn x { laneUse .streaming with server := 21 }) 21
  { p with
    prs := (farBehind 21).prs
    svu := { p.svu with
      entries := [(0, serveA .staged [.remote 21 0x0501 (some 9) 700, .remote 20 0x0502 (some 9) 700])] } }

theorem met_dependents : dependents.onSegment = true ∧ dependents.prs.livenessDue = some 10000
    ∧ dependents.prs.peers.rising = true ∧ dependents.prs.racks.rising = true
    ∧ dependents.peer? 21 = some { peer 2 .silent (some 9) with missed := 9 }
    ∧ dependents.dueLost { peer 2 .silent (some 9) with missed := 9 }
    ∧ (∀ r ∈ dependents.prs.peers, r.1 ≠ 21 → ¬ dependents.dueLost r.2) ∧ dependents.ctx.contexts.rising = true
    ∧ dependents.clt.entries.rising = true ∧ dependents.svu.entries.rising = true ∧ dependents.ftu.rising = true
    ∧ (∀ r ∈ dependents.ctx.contexts, r.2.state = .planning ∨ r.2.state = .gathering → r.2.rePlans < 8)
    ∧ (dependents.yieldsTo 21).length = 1 ∧ ((dependents.yieldsTo 21).map fun r => r.2.stripe).Nodup
    ∧ dependents.roomFor 1 ∧ (dependents.laneUse? 5).map LaneUse.server = some 21
    ∧ (∃ r ∈ dependents.ctx.contexts, ∃ v ∈ r.2.survivors.getD [], v.holder = 21)
    ∧ Opener.isRemoteOf 20 (.remote 20 0x0502 (some 9) 700) = true := by
  simp only [Part.dueLost]; decide +kernel

/-- The part in which an entry, a lane and an opener depend on station 1, which is about to restart. -/
def restarting : Part := yieldedToo (gatheringOn gatheringTwo { laneUse .streaming with bank0 := .full 0 [5] }) 1

theorem met_restart : restarting.CanRestart 1 4 ∧ (restarting.lanesFrom 1).length = 1
    ∧ (restarting.yieldsTo 1).length = 1 ∧ (∃ o ∈ (serveA .staged [openerOne]).openers, o.isStaleRemoteOf 1 (some 4) = true)
    ∧ restarting.peer? (beaconOf 1 4).sender.toNat = some (peer 0 .present (some 3)) ∧ restarting.ctx.contexts.rising = true
    ∧ restarting.takesFrame (beaconOf 1 4).destination (beaconOf 1 4).etherType = true :=
  ⟨{ lanes := by decide +kernel
     numbers := by decide +kernel
     openers := fun r hr _ => by
       have h : r ∈ [(0, serveA .staged [openerOne, .internal openerA])] := hr
       simp only [List.mem_singleton] at h
       subst h; exact .inr rfl
     claims := by decide +kernel
     stripes := by decide +kernel
     rising := ⟨by decide +kernel, by decide +kernel, by decide +kernel⟩
     room := by decide +kernel }, by decide +kernel⟩

/-- The part whose lane 5 has re-opened twice, and nothing else of which depends on station 1. -/
def limitReached (x : Context) : Part :=
  { gatheringOn x reOpenedTwice with
    svu := { part.svu with entries := [(0, serveA .staged [.internal openerA])] } }

theorem met_restartLimit : (limitReached gatheringTwo).yieldsTo 1 = []
    ∧ (limitReached gatheringTwo).lanesFrom 1
      = [(5, { holder := some 0, useCount := 1, outstanding := false, use := some reOpenedTwice })]
    ∧ 2 ≤ reOpenedTwice.reOpens
    ∧ (∀ r ∈ (limitReached gatheringTwo).svu.entries, ∀ o ∈ r.2.openers, o.isStaleRemoteOf 1 (some 4) = false)
    ∧ (limitReached gatheringTwo).peer? (beaconOf 1 4).sender.toNat = some (peer 0 .present (some 3))
    ∧ (limitReached gatheringTwo).prs.peers.rising = true ∧ (limitReached gatheringTwo).ftu.rising = true
    ∧ (limitReached { gatheringTwo with state := .planning }).gatheringAt 0 1 = false
    ∧ (limitReached { gatheringTwo with state := .planning }).queueOpen
    ∧ (limitReached gatheringTwo).CanRePlan 0 1 gatheringTwo ∧ gatheringTwo.rePlans < 8
    ∧ (limitReached eightPlans).gatheringAt 0 1 = true ∧ (limitReached eightPlans).context? 0 = some eightPlans
    ∧ (limitReached eightPlans).hdt.rising = true ∧ (5 : Byte).toNat ≠ (peer 0 .present (some 3)).rack :=
  ⟨by decide +kernel, by decide +kernel, by decide, by decide +kernel, by decide +kernel, by decide +kernel,
    by decide +kernel, by decide +kernel, by decide +kernel,
    { met_canRePlan reOpenedTwice with
      openers := fun r hr _ => by
        simp only [limitReached, List.mem_singleton] at hr
        subst hr; exact .inr rfl },
    by decide, by decide +kernel, by decide +kernel, by decide +kernel, by decide⟩

theorem met_claimHalted : (inPhase .halted part).broadcastFromPeer fromAll ∧ (inPhase .halted part).hlk.phase = .halted := by
  decide +kernel

theorem met_haltStopped : (filling (contextA .admitting [] [])).readerTakes = true
    ∧ (filling (contextA .admitting [] [])).smc.fill = some { context := 0, generation := 1, slot := 0 }
    ∧ (filling (contextA .admitting [] [])).cbe.operation = none ∧ combineEnding.readerTakes = true
    ∧ combineEnding.smc.fill = none ∧ (∀ r ∈ combineEnding.hdt, r.1 < 131072) ∧ combineEnding.hdt.rising = true := by
  decide +kernel

/-! ## Codes and layouts -/

/-- A command of every field of LOAD. -/
theorem met_layouts : (FrameBody.chunk 0x0501 1 [9]).lengthOk = true ∧ Instr.wellFormed (.load loadRecord) = true
    ∧ (encodeEntry? (.load loadRecord)).isSome = true ∧ Instr.wellFormed (.unknownCommandCode 0x0B) = true := by
  decide +kernel

theorem met_reports : (Report.stageRequest 1 0x12345 3 16384 991).fits ∧ (Report.storeRequest 1 0x12345 3 16384 9 0).fits
    ∧ (Report.holdingsFull 0x12345 15).fits ∧ (Report.unrecoverable 0x12345 [2]).fits := by
  simp only [Report.fits]; decide

theorem met_images : (recordA .parked [2] (some (heard 1 (some 5) true))).Fits 1000 ∧ recordB.Fits 1000 :=
  ⟨⟨by decide, by decide, by decide, by decide, by decide, by decide, fun o h => by cases h; decide⟩,
    ⟨by decide, by decide, by decide, by decide, by decide, by decide, fun o h => (nomatch h)⟩⟩

theorem met_counts : part.CountsFit :=
  ⟨by decide, by decide, by decide, by decide, by decide +kernel, by decide, by decide, by decide +kernel,
    fun c h => by cases h; decide +kernel⟩

theorem met_ring : Instr.ofRing (.load loadRecord) ∧ Instr.ofRing .start ∧ part.readerTakes = true :=
  ⟨trivial, trivial, by decide +kernel⟩

theorem met_decodePlan : (decodePlan { k := 2, m := 2 } [1, 3] [2])[0]?.isSome = true ∧ [1, 3].Nodup
    ∧ ∀ s ∈ [1, 3], s < Geometry.width { k := 2, m := 2 } := by
  decide +kernel

/-! ## Ill-formed commands: one for each check -/

theorem test_refused_memberMap : Instr.wellFormed (.configure { config with memberMap := config.memberMap.drop 1 }) = false := by
  decide +kernel

theorem test_refused_geometries : Instr.wellFormed (.configure { config with geometries := config.geometries.drop 1 }) = false := by
  decide +kernel

theorem test_refused_placement : Instr.wellFormed (.load { loadRecord with placement := loadRecord.placement.drop 1 }) = false := by
  decide +kernel

theorem test_refused_digests : Instr.wellFormed (.load { loadRecord with digests := loadRecord.digests.drop 1 }) = false := by
  decide +kernel

theorem test_refused_listedCode : Instr.wellFormed (.unknownCommandCode 0x0A) = false := by decide

theorem test_refused_writableOffset : Instr.wellFormed (.registerWrite 0x02C 0) = false := by decide

theorem test_refused_windowRead : Instr.wellFormed (.windowRead 5 0) = false := by decide

theorem test_refused_windowWrite : Instr.wellFormed (.windowWrite 5 []) = false := by decide

theorem test_refused_station : Instr.wellFormed (.peerSilent 64) = false ∧ Instr.wellFormed (.peerLost 64 true) = false := by
  decide

theorem test_refused_rack : Instr.wellFormed (.suspectCountExpiry 16) = false := by decide

theorem test_refused_chunk : Instr.wellFormed (.chunk fromOne 0 0 []) = false
    ∧ Instr.wellFormed (.chunk fromOne 0 0 (List.replicate 8193 0)) = false := by
  decide +kernel

theorem test_refused_claimEntry : Instr.wellFormed (.holdOffExpiry 256) = false
    ∧ Instr.wellFormed (.repeatTimerExpiry 256) = false ∧ Instr.wellFormed (.yieldTimerExpiry 256) = false := by
  decide

theorem test_refused_context : Instr.wellFormed (.planWaitDeadline 32) = false
    ∧ Instr.wellFormed (.storeRequest 32) = false ∧ Instr.wellFormed (.pendingOutcomeComplete 32) = false := by
  decide

theorem test_refused_lane : Instr.wellFormed (.openReplyTimeout 128) = false
    ∧ Instr.wellFormed (.waitTimerExpiry 128) = false ∧ Instr.wellFormed (.pullReplyTimeout 128 0) = false
    ∧ Instr.wellFormed (.pullReplyTimeout 0 2) = false := by
  decide

theorem test_refused_serveEntry : Instr.wellFormed (.openerIdleExpiry 256 0 0) = false
    ∧ Instr.wellFormed (.openerIdleExpiry 0 64 0) = false := by
  decide

/-! ## Worked cases of the specification -/

/-- The products of R21's table. -/
theorem test_fieldMul : fieldMul 0x04 0x5C = 0x5D ∧ fieldMul 0x05 0x4B = 0x4A ∧ fieldMul 0x5D 0x14 = 0x10
    ∧ fieldMul 0x4A 0x14 = 0x11 ∧ fieldMul 0x14 0xC9 = 0x32 ∧ fieldMul 0x11 0x03 = 0x33 ∧ fieldMul 0x10 0x03 = 0x30
    ∧ fieldMul 0x4A 0x02 = 0x94 := by
  decide

/-- The inverses that R22 gives. -/
theorem test_fieldInverse : fieldInverse 0x01 = 0x01 ∧ fieldInverse 0x02 = 0x96 ∧ fieldInverse 0x04 = 0x4B
    ∧ fieldInverse 0x05 = 0x5C ∧ fieldInverse 0x17 = 0x14 := by
  decide +kernel

/-- The parity rows of R23 for k = 2. -/
theorem test_generatorRow : generatorRow { k := 2, m := 2 } 2 = [0x01, 0x01]
    ∧ generatorRow { k := 2, m := 2 } 3 = [0x5D, 0x4A] := by
  decide +kernel

/-- The worked decode plans of sections 2.9 and 2.10. -/
theorem test_decodePlan : decodePlan { k := 2, m := 2 } [2, 3] [0, 1] = [[0x11, 0x14], [0x10, 0x14]]
    ∧ decodePlan { k := 2, m := 2 } [1, 0] [3] = [[0x4A, 0x5D]] := by
  decide +kernel

/-- The check value of R32: the digest of the nine characters 1 to 9. -/
theorem test_digest : digestOf [0x31, 0x32, 0x33, 0x34, 0x35, 0x36, 0x37, 0x38, 0x39] = 0xE3069283 := by decide +kernel

/-- The chunks of a fragment, from the table of R3. -/
theorem test_chunks : chunkCountOf 4096 = 1 ∧ chunkCountOf 8192 = 1 ∧ chunkCountOf 8704 = 2 ∧ chunkLength 8704 1 = 512
    ∧ chunkLength 20480 2 = 4096 ∧ chunkCountOf 1048576 = 128 := by
  decide

/-- The part in SETUP with a ring size of 100, which is not valid, and entries 99 and 0 to 4 waiting. -/
def rewritten : Part :=
  { inSetup with hlk := { inSetup.hlk with commandSize := 100, commandConsume := 99, postIndex := 5 } }

/-- R164 names three conditions, and a valid ring size is none of them: the entry is taken, and the consume position
advances modulo 100. -/
theorem test_invalidRingSize : Leads (.clearFlags 0) ⟨[], rewritten⟩ fun q => q.hlk.commandConsume = 0 :=
  ⟨_, rfl, rfl, by decide +kernel⟩

/-- R164 marks the status block after every command taken: also where the ring has one entry, so that the consume position
comes to the value it had, and nothing shown has changed. -/
theorem test_commandMarks : Leads (.clearFlags 0)
    ⟨[], { rewritten with hlk := { rewritten.hlk with commandSize := 1, commandConsume := 0, statusMarked := false } }⟩
    fun q => q.hlk.commandConsume = 0 ∧ q.hlk.statusMarked = true :=
  ⟨_, rfl, rfl, by decide +kernel⟩

/-- R155 passes by a RACKDOWN that is whole but of another EtherType, and R45 takes one of the part's traffic. -/
theorem test_passedBy : Leads (.rackdown { fromAll with etherType := 0x0800 } 2) ⟨[], part⟩ (fun q => q.rackState 2 = .up)
    ∧ Leads (.rackdown fromAll 2) ⟨[], part⟩ (fun q => q.rackState 2 = .suspect) :=
  ⟨⟨_, rfl, rfl, by decide +kernel⟩, ⟨_, rfl, rfl, by decide +kernel⟩⟩

/-- The bytes of a DROP of stripe 12345h at own index 3, written out from R161. -/
theorem test_entry_drop :
    decodeEntry ([0x05, 0, 0, 0, 0, 0, 0, 0, 0x45, 0x23, 0x01, 0, 0, 0, 3] ++ List.replicate 113 0) = .drop 0x12345 3 := by
  decide +kernel

/-- The bytes of a STAGED of tag 1234h with result 02h, written out from R161. -/
theorem test_entry_staged :
    decodeEntry ([0x06, 0, 0, 0, 0, 0, 0, 0, 0x34, 0x12, 0x02] ++ List.replicate 117 0) = .staged 0x1234 2 := by
  decide +kernel

/-- The bytes of a PULL of chunk 3 under tag 0501h from station 1 to station 7, written out from R161, with the zeros
that pad the frame. -/
theorem test_frame_pull :
    decodeFrame (wireFrame ([0x01, 0x09, 1, 7, 0, 3, 0, 0, 0, 4, 0, 0, 0, 0, 0, 0, 0x05, 0x01, 3, 0]
      ++ List.replicate 26 0)) = .pull fromOne 0x0501 3 := by
  decide +kernel

/-- The bytes of a CLAIM of stripe 12345h, settled, with position 2 lost, written out from R161. -/
theorem test_frame_claim :
    decodeFrame (wireFrame ([0x01, 0x03, 1, 0xFF, 0, 3, 0, 0, 0, 12, 0, 0, 0, 0, 0, 0, 0, 0, 0, 0x01, 0x23, 0x45,
      0x02, 0x3F, 0x42, 0x01, 0x00, 0x04] ++ List.replicate 18 0)) = .claim fromAll 0x12345 0x023F42 0x01 0x0004 := by
  decide +kernel

end Sys2Proof.Tests
end

/-! The laws of the byte field (R21, R22). The product is additive in each factor, so a law between products need only be
checked on the eight single bits. Inverses come from two facts about squaring, which is additive too: its eighth power is
the identity, and it fixes no byte but 00h and 01h. -/

namespace Sys2Proof.Machine

/-! ## Additive maps of bytes -/

/-- The map carries field sums to field sums. -/
def KeepsFieldSums (f : Byte → Byte) : Prop := ∀ a b, f (a ^^^ b) = f a ^^^ f b

theorem KeepsFieldSums.zero {f : Byte → Byte} (hf : KeepsFieldSums f) : f 0 = 0 := by
  simpa using hf 0 0

theorem KeepsFieldSums.fieldSum {f : Byte → Byte} (hf : KeepsFieldSums f) (terms : List Byte) :
    f (fieldSum terms) = fieldSum (terms.map f) := by
  unfold Machine.fieldSum
  rw [List.foldl_map, ← List.foldl_hom f (g₂ := fun acc t => acc ^^^ f t) fun acc t => (hf acc t).symm, hf.zero]

theorem KeepsFieldSums.comp {f g : Byte → Byte} (hf : KeepsFieldSums f) (hg : KeepsFieldSums g) :
    KeepsFieldSums (f ∘ g) := fun a b => by simp only [Function.comp_apply, hg a b, hf (g a) (g b)]

theorem KeepsFieldSums.iterate {f : Byte → Byte} (hf : KeepsFieldSums f) : ∀ n, KeepsFieldSums f^[n]
  | 0 => fun _ _ => rfl
  | n + 1 => (hf.iterate n).comp hf

theorem fieldSum_append_singleton (terms : List Byte) (t : Byte) : fieldSum (terms ++ [t]) = fieldSum terms ^^^ t := by
  simp [fieldSum]

/-- The single bits of a byte below place `n`. -/
def bitsBelow (a : Byte) (n : Nat) : List Byte :=
  (List.range n).map fun i => if a.getLsbD i then 1#8 <<< i else 0

theorem bitsBelow_succ (a : Byte) (n : Nat) :
    bitsBelow a (n + 1) = bitsBelow a n ++ [if a.getLsbD n then 1#8 <<< n else 0] := by
  simp [bitsBelow, List.range_succ]

theorem getLsbD_fieldSum_bitsBelow (a : Byte) (n j : Nat) (hj : j < 8) :
    (fieldSum (bitsBelow a n)).getLsbD j = (decide (j < n) && a.getLsbD j) := by
  induction n with
  | zero => simp [bitsBelow, fieldSum]
  | succ n ih =>
    have bit : (1#8 <<< n).getLsbD j = decide (j = n) := by
      rw [← BitVec.twoPow_eq, BitVec.getLsbD_twoPow]; grind
    rw [bitsBelow_succ, fieldSum_append_singleton, BitVec.getLsbD_xor, ih, apply_ite (BitVec.getLsbD · j), bit]
    rcases Nat.lt_trichotomy j n with below | rfl | above
    · simp [below, Nat.ne_of_lt below, Nat.lt_succ_of_lt below]
    · simp
    · simp [Nat.ne_of_gt above, Nat.not_lt_of_gt above, Nat.not_lt_of_le above]

/-- A byte is the field sum of its single bits. -/
theorem fieldSum_bitsBelow (a : Byte) : fieldSum (bitsBelow a 8) = a :=
  BitVec.eq_of_getLsbD_eq fun j hj => by rw [getLsbD_fieldSum_bitsBelow a 8 j hj]; simp [hj]

/-- Two additive maps that agree on the single bits agree on every byte. -/
theorem KeepsFieldSums.eq_of_bits {f g : Byte → Byte} (hf : KeepsFieldSums f) (hg : KeepsFieldSums g)
    (bits : ∀ i : Fin 8, f (1#8 <<< i.val) = g (1#8 <<< i.val)) (a : Byte) : f a = g a := by
  rw [← fieldSum_bitsBelow a, hf.fieldSum, hg.fieldSum, bitsBelow, List.map_map, List.map_map]
  refine congrArg _ (List.map_congr_left fun i hi => ?_)
  simp only [Function.comp_apply]
  split
  · exact bits ⟨i, List.mem_range.1 hi⟩
  · rw [hf.zero, hg.zero]

/-- Two products of two factors, additive in each, that agree on the single bits agree on every two bytes. -/
theorem eq_of_bits_of_bits {f g : Byte → Byte → Byte} (hf : ∀ b, KeepsFieldSums (f · b))
    (hf' : ∀ a, KeepsFieldSums (f a)) (hg : ∀ b, KeepsFieldSums (g · b)) (hg' : ∀ a, KeepsFieldSums (g a))
    (bits : ∀ i j : Fin 8, f (1#8 <<< i.val) (1#8 <<< j.val) = g (1#8 <<< i.val) (1#8 <<< j.val)) (a b : Byte) :
    f a b = g a b :=
  (hf b).eq_of_bits (hg b) (fun i => (hf' _).eq_of_bits (hg' _) (bits i) b) a

/-! ## The product is additive in each factor -/

theorem foldl_xor {w : Nat} {f g h : BitVec w → Nat → BitVec w}
    (step : ∀ x y i, h (x ^^^ y) i = f x i ^^^ g y i) (l : List Nat) (x y : BitVec w) :
    l.foldl h (x ^^^ y) = l.foldl f x ^^^ l.foldl g y := by
  induction l generalizing x y with
  | nil => rfl
  | cons i l ih => rw [List.foldl_cons, step, ih]; rfl

/-- A term added under a condition is additive in the condition and the accumulator together. -/
theorem ite_xor_xor {w : Nat} (p q : Bool) (x y term : BitVec w) :
    (if p ^^ q then x ^^^ y ^^^ term else x ^^^ y)
      = (if p then x ^^^ term else x) ^^^ (if q then y ^^^ term else y) := by
  cases p <;> cases q <;> simp only [Bool.xor_false, Bool.xor_true, Bool.not_false, Bool.not_true, if_true, if_false,
    Bool.false_eq_true]
  · ac_rfl
  · ac_rfl
  · rw [BitVec.xor_assoc x, BitVec.xor_comm y, ← BitVec.xor_assoc term, BitVec.xor_self, BitVec.zero_xor]

theorem carrylessProduct_xor_left (a b c : Byte) :
    carrylessProduct (a ^^^ b) c = carrylessProduct a c ^^^ carrylessProduct b c := by
  refine foldl_xor (fun x y i => ?_) (List.range 8) 0 0
  split
  · simp only [BitVec.truncate_eq_setWidth, BitVec.setWidth_xor, BitVec.shiftLeft_xor_distrib]; ac_rfl
  · rfl

theorem carrylessProduct_xor_right (a b c : Byte) :
    carrylessProduct a (b ^^^ c) = carrylessProduct a b ^^^ carrylessProduct a c :=
  foldl_xor (fun x y i => by rw [BitVec.getLsbD_xor, ite_xor_xor]) (List.range 8) 0 0

theorem fieldReduce_xor (v w : BitVec 16) : fieldReduce (v ^^^ w) = fieldReduce v ^^^ fieldReduce w := by
  unfold fieldReduce
  rw [foldl_xor fun x y i => by rw [BitVec.getLsbD_xor, ite_xor_xor], BitVec.truncate_eq_setWidth,
    BitVec.setWidth_xor]

theorem fieldMul_xor_left (a b c : Byte) : fieldMul (a ^^^ b) c = fieldMul a c ^^^ fieldMul b c := by
  simp only [fieldMul, carrylessProduct_xor_left, fieldReduce_xor]

theorem fieldMul_xor_right (a b c : Byte) : fieldMul a (b ^^^ c) = fieldMul a b ^^^ fieldMul a c := by
  simp only [fieldMul, carrylessProduct_xor_right, fieldReduce_xor]

theorem keepsFieldSums_fieldMul_left (c : Byte) : KeepsFieldSums (fieldMul · c) := (fieldMul_xor_left · · c)

theorem keepsFieldSums_fieldMul_right (a : Byte) : KeepsFieldSums (fieldMul a) := fieldMul_xor_right a

/-! ## The laws of the product (R21) -/

theorem fieldMul_zero (a : Byte) : fieldMul a 0 = 0 := (keepsFieldSums_fieldMul_right a).zero

theorem zero_fieldMul (a : Byte) : fieldMul 0 a = 0 := (keepsFieldSums_fieldMul_left a).zero

theorem fieldMul_one (a : Byte) : fieldMul a 1 = a :=
  (keepsFieldSums_fieldMul_left 1).eq_of_bits (g := id) (fun _ _ => rfl) (by decide) a

theorem fieldMul_comm (a b : Byte) : fieldMul a b = fieldMul b a :=
  eq_of_bits_of_bits (g := fun a b => fieldMul b a) keepsFieldSums_fieldMul_left keepsFieldSums_fieldMul_right
    keepsFieldSums_fieldMul_right keepsFieldSums_fieldMul_left (by decide) a b

/-- Multiplying by 02h shifts one place, and x^8 is replaced by 2Dh. -/
theorem fieldMul_two (a : Byte) : fieldMul a 0x02 = (a <<< 1) ^^^ (if a.getLsbD 7 then 0x2D#8 else 0) := by
  have keeps : KeepsFieldSums fun a => a <<< 1 ^^^ (if a.getLsbD 7 then 0x2D#8 else 0) := fun a b => by
    simpa only [BitVec.shiftLeft_xor_distrib, BitVec.getLsbD_xor, apply_ite (HXor.hXor _),
      BitVec.ofNat_eq_ofNat, BitVec.xor_zero]
      using ite_xor_xor (a.getLsbD 7) (b.getLsbD 7) (a <<< 1) (b <<< 1) 0x2D#8
  exact (keepsFieldSums_fieldMul_left 2).eq_of_bits keeps (by decide) a

theorem fieldMul_assoc_two (a b : Byte) : fieldMul (fieldMul a b) 2 = fieldMul a (fieldMul b 2) :=
  eq_of_bits_of_bits (f := fun a b => fieldMul (fieldMul a b) 2) (g := fun a b => fieldMul a (fieldMul b 2))
    (fun b => (keepsFieldSums_fieldMul_left 2).comp (keepsFieldSums_fieldMul_left b))
    (fun a => (keepsFieldSums_fieldMul_left 2).comp (keepsFieldSums_fieldMul_right a))
    (fun b => keepsFieldSums_fieldMul_left (fieldMul b 2))
    (fun a => (keepsFieldSums_fieldMul_right a).comp (keepsFieldSums_fieldMul_left 2)) (by decide +kernel) a b

/-- Each single bit is the one below it times 02h. -/
theorem bit_succ : ∀ i < 7, 1#8 <<< (i + 1) = fieldMul (1#8 <<< i) 2 := by decide

theorem fieldMul_assoc_bit (a b : Byte) (i : Nat) (hi : i < 8) :
    fieldMul (fieldMul a b) (1#8 <<< i) = fieldMul a (fieldMul b (1#8 <<< i)) := by
  induction i with
  | zero => exact (fieldMul_one _).trans (congrArg (fieldMul a) (fieldMul_one b).symm)
  | succ i ih =>
    rw [bit_succ i (by omega), ← fieldMul_assoc_two, ih (by omega), fieldMul_assoc_two, fieldMul_assoc_two]

theorem fieldMul_assoc (a b c : Byte) : fieldMul (fieldMul a b) c = fieldMul a (fieldMul b c) :=
  (keepsFieldSums_fieldMul_right (fieldMul a b)).eq_of_bits
    ((keepsFieldSums_fieldMul_right a).comp (keepsFieldSums_fieldMul_right b))
    (fun i => fieldMul_assoc_bit a b i i.isLt) c

/-! ## Squaring -/

/-- The field product of a byte with itself. -/
def fieldSquare (a : Byte) : Byte := fieldMul a a

theorem keepsFieldSums_fieldSquare : KeepsFieldSums fieldSquare := fun a b => by
  simp only [fieldSquare, fieldMul_xor_left, fieldMul_xor_right, fieldMul_comm b a]
  rw [BitVec.xor_assoc, ← BitVec.xor_assoc (fieldMul a b), BitVec.xor_self, BitVec.zero_xor]

/-- Every byte is its own 256th power. -/
theorem fieldSquare_iterate_eight (a : Byte) : fieldSquare^[8] a = a :=
  (keepsFieldSums_fieldSquare.iterate 8).eq_of_bits (g := id) (fun _ _ => rfl) (by decide +kernel) a

/-- Every repeated square of a byte has the byte as a factor twice. -/
theorem exists_fieldSquare_iterate (a : Byte) (n : Nat) :
    ∃ b, fieldSquare^[n + 1] a = fieldMul a (fieldMul a b) := by
  induction n with
  | zero => exact ⟨1, by rw [fieldMul_one]; rfl⟩
  | succ n ih =>
    obtain ⟨b, hb⟩ := ih
    exact ⟨fieldMul b (fieldMul a (fieldMul a b)), by
      rw [Function.iterate_succ_apply', hb, fieldSquare, fieldMul_assoc, fieldMul_assoc]⟩

/-- The field has no idempotents but its zero and its unit: a check of one product for each byte. -/
theorem eq_zero_or_one_of_fieldSquare : ∀ e : Byte, fieldSquare e = e → e = 0 ∨ e = 1 := by decide +kernel

/-! ## Inverses (R22) -/

/-- Berlekamp's argument: from a² · b = a^256 = a the product a · b is an idempotent, and it is not 00h. -/
theorem exists_fieldMul_eq_one {a : Byte} (ha : a ≠ 0) : ∃ b, fieldMul a b = 1 := by
  obtain ⟨b, hb⟩ := exists_fieldSquare_iterate a 7
  rw [fieldSquare_iterate_eight] at hb
  have idempotent : fieldSquare (fieldMul a b) = fieldMul a b := by
    rw [fieldSquare, ← fieldMul_assoc, fieldMul_comm _ a, ← hb]
  rcases eq_zero_or_one_of_fieldSquare _ idempotent with h | h
  · exact absurd (by rw [hb, h, fieldMul_zero]) ha
  · exact ⟨b, h⟩

theorem byte_mem_range (b : Byte) : b ∈ (List.range 256).map (BitVec.ofNat 8) :=
  List.mem_map.2 ⟨b.toNat, List.mem_range.2 b.isLt, (BitVec.ofNat_toNat 8 b).trans (BitVec.setWidth_eq b)⟩

theorem fieldMul_fieldInverse {a : Byte} (ha : a ≠ 0) : fieldMul a (fieldInverse a) = 1 := by
  obtain ⟨b, hb⟩ := exists_fieldMul_eq_one ha
  unfold fieldInverse
  cases found : ((List.range 256).map (BitVec.ofNat 8)).find? fun b => fieldMul a b == 1 with
  | none => exact absurd (beq_iff_eq.2 hb) (List.find?_eq_none.1 found b (byte_mem_range b))
  | some c => exact beq_iff_eq.1 (List.find?_some (p := fun b => fieldMul a b == 1) found)

theorem fieldMul_eq_one_iff {a : Byte} (ha : a ≠ 0) (b : Byte) : fieldMul a b = 1 ↔ b = fieldInverse a := by
  refine ⟨fun hb => ?_, fun hb => hb ▸ fieldMul_fieldInverse ha⟩
  calc b = fieldMul b (fieldMul a (fieldInverse a)) := by rw [fieldMul_fieldInverse ha, fieldMul_one]
    _ = fieldMul (fieldMul a b) (fieldInverse a) := by rw [← fieldMul_assoc, fieldMul_comm b]
    _ = fieldInverse a := by rw [hb, fieldMul_comm, fieldMul_one]

/-- Settles O57: the product is additive in each factor, so its laws are checked on single bits, and a nonzero byte has
an inverse because its 256th power is the byte itself. -/
theorem bytesAreAField : Obligations.BytesAreAField :=
  ⟨fieldMul_xor_left, fieldMul_comm, fieldMul_assoc, fun a => ⟨fieldMul_zero a, fieldMul_one a⟩, fieldMul_two,
    fun _ ha => fieldMul_eq_one_iff ha, fun b h => absurd ((zero_fieldMul b).symm.trans h) (by decide)⟩

end Sys2Proof.Machine

/-! What a CLAIM heard from another station does (R69 to R71). A broadcast that passes the receive checks is the claim
table's, and each branch of the taking of a CLAIM has its equation; the statement joins them. -/

namespace Sys2Proof.Machine

/-! ## From an effect to a command's answer -/

theorem Part.unmarked_markStatus (p q : Part) : (p.markStatus q).unmarked = q.unmarked := by
  unfold Part.markStatus
  split <;> rfl

theorem Part.imagesFollow_markStatus {p q : Part} (h : p.imagesFollow q) : p.imagesFollow (p.markStatus q) := by
  simpa only [Part.imagesFollow, Part.markStatus_hdt, Part.markStatus_smc] using h

theorem answers_of_run {i : Instr} {s : State} {f : Part → Part} (h : exec i s = run s f) :
    Answers i s (f s.part) :=
  ⟨_, h, rfl, s.part.unmarked_markStatus _⟩

theorem answersWithImages_of_run {i : Instr} {s : State} {f : Part → Part} {q : Part} (h : exec i s = run s f)
    (same : (f s.part).setDram s.part.smc.dram = q) (images : s.part.imagesFollow (f s.part)) :
    AnswersWithImages i s q := by
  refine ⟨_, h, rfl, ?_, Part.imagesFollow_markStatus images⟩
  rw [← same]
  unfold Part.markStatus
  split <;> rfl

/-- A change of the stripe-level fields answers with the changed table and the images that follow it. -/
theorem answersWithImages_of_updateStripe {i : Instr} {s : State} {f : Part → Part} {t : StripeId}
    {g : HoldingRecord → HoldingRecord} (h : exec i s = run s f) (effect : f s.part = s.part.updateStripe t g)
    (rising : s.part.hdt.rising = true) :
    AnswersWithImages i s { s.part with hdt := s.part.hdt.map (changeStripe t g) } := by
  obtain ⟨table, same, -, images⟩ := s.part.updateStripe_spec t g rising
  refine answersWithImages_of_run h ?_ (effect ▸ images)
  rw [effect, ← table]
  exact congrArg (fun q : Part => { q with hdt := (s.part.updateStripe t g).hdt }) same

/-! ## Receiving a broadcast (R155, R156) -/

/-- A broadcast that passes the receive checks reaches its owner. -/
theorem Part.receive_broadcastFromPeer (p : Part) (h : FrameHeader) (b : FrameBody) (owner : Part → Part)
    (hp : p.broadcastFromPeer h) (kind : broadcastKind b.code = true) (length : b.lengthOk = true)
    (valid : b.valid = true) : p.receive h b owner = owner p := by
  obtain ⟨segment, taken, sender, hearable, epoch, target⟩ := hp
  have member : (p.peer? h.sender.toNat).isNone = false := by
    cases hq : p.peer? h.sender.toNat with
    | none => simp [hq] at epoch
    | some _ => rfl
  have passes : p.receiveCheck h b = none := by
    simp [Part.receiveCheck, Part.headerCheck, sender, member, kind, target, length, hearable, epoch, valid]
  simp [Part.receive, segment, taken, passes]

theorem FrameBody.claim_valid (t : StripeId) (rank : Rank) {flags : Byte} (mask : BitVec 16) (h : flags.toNat ≤ 3) :
    (FrameBody.claim t rank flags mask).valid = true := by
  have reserved : ∀ flags : Byte, flags.toNat ≤ 3 → (flags &&& 0xFC#8 == 0) = true := by decide
  exact reserved flags h

theorem exec_claim (h : FrameHeader) (t : StripeId) (rank : Rank) (flags : Byte) (mask : BitVec 16) (s : State) :
    exec (.claim h t rank flags mask) s = run s fun p => p.receive h (.claim t rank flags mask) fun q =>
      q.takeClaim h.sender.toNat t rank flags mask := rfl

theorem Part.receive_claim {p : Part} {h : FrameHeader} {flags : Byte} (t : StripeId) (rank : Rank) (mask : BitVec 16)
    (owner : Part → Part) (peer : p.broadcastFromPeer h) (named : flags.toNat ≤ 3) :
    p.receive h (.claim t rank flags mask) owner = owner p :=
  p.receive_broadcastFromPeer h _ owner peer rfl rfl (FrameBody.claim_valid t rank mask named)

theorem claim_answers_takeClaim {p q : Part} {h : FrameHeader} {flags : Byte} (w : List Instr) (t : StripeId)
    (rank : Rank) (mask : BitVec 16) (peer : p.broadcastFromPeer h) (named : flags.toNat ≤ 3)
    (taken : p.takeClaim h.sender.toNat t rank flags mask = q) : Answers (.claim h t rank flags mask) ⟨w, p⟩ q := by
  have answers := answers_of_run (exec_claim h t rank flags mask ⟨w, p⟩)
  rwa [Part.receive_claim t rank mask _ peer named, taken] at answers

theorem claim_answers_setOutside {p : Part} {h : FrameHeader} {flags : Byte} {o : Option HeardClaim} (w : List Instr)
    (t : StripeId) (rank : Rank) (mask : BitVec 16) (peer : p.broadcastFromPeer h) (named : flags.toNat ≤ 3)
    (rising : p.hdt.rising = true) (taken : p.takeClaim h.sender.toNat t rank flags mask = p.setOutside t o) :
    AnswersWithImages (.claim h t rank flags mask) ⟨w, p⟩
      { p with hdt := p.hdt.map (changeStripe t fun r => { r with outside := o }) } :=
  answersWithImages_of_updateStripe (exec_claim h t rank flags mask ⟨w, p⟩)
    ((Part.receive_claim t rank mask _ peer named).trans taken) rising

/-! ## The body against the geometry (R69) -/

/-- The one value of the named flags with the repeat bit and without the settled bit is 02h. -/
theorem repeat_unsettled_iff : ∀ flags : Byte, flags.toNat ≤ 3 →
    ((repeatBit flags && !settledBit flags) = true ↔ flags = 2) := by decide

theorem claimFits_iff (g : Geometry) {flags : Byte} (lost : Positions) (named : flags.toNat ≤ 3) :
    claimFits g flags lost = true
      ↔ lost ≠ [] ∧ lost.length ≤ g.m ∧ (∀ i ∈ lost, i < g.width) ∧ flags ≠ 2 := by
  rw [claimFits, Bool.and_eq_true, Bool.not_eq_true', ← Bool.not_eq_true, repeat_unsettled_iff flags named]
  simp [and_assoc]

theorem not_claimFits_iff (g : Geometry) {flags : Byte} (lost : Positions) (named : flags.toNat ≤ 3) :
    claimFits g flags lost = false
      ↔ lost = [] ∨ g.m < lost.length ∨ (∃ i ∈ lost, g.width ≤ i) ∨ flags = 2 := by
  rw [← Bool.not_eq_true, claimFits_iff g lost named]
  simp only [not_and_or, not_forall, not_not, not_le, not_lt, exists_prop]

/-! ## Precedence over an unsettled and over an unknown claim (R67) -/

theorem Contender.precedes_unsettled_iff {a : Contender} {x : Rank} (y : Rank) (known : a.rank = some x) :
    a.precedes { rank := some y, settled := false } = true ↔ a.settled = true ∨ x.toNat < y.toNat := by
  cases settled : a.settled <;> simp [Contender.precedes, known, settled]

theorem Contender.not_precedes_unknown (a : Contender) {b : Contender} (unknown : b.rank = none) :
    a.precedes b = false := by
  cases known : a.rank <;> simp [Contender.precedes, known, unknown]

/-! ## The branches of taking a CLAIM (R69) -/

theorem Part.takeClaim_halted {p : Part} (station : Nat) (t : StripeId) (rank : Rank) (flags : Byte)
    (mask : BitVec 16) (halted : p.hlk.phase = .halted) : p.takeClaim station t rank flags mask = p :=
  if_pos halted

theorem Part.takeClaim_withoutRecords {p : Part} {t : StripeId} (station : Nat) (rank : Rank) (flags : Byte)
    (mask : BitVec 16) (unknown : p.geometryOf? t = none) : p.takeClaim station t rank flags mask = p := by
  simp [Part.takeClaim, unknown]

theorem Part.takeClaim_unfit {p : Part} {t : StripeId} {g : Geometry} {flags : Byte} {mask : BitVec 16}
    (station : Nat) (rank : Rank) (running : p.hlk.phase = .running) (geometry : p.geometryOf? t = some g)
    (unfit : claimFits g flags (positionsOf mask) = false) :
    p.takeClaim station t rank flags mask = p.counted .body := by
  simp [Part.takeClaim, running, geometry, unfit, Part.dropFrame, Part.countDrop, Part.counted]

section
variable {p : Part} {t : StripeId} {g : Geometry} {flags : Byte} {mask : BitVec 16} (station : Nat) (rank : Rank)
  (running : p.hlk.phase = .running) (geometry : p.geometryOf? t = some g)
  (fits : claimFits g flags (positionsOf mask) = true)
include running geometry fits

theorem Part.takeClaim_withoutEntry (entry : p.claimOf? t = none) :
    p.takeClaim station t rank flags mask = p.hearOutside t (p.hearClaim station rank (settledBit flags)) := by
  simp [Part.takeClaim, running, geometry, fits, entry]

theorem Part.takeClaim_contending {n due : Nat} {e : ClaimEntry} (entry : p.claimOf? t = some (n, e))
    (state : e.state = .contending due) :
    p.takeClaim station t rank flags mask
      = p.claimAtContending n e (p.hearClaim station rank (settledBit flags)) := by
  simp [Part.takeClaim, running, geometry, fits, entry, state]

theorem Part.takeClaim_yielded {n since due : Nat} {e : ClaimEntry} {rival : HeardClaim}
    (entry : p.claimOf? t = some (n, e)) (state : e.state = .yielded rival since due) :
    p.takeClaim station t rank flags mask
      = p.claimAtYielded n e rival since (p.hearClaim station rank (settledBit flags)) := by
  simp [Part.takeClaim, running, geometry, fits, entry, state]

end

/-! ## Without an entry (R7) -/

theorem Part.hearOutside_replaces {p : Part} {t : StripeId} {r : HoldingRecord} {arrival : HeardClaim}
    (record : p.firstRecord? t = some r)
    (gives : ∀ o, r.outside = some o →
      o.station = arrival.station ∨ arrival.contender.precedes o.contender = true) :
    p.hearOutside t arrival = p.setOutside t (some arrival) := by
  cases outside : r.outside with
  | none => simp [Part.hearOutside, record, outside]
  | some o =>
    have replaced := (gives o outside).symm
    simp [Part.hearOutside, record, outside, replaced]

theorem Part.hearOutside_keepsOther {p : Part} {t : StripeId} {r : HoldingRecord} {o arrival : HeardClaim}
    (record : p.firstRecord? t = some r) (outside : r.outside = some o) (other : o.station ≠ arrival.station)
    (after : arrival.contender.precedes o.contender = false) : p.hearOutside t arrival = p := by
  simp [Part.hearOutside, record, outside, other, after]

/-! ## At a CONTENDING entry (R70) -/

theorem Part.claimOf?_stripe {p : Part} {t : StripeId} {n : Nat} {e : ClaimEntry}
    (entry : p.claimOf? t = some (n, e)) : e.stripe = t :=
  beq_iff_eq.1 (List.find?_some (p := fun r : Nat × ClaimEntry => r.2.stripe == t) entry)

theorem Part.claimAtContending_yields {p : Part} {e : ClaimEntry} {arrival : HeardClaim} {rank : Rank} (n : Nat)
    (known : arrival.rank = some rank) (now : arrival.heard = p.now)
    (precedes : arrival.settled = true ∨ rank.toNat < e.rank.toNat) :
    p.claimAtContending n e arrival = { p with
      clt := {
        entries := p.clt.entries.setRow n { e with state := .yielded arrival p.now (p.now + 3 * p.claimRepeat) }
        owned := p.clt.owned.filter (· != n) } } := by
  rw [Part.claimAtContending, if_pos ((Contender.precedes_unsettled_iff e.rank known).2 precedes),
    Part.yieldEntry, Part.yieldedState, now]
  rfl

theorem Part.claimAtContending_answers {p : Part} {e : ClaimEntry} {arrival : HeardClaim} {rank : Rank} (n : Nat)
    (known : arrival.rank = some rank) (unsettled : arrival.settled = false) (after : e.rank.toNat ≤ rank.toNat) :
    p.claimAtContending n e arrival = p.post none (.claim e.stripe e.rank 0x00 (maskOf e.lost)) := by
  have notBefore : ¬ (arrival.settled = true ∨ rank.toNat < e.rank.toNat) := by simp [unsettled, after]
  rw [Part.claimAtContending, if_neg fun h => notBefore ((Contender.precedes_unsettled_iff e.rank known).1 h)]
  rfl

/-! ## At a YIELDED entry (R71) -/

theorem Part.claimAtYielded_takesRival {p : Part} {rival arrival : HeardClaim} (n : Nat) (e : ClaimEntry) (since : Nat)
    (now : arrival.heard = p.now)
    (takes : rival.station = arrival.station ∨ arrival.contender.precedes rival.contender = true) :
    p.claimAtYielded n e rival since arrival = { p with
      clt := { p.clt with
        entries := p.clt.entries.setRow n
          { e with state := .yielded arrival since (p.now + 3 * p.claimRepeat) } } } := by
  rw [Part.claimAtYielded, if_pos takes, Part.yieldedState, now]
  rfl

theorem Part.claimAtYielded_ignores {p : Part} {rival arrival : HeardClaim} (n : Nat) (e : ClaimEntry) (since : Nat)
    (other : rival.station ≠ arrival.station) (after : arrival.contender.precedes rival.contender = false) :
    p.claimAtYielded n e rival since arrival = p := by
  simp [Part.claimAtYielded, other, after]

/-- Settles O32: the frame passes the receive checks, and each condition of the statement picks one branch of the taking
of a CLAIM. -/
theorem claimsAreHeard : Obligations.ClaimsAreHeard := by
  refine ⟨fun w p h t rank flags mask peer halted named =>
    claim_answers_takeClaim w t rank mask peer named (Part.takeClaim_halted _ t rank flags mask halted), ?_⟩
  rintro w p h t rank flags mask g arrival peer running named rfl
  have answers {q : Part} := claim_answers_takeClaim (q := q) w t rank mask peer named
  refine ⟨fun unknown => answers (Part.takeClaim_withoutRecords _ rank flags mask unknown),
    fun geometry => ⟨fun unfit => ?_, fun nonempty few inWidth flagged => ?_⟩⟩
  · exact answers (Part.takeClaim_unfit _ rank running geometry ((not_claimFits_iff g _ named).2 unfit))
  have fits := (claimFits_iff g _ named).2 ⟨nonempty, few, inWidth, flagged⟩
  refine ⟨fun r free record rising => ⟨fun gives => ?_, fun o outside other after => ?_⟩,
    fun n e due entry state => ⟨fun precedes => ?_, fun unsettled after => ?_⟩,
    fun n e rival since due entry state => ⟨fun takes => ?_, fun other after => ?_, fun unknown => ?_⟩⟩
  · exact claim_answers_setOutside w t rank mask peer named rising
      ((Part.takeClaim_withoutEntry _ rank running geometry fits free).trans (Part.hearOutside_replaces record gives))
  · exact answers ((Part.takeClaim_withoutEntry _ rank running geometry fits free).trans
      (Part.hearOutside_keepsOther record outside other after))
  · exact answers ((Part.takeClaim_contending _ rank running geometry fits entry state).trans
      (Part.claimAtContending_yields n rfl rfl precedes))
  · obtain rfl := Part.claimOf?_stripe entry
    exact answers ((Part.takeClaim_contending _ rank running geometry fits entry state).trans
      (Part.claimAtContending_answers n rfl unsettled after))
  · exact answers ((Part.takeClaim_yielded _ rank running geometry fits entry state).trans
      (Part.claimAtYielded_takesRival n e since rfl takes))
  · exact answers ((Part.takeClaim_yielded _ rank running geometry fits entry state).trans
      (Part.claimAtYielded_ignores n e since other after))
  · exact Contender.not_precedes_unknown _ unknown

end Sys2Proof.Machine

/-! What every step keeps and what every command does alike: each command is a run of one effect on the part, and the
laws of the memory, of the queues and of the racks are kept by each effect (R37, R43, R44, R61, R158, R159, R164, R169,
R170). -/

namespace Sys2Proof.Machine

/-! ## Every command is a run (R164, R170) -/

theorem exec_is_run (i : Instr) (s : State) :
    ∃ q, exec i s = .next { s with part := s.part.markStatus q } := by
  cases i <;> exact ⟨_, rfl⟩

theorem Part.markStatus_marked {p q : Part} (h : q.hlk.statusMarked = true) :
    (p.markStatus q).hlk.statusMarked = true := by
  unfold Part.markStatus
  split
  · exact h
  · rfl

/-- A command that the reader takes marks the status block, whatever it does (R164). -/
theorem Part.takeCommand_marks {p : Part} (body : Part → Except RefusalCode Part) (taken : p.readerTakes = true) :
    (p.takeCommand body).hlk.statusMarked = true := by
  rw [Part.takeCommand, if_pos taken]

theorem exec_ring_command {i : Instr} (ring : Instr.ofRing i) (formed : Instr.wellFormed i = true) (s : State) :
    ∃ body, exec i s = .next { s with part := s.part.markStatus (s.part.takeCommand body) } := by
  cases i
  case unknownCommandCode code =>
    have unlisted : ¬ listedCommandCodes.contains code.toNat = true := by simpa [Instr.wellFormed] using formed
    refine ⟨fun _ => .error .badField, ?_⟩
    change run s (fun p => if listedCommandCodes.contains code.toNat then p else _) = _
    simp only [if_neg unlisted]
    rfl
  all_goals first
    | exact ⟨_, rfl⟩
    | exact ring.elim

/-- Settles O1. -/
theorem frontCommandRuns : Obligations.FrontCommandRuns := ⟨fun _ _ _ => rfl, fun _ => rfl⟩

/-- Settles O2: each command is a run of its effect, which marks the block where the view changes, and the reader marks
it with every command it takes. -/
theorem everyCommandGoesOn : Obligations.EveryCommandGoesOn := by
  intro i s
  obtain ⟨q, answer⟩ := exec_is_run i s
  refine ⟨_, answer, rfl, fun changed => ?_, fun ring formed taken => ?_⟩
  · refine Part.markStatus_marks _ _ fun same => changed ?_
    rw [same, Part.markStatus, if_pos same]
  · obtain ⟨body, command⟩ := exec_ring_command ring formed s
    rw [answer, Host.Outcome.next.injEq] at command
    rw [command]
    exact Part.markStatus_marked (Part.takeCommand_marks body taken)

/-! ## What every effect keeps -/

/-- The laws of the memory and the queues, and the laws of the racks, hold after an effect where they held before. -/
structure Part.Obeys (p q : Part) : Prop where
  room : p.roomLaws → q.roomLaws
  roster : p.rosterLaws → q.rosterLaws

theorem Part.Keeps.obeys {p q : Part} (h : p.Keeps q) : p.Obeys q := ⟨h.room, h.roster⟩

theorem Part.Obeys.rfl {p : Part} : p.Obeys p := Part.Keeps.rfl.obeys

theorem Part.Obeys.trans {p q r : Part} (h : p.Obeys q) (h' : q.Obeys r) : p.Obeys r :=
  ⟨h'.room ∘ h.room, h'.roster ∘ h.roster⟩

theorem Part.Obeys.ite {p q r : Part} {c : Prop} [Decidable c] (h : p.Obeys q) (h' : p.Obeys r) :
    p.Obeys (if c then q else r) := by
  split
  · exact h
  · exact h'

theorem Part.receive_obeys {p : Part} (h : FrameHeader) (b : FrameBody) (owner : Part → Part)
    (ho : p.Obeys (owner p)) : p.Obeys (p.receive h b owner) := by
  unfold Part.receive
  split
  · split
    · exact (Part.dropFrame_keeps _ .rfl).obeys
    · exact ho
  · exact .rfl

/-- A command of the ring obeys the laws where an accepted one does: a refusal posts a report, and the consume position
is no matter of the laws. -/
theorem Part.takeCommand_obeys {p : Part} {body : Part → Except RefusalCode Part}
    (hb : ∀ q, body p = .ok q → p.Obeys q) : p.Obeys (p.takeCommand body) := by
  have advance (q : Part) : q.Keeps { q with
      hlk := { q.hlk with
        commandConsume := ringNext p.hlk.commandConsume p.hlk.commandSize
        statusMarked := true } } := Part.Keeps.rfl.work (Eq.refl _) (Eq.refl _) (Eq.refl _) (Nat.le_refl _)
  unfold Part.takeCommand
  split
  · cases hq : body p with
    | ok q => exact (hb q hq).trans (advance q).obeys
    | error code => exact (Part.postReport_keeps _ .rfl).obeys.trans (advance _).obeys
  · exact .rfl

theorem Part.whileRunning_command_keeps {p : Part} {body : Part → Except RefusalCode Part}
    (hb : ∀ q, body p = .ok q → p.Keeps q) : p.Keeps (p.takeCommand fun q => q.whileRunning body) :=
  Part.takeCommand_keeps .rfl fun _ hq => Part.whileRunning_keeps hb hq

theorem Part.livenessExpiry_obeys (p : Part) (lanesFirst : Bool) : p.Obeys (p.livenessExpiry lanesFirst) :=
  ⟨Part.livenessExpiry_room _, Part.livenessExpiry_roster _⟩

/-- A reset obeys the laws as long as the DRAM that it leaves is canonical. -/
theorem Part.resetWith_obeys {p : Part} (strap : DramSize) {d : Dram} (hd : p.memoryLaw → d.wf = true) :
    p.Obeys (p.resetWith strap d) :=
  ⟨fun h => Part.resetWith_room strap (hd h.1), fun _ => Part.resetWith_roster p strap d⟩

/-- A command answers with a part that obeys the laws where the part it ran on does. -/
def Instr.obeys (i : Instr) (s : State) : Prop :=
  ∃ q, exec i s = .next { s with part := s.part.markStatus q } ∧ s.part.Obeys q

theorem configure_obeys (c : ConfigRecord) (s : State) : Instr.obeys (.configure c) s := by
  refine ⟨_, rfl, Part.takeCommand_obeys fun q hq => ?_⟩
  split at hq
  · cases hq
  split at hq
  · cases hq
    exact ⟨Part.putInForce_room c, fun _ => Part.putInForce_roster s.part c⟩
  · cases hq

theorem start_obeys (s : State) : Instr.obeys .start s := by
  refine ⟨_, rfl, Part.takeCommand_obeys fun q hq => ?_⟩
  split at hq <;> cases hq
  · exact ⟨Part.coldStart_room, Part.coldStart_roster⟩
  · exact ⟨Part.warmStart_room, Part.warmStart_roster⟩

/-- The commands of the ring that are accepted in RUNNING alone leave the roster as it is (R164). -/
theorem runningOnly_obeys {i : Instr} (h : Instr.runningOnly i) (s : State) : Instr.obeys i s := by
  cases i
  case halt =>
    exact ⟨_, rfl, (Part.whileRunning_command_keeps fun q hq => by
      cases hq; exact Part.haltPart_keeps .rfl).obeys⟩
  case load record =>
    exact ⟨_, rfl, (Part.whileRunning_command_keeps fun q hq => Part.loadRecord_keeps .rfl hq).obeys⟩
  case drop stripe ownIndex =>
    exact ⟨_, rfl, (Part.whileRunning_command_keeps fun q hq => Part.dropRecord_keeps .rfl hq).obeys⟩
  case staged tag result =>
    refine ⟨_, rfl, (Part.whileRunning_command_keeps fun q hq => ?_).obeys⟩
    split at hq
    · cases hq
    · exact Part.answerStage_keeps .rfl hq
  case stored tag result =>
    refine ⟨_, rfl, (Part.whileRunning_command_keeps fun q hq => ?_).obeys⟩
    split at hq
    · cases hq
    · exact Part.answerStore_keeps .rfl hq
  case scanRelease rack =>
    refine ⟨_, rfl, (Part.whileRunning_command_keeps fun q hq => ?_).obeys⟩
    split at hq <;> cases hq
    exact Part.releaseRack_keeps _ .rfl
  case requeue stripe =>
    exact ⟨_, rfl, (Part.whileRunning_command_keeps fun q hq => Part.requeueStripe_keeps .rfl hq).obeys⟩
  all_goals exact h.elim

theorem arrival_obeys (h : FrameHeader) (b : FrameBody) (s : State) : Instr.obeys (b.arrival h) s := by
  cases b with
  | beacon rack status contexts =>
    exact ⟨_, rfl, Part.receive_obeys _ _ _ ⟨Part.takeBeacon_room _ _ _ _, Part.takeBeacon_roster _ _ _ _⟩⟩
  | rackdown rack => exact ⟨_, rfl, Part.receive_obeys _ _ _ ⟨Part.takeRackdown_room _, Part.takeRackdown_roster _⟩⟩
  | claim stripe rank flags lostMask =>
    exact ⟨_, rfl, Part.receive_obeys _ _ _ (Part.takeClaim_keeps _ _ _ _ _ .rfl).obeys⟩
  | withdraw stripe reason winner rebuiltMask =>
    refine ⟨_, rfl, Part.receive_obeys _ _ _ ?_⟩
    split
    · exact (Part.takeWithdraw_keeps _ _ _ _ _ .rfl).obeys
    · exact .rfl
  | fetchOpen stripe position tag =>
    exact ⟨_, rfl, Part.receive_obeys _ _ _ (Part.takeOpen_keeps _ _ _ _ .rfl).obeys⟩
  | ready tag digestPresent length digest =>
    refine ⟨_, rfl, Part.receive_obeys _ _ _ ?_⟩
    split
    · exact (Part.takeReady_keeps _ _ _ _ .rfl).obeys
    · exact .rfl
  | wait tag hint busy =>
    refine ⟨_, rfl, Part.receive_obeys _ _ _ ?_⟩
    split
    · exact (Part.takeWait_keeps _ _ _ _ .rfl).obeys
    · exact .rfl
  | refuse tag reason =>
    refine ⟨_, rfl, Part.receive_obeys _ _ _ ?_⟩
    split
    · exact (Part.takeRefuse_keeps _ _ _ .rfl).obeys
    · exact .rfl
  | pull tag chunk => exact ⟨_, rfl, Part.receive_obeys _ _ _ (Part.takePull_keeps _ _ _ .rfl).obeys⟩
  | chunk tag chunk data =>
    refine ⟨_, rfl, Part.receive_obeys _ _ _ ?_⟩
    split
    · exact (Part.takeChunk_keeps _ _ _ _ .rfl).obeys
    · exact .rfl
  | release tag =>
    exact ⟨_, rfl, Part.receive_obeys _ _ _ (.ite .rfl (Part.removeOpenersEverywhere_keeps _ .rfl).obeys)⟩

theorem exec_obeys (i : Instr) (s : State) : Instr.obeys i s := by
  cases i with
  | powerOnReset strap => exact ⟨_, rfl, Part.resetWith_obeys strap fun _ => Dram.undefined_wf _⟩
  | functionReset strap => exact ⟨_, rfl, Part.resetWith_obeys strap Part.dramKept_wf⟩
  | configure record => exact configure_obeys record s
  | start => exact start_obeys s
  | halt => exact runningOnly_obeys (i := .halt) trivial s
  | load record => exact runningOnly_obeys (i := .load record) trivial s
  | drop stripe ownIndex => exact runningOnly_obeys (i := .drop stripe ownIndex) trivial s
  | staged tag result => exact runningOnly_obeys (i := .staged tag result) trivial s
  | stored tag result => exact runningOnly_obeys (i := .stored tag result) trivial s
  | scanRelease rack => exact runningOnly_obeys (i := .scanRelease rack) trivial s
  | requeue stripe => exact runningOnly_obeys (i := .requeue stripe) trivial s
  | clearFlags mask =>
    exact ⟨_, rfl, Part.takeCommand_obeys fun q hq => by cases hq; exact (Part.clearFlags_keeps mask .rfl).obeys⟩
  | unknownCommandCode code => exact ⟨_, rfl, .ite .rfl (Part.takeCommand_obeys fun q hq => by cases hq)⟩
  | commandPostIndexWrite value => exact ⟨_, rfl, (Part.writePostIndex_keeps value .rfl).obeys⟩
  | reportConsumeIndexWrite value => exact ⟨_, rfl, (Part.writeReportConsume_keeps value .rfl).obeys⟩
  | ringRegisterWrite register value =>
    exact ⟨_, rfl, .ite (Part.setRingRegister_keeps register value .rfl).obeys .rfl⟩
  | registerWrite offset value => exact ⟨_, rfl, .rfl⟩
  | windowRead offset length => exact ⟨_, rfl, (Part.readWindow_keeps offset length .rfl).obeys⟩
  | windowWrite offset data => exact ⟨_, rfl, (Part.writeWindow_keeps offset data .rfl).obeys⟩
  | statusBlockRewrite => exact ⟨_, rfl, (Part.rewriteStatus_keeps .rfl).obeys⟩
  | initDone => exact ⟨_, rfl, .ite ⟨Part.initDone_room, Part.initDone_roster⟩ .rfl⟩
  | livenessTimerExpiry lanesFirst => exact ⟨_, rfl, Part.livenessExpiry_obeys _ _⟩
  | peerSilent station => exact ⟨_, rfl, .ite (Part.livenessExpiry_obeys _ _) .rfl⟩
  | peerLost station lanesFirst => exact ⟨_, rfl, .ite (Part.livenessExpiry_obeys _ _) .rfl⟩
  | suspectCountExpiry rack => exact ⟨_, rfl, .ite (Part.livenessExpiry_obeys _ _) .rfl⟩
  | beacon header rack status contexts => exact arrival_obeys header (.beacon rack status contexts) s
  | rackdown header rack => exact arrival_obeys header (.rackdown rack) s
  | claim header stripe rank flags lostMask => exact arrival_obeys header (.claim stripe rank flags lostMask) s
  | withdraw header stripe reason winner rebuiltMask =>
    exact arrival_obeys header (.withdraw stripe reason winner rebuiltMask) s
  | fetchOpen header stripe position tag => exact arrival_obeys header (.fetchOpen stripe position tag) s
  | pull header tag chunk => exact arrival_obeys header (.pull tag chunk) s
  | release header tag => exact arrival_obeys header (.release tag) s
  | ready header tag digestPresent length digest =>
    exact arrival_obeys header (.ready tag digestPresent length digest) s
  | wait header tag hint busy => exact arrival_obeys header (.wait tag hint busy) s
  | refuse header tag reason => exact arrival_obeys header (.refuse tag reason) s
  | chunk header tag chunk data => exact arrival_obeys header (.chunk tag chunk data) s
  | frameDrop frame => exact ⟨_, rfl, (Part.dropIfBad_keeps frame .rfl).obeys⟩
  | frameTransmit => exact ⟨_, rfl, .ite (Part.transmitHead_keeps .rfl).obeys .rfl⟩
  | heldFrameQueued => exact ⟨_, rfl, (Part.queueHeld_keeps .rfl).obeys⟩
  | serveHoldChunkQueued => exact ⟨_, rfl, (Part.queueHeldChunk_keeps .rfl).obeys⟩
  | sweepTimerExpiry => exact ⟨_, rfl, (Part.expireSweep_keeps .rfl).obeys⟩
  | passStart => exact ⟨_, rfl, .ite (Part.startPass_keeps .rfl).obeys .rfl⟩
  | scanVisit => exact ⟨_, rfl, .ite (Part.visit_keeps .rfl).obeys .rfl⟩
  | dequeue => exact ⟨_, rfl, .ite (Part.dequeueHead_keeps .rfl).obeys .rfl⟩
  | holdOffExpiry entry => exact ⟨_, rfl, (Part.expireHoldOff_keeps entry .rfl).obeys⟩
  | repeatTimerExpiry entry => exact ⟨_, rfl, (Part.expireRepeat_keeps entry .rfl).obeys⟩
  | yieldTimerExpiry entry => exact ⟨_, rfl, (Part.expireYield_keeps entry .rfl).obeys⟩
  | admission => exact ⟨_, rfl, .ite (Part.tryAdmit_keeps .rfl).obeys .rfl⟩
  | waitingContextServed =>
    exact ⟨_, rfl, (foldl_keeps s.part.Keeps _ _ _ .rfl fun _ c => Part.serveContext_keeps c).obeys⟩
  | fillStart => exact ⟨_, rfl, (Part.startFill_keeps .rfl).obeys⟩
  | fillDone => exact ⟨_, rfl, (Part.endFill_keeps .rfl).obeys⟩
  | planJobStart =>
    refine ⟨_, rfl, ?_⟩
    beta_reduce
    split
    · exact (Part.startPlan_keeps _
        (Part.Keeps.rfl.work (Eq.refl _) (Eq.refl _) (Eq.refl _) (Nat.le_refl _))).obeys
    · exact .rfl
  | planDone => exact ⟨_, rfl, (Part.endPlan_keeps .rfl).obeys⟩
  | planWaitDeadline context => exact ⟨_, rfl, (Part.expirePlanWait_keeps context .rfl).obeys⟩
  | internalOpenerAttach => exact ⟨_, rfl, (Part.serveWaiting_keeps _ .rfl).obeys⟩
  | verifyJobStart =>
    refine ⟨_, rfl, ?_⟩
    beta_reduce
    split
    · exact (Part.Keeps.rfl.work (Eq.refl _) (Eq.refl _) (Eq.refl _) (Nat.le_refl _)).obeys
    · exact .rfl
  | verifyDone => exact ⟨_, rfl, (Part.endVerify_keeps .rfl).obeys⟩
  | storeRequest context =>
    refine ⟨_, rfl, ?_⟩
    beta_reduce
    split
    · exact .rfl
    refine .ite ?_ .rfl
    split
    · exact (Part.postStoreRequest_keeps _ _ _ _ .rfl).obeys
    · exact .rfl
  | pendingOutcomeComplete context =>
    refine ⟨_, rfl, ?_⟩
    beta_reduce
    split
    · exact .ite .rfl (Part.completeReported_keeps _ _ .rfl).obeys
    · exact .rfl
  | openReplyTimeout lane => exact ⟨_, rfl, (Part.expireOpen_keeps lane .rfl).obeys⟩
  | pullReplyTimeout lane bank => exact ⟨_, rfl, (Part.expirePull_keeps lane bank .rfl).obeys⟩
  | waitTimerExpiry lane => exact ⟨_, rfl, (Part.expireWait_keeps lane .rfl).obeys⟩
  | combineStart => exact ⟨_, rfl, (Part.startCombine_keeps .rfl).obeys⟩
  | combineDone => exact ⟨_, rfl, (Part.endCombine_keeps .rfl).obeys⟩
  | stageRequest =>
    refine ⟨_, rfl, ?_⟩
    beta_reduce
    split
    · exact (Part.postStageRequest_keeps _ .rfl).obeys
    · exact .rfl
  | openerIdleExpiry entry station tag => exact ⟨_, rfl, (Part.expireOpener_keeps entry station tag .rfl).obeys⟩

theorem step_obeys {s t : State} (h : step s = .next t) : s.part.Obeys t.part := by
  obtain ⟨pending, p⟩ := s
  cases pending with
  | nil => cases h; exact (Part.tick_keeps .rfl).obeys
  | cons i rest =>
    obtain ⟨q, answer, obeys⟩ := exec_obeys i ⟨rest, p⟩
    cases answer.symm.trans h
    exact obeys.trans (Part.markStatus_keeps .rfl).obeys

/-- Settles O3: every effect of a command keeps the laws, and so does the clock. -/
theorem everyStepKeepsMemoryAndQueueLaws : Obligations.EveryStepKeepsMemoryAndQueueLaws :=
  fun _ _ memory queues h => (step_obeys h).room ⟨memory, queues⟩

/-- Settles O4: every effect of a command keeps the laws of the roster, and so does the clock. -/
theorem everyStepKeepsRackLaw : Obligations.EveryStepKeepsRackLaw :=
  fun _ _ shape racks h => (step_obeys h).roster ⟨shape, racks⟩

/-- Settles O5: the reset part has empty queues and an undefined DRAM, and its roster is that of any reset. -/
theorem resetObeysTheLaws : Obligations.ResetObeysTheLaws := by
  have room : State.reset.part.roomLaws := Part.resetWith_room (p := State.reset.part) .mib256 (Dram.undefined_wf 0)
  have roster : State.reset.part.rosterLaws :=
    Part.resetWith_roster State.reset.part .mib256 (Dram.undefined 0)
  exact ⟨room.1, room.2, roster.1, roster.2⟩

end Sys2Proof.Machine

/-! Commands of the ring: an accepted one answers with its effect and the consume position moved on, a refused one with
its report (R164); and what the resets and CONFIGURE leave (R147, R162, R165). -/

namespace Sys2Proof.Machine

/-! ## Runs and what they lead to -/

theorem leads_of_run {i : Instr} {s : State} {f : Part → Part} {after : Part → Prop} (h : exec i s = run s f)
    (ha : after (s.part.markStatus (f s.part))) : Leads i s after :=
  ⟨_, h, rfl, ha⟩

/-- A command answers with its effect; the effect may be given up to the status block's mark. -/
theorem answers_of_effect {i : Instr} {s : State} {f : Part → Part} {q : Part} (h : exec i s = run s f)
    (hq : (f s.part).unmarked = q.unmarked) : Answers i s q :=
  ⟨_, h, rfl, (s.part.unmarked_markStatus _).trans hq⟩

/-! ## The ring reader (R164) -/

/-- The ring's position and size, which no effect of a command but the reader's own moves. -/
def HostLink.sameRing (h h' : HostLink) : Prop :=
  h'.commandConsume = h.commandConsume ∧ h'.commandSize = h.commandSize

theorem Part.consumed_unmarked {p q : Part} (ring : p.hlk.sameRing q.hlk) :
    Part.unmarked { q with
      hlk := { q.hlk with
        commandConsume := ringNext p.hlk.commandConsume p.hlk.commandSize
        statusMarked := true } } = q.consumed.unmarked := by
  obtain ⟨consume, size⟩ := ring
  simp [Part.unmarked, Part.consumed, consume, size]

theorem Part.takeCommand_accepted {p q : Part} {body : Part → Except RefusalCode Part} (taken : p.readerTakes = true)
    (accepted : body p = .ok q) (ring : p.hlk.sameRing q.hlk) : (p.takeCommand body).unmarked = q.consumed.unmarked := by
  rw [Part.takeCommand, if_pos taken, accepted]
  exact Part.consumed_unmarked ring

theorem Part.postReport_sameRing (p : Part) (r : Report) : p.hlk.sameRing (p.postReport r).hlk := by
  unfold Part.postReport Part.postReport?
  split
  · exact ⟨rfl, rfl⟩
  · split <;> exact ⟨rfl, rfl⟩

theorem Part.takeCommand_refused {p : Part} {code : RefusalCode} {body : Part → Except RefusalCode Part}
    (taken : p.readerTakes = true) (refused : body p = .error code) :
    (p.takeCommand body).unmarked = (p.refusedWith code).unmarked := by
  rw [Part.takeCommand, if_pos taken, refused]
  exact Part.consumed_unmarked (p.postReport_sameRing _)

theorem answers_of_accepted {i : Instr} {s : State} {q : Part} {body : Part → Except RefusalCode Part}
    (h : exec i s = run s fun p => p.takeCommand body) (taken : s.part.readerTakes = true)
    (accepted : body s.part = .ok q) (ring : s.part.hlk.sameRing q.hlk) : Answers i s q.consumed :=
  answers_of_effect h (Part.takeCommand_accepted taken accepted ring)

theorem answers_of_refused {i : Instr} {s : State} {code : RefusalCode} {body : Part → Except RefusalCode Part}
    (h : exec i s = run s fun p => p.takeCommand body) (taken : s.part.readerTakes = true)
    (refused : body s.part = .error code) : Answers i s (s.part.refusedWith code) :=
  answers_of_effect h (Part.takeCommand_refused taken refused)

theorem Part.whileRunning_running {p : Part} (running : p.hlk.phase = .running)
    (body : Part → Except RefusalCode Part) : p.whileRunning body = body p := if_pos running

theorem Part.whileRunning_notRunning {p : Part} (phase : p.hlk.phase ≠ .running)
    (body : Part → Except RefusalCode Part) : p.whileRunning body = .error .badState := if_neg phase

/-! ## The resets (R162) -/

theorem Part.resetWith_justReset (p : Part) (strap : DramSize) (d : Dram) : (p.resetWith strap d).JustReset strap where
  config := rfl
  phase := rfl
  rings := ⟨rfl, rfl, rfl, rfl, rfl⟩
  indices := ⟨rfl, rfl, rfl, rfl⟩
  flags := ⟨rfl, rfl⟩
  reports := rfl
  tags := ⟨rfl, rfl, rfl⟩
  peers := rfl
  racks _ h := (Table.row?_range _ _ _).trans (if_pos h)
  liveness := rfl
  table := rfl
  scanner := rfl
  queue := ⟨rfl, rfl⟩
  claims := rfl
  contexts := ⟨rfl, fun c h => congrArg (·.getD 0) ((Table.row?_range (fun _ => (0 : BitVec 8)) 32 c).trans (if_pos h))⟩
  plans := rfl
  lanes _ h := (Table.row?_range _ _ _).trans (if_pos h)
  serves := rfl
  combine := rfl
  verify := rfl
  slots := ⟨rfl, rfl, rfl, rfl⟩
  port := ⟨rfl, rfl, rfl, rfl⟩

theorem Part.JustReset.markStatus {p q : Part} {strap : DramSize} (h : q.JustReset strap) :
    (p.markStatus q).JustReset strap := by
  unfold Part.markStatus
  split
  · exact h
  · exact { h with }

theorem Dram.byte_undefined (seed offset : Nat) : (Dram.undefined seed).byte offset = Config.undefinedByte seed offset :=
  rfl

theorem Part.dramKept_idle {p : Part} (phase : p.hlk.phase ≠ .initializing) (fill : p.smc.fill = none)
    (operation : p.cbe.operation = none) : p.dramKept = p.smc.dram := by
  rw [Part.dramKept, if_neg phase, Part.cutShort, fill, operation]

/-- Settles O6. -/
theorem resetsEmptyEveryBlock : Obligations.ResetsEmptyEveryBlock := by
  intro strap w p
  have outputs (d : Dram) (q : Part) : (q.markStatus (p.resetWith strap d)).sgp.wire = p.sgp.wire
      ∧ (q.markStatus (p.resetWith strap d)).hlk.hostMemory = p.hlk.hostMemory := by simp [Part.resetWith]
  refine ⟨⟨_, rfl, rfl, (p.resetWith_justReset strap _).markStatus, fun offset => ?_, outputs _ _⟩,
    ⟨_, rfl, rfl, (p.resetWith_justReset strap _).markStatus, fun phase fill operation => ?_, outputs _ _⟩⟩
  · rw [Part.markStatus_smc]
    exact Dram.byte_undefined _ _
  · rw [Part.markStatus_smc]
    exact Part.dramKept_idle phase fill operation

/-! ## CONFIGURE (R165) -/

theorem memberEntryAcceptable_iff (b : Byte) : memberEntryAcceptable b = true ↔ b = 0xFF#8 ∨ b.toNat ≤ 15 := by
  simp [memberEntryAcceptable]

theorem geometryAcceptable_iff (g : Byte × Byte) : geometryAcceptable g = true ↔ g.1 = 0 ∨
    (2 ≤ g.1.toNat ∧ g.1.toNat ≤ 12 ∧ 1 ≤ g.2.toNat ∧ g.2.toNat ≤ 4 ∧ g.1.toNat + g.2.toNat ≤ 16) := by
  have zero : g.1.toNat = 0 ↔ g.1 = 0 := by rw [← BitVec.toNat_inj]; rfl
  simp [geometryAcceptable, zero, and_assoc]

theorem ConfigRecord.acceptable_iff (c : ConfigRecord) : ConfigRecord.acceptable c = true ↔ ConfigRecord.Lawful c := by
  have hold : c.releaseHold.toNat ≤ 1 ↔ c.releaseHold = 0 ∨ c.releaseHold = 1 := by
    rw [← BitVec.toNat_inj, ← BitVec.toNat_inj]
    change _ ↔ c.releaseHold.toNat = 0 ∨ c.releaseHold.toNat = 1
    omega
  simp only [ConfigRecord.acceptable, Bool.and_eq_true, List.all_eq_true, memberEntryAcceptable_iff,
    geometryAcceptable_iff, decide_eq_true_eq, hold, Option.isSome_iff_exists]
  constructor
  · rintro ⟨⟨⟨⟨members, own⟩, rack⟩, geometries⟩, release⟩
    exact ⟨members, ⟨by omega, rack⟩, geometries, release⟩
  · rintro ⟨members, ⟨own, rack⟩, geometries, release⟩
    exact ⟨⟨⟨⟨members, by omega⟩, rack⟩, geometries⟩, release⟩

theorem clampNat_bounds {low high : Nat} (h : low ≤ high) (n : Nat) :
    low ≤ clampNat low high n ∧ clampNat low high n ≤ high := by
  simp only [clampNat]
  omega

theorem clampNat_of_bounds {low high n : Nat} (h : low ≤ n ∧ n ≤ high) : clampNat low high n = n := by
  simp only [clampNat]
  omega

theorem toNat_clamped {w low high : Nat} (n : Nat) (h : low ≤ high) (hw : high < 2 ^ w) :
    low ≤ (BitVec.ofNat w (clampNat low high n)).toNat ∧ (BitVec.ofNat w (clampNat low high n)).toNat ≤ high := by
  have bounds := clampNat_bounds h n
  rwa [BitVec.toNat_ofNat, Nat.mod_eq_of_lt (by omega)]

theorem ofNat_clampNat {w low high : Nat} {v : BitVec w} (h : low ≤ v.toNat ∧ v.toNat ≤ high) :
    BitVec.ofNat w (clampNat low high v.toNat) = v := by
  rw [clampNat_of_bounds h, BitVec.ofNat_toNat, BitVec.setWidth_eq]

/-- The pool of a strap leaves the serve reserve a range of its own (R147, R149). -/
theorem DramSize.reserve_range (strap : DramSize) : 16 ≤ strap.pool - 128 ∧ strap.pool - 128 < 2 ^ 16 := by
  cases strap <;> decide

theorem ConfigRecord.clamped_inForce (c : ConfigRecord) (strap : DramSize) :
    ConfigRecord.InForce (ConfigRecord.clamped c strap.pool) strap.pool where
  etherType := by
    simp only [ConfigRecord.clamped]
    split
    · decide
    · omega
  interruptEnables := by
    simp only [ConfigRecord.clamped, BitVec.and_assoc]
    exact BitVec.and_zero
  beaconPeriod := toNat_clamped _ (by decide) (by decide)
  shortCount := toNat_clamped _ (by decide) (by decide)
  longCount := by
    have short := clampNat_bounds (low := 2) (high := 8) (by decide) c.shortCount.toNat
    have long := toNat_clamped (w := 8) (low := clampNat 2 8 c.shortCount.toNat + 1) (high := 64) c.longCount.toNat
      (by omega) (by decide)
    simp only [ConfigRecord.clamped, BitVec.toNat_ofNat] at long ⊢
    omega
  claimHoldOff := toNat_clamped _ (by decide) (by decide)
  claimRepeat := toNat_clamped _ (by decide) (by decide)
  replyTimeout := toNat_clamped _ (by decide) (by decide)
  tries := toNat_clamped _ (by decide) (by decide)
  openerIdleLimit := toNat_clamped _ (by decide) (by decide)
  sweepInterval := toNat_clamped _ (by decide) (by decide)
  serveReserve := toNat_clamped _ (DramSize.reserve_range strap).1 (DramSize.reserve_range strap).2

theorem enables_of_unused {b : Byte} (h : b &&& 0xE0#8 = 0) : b &&& 0x1F#8 = b := by
  revert h
  revert b
  decide

theorem ConfigRecord.clamped_of_inForce {c : ConfigRecord} {pool : Nat} (h : ConfigRecord.InForce c pool) :
    ConfigRecord.clamped c pool = c := by
  have short := clampNat_of_bounds h.shortCount
  have etherType : ¬ c.etherType.toNat < 0x0600 := Nat.not_lt.2 h.etherType
  simp only [ConfigRecord.clamped, if_neg etherType, enables_of_unused h.interruptEnables, short,
    ofNat_clampNat h.beaconPeriod, ofNat_clampNat h.longCount, ofNat_clampNat h.claimHoldOff,
    ofNat_clampNat h.claimRepeat, ofNat_clampNat h.replyTimeout, ofNat_clampNat h.tries,
    ofNat_clampNat h.openerIdleLimit, ofNat_clampNat h.sweepInterval, ofNat_clampNat h.serveReserve,
    BitVec.ofNat_toNat, BitVec.setWidth_eq]

theorem ConfigRecord.accepted_iff (c : ConfigRecord) (p : Part) :
    (ConfigRecord.acceptable c && ringSizeValid p.hlk.reportSize && statusAddressValid p.hlk.statusAddress) = true
      ↔ ConfigRecord.Lawful c ∧ ringSizeValid p.hlk.reportSize = true
        ∧ statusAddressValid p.hlk.statusAddress = true := by
  simp only [Bool.and_eq_true, ConfigRecord.acceptable_iff, and_assoc]

theorem Part.configure_accepted {p : Part} {c : ConfigRecord} (taken : p.readerTakes = true)
    (phase : p.hlk.phase = .setup ∨ p.hlk.phase = .configured) (lawful : ConfigRecord.Lawful c)
    (size : ringSizeValid p.hlk.reportSize = true) (address : statusAddressValid p.hlk.statusAddress = true)
    (w : List Instr) : Answers (.configure c) ⟨w, p⟩ (p.putInForce c).consumed := by
  have allowed : ¬ (p.hlk.phase ≠ .setup ∧ p.hlk.phase ≠ .configured) := by tauto
  exact answers_of_accepted (s := ⟨w, p⟩) rfl taken
    ((if_neg allowed).trans (if_pos ((ConfigRecord.accepted_iff c p).2 ⟨lawful, size, address⟩))) ⟨rfl, rfl⟩

/-- Settles O7: the accepted record is put in force as R165 clamps it, and clamping lands in the ranges and leaves
what is within them. -/
theorem configureTakesTheClampedRecord : Obligations.ConfigureTakesTheClampedRecord := by
  refine ⟨fun c w p taken phase lawful size address => ?_,
    fun c strap => ⟨ConfigRecord.clamped_inForce c strap, ConfigRecord.clamped_of_inForce⟩⟩
  obtain ⟨t, answer, waiting, same⟩ := Part.configure_accepted taken phase lawful size address w
  have config : t.part.config = (p.putInForce c).config := (congrArg Part.config same :)
  have roster : t.part.prs = (p.putInForce c).prs := (congrArg Part.prs same :)
  have phaseAfter : t.part.hlk.phase = .configured := (congrArg (fun q : Part => q.hlk.phase) same :)
  refine ⟨t, answer, waiting, config, phaseAfter, fun station => ?_, fun rack => ?_, ?_⟩
  · rw [Part.peer?, roster]
    refine (ConfigRecord.peers_row? c station).trans ?_
    simp only [Peer.configured, beq_iff_eq]
  · rw [roster]
    refine (ConfigRecord.racks_row? c rack).trans ?_
    simp only [beq_eq_decide]
  · exact (congrArg (fun q : Part => { q with
      config := p.config
      hlk := { q.hlk with phase := p.hlk.phase }
      prs := { q.prs with peers := p.prs.peers, racks := p.prs.racks } }) same :)

end Sys2Proof.Machine

/-! The refusals of the ring's commands: each check that a command fails gives its code, and the refusal posts its report
and does nothing else (R11, R13, R64, R164, R165, R168). -/

namespace Sys2Proof.Machine

/-! ## Checks of a LOAD (R11) -/

theorem Part.loadFieldsOk_iff (p : Part) (l : LoadRecord) (g : Geometry) :
    p.loadFieldsOk l g = true ↔ LoadRecord.Fits p l g := by
  have isOwn (b : Option Byte) : Option.map BitVec.toNat b = some p.own ↔ ∃ v, b = some v ∧ v.toNat = p.own := by
    cases b <;> simp
  have own (h : l.ownIndex.toNat < g.width) :
      (LoadRecord.stations l g.width)[l.ownIndex.toNat]? = some p.own
        ↔ ∃ b, l.placement[l.ownIndex.toNat]? = some b ∧ b.toNat = p.own := by
    rw [LoadRecord.stations, List.getElem?_map, List.getElem?_take_of_lt h, isOwn]
  simp only [Part.loadFieldsOk, Bool.and_eq_true, decide_eq_true_eq, List.all_eq_true, beq_iff_eq,
    Option.isSome_iff_exists, LoadRecord.stations, List.forall_mem_map]
  constructor
  · rintro ⟨⟨⟨length, index⟩, members⟩, station⟩
    exact ⟨length, index, members, (own index).1 station⟩
  · rintro ⟨length, index, members, station⟩
    exact ⟨⟨⟨length, index⟩, members⟩, (own index).2 station⟩

/-- A record of the stripe disagrees with the LOAD about geometry or length (R11, check 3). -/
theorem Part.recordsDiffer_iff (p : Part) (l : LoadRecord) :
    ((p.recordsOf l.stripe).any fun r => r.geometry != l.geometry.toNat || r.length != l.length.toNat) = true
      ↔ ∃ r ∈ p.hdt, r.2.stripe = l.stripe
        ∧ (r.2.geometry ≠ l.geometry.toNat ∨ r.2.length ≠ l.length.toNat) := by
  simp [Part.recordsOf]

theorem Part.holds_iff (p : Part) (t : StripeId) (index : Nat) :
    p.holds t index = true ↔ ∃ r ∈ p.hdt, r.2.stripe = t ∧ r.2.ownIndex = index := by
  simp [Part.holds, Part.recordOf?, Table.findRow?]

section
variable {p : Part} {l : LoadRecord} {g : Geometry} (geometry : p.geometry? l.geometry.toNat = some g)
include geometry

theorem Part.loadRecord_unfit (unfit : ¬ LoadRecord.Fits p l g) : p.loadRecord l = .error .badField := by
  have fields : p.loadFieldsOk l g = false := by rwa [← Bool.not_eq_true, p.loadFieldsOk_iff l g]
  simp [Part.loadRecord, geometry, fields]

variable (fits : LoadRecord.Fits p l g)
include fits

theorem Part.loadRecord_differs
    (differs : ∃ r ∈ p.hdt, r.2.stripe = l.stripe
      ∧ (r.2.geometry ≠ l.geometry.toNat ∨ r.2.length ≠ l.length.toNat)) :
    p.loadRecord l = .error .badField := by
  simp only [Part.loadRecord, geometry, (p.loadFieldsOk_iff l g).2 fits, (p.recordsDiffer_iff l).2 differs]
  rfl

variable (agree : ∀ r ∈ p.hdt, r.2.stripe = l.stripe →
  r.2.geometry = l.geometry.toNat ∧ r.2.length = l.length.toNat)
include agree

/-- A LOAD whose fields fit its geometry and its stripe's records comes down to the key and the table (R11). -/
theorem Part.loadRecord_agreeing : p.loadRecord l =
    if p.holds l.stripe l.ownIndex.toNat then .error .exists_
    else match p.insertLoaded l g.width with
      | none => .error .full
      | some q => .ok q := by
  have same : ((p.recordsOf l.stripe).any fun r =>
      r.geometry != l.geometry.toNat || r.length != l.length.toNat) = false := by
    rw [← Bool.not_eq_true, p.recordsDiffer_iff l]
    rintro ⟨r, hr, stripe, differs⟩
    have := agree r hr stripe
    tauto
  simp only [Part.loadRecord, geometry, (p.loadFieldsOk_iff l g).2 fits, same]
  rfl

theorem Part.loadRecord_exists (held : ∃ r ∈ p.hdt, r.2.stripe = l.stripe ∧ r.2.ownIndex = l.ownIndex.toNat) :
    p.loadRecord l = .error .exists_ := by
  rw [Part.loadRecord_agreeing geometry fits agree, if_pos ((p.holds_iff _ _).2 held)]

theorem Part.loadRecord_newKey (new : ∀ r ∈ p.hdt, r.2.stripe = l.stripe → r.2.ownIndex ≠ l.ownIndex.toNat) :
    p.loadRecord l = match p.insertLoaded l g.width with
      | none => .error .full
      | some q => .ok q := by
  rw [Part.loadRecord_agreeing geometry fits agree, if_neg]
  rw [p.holds_iff]
  rintro ⟨r, hr, stripe, index⟩
  exact new r hr stripe index

end

theorem Part.insertLoaded_full {p : Part} (l : LoadRecord) (n : Nat) (full : p.hdt.lowestFree? tablePositions = none) :
    p.insertLoaded l n = none := by
  have none (r : HoldingRecord) : p.insertRecord? r = none := by rw [Part.insertRecord?, full, Option.map_none]
  unfold Part.insertLoaded
  cases record : p.firstRecord? l.stripe <;> simp [record, none]

/-! ## Refusals by state (R164) -/

theorem runningOnly_refused {i : Instr} {p : Part} (w : List Instr) (taken : p.readerTakes = true)
    (only : Instr.runningOnly i) (phase : p.hlk.phase ≠ .running) : Answers i ⟨w, p⟩ (p.refusedWith .badState) := by
  cases i
  case halt | load | drop | staged | stored | scanRelease | requeue =>
    exact answers_of_refused (s := ⟨w, p⟩) rfl taken (Part.whileRunning_notRunning phase _)
  all_goals exact only.elim

theorem configure_refusedByState {p : Part} (w : List Instr) (c : ConfigRecord) (taken : p.readerTakes = true)
    (phase : p.hlk.phase = .running ∨ p.hlk.phase = .halted) :
    Answers (.configure c) ⟨w, p⟩ (p.refusedWith .badState) :=
  answers_of_refused (s := ⟨w, p⟩) rfl taken (if_pos (by rcases phase with h | h <;> simp [h]))

theorem configure_refusedByField {p : Part} (w : List Instr) (c : ConfigRecord) (taken : p.readerTakes = true)
    (phase : p.hlk.phase = .setup ∨ p.hlk.phase = .configured)
    (refused : ¬ ConfigRecord.Lawful c ∨ ringSizeValid p.hlk.reportSize = false
      ∨ statusAddressValid p.hlk.statusAddress = false) :
    Answers (.configure c) ⟨w, p⟩ (p.refusedWith .badField) := by
  have allowed : ¬ (p.hlk.phase ≠ .setup ∧ p.hlk.phase ≠ .configured) := by tauto
  refine answers_of_refused (s := ⟨w, p⟩) rfl taken ((if_neg allowed).trans (if_neg ?_))
  rw [ConfigRecord.accepted_iff c p]
  rintro ⟨lawful, size, address⟩
  simp_all

theorem start_refused {p : Part} (w : List Instr) (taken : p.readerTakes = true)
    (phase : p.hlk.phase = .setup ∨ p.hlk.phase = .running) : Answers .start ⟨w, p⟩ (p.refusedWith .badState) :=
  answers_of_refused (s := ⟨w, p⟩) rfl taken (by rcases phase with h | h <;> simp only [h])

theorem unknownCode_refused {p : Part} {code : Byte} (w : List Instr) (taken : p.readerTakes = true)
    (unlisted : code = 0 ∨ 0x0A < code.toNat) : Answers (.unknownCommandCode code) ⟨w, p⟩ (p.refusedWith .badField) := by
  have notListed : listedCommandCodes.contains code.toNat = false := by
    revert unlisted
    revert code
    decide
  refine answers_of_effect (s := ⟨w, p⟩) (f := fun p =>
    if listedCommandCodes.contains code.toNat then p else p.takeCommand fun _ => .error .badField) rfl ?_
  simp only [notListed]
  exact Part.takeCommand_refused (body := fun _ => .error .badField) taken rfl

/-! ## Refusals in RUNNING -/

section
variable {p : Part} (w : List Instr) (taken : p.readerTakes = true) (running : p.hlk.phase = .running)
include taken running

/-- In RUNNING a command that is accepted there alone is refused with the code that its own checks give. -/
theorem refused_whileRunning {i : Instr} {code : RefusalCode} {body : Part → Except RefusalCode Part}
    (h : ∀ s, exec i s = run s fun p => p.takeCommand fun q => q.whileRunning body)
    (refused : body p = .error code) : Answers i ⟨w, p⟩ (p.refusedWith code) :=
  answers_of_refused (s := ⟨w, p⟩) (h ⟨w, p⟩) taken ((Part.whileRunning_running running body).trans refused)

theorem load_refused {l : LoadRecord} {code : RefusalCode} (refused : p.loadRecord l = .error code) :
    Answers (.load l) ⟨w, p⟩ (p.refusedWith code) :=
  refused_whileRunning w taken running (fun _ => rfl) refused

theorem result_refused (tag : Tag) {result : Byte} (notOk : result ≠ 0x01) (notFailed : result ≠ 0x02) :
    Answers (.staged tag result) ⟨w, p⟩ (p.refusedWith .badField)
      ∧ Answers (.stored tag result) ⟨w, p⟩ (p.refusedWith .badField) := by
  have unread : resultOf? result = none := by rw [resultOf?, if_neg notOk, if_neg notFailed]
  exact ⟨refused_whileRunning w taken running (fun _ => rfl) (by simp only [unread]),
    refused_whileRunning w taken running (fun _ => rfl) (by simp only [unread])⟩

theorem answer_stale (tag : Tag) {result : Byte} (listed : result = 0x01 ∨ result = 0x02) :
    (tag ∉ p.hlk.stageTags → Answers (.staged tag result) ⟨w, p⟩ (p.refusedWith .stale))
      ∧ (tag ∉ p.hlk.storeTags → Answers (.stored tag result) ⟨w, p⟩ (p.refusedWith .stale)) := by
  obtain ⟨ok, read⟩ : ∃ ok, resultOf? result = some ok := by rcases listed with rfl | rfl <;> exact ⟨_, rfl⟩
  refine ⟨fun unknown => refused_whileRunning w taken running (fun _ => rfl) ?_,
    fun unknown => refused_whileRunning w taken running (fun _ => rfl) ?_⟩
  · simp [read, Part.answerStage, unknown]
  · simp [read, Part.answerStore, unknown]

theorem requeue_notFound {t : StripeId} (unknown : p.firstRecord? t = none) :
    Answers (.requeue t) ⟨w, p⟩ (p.refusedWith .notFound) :=
  refused_whileRunning w taken running (fun _ => rfl) (by simp [Part.requeueStripe, unknown])

theorem requeue_atWork {t : StripeId} {r : HoldingRecord} (record : p.firstRecord? t = some r)
    (atWork : r.standing = .queued ∨ r.standing = .claiming ∨ r.standing = .parked) :
    Answers (.requeue t) ⟨w, p⟩ (p.refusedWith .badState) := by
  have notIdle : ¬ (r.standing = .quiet ∨ r.standing = .unrecoverable) := by
    rcases atWork with h | h | h <;> simp [h]
  exact refused_whileRunning w taken running (fun _ => rfl) (by simp [Part.requeueStripe, record, notIdle])

theorem drop_notFound {t : StripeId} {index : Byte} (unknown : p.recordOf? t index.toNat = none) :
    Answers (.drop t index) ⟨w, p⟩ (p.refusedWith .notFound) :=
  refused_whileRunning w taken running (fun _ => rfl) (by simp [Part.dropRecord, unknown])

theorem scanRelease_refused {rack : Byte} (beyond : 15 < rack.toNat) :
    Answers (.scanRelease rack) ⟨w, p⟩ (p.refusedWith .badField) :=
  refused_whileRunning w taken running (fun _ => rfl) (if_pos beyond)

end

/-- Settles O8. -/
theorem refusalsDoNothingElse : Obligations.RefusalsDoNothingElse := by
  refine ⟨fun w p taken => ⟨fun i => runningOnly_refused w taken,
      fun phase c => configure_refusedByState w c taken phase, start_refused w taken⟩,
    fun w p taken => ⟨fun code => unknownCode_refused w taken, fun c => configure_refusedByField w c taken,
      fun running => ⟨fun rack => scanRelease_refused w taken running, fun tag result => result_refused w taken running tag,
        fun l unconfigured => ?_⟩⟩,
    fun w p l g taken running geometry => ⟨fun unfit => ?_, fun fits => ⟨fun differs => ?_, fun agree =>
      ⟨fun held => ?_, fun new full => ?_⟩⟩⟩,
    fun w p taken running => ⟨fun t index => drop_notFound w taken running, fun t => requeue_notFound w taken running,
      fun t r => requeue_atWork w taken running, fun tag result => answer_stale w taken running tag⟩⟩
  · exact load_refused w taken running (by simp [Part.loadRecord, unconfigured])
  · exact load_refused w taken running (Part.loadRecord_unfit geometry unfit)
  · exact load_refused w taken running (Part.loadRecord_differs geometry fits differs)
  · exact load_refused w taken running (Part.loadRecord_exists geometry fits agree held)
  · refine load_refused w taken running ((Part.loadRecord_newKey geometry fits agree new).trans ?_)
    rw [Part.insertLoaded_full l g.width full]

end Sys2Proof.Machine

/-! Where a report and a control frame go: the ring or the internal report queue, the control queue, the hold list or the
drop count; the frames that a CLAIM or WITHDRAW replaces, and those that a lane withdraws (R158, R159, R169). -/

namespace Sys2Proof.Machine

/-! ## Reports (R169) -/

theorem Part.postReport_ring {p : Part} (r : Report) (empty : p.hlk.reportQueue = []) (place : p.ringPlace = true) :
    p.postReport r = p.writeReport r := by
  simp [Part.postReport, Part.postReport?, empty, place]

theorem Part.postReport_queue {p : Part} (r : Report) (waits : p.hlk.reportQueue ≠ [] ∨ p.ringPlace = false)
    (room : p.hlk.reportQueue.length < 64) :
    p.postReport r =
      { p with hlk := { p.hlk with reportQueue := p.hlk.reportQueue ++ [{ report := r, tagVoid := false }] } } := by
  have notRing : (p.hlk.reportQueue.isEmpty && p.ringPlace) = false := by
    rw [Bool.and_eq_false_iff]
    exact waits.imp_left fun h => by simpa using h
  rw [Part.postReport, Part.postReport?, notRing, if_neg Bool.false_ne_true, if_pos room]
  rfl

/-! ## Frames (R158, R159) -/

section
variable {p : Part} (target : Option Nat) {b : FrameBody}

/-- A frame that finds no CLAIM of its stripe waiting is one for the queue or the hold list. -/
theorem Part.post_fresh (fresh : ∀ t, b.contestStripe? = some t → p.claimWaits t = false) :
    p.post target b = p.enqueueControl { target := target, epoch := p.prs.ownEpoch, body := b } := by
  unfold Part.post
  cases contest : b.contestStripe? with
  | none => rfl
  | some t => simp [fresh t contest]

theorem Part.post_queueOpen (fresh : ∀ t, b.contestStripe? = some t → p.claimWaits t = false) (room : p.queueOpen) :
    p.post target b = p.queued target b :=
  (Part.post_fresh target fresh).trans (Part.enqueueControl_of_queueOpen _ room)

theorem Part.enqueueControl_queued {f : ControlFrame} (room : p.serveHeld.queueOpen) :
    p.enqueueControl f =
      { p.serveHeld with sgp := { p.serveHeld.sgp with control := p.serveHeld.sgp.control ++ [f] } } := by
  obtain ⟨noneHeld, place⟩ := room
  rw [Part.enqueueControl, if_pos]
  simp [noneHeld, place]

theorem Part.enqueueControl_held {f : ControlFrame}
    (closed : p.serveHeld.sgp.hold ≠ [] ∨ p.serveHeld.controlPlace = false)
    (room : p.serveHeld.sgp.hold.length < holdPlaces) :
    p.enqueueControl f =
      { p.serveHeld with sgp := { p.serveHeld.sgp with hold := p.serveHeld.sgp.hold ++ [f] } } := by
  have notQueued : ¬ (p.serveHeld.sgp.hold.isEmpty && p.serveHeld.controlPlace) = true := by
    rcases closed with held | noPlace
    · simp [held]
    · simp [noPlace]
  rw [Part.enqueueControl, if_neg notQueued, if_pos room]

theorem Part.enqueueControl_discarded {f : ControlFrame} (full : holdPlaces ≤ p.serveHeld.sgp.hold.length) :
    p.enqueueControl f = p.serveHeld.counted .staleSend := by
  have notQueued : ¬ (p.serveHeld.sgp.hold.isEmpty && p.serveHeld.controlPlace) = true := by
    have held : p.serveHeld.sgp.hold ≠ [] := by rintro h; simp [h, holdPlaces] at full
    simp [held]
  rw [Part.enqueueControl, if_neg notQueued, if_neg (Nat.not_lt.2 full)]
  rfl

theorem replaceClaim_none {t : StripeId} {new : ControlFrame} {frames : List ControlFrame}
    (none : ∀ f ∈ frames, f.body.isClaimOf t = false) : replaceClaim t new frames = frames := by
  rw [replaceClaim, List.map_congr_left (g := id) fun f hf => by simp [none f hf], List.map_id]

/-- Of a list with one CLAIM of the stripe only that one is replaced. -/
theorem replaceClaim_one {t : StripeId} {new f : ControlFrame} {before after : List ControlFrame}
    (claim : f.body.isClaimOf t = true) (alone : ∀ g ∈ before ++ after, g.body.isClaimOf t = false) :
    replaceClaim t new (before ++ f :: after) = before ++ new :: after := by
  have earlier := replaceClaim_none (new := new) fun g hg => alone g (List.mem_append_left after hg)
  have later := replaceClaim_none (new := new) fun g hg => alone g (List.mem_append_right before hg)
  simp only [replaceClaim] at earlier later ⊢
  rw [List.map_append, List.map_cons, earlier, later, if_pos claim]

theorem Part.post_replaces {t : StripeId} (contest : b.contestStripe? = some t) (waits : p.claimWaits t = true) :
    p.post target b = { p with
      sgp := { p.sgp with
        control := replaceClaim t { target := target, epoch := p.prs.ownEpoch, body := b } p.sgp.control
        hold := replaceClaim t { target := target, epoch := p.prs.ownEpoch, body := b } p.sgp.hold } } := by
  simp [Part.post, contest, waits]

theorem Part.post_replacesQueued {t : StripeId} {before after : List ControlFrame} {f : ControlFrame}
    (contest : b.contestStripe? = some t) (claim : f.body.isClaimOf t = true)
    (control : p.sgp.control = before ++ f :: after)
    (alone : ∀ g ∈ before ++ after ++ p.sgp.hold, g.body.isClaimOf t = false) :
    p.post target b = { p with
      sgp := { p.sgp with
        control := before ++ { target := target, epoch := p.prs.ownEpoch, body := b } :: after } } := by
  have waits : p.claimWaits t = true := by simp [Part.claimWaits, control, claim]
  rw [Part.post_replaces target contest waits, control,
    replaceClaim_one claim fun g hg => alone g (List.mem_append_left _ hg),
    replaceClaim_none fun g hg => alone g (List.mem_append_right _ hg)]

theorem Part.post_replacesHeld {t : StripeId} {before after : List ControlFrame} {f : ControlFrame}
    (contest : b.contestStripe? = some t) (claim : f.body.isClaimOf t = true)
    (hold : p.sgp.hold = before ++ f :: after)
    (alone : ∀ g ∈ p.sgp.control ++ before ++ after, g.body.isClaimOf t = false) :
    p.post target b = { p with
      sgp := { p.sgp with
        hold := before ++ { target := target, epoch := p.prs.ownEpoch, body := b } :: after } } := by
  have waits : p.claimWaits t = true := by simp [Part.claimWaits, hold, claim]
  rw [List.append_assoc] at alone
  rw [Part.post_replaces target contest waits, hold,
    replaceClaim_one claim fun g hg => alone g (List.mem_append_right _ hg),
    replaceClaim_none fun g hg => alone g (List.mem_append_left _ hg)]

end

/-- Settles O9: each place that a report or a frame can go to has its rule above. -/
theorem reportsAndFramesArePosted : Obligations.ReportsAndFramesArePosted := by
  refine ⟨fun p r => ⟨fun empty place => ?_, Part.postReport_queue r⟩, fun p target b => ⟨fun fresh => ?_,
    fun t before after f contest claim => ⟨Part.post_replacesQueued target contest claim,
      Part.post_replacesHeld target contest claim⟩⟩, ?_⟩
  · rw [Part.postReport_ring r empty place]
    exact p.writeReport_written r place
  · refine ⟨Part.post_queueOpen target fresh, ?_⟩
    rintro _ _ rfl rfl
    rw [Part.post_fresh target fresh]
    exact ⟨Part.enqueueControl_queued, Part.enqueueControl_held, Part.enqueueControl_discarded⟩
  · rintro p lane _ _ _ rfl rfl rfl
    rfl

end Sys2Proof.Machine

/-! START and INIT-DONE: what they empty, the BEACON they post, the records made QUIET with their images, and the DOWN
racks made pending (R18, R19, R37, R50, R52, R148, R166). -/

namespace Sys2Proof.Machine

/-! ## Commands that write records (R10) -/

theorem answersWithImages_of_effect {i : Instr} {s : State} {f : Part → Part} {q : Part} (h : exec i s = run s f)
    (same : ((f s.part).setDram s.part.smc.dram).unmarked = q.unmarked) (images : s.part.imagesFollow (f s.part)) :
    AnswersWithImages i s q := by
  refine ⟨_, h, rfl, ?_, Part.imagesFollow_markStatus images⟩
  rw [← same]
  unfold Part.markStatus
  split <;> rfl

/-- An accepted command that writes records answers with its effect, but for the DRAM, which follows the records. -/
theorem answersWithImages_of_accepted {i : Instr} {s : State} {q r : Part} {body : Part → Except RefusalCode Part}
    (h : exec i s = run s fun p => p.takeCommand body) (taken : s.part.readerTakes = true)
    (accepted : body s.part = .ok q) (ring : s.part.hlk.sameRing q.hlk)
    (same : q.setDram s.part.smc.dram = r) (images : s.part.imagesFollow q) : AnswersWithImages i s r.consumed := by
  refine answersWithImages_of_effect h ?_ ?_
  · rw [Part.takeCommand, if_pos taken, accepted, ← same]
    exact Part.consumed_unmarked (q := q.setDram s.part.smc.dram) ring
  · rw [Part.takeCommand, if_pos taken, accepted]
    exact images

/-- The images follow the records also from a part that has the same records, the same DRAM and the same moment. -/
theorem Part.imagesFollow_congr {p p' q q' : Part} (h : p.imagesFollow q) (hdt : p'.hdt = p.hdt)
    (dram : p'.smc.dram = p.smc.dram) (now : p'.now = p.now) (hdt' : q'.hdt = q.hdt)
    (dram' : q'.smc.dram = q.smc.dram) : p'.imagesFollow q' := by
  simpa only [Part.imagesFollow, hdt, dram, now, hdt', dram'] using h

/-- What differs from a part in records and DRAM alone is that part with the other's records, the DRAM aside. -/
theorem Part.sameButRecords_eq {p q : Part} (h : p.sameButRecords q) :
    q.setDram p.smc.dram = { p with hdt := q.hdt } :=
  congrArg (fun r : Part => { r with hdt := q.hdt }) h

/-! ## The pending set (R52) -/

/-- Racks added to a pending set, each keeping the mark it has. -/
def addRacks (pending : Table Bool) (racks : List Nat) : Table Bool :=
  racks.foldl (fun t rack => t.setRow rack ((t.row? rack).getD false)) pending

theorem addRacks_row? (pending : Table Bool) (racks : List Nat) (rack : Nat) :
    (addRacks pending racks).row? rack =
      if rack ∈ racks then some ((pending.row? rack).getD false) else pending.row? rack := by
  induction racks generalizing pending with
  | nil => rfl
  | cons first rest ih =>
    rw [addRacks, List.foldl_cons]
    refine (ih _).trans ?_
    rw [Table.row?_setRow]
    by_cases h : rack = first
    · subst h; simp
    · simp [h]

theorem Part.foldl_addPending (p : Part) (racks : List Nat) :
    racks.foldl (fun q rack => q.addPending rack none) p =
      { p with scn := { p.scn with pending := addRacks p.scn.pending racks } } := by
  induction racks generalizing p with
  | nil => rfl
  | cons first rest ih => rw [List.foldl_cons, ih]; rfl

theorem Part.mem_downRacks {p : Part} (rising : p.prs.racks.rising = true) (rack : Nat) :
    rack ∈ p.downRacks ↔ p.rackState rack = .down := by
  simp only [Part.downRacks, List.mem_map, List.mem_filter, beq_iff_eq, Part.rackState]
  constructor
  · rintro ⟨⟨k, r⟩, ⟨mem, down⟩, rfl⟩
    rw [Table.row?_of_mem rising mem]
    exact down
  · intro down
    cases row : p.prs.racks.row? rack with
    | none => rw [row] at down; cases down
    | some r => rw [row] at down; exact ⟨(rack, r), ⟨Table.row?_mem row, down⟩, rfl⟩

/-! ## The BEACON (R37) -/

theorem Part.postBeacon_eq (p : Part) : p.postBeacon =
    p.withBeacon { target := none, epoch := p.prs.ownEpoch, body := p.beaconBody } := by
  unfold Part.postBeacon Part.withBeacon
  simp only [List.any_eq_true]
  split <;> rfl

theorem Part.withBeacon_empty {p : Part} (b : ControlFrame) (empty : p.sgp.control = []) :
    p.withBeacon b = { p with sgp := { p.sgp with control := [b] } } := by
  simp [Part.withBeacon, empty]

theorem Part.beaconBody_running {p : Part} {own : Peer} (running : p.hlk.phase = .running)
    (member : p.peer? p.own = some own) : p.beaconBody =
      .beacon (BitVec.ofNat 8 own.rack) 0x01 (BitVec.ofNat 8 p.ctx.contexts.length) := by
  simp [Part.beaconBody, member, Part.ownStatus?, running, PeerStatus.code, Part.contextsInUse]

/-! ## START (R166) -/

theorem Part.coldStart_accepted {p : Part} (w : List Instr) (taken : p.readerTakes = true)
    (phase : p.hlk.phase = .configured) : Answers .start ⟨w, p⟩ p.coldStart.consumed :=
  answers_of_accepted (s := ⟨w, p⟩) rfl taken (by simp only [phase]) ⟨rfl, rfl⟩

/-- The part as the START from HALTED has it before its records are made QUIET (R166). -/
def Part.warmed (p : Part) : Part :=
  { p.emptyBlocks with
    prs := { p.prs with ownEpoch := p.prs.ownEpoch + 1 }
    hlk := { p.hlk with phase := .running } }

/-- The part after the START from HALTED, but for the images of its records (R166). -/
theorem Part.warmStart_withoutImages {p : Part} (rising : p.hdt.rising = true) :
    p.warmStart.setDram p.smc.dram = { p.warmed.postBeacon with
      hdt := p.hdt.map fun r => (r.1, { r.2 with standing := .quiet, lost := [], outside := none })
      scn := { p.scn with pending := addRacks p.scn.pending p.downRacks } } := by
  have beacon : p.warmed.postBeacon.hdt = p.hdt ∧ p.warmed.postBeacon.scn = p.scn
      ∧ p.warmed.postBeacon.downRacks = p.downRacks ∧ p.warmed.postBeacon.smc.dram = p.smc.dram := by
    rw [Part.postBeacon_eq]
    exact ⟨rfl, rfl, rfl, rfl⟩
  obtain ⟨hdt, scn, down, dram⟩ := beacon
  obtain ⟨table, same, -, -⟩ := p.warmed.postBeacon.quietAll_spec (hdt ▸ rising)
  have quiet := Part.sameButRecords_eq same
  rw [dram, table, hdt] at quiet
  have racks : p.warmed.postBeacon.quietAll.downRacks = p.downRacks :=
    (congrArg Part.downRacks quiet).trans down
  have scanner : p.warmed.postBeacon.quietAll.scn = p.scn := (congrArg Part.scn quiet).trans scn
  change Part.setDram (List.foldl _ p.warmed.postBeacon.quietAll p.warmed.postBeacon.quietAll.downRacks) _ = _
  rw [Part.foldl_addPending, racks, scanner]
  exact congrArg (fun q : Part => { q with scn := { p.scn with pending := addRacks p.scn.pending p.downRacks } }) quiet

theorem Part.warmStart_images {p : Part} (rising : p.hdt.rising = true) : p.imagesFollow p.warmStart := by
  have beacon : p.warmed.postBeacon.hdt = p.hdt ∧ p.warmed.postBeacon.smc.dram = p.smc.dram
      ∧ p.warmed.postBeacon.now = p.now := by
    rw [Part.postBeacon_eq]
    exact ⟨rfl, rfl, rfl⟩
  obtain ⟨hdt, dram, now⟩ := beacon
  obtain ⟨-, -, -, images⟩ := p.warmed.postBeacon.quietAll_spec (hdt ▸ rising)
  change p.imagesFollow (List.foldl _ p.warmed.postBeacon.quietAll p.warmed.postBeacon.quietAll.downRacks)
  rw [Part.foldl_addPending]
  exact Part.imagesFollow_congr images hdt.symm dram.symm now.symm rfl rfl

theorem Part.warmStart_accepted {p : Part} (w : List Instr) (taken : p.readerTakes = true)
    (phase : p.hlk.phase = .halted) (rising : p.hdt.rising = true) :
    AnswersWithImages .start ⟨w, p⟩ (Part.consumed { p.warmed.postBeacon with
      hdt := p.hdt.map fun r => (r.1, { r.2 with standing := .quiet, lost := [], outside := none })
      scn := { p.scn with pending := addRacks p.scn.pending p.downRacks } }) := by
  have same := Part.warmStart_withoutImages rising
  have ring : p.hlk.sameRing p.warmStart.hlk := by
    have host : p.warmStart.hlk = p.warmed.postBeacon.hlk := (congrArg Part.hlk same :)
    rw [host, Part.postBeacon_eq]
    exact ⟨rfl, rfl⟩
  exact answersWithImages_of_accepted (s := ⟨w, p⟩) rfl taken (by simp only [phase]) ring same
    (Part.warmStart_images rising)

/-- Settles O10: each START is accepted in its state; the BEACON of the second is the one of the moment, and its
pending set has the DOWN racks added. -/
theorem startsBeginOrGoOn : Obligations.StartsBeginOrGoOn := by
  refine ⟨fun w p c taken phase config => ?_, fun w p taken phase records racks => ?_⟩
  · have started := Part.coldStart_accepted w taken phase
    rwa [Part.coldStart, config] at started
  · refine ⟨addRacks p.scn.pending p.downRacks,
      { target := none, epoch := p.prs.ownEpoch + 1, body := p.warmed.beaconBody }, fun rack => ?_, rfl, rfl,
      fun q member => Part.beaconBody_running rfl member, ?_⟩
    · rw [addRacks_row?]
      exact if_congr (Part.mem_downRacks racks rack) rfl rfl
    · have started := Part.warmStart_accepted w taken phase records
      rwa [Part.postBeacon_eq] at started

/-! ## INIT-DONE (R18, R148) -/

/-- The part as INIT-DONE has it before the first BEACON is posted (R148, R166). -/
def Part.opened (p : Part) (d : Dram) : Part :=
  { p.setDram d with
    hlk := { p.hlk with phase := .running }
    hdt := []
    prs := { p.prs with livenessDue := some (p.now + p.beaconPeriod) }
    scn := { Scanner.reset with sweepDue := some (p.now + p.sweepInterval) } }

theorem Part.initDone_eq (p : Part) : p.initDone = (p.opened p.smc.dram.initialized).postBeacon := by
  unfold Part.initDone Part.opened
  generalize p.smc.dram.initialized = d
  rfl

theorem Part.opened_beaconBody {p : Part} {own : Peer} (d : Dram) (member : p.peer? p.own = some own) :
    (p.opened d).beaconBody =
      .beacon (BitVec.ofNat 8 own.rack) 0x01 (BitVec.ofNat 8 p.ctx.contexts.length) :=
  Part.beaconBody_running rfl member

theorem Part.initDone_withBeacon {p : Part} (empty : p.sgp.control = []) :
    p.initDone = { p.opened p.smc.dram.initialized with
      sgp := { p.sgp with
        control := [{ target := none, epoch := p.prs.ownEpoch, body := (p.opened p.smc.dram.initialized).beaconBody }] } } := by
  rw [Part.initDone_eq]
  generalize p.smc.dram.initialized = d
  rw [Part.postBeacon_eq, Part.withBeacon_empty _ (show (p.opened d).sgp.control = [] from empty)]
  rfl

/-- Settles O11. -/
theorem initDone : Obligations.InitDone := by
  intro w p
  have meaning : exec .initDone ⟨w, p⟩
      = run ⟨w, p⟩ fun p => if p.hlk.phase = .initializing then p.initDone else p := rfl
  refine ⟨fun phase => answers_of_effect meaning (congrArg Part.unmarked (if_neg phase)), fun phase empty => ?_⟩
  refine leads_of_run meaning ?_
  simp only [if_pos phase, Part.initDone_withBeacon empty]
  refine ⟨fun offset => ?_, (p.opened p.smc.dram.initialized).beaconBody,
    fun own member => Part.opened_beaconBody _ member, ?_⟩
  · rw [Part.markStatus_smc]
    exact Dram.byte_initialized _ _
  · generalize p.smc.dram.initialized = d
    exact (congrArg (fun q : Part => q.setDram p.smc.dram) (p.unmarked_markStatus _) :)

end Sys2Proof.Machine

/-! SCAN-RELEASE, CLEAR-FLAGS, the host's register writes and its accesses to the staging memory window (R55, R154, R163,
R169, R171). -/

namespace Sys2Proof.Machine

/-! ## SCAN-RELEASE and CLEAR-FLAGS (R55, R171) -/

theorem Part.releaseRack_notHeld {p : Part} (rack : Nat) (pass : p.scn.pass ≠ .held) : p.releaseRack rack =
    { p with scn := { p.scn with pending := p.scn.pending.editRow rack fun _ => false } } :=
  if_neg pass

theorem Part.releaseRack_held {p : Part} (rack : Nat) (pass : p.scn.pass = .held) : p.releaseRack rack =
    { p with
      scn := { p.scn with
        pending := p.scn.pending.editRow rack fun _ => false
        triggers := p.scn.triggers.editRow rack fun _ => false
        pass := if ∃ r ∈ p.scn.triggers.editRow rack fun _ => false, r.2 = true then .held else .walking } } := by
  have marks : ((p.scn.triggers.editRow rack fun _ => false).any fun r => r.2) = false
      ↔ ¬ ∃ r ∈ p.scn.triggers.editRow rack fun _ => false, r.2 = true := by
    rw [← Bool.not_eq_true, List.any_eq_true]
  rw [Part.releaseRack, Part.releaseTrigger, if_pos pass, Part.walkIfReleased]
  by_cases held : ∃ r ∈ p.scn.triggers.editRow rack fun _ => false, r.2 = true
  · rw [if_neg fun h => marks.1 h.2 held, if_pos held, ← pass]
  · rw [if_pos ⟨pass, marks.2 held⟩, if_neg held]

theorem Part.releaseRack_hlk (p : Part) (rack : Nat) : (p.releaseRack rack).hlk = p.hlk := by
  unfold Part.releaseRack Part.releaseTrigger Part.walkIfReleased
  split
  · split <;> rfl
  · rfl

theorem scanRelease_answers {p : Part} {rack : Byte} (w : List Instr) (taken : p.readerTakes = true)
    (running : p.hlk.phase = .running) (isRack : rack.toNat ≤ 15) :
    Answers (.scanRelease rack) ⟨w, p⟩ (p.releaseRack rack.toNat).consumed := by
  refine answers_of_accepted (s := ⟨w, p⟩) rfl taken
    ((Part.whileRunning_running running _).trans (if_neg (Nat.not_lt.2 isRack))) ?_
  rw [Part.releaseRack_hlk]
  exact ⟨rfl, rfl⟩

/-- Settles O17. -/
theorem releasesAndFlags : Obligations.ReleasesAndFlags := by
  refine fun w p taken => ⟨fun mask => answers_of_accepted (s := ⟨w, p⟩) (q := p.clearFlags mask) rfl taken rfl ⟨rfl, rfl⟩,
    fun rack running isRack => ?_⟩
  have released := scanRelease_answers w taken running isRack
  exact ⟨fun pass => Part.releaseRack_notHeld _ pass ▸ released, fun pass => Part.releaseRack_held _ pass ▸ released⟩

/-! ## The register window (R163, R169) -/

theorem Part.drainReports_none {p : Part} (empty : p.hlk.reportQueue = []) : p.drainReports = p := by
  have moved : p.moveReports [] = p := by rw [Part.moveReports, ← empty]
  simp [Part.drainReports, moved, empty]

theorem Part.setMark_unmarked {p q : Part} (h : p.unmarked = q.unmarked) (mark : Bool) :
    { p with hlk := { p.hlk with statusMarked := mark } } = { q with hlk := { q.hlk with statusMarked := mark } } :=
  congrArg (fun r : Part => { r with hlk := { r.hlk with statusMarked := mark } }) h

theorem Part.drainReports_mark (p : Part) : p.drainReports.hlk.statusMarked = p.hlk.statusMarked := by
  have moved (queue : List QueuedReport) (q : Part) :
      (q.moveReports queue).hlk.statusMarked = q.hlk.statusMarked := by
    induction queue generalizing q with
    | nil => rfl
    | cons r rest ih =>
      rw [Part.moveReports]
      split
      · exact ih _
      · rfl
  unfold Part.drainReports
  simp only
  split
  · exact moved _ _
  · exact moved _ _

/-- A register write that lets the waiting reports move answers with them drained (R169). -/
theorem drains_of_effect {i : Instr} {w : List Instr} {p base : Part} {f : Part → Part}
    (h : exec i ⟨w, p⟩ = run ⟨w, p⟩ f) (effect : f p = base.drainReports)
    (mark : base.hlk.statusMarked = p.hlk.statusMarked) : Drains i w p base := by
  refine leads_of_run h ?_
  rw [Part.setMark_unmarked (p.unmarked_markStatus _) p.hlk.statusMarked, effect, ← mark, ← base.drainReports_mark]
  exact base.drainReports_drained

theorem postIndexWrite_ignored {p : Part} {value : BitVec 32} (w : List Instr)
    (ignored : ringSizeValid p.hlk.commandSize = false ∨ p.hlk.commandSize.toNat ≤ value.toNat) :
    Answers (.commandPostIndexWrite value) ⟨w, p⟩ p := by
  refine answers_of_effect (s := ⟨w, p⟩) (f := fun p => p.writePostIndex value) rfl (congrArg Part.unmarked (if_neg ?_))
  rw [Bool.and_eq_true, decide_eq_true_eq]
  rintro ⟨valid, below⟩
  rcases ignored with invalid | beyond
  · exact Bool.false_ne_true (invalid.symm.trans valid)
  · exact Nat.not_lt.2 beyond below

theorem postIndexWrite_taken {p : Part} {value : BitVec 32} (w : List Instr)
    (valid : ringSizeValid p.hlk.commandSize = true) (below : value.toNat < p.hlk.commandSize.toNat) :
    Answers (.commandPostIndexWrite value) ⟨w, p⟩ { p with hlk := { p.hlk with postIndex := value } } :=
  answers_of_effect (s := ⟨w, p⟩) (f := fun p => p.writePostIndex value) rfl
    (congrArg Part.unmarked (if_pos (by rw [Bool.and_eq_true, decide_eq_true_eq]; exact ⟨valid, below⟩)))

theorem reportConsumeWrite_effect (w : List Instr) (p : Part) (value : BitVec 32) :
    exec (.reportConsumeIndexWrite value) ⟨w, p⟩ = run ⟨w, p⟩ fun p => p.writeReportConsume value := rfl

theorem Part.writeReportConsume_taken {p : Part} {value : BitVec 32} (below : value.toNat < p.hlk.reportSize.toNat) :
    p.writeReportConsume value = Part.drainReports { p with hlk := { p.hlk with reportConsume := value } } := if_pos below

theorem ringRegisterWrite_effect (w : List Instr) (p : Part) (register : RingRegister) (value : BitVec 64) :
    exec (.ringRegisterWrite register value) ⟨w, p⟩ = run ⟨w, p⟩ fun p =>
      if p.hlk.phase = .setup then p.setRingRegister register value else p := rfl

/-- Settles O19. -/
theorem registerWrites : Obligations.RegisterWrites := by
  refine ⟨fun w p value => ⟨postIndexWrite_taken w, postIndexWrite_ignored w, fun beyond => ?_, fun below =>
      ⟨fun empty => ?_, drains_of_effect (reportConsumeWrite_effect w p value) (Part.writeReportConsume_taken below) rfl⟩⟩,
    fun w p value => ⟨fun phase register => ?_, fun offset _ => answers_of_effect (s := ⟨w, p⟩) (f := id) rfl rfl, ?_⟩⟩
  · exact answers_of_effect (reportConsumeWrite_effect w p value)
      (congrArg Part.unmarked (if_neg (Nat.not_lt.2 beyond)))
  · refine answers_of_effect (reportConsumeWrite_effect w p value)
      (congrArg Part.unmarked ((Part.writeReportConsume_taken below).trans ?_))
    exact Part.drainReports_none empty
  · exact answers_of_effect (ringRegisterWrite_effect w p register value) (congrArg Part.unmarked (if_neg phase))
  · rintro _ rfl setup
    have written (register : RingRegister) := ringRegisterWrite_effect w p register value
    have answers {register : RingRegister} {q : Part} (effect : p.setRingRegister register value = q) :=
      answers_of_effect (written register) (congrArg Part.unmarked ((if_pos setup).trans effect))
    exact ⟨answers rfl, answers rfl, answers rfl,
      fun empty => ⟨answers (Part.drainReports_none empty), answers (Part.drainReports_none empty)⟩,
      drains_of_effect (written .reportBase) (if_pos setup) rfl,
      drains_of_effect (written .reportSize) (if_pos setup) rfl⟩

/-! ## The staging memory window (R154) -/

theorem Part.inSlotWith_iff (p : Part) (offset length : Nat) (right : WindowRight → Bool) :
    p.inSlotWith offset length right = true ↔ ∃ j r, (j, r) ∈ p.smc.slots ∧ right r.right = true
      ∧ (32 + j) * 1048576 ≤ offset ∧ offset + length ≤ (33 + j) * 1048576 := by
  have slotEnd (j : Nat) : (32 + j) * 1048576 + 1048576 = (33 + j) * 1048576 := by omega
  simp [Part.inSlotWith, slotOffset, holdingsBlocks, Config.mebibyte, slotEnd]

theorem WindowRight.mayRead_iff (right : WindowRight) : right.mayRead = true ↔ ∃ tag, right = .read tag := by
  cases right <;> simp [WindowRight.mayRead]

theorem WindowRight.mayWrite_iff (right : WindowRight) : right.mayWrite = true ↔ ∃ tag, right = .write tag := by
  cases right <;> simp [WindowRight.mayWrite]

theorem Part.readAccepted_iff (p : Part) (offset length : Nat) :
    p.readAccepted offset length = true ↔ p.hlk.phase ≠ .initializing ∧
      (offset + length ≤ 32 * 1048576 ∨ ∃ j r tag, (j, r) ∈ p.smc.slots ∧ r.right = .read tag
        ∧ (32 + j) * 1048576 ≤ offset ∧ offset + length ≤ (33 + j) * 1048576) := by
  rw [Part.readAccepted, Bool.and_eq_true, bne_iff_ne, Bool.or_eq_true, decide_eq_true_eq, p.inSlotWith_iff]
  simp only [WindowRight.mayRead_iff, exists_and_left, exists_and_right, holdingsBlocks, Config.mebibyte]

theorem Part.writeAccepted_iff (p : Part) (offset length : Nat) :
    p.writeAccepted offset length = true ↔ p.hlk.phase ≠ .initializing ∧
      ∃ j r tag, (j, r) ∈ p.smc.slots ∧ r.right = .write tag
        ∧ (32 + j) * 1048576 ≤ offset ∧ offset + length ≤ (33 + j) * 1048576 := by
  simp [Part.writeAccepted, p.inSlotWith_iff, WindowRight.mayWrite_iff]

theorem Part.setFlag_eq_flagged (p : Part) (c : Cause) : p.setFlag c = p.flagged c := by
  simp [Part.setFlag, Part.flagged, Part.flag]

theorem Dram.write_wrote (d : Dram) (offset : Nat) (data : List Byte) : d.wrote (d.write offset data) offset data :=
  d.byte_write offset data

theorem windowRead_effect (w : List Instr) (p : Part) (offset length : Nat) :
    exec (.windowRead offset length) ⟨w, p⟩ = run ⟨w, p⟩ fun p => p.readWindow offset length := rfl

theorem windowWrite_effect (w : List Instr) (p : Part) (offset : Nat) (data : List Byte) :
    exec (.windowWrite offset data) ⟨w, p⟩ = run ⟨w, p⟩ fun p => p.writeWindow offset data := rfl

/-- Settles O20: the gate's two tests are those of the statement, and each of the four accesses has its effect. -/
theorem windowAccesses : Obligations.WindowAccesses := by
  refine fun w p offset length data _ _ => ⟨fun phase within => ?_, fun refused => ?_, fun phase within => ?_,
    fun refused => ?_⟩
  · exact answers_of_effect (windowRead_effect w p offset length)
      (congrArg Part.unmarked (if_pos ((p.readAccepted_iff offset length).2 ⟨phase, within⟩)))
  · refine answers_of_effect (windowRead_effect w p offset length)
      (congrArg Part.unmarked ((if_neg ?_).trans (Part.setFlag_eq_flagged _ .access)))
    rw [p.readAccepted_iff]
    rintro ⟨phase, region | ⟨j, r, tag, slot, right, first, last⟩⟩
    · rcases refused with initializing | ⟨beyond, -⟩
      · exact phase initializing
      · omega
    · rcases refused with initializing | ⟨-, outside⟩
      · exact phase initializing
      · rcases outside j r tag slot right with h | h <;> omega
  · refine leads_of_run (windowWrite_effect w p offset data) ?_
    simp only [Part.writeWindow, if_pos ((p.writeAccepted_iff offset data.length).2 ⟨phase, within⟩)]
    refine ⟨?_, (congrArg (fun q : Part => q.setDram p.smc.dram) (p.unmarked_markStatus _) :)⟩
    rw [Part.markStatus_smc]
    exact Dram.write_wrote _ _ _
  · refine answers_of_effect (windowWrite_effect w p offset data)
      (congrArg Part.unmarked ((if_neg ?_).trans (Part.setFlag_eq_flagged _ .access)))
    rw [p.writeAccepted_iff]
    rintro ⟨phase, j, r, tag, slot, right, first, last⟩
    rcases refused with initializing | outside
    · exact phase initializing
    · rcases outside j r tag slot right with h | h <;> omega

end Sys2Proof.Machine

/-! Changes of records with their images, apart from what else a command does, and evaluation E branch by branch
(R8, R10, R57 to R61, R64). -/

namespace Sys2Proof.Machine

/-! ## A part that is another but for the images of changed records (R10) -/

/-- The part q is r but for the DRAM, in which the images follow the records from p on. -/
structure Part.Imaged (p q r : Part) : Prop where
  same : q.setDram p.smc.dram = r
  images : p.imagesFollow q

/-- An operation that neither reads nor writes the DRAM, and leaves the records. -/
def BesideRecords (g : Part → Part) : Prop :=
  ∀ q, (∀ d, (g q).setDram d = g (q.setDram d)) ∧ (g q).hdt = q.hdt ∧ (g q).smc.dram = q.smc.dram

theorem BesideRecords.comp {f g : Part → Part} (hf : BesideRecords f) (hg : BesideRecords g) :
    BesideRecords fun q => g (f q) := by
  intro q
  obtain ⟨same, hdt, dram⟩ := hf q
  obtain ⟨same', hdt', dram'⟩ := hg (f q)
  exact ⟨fun d => (same' d).trans (congrArg g (same d)), hdt'.trans hdt, dram'.trans dram⟩

theorem Part.imagesFollow_of_same {p q : Part} (hdt : q.hdt = p.hdt) (dram : q.smc.dram = p.smc.dram) :
    p.imagesFollow q := by
  refine ⟨fun offset _ => by rw [dram], fun position r row changed => ?_, fun position row changed => ?_⟩
  · rw [hdt] at row
    exact absurd row changed
  · rw [hdt] at row
    exact absurd row changed

theorem Part.Imaged.of_same {p r : Part} (hdt : r.hdt = p.hdt) (dram : r.smc.dram = p.smc.dram) : p.Imaged r r :=
  ⟨dram ▸ rfl, Part.imagesFollow_of_same hdt dram⟩

theorem Part.Imaged.then {p q r : Part} {g : Part → Part} (hg : BesideRecords g) (h : p.Imaged q r) :
    p.Imaged (g q) (g r) := by
  obtain ⟨same, hdt, dram⟩ := hg q
  exact ⟨(same _).trans (congrArg g h.same), Part.imagesFollow_congr h.images rfl rfl rfl hdt dram⟩

/-- A change of the stripe-level fields of a part that has the records, the DRAM and the moment of p. -/
theorem Part.Imaged.updateStripe {p r : Part} (t : StripeId) (f : HoldingRecord → HoldingRecord)
    (rising : p.hdt.rising = true) (hdt : r.hdt = p.hdt) (dram : r.smc.dram = p.smc.dram) (now : r.now = p.now) :
    p.Imaged (r.updateStripe t f) { r with hdt := p.hdt.map (changeStripe t f) } := by
  obtain ⟨table, same, -, images⟩ := r.updateStripe_spec t f (hdt ▸ rising)
  have effect := Part.sameButRecords_eq same
  rw [dram, table, hdt] at effect
  exact ⟨effect, Part.imagesFollow_congr images hdt.symm dram.symm now.symm rfl rfl⟩

theorem Dram.bytes_congr {d d' : Dram} {o n : Nat} (h : ∀ a, o ≤ a → a < o + n → d'.byte a = d.byte a) :
    d'.bytes o n = d.bytes o n :=
  List.map_congr_left fun i hi => h (o + i) (by omega) (by have := List.mem_range.1 hi; omega)

theorem Part.imagesFollow_bytes {p q : Part} (h : p.imagesFollow q) {n : Nat} (row : p.hdt.row? n = q.hdt.row? n) :
    q.smc.dram.bytes (imageOffset n) 256 = p.smc.dram.bytes (imageOffset n) 256 :=
  Dram.bytes_congr fun a first last => h.1 a (by rw [(imageOffset_iff n a).1 ⟨first, last⟩]; exact row)

/-- One change after another: the images follow both, where no record comes back to what it was by the second. -/
theorem Part.imagesFollow_trans {p q r : Part} (h : p.imagesFollow q) (h' : q.imagesFollow r) (now : q.now = p.now)
    (kept : ∀ n, p.hdt.row? n = r.hdt.row? n → q.hdt.row? n = r.hdt.row? n) : p.imagesFollow r := by
  refine ⟨fun offset same => ?_, fun n record row changed => ?_, fun n row changed => ?_⟩
  · have second := kept _ same
    rw [h'.1 offset second, h.1 offset (same.trans second.symm)]
  · by_cases second : q.hdt.row? n = some record
    · rw [Part.imagesFollow_bytes h' (second.trans row.symm)]
      exact h.2.1 n record second changed
    · rw [h'.2.1 n record row second, now]
  · by_cases second : q.hdt.row? n = none
    · rw [Part.imagesFollow_bytes h' (second.trans row.symm)]
      exact h.2.2 n second changed
    · exact h'.2.2 n row second

theorem row?_changeStripe (hdt : Table HoldingRecord) (t : StripeId) (f : HoldingRecord → HoldingRecord) (n : Nat) :
    Table.row? (hdt.map (changeStripe t f)) n = (hdt.row? n).map fun r => if r.stripe = t then f r else r := by
  have whole : changeStripe t f = fun r => (r.1, if r.2.stripe = t then f r.2 else r.2) := by
    funext r
    unfold changeStripe
    split <;> rfl
  rw [whole]
  exact Table.row?_map hdt n fun _ r => if r.stripe = t then f r else r

theorem changeStripe_changeStripe (hdt : Table HoldingRecord) (t : StripeId) {f g : HoldingRecord → HoldingRecord}
    (stripe : ∀ r, (f r).stripe = r.stripe) :
    (hdt.map (changeStripe t f)).map (changeStripe t g) = hdt.map (changeStripe t fun r => g (f r)) := by
  rw [List.map_map]
  refine List.map_congr_left fun r _ => ?_
  by_cases h : r.2.stripe = t
  · simp [changeStripe, h, stripe]
  · simp [changeStripe, h]

/-- The numbers of the records are those of before under a change of the stripe-level fields. -/
theorem rising_changeStripe {hdt : Table HoldingRecord} (t : StripeId) (f : HoldingRecord → HoldingRecord)
    (rising : hdt.rising = true) : Table.rising (hdt.map (changeStripe t f)) = true := by
  have numbers : (hdt.map (changeStripe t f)).map Prod.fst = hdt.map Prod.fst := by
    rw [List.map_map]
    refine List.map_congr_left fun r _ => ?_
    simp only [Function.comp_apply, changeStripe]
    split <;> rfl
  rw [Table.rising_iff] at rising ⊢
  rwa [numbers]

/-- A second change of the same stripe, of fields that the first leaves: together they are one change. -/
theorem Part.Imaged.updateStripe_again {p q r : Part} {t : StripeId} {f g : HoldingRecord → HoldingRecord}
    (h : p.Imaged q { r with hdt := p.hdt.map (changeStripe t f) }) (rising : p.hdt.rising = true)
    (now : r.now = p.now) (stripe : ∀ h, (f h).stripe = h.stripe) (apart : ∀ h, g (f h) = h → f h = h) :
    p.Imaged (q.updateStripe t g) { r with hdt := p.hdt.map (changeStripe t fun h => g (f h)) } := by
  obtain ⟨same, images⟩ := h
  have table : q.hdt = p.hdt.map (changeStripe t f) := (congrArg Part.hdt same :)
  have moment : q.now = p.now := (congrArg Part.now same).trans now
  obtain ⟨table', same', -, images'⟩ := q.updateStripe_spec t g (table ▸ rising_changeStripe t f rising)
  rw [table, changeStripe_changeStripe _ _ stripe] at table'
  refine ⟨?_, Part.imagesFollow_trans images images' moment fun n back => ?_⟩
  · have effect := congrArg (fun x : Part => x.setDram p.smc.dram) (Part.sameButRecords_eq same')
    rw [table'] at effect
    exact (effect : _).trans
      (congrArg (fun x : Part => { x with hdt := p.hdt.map (changeStripe t fun h => g (f h)) }) same)
  · rw [table', row?_changeStripe] at back ⊢
    rw [table, row?_changeStripe]
    cases row : p.hdt.row? n with
    | none => rfl
    | some record =>
      simp only [row, Option.map_some, Option.some.injEq] at back ⊢
      by_cases member : record.stripe = t
      · rw [if_pos member] at back ⊢
        rw [if_pos member, ← back]
        exact (apart record back.symm)
      · rw [if_neg member, if_neg member]

/-! ## Operations beside the records -/

theorem Part.postReport_eq (p : Part) (r : Report) : p.postReport r =
    if (p.hlk.reportQueue.isEmpty && p.ringPlace) = true then p.writeReport r
    else if p.hlk.reportQueue.length < 64 then
      { p with hlk := { p.hlk with reportQueue := p.hlk.reportQueue ++ [{ report := r, tagVoid := false }] } }
    else p := by
  unfold Part.postReport Part.postReport?
  split
  · rfl
  · split <;> rfl

/-- Posting a report changes the host link alone, by what the host link and the configuration are. -/
theorem Part.postReport_of_same {p q : Part} (hlk : q.hlk = p.hlk) (config : q.config = p.config) (r : Report) :
    q.postReport r = { q with hlk := (p.postReport r).hlk } := by
  have place : q.ringPlace = p.ringPlace := by rw [Part.ringPlace, Part.ringPlace, hlk]
  have written : q.writeReport r = { q with hlk := (p.writeReport r).hlk } := by
    cases p
    cases q
    dsimp only at hlk config
    subst hlk config
    rfl
  rw [Part.postReport_eq, Part.postReport_eq, hlk, place]
  split
  · exact written
  · split
    · rfl
    · rw [← hlk]

theorem besideRecords_postReport (r : Report) : BesideRecords fun q => q.postReport r := by
  intro q
  have alone := Part.postReport_of_same (p := q) (q := q) rfl rfl r
  refine ⟨fun d => ?_, (congrArg Part.hdt alone :), (congrArg (fun q : Part => q.smc.dram) alone :)⟩
  change (q.postReport r).setDram d = (q.setDram d).postReport r
  rw [Part.postReport_of_same (p := q) (q := q.setDram d) rfl rfl r]
  exact congrArg (fun q : Part => q.setDram d) alone

/-- An accepted command whose effect is a part but for the images of changed records. -/
theorem answersWithImages_of_imaged {i : Instr} {s : State} {q r : Part} {body : Part → Except RefusalCode Part}
    (h : exec i s = run s fun p => p.takeCommand body) (taken : s.part.readerTakes = true)
    (accepted : body s.part = .ok q) (imaged : s.part.Imaged q r) (ring : s.part.hlk.sameRing r.hlk) :
    AnswersWithImages i s r.consumed := by
  have host : q.hlk = r.hlk := (congrArg Part.hlk imaged.same :)
  exact answersWithImages_of_accepted h taken accepted (host ▸ ring) imaged.same imaged.images

/-! ## Evaluation E (R57 to R61) -/

theorem Part.mem_lossSet (p : Part) (t : StripeId) (i : Nat) : i ∈ p.lossSet t ↔
    ∃ station q, (p.placementOf t)[i]? = some station ∧ p.peer? station = some q ∧ p.rackState q.rack = .down := by
  have down (station : Nat) : p.stationDown station = true
      ↔ ∃ q, p.peer? station = some q ∧ p.rackState q.rack = .down := by
    unfold Part.stationDown
    cases p.peer? station <;> simp
  have bound {station : Nat} (h : (p.placementOf t)[i]? = some station) : i < (p.placementOf t).length :=
    (List.getElem?_eq_some_iff.1 h).1
  rw [Part.lossSet, List.mem_filter, List.mem_range]
  cases entry : (p.placementOf t)[i]? with
  | none => simp
  | some station => simp [bound entry, down]

theorem Part.lossSet_ascending (p : Part) (t : StripeId) : (p.lossSet t).Pairwise (· < ·) :=
  List.pairwise_lt_range.filter _

/-- Evaluation E of a stripe completes, and leaves the part r but for the images of changed records. -/
def Part.EvaluatesTo (p : Part) (t : StripeId) (r : Part) : Prop := ∃ q, p.evaluate? t = some q ∧ p.Imaged q r

theorem Part.setStanding_imaged {p r : Part} (t : StripeId) (lost : Positions) (standing : Standing)
    (rising : p.hdt.rising = true) (hdt : r.hdt = p.hdt) (dram : r.smc.dram = p.smc.dram) (now : r.now = p.now) :
    p.Imaged (r.setStanding t lost standing) { r with hdt := withStanding p.hdt t lost standing } :=
  Part.Imaged.updateStripe t _ rising hdt dram now

theorem Part.queueStripe?_room {p : Part} (t : StripeId) (lost : Positions) (rising : p.hdt.rising = true)
    (room : p.rq.length < 1024) : ∃ q, p.queueStripe? t lost = some q
      ∧ p.Imaged q { p with hdt := withStanding p.hdt t lost .queued, rq := p.rq ++ [t] } := by
  have joins : BesideRecords fun q : Part => { q with rq := q.rq ++ [t] } := fun q => ⟨fun _ => rfl, rfl, rfl⟩
  exact ⟨_, if_neg (Nat.not_le.2 room), (Part.setStanding_imaged t lost .queued rising rfl rfl rfl).then joins⟩

theorem Part.queueStripe?_full {p : Part} (t : StripeId) (lost : Positions) (full : 1024 ≤ p.rq.length) :
    p.queueStripe? t lost = none := if_pos full

theorem Part.makeUnrecoverable?_room {p : Part} (t : StripeId) (lost : Positions) (rising : p.hdt.rising = true)
    (room : p.reportPathFull = false) : ∃ q, p.makeUnrecoverable? t lost = some q
      ∧ p.Imaged q (Part.postReport { p with hdt := withStanding p.hdt t lost .unrecoverable }
        (.unrecoverable t lost)) :=
  ⟨_, if_neg (by rw [room]; exact Bool.false_ne_true),
    (Part.setStanding_imaged t lost .unrecoverable rising rfl rfl rfl).then (besideRecords_postReport _)⟩

theorem Part.makeUnrecoverable?_full {p : Part} (t : StripeId) (lost : Positions) (full : p.reportPathFull = true) :
    p.makeUnrecoverable? t lost = none := if_pos full

theorem Part.rivalSpent_iff (p : Part) (outside : Option HeardClaim) :
    p.rivalSpent outside = true ↔ ¬ p.rivalStands outside := by
  cases outside with
  | none => simp [Part.rivalSpent, Part.rivalStands]
  | some o =>
    simp only [Part.rivalSpent, Part.rivalStands, Option.some.injEq, exists_eq_left', Bool.or_eq_true, beq_iff_eq,
      ← Bool.not_eq_true, ne_eq]
    tauto

theorem Part.unqueue_eq (p : Part) (t : StripeId) : p.unqueue t = p.leftQueue t := by
  by_cases queued : t ∈ p.rq
  · simp [Part.unqueue, Part.leftQueue, Part.tellScanner, queued]
  · have kept : p.rq.filter (· != t) = p.rq :=
      List.filter_eq_self.2 fun u hu => bne_iff_ne.2 fun h => queued (h ▸ hu)
    simp [Part.unqueue, Part.leftQueue, queued, kept]

section
variable {p : Part} {t : StripeId} {r : HoldingRecord} (running : p.hlk.phase = .running)
  (record : p.firstRecord? t = some r)
include running record

/-- In RUNNING the evaluation of a stripe with records is by standing. -/
theorem Part.evaluate?_eq : p.evaluate? t =
    match r.standing with
    | .quiet =>
      if (p.lossSet t).isEmpty then some p
      else if (p.lossSet t).length ≤ p.parityOf t then p.queueStripe? t (p.lossSet t)
      else p.makeUnrecoverable? t (p.lossSet t)
    | .unrecoverable =>
      if (p.lossSet t).isEmpty then some (p.setStanding t [] .quiet)
      else if (p.lossSet t).length ≤ p.parityOf t then p.queueStripe? t (p.lossSet t)
      else some (p.setStanding t (p.lossSet t) .unrecoverable)
    | .queued =>
      if (p.lossSet t).isEmpty then some ((p.unqueue t).setStanding t [] .quiet)
      else if (p.lossSet t).length ≤ p.parityOf t then some (p.setStanding t (p.lossSet t) .queued)
      else (p.makeUnrecoverable? t (p.lossSet t)).map fun q => q.unqueue t
    | .parked =>
      if (p.lossSet t).isEmpty then some ((p.setStanding t [] .quiet).setOutside t none)
      else if p.parityOf t < (p.lossSet t).length then p.makeUnrecoverable? t (p.lossSet t)
      else if p.rivalSpent r.outside then p.queueStripe? t (p.lossSet t)
      else some (p.setStanding t (p.lossSet t) .parked)
    | .claiming => if p.lossSet t = r.lost then some p else p.lossChanged? t (p.lossSet t) := by
  simp only [Part.evaluate?, running, record]
  rfl

/-! ### Without loss -/

theorem Part.evaluate_quiet_noLoss (loss : p.lossSet t = []) (standing : r.standing = .quiet) : p.EvaluatesTo t p :=
  ⟨p, by simp [Part.evaluate?_eq running record, standing, loss], .of_same rfl rfl⟩

variable (rising : p.hdt.rising = true)
include rising

theorem Part.evaluate_unrecoverable_noLoss (loss : p.lossSet t = []) (standing : r.standing = .unrecoverable) :
    p.EvaluatesTo t { p with hdt := withStanding p.hdt t [] .quiet } :=
  ⟨_, by simp [Part.evaluate?_eq running record, standing, loss], Part.setStanding_imaged t _ _ rising rfl rfl rfl⟩

theorem Part.evaluate_queued_noLoss (loss : p.lossSet t = []) (standing : r.standing = .queued) :
    p.EvaluatesTo t { p.leftQueue t with hdt := withStanding p.hdt t [] .quiet } :=
  ⟨_, by simp [Part.evaluate?_eq running record, standing, loss, Part.unqueue_eq],
    Part.setStanding_imaged t _ _ rising rfl rfl rfl⟩

theorem Part.evaluate_parked_noLoss (loss : p.lossSet t = []) (standing : r.standing = .parked) :
    p.EvaluatesTo t { p with
      hdt := p.hdt.map (changeStripe t fun h => { h with lost := [], standing := .quiet, outside := none }) } := by
  refine ⟨_, by simp [Part.evaluate?_eq running record, standing, loss]; rfl,
    (Part.setStanding_imaged t [] .quiet rising rfl rfl rfl).updateStripe_again rising rfl (fun _ => rfl) fun h back => ?_⟩
  rw [← back]

/-! ### With 1 to m losses -/

section
variable (some_ : p.lossSet t ≠ []) (few : (p.lossSet t).length ≤ p.parityOf t)
include some_ few

theorem Part.evaluate_queued_few (standing : r.standing = .queued) :
    p.EvaluatesTo t { p with hdt := withStanding p.hdt t (p.lossSet t) .queued } :=
  ⟨_, by simp [Part.evaluate?_eq running record, standing, some_, few], Part.setStanding_imaged t _ _ rising rfl rfl rfl⟩

theorem Part.evaluate_parked_few (standing : r.standing = .parked) (stands : p.rivalStands r.outside) :
    p.EvaluatesTo t { p with hdt := withStanding p.hdt t (p.lossSet t) .parked } :=
  ⟨_, by simp [Part.evaluate?_eq running record, standing, some_, few, p.rivalSpent_iff, stands],
    Part.setStanding_imaged t _ _ rising rfl rfl rfl⟩

variable (taken : r.standing = .quiet ∨ r.standing = .unrecoverable
  ∨ (r.standing = .parked ∧ ¬ p.rivalStands r.outside))
include taken

omit rising in
theorem Part.evaluate?_queues : p.evaluate? t = p.queueStripe? t (p.lossSet t) := by
  rcases taken with standing | standing | ⟨standing, spent⟩
  · simp [Part.evaluate?_eq running record, standing, some_, few]
  · simp [Part.evaluate?_eq running record, standing, some_, few]
  · simp [Part.evaluate?_eq running record, standing, some_, few, p.rivalSpent_iff, spent]

theorem Part.evaluate_few_room (room : p.rq.length < 1024) :
    p.EvaluatesTo t { p with hdt := withStanding p.hdt t (p.lossSet t) .queued, rq := p.rq ++ [t] } := by
  rw [Part.EvaluatesTo, Part.evaluate?_queues running record some_ few taken]
  exact Part.queueStripe?_room t _ rising room

omit rising in
theorem Part.evaluate?_few_full (full : 1024 ≤ p.rq.length) : p.evaluate? t = none :=
  (Part.evaluate?_queues running record some_ few taken).trans (Part.queueStripe?_full t _ full)

end

/-! ### With more than m losses -/

section
variable (many : p.parityOf t < (p.lossSet t).length)
include many

omit running record rising in
theorem Part.lossSet_many : p.lossSet t ≠ [] := by
  rintro h
  simp [h] at many

theorem Part.evaluate_unrecoverable_many (standing : r.standing = .unrecoverable) :
    p.EvaluatesTo t { p with hdt := withStanding p.hdt t (p.lossSet t) .unrecoverable } :=
  ⟨_, by simp [Part.evaluate?_eq running record, standing, Part.lossSet_many many, Nat.not_le.2 many],
    Part.setStanding_imaged t _ _ rising rfl rfl rfl⟩

theorem Part.evaluate_idle_many (standing : r.standing = .quiet ∨ r.standing = .parked)
    (room : p.reportPathFull = false) : p.EvaluatesTo t
      (Part.postReport { p with hdt := withStanding p.hdt t (p.lossSet t) .unrecoverable }
        (.unrecoverable t (p.lossSet t))) := by
  have branch : p.evaluate? t = p.makeUnrecoverable? t (p.lossSet t) := by
    rcases standing with standing | standing
    · simp [Part.evaluate?_eq running record, standing, Part.lossSet_many many, Nat.not_le.2 many]
    · simp [Part.evaluate?_eq running record, standing, Part.lossSet_many many, many]
  rw [Part.EvaluatesTo, branch]
  exact Part.makeUnrecoverable?_room t _ rising room

theorem Part.evaluate_queued_many (standing : r.standing = .queued) (room : p.reportPathFull = false) :
    p.EvaluatesTo t (Part.postReport { p.leftQueue t with hdt := withStanding p.hdt t (p.lossSet t) .unrecoverable }
        (.unrecoverable t (p.lossSet t))) := by
  obtain ⟨q, made, imaged⟩ := Part.makeUnrecoverable?_room t (p.lossSet t) rising room
  refine ⟨q.leftQueue t, ?_, ?_⟩
  · simp [Part.evaluate?_eq running record, standing, Part.lossSet_many many, Nat.not_le.2 many, made, Part.unqueue_eq]
  · have leaves : BesideRecords fun q : Part => q.leftQueue t := fun q => ⟨fun _ => rfl, rfl, rfl⟩
    have posted (x : Part) (hlk : x.hlk = p.hlk) (config : x.config = p.config) :=
      Part.postReport_of_same hlk config (.unrecoverable t (p.lossSet t))
    have left := imaged.then leaves
    rw [posted { p with hdt := withStanding p.hdt t (p.lossSet t) .unrecoverable } rfl rfl] at left
    rw [posted { p.leftQueue t with hdt := withStanding p.hdt t (p.lossSet t) .unrecoverable } rfl rfl]
    exact left

omit rising in
theorem Part.evaluate?_many_full (standing : r.standing = .quiet ∨ r.standing = .queued ∨ r.standing = .parked)
    (full : p.reportPathFull = true) : p.evaluate? t = none := by
  have made := Part.makeUnrecoverable?_full t (p.lossSet t) full
  rcases standing with standing | standing | standing
  · simp [Part.evaluate?_eq running record, standing, Part.lossSet_many many, Nat.not_le.2 many, made]
  · simp [Part.evaluate?_eq running record, standing, Part.lossSet_many many, Nat.not_le.2 many, made]
  · simp [Part.evaluate?_eq running record, standing, Part.lossSet_many many, many, made]

end

end

/-! ## REQUEUE (R64) -/

theorem Part.reportPath_open {p : Part} (taken : p.readerTakes = true) : p.reportPathFull = false := by
  simp only [Part.readerTakes, Bool.and_eq_true, Bool.not_eq_true'] at taken
  exact taken.2

section
variable {p : Part} {t : StripeId} {r : HoldingRecord} (w : List Instr) (taken : p.readerTakes = true)
  (running : p.hlk.phase = .running) (record : p.firstRecord? t = some r)
  (idle : r.standing = .quiet ∨ r.standing = .unrecoverable)
include taken running record idle

theorem requeue_evaluates {after : Part} (evaluated : p.EvaluatesTo t after) (ring : p.hlk.sameRing after.hlk) :
    AnswersWithImages (.requeue t) ⟨w, p⟩ after.consumed := by
  obtain ⟨q, answer, imaged⟩ := evaluated
  refine answersWithImages_of_imaged (s := ⟨w, p⟩) rfl taken ((Part.whileRunning_running running _).trans ?_) imaged ring
  simp [Part.requeueStripe, record, idle, answer]

theorem requeue_full (full : p.evaluate? t = none) : Answers (.requeue t) ⟨w, p⟩ (p.refusedWith .full) :=
  refused_whileRunning w taken running (fun _ => rfl) (by simp [Part.requeueStripe, record, idle, full])

end

theorem requeue_noLoss {p : Part} {t : StripeId} {r : HoldingRecord} (w : List Instr) (taken : p.readerTakes = true)
    (running : p.hlk.phase = .running) (record : p.firstRecord? t = some r) (loss : p.lossSet t = [])
    (standing : r.standing = .quiet) : Answers (.requeue t) ⟨w, p⟩ p.consumed := by
  refine answers_of_accepted (s := ⟨w, p⟩) rfl taken ((Part.whileRunning_running running _).trans ?_) ⟨rfl, rfl⟩
  simp [Part.requeueStripe, Part.evaluate?_eq running record, record, standing, loss]

/-- Settles O18. -/
theorem requeueEvaluates : Obligations.RequeueEvaluates := by
  refine ⟨fun p t => ⟨p.lossSet_ascending t, p.mem_lossSet t⟩, ?_⟩
  rintro w p t r _ taken running record rising rfl
  have ring : p.hlk.sameRing p.hlk := ⟨rfl, rfl⟩
  have evaluates {after : Part} := requeue_evaluates (after := after) w taken running record
  refine ⟨requeue_noLoss w taken running record, fun loss standing => ?_, fun some_ few idle => ⟨fun room => ?_,
    fun full => ?_⟩, fun many standing => ?_, fun many standing => ?_⟩
  · exact evaluates (.inr standing) (Part.evaluate_unrecoverable_noLoss running record rising loss standing) ring
  · exact evaluates idle (Part.evaluate_few_room running record rising some_ few (idle.imp_right .inl) room) ring
  · exact requeue_full w taken running record idle
      (Part.evaluate?_few_full running record some_ few (idle.imp_right .inl) full)
  · exact evaluates (.inl standing) (Part.evaluate_idle_many running record rising many (.inl standing)
      (Part.reportPath_open taken)) (Part.postReport_sameRing _ _)
  · exact evaluates (.inr standing) (Part.evaluate_unrecoverable_many running record rising many standing) ring

end Sys2Proof.Machine

/-! The liveness check, silence and suspicion (R37, R39, R40, R45, R46). -/

namespace Sys2Proof

variable {α : Type}

/-! ## Edits of many rows -/

theorem Table.row?_eq_of_mem {t : Table α} (rising : t.rising = true) {r : Nat × α} (member : r ∈ t) {a : α}
    (row : t.row? r.1 = some a) : r.2 = a :=
  Option.some.inj ((Table.row?_of_mem rising member).symm.trans row)

theorem Table.editRow_congr {t : Table α} (rising : t.rising = true) {k : Nat} {f g : α → α}
    (same : ∀ a, t.row? k = some a → f a = g a) : t.editRow k f = t.editRow k g := by
  refine List.map_congr_left fun r member => ?_
  by_cases h : r.1 = k
  · rw [if_pos h, if_pos h, same r.2 (h ▸ Table.row?_of_mem rising member)]
  · rw [if_neg h, if_neg h]

theorem Table.editRow_same {t : Table α} (rising : t.rising = true) {k : Nat} {f : α → α}
    (same : ∀ a, t.row? k = some a → f a = a) : t.editRow k f = t := by
  rw [Table.editRow_congr rising (g := id) same]
  refine (List.map_congr_left fun r _ => ?_).trans (List.map_id _)
  by_cases h : r.1 = k
  · rw [if_pos h]; rfl
  · rw [if_neg h]; rfl

theorem Table.foldl_editRow (f : Nat → α → α) (l : List Nat) (nodup : l.Nodup) (t : Table α) :
    l.foldl (fun u k => u.editRow k (f k)) t = t.map fun r => (r.1, if r.1 ∈ l then f r.1 r.2 else r.2) := by
  induction l generalizing t with
  | nil => simp
  | cons k rest ih =>
    obtain ⟨fresh, nodup⟩ := List.nodup_cons.1 nodup
    rw [List.foldl_cons, ih nodup, Table.editRow_eq_map, List.map_map]
    refine List.map_congr_left fun r _ => ?_
    by_cases h : r.1 = k
    · simp [h, fresh]
    · simp [h]

theorem Table.nodup_numbers {t : Table α} (rising : t.rising = true) : t.numbers.Nodup :=
  ((Table.rising_iff t).1 rising).imp Nat.ne_of_lt

/-- Each row edited by its number: the edits one after another are a map of the table. -/
theorem Table.foldl_numbers (f : Nat → α → α) {t : Table α} (rising : t.rising = true) :
    t.numbers.foldl (fun u k => u.editRow k (f k)) t = t.map fun r => (r.1, f r.1 r.2) := by
  rw [Table.foldl_editRow f _ (Table.nodup_numbers rising)]
  exact List.map_congr_left fun r member => congrArg _ (if_pos (show r.1 ∈ t.numbers from List.mem_map_of_mem member))

theorem Table.rising_map {t : Table α} (f : Nat → α → α) (rising : t.rising = true) :
    Table.rising (t.map fun r => (r.1, f r.1 r.2)) = true := by
  rw [Table.rising_iff] at rising ⊢
  rwa [List.map_map]

namespace Machine

/-! ## The peers in a check -/

/-- The record after its transition in a check in which it does not become LOST (R40, case 1). -/
def Part.silenced (p : Part) (q : Peer) : Peer := if p.silentDue q then { q with state := .silent } else q

/-- The part with the transitions of some stations in a check in which none of them becomes LOST. -/
def Part.silencing (p : Part) (stations : List Nat) : Part :=
  { p with
    prs := { p.prs with
      peers := p.prs.peers.map fun r => (r.1, if r.1 ∈ stations then p.silenced r.2 else r.2) } }

theorem Part.checkPeer_quiet {p : Part} (station : Nat) (lanesFirst : Bool) (rising : p.prs.peers.rising = true)
    (quiet : ∀ q, p.peer? station = some q → p.lostDue q = false) :
    p.checkPeer station lanesFirst = p.editPeer station p.silenced := by
  have edit (f : Peer → Peer) (same : ∀ q, p.peer? station = some q → f q = p.silenced q) :
      p.editPeer station f = p.editPeer station p.silenced := by
    rw [Part.editPeer, Part.editPeer, Table.editRow_congr rising same]
  have stays (same : ∀ q, p.peer? station = some q → p.silenced q = q) : p = p.editPeer station p.silenced := by
    rw [Part.editPeer, Table.editRow_same rising same]
  unfold Part.checkPeer
  cases found : p.peer? station with
  | none => exact stays fun q member => nomatch found.symm.trans member
  | some q =>
    have only {q'} (member : p.peer? station = some q') : q' = q := Option.some.inj (member.symm.trans found)
    by_cases due : p.silentDue q = true
    · simp only [due, if_true]
      exact edit _ fun q' member => by simp [Part.silenced, only member, due]
    · simp only [due, quiet q found, Bool.false_eq_true, if_false]
      exact stays fun q' member => by simp [Part.silenced, only member, due]

theorem Part.foldl_checkPeer {p : Part} (lanesFirst : Bool) (stations : List Nat) (nodup : stations.Nodup)
    (rising : p.prs.peers.rising = true)
    (quiet : ∀ station ∈ stations, ∀ q, p.peer? station = some q → p.lostDue q = false) :
    stations.foldl (fun q station => q.checkPeer station lanesFirst) p = p.silencing stations := by
  induction stations generalizing p with
  | nil => simp [Part.silencing]
  | cons first rest ih =>
    obtain ⟨fresh, nodup⟩ := List.nodup_cons.1 nodup
    rw [List.foldl_cons, Part.checkPeer_quiet first lanesFirst rising (quiet first List.mem_cons_self), ih nodup]
    · simp only [Part.silencing, Part.editPeer, Table.editRow_eq_map, List.map_map]
      congr 2
      refine List.map_congr_left fun r _ => ?_
      by_cases h : r.1 = first
      · simp [h, fresh]
      · simp only [Function.comp_apply, h, if_false, List.mem_cons, false_or]
        rfl
    · exact (Table.rising_editRow _ _ _).trans rising
    · intro station member q row
      rw [Part.peer?_editPeer, if_neg (ne_of_mem_of_not_mem member fresh)] at row
      exact quiet station (List.mem_cons_of_mem _ member) q row

/-! ## The racks in a check -/

/-- A rack after its suspect count is reduced, and UP when that has reached 0 (R46). -/
def Rack.relieved (r : Rack) : Rack :=
  if r.state = .suspect then
    { r with suspectCount := r.suspectCount - 1, state := if r.suspectCount - 1 = 0 then .up else .suspect }
  else r

theorem Part.reduceSuspect_eq (p : Part) (rack : Nat) : p.reduceSuspect rack = p.editRack rack Rack.relieved := by
  simp only [Part.reduceSuspect, Part.endSuspect, Part.editRack, Table.editRow_eq_map, List.map_map]
  congr 2
  refine List.map_congr_left fun r _ => ?_
  by_cases number : r.1 = rack
  · by_cases state : r.2.state = .suspect
    · by_cases count : r.2.suspectCount - 1 = 0 <;> simp [number, Rack.relieved, state, count]
    · simp [number, Rack.relieved, state]
  · simp [number]

theorem Part.foldl_reduceSuspect (p : Part) (racks : List Nat) : racks.foldl Part.reduceSuspect p =
    { p with prs := { p.prs with racks := racks.foldl (fun t rack => t.editRow rack Rack.relieved) p.prs.racks } } := by
  induction racks generalizing p with
  | nil => rfl
  | cons first rest ih => rw [List.foldl_cons, ih, Part.reduceSuspect_eq]; rfl

theorem Part.reduceSuspects {p : Part} (rising : p.prs.racks.rising = true) :
    p.prs.racks.numbers.foldl Part.reduceSuspect p =
      { p with prs := { p.prs with racks := p.prs.racks.map fun r => (r.1, r.2.relieved) } } := by
  rw [Part.foldl_reduceSuspect, Table.foldl_numbers (fun _ => Rack.relieved) rising]

theorem Part.checkRackDown_stands {p : Part} {rack : Nat}
    (stands : ∀ r, p.prs.racks.row? rack = some r → r.state ≠ .down → p.allLost r = false) :
    p.checkRackDown rack = p := by
  unfold Part.checkRackDown
  cases row : p.prs.racks.row? rack with
  | none => rfl
  | some r =>
    by_cases down : r.state = .down
    · simp [down]
    · simp [stands r row down]

theorem Part.allLost_congr {p q : Part} (same : ∀ station, q.peerState? station = some .lost ↔ p.peerState? station = some .lost)
    (r : Rack) : q.allLost r = p.allLost r := by
  have each (station : Nat) : (q.peerState? station == some .lost) = (p.peerState? station == some .lost) := by
    rw [Bool.eq_iff_iff, beq_iff_eq, beq_iff_eq]
    exact same station
  simp only [Part.allLost, each]

/-! ## A check that takes no station to LOST -/

/-- The part with the missed counts of a check (R39). -/
def Part.counting (p : Part) : Part :=
  { p with prs := { p.prs with peers := p.prs.peers.map fun r => (r.1, r.2.counted) } }

theorem Part.livenessCheck_eq (p : Part) (lanesFirst : Bool) : p.livenessCheck lanesFirst =
    let q := p.counting.prs.peers.numbers.foldl (fun r station => r.checkPeer station lanesFirst) p.counting
    let q := q.prs.racks.numbers.foldl Part.checkRackDown q
    q.prs.racks.numbers.foldl Part.reduceSuspect q := rfl

/-- The counts of a check leave all but the missed count and the heard flag (R39). -/
theorem Peer.counted_eq (q : Peer) :
    q.counted = if q.state = .self then q else { q with missed := q.missedNext, heard := false } := by
  unfold Peer.counted Peer.missedNext
  cases q.heard <;> simp

theorem Peer.counted_missed {q : Peer} (other : q.state ≠ .self) : q.counted.missed = q.missedNext := by
  rw [Peer.counted_eq, if_neg other]

theorem Part.lostDue_counted (p : Part) (q : Peer) : p.lostDue q.counted = true ↔ p.dueLost q := by
  have long : p.longCountFor q.counted = p.longInForce q := by
    rw [Part.longCountFor, Peer.counted_rack]
    rfl
  rw [Part.lostDue, Part.dueLost, Peer.counted_state, long, Bool.and_eq_true, Bool.or_eq_true, beq_iff_eq, beq_iff_eq,
    decide_eq_true_eq]
  refine and_congr_right fun state => ?_
  rw [Peer.counted_missed fun self => by simp [self] at state]

theorem Part.silentDue_counted (p : Part) (q : Peer) :
    p.silentDue q.counted = true ↔ q.state = .present ∧ p.shortCount ≤ q.missedNext := by
  rw [Part.silentDue, Peer.counted_state, Bool.and_eq_true, beq_iff_eq, decide_eq_true_eq]
  refine and_congr_right fun state => ?_
  rw [Peer.counted_missed fun self => by simp [self] at state]

theorem Part.peer?_counting (p : Part) (station : Nat) : p.counting.peer? station = (p.peer? station).map Peer.counted :=
  Table.row?_map _ _ fun _ => Peer.counted

theorem Part.silenced_state (p : Part) (q : Peer) : (p.silenced q).state = .lost ↔ q.state = .lost := by
  unfold Part.silenced
  split
  next due =>
    have present : q.state = .present := by simp_all [Part.silentDue]
    simp [present]
  next => rfl

theorem Part.peerState?_silencing (p : Part) (stations : List Nat) (station : Nat) :
    (p.silencing stations).peerState? station = some .lost ↔ p.peerState? station = some .lost := by
  have row : (p.silencing stations).peer? station
      = (p.peer? station).map fun q => if station ∈ stations then p.silenced q else q :=
    Table.row?_map _ _ fun n q => if n ∈ stations then p.silenced q else q
  rw [Part.peerState?, Part.peerState?, row]
  cases p.peer? station with
  | none => rfl
  | some q =>
    by_cases member : station ∈ stations
    · simp [member, p.silenced_state]
    · simp [member]

theorem Part.peerState?_counting (p : Part) (station : Nat) : p.counting.peerState? station = p.peerState? station := by
  rw [Part.peerState?, Part.peerState?, Part.peer?_counting]
  cases p.peer? station with
  | none => rfl
  | some q => simp [Peer.counted_state]

theorem Part.checkRacks_stand {p : Part} (racks : List Nat)
    (stand : ∀ r ∈ p.prs.racks, r.2.state ≠ .down → p.allLost r.2 = false) : racks.foldl Part.checkRackDown p = p := by
  induction racks with
  | nil => rfl
  | cons first rest ih =>
    rw [List.foldl_cons, Part.checkRackDown_stands fun r row => stand (first, r) (Table.row?_mem row), ih]

theorem Part.livenessCheck_quiet {p : Part} (lanesFirst : Bool) (peers : p.prs.peers.rising = true)
    (racks : p.prs.racks.rising = true) (quiet : ∀ r ∈ p.prs.peers, ¬ p.dueLost r.2)
    (stand : ∀ r ∈ p.prs.racks, r.2.state ≠ .down → p.allLost r.2 = false) :
    p.livenessCheck lanesFirst =
      { p with
        prs := { p.prs with
          peers := p.prs.peers.map fun r => (r.1, p.silenced r.2.counted)
          racks := p.prs.racks.map fun r => (r.1, r.2.relieved) } } := by
  have rising : p.counting.prs.peers.rising = true := Table.rising_map (fun _ => Peer.counted) peers
  have noneLost : ∀ station ∈ p.counting.prs.peers.numbers, ∀ q, p.counting.peer? station = some q →
      p.counting.lostDue q = false := by
    intro station _ q row
    rw [Part.peer?_counting, Option.map_eq_some_iff] at row
    obtain ⟨before, row, rfl⟩ := row
    exact Bool.eq_false_iff.2 fun due => quiet (station, before) (Table.row?_mem row) ((p.lostDue_counted before).1 due)
  have lost (stations : List Nat) (r : Rack) : (p.counting.silencing stations).allLost r = p.allLost r :=
    Part.allLost_congr (fun station => by rw [Part.peerState?_silencing, Part.peerState?_counting]) r
  rw [Part.livenessCheck_eq, Part.foldl_checkPeer lanesFirst _ (Table.nodup_numbers rising) rising noneLost]
  dsimp only
  rw [Part.checkRacks_stand _ fun r member down => (lost _ r.2).trans (stand r member down),
    Part.reduceSuspects (show (p.counting.silencing _).prs.racks.rising = true from racks)]
  simp only [Part.silencing, Part.counting, List.map_map]
  congr 2
  refine List.map_congr_left fun r member => ?_
  have number : r.1 ∈ p.counting.prs.peers.numbers := by
    simp only [Part.counting, Table.numbers, List.map_map]
    exact List.mem_map_of_mem (f := Prod.fst) member
  exact congrArg _ (if_pos number)

/-! ## The expiry of the liveness timer -/

/-- On the segment the BEACON of the model is the one of the moment. -/
theorem Part.beaconBody_eq {p : Part} (segment : p.onSegment = true) : p.beaconBody = p.beaconNow.body := by
  have phase : p.hlk.phase = .running ∨ p.hlk.phase = .halted := by simpa [Part.onSegment] using segment
  rcases phase with phase | phase <;>
    simp [Part.beaconBody, Part.beaconNow, Part.ownStatus?, phase, PeerStatus.code, Part.contextsInUse]

/-- The part at an expiry of the liveness timer, before its check: the clock, the next expiry, and the BEACON
(R37, R39). -/
def Part.expired (p : Part) (due : Nat) : Part :=
  Part.withBeacon
    { p with now := max p.now due, prs := { p.prs with livenessDue := some (due + p.beaconPeriod) } } p.beaconNow

theorem Part.livenessExpiry_eq {p : Part} {due : Nat} (lanesFirst : Bool) (segment : p.onSegment = true)
    (timer : p.prs.livenessDue = some due) : p.livenessExpiry lanesFirst = (p.expired due).livenessCheck lanesFirst := by
  unfold Part.livenessExpiry
  rw [timer]
  dsimp only
  rw [Part.postBeacon_eq, Part.beaconBody_eq (by exact segment)]
  rfl

theorem Part.livenessExpiry_quiet {p : Part} {due : Nat} (lanesFirst : Bool) (segment : p.onSegment = true)
    (timer : p.prs.livenessDue = some due) (peers : p.prs.peers.rising = true)
    (racks : p.prs.racks.rising = true) (quiet : ∀ r ∈ p.prs.peers, ¬ p.dueLost r.2)
    (stand : ∀ r ∈ p.prs.racks, r.2.state ≠ .down → p.allLost r.2 = false) :
    p.livenessExpiry lanesFirst = p.quietlyChecked due := by
  rw [Part.livenessExpiry_eq lanesFirst segment timer,
    Part.livenessCheck_quiet (p := p.expired due) lanesFirst peers racks quiet stand]
  have peer (q : Peer) : p.silenced q.counted =
      if q.state = .self then q
      else { q with
        missed := q.missedNext, heard := false,
        state := if q.state = .present ∧ p.shortCount ≤ q.missedNext then .silent else q.state } := by
    rw [Part.silenced, if_congr (p.silentDue_counted q) rfl rfl, Peer.counted_eq]
    by_cases self : q.state = .self
    · simp [self]
    · by_cases silent : q.state = .present ∧ p.shortCount ≤ q.missedNext
      · simp [silent]
      · simp [self, silent]
  have peers : p.prs.peers.map (fun r => (r.1, p.silenced r.2.counted)) = (p.quietlyChecked due).prs.peers :=
    List.map_congr_left fun r _ => by rw [peer]
  exact congrArg (fun t => { p.quietlyChecked due with prs := { (p.quietlyChecked due).prs with peers := t } }) peers

theorem livenessTimerExpiry_quiet {p : Part} {due : Nat} (w : List Instr) (lanesFirst : Bool)
    (segment : p.onSegment = true) (timer : p.prs.livenessDue = some due) (peers : p.prs.peers.rising = true)
    (racks : p.prs.racks.rising = true) (quiet : ∀ r ∈ p.prs.peers, ¬ p.dueLost r.2)
    (stand : ∀ r ∈ p.prs.racks, r.2.state ≠ .down → p.allLost r.2 = false) :
    Answers (.livenessTimerExpiry lanesFirst) ⟨w, p⟩ (p.quietlyChecked due) := by
  have meaning : exec (.livenessTimerExpiry lanesFirst) ⟨w, p⟩ = run ⟨w, p⟩ fun p => p.livenessExpiry lanesFirst := rfl
  exact answers_of_effect meaning
    (congrArg Part.unmarked (Part.livenessExpiry_quiet lanesFirst segment timer peers racks quiet stand))

/-- Settles O22. -/
theorem livenessCheck : Obligations.LivenessCheck := fun w _ lanesFirst _ => livenessTimerExpiry_quiet w lanesFirst

/-! ## Silence and suspicion (R40, R45, R46) -/

theorem peerSilent_check {p : Part} {station : Nat} {q : Peer} (w : List Instr) (row : p.peer? station = some q)
    (present : q.state = .present) (silent : p.shortCount ≤ q.missedNext) :
    exec (.peerSilent station) ⟨w, p⟩ = exec (.livenessTimerExpiry true) ⟨w, p⟩ := by
  have makes : p.checkSilences station = true := by
    simp only [Part.checkSilences, row]
    exact (p.silentDue_counted q).2 ⟨present, silent⟩
  have meaning : exec (.peerSilent station) ⟨w, p⟩ =
    run ⟨w, p⟩ fun p => if p.checkSilences station then p.livenessExpiry true else p := rfl
  have check : exec (.livenessTimerExpiry true) ⟨w, p⟩ = run ⟨w, p⟩ fun p => p.livenessExpiry true := rfl
  rw [meaning, check, run, run, if_pos makes]

theorem peerSilent_nothing {p : Part} {station : Nat} {q : Peer} (w : List Instr) (row : p.peer? station = some q)
    (not : q.state ≠ .present ∨ q.missedNext < p.shortCount) : Answers (.peerSilent station) ⟨w, p⟩ p := by
  have makes : ¬ p.checkSilences station = true := by
    simp only [Part.checkSilences, row, p.silentDue_counted]
    rintro ⟨present, silent⟩
    exact not.elim (· present) fun less => Nat.not_lt.2 silent less
  have meaning : exec (.peerSilent station) ⟨w, p⟩ =
    run ⟨w, p⟩ fun p => if p.checkSilences station then p.livenessExpiry true else p := rfl
  exact answers_of_effect meaning (congrArg Part.unmarked (if_neg makes))

theorem Part.rackState_of_row {p : Part} {rack : Nat} {r : Rack} (row : p.prs.racks.row? rack = some r) :
    p.rackState rack = r.state := by
  rw [Part.rackState, row]
  rfl

theorem suspectCountExpiry_nothing {p : Part} {rack : Nat} (w : List Instr) (not : p.checkEndsSuspect rack = false) :
    Answers (.suspectCountExpiry rack) ⟨w, p⟩ p := by
  have meaning : exec (.suspectCountExpiry rack) ⟨w, p⟩ =
    run ⟨w, p⟩ fun p => if p.checkEndsSuspect rack then p.livenessExpiry true else p := rfl
  exact answers_of_effect meaning (congrArg Part.unmarked (if_neg (Bool.eq_false_iff.1 not)))

theorem suspectCountExpiry_check {p q : Part} {rack : Nat} (w : List Instr) (ends : p.checkEndsSuspect rack = true)
    (checked : p.livenessExpiry true = q) : Answers (.suspectCountExpiry rack) ⟨w, p⟩ q := by
  have meaning : exec (.suspectCountExpiry rack) ⟨w, p⟩ =
    run ⟨w, p⟩ fun p => if p.checkEndsSuspect rack then p.livenessExpiry true else p := rfl
  exact answers_of_effect meaning (congrArg Part.unmarked ((if_pos ends).trans checked))

/-- A rack that is not SUSPECT, or whose timer does not run, is not returned to UP by the row of its count. -/
theorem Part.checkEndsSuspect_not {p : Part} {rack : Nat} {r : Rack} (row : p.prs.racks.row? rack = some r)
    (not : r.state ≠ .suspect ∨ p.prs.livenessDue = none) : p.checkEndsSuspect rack = false := by
  rcases not with state | stopped
  · simp [Part.checkEndsSuspect, Part.rackState_of_row row, state]
  · have same : p.livenessExpiry true = p := by simp only [Part.livenessExpiry, stopped]
    rw [Part.checkEndsSuspect, same, Part.rackState_of_row row]
    cases r.state <;> rfl

theorem Part.checkEndsSuspect_quiet {p : Part} {rack due : Nat} {r : Rack} (row : p.prs.racks.row? rack = some r)
    (state : r.state = .suspect) (checked : p.livenessExpiry true = p.quietlyChecked due) :
    p.checkEndsSuspect rack = decide (r.suspectCount ≤ 1) := by
  have after : (p.quietlyChecked due).prs.racks.row? rack = some r.relieved :=
    (Table.row?_map p.prs.racks rack fun _ => Rack.relieved).trans (congrArg (Option.map Rack.relieved) row)
  rw [Part.checkEndsSuspect, checked, Part.rackState_of_row row, Part.rackState_of_row after, state, Rack.relieved,
    if_pos state]
  by_cases count : r.suspectCount ≤ 1
  · rw [if_pos (by omega), decide_eq_true count]
    rfl
  · rw [if_neg (by omega), decide_eq_false count]
    rfl

theorem rackdown_taken {p q : Part} {h : FrameHeader} {rack : Byte} (w : List Instr) (peer : p.broadcastFromPeer h)
    (named : rack.toNat ≤ 15) (taken : p.takeRackdown rack.toNat = q) : Answers (.rackdown h rack) ⟨w, p⟩ q := by
  have meaning : exec (.rackdown h rack) ⟨w, p⟩ =
    run ⟨w, p⟩ fun p => p.receive h (.rackdown rack) fun q => q.takeRackdown rack.toNat := rfl
  have passes := p.receive_broadcastFromPeer h (.rackdown rack) (fun q => q.takeRackdown rack.toNat) peer rfl rfl
    (decide_eq_true named)
  exact answers_of_effect meaning (congrArg Part.unmarked (passes.trans taken))

/-- Settles O23. -/
theorem silenceAndSuspicion : Obligations.SilenceAndSuspicion := by
  intro w p
  refine ⟨fun station q row => ⟨fun present silent => ?_, peerSilent_nothing w row⟩, fun rack r row => ⟨fun not => ?_, ?_⟩,
    fun h rack r peer named row => ⟨fun up members other => ?_, fun not => ?_⟩⟩
  · have check := peerSilent_check w row present silent
    refine ⟨check, fun due segment timer peers racks quiet stand => ?_⟩
    rw [Answers, Leads, check]
    exact livenessTimerExpiry_quiet w true segment timer peers racks quiet stand
  · exact suspectCountExpiry_nothing w (Part.checkEndsSuspect_not row not)
  · intro due state segment timer peers racks quiet stand
    have checked := Part.livenessExpiry_quiet true segment timer peers racks quiet stand
    have ends := Part.checkEndsSuspect_quiet row state checked
    exact ⟨fun count => suspectCountExpiry_check w (ends.trans (decide_eq_true count)) checked,
      fun count => suspectCountExpiry_nothing w (ends.trans (decide_eq_false (Nat.not_le.2 count)))⟩
  · refine rackdown_taken w peer named ?_
    simp [Part.takeRackdown, row, up, members, other]
    rfl
  · refine rackdown_taken w peer named ?_
    simp only [Part.takeRackdown, row]
    refine if_pos ?_
    simpa [or_comm, or_assoc, or_left_comm] using not

end Machine

end Sys2Proof

/-! The scanner's timer and the start of a pass, ranks and precedence, and the segment port (R53, R54, R66, R67, R127,
R155 to R158). -/

namespace Sys2Proof.Machine

/-! ## The sweep timer and the start of a pass (R53, R54) -/

theorem Part.passMayStart_iff (p : Part) : p.passMayStart = true ↔
    p.scn.pass = .idle ∧ p.hlk.phase = .running ∧ (p.scn.pending ≠ [] ∨ p.scn.sweepRequest = true) := by
  simp [Part.passMayStart, and_assoc]

theorem Part.startPass_eq (p : Part) : p.startPass =
    { p with
      scn := { p.scn with
        pending := []
        sweepRequest := false
        triggers := p.scn.pending
        triggerSweep := p.scn.sweepRequest
        cursor := 0
        met := []
        pass := if ∃ r ∈ p.scn.pending, r.2 = true then .held else .walking } } := by
  simp only [Part.startPass, List.any_eq_true]

/-- Settles O28. -/
theorem sweepsAndPasses : Obligations.SweepsAndPasses := by
  intro w p
  refine ⟨fun due timer => ?_, fun idle running wanted => ?_, fun not => ?_⟩
  · refine answers_of_effect (f := Part.expireSweep) rfl (congrArg Part.unmarked ?_)
    simp only [Part.expireSweep, timer]
    rfl
  · have starts := p.passMayStart_iff.2 ⟨idle, running, wanted⟩
    exact answers_of_effect (f := fun p => if p.passMayStart then p.startPass else p) rfl
      (congrArg Part.unmarked ((if_pos starts).trans p.startPass_eq))
  · refine answers_of_effect (f := fun p => if p.passMayStart then p.startPass else p) rfl
      (congrArg Part.unmarked (if_neg fun starts => ?_))
    obtain ⟨idle, running, wanted⟩ := p.passMayStart_iff.1 starts
    rcases not with busy | stopped | ⟨empty, unasked⟩
    · exact busy idle
    · exact stopped running
    · exact wanted.elim (· empty) fun asked => Bool.false_ne_true (unasked.symm.trans asked)

/-! ## Ranks and precedence (R66, R67) -/

theorem spread_lt (t : StripeId) {own : Nat} (station : own ≤ 63) : t.toNat % 65536 ^^^ own * 1025 < 65536 :=
  Nat.xor_lt_two_pow (n := 16) (Nat.mod_lt _ (by decide)) (by omega)

theorem claimSpread_toNat (t : StripeId) {own : Nat} (station : own ≤ 63) :
    (claimSpread t own).toNat = t.toNat % 65536 ^^^ own * 1025 := by
  have small : own * 1025 % 2 ^ 16 = own * 1025 := Nat.mod_eq_of_lt (by omega)
  rw [claimSpread, BitVec.toNat_xor, BitVec.toNat_ofNat, small, BitVec.truncate_eq_setWidth, BitVec.toNat_setWidth]

theorem claimRank_toNat (t : StripeId) {own load : Nat} (station : own ≤ 63) (few : load ≤ 32) :
    (claimRank t own load).toNat = load * 65536 + (t.toNat % 65536 ^^^ own * 1025) := by
  have bound := spread_lt t station
  rw [claimRank, claimSpread_toNat t station, BitVec.toNat_ofNat]
  exact Nat.mod_eq_of_lt (by omega)

theorem claimRank_ne (t : StripeId) {own other load loadOther : Nat} (station : own ≤ 63) (station' : other ≤ 63)
    (differ : own ≠ other) (few : load ≤ 32) (few' : loadOther ≤ 32) :
    claimRank t own load ≠ claimRank t other loadOther := by
  intro same
  have equal := congrArg BitVec.toNat same
  rw [claimRank_toNat t station few, claimRank_toNat t station' few'] at equal
  have bound := spread_lt t station
  have bound' := spread_lt t station'
  have spreads : t.toNat % 65536 ^^^ own * 1025 = t.toNat % 65536 ^^^ other * 1025 := by omega
  have stations := Nat.xor_right_injective spreads
  omega

theorem Contender.precedes_iff (a b : Contender) : a.precedes b = true ↔
    (a.rank = none ∧ ∃ y, b.rank = some y)
      ∨ (∃ x y, a.rank = some x ∧ b.rank = some y ∧ a.settled = true ∧ b.settled = false)
      ∨ ∃ x y, a.rank = some x ∧ b.rank = some y ∧ a.settled = b.settled ∧ x.toNat < y.toNat := by
  obtain ⟨rank, settled⟩ := a
  obtain ⟨rank', settled'⟩ := b
  cases rank <;> cases rank' <;> simp [Contender.precedes]

theorem Contender.not_precedes_of_precedes {a b : Contender} (h : a.precedes b = true) : b.precedes a = false := by
  rw [Bool.eq_false_iff]
  intro back
  rw [Contender.precedes_iff] at h back
  rcases h with ⟨unknown, y, known⟩ | ⟨x, y, known, known', settled, unsettled⟩ | ⟨x, y, known, known', flags, less⟩
  · simp [unknown, known] at back
  · simp [known, known', settled, unsettled] at back
  · simp only [known, known', Option.some.injEq] at back
    rcases back with ⟨none_, -⟩ | ⟨_, _, -, -, settled, unsettled⟩ | ⟨_, _, rfl, rfl, -, more⟩
    · cases none_
    · simp [settled, unsettled] at flags
    · omega

theorem Contender.precedes_or {a b : Contender} {x y : Rank} (known : a.rank = some x) (known' : b.rank = some y)
    (differ : x ≠ y) : a.precedes b = true ∨ b.precedes a = true := by
  have order : x.toNat < y.toNat ∨ y.toNat < x.toNat :=
    Nat.lt_or_gt_of_ne fun same => differ (BitVec.eq_of_toNat_eq same)
  obtain ⟨rank, settled⟩ := a
  obtain ⟨rank', settled'⟩ := b
  subst known known'
  cases settled <;> cases settled' <;> simp [Contender.precedes, order]

/-- Settles O31. -/
theorem ranksAndPrecedence : Obligations.RanksAndPrecedence :=
  ⟨⟨fun t _ _ => claimRank_toNat t, fun t _ _ _ _ => claimRank_ne t⟩,
    Contender.precedes_iff,
    fun _ => Bool.eq_false_iff.2 fun precedes =>
      Bool.false_ne_true ((Contender.not_precedes_of_precedes precedes).symm.trans precedes),
    fun _ _ => Contender.not_precedes_of_precedes,
    fun _ _ _ _ => Contender.precedes_or⟩

/-! ## The receive checks (R155 to R157) -/

theorem exec_arrival (b : FrameBody) (h : FrameHeader) (s : State) :
    ∃ owner, exec (b.arrival h) s = run s fun p => p.receive h b owner := by
  cases b <;> exact ⟨_, rfl⟩

theorem FrameBody.broadcastKind_code (b : FrameBody) : broadcastKind b.code = decide (b.code.toNat ≤ 4) := by
  cases b <;> rfl

theorem Part.dropFrame_counted (p : Part) {k : DropKind} (other : k ≠ .clash) : p.dropFrame k = p.counted k := by
  cases k with
  | clash => exact absurd rfl other
  | version | kind | sender | target | length | unheard | epoch | body | staleSend => rfl

theorem Part.dropFrame_clash (p : Part) : p.dropFrame .clash = (p.counted .clash).flagged .clash :=
  Part.setFlag_eq_flagged _ .clash

theorem arrival_ignored {p : Part} {h : FrameHeader} (w : List Instr) (b : FrameBody)
    (not : p.onSegment = false ∨ p.takesFrame h.destination h.etherType = false) : Answers (b.arrival h) ⟨w, p⟩ p := by
  obtain ⟨owner, meaning⟩ := exec_arrival b h ⟨w, p⟩
  refine answers_of_effect meaning (congrArg Part.unmarked (if_neg ?_))
  rcases not with off | foreign
  · simp [off]
  · simp [foreign]

theorem arrival_dropped {p q : Part} {h : FrameHeader} {k : DropKind} (w : List Instr) {b : FrameBody}
    (segment : p.onSegment = true) (taken : p.takesFrame h.destination h.etherType = true)
    (fails : p.receiveCheck h b = some k) (dropped : p.dropFrame k = q) : Answers (b.arrival h) ⟨w, p⟩ q := by
  obtain ⟨owner, meaning⟩ := exec_arrival b h ⟨w, p⟩
  refine answers_of_effect meaning (congrArg Part.unmarked ?_)
  simp only [Part.receive, segment, taken, Bool.and_self, if_true, fails, dropped]

theorem frameDrop_dropped {p : Part} {f : WireFrame} {k : DropKind} (w : List Instr) (segment : p.onSegment = true)
    (taken : p.takesFrame f.destination f.etherType = true) (fails : p.payloadCheck f = some k) (other : k ≠ .clash) :
    Answers (.frameDrop f) ⟨w, p⟩ (p.counted k) := by
  refine answers_of_effect (f := fun p => p.dropIfBad f) rfl (congrArg Part.unmarked ?_)
  simp only [Part.dropIfBad, segment, taken, Bool.and_self, if_true, fails, p.dropFrame_counted other]

theorem Part.hearable_iff {p : Part} {station : Nat} {q : Peer} (member : p.peer? station = some q) :
    p.hearable station = true ↔ q.state = .present ∨ q.state = .silent := by
  simp [Part.hearable, Part.peerState?, member]

theorem versionOk_iff (payload : List Byte) : versionOk payload = true ↔
    16 ≤ payload.length ∧ byteAt payload 0 = 0x01 ∧ bytesAt payload 6 2 = [0, 0]
      ∧ bytesAt payload 10 6 = [0, 0, 0, 0, 0, 0] := by
  simp [versionOk, and_assoc]

theorem kindOk_not {payload : List Byte} (unknown : byteAt payload 1 = 0 ∨ 0x0B < (byteAt payload 1).toNat) :
    kindOk payload = false := by
  have each : ∀ b : Byte, b = 0 ∨ 0x0B < b.toNat → ((fixedBodyLength? b).isSome || b == 0x0A) = false := by decide
  exact each _ unknown

/-- The checks after the sender's, in their order, for a frame of another member (R156). -/
theorem Part.receiveCheck_member {p : Part} {h : FrameHeader} {q : Peer} (b : FrameBody)
    (other : h.sender.toNat ≠ p.own) (member : p.peer? h.sender.toNat = some q) : p.receiveCheck h b =
      if h.target ≠ (if b.code.toNat ≤ 4 then 0xFF#8 else BitVec.ofNat 8 p.own) then some .target
      else if b.lengthOk = false then some .length
      else if b.code ≠ 0x01 ∧ ¬ (q.state = .present ∨ q.state = .silent) then some .unheard
      else if b.code ≠ 0x01 ∧ q.epoch ≠ some h.epoch then some .epoch
      else if b.valid = false then some .body
      else none := by
  simp only [Part.receiveCheck, Part.headerCheck, other, member, FrameBody.broadcastKind_code, ← Part.hearable_iff member,
    if_false, Option.isNone_some, Bool.false_eq_true, decide_eq_true_eq, Option.bind_some, Bool.not_eq_true',
    Bool.and_eq_true, beq_eq_false_iff_ne, Bool.not_eq_true]

/-- Settles O26. -/
theorem receiveChecksDropFrames : Obligations.ReceiveChecksDropFrames := by
  refine ⟨fun w p h b => ⟨arrival_ignored w b, fun segment taken => ?_⟩, fun w p f => ⟨fun not => ?_, fun segment taken => ?_⟩⟩
  · have drops {q : Part} (k : DropKind) := arrival_dropped (q := q) (k := k) w segment taken (b := b)
    refine ⟨fun own => drops .clash (by simp [Part.receiveCheck, Part.headerCheck, own]) p.dropFrame_clash, fun other =>
      ⟨fun stranger => drops .sender (by simp [Part.receiveCheck, Part.headerCheck, other, stranger]) rfl, ?_⟩⟩
    intro q member
    have checks := Part.receiveCheck_member b other member
    refine ⟨fun target => drops .target (by rw [checks, if_pos target]) rfl, fun target =>
      ⟨fun length => drops .length ?_ rfl, fun length kind gone => drops .unheard ?_ rfl,
        fun length kind heard epoch => drops .epoch ?_ rfl, fun length body passes => drops .body ?_ rfl⟩⟩
    · rw [checks, if_neg (not_not.2 target), if_pos length]
    · have unheard : ¬ (q.state = .present ∨ q.state = .silent) := by rcases gone with gone | gone <;> simp [gone]
      rw [checks, if_neg (not_not.2 target), if_neg (by simp [length]), if_pos ⟨kind, unheard⟩]
    · rw [checks, if_neg (not_not.2 target), if_neg (by simp [length]), if_neg fun h => h.2 heard, if_pos ⟨kind, epoch⟩]
    · rw [checks, if_neg (not_not.2 target), if_neg (by simp [length]),
        if_neg fun h => passes.elim h.1 fun known => h.2 known.1,
        if_neg fun h => passes.elim h.1 fun known => h.2 known.2, if_pos body]
  · refine answers_of_effect (f := fun p => p.dropIfBad f) rfl (congrArg Part.unmarked (if_neg ?_))
    rcases not with off | foreign
    · simp [off]
    · simp [foreign]
  · have drops (k : DropKind) := frameDrop_dropped (k := k) (f := f) w segment taken
    refine ⟨fun bad => drops .version ?_ nofun, fun size version zeros zeros' unknown => drops .kind ?_ nofun⟩
    · have fails : versionOk f.payload = false := by
        rw [Bool.eq_false_iff, ne_eq, versionOk_iff]
        rintro ⟨size, version, zeros, zeros'⟩
        rcases bad with short | other | nonzero | nonzero
        · omega
        · exact other version
        · exact nonzero zeros
        · exact nonzero zeros'
      simp [Part.payloadCheck, fails]
    · have passes := (versionOk_iff f.payload).2 ⟨size, version, zeros, zeros'⟩
      simp [Part.payloadCheck, passes, kindOk_not unknown]

/-! ## Transmission (R108, R112, R127, R155, R158, R159) -/

theorem frameTransmit_head {p q : Part} (w : List Instr) (segment : p.onSegment = true) (sent : p.transmitHead = q) :
    Answers .frameTransmit ⟨w, p⟩ q :=
  answers_of_effect (f := fun p => if p.onSegment then p.transmitHead else p) rfl
    (congrArg Part.unmarked ((if_pos segment).trans sent))

theorem Part.transmitHead_control {p : Part} {f : ControlFrame} {rest : List ControlFrame}
    (head : p.sgp.control = f :: rest) : p.transmitHead =
      (Part.transmit { p with sgp := { p.sgp with control := rest } } f.target f.epoch f.body).tellProducer f.body := by
  simp only [Part.transmitHead, head]

theorem Part.tellProducer_other {p : Part} {b : FrameBody}
    (other : ∀ tag, (∀ stripe position, b ≠ .fetchOpen stripe position tag) ∧ ∀ c, b ≠ .pull tag c) :
    p.tellProducer b = p := by
  cases b with
  | fetchOpen stripe position tag => exact absurd rfl ((other tag).1 stripe position)
  | pull tag c => exact absurd rfl ((other tag).2 c)
  | beacon | rackdown | claim | withdraw | ready | wait | refuse | chunk | release => rfl

theorem Part.setUse_editLane (p : Part) (n : Nat) (f : Lane → Lane) (u : LaneUse)
    (replaced : ∀ l, { f l with use := some u } = { l with use := some u }) :
    (p.editLane n f).setUse n u = p.setUse n u := by
  have twice : (p.ftu.editRow n f).editRow n (fun l => { l with use := some u })
      = p.ftu.editRow n fun l => { l with use := some u } := by
    simp only [Table.editRow_eq_map, List.map_map]
    refine List.map_congr_left fun r _ => ?_
    by_cases h : r.1 = n
    · simp [h, replaced]
    · simp [h]
  exact congrArg (fun ftu => { p with ftu := ftu }) twice

/-- A lane in use has a record. -/
theorem Part.laneUse?_eq_some (p : Part) (n : Nat) (u : LaneUse) :
    p.laneUse? n = some u ↔ ∃ l, p.ftu.row? n = some l ∧ l.use = some u := by
  rw [Part.laneUse?, Part.lane]
  cases p.ftu.row? n with
  | none => simp [Lane.reset]
  | some l => simp

theorem Part.laneUse?_editLane {p : Part} {n : Nat} {f : Lane → Lane} {u v : LaneUse} (use : p.laneUse? n = some u)
    (edited : ∀ l, l.use = some u → (f l).use = some v) : (p.editLane n f).laneUse? n = some v := by
  obtain ⟨l, row, held⟩ := (p.laneUse?_eq_some n u).1 use
  refine (Part.laneUse?_eq_some _ n v).2 ⟨f l, ?_, edited l held⟩
  exact (Table.row?_editRow _ _ _ _).trans ((if_pos rfl).trans (congrArg (Option.map f) row))

theorem Part.tellProducer_fetchOpen {p : Part} {stripe : StripeId} {position : Byte} {tag : Tag} {n : Nat} {u : LaneUse}
    (lane : laneOfTag tag = n) (current : p.laneTag n = tag) (use : p.laneUse? n = some u)
    (opening : ∃ old, u.state = .opening old) : p.tellProducer (.fetchOpen stripe position tag) =
      p.setUse n { u with openSent := true, state := .opening (some (p.now + p.replyTimeout)) } := by
  obtain ⟨old, opening⟩ := opening
  have marked : (p.markOpenSent n).laneUse? n = some { u with openSent := true } :=
    Part.laneUse?_editLane use fun l held => by rw [held]; rfl
  simp only [Part.tellProducer, lane, current, if_true, Part.startOpenTimeout, marked, opening]
  exact Part.setUse_editLane p n _ _ fun _ => rfl

theorem Part.tellProducer_pull {p : Part} {c : Byte} {tag : Tag} {n tries : Nat} {old : Option Nat} {u : LaneUse}
    (lane : laneOfTag tag = n) (current : p.laneTag n = tag) (use : p.laneUse? n = some u)
    (bank : u.bankOf c.toNat = .requested c.toNat tries old) : p.tellProducer (.pull tag c) =
      p.setUse n (u.setBank c.toNat (.requested c.toNat tries (some p.now))) := by
  simp only [Part.tellProducer, lane, current, if_true, Part.startPullTimeout, use, bank]

theorem Part.slot?_editSlot {p : Part} {j : Nat} {f : Slot → Slot} {r : Slot} (slot : p.slot? j = some r) :
    (p.editSlot j f).slot? j = some (f r) :=
  (Table.row?_editRow _ _ _ _).trans ((if_pos rfl).trans (congrArg (Option.map f) slot))

theorem Part.settleSlot_owned {p : Part} {j : Nat} {r : Slot} (slot : p.slot? j = some r) (owned : r.owner ≠ none) :
    p.settleSlot j = p := by
  simp [Part.settleSlot, slot, owned]

/-- Settles O27. -/
theorem framesLeaveTheirQueues : Obligations.FramesLeaveTheirQueues := by
  refine ⟨fun w p segment => ⟨fun control data => ?_, fun f rest head => ⟨fun other => ?_, ?_, ?_⟩, ?_⟩,
    fun w p => ⟨fun f rest held => ⟨fun place => ?_, fun full => ?_⟩, fun f held => ⟨fun place => ?_, fun full => ?_⟩⟩⟩
  · refine frameTransmit_head w segment ?_
    simp only [Part.transmitHead, control, data]
  · exact frameTransmit_head w segment ((Part.transmitHead_control head).trans (Part.tellProducer_other other))
  · rintro stripe position tag n u body lane current use opening
    refine frameTransmit_head w segment ((Part.transmitHead_control head).trans ?_)
    rw [body]
    exact Part.tellProducer_fetchOpen lane current use opening
  · rintro tag c n u tries old body lane current use bank
    refine frameTransmit_head w segment ((Part.transmitHead_control head).trans ?_)
    rw [body]
    exact Part.tellProducer_pull lane current use bank
  · rintro f rest r control head slot owned
    refine frameTransmit_head w segment ?_
    have sent : p.transmitHead = Part.transmitChunk { p with sgp := { p.sgp with data := rest } } f := by
      unfold Part.transmitHead
      split <;> simp_all
    rw [sent]
    refine Part.settleSlot_owned (Part.slot?_editSlot (r := r) ?_) owned
    exact slot
  · refine answers_of_effect (f := Part.queueHeld) rfl (congrArg Part.unmarked ?_)
    simp only [Part.queueHeld, held, place, if_true]
  · refine answers_of_effect (f := Part.queueHeld) rfl (congrArg Part.unmarked ?_)
    simp [Part.queueHeld, held, full]
  · refine answers_of_effect (f := Part.queueHeldChunk) rfl (congrArg Part.unmarked ?_)
    simp [Part.queueHeldChunk, held, dataPlaces, place]
  · refine answers_of_effect (f := Part.queueHeldChunk) rfl (congrArg Part.unmarked ?_)
    simp [Part.queueHeldChunk, held, dataPlaces, Nat.not_lt.2 full]

end Sys2Proof.Machine

/-! The claim table: its timers, a CLAIM at an OWNED entry, and a WITHDRAW that gives a stripe up or yields it
(R72 to R75, R79, R80). -/

namespace Sys2Proof.Machine

theorem answersWithImages_of_runImaged {i : Instr} {s : State} {f : Part → Part} {r : Part} (h : exec i s = run s f)
    (imaged : s.part.Imaged (f s.part) r) : AnswersWithImages i s r :=
  answersWithImages_of_run h imaged.same imaged.images

/-! ## Claim entries and their frames -/

theorem Part.claimOf?_row {p : Part} {t : StripeId} {n : Nat} {e : ClaimEntry} (rising : p.clt.entries.rising = true)
    (entry : p.claimOf? t = some (n, e)) : p.clt.entries.row? n = some e :=
  Table.row?_of_mem rising (List.mem_of_find?_eq_some entry)

theorem Part.post_contest {p : Part} {b : FrameBody} {t : StripeId} (contest : b.contestStripe? = some t)
    (fresh : p.claimWaits t = false) (room : p.queueOpen) (target : Option Nat) : p.post target b = p.queued target b :=
  Part.post_queueOpen target
    (fun _ hu => (Option.some.inj (contest.symm.trans hu)) ▸ fresh) room

/-- Posting a control frame changes the segment port alone. -/
theorem Part.post_eq (p : Part) (target : Option Nat) (b : FrameBody) :
    p.post target b = { p with sgp := (p.post target b).sgp } := by
  have queued (f : ControlFrame) : p.enqueueControl f = { p with sgp := (p.enqueueControl f).sgp } := by
    unfold Part.enqueueControl
    dsimp only
    split
    · rfl
    · split <;> rfl
  unfold Part.post
  dsimp only
  split
  · split
    · rfl
    · exact queued _
  · exact queued _

theorem Part.contend_eq {p : Part} {n : Nat} {e : ClaimEntry} (row : p.clt.entries.row? n = some e) : p.contend n =
    Part.post
      { p with
        clt := { p.clt with
          entries := p.clt.entries.setRow n { e with state := .contending (p.now + p.claimHoldOff) } } }
      none (.claim e.stripe e.rank 0x00 (maskOf e.lost)) := by
  unfold Part.contend
  rw [row]
  rfl

theorem Part.contend_queued {p : Part} {n : Nat} {e : ClaimEntry} (row : p.clt.entries.row? n = some e)
    (room : p.queueOpen) (fresh : p.claimWaits e.stripe = false) : p.contend n =
    Part.queued
      { p with
        clt := { p.clt with
          entries := p.clt.entries.setRow n { e with state := .contending (p.now + p.claimHoldOff) } } }
      none (.claim e.stripe e.rank 0x00 (maskOf e.lost)) := by
  rw [Part.contend_eq row]
  refine Part.post_contest (t := e.stripe) rfl ?_ ?_ none
  · exact fresh
  · exact room

/-- Settles O36. -/
theorem claimTimersExpire : Obligations.ClaimTimersExpire := by
  intro w p n e row
  refine ⟨fun due state => ?_, fun due state => ?_, fun rival since due state => ?_⟩
  · refine answers_of_effect (f := fun p => p.expireHoldOff n) rfl (congrArg Part.unmarked ?_)
    simp only [Part.expireHoldOff, row, state]
    rfl
  · refine answers_of_effect (f := fun p => p.expireRepeat n) rfl (congrArg Part.unmarked ?_)
    simp only [Part.expireRepeat, row, state]
    rfl
  · refine answers_of_effect (f := fun p => p.expireYield n) rfl (congrArg Part.unmarked ?_)
    simp only [Part.expireYield, row, state]
    exact Part.contend_eq (p := p.reach due) row

theorem Part.setting_congr {p q : Part} (config : q.config = p.config) (f : ConfigRecord → Nat) :
    q.setting f = p.setting f := by rw [Part.setting, Part.setting, config]

/-! ## A CLAIM at an OWNED entry (R72) -/

theorem Contender.precedes_settled_iff {a : Contender} {x : Rank} (y : Rank) (known : a.rank = some x) :
    a.precedes { rank := some y, settled := true } = true ↔ a.settled = true ∧ x.toNat < y.toNat := by
  cases settled : a.settled <;> simp [Contender.precedes, known, settled]

theorem Part.takeClaim_owned {p : Part} {t : StripeId} {g : Geometry} {flags : Byte} {mask : BitVec 16} {n due : Nat}
    {e : ClaimEntry} (station : Nat) (rank : Rank) (running : p.hlk.phase = .running)
    (geometry : p.geometryOf? t = some g) (fits : claimFits g flags (positionsOf mask) = true)
    (entry : p.claimOf? t = some (n, e)) (state : e.state = .owned due) :
    p.takeClaim station t rank flags mask = p.claimAtOwned n e (p.hearClaim station rank (settledBit flags)) := by
  simp [Part.takeClaim, running, geometry, fits, entry, state]

theorem Part.endContextOf_none {p : Part} {t : StripeId} (free : p.contextOf? t = none) : p.endContextOf t = p := by
  simp [Part.endContextOf, free]

theorem Part.context?_freeContext (p : Part) (c : Nat) : (p.freeContext c).context? c = none :=
  (Table.row?_dropRow _ _ _).trans (if_pos rfl)

/-- Settles O33. -/
theorem ownersYieldOrAnswer : Obligations.OwnersYieldOrAnswer := by
  intro w p h t rank flags mask g n e due peer running flagged geometry nonempty few inWidth entry state
  have named : flags.toNat ≤ 3 := by rcases flagged with rfl | rfl | rfl <;> decide
  have settled : flags ≠ 0 → settledBit flags = true := by rcases flagged with rfl | rfl | rfl <;> decide
  have unsettled : flags = 0 → settledBit flags = false := by rintro rfl; rfl
  have fits := (claimFits_iff g _ named).2
    ⟨nonempty, few, inWidth, by rcases flagged with rfl | rfl | rfl <;> decide⟩
  have stripe := Part.claimOf?_stripe entry
  have taken := Part.takeClaim_owned h.sender.toNat rank running geometry fits entry state
  have precedes := Contender.precedes_settled_iff (a := (p.hearClaim h.sender.toNat rank (settledBit flags)).contender)
    e.rank rfl
  have answers {q : Part} := claim_answers_takeClaim (q := q) w t rank mask peer named
  refine ⟨fun nonzero lower => ?_, fun not room fresh => answers (taken.trans ?_)⟩
  · have heard : p.hearClaim h.sender.toNat rank (settledBit flags)
        = { station := h.sender.toNat, rank := some rank, settled := true, heard := p.now } := by
      rw [Part.hearClaim, settled nonzero]
    have yields : p.claimAtOwned n e (p.hearClaim h.sender.toNat rank (settledBit flags)) =
        ((p.endContextOf t).post none (.withdraw t 0x02 h.sender 0)).yieldEntry n e
          { station := h.sender.toNat, rank := some rank, settled := true, heard := p.now } p.now := by
      rw [Part.claimAtOwned, if_pos (precedes.2 ⟨settled nonzero, lower⟩), heard, stripe]
      simp only [Part.postWithdraw, BitVec.ofNat_toNat, BitVec.setWidth_eq]
      rfl
    refine ⟨fun free room fresh => answers (taken.trans (yields.trans ?_)), fun c x context => ?_⟩
    · rw [Part.endContextOf_none free, Part.post_contest rfl fresh room]
      rfl
    · have meaning : exec (.claim h t rank flags mask) ⟨w, p⟩ = run ⟨w, p⟩ fun p =>
          p.receive h (.claim t rank flags mask) fun q => q.takeClaim h.sender.toNat t rank flags mask := rfl
      have effect := (Part.receive_claim t rank mask (fun q => q.takeClaim h.sender.toNat t rank flags mask) peer
        named).trans (taken.trans yields)
      refine leads_of_run meaning ?_
      have ended : p.endContextOf t = p.endContext c := by simp only [Part.endContextOf, context]
      rw [effect, ended]
      generalize sent : (p.endContext c).post none (.withdraw t 0x02 h.sender 0) = q
      have alone := (p.endContext c).post_eq none (.withdraw t 0x02 h.sender 0)
      rw [sent] at alone
      have config : q.config = p.config :=
        (congrArg Part.config alone).trans (Part.endContext_keeps c .rfl).config
      refine ⟨?_, ?_, ?_⟩
      · rw [Part.context?, Part.markStatus_ctx]
        exact (congrArg (fun q : Part => q.context? c) alone).trans ((p.releaseContext c).context?_freeContext c)
      · rw [Part.markStatus_clt]
        exact fun member => bne_iff_ne.1 (List.mem_filter.1 member).2 rfl
      · rw [Part.markStatus_clt]
        refine (Table.row?_setRow_self _ _ _).trans ?_
        rw [Part.yieldedState, Part.claimRepeat, Part.setting_congr config]
        rfl
  · have answered : p.claimAtOwned n e (p.hearClaim h.sender.toNat rank (settledBit flags))
        = p.post none (.claim t e.rank 0x01 (maskOf e.lost)) := by
      rw [Part.claimAtOwned, if_neg fun before => ?_, ← stripe]
      · rfl
      · obtain ⟨settled', less⟩ := precedes.1 before
        rcases not with zero | after
        · exact Bool.false_ne_true ((unsettled zero).symm.trans settled')
        · omega
    exact answered.trans (Part.post_contest rfl fresh room none)

/-! ## A WITHDRAW (R77, R79, R80) -/

/-- A WITHDRAW that passes the receive checks is taken by the rule for its reason (R77). -/
theorem withdraw_taken {p : Part} {h : FrameHeader} {reason winner : Byte} {r : WithdrawReason} (w : List Instr)
    (t : StripeId) (mask : BitVec 16) (peer : p.broadcastFromPeer h) (named : WithdrawReason.ofCode? reason = some r)
    (valid : winner.toNat ≤ 63 ∨ (r ≠ .yield ∧ winner = 0xFF)) :
    ∃ f : Part → Part, exec (.withdraw h t reason winner mask) ⟨w, p⟩ = run ⟨w, p⟩ f
      ∧ f p = p.takeWithdraw h.sender.toNat t r winner.toNat (positionsOf mask) := by
  have passes : (FrameBody.withdraw t reason winner mask).valid = true := by
    simp only [FrameBody.valid, named]
    rcases valid with winner | ⟨other, rfl⟩
    · cases r <;> simp [winner]
    · cases r <;> simp at other ⊢
  refine ⟨fun p => p.receive h (.withdraw t reason winner mask) fun q =>
    match WithdrawReason.ofCode? reason with
    | some r => q.takeWithdraw h.sender.toNat t r winner.toNat (positionsOf mask)
    | none => q, rfl, ?_⟩
  refine (p.receive_broadcastFromPeer h _ _ peer rfl rfl passes).trans ?_
  rw [named]

section
variable {p : Part} {h : FrameHeader} {reason winner : Byte} {r : WithdrawReason} (w : List Instr)
  (t : StripeId) (mask : BitVec 16) (peer : p.broadcastFromPeer h) (named : WithdrawReason.ofCode? reason = some r)
  (valid : winner.toNat ≤ 63 ∨ (r ≠ .yield ∧ winner = 0xFF))
include peer named valid

theorem withdraw_answers {q : Part} (taken : p.takeWithdraw h.sender.toNat t r winner.toNat (positionsOf mask) = q) :
    Answers (.withdraw h t reason winner mask) ⟨w, p⟩ q := by
  obtain ⟨f, meaning, effect⟩ := withdraw_taken w t mask peer named valid
  exact answers_of_effect meaning (congrArg Part.unmarked (effect.trans taken))

theorem withdraw_answersWithImages {q : Part}
    (imaged : p.Imaged (p.takeWithdraw h.sender.toNat t r winner.toNat (positionsOf mask)) q) :
    AnswersWithImages (.withdraw h t reason winner mask) ⟨w, p⟩ q := by
  obtain ⟨f, meaning, effect⟩ := withdraw_taken w t mask peer named valid
  exact answersWithImages_of_runImaged meaning (effect ▸ imaged)

end

/-- In RUNNING, and with a record of the stripe, the rule for the reason is applied (R77). -/
theorem Part.takeWithdraw_running {p : Part} {t : StripeId} {x : HoldingRecord} (station winner : Nat)
    (reason : WithdrawReason) (rebuilt : Positions) (running : p.hlk.phase = .running)
    (record : p.firstRecord? t = some x) : p.takeWithdraw station t reason winner rebuilt =
      match reason with
      | .done => (p.placementUpdate station t rebuilt).withdrawDone station t
      | .yield =>
        if (p.peer? winner).isNone || winner == station then p.dropFrame .body else p.withdrawYield station t winner
      | .abandoned | .halt | .dropped => p.withdrawGivenUp station t
      | .returned | .unrecoverable => p.withdrawJudged station t := by
  simp only [Part.takeWithdraw, record, running]
  cases reason <;> rfl

theorem Part.setOutside_imaged {p : Part} (t : StripeId) (o : Option HeardClaim) (rising : p.hdt.rising = true) :
    p.Imaged (p.setOutside t o) { p with hdt := p.hdt.map (changeStripe t fun r => { r with outside := o }) } :=
  Part.Imaged.updateStripe t _ rising rfl rfl rfl

theorem ClaimEntry.yieldedTo_yielded {e : ClaimEntry} {rival : HeardClaim} {since due : Nat}
    (state : e.state = .yielded rival since due) (station : Nat) :
    e.yieldedTo station = true ↔ rival.station = station := by
  simp [ClaimEntry.yieldedTo, state]

theorem ClaimEntry.announced_not_yielded {e : ClaimEntry} (announced : e.announced = true) (station : Nat) :
    e.yieldedTo station = false := by
  unfold ClaimEntry.announced at announced
  cases state : e.state with
  | yielded => simp [state] at announced
  | contending | owned => simp [ClaimEntry.yieldedTo, state]

section
variable {p : Part} {t : StripeId} {station : Nat}

theorem Part.withdrawGivenUp_entry {n : Nat} {e : ClaimEntry} (entry : p.claimOf? t = some (n, e)) :
    p.withdrawGivenUp station t = if e.yieldedTo station = true then p.contend n else p := by
  simp only [Part.withdrawGivenUp, entry]

theorem Part.withdrawGivenUp_outside {r : HoldingRecord} {o : HeardClaim} (free : p.claimOf? t = none)
    (record : p.firstRecord? t = some r) (outside : r.outside = some o) :
    p.withdrawGivenUp station t = if o.station = station then p.setOutside t none else p := by
  simp only [Part.withdrawGivenUp, free, record, Option.bind_some, outside]

theorem Part.withdrawYield_yielded {n since due winner : Nat} {e : ClaimEntry} {rival : HeardClaim}
    (entry : p.claimOf? t = some (n, e)) (state : e.state = .yielded rival since due) :
    p.withdrawYield station t winner =
      if rival.station ≠ station then p
      else if winner = p.own ∨ p.gone winner = true then p.contend n
      else p.setClaim n { e with state := p.yieldedState (p.namedWinner winner) since } := by
  simp only [Part.withdrawYield, entry, state]

theorem Part.withdrawYield_announced {n winner : Nat} {e : ClaimEntry} (entry : p.claimOf? t = some (n, e))
    (announced : e.announced = true) : p.withdrawYield station t winner = p := by
  unfold ClaimEntry.announced at announced
  cases state : e.state with
  | yielded => simp [state] at announced
  | contending | owned => simp only [Part.withdrawYield, entry, state]

theorem Part.withdrawYield_outside {winner : Nat} {r : HoldingRecord} {o : HeardClaim} (free : p.claimOf? t = none)
    (record : p.firstRecord? t = some r) (outside : r.outside = some o) : p.withdrawYield station t winner =
      if o.station = station then p.setOutside t (some (p.namedWinner winner)) else p := by
  simp only [Part.withdrawYield, free, record, Option.bind_some, outside]

theorem Part.withdrawYield_elsewhere {winner : Nat} {r : HoldingRecord} (free : p.claimOf? t = none)
    (record : p.firstRecord? t = some r) (elsewhere : ∀ o, r.outside = some o → o.station ≠ station) :
    p.withdrawYield station t winner = p := by
  cases outside : r.outside with
  | none => simp only [Part.withdrawYield, free, record, Option.bind_some, outside]
  | some o => rw [Part.withdrawYield_outside free record outside, if_neg (elsewhere o outside)]

end

/-- Settles O34. -/
theorem withdrawalsGiveUpOrYield : Obligations.WithdrawalsGiveUpOrYield := by
  intro w p h t reason winner mask r peer running record rising entries
  refine ⟨fun code absent => ?_, fun code named => ?_⟩
  · obtain ⟨given, named, other, rule⟩ : ∃ given, WithdrawReason.ofCode? reason = some given ∧ given ≠ .yield ∧
        p.takeWithdraw h.sender.toNat t given winner.toNat (positionsOf mask) = p.withdrawGivenUp h.sender.toNat t := by
      have taken given := Part.takeWithdraw_running h.sender.toNat winner.toNat given (positionsOf mask) running record
      rcases code with rfl | rfl | rfl
      · exact ⟨.abandoned, rfl, nofun, taken .abandoned⟩
      · exact ⟨.halt, rfl, nofun, taken .halt⟩
      · exact ⟨.dropped, rfl, nofun, taken .dropped⟩
    have answers {q : Part} := withdraw_answers (q := q) w t mask peer named (.inr ⟨other, absent⟩)
    refine ⟨fun n e rival since due entry state => ⟨fun same room fresh => answers ?_, fun elsewhere => answers ?_⟩,
      fun n e entry announced => answers ?_, fun o free outside => ⟨fun same => ?_, fun elsewhere => answers ?_⟩⟩
    · rw [rule, Part.withdrawGivenUp_entry entry, if_pos ((ClaimEntry.yieldedTo_yielded state _).2 same),
        Part.contend_queued (Part.claimOf?_row entries entry) room ((Part.claimOf?_stripe entry) ▸ fresh),
        Part.claimOf?_stripe entry]
    · rw [rule, Part.withdrawGivenUp_entry entry, if_neg fun yielded => elsewhere ((ClaimEntry.yieldedTo_yielded state _).1 yielded)]
    · rw [rule, Part.withdrawGivenUp_entry entry,
        if_neg (Bool.eq_false_iff.1 (ClaimEntry.announced_not_yielded announced _))]
    · refine withdraw_answersWithImages w t mask peer named (.inr ⟨other, absent⟩) ?_
      rw [rule, Part.withdrawGivenUp_outside free record outside, if_pos same]
      exact Part.setOutside_imaged t none rising
    · rw [rule, Part.withdrawGivenUp_outside free record outside, if_neg elsewhere]
  · subst code
    have given : WithdrawReason.ofCode? 2 = some .yield := rfl
    have answers {q : Part} := withdraw_answers (q := q) w t mask peer given (.inl named)
    have rule := Part.takeWithdraw_running h.sender.toNat winner.toNat .yield (positionsOf mask) running record
    dsimp only at rule
    refine ⟨fun unnamed => answers (rule.trans (if_pos ?_)), fun differs member => ?_⟩
    · rcases unnamed with stranger | rfl
      · simp [stranger]
      · simp
    obtain ⟨q, member⟩ := member
    have allowed : p.takeWithdraw h.sender.toNat t .yield winner.toNat (positionsOf mask)
        = p.withdrawYield h.sender.toNat t winner.toNat :=
      rule.trans (if_neg (by simpa [member] using fun same => differs (BitVec.eq_of_toNat_eq same)))
    refine ⟨fun n e rival since due entry state => ⟨fun same => ⟨fun other stands => answers ?_, fun back room fresh =>
        answers ?_⟩, fun elsewhere => answers ?_⟩, fun n e entry announced => answers ?_,
      fun free => ⟨fun o outside same => ?_, fun elsewhere => answers ?_⟩⟩
    · rw [allowed, Part.withdrawYield_yielded entry state, if_neg (not_not.2 same), if_neg (by simp [other, stands])]
      rfl
    · rw [allowed, Part.withdrawYield_yielded entry state, if_neg (not_not.2 same), if_pos back,
        Part.contend_queued (Part.claimOf?_row entries entry) room ((Part.claimOf?_stripe entry) ▸ fresh),
        Part.claimOf?_stripe entry]
    · rw [allowed, Part.withdrawYield_yielded entry state, if_pos elsewhere]
    · rw [allowed, Part.withdrawYield_announced entry announced]
    · refine withdraw_answersWithImages w t mask peer given (.inl named) ?_
      rw [allowed, Part.withdrawYield_outside free record outside, if_pos same]
      exact Part.setOutside_imaged t _ rising
    · rw [allowed, Part.withdrawYield_elsewhere free record elsewhere]

end Sys2Proof.Machine

/-! The loss-changed event, and the visits of a pass (R56, R58 to R61, R82). -/

namespace Sys2Proof.Machine

/-! ## The loss-changed event (R82) -/

/-- A loss-changed event takes place, and leaves the part r but for the images of changed records. -/
def Part.LossChangesInto (p : Part) (t : StripeId) (loss : Positions) (r : Part) : Prop :=
  ∃ q, p.lossChanged? t loss = some q ∧ p.Imaged q r

/-- The part without a claim entry. -/
theorem Part.removeClaim_eq (p : Part) (n : Nat) : p.removeClaim n =
    { p with clt := { entries := p.clt.entries.dropRow n, owned := p.clt.owned.filter (· != n) } } := rfl

theorem Part.withdrawPlain_queued {p : Part} {t : StripeId} (reason : WithdrawReason) (room : p.queueOpen)
    (fresh : p.claimWaits t = false) :
    p.withdrawPlain t reason = p.queued none (.withdraw t reason.code 0xFF 0) := by
  have fresh' : ∀ u, (FrameBody.withdraw t reason.code 0xFF 0).contestStripe? = some u → p.claimWaits u = false := by
    rintro _ ⟨⟩
    exact fresh
  exact Part.post_queueOpen none fresh' room

section
variable {p : Part} {t : StripeId} {loss : Positions} {n : Nat} {e : ClaimEntry}
  (entry : p.claimOf? t = some (n, e))
include entry

theorem Part.lossChanged?_full (many : p.parityOf t < loss.length) (full : p.reportPathFull = true) :
    p.lossChanged? t loss = none := by
  simp [Part.lossChanged?, entry, many, full]

variable (free : p.contextOf? t = none) (rising : p.hdt.rising = true) {removed : ClaimTable}
  (gone : removed = { entries := p.clt.entries.dropRow n, owned := p.clt.owned.filter (· != n) })

section
include free

theorem Part.lossChanged?_many (many : p.parityOf t < loss.length) (room : p.reportPathFull = false) :
    p.lossChanged? t loss = some ((((if e.announced then p.withdrawPlain t .unrecoverable else p).removeClaim
      n).setStanding t loss .unrecoverable).postReport (.unrecoverable t loss)) := by
  simp only [Part.lossChanged?, entry, many, room, Part.endContextOf_none free, if_true, Bool.false_eq_true, if_false]

theorem Part.lossChanged?_noLoss : p.lossChanged? t [] =
    some (((if e.announced then p.withdrawPlain t .returned else p).removeClaim n).setStanding t [] .quiet) := by
  simp [Part.lossChanged?, entry, Part.endContextOf_none free]

include rising gone

/-- More losses than the parity count at an entry that was announced (R82). -/
theorem Part.lossChange_many_announced (many : p.parityOf t < loss.length) (room : p.reportPathFull = false)
    (announced : e.announced = true) (queue : p.queueOpen) (fresh : p.claimWaits t = false) :
    p.LossChangesInto t loss (Part.postReport (Part.queued
      { p with clt := removed, hdt := withStanding p.hdt t loss .unrecoverable }
      none (.withdraw t 0x07 0xFF 0)) (.unrecoverable t loss)) := by
  refine ⟨_, Part.lossChanged?_many entry free many room, ?_⟩
  rw [if_pos announced, Part.withdrawPlain_queued _ queue fresh, gone]
  have standing := Part.setStanding_imaged (p := p) (r := (p.queued none (.withdraw t 0x07 0xFF 0)).removeClaim n) t loss
    .unrecoverable rising rfl rfl rfl
  exact standing.then (besideRecords_postReport _)

theorem Part.lossChange_many_silent (many : p.parityOf t < loss.length) (room : p.reportPathFull = false)
    (silent : e.announced = false) : p.LossChangesInto t loss (Part.postReport
      { p with clt := removed, hdt := withStanding p.hdt t loss .unrecoverable } (.unrecoverable t loss)) := by
  refine ⟨_, Part.lossChanged?_many entry free many room, ?_⟩
  rw [if_neg (Bool.eq_false_iff.1 silent), gone]
  have standing := Part.setStanding_imaged (p := p) (r := p.removeClaim n) t loss .unrecoverable rising rfl rfl rfl
  exact standing.then (besideRecords_postReport _)

/-- No loss any more at an entry that was announced (R82). -/
theorem Part.lossChange_none_announced (noLoss : loss = []) (announced : e.announced = true) (queue : p.queueOpen)
    (fresh : p.claimWaits t = false) : p.LossChangesInto t loss (Part.queued
      { p with clt := removed, hdt := withStanding p.hdt t [] .quiet } none (.withdraw t 0x06 0xFF 0)) := by
  subst noLoss
  refine ⟨_, Part.lossChanged?_noLoss entry free, ?_⟩
  rw [if_pos announced, Part.withdrawPlain_queued _ queue fresh, gone]
  exact Part.setStanding_imaged t [] .quiet rising rfl rfl rfl

theorem Part.lossChange_none_silent (noLoss : loss = []) (silent : e.announced = false) : p.LossChangesInto t loss
    { p with clt := removed, hdt := withStanding p.hdt t [] .quiet } := by
  subst noLoss
  refine ⟨_, Part.lossChanged?_noLoss entry free, ?_⟩
  rw [if_neg (Bool.eq_false_iff.1 silent), gone]
  exact Part.setStanding_imaged t [] .quiet rising rfl rfl rfl

end

include free rising

/-- Another loss set of 1 to m positions becomes the entry's and the stripe's (R82). -/
theorem Part.lossChange_few (some_ : loss ≠ []) (few : loss.length ≤ p.parityOf t) : p.LossChangesInto t loss
    { p with
      clt := { p.clt with entries := p.clt.entries.setRow n { e with lost := loss } }
      hdt := p.hdt.map (changeStripe t fun h => { h with lost := loss }) } := by
  have imaged : p.Imaged ((p.setClaim n { e with lost := loss }).setLost t loss) _ :=
    Part.Imaged.updateStripe (r := p.setClaim n { e with lost := loss }) t _ rising rfl rfl rfl
  have context : ((p.setClaim n { e with lost := loss }).setLost t loss).contextOf? t = none :=
    (congrArg (fun q : Part => q.contextOf? t) imaged.same : _).trans free
  refine ⟨_, ?_, imaged⟩
  simp [Part.lossChanged?, entry, Nat.not_lt.2 few, some_, context]

end

/-! ## Visits (R56, R61) -/

theorem Part.moveCursor_eq (p : Part) : p.moveCursor = p.cursorMoved := by
  unfold Part.moveCursor Part.cursorMoved
  by_cases last : p.scn.cursor + 1 < 131072
  · rw [if_neg (show ¬ tablePositions ≤ p.scn.cursor + 1 from Nat.not_le.2 last), if_pos last]
  · rw [if_pos (show tablePositions ≤ p.scn.cursor + 1 from Nat.not_lt.1 last), if_neg last]
    rfl

theorem besideRecords_visited (t : StripeId) : BesideRecords fun q => q.visited t :=
  fun _ => ⟨fun _ => rfl, rfl, rfl⟩

theorem Part.visitDue_iff {p : Part} (running : p.hlk.phase = .running) : p.visitDue = true ↔
    p.scn.pass = .walking ∨ (p.scn.pass = .blocked ∧ p.scn.placeFreed = true) := by
  simp [Part.visitDue, running]

section
variable {p : Part} (w : List Instr) (running : p.hlk.phase = .running)
include running

theorem scanVisit_notDue (not : ¬ (p.scn.pass = .walking ∨ (p.scn.pass = .blocked ∧ p.scn.placeFreed = true))) :
    Answers .scanVisit ⟨w, p⟩ p :=
  answers_of_effect (f := fun p => if p.visitDue then p.visit else p) rfl
    (congrArg Part.unmarked (if_neg fun due => not ((Part.visitDue_iff running).1 due)))

variable (due : p.scn.pass = .walking ∨ (p.scn.pass = .blocked ∧ p.scn.placeFreed = true))
include due

theorem scanVisit_visits {q : Part} (visit : p.visit = q) : Answers .scanVisit ⟨w, p⟩ q :=
  answers_of_effect (f := fun p => if p.visitDue then p.visit else p) rfl
    (congrArg Part.unmarked ((if_pos ((Part.visitDue_iff running).2 due)).trans visit))

variable {r : HoldingRecord} (row : p.hdt.row? p.scn.cursor = some r) (unmet : r.stripe ∉ p.scn.met)
include row unmet

/-- The visit of a stripe whose evaluation completes: it is met, and the cursor moves on (R56). -/
theorem scanVisit_evaluates {q x : Part} (evaluated : p.evaluate? r.stripe = some q) (imaged : p.Imaged q x) :
    AnswersWithImages .scanVisit ⟨w, p⟩ (x.visited r.stripe) := by
  have visit : p.visit = q.visited r.stripe := by
    simp only [Part.visit, row, List.contains_eq_mem, unmet, decide_false, Bool.false_eq_true, if_false, evaluated]
    exact Part.moveCursor_eq _
  refine answersWithImages_of_runImaged (f := fun p => if p.visitDue then p.visit else p) rfl ?_
  have effect : (if p.visitDue = true then p.visit else p) = q.visited r.stripe :=
    (if_pos ((Part.visitDue_iff running).2 due)).trans visit
  have after := imaged.then (besideRecords_visited r.stripe)
  rw [effect]
  exact after

theorem scanVisit_blocks (full : p.evaluate? r.stripe = none) : Answers .scanVisit ⟨w, p⟩ p.blocked := by
  refine scanVisit_visits w running due ?_
  simp only [Part.visit, row, List.contains_eq_mem, unmet, decide_false, Bool.false_eq_true, if_false, full]
  rfl

end

theorem Part.not_rivalStands_iff (p : Part) (outside : Option HeardClaim) : ¬ p.rivalStands outside ↔
    ∀ o, outside = some o →
      o.heard + 3 * p.claimRepeat < p.now ∨ o.station = p.own ∨ p.gone o.station = true := by
  simp only [Part.rivalStands, Part.staleClaim, not_exists, not_and_or, decide_eq_false_iff_not, not_not,
    Bool.not_eq_false, imp_iff_not_or, ne_eq]

theorem Part.evaluate?_claiming {p : Part} {t : StripeId} {r : HoldingRecord} (running : p.hlk.phase = .running)
    (record : p.firstRecord? t = some r) (standing : r.standing = .claiming) :
    p.evaluate? t = if p.lossSet t = r.lost then some p else p.lossChanged? t (p.lossSet t) := by
  simp only [Part.evaluate?_eq running record, standing]

/-- Settles O29. -/
theorem scanVisits : Obligations.ScanVisits := by
  intro w p running
  refine ⟨fun blocked untold => scanVisit_notDue w running (by simp [blocked, untold]), fun due => ⟨fun passed => ?_, ?_⟩⟩
  · refine scanVisit_visits w running due ((?_ : p.visit = p.moveCursor).trans p.moveCursor_eq)
    rcases passed with empty | ⟨r, row, met⟩
    · simp only [Part.visit, empty]
    · simp only [Part.visit, row, List.contains_eq_mem, met, decide_true, if_true]
  rintro r r0 _ _ _ _ _ row rfl unmet record rfl rfl rising rfl rfl
  have met {x : Part} : p.EvaluatesTo r.stripe x → AnswersWithImages .scanVisit ⟨w, p⟩ (x.visited r.stripe) :=
    fun ⟨q, evaluated, imaged⟩ => scanVisit_evaluates w running due row unmet evaluated imaged
  have stays := scanVisit_blocks w running due row unmet
  refine ⟨fun some_ few taken => ?_, fun many standing => ⟨fun room => ?_, fun full => ?_⟩, fun standing noLoss => ?_,
    fun standing => ⟨fun noLoss => ?_, fun many => ?_⟩,
    fun standing => ⟨fun noLoss => ?_, fun some_ few => ?_, fun many => ⟨fun room => ?_, fun full => ?_⟩⟩,
    fun standing => ⟨fun noLoss => ?_, fun o some_ few outside fresh other here => ?_⟩, fun standing => ⟨fun same => ?_, ?_⟩⟩
  · simp only [← Part.not_rivalStands_iff] at taken
    exact ⟨fun room => met (Part.evaluate_few_room running record rising some_ few taken room),
      fun full => stays (Part.evaluate?_few_full running record some_ few taken full)⟩
  · exact met (Part.evaluate_idle_many running record rising many standing room)
  · exact stays (Part.evaluate?_many_full running record many (standing.imp_right .inr) full)
  · exact met (Part.evaluate_quiet_noLoss running record noLoss standing)
  · exact met (Part.evaluate_unrecoverable_noLoss running record rising noLoss standing)
  · exact met (Part.evaluate_unrecoverable_many running record rising many standing)
  · exact met (Part.evaluate_queued_noLoss running record rising noLoss standing)
  · exact met (Part.evaluate_queued_few running record rising some_ few standing)
  · exact met (Part.evaluate_queued_many running record rising many standing room)
  · exact stays (Part.evaluate?_many_full running record many (.inr (.inl standing)) full)
  · exact met (Part.evaluate_parked_noLoss running record rising noLoss standing)
  · exact met (Part.evaluate_parked_few running record rising some_ few standing
      ⟨o, outside, decide_eq_false (Nat.not_lt.2 fresh), other, here⟩)
  · exact met ⟨p, (Part.evaluate?_claiming running record standing).trans (if_pos same), .of_same rfl rfl⟩
  · intro n e removed changed entry free queue fresh gone
    have evaluation := (Part.evaluate?_claiming running record standing).trans (if_neg changed)
    have changes {x : Part} : p.LossChangesInto r.stripe (p.lossSet r.stripe) x →
        AnswersWithImages .scanVisit ⟨w, p⟩ (x.visited r.stripe) :=
      fun ⟨q, changed, imaged⟩ => met ⟨q, evaluation.trans changed, imaged⟩
    refine ⟨fun many => ⟨fun full => stays (evaluation.trans (Part.lossChanged?_full entry many full)),
        fun room => ⟨fun announced => changes ?_, fun silent => changes ?_⟩⟩,
      fun noLoss => ⟨fun announced => changes ?_, fun silent => changes ?_⟩, fun some_ few => changes ?_⟩
    · exact Part.lossChange_many_announced entry free rising gone many room announced queue fresh
    · exact Part.lossChange_many_silent entry free rising gone many room silent
    · exact Part.lossChange_none_announced entry free rising gone noLoss announced queue fresh
    · exact Part.lossChange_none_silent entry free rising gone noLoss silent
    · exact Part.lossChange_few entry free rising some_ few

end Sys2Proof.Machine

/-! A WITHDRAW that reports a rebuilt position or a judgement: changes of records in two steps (R10, R15, R77, R78, R81,
R82). -/

namespace Sys2Proof.Machine

/-! ## The records of a stripe under a change of its stripe-level fields -/

section
variable {t : StripeId} {f : HoldingRecord → HoldingRecord}

theorem findRow?_changeStripe (hdt : Table HoldingRecord) (test : HoldingRecord → Bool)
    (same : ∀ r, r.stripe = t → test (f r) = test r) :
    Table.findRow? (hdt.map (changeStripe t f)) test = (hdt.findRow? test).map (changeStripe t f) := by
  have each (r : Nat × HoldingRecord) : test (changeStripe t f r).2 = test r.2 := by
    unfold changeStripe
    split
    next member => exact same _ member
    next => rfl
  induction hdt with
  | nil => rfl
  | cons r rest ih =>
    simp only [Table.findRow?, List.map_cons, List.find?_cons, each] at ih ⊢
    cases test r.2
    · exact ih
    · rfl

variable (p : Part) (table : Table HoldingRecord) (changed : table = p.hdt.map (changeStripe t f))
include changed

theorem Part.firstRecord?_changed (stripe : ∀ r, (f r).stripe = r.stripe) :
    { p with hdt := table }.firstRecord? t = (p.firstRecord? t).map f := by
  subst changed
  have found := findRow?_changeStripe (t := t) (f := f) p.hdt (fun r => r.stripe == t) fun r _ => by rw [stripe]
  refine (congrArg (Option.map Prod.snd) found).trans ?_
  rw [Part.firstRecord?]
  cases row : p.hdt.findRow? fun r => r.stripe == t with
  | none => rfl
  | some r =>
    have member : r.2.stripe = t := beq_iff_eq.1 (List.find?_some (p := fun r : Nat × HoldingRecord => r.2.stripe == t) row)
    simp [changeStripe, member]

theorem Part.holds_changed (stripe : ∀ r, (f r).stripe = r.stripe) (index : ∀ r, (f r).ownIndex = r.ownIndex)
    (i : Nat) : { p with hdt := table }.holds t i = p.holds t i := by
  subst changed
  have found := findRow?_changeStripe (t := t) (f := f) p.hdt (fun r => r.stripe == t && r.ownIndex == i)
    fun r _ => by rw [stripe, index]
  refine (congrArg Option.isSome found).trans ?_
  rw [Option.isSome_map]
  rfl

theorem Part.geometryOf?_changed (stripe : ∀ r, (f r).stripe = r.stripe) (geometry : ∀ r, (f r).geometry = r.geometry) :
    { p with hdt := table }.geometryOf? t = p.geometryOf? t := by
  rw [Part.geometryOf?, Part.geometryOf?, p.firstRecord?_changed table changed stripe, Option.bind_map]
  congr 1
  funext r
  exact congrArg p.geometry? (geometry r)

end

/-! ## The placement update of a WITHDRAW(DONE) (R15) -/

/-- The placement with the station in the entries of the rebuilt positions that are below n and not held here. -/
def Part.placedAt (p : Part) (t : StripeId) (width station : Nat) (rebuilt : Positions) (placement : List Nat) : List Nat :=
  rebuilt.foldl (fun l i => if i < width ∧ p.holds t i = false then l.set i station else l) placement

/-- Entries set to one station: what an entry has been set to, later settings leave. -/
theorem Part.placedAt_entry (p : Part) (t : StripeId) (width station : Nat) (rebuilt : Positions) (l : List Nat)
    (i : Nat) : (p.placedAt t width station rebuilt l)[i]? = l[i]?
      ∨ (p.placedAt t width station rebuilt l)[i]? = some station := by
  induction rebuilt generalizing l with
  | nil => exact .inl rfl
  | cons j rest ih =>
    by_cases here : j < width ∧ p.holds t j = false
    · rcases ih (l.set j station) with same | set
      · have entry : (l.set j station)[i]? = l[i]? ∨ (l.set j station)[i]? = some station := by
          rw [List.getElem?_set]
          by_cases at_ : j = i
          · by_cases inside : j < l.length
            · simp [at_, at_ ▸ inside]
            · have beyond : l.length ≤ i := at_ ▸ Nat.not_lt.1 inside
              exact .inl (by simp [at_, beyond])
          · simp [at_]
        rw [Part.placedAt, List.foldl_cons, if_pos here]
        exact entry.imp same.trans same.trans
      · rw [Part.placedAt, List.foldl_cons, if_pos here]
        exact .inr set
    · rw [Part.placedAt, List.foldl_cons, if_neg here]
      exact ih l

theorem Part.placedAt_stable {p : Part} {t : StripeId} {width station : Nat} {rebuilt : Positions} {l : List Nat}
    {j : Nat} (back : (p.placedAt t width station rebuilt l).set j station = l) :
    p.placedAt t width station rebuilt l = l := by
  refine List.ext_getElem? fun i => ?_
  rcases p.placedAt_entry t width station rebuilt l i with same | set
  · exact same
  · rw [set, ← back, List.getElem?_set]
    have inside : i < (p.placedAt t width station rebuilt l).length := (List.getElem?_eq_some_iff.1 set).1
    by_cases at_ : j = i
    · simp [at_, inside]
    · simp [at_, set]

/-- The placement update changes the placement of the stripe's records, and their images follow (R10, R15). -/
theorem Part.placementUpdate_imaged {p : Part} {t : StripeId} {g : Geometry} (station : Nat) (rebuilt : Positions)
    (geometry : p.geometryOf? t = some g) (rising : p.hdt.rising = true) :
    p.Imaged (p.placementUpdate station t rebuilt)
      { p with hdt := p.hdt.map (changeStripe t fun x =>
          { x with placement := p.placedAt t g.width station rebuilt x.placement }) } := by
  induction rebuilt using List.reverseRecOn with
  | nil =>
    have same : p.hdt.map (changeStripe t fun x => { x with placement := p.placedAt t g.width station [] x.placement })
        = p.hdt := by
      refine (List.map_congr_left fun r _ => ?_).trans (List.map_id _)
      unfold changeStripe
      split <;> rfl
    rw [same]
    exact .of_same rfl rfl
  | append_singleton before i ih =>
    have table : (p.placementUpdate station t before).hdt = p.hdt.map (changeStripe t fun x =>
        { x with placement := p.placedAt t g.width station before x.placement }) := (congrArg Part.hdt ih.same :)
    have same : (p.placementUpdate station t before).setDram p.smc.dram
        = { p with hdt := (p.placementUpdate station t before).hdt } := by rw [ih.same, table]
    have geometry' : (p.placementUpdate station t before).geometryOf? t = some g :=
      (congrArg (fun q : Part => q.geometryOf? t) same).trans
        ((p.geometryOf?_changed _ table (fun _ => rfl) fun _ => rfl).trans geometry)
    have held : (p.placementUpdate station t before).holds t i = p.holds t i :=
      (congrArg (fun q : Part => q.holds t i) same).trans
        (p.holds_changed _ table (fun _ => rfl) (fun _ => rfl) i)
    have step : p.placementUpdate station t (before ++ [i]) =
        if i < g.width ∧ p.holds t i = false then (p.placementUpdate station t before).setPlacement t i station
        else p.placementUpdate station t before := by
      rw [Part.placementUpdate, List.foldl_append]
      change (if _ then _ else _) = _
      rw [← Part.placementUpdate, geometry', held]
      by_cases here : i < g.width ∧ p.holds t i = false
      · rw [if_pos here, if_neg (by simp [here])]
      · rw [if_neg here, if_pos (by simpa [or_iff_not_imp_left] using here)]
    have placed (l : List Nat) : p.placedAt t g.width station (before ++ [i]) l =
        if i < g.width ∧ p.holds t i = false then (p.placedAt t g.width station before l).set i station
        else p.placedAt t g.width station before l := by
      rw [Part.placedAt, List.foldl_append]
      rfl
    rw [step]
    simp only [placed]
    by_cases here : i < g.width ∧ p.holds t i = false
    · simp only [if_pos here]
      refine ih.updateStripe_again (g := fun x => { x with placement := x.placement.set i station }) rising rfl
        (fun _ => rfl) fun x back => ?_
      have entries : (p.placedAt t g.width station before x.placement).set i station = x.placement :=
        congrArg HoldingRecord.placement back
      exact congrArg (fun l => { x with placement := l }) (Part.placedAt_stable entries)
    · simp only [if_neg here]
      exact ih

/-! ## Changes that leave the placements, after an update of the placements (R10) -/

/-- The placement of a position of the table. -/
def Part.placements (p : Part) (n : Nat) : Option (List Nat) := (p.hdt.row? n).map HoldingRecord.placement

/-- The part q is the part a but for the images of records changed from p on, and changes of q that leave the placements
carry these images on. -/
structure Part.ImagedBase (p q a : Part) : Prop where
  same : q.setDram p.smc.dram = a
  follow : ∀ x r, q.Imaged x r → (∀ n, r.placements n = q.placements n) → p.Imaged x (r.setDram p.smc.dram)

theorem Part.ImagedBase.of_self (p : Part) : p.ImagedBase p p :=
  ⟨rfl, fun _ _ imaged _ => ⟨(congrArg (fun y : Part => y.setDram p.smc.dram) imaged.same :), imaged.images⟩⟩

/-- The placement update is such a base: a later change of other fields does not bring a record back. -/
theorem Part.placementUpdate_base {p a : Part} {t : StripeId} {g : Geometry} {station : Nat} {rebuilt : Positions}
    (geometry : p.geometryOf? t = some g) (rising : p.hdt.rising = true)
    (updated : a = { p with hdt := p.hdt.map (changeStripe t fun x =>
        { x with placement := p.placedAt t g.width station rebuilt x.placement }) }) :
    p.ImagedBase (p.placementUpdate station t rebuilt) a := by
  have first := Part.placementUpdate_imaged station rebuilt geometry rising
  have table : (p.placementUpdate station t rebuilt).hdt = p.hdt.map (changeStripe t fun x =>
      { x with placement := p.placedAt t g.width station rebuilt x.placement }) := (congrArg Part.hdt first.same :)
  have now : (p.placementUpdate station t rebuilt).now = p.now := (congrArg Part.now first.same :)
  refine ⟨first.same.trans updated.symm, fun x r second placements =>
    ⟨(congrArg (fun y : Part => y.setDram p.smc.dram) second.same :),
      Part.imagesFollow_trans first.images second.images now fun n back => ?_⟩⟩
  have later : x.hdt = r.hdt := (congrArg Part.hdt second.same :)
  have kept := placements n
  rw [Part.placements, Part.placements, ← later, ← back, table, row?_changeStripe] at kept
  rw [← back, table, row?_changeStripe]
  cases row : p.hdt.row? n with
  | none => rfl
  | some record =>
    rw [row] at kept
    by_cases member : record.stripe = t
    · simp only [Option.map_some, if_pos member, Option.some.injEq] at kept ⊢
      exact (congrArg (fun l => { record with placement := l }) kept.symm)
    · rw [Option.map_some, if_neg member]

/-! ## Evaluation and loss changes on such a base -/

section
variable {p q a : Part} {t : StripeId}

theorem Part.placements_change {r : Part} {f : HoldingRecord → HoldingRecord}
    (changed : r.hdt = q.hdt.map (changeStripe t f)) (placement : ∀ x, (f x).placement = x.placement) (n : Nat) :
    r.placements n = q.placements n := by
  rw [Part.placements, Part.placements, changed, row?_changeStripe, Option.map_map]
  congr 1
  funext x
  simp only [Function.comp_apply]
  split
  · exact placement x
  · rfl

theorem Part.placements_withStanding {r : Part} {lost : Positions} {standing : Standing}
    (changed : r.hdt = withStanding q.hdt t lost standing) (n : Nat) : r.placements n = q.placements n :=
  Part.placements_change changed (fun _ => rfl) n

theorem Part.postReport_table (x : Part) (r : Report) : (x.postReport r).hdt = x.hdt := (besideRecords_postReport r x).2.1

theorem Part.ImagedBase.setDram (base : p.ImagedBase q a) : q = a.setDram q.smc.dram := by
  rw [← base.same]
  rfl

theorem Part.ImagedBase.dram (base : p.ImagedBase q a) : a.smc.dram = p.smc.dram := by
  rw [← base.same]
  rfl

theorem Part.ImagedBase.imaged (base : p.ImagedBase q a) : p.Imaged q a :=
  base.same ▸ base.follow q q (.of_same rfl rfl) fun _ => rfl

theorem Part.ImagedBase.sweeps (base : p.ImagedBase q a) :
    p.Imaged q.requestSweep { a with scn := { a.scn with sweepRequest := true } } := by
  obtain ⟨d, rfl⟩ : ∃ d, q = a.setDram d := ⟨_, base.setDram⟩
  have follows := base.follow _ _ (.of_same rfl rfl : (a.setDram d).Imaged (a.setDram d).requestSweep _) fun _ => rfl
  rw [← base.dram] at follows
  exact follows

theorem Part.postReport_setDram (x : Part) (r : Report) (d : Dram) :
    (x.postReport r).setDram d = (x.setDram d).postReport r := (besideRecords_postReport r x).1 d

/-- Evaluation E of a stripe that is not CLAIMING, asked for by a WITHDRAW or a DONE outcome, ends as R57 to R61 state. -/
theorem Part.ImagedBase.evaluates (base : p.ImagedBase q a) (running : a.hlk.phase = .running)
    (rising : a.hdt.rising = true) {ends : Part → Prop} (into : ∀ r, p.Imaged (q.evaluateOrSweep t) r → ends r) :
    a.evaluatedTo t ends := by
  obtain ⟨d, rfl⟩ : ∃ d, q = a.setDram d := ⟨_, base.setDram⟩
  have ends_of {x y : Part} (evaluated : (a.setDram d).EvaluatesTo t x)
      (placements : ∀ n, x.placements n = (a.setDram d).placements n) (same : x.setDram a.smc.dram = y) : ends y := by
    obtain ⟨z, evaluation, imaged⟩ := evaluated
    have answer : (a.setDram d).evaluateOrSweep t = z := by rw [Part.evaluateOrSweep, evaluation]; rfl
    rw [← same, base.dram]
    exact into _ (answer.symm ▸ base.follow z x imaged placements)
  have sweeps (full : (a.setDram d).evaluate? t = none) : ends { a with scn := { a.scn with sweepRequest := true } } := by
    have answer : (a.setDram d).evaluateOrSweep t = (a.setDram d).requestSweep := by rw [Part.evaluateOrSweep, full]; rfl
    exact into _ (answer.symm ▸ base.sweeps)
  rintro r loss record rfl
  replace record : (a.setDram d).firstRecord? t = some r := record
  replace running : (a.setDram d).hlk.phase = .running := running
  replace rising : (a.setDram d).hdt.rising = true := rising
  have reported (x : Part) (r : Report) := Part.postReport_setDram x r a.smc.dram
  refine ⟨fun noLoss => ⟨fun standing => ?_, fun standing => ?_, fun standing => ?_, fun standing => ?_⟩,
    fun some_ few => ⟨fun standing => ?_, fun standing stands => ?_, fun taken => ⟨fun room => ?_, fun noRoom => ?_⟩⟩,
    fun many => ⟨fun standing => ?_, fun room => ⟨fun standing => ?_, fun standing => ?_⟩, fun noRoom standing => ?_⟩⟩
  · exact ends_of (Part.evaluate_quiet_noLoss running record noLoss standing) (fun _ => rfl) rfl
  · exact ends_of (Part.evaluate_unrecoverable_noLoss running record rising noLoss standing)
      (Part.placements_withStanding rfl) rfl
  · exact ends_of (Part.evaluate_queued_noLoss running record rising noLoss standing)
      (Part.placements_withStanding rfl) rfl
  · exact ends_of (Part.evaluate_parked_noLoss running record rising noLoss standing)
      (Part.placements_change rfl fun _ => rfl) rfl
  · exact ends_of (Part.evaluate_queued_few running record rising some_ few standing)
      (Part.placements_withStanding rfl) rfl
  · exact ends_of (Part.evaluate_parked_few running record rising some_ few standing stands)
      (Part.placements_withStanding rfl) rfl
  · exact ends_of (Part.evaluate_few_room running record rising some_ few taken room)
      (Part.placements_withStanding rfl) rfl
  · exact sweeps (Part.evaluate?_few_full running record some_ few taken noRoom)
  · exact ends_of (Part.evaluate_unrecoverable_many running record rising many standing)
      (Part.placements_withStanding rfl) rfl
  · exact ends_of (Part.evaluate_idle_many running record rising many standing room)
      (Part.placements_withStanding (Part.postReport_table _ _)) (reported _ _)
  · exact ends_of (Part.evaluate_queued_many running record rising many standing room)
      (Part.placements_withStanding (Part.postReport_table _ _)) (reported _ _)
  · exact sweeps (Part.evaluate?_many_full running record many standing noRoom)

/-- A loss-changed event of a WITHDRAW at the claim entry of a stripe without context ends as R82 states. -/
theorem Part.ImagedBase.lossChanges (base : p.ImagedBase q a) {n : Nat} {e : ClaimEntry} {loss : Positions}
    (entry : a.claimOf? t = some (n, e)) (free : a.contextOf? t = none) (rising : a.hdt.rising = true)
    {ends : Part → Prop} (into : ∀ r, p.Imaged (q.lossChangedOrSweep t loss) r → ends r) :
    a.lossChangesTo t n e loss ends := by
  obtain ⟨d, rfl⟩ : ∃ d, q = a.setDram d := ⟨_, base.setDram⟩
  have ends_of {x y : Part} (changes : (a.setDram d).LossChangesInto t loss x)
      (placements : ∀ n, x.placements n = (a.setDram d).placements n) (same : x.setDram a.smc.dram = y) : ends y := by
    obtain ⟨z, changed, imaged⟩ := changes
    have answer : (a.setDram d).lossChangedOrSweep t loss = z := by rw [Part.lossChangedOrSweep, changed]; rfl
    rw [← same, base.dram]
    exact into _ (answer.symm ▸ base.follow z x imaged placements)
  have sweeps (full : (a.setDram d).lossChanged? t loss = none) :
      ends { a with scn := { a.scn with sweepRequest := true } } := by
    have answer : (a.setDram d).lossChangedOrSweep t loss = (a.setDram d).requestSweep := by
      rw [Part.lossChangedOrSweep, full]; rfl
    exact into _ (answer.symm ▸ base.sweeps)
  replace entry : (a.setDram d).claimOf? t = some (n, e) := entry
  replace free : (a.setDram d).contextOf? t = none := free
  replace rising : (a.setDram d).hdt.rising = true := rising
  have reported (x : Part) (r : Report) := Part.postReport_setDram x r a.smc.dram
  refine fun removed gone => ⟨fun many => ⟨fun noRoom => sweeps (Part.lossChanged?_full entry many noRoom),
    fun room => ⟨fun announced queue fresh => ?_, fun silent => ?_⟩⟩, fun noLoss => ⟨fun announced queue fresh => ?_,
      fun silent => ?_⟩, fun some_ few => ?_⟩
  · exact ends_of (Part.lossChange_many_announced entry free rising gone many room announced queue fresh)
      (Part.placements_withStanding (Part.postReport_table _ _)) (reported _ _)
  · exact ends_of (Part.lossChange_many_silent entry free rising gone many room silent)
      (Part.placements_withStanding (Part.postReport_table _ _)) (reported _ _)
  · exact ends_of (Part.lossChange_none_announced entry free rising gone noLoss announced queue fresh)
      (Part.placements_withStanding rfl) rfl
  · exact ends_of (Part.lossChange_none_silent entry free rising gone noLoss silent)
      (Part.placements_withStanding rfl) rfl
  · exact ends_of (Part.lossChange_few entry free rising some_ few)
      (Part.placements_change rfl fun _ => rfl) rfl

end

/-! ## The rules for the reasons DONE, RETURNED and UNRECOVERABLE (R78, R81) -/

theorem Table.setRow_setRow {α : Type} (table : Table α) (n : Nat) (x y : α) :
    (table.setRow n x).setRow n y = table.setRow n y := by
  induction table with
  | nil => simp [Table.setRow]
  | cons r rest ih =>
    obtain ⟨i, z⟩ := r
    rcases Nat.lt_trichotomy n i with less | rfl | more
    · simp [Table.setRow, less]
    · simp [Table.setRow]
    · simp [Table.setRow, Nat.not_lt.2 (Nat.le_of_lt more), Nat.ne_of_lt more, ih]

theorem Part.setLost_imaged {p r : Part} (t : StripeId) (lost : Positions) (rising : p.hdt.rising = true)
    (hdt : r.hdt = p.hdt) (dram : r.smc.dram = p.smc.dram) (now : r.now = p.now) : p.Imaged (r.setLost t lost)
      { r with hdt := p.hdt.map (changeStripe t fun h => { h with lost := lost }) } :=
  Part.Imaged.updateStripe t _ rising hdt dram now

/-- An entry back in CONTENDING with a new lost set, which becomes the stripe's too (R78, R81). -/
theorem Part.ImagedBase.contendWith {p q a : Part} {t : StripeId} (base : p.ImagedBase q a) {n : Nat} {e : ClaimEntry}
    (loss : Positions) (stripe : e.stripe = t) (rising : a.hdt.rising = true) (room : a.queueOpen)
    (fresh : a.claimWaits t = false) : p.Imaged (q.contendWith n e loss) (Part.queued
      { a with
        clt := { a.clt with
          entries := a.clt.entries.setRow n { e with lost := loss, state := .contending (a.now + a.claimHoldOff) } }
        hdt := a.hdt.map (changeStripe t fun x => { x with lost := loss }) }
      none (.claim t e.rank 0x00 (maskOf loss))) := by
  obtain ⟨d, rfl⟩ : ∃ d, q = a.setDram d := ⟨_, base.setDram⟩
  subst stripe
  have imaged := Part.setLost_imaged (p := a.setDram d) (r := (a.setDram d).setClaim n { e with lost := loss }) e.stripe
    loss rising rfl rfl rfl
  generalize written : ((a.setDram d).setClaim n { e with lost := loss }).setLost e.stripe loss = x at imaged
  have clt : x.clt = { a.clt with entries := a.clt.entries.setRow n { e with lost := loss } } :=
    (congrArg Part.clt imaged.same :)
  have sgp : x.sgp = a.sgp := (congrArg Part.sgp imaged.same :)
  have now : x.now = a.now := (congrArg Part.now imaged.same :)
  have config : x.config = a.config := (congrArg Part.config imaged.same :)
  have holdOff : x.claimHoldOff = a.claimHoldOff := Part.setting_congr config _
  have row : x.clt.entries.row? n = some { e with lost := loss } := by rw [clt]; exact Table.row?_setRow_self _ _ _
  have room' : x.queueOpen := by rwa [Part.queueOpen, Part.controlPlace, sgp]
  have fresh' : x.claimWaits e.stripe = false := by rwa [Part.claimWaits, sgp]
  have posts : BesideRecords fun y : Part => Part.queued
      { y with
        clt := { a.clt with
          entries := a.clt.entries.setRow n { e with lost := loss, state := .contending (a.now + a.claimHoldOff) } } }
      none (.claim e.stripe e.rank 0x00 (maskOf loss)) := fun _ => ⟨fun _ => rfl, rfl, rfl⟩
  have contends : (a.setDram d).contendWith n e loss = Part.queued
      { x with
        clt := { a.clt with
          entries := a.clt.entries.setRow n { e with lost := loss, state := .contending (a.now + a.claimHoldOff) } } }
      none (.claim e.stripe e.rank 0x00 (maskOf loss)) := by
    have whole : (a.setDram d).contendWith n e loss = x.contend n := by rw [← written]; rfl
    rw [whole, Part.contend_queued row room' fresh', clt, now, holdOff, Table.setRow_setRow]
  rw [contends]
  have follows := base.follow _ _ (imaged.then posts) (Part.placements_change rfl fun _ => rfl)
  rw [← base.dram] at follows
  exact follows

/-- A WITHDRAW(DONE) at an entry that is YIELDED to its sender, with no loss left (R78). -/
theorem Part.ImagedBase.restores {p q a : Part} {t : StripeId} (base : p.ImagedBase q a) (n : Nat)
    (rising : a.hdt.rising = true) : p.Imaged ((q.removeClaim n).setStanding t [] .quiet)
      { a with
        clt := { entries := a.clt.entries.dropRow n, owned := a.clt.owned.filter (· != n) }
        hdt := withStanding a.hdt t [] .quiet } := by
  obtain ⟨d, rfl⟩ : ∃ d, q = a.setDram d := ⟨_, base.setDram⟩
  have imaged := Part.setStanding_imaged (p := a.setDram d) (r := (a.setDram d).removeClaim n) t [] .quiet rising rfl rfl rfl
  have follows := base.follow _ _ imaged (Part.placements_withStanding rfl)
  rw [← base.dram] at follows
  exact follows

theorem ClaimEntry.not_announced_yielded {e : ClaimEntry} {rival : HeardClaim} {since due : Nat}
    (state : e.state = .yielded rival since due) : e.announced = false := by
  simp only [ClaimEntry.announced, state]

section
variable {p : Part} {t : StripeId} {station : Nat}

theorem Part.withdrawDone_free (free : p.claimOf? t = none) : p.withdrawDone station t = p.evaluateOrSweep t := by
  simp only [Part.withdrawDone, free]

theorem Part.withdrawJudged_free (free : p.claimOf? t = none) : p.withdrawJudged station t = p.evaluateOrSweep t := by
  simp only [Part.withdrawJudged, free]

variable {n : Nat} {e : ClaimEntry} (entry : p.claimOf? t = some (n, e))
include entry

theorem Part.withdrawDone_yielded (yielded : e.yieldedTo station = true) : p.withdrawDone station t =
    if p.lossSet t = [] then (p.removeClaim n).setStanding t [] .quiet
    else if p.parityOf t < (p.lossSet t).length then p.lossChangedOrSweep t (p.lossSet t)
    else p.contendWith n e (p.lossSet t) := by
  simp only [Part.withdrawDone, entry, yielded, if_true, List.isEmpty_iff]

theorem Part.withdrawDone_other (other : e.yieldedTo station = false) : p.withdrawDone station t =
    if p.lossSet t = e.lost then p else p.lossChangedOrSweep t (p.lossSet t) := by
  simp only [Part.withdrawDone, entry, other, Bool.false_eq_true, if_false, Part.lossChangedIfNew,
    Part.claimOf?_stripe entry]

theorem Part.withdrawJudged_entry : p.withdrawJudged station t =
    if p.lossSet t = [] ∨ p.parityOf t < (p.lossSet t).length then p.lossChangedOrSweep t (p.lossSet t)
    else if e.yieldedTo station = true then p.contendWith n e (p.lossSet t)
    else if p.lossSet t = e.lost then p else p.lossChangedOrSweep t (p.lossSet t) := by
  simp only [Part.withdrawJudged, entry, Bool.or_eq_true, List.isEmpty_iff, decide_eq_true_eq, Part.lossChangedIfNew,
    Part.claimOf?_stripe entry]

end

/-- Settles O35. -/
theorem withdrawalsReportAndJudge : Obligations.WithdrawalsReportAndJudge := by
  intro w p after h t mask r g peer record geometry rising updated
  have base : p.ImagedBase (p.placementUpdate h.sender.toNat t (positionsOf mask)) after :=
    Part.placementUpdate_base geometry rising updated
  generalize placed : p.placementUpdate h.sender.toNat t (positionsOf mask) = q at base
  have self := Part.ImagedBase.of_self p
  have given : WithdrawReason.ofCode? 0x01 = some .done := rfl
  have done {x : Part} := withdraw_answersWithImages (q := x) w t mask peer given (.inr ⟨nofun, rfl⟩)
  have rule (running : p.hlk.phase = .running) :
      p.takeWithdraw h.sender.toNat t .done (0xFF : Byte).toNat (positionsOf mask) = q.withdrawDone h.sender.toNat t := by
    rw [← placed]
    exact Part.takeWithdraw_running h.sender.toNat _ .done (positionsOf mask) running record
  have judges (running : p.hlk.phase = .running) {reason : Byte} (code : reason = 6 ∨ reason = 7) :
      ∃ given, WithdrawReason.ofCode? reason = some given ∧ given ≠ .yield ∧
        p.takeWithdraw h.sender.toNat t given (0xFF : Byte).toNat (positionsOf mask) = p.withdrawJudged h.sender.toNat t := by
    have taken given := Part.takeWithdraw_running h.sender.toNat (0xFF : Byte).toNat given (positionsOf mask) running record
    rcases code with rfl | rfl
    · exact ⟨.returned, rfl, nofun, taken .returned⟩
    · exact ⟨.unrecoverable, rfl, nofun, taken .unrecoverable⟩
  have judged (running : p.hlk.phase = .running) {reason : Byte} (code : reason = 6 ∨ reason = 7) {x : Part}
      (imaged : p.Imaged (p.withdrawJudged h.sender.toNat t) x) :
      AnswersWithImages (.withdraw h t reason 0xFF mask) ⟨w, p⟩ x := by
    obtain ⟨given, named, other, judges⟩ := judges running code
    exact withdraw_answersWithImages w t mask peer named (.inr ⟨other, rfl⟩) (judges ▸ imaged)
  have judgedAsIs (running : p.hlk.phase = .running) {reason : Byte} (code : reason = 6 ∨ reason = 7) {x : Part}
      (rest : p.withdrawJudged h.sender.toNat t = x) : Answers (.withdraw h t reason 0xFF mask) ⟨w, p⟩ x := by
    obtain ⟨given, named, other, judges⟩ := judges running code
    exact withdraw_answers w t mask peer named (.inr ⟨other, rfl⟩) (judges.trans rest)
  have claims {x} (entry : p.claimOf? t = x) : q.claimOf? t = x := by
    rw [base.setDram, updated]
    exact entry
  have losses : q.lossSet t = after.lossSet t := (congrArg (fun x : Part => x.lossSet t) base.same :)
  have geometry' : after.geometryOf? t = some g := by
    subst updated
    exact (p.geometryOf?_changed _ rfl (f := fun x =>
      { x with placement := p.placedAt t g.width h.sender.toNat (positionsOf mask) x.placement })
      (fun _ => rfl) fun _ => rfl).trans geometry
  have parity' : after.parityOf t = g.m := by rw [Part.parityOf, geometry']; rfl
  have parity : q.parityOf t = g.m := (congrArg (fun x : Part => x.parityOf t) base.same :).trans parity'
  have table : after.hdt.rising = true := updated ▸ rising_changeStripe t _ rising
  have context {x} (free : p.contextOf? t = x) : after.contextOf? t = x := updated ▸ free
  have entries {x} (entry : p.claimOf? t = x) : after.claimOf? t = x := updated ▸ entry
  have full {x} (path : p.reportPathFull = x) : after.reportPathFull = x := updated ▸ path
  have manyLost (running : p.hlk.phase = .running) (free : p.contextOf? t = none) {n since due : Nat} {e : ClaimEntry}
      {rival : HeardClaim} (entry : p.claimOf? t = some (n, e)) (state : e.state = .yielded rival since due)
      (same : rival.station = h.sender.toNat) (many : g.m < (after.lossSet t).length) :=
    base.lossChanges (entries entry) (context free) table (loss := after.lossSet t)
      (ends := AnswersWithImages (.withdraw h t 0x01 0xFF mask) ⟨w, p⟩) fun x imaged => done (by
        rw [rule running, Part.withdrawDone_yielded (claims entry) ((ClaimEntry.yieldedTo_yielded state _).2 same), losses,
          parity, if_neg (List.ne_nil_of_length_pos (Nat.zero_lt_of_lt many)), if_pos many]
        exact imaged)
  have changes (running : p.hlk.phase = .running) (free : p.contextOf? t = none) {n : Nat} {e : ClaimEntry}
      (entry : p.claimOf? t = some (n, e)) (other : e.yieldedTo h.sender.toNat = false)
      (changed : after.lossSet t ≠ e.lost) :=
    base.lossChanges (entries entry) (context free) table (loss := after.lossSet t)
      (ends := AnswersWithImages (.withdraw h t 0x01 0xFF mask) ⟨w, p⟩) fun x imaged => done (by
        rw [rule running, Part.withdrawDone_other (claims entry) other, losses, if_neg changed]
        exact imaged)
  refine ⟨fun halted => ?_, fun n e rival since due running entry state same standing => ⟨fun noLoss => ?_,
      fun some_ few room fresh => ?_, fun many free => ⟨fun room => ?_, fun noRoom => ?_⟩, fun reason code some_ few room
      fresh => ?_⟩,
    fun n e running entry other free => ⟨fun unchanged => ?_, fun changed some_ few => ?_,
      fun changed noLoss announced room fresh => ?_⟩,
    fun running free => ⟨?_, fun reason code => ?_⟩,
    fun n e running entry free => ⟨fun other changed => ?_, fun reason code => ⟨fun ends => ?_,
      fun other some_ few => ⟨fun unchanged => ?_, fun changed => ?_⟩⟩⟩⟩
  · refine done ?_
    have taken : p.takeWithdraw h.sender.toNat t .done (0xFF : Byte).toNat (positionsOf mask) = q := by
      simp [Part.takeWithdraw, record, halted, placed]
    exact taken ▸ base.imaged
  · refine done (rule running ▸ ?_)
    rw [Part.withdrawDone_yielded (claims entry) ((ClaimEntry.yieldedTo_yielded state _).2 same), losses, if_pos noLoss]
    subst updated
    exact base.restores n table
  · refine done (rule running ▸ ?_)
    rw [Part.withdrawDone_yielded (claims entry) ((ClaimEntry.yieldedTo_yielded state _).2 same), losses, parity,
      if_neg some_, if_neg (Nat.not_lt.2 few)]
    subst updated
    exact base.contendWith _ (Part.claimOf?_stripe entry) table room fresh
  · obtain ⟨more, -, -⟩ := manyLost running free entry state same many _ rfl
    obtain ⟨-, posts⟩ := more (parity'.symm ▸ many)
    obtain ⟨-, silent⟩ := posts (full room)
    subst updated
    exact silent (ClaimEntry.not_announced_yielded state)
  · obtain ⟨more, -, -⟩ := manyLost running free entry state same many _ rfl
    obtain ⟨waits, -⟩ := more (parity'.symm ▸ many)
    subst updated
    exact waits (full noRoom)
  · refine judged running code ?_
    rw [Part.withdrawJudged_entry entry, if_neg (by simp [some_, few]),
      if_pos ((ClaimEntry.yieldedTo_yielded state _).2 same)]
    exact self.contendWith _ (Part.claimOf?_stripe entry) rising room fresh
  · refine done (rule running ▸ ?_)
    rw [Part.withdrawDone_other (claims entry) other, losses, if_pos unchanged]
    exact base.imaged
  · obtain ⟨-, -, fewer⟩ := changes running free entry other changed _ rfl
    have becomes := fewer some_ (parity'.symm ▸ few)
    subst updated
    exact becomes
  · obtain ⟨-, ends, -⟩ := changes running free entry other changed _ rfl
    obtain ⟨withdraws, -⟩ := ends noLoss
    subst updated
    exact withdraws announced room fresh
  · exact base.evaluates (updated ▸ running) table fun x imaged => done (by
      rw [rule running, Part.withdrawDone_free (claims free)]
      exact imaged)
  · exact self.evaluates running rising fun x imaged => judged running code (by
      rw [Part.withdrawJudged_free free]
      exact imaged)
  · exact changes running free entry other changed
  · exact self.lossChanges entry free rising fun x imaged => judged running code (by
      rw [Part.withdrawJudged_entry entry, if_pos ends]
      exact imaged)
  · refine judgedAsIs running code ?_
    rw [Part.withdrawJudged_entry entry, if_neg (by simp [some_, few]), if_neg (by simp [other]), if_pos unchanged]
  · exact self.lossChanges entry free rising fun x imaged => judged running code (by
      rw [Part.withdrawJudged_entry entry, if_neg (by simp [some_, few]), if_neg (by simp [other]), if_neg changed]
      exact imaged)

end Sys2Proof.Machine

/-! The dequeue of the repair queue, with parking and the creation of a claim entry (R61, R63, R66 to R68, R83). -/

namespace Sys2Proof

/-! ## The lowest free number after a row is dropped -/

theorem Table.gapFrom_of_above {α : Type} {t : Table α} {j : Nat} (above : ∀ r ∈ t, j < r.1) : Table.gapFrom j t = j := by
  cases t with
  | nil => rfl
  | cons r rest => exact if_neg (Nat.ne_of_gt (above r List.mem_cons_self))

theorem Table.gapFrom_dropRow {α : Type} {t : Table α} {j n : Nat} (rising : t.rising = true) (first : j ≤ n)
    (taken : n < Table.gapFrom j t) : Table.gapFrom j (t.dropRow n) = n := by
  induction t generalizing j with
  | nil => exact absurd taken (Nat.not_lt.2 first)
  | cons r rest ih =>
    obtain ⟨i, a⟩ := r
    obtain ⟨above, rising⟩ := (Table.rising_cons i a rest).1 rising
    by_cases here : i = j
    · subst here
      rw [Table.gapFrom, if_pos rfl] at taken
      by_cases at_ : i = n
      · subst at_
        have dropped : Table.dropRow ((i, a) :: rest) i = Table.dropRow rest i := by simp [Table.dropRow]
        rw [dropped]
        exact Table.gapFrom_of_above fun r member => above r (List.mem_filter.1 member).1
      · have kept : Table.dropRow ((i, a) :: rest) n = (i, a) :: Table.dropRow rest n := by simp [Table.dropRow, at_]
        rw [kept, Table.gapFrom, if_pos rfl]
        exact ih rising (Nat.lt_of_le_of_ne first at_) taken
    · rw [Table.gapFrom, if_neg here] at taken
      omega

/-- In a table without a free number below a bound the number of a dropped row is the one that is free. -/
theorem Table.lowestFree?_dropRow {α : Type} {t : Table α} {bound n : Nat} (rising : t.rising = true)
    (full : t.lowestFree? bound = none) (below : n < bound) : (t.dropRow n).lowestFree? bound = some n := by
  have gap : bound ≤ Table.gapFrom 0 t := by
    unfold Table.lowestFree? at full
    split at full
    · cases full
    next past => exact Nat.not_lt.1 past
  rw [Table.lowestFree?, Table.gapFrom_dropRow rising (Nat.zero_le n) (Nat.lt_of_lt_of_le below gap), if_pos below]

namespace Machine

/-! ## The entry that is parked (R83) -/

/-- The choice between the entry found so far and the next one (R83). -/
def parkChoice (best : Option (Nat × ClaimEntry × HeardClaim × Nat)) (r : Nat × ClaimEntry) :
    Option (Nat × ClaimEntry × HeardClaim × Nat) :=
  match r.2.state with
  | .yielded rival since _ =>
    match best with
    | none => some (r.1, r.2, rival, since)
    | some (_, _, _, earliest) => if since < earliest then some (r.1, r.2, rival, since) else best
  | _ => best

theorem firstParked?_eq (entries : Table ClaimEntry) : firstParked? entries = entries.foldl parkChoice none := rfl

theorem parkChoice_announced {best : Option (Nat × ClaimEntry × HeardClaim × Nat)} {r : Nat × ClaimEntry}
    (announced : r.2.announced = true) : parkChoice best r = best := by
  unfold ClaimEntry.announced at announced
  unfold parkChoice
  cases state : r.2.state with
  | yielded => simp [state] at announced
  | contending | owned => rfl

theorem parkChoice_yielded (best : Option (Nat × ClaimEntry × HeardClaim × Nat)) {r : Nat × ClaimEntry}
    {rival : HeardClaim} {since due : Nat} (state : r.2.state = .yielded rival since due) :
    parkChoice best r = some (r.1, r.2, rival, since) ∨ parkChoice best r = best := by
  unfold parkChoice
  rw [state]
  cases best with
  | none => exact .inl rfl
  | some b =>
    dsimp only
    split
    · exact .inl rfl
    · exact .inr rfl

/-- An entry that yielded before the one found so far is chosen. -/
theorem parkChoice_earlier {best : Option (Nat × ClaimEntry × HeardClaim × Nat)} {r : Nat × ClaimEntry}
    {rival : HeardClaim} {since due : Nat} (state : r.2.state = .yielded rival since due)
    (later : ∀ n e other time, best = some (n, e, other, time) → since < time) :
    parkChoice best r = some (r.1, r.2, rival, since) := by
  unfold parkChoice
  rw [state]
  cases best with
  | none => rfl
  | some b => exact if_pos (later b.1 b.2.1 b.2.2.1 b.2.2.2 rfl)

theorem firstParked?_none {entries : Table ClaimEntry} (announced : ∀ r ∈ entries, r.2.announced = true) :
    firstParked? entries = none := by
  rw [firstParked?_eq]
  induction entries with
  | nil => rfl
  | cons r rest ih =>
    rw [List.foldl_cons, parkChoice_announced (announced r List.mem_cons_self)]
    exact ih fun s member => announced s (List.mem_cons_of_mem _ member)

/-- No entry found so far, or one that yielded after a moment. -/
def LaterThan (since : Nat) (best : Option (Nat × ClaimEntry × HeardClaim × Nat)) : Prop :=
  ∀ n e rival time, best = some (n, e, rival, time) → since < time

theorem foldl_parkChoice_later {since : Nat} (entries : Table ClaimEntry) {best : Option (Nat × ClaimEntry × HeardClaim × Nat)}
    (later : LaterThan since best)
    (all : ∀ r ∈ entries, ∀ rival time due, r.2.state = .yielded rival time due → since < time) :
    LaterThan since (entries.foldl parkChoice best) := by
  induction entries generalizing best with
  | nil => exact later
  | cons r rest ih =>
    refine ih ?_ fun s member => all s (List.mem_cons_of_mem _ member)
    cases state : r.2.state with
    | contending | owned =>
      rw [parkChoice_announced (by simp [ClaimEntry.announced, state])]
      exact later
    | yielded other moment due =>
      have after := all r List.mem_cons_self other moment due state
      rintro n e rival time chosen
      rcases parkChoice_yielded best state with first | same
      · obtain rfl : moment = time := by simpa using congrArg (Option.map fun x => x.2.2.2) (first.symm.trans chosen)
        exact after
      · exact later n e rival time (same.symm.trans chosen)

theorem foldl_parkChoice_keeps {n since : Nat} {e : ClaimEntry} {rival : HeardClaim} (entries : Table ClaimEntry)
    (all : ∀ r ∈ entries, ∀ rival time due, r.2.state = .yielded rival time due → since ≤ time) :
    entries.foldl parkChoice (some (n, e, rival, since)) = some (n, e, rival, since) := by
  induction entries with
  | nil => rfl
  | cons r rest ih =>
    have here : parkChoice (some (n, e, rival, since)) r = some (n, e, rival, since) := by
      unfold parkChoice
      cases state : r.2.state with
      | yielded other time due => exact if_neg (Nat.not_lt.2 (all r List.mem_cons_self other time due state))
      | contending | owned => rfl
    rw [List.foldl_cons, here]
    exact ih fun s member => all s (List.mem_cons_of_mem _ member)

theorem firstParked?_earliest {entries : Table ClaimEntry} {n since due : Nat} {e : ClaimEntry} {rival : HeardClaim}
    (rising : entries.rising = true) (row : entries.row? n = some e) (state : e.state = .yielded rival since due)
    (earliest : ∀ k f other time timer, entries.row? k = some f → f.state = .yielded other time timer →
      since < time ∨ (since = time ∧ n ≤ k)) : firstParked? entries = some (n, e, rival, since) := by
  obtain ⟨before, after, rfl⟩ := List.append_of_mem (Table.row?_mem row)
  have order := List.pairwise_append.1 (by simpa using (Table.rising_iff _).1 rising)
  obtain ⟨-, -, less⟩ := order
  have rowOf {r : Nat × ClaimEntry} (member : r ∈ before ++ (n, e) :: after) :
      Table.row? (before ++ (n, e) :: after) r.1 = some r.2 := Table.row?_of_mem rising member
  rw [firstParked?_eq, List.foldl_append, List.foldl_cons]
  have chosen := parkChoice_earlier (r := (n, e)) state
    (foldl_parkChoice_later before (best := none) (since := since) nofun fun r member other time timer yielded => by
      have number : r.1 < n := less r.1 (List.mem_map_of_mem member) n (by simp)
      rcases earliest r.1 r.2 other time timer (rowOf (List.mem_append_left _ member)) yielded with later | ⟨-, first⟩
      · exact later
      · omega)
  rw [chosen]
  refine foldl_parkChoice_keeps after fun r member other time timer yielded => ?_
  rcases earliest r.1 r.2 other time timer (rowOf (List.mem_append_right _ (List.mem_cons_of_mem _ member))) yielded with
    later | ⟨same, -⟩
  · exact Nat.le_of_lt later
  · exact Nat.le_of_eq same

/-! ## The head taken (R62, R63, R68) -/

theorem Part.leaveHead_eq {p : Part} {t : StripeId} {rest : List StripeId} (head : p.rq = t :: rest) :
    p.leaveHead = p.headTaken rest := by
  rw [Part.leaveHead, head]
  rfl

theorem Part.readOutside?_none {p : Part} {t : StripeId} {r : HoldingRecord} (record : p.firstRecord? t = some r)
    (spent : ∀ o, r.outside = some o →
      o.heard + 3 * p.claimRepeat < p.now ∨ o.station = p.own ∨ p.gone o.station = true) : p.readOutside? t = none := by
  cases outside : r.outside with
  | none => simp only [Part.readOutside?, record, Option.bind_some, outside]
  | some o =>
    have absent : (p.staleClaim o || p.gone o.station || o.station == p.own) = true := by
      rcases spent o outside with stale | own | gone
      · simp [Part.staleClaim, stale]
      · simp [own]
      · simp [gone]
    simp only [Part.readOutside?, record, Option.bind_some, outside, absent, if_true]

theorem Part.readOutside?_stands {p : Part} {t : StripeId} {r : HoldingRecord} {o : HeardClaim}
    (record : p.firstRecord? t = some r) (outside : r.outside = some o) (fresh : p.now ≤ o.heard + 3 * p.claimRepeat)
    (other : o.station ≠ p.own) (here : p.gone o.station = false) : p.readOutside? t = some o := by
  have stands : (p.staleClaim o || p.gone o.station || o.station == p.own) = false := by
    simp [Part.staleClaim, Nat.not_lt.2 fresh, other, here]
  simp only [Part.readOutside?, record, Option.bind_some, outside, stands, Bool.false_eq_true, if_false]

section
variable {p : Part} {t : StripeId} {rest : List StripeId} (n : Nat) (head : p.rq = t :: rest)
  (rising : p.hdt.rising = true)

/-- The claim on the head's stripe: its records CLAIMING without outside claim (R68). -/
theorem Part.claiming_imaged (lost : Positions) (rising : p.hdt.rising = true) :
    p.Imaged ((p.setOutside t none).setStanding t lost .claiming)
      { p with
        hdt := p.hdt.map (changeStripe t fun h => { h with lost := lost, standing := .claiming, outside := none }) } := by
  refine (Part.setOutside_imaged t none rising).updateStripe_again rising rfl (fun _ => rfl) fun h back => ?_
  rw [← back]

include head rising

theorem Part.takeHead_noLoss (loss : p.lossSet t = []) :
    p.Imaged (p.takeHead n t) { p.headTaken rest with hdt := withStanding p.hdt t [] .quiet } := by
  have taken : p.takeHead n t = (p.headTaken rest).setStanding t [] .quiet := by
    simp [Part.takeHead, loss, Part.leaveHead_eq head]
  rw [taken]
  exact Part.setStanding_imaged t [] .quiet rising rfl rfl rfl

omit head rising in
theorem Part.takeHead_many_full (many : p.parityOf t < (p.lossSet t).length) (full : p.reportPathFull = true) :
    p.takeHead n t = { p with rqWait := some t } := by
  simp [Part.takeHead, Part.lossSet_many many, many, Part.makeUnrecoverable?_full t _ full]

theorem Part.takeHead_many_room (many : p.parityOf t < (p.lossSet t).length) (room : p.reportPathFull = false) :
    p.Imaged (p.takeHead n t) (Part.postReport
      { p.headTaken rest with hdt := withStanding p.hdt t (p.lossSet t) .unrecoverable }
      (.unrecoverable t (p.lossSet t))) := by
  obtain ⟨q, made, imaged⟩ := Part.makeUnrecoverable?_room t (p.lossSet t) rising room
  have queue : q.rq = t :: rest := by
    have report := Part.postReport_of_same (p := p)
      (q := { p with hdt := withStanding p.hdt t (p.lossSet t) .unrecoverable }) rfl rfl
      (.unrecoverable t (p.lossSet t))
    exact ((congrArg Part.rq (imaged.same.trans report) :)).trans head
  have taken : p.takeHead n t = q.headTaken rest := by
    simp [Part.takeHead, Part.lossSet_many many, many, made, Part.leaveHead_eq queue]
  have leaves : BesideRecords fun q : Part => q.headTaken rest := fun _ => ⟨fun _ => rfl, rfl, rfl⟩
  have posted (x : Part) (hlk : x.hlk = p.hlk) (config : x.config = p.config) :=
    Part.postReport_of_same hlk config (.unrecoverable t (p.lossSet t))
  have left := imaged.then leaves
  rw [posted { p with hdt := withStanding p.hdt t (p.lossSet t) .unrecoverable } rfl rfl] at left
  rw [posted { p.headTaken rest with hdt := withStanding p.hdt t (p.lossSet t) .unrecoverable } rfl rfl, taken]
  exact left

section
variable {rank : Rank} (some_ : p.lossSet t ≠ []) (few : (p.lossSet t).length ≤ p.parityOf t)
  (ranked : rank = claimRank t p.own p.ctx.contexts.length)
include some_ few ranked

omit rising ranked in
theorem Part.takeHead_creates : p.takeHead n t = (p.headTaken rest).createClaim n t (p.lossSet t) := by
  simp [Part.takeHead, some_, Nat.not_lt.2 few, Part.leaveHead_eq head]

/-- The head gets an entry CONTENDING where no outside claim stands that precedes (R68). -/
theorem Part.takeHead_contends (room : p.queueOpen) (fresh : p.claimWaits t = false)
    (first : p.readOutside? t = none
      ∨ ∃ o, p.readOutside? t = some o ∧ o.contender.precedes { rank := some rank, settled := false } = false) :
    p.Imaged (p.takeHead n t) (Part.queued
      { p.headTaken rest with
        hdt := p.hdt.map (changeStripe t fun h =>
          { h with lost := p.lossSet t, standing := .claiming, outside := none })
        clt := { p.clt with
          entries := p.clt.entries.setRow n
            { stripe := t, lost := p.lossSet t, rank := rank, state := .contending (p.now + p.claimHoldOff) } } }
      none (.claim t rank 0x00 (maskOf (p.lossSet t)))) := by
  have imaged := Part.claiming_imaged (p := p.headTaken rest) (t := t) (p.lossSet t) rising
  have created : p.takeHead n t = Part.contend
      ((((p.headTaken rest).setOutside t none).setStanding t (p.lossSet t) .claiming).setClaim n
        { stripe := t, lost := p.lossSet t, rank := rank, state := .contending 0 }) n := by
    rw [Part.takeHead_creates n head some_ few, Part.createClaim]
    rcases first with absent | ⟨o, outside, after⟩
    · rw [show (p.headTaken rest).readOutside? t = none from absent, ranked]
      rfl
    · rw [show (p.headTaken rest).readOutside? t = some o from outside]
      refine (if_neg ?_).trans (by rw [ranked]; rfl)
      rw [ranked] at after
      exact Bool.eq_false_iff.1 after
  generalize ((p.headTaken rest).setOutside t none).setStanding t (p.lossSet t) .claiming = x at imaged created
  have clt : x.clt = p.clt := (congrArg Part.clt imaged.same :)
  have sgp : x.sgp = p.sgp := (congrArg Part.sgp imaged.same :)
  have now : x.now = p.now := (congrArg Part.now imaged.same :)
  have holdOff : x.claimHoldOff = p.claimHoldOff := Part.setting_congr (congrArg Part.config imaged.same :) _
  have room' : x.queueOpen := by rwa [Part.queueOpen, Part.controlPlace, sgp]
  have fresh' : x.claimWaits t = false := by rwa [Part.claimWaits, sgp]
  have contends : Part.contend (x.setClaim n
      { stripe := t, lost := p.lossSet t, rank := rank, state := .contending 0 }) n = Part.queued
      { x with
        clt := { p.clt with
          entries := p.clt.entries.setRow n
            { stripe := t, lost := p.lossSet t, rank := rank, state := .contending (p.now + p.claimHoldOff) } } }
      none (.claim t rank 0x00 (maskOf (p.lossSet t))) := by
    have posted := Part.contend_queued (p := x.setClaim n
      { stripe := t, lost := p.lossSet t, rank := rank, state := .contending 0 }) (Table.row?_setRow_self _ _ _) room' fresh'
    rw [posted, ← now, ← holdOff, ← clt]
    simp only [Part.setClaim, Table.setRow_setRow]
    rfl
  have posts : BesideRecords fun y : Part => Part.queued
      { y with
        clt := { p.clt with
          entries := p.clt.entries.setRow n
            { stripe := t, lost := p.lossSet t, rank := rank, state := .contending (p.now + p.claimHoldOff) } } }
      none (.claim t rank 0x00 (maskOf (p.lossSet t))) := fun _ => ⟨fun _ => rfl, rfl, rfl⟩
  have after := imaged.then posts
  rw [created, contends]
  exact ⟨after.same, after.images⟩

/-- The head gets an entry YIELDED to an outside claim that stands and precedes, silently (R68). -/
theorem Part.takeHead_yields {o : HeardClaim} (outside : p.readOutside? t = some o)
    (precedes : o.contender.precedes { rank := some rank, settled := false } = true) :
    p.Imaged (p.takeHead n t)
      { p.headTaken rest with
        hdt := p.hdt.map (changeStripe t fun h =>
          { h with lost := p.lossSet t, standing := .claiming, outside := none })
        clt := { p.clt with
          entries := p.clt.entries.setRow n
            { stripe := t, lost := p.lossSet t, rank := rank, state := .yielded o p.now (o.heard + 3 * p.claimRepeat) } } } := by
  have imaged := Part.claiming_imaged (p := p.headTaken rest) (t := t) (p.lossSet t) rising
  have created : p.takeHead n t =
      let x := ((p.headTaken rest).setOutside t none).setStanding t (p.lossSet t) .claiming
      x.setClaim n { stripe := t, lost := p.lossSet t, rank := rank, state := x.yieldedState o x.now } := by
    rw [Part.takeHead_creates n head some_ few, Part.createClaim,
      show (p.headTaken rest).readOutside? t = some o from outside, ranked]
    exact if_pos (ranked ▸ precedes)
  generalize ((p.headTaken rest).setOutside t none).setStanding t (p.lossSet t) .claiming = x at imaged created
  have clt : x.clt = p.clt := (congrArg Part.clt imaged.same :)
  have now : x.now = p.now := (congrArg Part.now imaged.same :)
  have interval : x.claimRepeat = p.claimRepeat := Part.setting_congr (congrArg Part.config imaged.same :) _
  have written : BesideRecords fun y : Part =>
      { y with
        clt := { p.clt with
          entries := p.clt.entries.setRow n
            { stripe := t, lost := p.lossSet t, rank := rank,
              state := .yielded o p.now (o.heard + 3 * p.claimRepeat) } } } := fun _ => ⟨fun _ => rfl, rfl, rfl⟩
  have after := imaged.then written
  have yields : x.setClaim n { stripe := t, lost := p.lossSet t, rank := rank, state := x.yieldedState o x.now } =
      { x with
        clt := { p.clt with
          entries := p.clt.entries.setRow n
            { stripe := t, lost := p.lossSet t, rank := rank,
              state := .yielded o p.now (o.heard + 3 * p.claimRepeat) } } } := by
    rw [Part.setClaim, Part.yieldedState, clt, interval, now]
  rw [created]
  dsimp only
  rw [yields]
  exact ⟨after.same, after.images⟩

end

end

/-! ## Parking first (R83) -/

/-- Records of another stripe are beside the change. -/
theorem Part.firstRecord?_otherStripe {p : Part} {t u : StripeId} {f : HoldingRecord → HoldingRecord}
    (table : Table HoldingRecord) (changed : table = p.hdt.map (changeStripe u f)) (stripe : ∀ r, (f r).stripe = r.stripe)
    (other : u ≠ t) : { p with hdt := table }.firstRecord? t = p.firstRecord? t := by
  subst changed
  have found := findRow?_changeStripe (t := u) (f := f) p.hdt (fun r => r.stripe == t) fun r _ => by rw [stripe]
  refine (congrArg (Option.map Prod.snd) found).trans ?_
  rw [Part.firstRecord?]
  cases row : p.hdt.findRow? fun r => r.stripe == t with
  | none => rfl
  | some r =>
    have member : r.2.stripe = t := beq_iff_eq.1 (List.find?_some (p := fun r : Nat × HoldingRecord => r.2.stripe == t) row)
    simp [changeStripe, member, other.symm]

/-- Two changes of different stripes one after another: neither brings a record of the other back. -/
theorem Part.Imaged.otherStripe {p q a x r : Part} {t u : StripeId} {f g : HoldingRecord → HoldingRecord}
    (first : p.Imaged q a) (second : q.Imaged x r) (now : a.now = p.now) (table : a.hdt = p.hdt.map (changeStripe u f))
    (later : r.hdt = q.hdt.map (changeStripe t g)) (stripe : ∀ h, (f h).stripe = h.stripe) (other : u ≠ t) :
    p.Imaged x (r.setDram p.smc.dram) := by
  have moment : q.now = p.now := (congrArg Part.now first.same :).trans now
  have middle : q.hdt = p.hdt.map (changeStripe u f) := (congrArg Part.hdt first.same :).trans table
  have last : x.hdt = q.hdt.map (changeStripe t g) := (congrArg Part.hdt second.same :).trans later
  refine ⟨(congrArg (fun y : Part => y.setDram p.smc.dram) second.same :),
    Part.imagesFollow_trans first.images second.images moment fun n back => ?_⟩
  simp only [last, middle, row?_changeStripe] at back ⊢
  cases row : p.hdt.row? n with
  | none => rfl
  | some record =>
    simp only [row, Option.map_some, Option.some.injEq] at back ⊢
    by_cases member : record.stripe = u
    · rw [if_pos member, if_neg (by rw [stripe, member]; exact other)]
    · rw [if_neg member] at back ⊢
      exact back

/-- The earliest entry YIELDED is parked: its rival becomes the outside claim of its stripe (R83). -/
theorem Part.park?_parks {p : Part} {n since due : Nat} {e : ClaimEntry} {rival : HeardClaim}
    (entries : p.clt.entries.rising = true) (row : p.clt.entries.row? n = some e)
    (state : e.state = .yielded rival since due)
    (earliest : ∀ k f other time timer, p.clt.entries.row? k = some f → f.state = .yielded other time timer →
      since < time ∨ (since = time ∧ n ≤ k)) (rising : p.hdt.rising = true) :
    ∃ q, p.park? = some q ∧ p.Imaged q
      { p with
        hdt := p.hdt.map (changeStripe e.stripe fun h =>
          { h with lost := e.lost, standing := .parked, outside := some rival })
        clt := { entries := p.clt.entries.dropRow n, owned := p.clt.owned.filter (· != n) } } := by
  have parks : p.park? =
      some (((p.setOutside e.stripe (some rival)).setStanding e.stripe e.lost .parked).removeClaim n) := by
    rw [Part.park?, firstParked?_earliest entries row state earliest]
    rfl
  have imaged : p.Imaged ((p.setOutside e.stripe (some rival)).setStanding e.stripe e.lost .parked) _ :=
    (Part.setOutside_imaged e.stripe (some rival) rising).updateStripe_again rising rfl (fun _ => rfl) fun h back => by
      rw [← back]
  refine ⟨_, parks, ?_⟩
  generalize (p.setOutside e.stripe (some rival)).setStanding e.stripe e.lost .parked = x at imaged
  have clt : x.clt = p.clt := (congrArg Part.clt imaged.same :)
  have removes : BesideRecords fun y : Part =>
      { y with clt := { entries := p.clt.entries.dropRow n, owned := p.clt.owned.filter (· != n) } } :=
    fun _ => ⟨fun _ => rfl, rfl, rfl⟩
  have after := imaged.then removes
  rw [Part.removeClaim_eq, clt]
  exact after

theorem dequeue_running {p : Part} (w : List Instr) (running : p.hlk.phase = .running) :
    ∃ f : Part → Part, exec .dequeue ⟨w, p⟩ = run ⟨w, p⟩ f ∧ f p = p.dequeueHead :=
  ⟨fun p => if p.hlk.phase = .running then p.dequeueHead else p, rfl, if_pos running⟩

section
variable {p q : Part} (w : List Instr) (running : p.hlk.phase = .running)
include running

theorem dequeue_answers (head : p.dequeueHead = q) : Answers .dequeue ⟨w, p⟩ q := by
  obtain ⟨f, meaning, effect⟩ := dequeue_running w running
  exact answers_of_effect meaning (congrArg Part.unmarked (effect.trans head))

theorem dequeue_answersWithImages (imaged : p.Imaged p.dequeueHead q) : AnswersWithImages .dequeue ⟨w, p⟩ q := by
  obtain ⟨f, meaning, effect⟩ := dequeue_running w running
  exact answersWithImages_of_runImaged meaning (effect ▸ imaged)

end

section
variable {p : Part} {t : StripeId} {rest : List StripeId} (head : p.rq = t :: rest) (waits : p.rqWait ≠ some t)
include head waits

theorem Part.dequeueHead_free {n : Nat} (free : p.clt.entries.lowestFree? 256 = some n) :
    p.dequeueHead = p.takeHead n t := by
  simp only [Part.dequeueHead, head, waits, if_false, claimEntries, free]

theorem Part.dequeueHead_parks {q : Part} {n : Nat} (full : p.clt.entries.lowestFree? 256 = none)
    (parks : p.park? = some q) (free : q.clt.entries.lowestFree? 256 = some n) : p.dequeueHead = q.takeHead n t := by
  simp only [Part.dequeueHead, head, waits, if_false, claimEntries, full, parks, free]

end

/-- The outside claim of a stripe does not precede the claim that this station would make of it (R67, R68). -/
theorem Part.readOutside?_behind {p : Part} {t : StripeId} {r : HoldingRecord} {rank : Rank}
    (record : p.firstRecord? t = some r)
    (behind : ∀ o, r.outside = some o → o.heard + 3 * p.claimRepeat < p.now ∨ o.station = p.own
      ∨ p.gone o.station = true ∨ (o.settled = false ∧ ∃ other, o.rank = some other ∧ rank.toNat ≤ other.toNat)) :
    p.readOutside? t = none
      ∨ ∃ o, p.readOutside? t = some o ∧ o.contender.precedes { rank := some rank, settled := false } = false := by
  cases outside : r.outside with
  | none => exact .inl (Part.readOutside?_none record fun o some_ => by simp [outside] at some_)
  | some o =>
    by_cases spent : o.heard + 3 * p.claimRepeat < p.now ∨ o.station = p.own ∨ p.gone o.station = true
    · refine .inl (Part.readOutside?_none record fun o' some_ => ?_)
      obtain rfl : o = o' := Option.some.inj (outside.symm.trans some_)
      exact spent
    · have stands := spent
      rw [not_or, not_or, Nat.not_lt, Bool.not_eq_true] at stands
      obtain ⟨fresh, foreign, here⟩ := stands
      refine .inr ⟨o, Part.readOutside?_stands record outside fresh foreign here, ?_⟩
      rcases behind o outside with stale | own | gone | ⟨unsettled, other, known, higher⟩
      · exact absurd (.inl stale) spent
      · exact absurd own foreign
      · exact absurd (.inr (.inr gone)) spent
      · rw [Bool.eq_false_iff, ne_eq, Contender.precedes_unsettled_iff (a := o.contender) rank known]
        rintro (settled | lower)
        · exact Bool.false_ne_true (unsettled.symm.trans settled)
        · exact absurd lower (Nat.not_lt.2 higher)

/-- Which outside claims precede the claim that this station would make (R67). -/
theorem HeardClaim.precedes_own {o : HeardClaim} {rank : Rank}
    (ahead : o.rank = none ∨ o.settled = true ∨ ∃ other, o.rank = some other ∧ other.toNat < rank.toNat) :
    o.contender.precedes { rank := some rank, settled := false } = true := by
  cases known : o.rank with
  | none => simp [Contender.precedes, HeardClaim.contender, known]
  | some other =>
    rw [Contender.precedes_unsettled_iff (a := o.contender) rank known]
    rcases ahead with unknown | settled | ⟨x, rank', lower⟩
    · simp [known] at unknown
    · exact .inl settled
    · obtain rfl : other = x := Option.some.inj (known.symm.trans rank')
      exact .inr lower

theorem Part.lossSet_congr {p q : Part} {t : StripeId} (record : q.firstRecord? t = p.firstRecord? t)
    (prs : q.prs = p.prs) : q.lossSet t = p.lossSet t := by
  unfold Part.lossSet Part.placementOf Part.stationDown Part.rackState Part.peer?
  rw [record, prs]

theorem Part.parityOf_congr {p q : Part} {t : StripeId} (record : q.firstRecord? t = p.firstRecord? t)
    (config : q.config = p.config) : q.parityOf t = p.parityOf t := by
  unfold Part.parityOf Part.geometryOf? Part.geometry?
  rw [record, config]

/-- The part with one entry YIELDED parked (R83). -/
def Part.parking (p : Part) (n : Nat) (e : ClaimEntry) (rival : HeardClaim) : Part :=
  { p with
    hdt := p.hdt.map (changeStripe e.stripe fun h =>
      { h with lost := e.lost, standing := .parked, outside := some rival })
    clt := { entries := p.clt.entries.dropRow n, owned := p.clt.owned.filter (· != n) } }

section
variable {p : Part} {t : StripeId} {e : ClaimEntry} (n : Nat) (rival : HeardClaim) (d : Dram) (other : e.stripe ≠ t)
include other

theorem Part.parking_firstRecord? :
    ((p.parking n e rival).setDram d).firstRecord? t = p.firstRecord? t :=
  Part.firstRecord?_otherStripe (p := p) _ rfl (fun _ => rfl) other

theorem Part.parking_lossSet : ((p.parking n e rival).setDram d).lossSet t = p.lossSet t :=
  Part.lossSet_congr (Part.parking_firstRecord? n rival d other) rfl

theorem Part.parking_parityOf : ((p.parking n e rival).setDram d).parityOf t = p.parityOf t :=
  Part.parityOf_congr (Part.parking_firstRecord? n rival d other) rfl

/-- What follows a parking, at the records of the other stripe, leaves both changes with their images. -/
theorem Part.parking_then {x r : Part} {g : HoldingRecord → HoldingRecord}
    (parked : p.Imaged ((p.parking n e rival).setDram d) (p.parking n e rival))
    (after : ((p.parking n e rival).setDram d).Imaged x (r.setDram d))
    (table : r.hdt = (p.parking n e rival).hdt.map (changeStripe t g)) (dram : r.smc.dram = p.smc.dram) :
    p.Imaged x r := by
  have both := Part.Imaged.otherStripe parked after rfl rfl table (fun _ => rfl) other
  have same : (r.setDram d).setDram p.smc.dram = r := by rw [← dram]; rfl
  rwa [same] at both

end

/-- Settles O30. -/
theorem dequeuesMakeClaims : Obligations.DequeuesMakeClaims := by
  refine ⟨fun w p running => ⟨fun t rest head waits => ?_, fun full announced => ?_⟩, ?_, ?_⟩
  · refine dequeue_answers w running ?_
    simp only [Part.dequeueHead, head, waits, if_true]
  · refine dequeue_answers w running ?_
    have noPark : p.park? = none := by rw [Part.park?, firstParked?_none announced]; rfl
    unfold Part.dequeueHead
    split
    · rfl
    · split
      · rfl
      · rw [show p.clt.entries.lowestFree? claimEntries = none from full, noPark]
  · rintro w p t rest r n _ _ running head waits free record rising rfl rfl
    have takes := Part.dequeueHead_free head waits free
    have answers {q : Part} (imaged : p.Imaged (p.takeHead n t) q) : AnswersWithImages .dequeue ⟨w, p⟩ q :=
      dequeue_answersWithImages w running (takes ▸ imaged)
    refine ⟨fun loss => answers (Part.takeHead_noLoss n head rising loss), fun many =>
      ⟨fun room => answers (Part.takeHead_many_room n head rising many room), fun full => ?_⟩,
      fun some_ few room fresh first => answers ?_, fun o some_ few outside fresh other here precedes => answers ?_⟩
    · exact dequeue_answers w running (takes.trans (Part.takeHead_many_full n many full))
    · exact Part.takeHead_contends n head rising some_ few rfl room fresh (Part.readOutside?_behind record first)
    · exact Part.takeHead_yields n head rising some_ few rfl
        (Part.readOutside?_stands record outside fresh other here) (HeardClaim.precedes_own precedes)
  · rintro w p t rest r n since due e rival _ _ _ running head waits entries full below row state earliest other record
      rising rfl rfl rfl
    obtain ⟨q, parks, parked⟩ := Part.park?_parks entries row state earliest rising
    obtain ⟨d, rfl⟩ : ∃ d, q = (p.parking n e rival).setDram d :=
      ⟨q.smc.dram, (congrArg (fun x : Part => x.setDram q.smc.dram) parked.same :)⟩
    have takes := Part.dequeueHead_parks (t := t) head waits full parks
      (Table.lowestFree?_dropRow entries full (Nat.lt_succ_of_le below))
    have loss := Part.parking_lossSet (p := p) n rival d other
    have parity := Part.parking_parityOf (p := p) n rival d other
    have first := Part.parking_firstRecord? (p := p) n rival d other
    have rising' : ((p.parking n e rival).setDram d).hdt.rising = true := rising_changeStripe _ _ rising
    have answers {x : Part} (imaged : p.Imaged (((p.parking n e rival).setDram d).takeHead n t) x) :
        AnswersWithImages .dequeue ⟨w, p⟩ x := dequeue_answersWithImages w running (takes ▸ imaged)
    refine ⟨fun none_ => answers ?_, fun many path => answers ?_, fun some_ few absent room fresh => answers ?_⟩
    · exact Part.parking_then n rival d other parked
        (Part.takeHead_noLoss n (rest := rest) head rising' (loss.trans none_)) rfl rfl
    · rw [Part.takeHead_many_full (p := (p.parking n e rival).setDram d) n (by rwa [loss, parity]) path]
      exact parked.then (g := fun x => { x with rqWait := some t }) fun _ => ⟨fun _ => rfl, rfl, rfl⟩
    · have noClaim : ((p.parking n e rival).setDram d).readOutside? t = none :=
        Part.readOutside?_none (first.trans record) fun o some_' => by simp [absent] at some_'
      have after := Part.takeHead_contends (p := (p.parking n e rival).setDram d) n (rest := rest) head rising' (by rwa [loss]) (by rwa [loss, parity]) rfl room
        fresh (.inl noClaim)
      rw [loss] at after
      exact Part.parking_then n rival d other parked after rfl rfl

end Machine

end Sys2Proof

/-! How a layout is read back (R161): numbers as bytes, fields laid over zeros, and the pieces of a field that repeats. -/

namespace Sys2Proof.Machine

/-! ## Numbers as bytes -/

@[simp] theorem length_leBytes (n v : Nat) : (leBytes n v).length = n := by simp [leBytes]

@[simp] theorem length_beBytes (n v : Nat) : (beBytes n v).length = n := by simp [beBytes]

theorem mod_pow_succ (n v : Nat) : v % 256 ^ (n + 1) = v % 256 + 256 * (v / 256 % 256 ^ n) := by
  rw [Nat.pow_succ', Nat.mod_mul]

theorem leBytes_succ (n v : Nat) : leBytes (n + 1) v = BitVec.ofNat 8 v :: leBytes n (v / 256) := by
  simp only [leBytes, List.range_succ_eq_map, List.map_cons, List.map_map, Nat.pow_zero, Nat.div_one]
  refine congrArg _ (List.map_congr_left fun i _ => ?_)
  rw [Function.comp_apply, Nat.pow_succ', Nat.div_div_eq_div_mul]

theorem leNat_cons (b : Byte) (rest : List Byte) : leNat (b :: rest) = leNat rest * 256 + b.toNat := rfl

@[simp] theorem leNat_leBytes (n v : Nat) : leNat (leBytes n v) = v % 256 ^ n := by
  induction n generalizing v with
  | zero => simp [leBytes, leNat, Nat.mod_one]
  | succ n ih =>
    rw [leBytes_succ, leNat_cons, ih, BitVec.toNat_ofNat, mod_pow_succ]
    omega

@[simp] theorem toNat_mod_16 (x : BitVec 16) : x.toNat % 65536 = x.toNat := Nat.mod_eq_of_lt x.isLt

@[simp] theorem toNat_mod_24 (x : BitVec 24) : x.toNat % 16777216 = x.toNat := Nat.mod_eq_of_lt x.isLt

@[simp] theorem toNat_mod_32 (x : BitVec 32) : x.toNat % 4294967296 = x.toNat := Nat.mod_eq_of_lt x.isLt

@[simp] theorem toNat_mod_48 (x : BitVec 48) : x.toNat % 281474976710656 = x.toNat := Nat.mod_eq_of_lt x.isLt

@[simp] theorem leNat_singleton (b : Byte) : leNat [b] = b.toNat := by simp [leNat]

@[simp] theorem leNat_replicate (n : Nat) : leNat (List.replicate n 0) = 0 := by
  induction n with
  | zero => rfl
  | succ n ih => rw [List.replicate_succ, leNat_cons, ih]; rfl

theorem beBytes_succ (n v : Nat) : beBytes (n + 1) v = beBytes n (v / 256) ++ [BitVec.ofNat 8 v] := by
  simp only [beBytes, List.range_succ, List.map_append, List.map_cons, List.map_nil, Nat.add_sub_cancel, Nat.sub_self,
    Nat.pow_zero, Nat.div_one]
  refine congrArg (· ++ _) (List.map_congr_left fun i member => ?_)
  have below := List.mem_range.1 member
  rw [Nat.div_div_eq_div_mul, ← Nat.pow_succ', show (n - 1 - i).succ = n - i by omega]

@[simp] theorem beNat_beBytes (n v : Nat) : beNat (beBytes n v) = v % 256 ^ n := by
  induction n generalizing v with
  | zero => simp [beBytes, beNat, Nat.mod_one]
  | succ n ih =>
    have last (l : List Byte) (b : Byte) : beNat (l ++ [b]) = beNat l * 256 + b.toNat := by simp [beNat]
    rw [beBytes_succ, last, ih, BitVec.toNat_ofNat, mod_pow_succ]
    omega

/-! ## Pieces of a list of bytes -/

theorem getElem?_bytesAt (l : List Byte) (o n i : Nat) : (bytesAt l o n)[i]? = if i < n then l[o + i]? else none := by
  rw [bytesAt, List.getElem?_take, List.getElem?_drop]

theorem bytesAt_bytesAt {n o' n' : Nat} (l : List Byte) (o : Nat) (inside : o' + n' ≤ n) :
    bytesAt (bytesAt l o n) o' n' = bytesAt l (o + o') n' := by
  refine List.ext_getElem? fun i => ?_
  simp only [getElem?_bytesAt, Nat.add_assoc]
  split
  · rw [if_pos (by omega)]
  · rfl

theorem byteAt_bytesAt {n i : Nat} (l : List Byte) (o : Nat) (inside : i < n) :
    byteAt (bytesAt l o n) i = byteAt l (o + i) := by
  rw [byteAt, byteAt, getElem?_bytesAt, if_pos inside]

theorem bytesAt_append {a : List Byte} (b : List Byte) {o n : Nat} (inside : o + n ≤ a.length) :
    bytesAt (a ++ b) o n = bytesAt a o n := by
  refine List.ext_getElem? fun i => ?_
  simp only [getElem?_bytesAt]
  split
  · rw [List.getElem?_append_left (by omega)]
  · rfl

theorem byteAt_append {a : List Byte} (b : List Byte) {i : Nat} (inside : i < a.length) :
    byteAt (a ++ b) i = byteAt a i := by
  rw [byteAt, List.getElem?_append_left inside, byteAt]

@[simp] theorem byteAt_singleton (b : Byte) : byteAt [b] 0 = b := rfl

theorem leField_one (l : List Byte) (o : Nat) : leField l o 1 = (byteAt l o).toNat := by
  rw [leField, byteAt]
  cases h : l[o]? with
  | none =>
    have empty : bytesAt l o 1 = [] := by
      rw [bytesAt, List.drop_eq_nil_of_le (List.getElem?_eq_none_iff.1 h)]
      rfl
    simp [empty, leNat]
  | some b =>
    obtain ⟨inside, rfl⟩ := List.getElem?_eq_some_iff.1 h
    rw [bytesAt, List.drop_eq_getElem_cons inside, List.take_succ_cons, List.take_zero]
    simp

theorem leField_bytesAt {n o' n' : Nat} (l : List Byte) (o : Nat) (inside : o' + n' ≤ n) :
    leField (bytesAt l o n) o' n' = leField l (o + o') n' := congrArg leNat (bytesAt_bytesAt l o inside)

/-- The pieces of a field that repeats: each has the same size (R161). -/
theorem bytesAt_flatMap {α : Type} {f : α → List Byte} {n : Nat} (sized : ∀ a, (f a).length = n) (l : List α) {i : Nat}
    {a : α} (at_ : l[i]? = some a) : bytesAt (l.flatMap f) (n * i) n = f a := by
  induction l generalizing i with
  | nil => cases at_
  | cons b rest ih =>
    cases i with
    | zero =>
      obtain rfl : b = a := by simpa using at_
      simp [bytesAt, ← sized b]
    | succ i =>
      have skip : n * (i + 1) = (f b).length + n * i := by rw [sized, Nat.mul_succ, Nat.add_comm]
      rw [List.flatMap_cons, skip, bytesAt, ← List.drop_drop, List.drop_left]
      exact ih at_

theorem length_flatMap {α : Type} {f : α → List Byte} {n : Nat} (sized : ∀ a, (f a).length = n) (l : List α) :
    (l.flatMap f).length = n * l.length := by
  rw [List.length_flatMap, List.map_congr_left fun a _ => sized a, List.map_const', List.sum_replicate, smul_eq_mul,
    Nat.mul_comm]

/-! ## Layouts -/

/-- The fields stand in order from a place on, apart from each other and within a size. -/
def Ascending (size : Nat) : Nat → List (Nat × List Byte) → Prop
  | start, [] => start ≤ size
  | start, f :: rest => start ≤ f.1 ∧ Ascending size (f.1 + f.2.length) rest

@[simp] theorem ascending_nil (size start : Nat) : Ascending size start [] ↔ start ≤ size := .rfl

@[simp] theorem ascending_cons (size start : Nat) (f : Nat × List Byte) (rest : List (Nat × List Byte)) :
    Ascending size start (f :: rest) ↔ start ≤ f.1 ∧ Ascending size (f.1 + f.2.length) rest := .rfl

theorem Ascending.start_le {size start : Nat} {fields : List (Nat × List Byte)} (h : Ascending size start fields) :
    start ≤ size := by
  induction fields generalizing start with
  | nil => exact h
  | cons f rest ih => exact Nat.le_trans (Nat.le_trans h.1 (Nat.le_add_right _ _)) (ih h.2)

theorem Ascending.from_start {size start : Nat} {fields : List (Nat × List Byte)} (h : Ascending size start fields) :
    ∀ f ∈ fields, start ≤ f.1 := by
  induction fields generalizing start with
  | nil => exact nofun
  | cons f rest ih =>
    intro g member
    rcases List.mem_cons.1 member with rfl | member
    · exact h.1
    · exact Nat.le_trans (Nat.le_trans h.1 (Nat.le_add_right _ _)) (ih h.2 g member)

theorem getElem?_overlay {base b : List Byte} {o i : Nat} (room : o + b.length ≤ base.length) :
    (overlay base o b)[i]? = if o ≤ i ∧ i < o + b.length then b[i - o]? else base[i]? := by
  have front : (base.take o).length = o := by rw [List.length_take]; omega
  rw [overlay, List.append_assoc]
  by_cases before : i < o
  · rw [List.getElem?_append_left (by omega), List.getElem?_take_of_lt before, if_neg (by omega)]
  · rw [List.getElem?_append_right (by omega), front]
    by_cases within : i < o + b.length
    · rw [List.getElem?_append_left (by omega), if_pos (by omega)]
    · rw [List.getElem?_append_right (by omega), List.getElem?_drop, if_neg (by omega)]
      congr 1
      omega

section
variable {size start : Nat} {fields : List (Nat × List Byte)}

theorem foldl_overlay {base : List Byte} (asc : Ascending base.length start fields) :
    (fields.foldl (fun acc f => overlay acc f.1 f.2) base).length = base.length
      ∧ (∀ i, (∀ f ∈ fields, f.1 + f.2.length ≤ i ∨ i < f.1) →
        (fields.foldl (fun acc f => overlay acc f.1 f.2) base)[i]? = base[i]?)
      ∧ ∀ f ∈ fields, ∀ i, i < f.2.length →
        (fields.foldl (fun acc f => overlay acc f.1 f.2) base)[f.1 + i]? = f.2[i]? := by
  induction fields generalizing base start with
  | nil => exact ⟨rfl, fun _ _ => rfl, nofun⟩
  | cons f rest ih =>
    obtain ⟨-, asc⟩ := asc
    have room := asc.start_le
    have sized : (overlay base f.1 f.2).length = base.length := length_overlay room
    obtain ⟨length, gaps, spelt⟩ := ih (base := overlay base f.1 f.2) (sized.symm ▸ asc)
    rw [List.foldl_cons]
    refine ⟨length.trans sized, fun i apart => ?_, fun g member i inside => ?_⟩
    · rw [gaps i fun g member => apart g (List.mem_cons_of_mem _ member), getElem?_overlay room]
      have here := apart f List.mem_cons_self
      exact if_neg (by omega)
    · rcases List.mem_cons.1 member with rfl | member
      · rw [gaps _ fun h later => .inr (by have := asc.from_start h later; omega), getElem?_overlay room,
          if_pos (by omega), Nat.add_sub_cancel_left]
      · exact spelt g member i inside

variable (asc : Ascending size 0 fields)
include asc

theorem length_layout : (layout size fields).length = size := by
  have sized : (List.replicate size (0 : Byte)).length = size := List.length_replicate
  exact (foldl_overlay (base := List.replicate size 0) (sized.symm ▸ asc)).1.trans sized

theorem bytesAt_layout_field {o : Nat} {b : List Byte} (member : (o, b) ∈ fields) :
    bytesAt (layout size fields) o b.length = b := by
  have sized : (List.replicate size (0 : Byte)).length = size := List.length_replicate
  obtain ⟨-, -, spelt⟩ := foldl_overlay (base := List.replicate size 0) (sized.symm ▸ asc)
  refine List.ext_getElem? fun i => ?_
  rw [getElem?_bytesAt]
  split
  next inside => exact spelt _ member i inside
  next outside => exact (List.getElem?_eq_none (Nat.not_lt.1 outside)).symm

theorem bytesAt_layout_gap {o n : Nat} (room : o + n ≤ size)
    (apart : ∀ f ∈ fields, f.1 + f.2.length ≤ o ∨ o + n ≤ f.1) :
    bytesAt (layout size fields) o n = List.replicate n 0 := by
  have sized : (List.replicate size (0 : Byte)).length = size := List.length_replicate
  obtain ⟨-, gaps, -⟩ := foldl_overlay (base := List.replicate size 0) (sized.symm ▸ asc)
  refine List.ext_getElem? fun i => ?_
  rw [getElem?_bytesAt, List.getElem?_replicate]
  split
  · refine (gaps _ fun f member => ?_).trans (by rw [List.getElem?_replicate, if_pos (by omega)])
    have := apart f member
    omega
  · rfl

/-- The field at an offset, or zeros: each field stands there whole or has no byte there. -/
theorem bytesAt_layout {o n : Nat} (room : o + n ≤ size)
    (apart : ∀ f ∈ fields, (f.1 = o ∧ f.2.length = n) ∨ f.1 + f.2.length ≤ o ∨ o + n ≤ f.1) (some_ : 0 < n) :
    bytesAt (layout size fields) o n =
      ((fields.find? fun f => f.1 == o && f.2.length == n).map Prod.snd).getD (List.replicate n 0) := by
  cases found : fields.find? fun f => f.1 == o && f.2.length == n with
  | none =>
    refine bytesAt_layout_gap asc room fun f member => (apart f member).resolve_left fun here => ?_
    have absent := List.find?_eq_none.1 found f member
    simp [here] at absent
  | some f =>
    have here := List.find?_some found
    simp only [Bool.and_eq_true, beq_iff_eq] at here
    obtain ⟨rfl, rfl⟩ := here
    exact bytesAt_layout_field asc (List.mem_of_find?_eq_some found)

theorem leField_layout {o n : Nat} (room : o + n ≤ size)
    (apart : ∀ f ∈ fields, (f.1 = o ∧ f.2.length = n) ∨ f.1 + f.2.length ≤ o ∨ o + n ≤ f.1) (some_ : 0 < n) :
    leField (layout size fields) o n =
      ((fields.find? fun f => f.1 == o && f.2.length == n).map fun f => leNat f.2).getD 0 := by
  rw [leField, bytesAt_layout asc room apart some_]
  cases fields.find? fun f => f.1 == o && f.2.length == n with
  | none => exact leNat_replicate n
  | some f => rfl

theorem byteAt_layout {o : Nat} (room : o < size)
    (apart : ∀ f ∈ fields, (f.1 = o ∧ f.2.length = 1) ∨ f.1 + f.2.length ≤ o ∨ o + 1 ≤ f.1) :
    byteAt (layout size fields) o =
      byteAt (((fields.find? fun f => f.1 == o && f.2.length == 1).map Prod.snd).getD [0]) 0 := by
  have here := bytesAt_layout asc room apart Nat.one_pos
  rw [List.replicate_one] at here
  rw [← here, byteAt_bytesAt _ _ Nat.one_pos]
  rfl

theorem leField_of_mem {o n v : Nat} (member : (o, leBytes n v) ∈ fields) :
    leField (layout size fields) o n = v % 256 ^ n := by
  have field := bytesAt_layout_field asc member
  rw [length_leBytes] at field
  rw [leField, field, leNat_leBytes]

theorem byteAt_of_mem {o : Nat} {b : Byte} (member : (o, [b]) ∈ fields) : byteAt (layout size fields) o = b := by
  have field := bytesAt_layout_field asc member
  have first := byteAt_bytesAt (n := 1) (i := 0) (layout size fields) o Nat.one_pos
  exact first.symm.trans (congrArg (byteAt · 0) field)

theorem leField_gap {o n : Nat} (room : o + n ≤ size) (apart : ∀ f ∈ fields, f.1 + f.2.length ≤ o ∨ o + n ≤ f.1) :
    leField (layout size fields) o n = 0 := by
  rw [leField, bytesAt_layout_gap asc room apart, leNat_replicate]

/-- A byte within a field. -/
theorem byteAt_inside {o i : Nat} {b : List Byte} (member : (o, b) ∈ fields) (inside : i < b.length) :
    byteAt (layout size fields) (o + i) = byteAt b i := by
  rw [← byteAt_bytesAt _ o inside, bytesAt_layout_field asc member]

/-- A number within a field. -/
theorem leField_inside {o o' n : Nat} {b : List Byte} (member : (o, b) ∈ fields) (inside : o' + n ≤ b.length) :
    leField (layout size fields) (o + o') n = leField b o' n := by
  rw [← leField_bytesAt _ o inside, bytesAt_layout_field asc member]

end

end Sys2Proof.Machine

/-! The structures of the host are read back: command ring entries, report ring entries, masks and record images (R10,
R161, R164, R169). -/

namespace Sys2Proof.Machine

/-! ## Fields that repeat -/

theorem map_byteAt {l : List Byte} {o n : Nat} (room : o + n ≤ l.length) :
    ((List.range n).map fun i => byteAt l (o + i)) = bytesAt l o n := by
  refine List.ext_getElem? fun i => ?_
  rw [getElem?_bytesAt, List.getElem?_map]
  split
  next inside =>
    rw [List.getElem?_range inside, Option.map_some, byteAt, List.getElem?_eq_getElem (by omega)]
    rfl
  next outside => rw [List.getElem?_eq_none (by simpa using outside)]; rfl

theorem map_range_eq {α : Type} {read : Nat → α} {l : List α} {n : Nat} (sized : l.length = n)
    (reads : ∀ i a, l[i]? = some a → read i = a) : (List.range n).map read = l := by
  subst sized
  refine List.ext_getElem? fun i => ?_
  rw [List.getElem?_map]
  cases at_ : l[i]? with
  | none => rw [List.getElem?_eq_none (by simpa using List.getElem?_eq_none_iff.1 at_)]; rfl
  | some a =>
    obtain ⟨inside, -⟩ := List.getElem?_eq_some_iff.1 at_
    rw [List.getElem?_range inside, Option.map_some, reads i a at_]

/-- A piece of a field that repeats, where the field stands in a structure. -/
theorem bytesAt_piece {α : Type} {f : α → List Byte} {n o size : Nat} {l : List α} {b : List Byte}
    (field : bytesAt b o size = l.flatMap f) (sized : ∀ a, (f a).length = n) (whole : size = n * l.length) {i : Nat} {a : α}
    (at_ : l[i]? = some a) : bytesAt b (o + n * i) n = f a := by
  obtain ⟨inside, -⟩ := List.getElem?_eq_some_iff.1 at_
  have room : n * i + n ≤ size := by
    rw [whole, ← Nat.mul_succ]
    exact Nat.mul_le_mul_left n inside
  rw [← bytesAt_bytesAt b o room, field, bytesAt_flatMap sized l at_]

/-! ## Masks -/

theorem getLsbD_foldl_mask (positions : Positions) (mask : BitVec 16) {i : Nat} (h : i < 16) :
    (positions.foldl (fun mask p => mask ||| (1#16 <<< p)) mask).getLsbD i = true ↔
      mask.getLsbD i = true ∨ i ∈ positions := by
  induction positions generalizing mask with
  | nil => simp
  | cons p rest ih =>
    have bit : (1#16 <<< p).getLsbD i = true ↔ i = p := by
      rw [BitVec.getLsbD_shiftLeft]
      simp [h]
      omega
    rw [List.foldl_cons, ih, BitVec.getLsbD_or, Bool.or_eq_true, bit, List.mem_cons, or_assoc]

theorem testBit_maskOf (positions : Positions) {i : Nat} (h : i < 16) :
    (maskOf positions).toNat.testBit i = true ↔ i ∈ positions := by
  have bits := getLsbD_foldl_mask positions 0 h
  rw [maskOf, BitVec.testBit_toNat, bits]
  simp

/-! ## The configuration record -/

/-- The fields of a configuration record (R161). -/
def ConfigRecord.fields (c : ConfigRecord) : List (Nat × List Byte) :=
  [(0, [c.ownStation]), (1, [c.releaseHold]), (2, leBytes 2 c.startEpoch.toNat),
    (4, leBytes 2 c.etherType.toNat), (6, [c.interruptEnables]), (8, c.memberMap),
    (72, c.geometries.flatMap fun g => [g.1, g.2]), (88, [c.beaconPeriod]), (89, [c.shortCount]),
    (90, [c.longCount]), (91, [c.claimHoldOff]), (92, leBytes 2 c.claimRepeat.toNat),
    (94, leBytes 2 c.replyTimeout.toNat), (96, [c.tries]), (98, leBytes 2 c.openerIdleLimit.toNat),
    (100, [c.sweepInterval]), (102, leBytes 2 c.serveReserve.toNat)]

theorem readConfig_bytesAt (l : List Byte) : readConfig (bytesAt l 0 104) = readConfig l := by
  have byte {i : Nat} (inside : i < 104) : byteAt (bytesAt l 0 104) i = byteAt l i := by
    rw [byteAt_bytesAt l 0 inside, Nat.zero_add]
  have field {o n : Nat} (inside : o + n ≤ 104) : leField (bytesAt l 0 104) o n = leField l o n := by
    rw [leField_bytesAt l 0 inside, Nat.zero_add]
  have map : ((List.range 64).map fun i => byteAt (bytesAt l 0 104) (8 + i)) =
      (List.range 64).map fun i => byteAt l (8 + i) :=
    List.map_congr_left fun i member => byte (by have := List.mem_range.1 member; omega)
  have pairs : ((List.range 8).map fun i =>
        (byteAt (bytesAt l 0 104) (72 + 2 * i), byteAt (bytesAt l 0 104) (73 + 2 * i))) =
      (List.range 8).map fun i => (byteAt l (72 + 2 * i), byteAt l (73 + 2 * i)) :=
    List.map_congr_left fun i member => by
      have := List.mem_range.1 member
      rw [byte (by omega), byte (by omega)]
  simp [readConfig, byte, field, map, pairs]

theorem map_pairs {b : List Byte} {l : List (Byte × Byte)} {o n : Nat}
    (field : bytesAt b o (2 * n) = l.flatMap fun g => [g.1, g.2]) (sized : l.length = n) :
    ((List.range n).map fun i => (byteAt b (o + 2 * i), byteAt b (o + 1 + 2 * i))) = l := by
  refine map_range_eq sized fun i g at_ => ?_
  have piece := bytesAt_piece (n := 2) field (fun _ => rfl) (by rw [sized]) at_
  have first := byteAt_bytesAt (n := 2) (i := 0) b (o + 2 * i) (by decide)
  have second := byteAt_bytesAt (n := 2) (i := 1) b (o + 2 * i) (by decide)
  rw [piece] at first second
  rw [show o + 1 + 2 * i = o + 2 * i + 1 by omega, ← second]
  exact Prod.ext first.symm rfl

section
variable {c : ConfigRecord} (wellFormed : c.wellFormed = true)
include wellFormed

theorem ConfigRecord.sized : c.memberMap.length = 64 ∧ c.geometries.length = 8 := by
  simpa [ConfigRecord.wellFormed] using wellFormed

theorem ConfigRecord.bytes_eq : ConfigRecord.bytes c = layout 104 (ConfigRecord.fields c) := by
  obtain ⟨map, geometries⟩ := ConfigRecord.sized wellFormed
  rw [ConfigRecord.bytes, List.take_of_length_le (Nat.le_of_eq map), List.take_of_length_le (Nat.le_of_eq geometries)]
  rfl

theorem ConfigRecord.ascending : Ascending 104 0 (ConfigRecord.fields c) := by
  obtain ⟨map, geometries⟩ := ConfigRecord.sized wellFormed
  have pairs : (c.geometries.flatMap fun g => [g.1, g.2]).length = 16 := by
    rw [length_flatMap (n := 2) fun _ => rfl, geometries]
  simp [ConfigRecord.fields, map, pairs]

theorem ConfigRecord.length_bytes : (ConfigRecord.bytes c).length = 104 := by
  rw [ConfigRecord.bytes_eq wellFormed, length_layout (ConfigRecord.ascending wellFormed)]

theorem readConfig_bytes : readConfig (ConfigRecord.bytes c) = c := by
  have asc := ConfigRecord.ascending wellFormed
  have sized := length_layout asc
  obtain ⟨map, geometries⟩ := ConfigRecord.sized wellFormed
  have pairs : (c.geometries.flatMap fun g => [g.1, g.2]).length = 16 := by
    rw [length_flatMap (n := 2) fun _ => rfl, geometries]
  rw [ConfigRecord.bytes_eq wellFormed]
  have members := bytesAt_layout_field asc (o := 8) (b := c.memberMap) (by simp [ConfigRecord.fields])
  have codes := bytesAt_layout_field asc (o := 72) (b := c.geometries.flatMap fun g => [g.1, g.2])
    (by simp [ConfigRecord.fields])
  rw [map, ← map_byteAt (by omega)] at members
  rw [pairs] at codes
  have codes := map_pairs (n := 8) codes geometries
  unfold readConfig
  rw [members, codes]
  have byte {o : Nat} := byteAt_layout (o := o) asc
  have field {o n : Nat} := leField_layout (o := o) (n := n) asc
  unfold ConfigRecord.fields at byte field ⊢
  simp [byte, field, map, pairs]

end

/-! ## Command ring entries -/

theorem ofRing_iff (i : Instr) : Instr.ofRing i ↔ ∃ entry, encodeEntry? i = some entry := by
  cases i <;> simp [Instr.ofRing, encodeEntry?]

theorem readConfig_drop {c : ConfigRecord} {b : List Byte} (wellFormed : c.wellFormed = true)
    (body : bytesAt b 8 104 = ConfigRecord.bytes c) : readConfig (b.drop 8) = c := by
  rw [← readConfig_bytesAt]
  exact (congrArg readConfig body).trans (readConfig_bytes wellFormed)

theorem decodeEntry_ofConfigure {b : List Byte} (code : byteAt b 0 = 0x01) :
    decodeEntry b = .configure (readConfig (b.drop 8)) := by
  rw [decodeEntry, code]
  rfl

theorem decodeEntry_ofLoad {b : List Byte} (code : byteAt b 0 = 0x04) : decodeEntry b = .load (readLoad b) := by
  rw [decodeEntry, code]
  rfl

theorem decodeEntry_ofUnlisted {b : List Byte} (unlisted : listedCommandCodes.contains (byteAt b 0).toNat = false) :
    decodeEntry b = .unknownCommandCode (byteAt b 0) := by
  rw [decodeEntry]
  split <;> simp_all [listedCommandCodes]

theorem decodeEntry_configure {c : ConfigRecord} {entry : List Byte} (wellFormed : c.wellFormed = true)
    (spelt : encodeEntry? (.configure c) = some entry) : entry.length = 128 ∧ decodeEntry entry = .configure c := by
  have sized := ConfigRecord.length_bytes wellFormed
  have asc : Ascending 128 0 [(0, [0x01#8]), (8, ConfigRecord.bytes c)] := by simp [sized]
  have body := bytesAt_layout_field asc (o := 8) (b := ConfigRecord.bytes c) (by simp)
  rw [sized] at body
  have code := byteAt_layout asc (o := 0) (by decide) (by simp [sized])
  obtain rfl := Option.some.inj spelt
  exact ⟨length_layout asc, (decodeEntry_ofConfigure code).trans (congrArg _ (readConfig_drop wellFormed body))⟩

theorem map_words {b : List Byte} {l : List Digest} {o n : Nat}
    (field : bytesAt b o (4 * n) = l.flatMap fun d => leBytes 4 d.toNat) (sized : l.length = n) :
    ((List.range n).map fun i => BitVec.ofNat 32 (leField b (o + 4 * i) 4)) = l :=
  map_range_eq sized fun i d at_ => by
    rw [leField, bytesAt_piece (n := 4) field (fun _ => by simp) (by rw [sized]) at_]
    simp

theorem decodeEntry_load {l : LoadRecord} {entry : List Byte} (wellFormed : l.wellFormed = true)
    (spelt : encodeEntry? (.load l) = some entry) : entry.length = 128 ∧ decodeEntry entry = .load l := by
  obtain ⟨placement, digests⟩ : l.placement.length = 16 ∧ l.digests.length = 16 := by
    simpa [LoadRecord.wellFormed] using wellFormed
  have pieces : (l.digests.flatMap fun d => leBytes 4 d.toNat).length = 64 := by
    rw [length_flatMap (n := 4) fun _ => by simp, digests]
  have asc : Ascending 128 0 [(0, [0x04#8]), (8, leBytes 6 l.stripe.toNat), (14, [l.ownIndex]), (15, [l.geometry]),
      (16, leBytes 4 l.length.toNat), (20, l.placement), (36, leBytes 2 l.digestPresent.toNat),
      (40, l.digests.flatMap fun d => leBytes 4 d.toNat)] := by simp [placement, pieces]
  obtain rfl := Option.some.inj spelt
  have sized := length_layout asc
  refine ⟨sized, ?_⟩
  have stations := bytesAt_layout_field asc (o := 20) (b := l.placement) (by simp)
  have words := bytesAt_layout_field asc (o := 40) (b := l.digests.flatMap fun d => leBytes 4 d.toNat) (by simp)
  rw [placement, ← map_byteAt (by omega)] at stations
  rw [pieces] at words
  have words := map_words (n := 16) words digests
  have byte {o : Nat} := byteAt_layout (o := o) asc
  have field {o n : Nat} := leField_layout (o := o) (n := n) asc
  have code := byte (o := 0) (by decide) (by simp [placement, pieces])
  refine (decodeEntry_ofLoad code).trans ?_
  rw [readLoad, stations, words]
  simp [byte, field, placement, pieces]

/-- Every command ring entry is read back as its command (R161, R164). -/
theorem decodeEntry_encodeEntry {i : Instr} {entry : List Byte} (wellFormed : Instr.wellFormed i = true)
    (spelt : encodeEntry? i = some entry) : entry.length = 128 ∧ decodeEntry entry = i := by
  cases i with
  | configure c => exact decodeEntry_configure wellFormed spelt
  | load l => exact decodeEntry_load wellFormed spelt
  | start =>
    have asc : Ascending 128 0 [(0, [0x02#8])] := by simp
    obtain rfl := Option.some.inj spelt
    simp [decodeEntry, length_layout asc, byteAt_layout asc]
  | halt =>
    have asc : Ascending 128 0 [(0, [0x03#8])] := by simp
    obtain rfl := Option.some.inj spelt
    simp [decodeEntry, length_layout asc, byteAt_layout asc]
  | drop stripe ownIndex =>
    have asc : Ascending 128 0 [(0, [0x05#8]), (8, leBytes 6 stripe.toNat), (14, [ownIndex])] := by simp
    obtain rfl := Option.some.inj spelt
    simp [decodeEntry, length_layout asc, byteAt_layout asc, leField_layout asc]
  | staged tag result =>
    have asc : Ascending 128 0 [(0, [0x06#8]), (8, leBytes 2 tag.toNat), (10, [result])] := by simp
    obtain rfl := Option.some.inj spelt
    simp [decodeEntry, length_layout asc, byteAt_layout asc, leField_layout asc]
  | stored tag result =>
    have asc : Ascending 128 0 [(0, [0x07#8]), (8, leBytes 2 tag.toNat), (10, [result])] := by simp
    obtain rfl := Option.some.inj spelt
    simp [decodeEntry, length_layout asc, byteAt_layout asc, leField_layout asc]
  | scanRelease rack =>
    have asc : Ascending 128 0 [(0, [0x08#8]), (8, [rack])] := by simp
    obtain rfl := Option.some.inj spelt
    simp [decodeEntry, length_layout asc, byteAt_layout asc]
  | requeue stripe =>
    have asc : Ascending 128 0 [(0, [0x09#8]), (8, leBytes 6 stripe.toNat)] := by simp
    obtain rfl := Option.some.inj spelt
    simp [decodeEntry, length_layout asc, byteAt_layout asc, leField_layout asc]
  | clearFlags mask =>
    have asc : Ascending 128 0 [(0, [0x0A#8]), (8, [mask])] := by simp
    obtain rfl := Option.some.inj spelt
    simp [decodeEntry, length_layout asc, byteAt_layout asc]
  | unknownCommandCode code =>
    have asc : Ascending 128 0 [(0, [code])] := by simp
    obtain rfl := Option.some.inj spelt
    have read : byteAt (layout 128 [(0, [code])]) 0 = code := by simp [byteAt_layout asc]
    have unlisted : listedCommandCodes.contains (byteAt (layout 128 [(0, [code])]) 0).toNat = false := by
      rw [read]
      simpa [Instr.wellFormed] using wellFormed
    exact ⟨length_layout asc, (decodeEntry_ofUnlisted unlisted).trans (congrArg _ read)⟩
  | _ => cases spelt

/-! ## Report ring entries -/

/-- The fields of a report ring entry (R161). -/
def Report.fields : Report → List (Nat × List Byte)
  | .stageRequest tag stripe position length slot =>
    [(0, [0x01#8]), (4, leBytes 2 tag.toNat), (8, leBytes 6 stripe.toNat), (14, leBytes 1 position),
      (16, leBytes 4 length), (24, leBytes 4 (slotOffset slot))]
  | .storeRequest tag stripe position length digest slot =>
    [(0, [0x02#8]), (4, leBytes 2 tag.toNat), (8, leBytes 6 stripe.toNat), (14, leBytes 1 position),
      (16, leBytes 4 length), (20, leBytes 4 digest.toNat), (24, leBytes 4 (slotOffset slot))]
  | .commandRefused code index => [(0, [0x03#8]), (1, [code.code]), (4, leBytes 2 index.toNat)]
  | .unrecoverable stripe lost =>
    [(0, [0x04#8]), (1, [0x01#8]), (8, leBytes 6 stripe.toNat), (28, leBytes 2 (maskOf lost).toNat)]
  | .repairAbandoned cause stripe => [(0, [0x04#8]), (1, [0x02#8]), (2, [cause.code]), (8, leBytes 6 stripe.toNat)]
  | .verifyFail stripe failed =>
    [(0, [0x04#8]), (1, [0x03#8]), (8, leBytes 6 stripe.toNat), (28, leBytes 2 (maskOf failed).toNat)]
  | .holdingsFull stripe position =>
    [(0, [0x04#8]), (1, [0x04#8]), (8, leBytes 6 stripe.toNat), (14, leBytes 1 position)]

theorem slotOffset_mod {slot : Nat} (small : slot < 992) :
    slotOffset slot % 4294967296 = (32 + slot) * 1048576 := by
  have bound : (32 + slot) * 1048576 < 4294967296 := by omega
  exact Nat.mod_eq_of_lt bound

theorem Report.bytes_eq (r : Report) : r.bytes = layout 64 r.fields := by cases r <;> rfl

theorem Report.ascending (r : Report) : Ascending 64 0 r.fields := by cases r <;> simp [Report.fields]

/-- No field names byte 3, byte 15 or a byte from 30 on (R161). -/
theorem Report.unnamed (r : Report) {k : Nat} (small : k < 64) (gap : k = 3 ∨ k = 15 ∨ 30 ≤ k) :
    leField r.bytes k 1 = 0 := by
  rw [Report.bytes_eq, leField, bytesAt_layout_gap r.ascending small, leNat_replicate]
  cases r <;> simp [Report.fields] <;> omega

theorem readReport_bytes {r : Report} (fits : r.fits) : readReport r.bytes = r.entry := by
  have field {o n : Nat} := leField_layout (o := o) (n := n) r.ascending
  rw [Report.bytes_eq]
  cases r with
  | stageRequest tag stripe position length slot =>
    obtain ⟨position_, length_, slot_⟩ := fits
    simp only [Report.fields] at field ⊢
    simp [readReport, Report.entry, field, slotOffset_mod slot_, Nat.mod_eq_of_lt (Nat.lt_of_le_of_lt position_ (by decide : 15 < 256)),
      Nat.mod_eq_of_lt (Nat.lt_of_le_of_lt length_ (by decide : 1048576 < 4294967296))]
  | storeRequest tag stripe position length digest slot =>
    obtain ⟨position_, length_, slot_⟩ := fits
    simp only [Report.fields] at field ⊢
    simp [readReport, Report.entry, field, slotOffset_mod slot_, Nat.mod_eq_of_lt (Nat.lt_of_le_of_lt position_ (by decide : 15 < 256)),
      Nat.mod_eq_of_lt (Nat.lt_of_le_of_lt length_ (by decide : 1048576 < 4294967296))]
  | holdingsFull stripe position =>
    have position_ : position ≤ 15 := fits
    simp only [Report.fields] at field ⊢
    simp [readReport, Report.entry, field, Nat.mod_eq_of_lt (Nat.lt_of_le_of_lt position_ (by decide : 15 < 256))]
  | _ =>
    simp only [Report.fields] at field ⊢
    simp [readReport, Report.entry, field]

/-! ## Record images -/

/-- The fields of a record's image (R161). -/
def HoldingRecord.fields (r : HoldingRecord) (now : Nat) : List (Nat × List Byte) :=
  [(0, [0x01#8]), (1, [r.standing.code]), (2, leBytes 1 r.ownIndex), (3, leBytes 1 r.geometry),
    (4, leBytes 6 r.stripe.toNat), (12, leBytes 4 r.length), (16, r.placement.map (BitVec.ofNat 8)),
    (32, leBytes 2 (maskOf r.lost).toNat),
    (34, leBytes 2 (maskOf ((List.range r.digests.length).filter fun i => ((r.digests[i]?).join).isSome)).toNat),
    (36, r.digests.flatMap fun d => leBytes 4 ((d.map BitVec.toNat).getD 0))] ++ outsideFields now r.outside

section
variable {r : HoldingRecord} {now : Nat} (fits : r.Fits now)
include fits

theorem HoldingRecord.ascending : Ascending 256 0 (r.fields now) := by
  have placement := fits.placement.1
  have digests : (r.digests.flatMap fun d => leBytes 4 ((d.map BitVec.toNat).getD 0)).length ≤ 64 := by
    have few := fits.digests
    rw [length_flatMap (n := 4) fun _ => by simp]
    omega
  unfold HoldingRecord.fields
  generalize (r.digests.flatMap fun d => leBytes 4 ((d.map BitVec.toNat).getD 0)) = words at digests
  cases r.outside with
  | none => simp [outsideFields]; omega
  | some o => simp [outsideFields]; omega

theorem HoldingRecord.image_eq : r.image now = layout 256 (r.fields now) :=
  List.take_of_length_le (Nat.le_of_eq (length_layout (HoldingRecord.ascending fits)))

end

/-- Where the fields of an image stand (R161). -/
theorem HoldingRecord.extent (r : HoldingRecord) (now : Nat) {f : Nat × List Byte} (member : f ∈ r.fields now) :
    f.1 + f.2.length ≤ 10 ∨ (12 ≤ f.1 ∧ f.1 + f.2.length ≤ 16) ∨ (f.1 = 16 ∧ f.2.length = r.placement.length)
      ∨ (32 ≤ f.1 ∧ f.1 + f.2.length ≤ 36) ∨ (f.1 = 36 ∧ f.2.length = 4 * r.digests.length)
      ∨ (r.outside ≠ none
        ∧ ((100 ≤ f.1 ∧ f.1 + f.2.length ≤ 105) ∨ (108 ≤ f.1 ∧ f.1 + f.2.length ≤ 112))) := by
  have digests : (r.digests.flatMap fun d => leBytes 4 ((d.map BitVec.toNat).getD 0)).length = 4 * r.digests.length :=
    length_flatMap (fun _ => by simp) _
  rw [HoldingRecord.fields, List.mem_append] at member
  rcases member with member | member
  · generalize (r.digests.flatMap fun d => leBytes 4 ((d.map BitVec.toNat).getD 0)) = words at digests member
    simp only [List.mem_cons, List.not_mem_nil, or_false] at member
    rcases member with rfl | rfl | rfl | rfl | rfl | rfl | rfl | rfl | rfl | rfl <;> simp [digests]
  · cases outside : r.outside with
    | none => simp [outside, outsideFields] at member
    | some o =>
      simp only [outside, outsideFields, List.mem_cons, List.not_mem_nil, or_false] at member
      rcases member with rfl | rfl | rfl | rfl <;> simp

section
variable {r : HoldingRecord} {now : Nat} (fits : r.Fits now)
include fits

theorem HoldingRecord.read_placement {i : Nat} (small : i < 16) :
    leField (layout 256 (r.fields now)) (16 + i) 1 = (r.placement[i]?).getD 0 := by
  have asc := HoldingRecord.ascending fits
  obtain ⟨sized, stations⟩ := fits.placement
  by_cases inside : i < r.placement.length
  · rw [leField_inside asc (b := r.placement.map (BitVec.ofNat 8)) (by simp [HoldingRecord.fields])
      (by rw [List.length_map]; exact inside), leField_one, byteAt, List.getElem?_map,
      List.getElem?_eq_getElem inside]
    have station := stations _ (List.getElem_mem inside)
    simp
    omega
  · rw [List.getElem?_eq_none (Nat.not_lt.1 inside)]
    refine leField_gap asc (by omega) fun f member => ?_
    have := r.extent now member
    omega

theorem HoldingRecord.read_digest {i : Nat} (small : i < 16) :
    leField (layout 256 (r.fields now)) (36 + 4 * i) 4 = (((r.digests[i]?).join).map BitVec.toNat).getD 0 := by
  have asc := HoldingRecord.ascending fits
  have sized := fits.digests
  have placement := fits.placement.1
  have words : (r.digests.flatMap fun d => leBytes 4 ((d.map BitVec.toNat).getD 0)).length = 4 * r.digests.length :=
    length_flatMap (fun _ => by simp) _
  cases at_ : r.digests[i]? with
  | none =>
    have outside := List.getElem?_eq_none_iff.1 at_
    refine leField_gap asc (by omega) fun f member => ?_
    have := r.extent now member
    omega
  | some d =>
    obtain ⟨inside, -⟩ := List.getElem?_eq_some_iff.1 at_
    rw [leField_inside asc (b := r.digests.flatMap fun d => leBytes 4 ((d.map BitVec.toNat).getD 0))
      (by simp [HoldingRecord.fields]) (by omega), leField, bytesAt_flatMap (fun _ => by simp) _ at_, leNat_leBytes]
    cases d <;> simp

theorem HoldingRecord.read_mask {o : Nat} {positions : Positions} {i : Nat} (small : i < 16)
    (member : (o, leBytes 2 (maskOf positions).toNat) ∈ r.fields now) :
    (leField (layout 256 (r.fields now)) o 2).testBit i = true ↔ i ∈ positions := by
  rw [leField_of_mem (HoldingRecord.ascending fits) member, show 256 ^ 2 = 65536 from rfl, toNat_mod_16,
    testBit_maskOf positions small]

theorem HoldingRecord.read_outside {o : HeardClaim} (outside : r.outside = some o) :
    leField (layout 256 (r.fields now)) 100 1 = 1 + (if o.settled then 2 else 0) + (if o.rank.isSome then 4 else 0)
      ∧ leField (layout 256 (r.fields now)) 101 1 = o.station
      ∧ leField (layout 256 (r.fields now)) 102 3 = (o.rank.map BitVec.toNat).getD 0
      ∧ leField (layout 256 (r.fields now)) 108 4 = (now - o.heard) / 1000 := by
  have asc := HoldingRecord.ascending fits
  obtain ⟨station, age⟩ := fits.outside o outside
  have last : ∀ f ∈ outsideFields now (some o), f ∈ r.fields now := fun f member =>
    List.mem_append_right _ (outside ▸ member)
  refine ⟨?_, ?_, ?_, ?_⟩
  · rw [leField_one, byteAt_of_mem asc (last (100, _) List.mem_cons_self)]
    cases o.settled <;> cases o.rank.isSome <;> rfl
  · rw [leField_of_mem asc (v := o.station) (last _ (by simp [outsideFields]))]
    omega
  · rw [leField_of_mem asc (v := (o.rank.map BitVec.toNat).getD 0) (last _ (by simp [outsideFields]))]
    cases o.rank <;> simp
  · rw [leField_of_mem asc (v := (now - o.heard) / 1000) (last _ (by simp [outsideFields]))]
    omega

theorem HoldingRecord.readBack_image : r.ReadBack now (r.image now) := by
  have asc := HoldingRecord.ascending fits
  have sized := HoldingRecord.length_image r now
  rw [HoldingRecord.image_eq fits] at sized ⊢
  have few := fits.digests
  have stations := fits.placement.1
  have gap {o n : Nat} (room : o + n ≤ 256) := leField_gap asc room
  exact {
    size := sized
    valid := by rw [leField_one, byteAt_of_mem asc (b := 0x01#8) (by simp [HoldingRecord.fields])]; rfl
    standing := by rw [leField_one, byteAt_of_mem asc (b := r.standing.code) (by simp [HoldingRecord.fields])]
    ownIndex := by
      have small := fits.ownIndex
      rw [leField_of_mem asc (v := r.ownIndex) (by simp [HoldingRecord.fields])]
      omega
    geometry := by
      have small := fits.geometry
      rw [leField_of_mem asc (v := r.geometry) (by simp [HoldingRecord.fields])]
      omega
    stripe := by
      rw [leField_of_mem asc (v := r.stripe.toNat) (by simp [HoldingRecord.fields])]
      simp
    length := by
      have small := fits.length
      rw [leField_of_mem asc (v := r.length) (by simp [HoldingRecord.fields])]
      omega
    placement := fun i small => HoldingRecord.read_placement fits small
    lost := fun i small => HoldingRecord.read_mask fits small (by simp [HoldingRecord.fields])
    present := fun i small => by
      rw [HoldingRecord.read_mask fits small
        (positions := (List.range r.digests.length).filter fun i => ((r.digests[i]?).join).isSome)
        (by simp [HoldingRecord.fields]), List.mem_filter, List.mem_range]
      cases at_ : r.digests[i]? with
      | none => simp
      | some d =>
        obtain ⟨inside, -⟩ := List.getElem?_eq_some_iff.1 at_
        cases d <;> simp [inside]
    digests := fun i small => HoldingRecord.read_digest fits small
    noOutside := fun none_ => by
      have apart {o n : Nat} (later : 100 ≤ o) : ∀ f ∈ r.fields now, f.1 + f.2.length ≤ o ∨ o + n ≤ f.1 :=
        fun f member => by
          have := r.extent now member
          simp only [none_, ne_eq, not_true_eq_false, false_and, or_false] at this
          omega
      exact ⟨gap (by decide) (apart (by decide)), gap (by decide) (apart (by decide)), gap (by decide) (apart (by decide)),
        gap (by decide) (apart (by decide))⟩
    outside := fun o some_ => HoldingRecord.read_outside fits some_
    unnamed := fun i small place => gap (by omega) fun f member => by
      have := r.extent now member
      omega }

end

/-- Settles O60. -/
theorem ringEntriesAreReadBack : Obligations.RingEntriesAreReadBack :=
  ⟨fun i wellFormed => ⟨(ofRing_iff i).1, fun entry spelt =>
      ⟨(ofRing_iff i).2 ⟨entry, spelt⟩, decodeEntry_encodeEntry wellFormed spelt⟩⟩,
    fun r fits => ⟨Report.length_bytes r, readReport_bytes fits, fun _ => Report.unnamed r⟩,
    fun positions _ => testBit_maskOf positions, fun _ _ fits => HoldingRecord.readBack_image fits⟩

end Sys2Proof.Machine

/-! Transmitted frames are read back as the arrivals they stand for (R155, R156, R160, R161). -/

namespace Sys2Proof.Machine

section
variable {size : Nat} {fields : List (Nat × List Byte)} (asc : Ascending size 0 fields)
include asc

theorem byteAt_layout_append (pad : List Byte) {o : Nat} (room : o < size) :
    byteAt (layout size fields ++ pad) o = byteAt (layout size fields) o :=
  byteAt_append pad ((length_layout asc).symm ▸ room)

theorem bytesAt_layout_append (pad : List Byte) {o n : Nat} (room : o + n ≤ size) :
    bytesAt (layout size fields ++ pad) o n = bytesAt (layout size fields) o n :=
  bytesAt_append pad ((length_layout asc).symm ▸ room)

end

/-! ## The body (R161) -/

/-- The bytes of a CHUNK's body: its 8 bytes of fields, and then the data. -/
theorem chunk_ascending (tag : Tag) (c : Byte) (data : List Byte) :
    Ascending 8 0 [(0, beBytes 2 tag.toNat), (2, [c]), (4, beBytes 2 data.length)] := by simp

theorem bytesAt_chunk_data (tag : Tag) (c : Byte) (data pad : List Byte) :
    bytesAt ((FrameBody.chunk tag c data).bytes ++ pad) 8 data.length = data := by
  have sized := length_layout (chunk_ascending tag c data)
  rw [bytesAt, FrameBody.bytes, List.append_assoc, List.drop_append_of_le_length (Nat.le_of_eq sized.symm),
    List.drop_of_length_le (Nat.le_of_eq sized), List.nil_append, List.take_left]

theorem parseBody_bytes {body : FrameBody} (sized : body.lengthOk = true) (pad : List Byte) :
    parseBody? body.code (body.bytes ++ pad) = some body := by
  cases body with
  | beacon rack status contexts =>
    have asc : Ascending 4 0 [(0, [rack]), (1, [status]), (2, [contexts])] := by simp
    simp [FrameBody.code, FrameBody.bytes, parseBody?, byteAt_layout_append asc, byteAt_layout asc]
  | rackdown rack =>
    have asc : Ascending 4 0 [(0, [rack])] := by simp
    simp [FrameBody.code, FrameBody.bytes, parseBody?, byteAt_layout_append asc, byteAt_layout asc]
  | claim stripe rank flags lostMask =>
    have asc : Ascending 12 0 [(0, beBytes 6 stripe.toNat), (6, beBytes 3 rank.toNat), (9, [flags]),
      (10, beBytes 2 lostMask.toNat)] := by simp
    simp [FrameBody.code, FrameBody.bytes, parseBody?, byteAt_layout_append asc, byteAt_layout asc,
      bytesAt_layout_append asc, bytesAt_layout asc]
  | withdraw stripe reason winner rebuiltMask =>
    have asc : Ascending 12 0 [(0, beBytes 6 stripe.toNat), (6, [reason]), (7, [winner]),
      (8, beBytes 2 rebuiltMask.toNat)] := by simp
    simp [FrameBody.code, FrameBody.bytes, parseBody?, byteAt_layout_append asc, byteAt_layout asc,
      bytesAt_layout_append asc, bytesAt_layout asc]
  | fetchOpen stripe position tag =>
    have asc : Ascending 12 0 [(0, beBytes 6 stripe.toNat), (6, [position]), (8, beBytes 2 tag.toNat)] := by simp
    simp [FrameBody.code, FrameBody.bytes, parseBody?, byteAt_layout_append asc, byteAt_layout asc,
      bytesAt_layout_append asc, bytesAt_layout asc]
  | ready tag digestPresent length digest =>
    have asc : Ascending 12 0 [(0, beBytes 2 tag.toNat), (2, [digestPresent]), (4, beBytes 4 length.toNat),
      (8, beBytes 4 digest.toNat)] := by simp
    simp [FrameBody.code, FrameBody.bytes, parseBody?, byteAt_layout_append asc, byteAt_layout asc,
      bytesAt_layout_append asc, bytesAt_layout asc]
  | wait tag hint busy =>
    have asc : Ascending 4 0 [(0, beBytes 2 tag.toNat), (2, [hint]), (3, [busy])] := by simp
    simp [FrameBody.code, FrameBody.bytes, parseBody?, byteAt_layout_append asc, byteAt_layout asc,
      bytesAt_layout_append asc, bytesAt_layout asc]
  | refuse tag reason =>
    have asc : Ascending 4 0 [(0, beBytes 2 tag.toNat), (2, [reason])] := by simp
    simp [FrameBody.code, FrameBody.bytes, parseBody?, byteAt_layout_append asc, byteAt_layout asc,
      bytesAt_layout_append asc, bytesAt_layout asc]
  | pull tag c =>
    have asc : Ascending 4 0 [(0, beBytes 2 tag.toNat), (2, [c])] := by simp
    simp [FrameBody.code, FrameBody.bytes, parseBody?, byteAt_layout_append asc, byteAt_layout asc,
      bytesAt_layout_append asc, bytesAt_layout asc]
  | chunk tag c data =>
    have asc := chunk_ascending tag c data
    obtain ⟨-, most⟩ : 1 ≤ data.length ∧ data.length ≤ 8192 := by simpa [FrameBody.lengthOk] using sized
    have length : beNat (bytesAt ((FrameBody.chunk tag c data).bytes ++ pad) 4 2) = data.length := by
      simp [FrameBody.bytes, bytesAt_layout_append asc, bytesAt_layout asc]
      omega
    have fields : parseBody? 0x0A ((FrameBody.chunk tag c data).bytes ++ pad) = some (.chunk
        (BitVec.ofNat 16 (beNat (bytesAt ((FrameBody.chunk tag c data).bytes ++ pad) 0 2)))
        (byteAt ((FrameBody.chunk tag c data).bytes ++ pad) 2)
        (bytesAt ((FrameBody.chunk tag c data).bytes ++ pad) 8
          (beNat (bytesAt ((FrameBody.chunk tag c data).bytes ++ pad) 4 2)))) := rfl
    refine fields.trans ?_
    rw [length, bytesAt_chunk_data]
    simp [FrameBody.bytes, byteAt_layout_append asc, byteAt_layout asc, bytesAt_layout_append asc, bytesAt_layout asc]
  | release tag =>
    have asc : Ascending 4 0 [(0, beBytes 2 tag.toNat)] := by simp
    simp [FrameBody.code, FrameBody.bytes, parseBody?, bytesAt_layout_append asc, bytesAt_layout asc]

/-- The length of a body (R160). -/
theorem FrameBody.length_bytes (body : FrameBody) :
    fixedBodyLength? body.code = some body.bytes.length
      ∨ ∃ tag c data, body = .chunk tag c data ∧ body.bytes.length = 8 + data.length := by
  cases body with
  | chunk tag c data =>
    exact .inr ⟨tag, c, data, rfl, by rw [FrameBody.bytes, List.length_append, length_layout (chunk_ascending tag c data)]⟩
  | _ => exact .inl (by simp [FrameBody.code, FrameBody.bytes, fixedBodyLength?, layout, overlay])

/-! ## The header (R155, R156) -/

section
variable (sender target : Byte) (epoch : Epoch) (body : FrameBody)

theorem header_ascending : Ascending 16 0 [(0, [0x01#8]), (1, [body.code]), (2, [sender]), (3, [target]),
    (4, beBytes 2 epoch.toNat), (8, beBytes 2 body.bytes.length)] := by simp

theorem framePayload_eq (pad : List Byte) : framePayload sender target epoch body ++ pad =
    layout 16 [(0, [0x01#8]), (1, [body.code]), (2, [sender]), (3, [target]), (4, beBytes 2 epoch.toNat),
      (8, beBytes 2 body.bytes.length)] ++ (body.bytes ++ pad) := List.append_assoc _ _ _

theorem drop_framePayload (pad : List Byte) :
    (framePayload sender target epoch body ++ pad).drop 16 = body.bytes ++ pad := by
  have sized := length_layout (header_ascending sender target epoch body)
  rw [framePayload_eq, List.drop_append_of_le_length (Nat.le_of_eq sized.symm), List.drop_of_length_le (Nat.le_of_eq sized),
    List.nil_append]

theorem length_framePayload (pad : List Byte) :
    (framePayload sender target epoch body ++ pad).length = 16 + body.bytes.length + pad.length := by
  rw [framePayload_eq, List.length_append, List.length_append, length_layout (header_ascending sender target epoch body)]
  omega

theorem bytesAt_framePayload (pad : List Byte) {o n : Nat} (room : o + n ≤ 16)
    (apart : o = 6 ∧ n = 2 ∨ o = 10 ∧ n = 6) :
    bytesAt (framePayload sender target epoch body ++ pad) o n = List.replicate n 0 := by
  have asc := header_ascending sender target epoch body
  rw [framePayload_eq, bytesAt_layout_append asc _ room, bytesAt_layout_gap asc room]
  simp
  omega

theorem code_framePayload (pad : List Byte) :
    byteAt (framePayload sender target epoch body ++ pad) 0 = 0x01
      ∧ byteAt (framePayload sender target epoch body ++ pad) 1 = body.code := by
  have asc := header_ascending sender target epoch body
  simp [framePayload_eq, byteAt_layout_append asc, byteAt_layout asc]

/-- The header of a frame is read as it was written. -/
theorem parseHeader_framePayload (destination source : Mac) (etherType : BitVec 16) (pad : List Byte) :
    parseHeader { destination := destination, source := source, etherType := etherType,
                  payload := framePayload sender target epoch body ++ pad }
      = { destination := destination, source := source, etherType := etherType, sender := sender, target := target,
          epoch := epoch } := by
  have asc := header_ascending sender target epoch body
  simp [parseHeader, framePayload_eq, byteAt_layout_append asc, byteAt_layout asc, bytesAt_layout_append asc,
    bytesAt_layout asc]

theorem versionOk_framePayload (pad : List Byte) : versionOk (framePayload sender target epoch body ++ pad) = true := by
  obtain ⟨version, -⟩ := code_framePayload sender target epoch body pad
  have flags := bytesAt_framePayload sender target epoch body pad (o := 6) (n := 2) (by decide) (by decide)
  have rest := bytesAt_framePayload sender target epoch body pad (o := 10) (n := 6) (by decide) (by decide)
  have long := length_framePayload sender target epoch body pad
  rw [versionOk, version, flags, rest, long]
  simp
  omega

theorem kindOk_framePayload (pad : List Byte) : kindOk (framePayload sender target epoch body ++ pad) = true := by
  obtain ⟨-, code⟩ := code_framePayload sender target epoch body pad
  rw [kindOk, code]
  rcases body.length_bytes with fixed | ⟨tag, c, data, rfl, -⟩
  · rw [fixed]
    rfl
  · rfl

variable {body} (sized : body.lengthOk = true)
include sized

theorem FrameBody.bytes_small : body.bytes.length ≤ 8200 := by
  rcases body.length_bytes with fixed | ⟨tag, c, data, rfl, length⟩
  · unfold fixedBodyLength? at fixed
    split at fixed <;> simp_all
    all_goals omega
  · have most : 1 ≤ data.length ∧ data.length ≤ 8192 := by simpa [FrameBody.lengthOk] using sized
    omega

theorem lengthOk_framePayload {pad : List Byte}
    (padded : pad = [] ∨ (body.bytes.length + 16 < 46 ∧ pad.length = 46 - (body.bytes.length + 16))) :
    lengthOk (framePayload sender target epoch body ++ pad) = true := by
  have asc := header_ascending sender target epoch body
  have small := FrameBody.bytes_small sized
  obtain ⟨-, code⟩ := code_framePayload sender target epoch body pad
  have long := length_framePayload sender target epoch body pad
  have declared : beNat (bytesAt (framePayload sender target epoch body ++ pad) 8 2) = body.bytes.length := by
    simp [framePayload_eq, bytesAt_layout_append asc, bytesAt_layout asc]
    omega
  have whole : body.bytes.length + 16 = (framePayload sender target epoch body ++ pad).length
      ∨ (body.bytes.length + 16 < ethernetMinimum
        ∧ (framePayload sender target epoch body ++ pad).length = ethernetMinimum) := by
    rw [long]
    rcases padded with rfl | ⟨short, length⟩
    · exact .inl (by simp; omega)
    · exact .inr ⟨short, by rw [length]; unfold ethernetMinimum; omega⟩
  rw [lengthOk, declared, code]
  rcases body.length_bytes with fixed | ⟨tag, c, data, rfl, length⟩
  · rw [fixed]
    simpa using whole
  · have size : 1 ≤ data.length ∧ data.length ≤ 8192 := by simpa [FrameBody.lengthOk] using sized
    have inner : beNat (bytesAt (framePayload sender target epoch (.chunk tag c data) ++ pad) 20 2) = data.length := by
      have asc := chunk_ascending tag c data
      have part : bytesAt (framePayload sender target epoch (.chunk tag c data) ++ pad) 20 2 =
          bytesAt ((framePayload sender target epoch (.chunk tag c data) ++ pad).drop 16) 4 2 := by
        rw [bytesAt, bytesAt, List.drop_drop]
      rw [part, drop_framePayload]
      simp [FrameBody.bytes, bytesAt_layout_append asc, bytesAt_layout asc]
      omega
    rw [inner]
    have code : fixedBodyLength? (FrameBody.chunk tag c data).code = none := rfl
    rw [code]
    simpa [length, size] using whole

/-- A frame as the part puts it on the wire, padded or not, is read back. -/
theorem decodeFrame_framePayload (destination source : Mac) (etherType : BitVec 16) {pad : List Byte}
    (padded : pad = [] ∨ (body.bytes.length + 16 < 46 ∧ pad.length = 46 - (body.bytes.length + 16))) :
    decodeFrame { destination := destination, source := source, etherType := etherType,
                  payload := framePayload sender target epoch body ++ pad }
      = body.arrival { destination := destination, source := source, etherType := etherType, sender := sender,
                       target := target, epoch := epoch } := by
  obtain ⟨-, code⟩ := code_framePayload sender target epoch body pad
  rw [decodeFrame, parseHeader_framePayload]
  dsimp only
  rw [versionOk_framePayload, kindOk_framePayload, lengthOk_framePayload sender target epoch sized padded, code,
    drop_framePayload, parseBody_bytes sized]
  rfl

end

/-- Settles O59. -/
theorem framesAreReadBack : Obligations.FramesAreReadBack := by
  intro destination source etherType sender target epoch body sized
  refine ⟨?_, decodeFrame_framePayload sender target epoch sized destination source etherType ?_⟩
  · have plain := decodeFrame_framePayload sender target epoch sized destination source etherType (.inl rfl)
    rwa [List.append_nil] at plain
  · have long := length_framePayload sender target epoch body []
    rw [List.append_nil, List.length_nil] at long
    rw [List.length_replicate, long, List.replicate_eq_nil_iff]
    omega

end Sys2Proof.Machine

/-! The status block: written whole, and read back by its table (R161, R170). -/

namespace Sys2Proof.Machine

/-! ## The fields of the block (R161) -/

theorem ConfigRecord.length_bytes_always (c : ConfigRecord) : (ConfigRecord.bytes c).length = 104 := by
  refine length_layout ?_
  have pairs : ((c.geometries.take 8).flatMap fun g => [g.1, g.2]).length = 2 * (c.geometries.take 8).length :=
    length_flatMap (n := 2) (f := fun g : Byte × Byte => [g.1, g.2]) (fun _ => rfl) _
  have few := List.length_take_le 8 c.geometries
  have map := List.length_take_le 64 c.memberMap
  generalize ((c.geometries.take 8).flatMap fun g => [g.1, g.2]) = codes at pairs
  generalize c.memberMap.take 64 = members at map
  simp
  omega

theorem Part.length_stationBytes (p : Part) (station : Nat) : (p.stationBytes station).length = 4 := by
  unfold Part.stationBytes
  split <;> rfl

/-- The fields of the status block under an update count (R161). -/
def Part.statusFields (p : Part) (count : BitVec 32) : List (Nat × List Byte) :=
  [(0, leBytes 4 count.toNat), (4, [p.hlk.phase.code]), (5, [flagByteOf p.cbe.warning]),
    (6, leBytes 2 p.prs.ownEpoch.toNat), (8, leBytes 2 p.smc.strap.mebibytes), (12, leBytes 4 p.hlk.commandConsume.toNat),
    (16, leBytes 4 p.hlk.reportProduce.toNat), (20, leBytes 4 p.hdt.length), (24, leBytes 2 p.rq.length),
    (26, leBytes 2 p.clt.entries.length), (28, leBytes 1 p.ctx.contexts.length),
    (29, leBytes 1 (p.ftu.filter fun l => l.2.holder.isSome).length), (30, leBytes 2 p.svu.entries.length),
    (32, leBytes 2 (p.pool - p.smc.slots.length)), (64, (p.config.map ConfigRecord.bytes).getD []),
    (168, p.sgp.drops.flatMap fun d => leBytes 4 d.toNat), (208, (p.prs.racks.map fun r => r.2.state).map RackState.code),
    (256, (List.range 64).flatMap p.stationBytes), (572, leBytes 4 count.toNat)]

theorem Part.statusBytes_eq (p : Part) (count : BitVec 32) : p.statusBytes count = layout 576 (p.statusFields count) := rfl

section
variable {p : Part} (count : BitVec 32)

theorem Part.length_configField (p : Part) : ((p.config.map ConfigRecord.bytes).getD []).length ≤ 104
    ∧ (p.config = none → ((p.config.map ConfigRecord.bytes).getD []).length = 0) := by
  cases p.config with
  | none => simp
  | some c => simp [ConfigRecord.length_bytes_always]

theorem Part.length_dropField (drops : p.sgp.drops.length = 10) :
    (p.sgp.drops.flatMap fun d => leBytes 4 d.toNat).length = 40 := by
  rw [length_flatMap (n := 4) fun _ => by simp, drops]

theorem Part.length_stationField (p : Part) : ((List.range 64).flatMap p.stationBytes).length = 256 := by
  rw [length_flatMap (Part.length_stationBytes p), List.length_range]

variable (drops : p.sgp.drops.length = 10) (racks : p.prs.racks.length ≤ 16)
include drops racks

theorem Part.statusFields_ascending : Ascending 576 0 (p.statusFields count) := by
  have config := (Part.length_configField p).1
  have counts := Part.length_dropField drops
  have stations := Part.length_stationField p
  unfold Part.statusFields
  generalize (p.config.map ConfigRecord.bytes).getD [] = record at config
  generalize (p.sgp.drops.flatMap fun d => leBytes 4 d.toNat) = words at counts
  generalize (List.range 64).flatMap p.stationBytes = members at stations
  simp [counts, stations]
  omega

omit racks in
/-- Where the fields of the status block stand (R161). -/
theorem Part.statusFields_extent {f : Nat × List Byte} (member : f ∈ p.statusFields count) :
    f.1 + f.2.length ≤ 10 ∨ (12 ≤ f.1 ∧ f.1 + f.2.length ≤ 34)
      ∨ (f.1 = 64 ∧ f.2.length ≤ 104 ∧ (p.config = none → f.2.length = 0)) ∨ (f.1 = 168 ∧ f.2.length = 40)
      ∨ (f.1 = 208 ∧ f.2.length = p.prs.racks.length) ∨ (f.1 = 256 ∧ f.2.length = 256 ∧ f.2 = (List.range 64).flatMap p.stationBytes)
      ∨ (572 ≤ f.1 ∧ f.1 + f.2.length ≤ 576) := by
  obtain ⟨config, absent⟩ := Part.length_configField p
  have counts := Part.length_dropField drops
  have stations := Part.length_stationField p
  unfold Part.statusFields at member
  generalize (p.config.map ConfigRecord.bytes).getD [] = record at config absent member
  generalize (p.sgp.drops.flatMap fun d => leBytes 4 d.toNat) = words at counts member
  generalize (List.range 64).flatMap p.stationBytes = members at stations member ⊢
  simp only [List.mem_cons, List.not_mem_nil, or_false] at member
  rcases member with rfl | rfl | rfl | rfl | rfl | rfl | rfl | rfl | rfl | rfl | rfl | rfl | rfl | rfl | rfl | rfl | rfl |
    rfl | rfl <;> simp_all

end

/-! ## The status block read by its table (R161) -/

theorem Part.rackState_listed {p : Part} (numbers : p.prs.racks.numbers = List.range 16) {r : Nat} (small : r < 16) :
    ∃ rack, p.prs.racks[r]? = some (r, rack) ∧ p.rackState r = rack.state := by
  have length : p.prs.racks.length = 16 := by
    have sized := congrArg List.length numbers
    simpa [Table.numbers] using sized
  have at_ : p.prs.racks[r]? = some p.prs.racks[r] := List.getElem?_eq_getElem (by omega)
  have number : (p.prs.racks[r]).1 = r := by
    have named := congrArg (·[r]?) numbers
    simp only [Table.numbers, List.getElem?_map, at_, List.getElem?_range small, Option.map_some,
      Option.some.injEq] at named
    exact named
  have rising : p.prs.racks.rising = true := by
    rw [Table.rising_iff]
    change (Table.numbers p.prs.racks).Pairwise _
    rw [numbers]
    exact List.pairwise_lt_range
  refine ⟨(p.prs.racks[r]).2, at_.trans (congrArg some (Prod.ext number rfl)), ?_⟩
  have row : p.prs.racks.row? (p.prs.racks[r]).1 = some (p.prs.racks[r]).2 :=
    Table.row?_of_mem rising (List.mem_of_getElem? at_)
  rw [number] at row
  rw [Part.rackState, row]
  rfl

section
variable {p : Part} (count : BitVec 32) (drops : p.sgp.drops.length = 10) (racks : p.prs.racks.length ≤ 16)
include drops racks

theorem Part.status_size : (p.statusBytes count).length = 576 :=
  length_layout (Part.statusFields_ascending count drops racks)

theorem Part.status_counts : leField (p.statusBytes count) 0 4 = count.toNat
    ∧ leField (p.statusBytes count) 572 4 = count.toNat := by
  have asc := Part.statusFields_ascending count drops racks
  rw [Part.statusBytes_eq, leField_of_mem asc (o := 0) (v := count.toNat) (by simp [Part.statusFields]),
    leField_of_mem asc (o := 572) (v := count.toNat) (by simp [Part.statusFields])]
  simp

/-- A byte of a station in the status block. -/
theorem Part.status_station {s j : Nat} (small : s < 64) (inside : j < 4) :
    leField (p.statusBytes count) (256 + j + 4 * s) 1 = (byteAt (p.stationBytes s) j).toNat := by
  have asc := Part.statusFields_ascending count drops racks
  have sized := Part.length_stationField p
  have piece := bytesAt_flatMap (Part.length_stationBytes p) (List.range 64) (List.getElem?_range small)
  rw [leField_one, Part.statusBytes_eq, show 256 + j + 4 * s = 256 + (4 * s + j) by omega,
    byteAt_inside asc (b := (List.range 64).flatMap p.stationBytes) (by simp [Part.statusFields]) (by omega),
    ← byteAt_bytesAt _ (4 * s) inside, piece]

/-- The four bytes of a member (R161; the own station's status is that of its part, log 32). -/
theorem Part.status_member {s : Nat} {q : Peer} (small : s < 64) (peer : p.peer? s = some q) :
    leField (p.statusBytes count) (256 + 4 * s) 1 = q.state.code.toNat
      ∧ (q.state ≠ .self →
        leField (p.statusBytes count) (257 + 4 * s) 1 = (q.status.map fun a => a.code.toNat).getD 0)
      ∧ (q.state = .self → leField (p.statusBytes count) (257 + 4 * s) 1 =
        if p.hlk.phase = .running then 1 else if p.hlk.phase = .halted then 2 else 0)
      ∧ (q.load = none → leField (p.statusBytes count) (258 + 4 * s) 1 = 255)
      ∧ ∀ load, q.load = some load → load ≤ 255 → leField (p.statusBytes count) (258 + 4 * s) 1 = load := by
  have station {j : Nat} := Part.status_station count drops racks (s := s) (j := j) small
  have spelt : p.stationBytes s = [q.state.code,
      ((if q.state = .self then p.ownStatus? else q.status).map PeerStatus.code).getD 0x00,
      (q.load.map (BitVec.ofNat 8)).getD 0xFF, 0x00] := by rw [Part.stationBytes, peer]
  rw [spelt] at station
  refine ⟨station (j := 0) (by decide), fun other => ?_, fun self => ?_, fun none_ => ?_, fun load some_ few => ?_⟩
  · refine (station (j := 1) (by decide)).trans ?_
    rw [if_neg other]
    cases q.status <;> rfl
  · refine (station (j := 1) (by decide)).trans ?_
    rw [if_pos self, Part.ownStatus?]
    cases p.hlk.phase <;> rfl
  · refine (station (j := 2) (by decide)).trans ?_
    rw [none_]
    rfl
  · refine (station (j := 2) (by decide)).trans ?_
    rw [some_]
    change (BitVec.ofNat 8 load).toNat = load
    rw [BitVec.toNat_ofNat]
    omega

/-- The four bytes of a station that is no member (log 11). -/
theorem Part.status_other {s : Nat} (small : s < 64) (peer : p.peer? s = none) :
    leField (p.statusBytes count) (256 + 4 * s) 1 = 0 ∧ leField (p.statusBytes count) (257 + 4 * s) 1 = 0
      ∧ leField (p.statusBytes count) (258 + 4 * s) 1 = 255 := by
  have station {j : Nat} := Part.status_station count drops racks (s := s) (j := j) small
  have spelt : p.stationBytes s = [0x00, 0x00, 0xFF, 0x00] := by rw [Part.stationBytes, peer]
  rw [spelt] at station
  exact ⟨station (j := 0) (by decide), station (j := 1) (by decide), station (j := 2) (by decide)⟩

theorem Part.status_config {c : ConfigRecord} (config : p.config = some c) :
    bytesAt (p.statusBytes count) 64 104 = ConfigRecord.bytes c := by
  have asc := Part.statusFields_ascending count drops racks
  have field := bytesAt_layout_field asc (o := 64) (b := ConfigRecord.bytes c) (by simp [Part.statusFields, config])
  rwa [ConfigRecord.length_bytes_always] at field

theorem Part.status_drops (k : DropKind) : leField (p.statusBytes count) (168 + 4 * k.index) 4 =
    ((p.sgp.drops[k.index]?).map BitVec.toNat).getD 0 := by
  have asc := Part.statusFields_ascending count drops racks
  have index : k.index < 10 := by cases k <;> decide
  have words := Part.length_dropField drops
  obtain ⟨d, at_⟩ : ∃ d, p.sgp.drops[k.index]? = some d := ⟨_, List.getElem?_eq_getElem (by omega)⟩
  rw [Part.statusBytes_eq, leField_inside asc (b := p.sgp.drops.flatMap fun d => leBytes 4 d.toNat)
    (by simp [Part.statusFields]) (by omega), leField,
    bytesAt_flatMap (f := fun d : BitVec 32 => leBytes 4 d.toNat) (fun _ => length_leBytes 4 _) _ at_, at_, leNat_leBytes]
  simp

theorem Part.status_rack {r : Nat} {entry : Nat × Rack} (at_ : p.prs.racks[r]? = some entry) :
    leField (p.statusBytes count) (208 + r) 1 = entry.2.state.code.toNat := by
  have asc := Part.statusFields_ascending count drops racks
  obtain ⟨inside, -⟩ := List.getElem?_eq_some_iff.1 at_
  rw [leField_one, Part.statusBytes_eq, byteAt_inside asc
    (b := (p.prs.racks.map fun r => r.2.state).map RackState.code) (by simp [Part.statusFields]) (by simpa using inside),
    byteAt, List.getElem?_map, List.getElem?_map, at_]
  rfl

/-- The bytes of the block that the table does not name are zero (R161). -/
theorem Part.status_unnamed {i : Nat} (small : i < 576)
    (place : (10 ≤ i ∧ i < 12) ∨ (34 ≤ i ∧ i < 64) ∨ (224 ≤ i ∧ i < 256) ∨ (256 ≤ i ∧ i < 512 ∧ i % 4 = 3)
      ∨ (512 ≤ i ∧ i < 572)) : leField (p.statusBytes count) i 1 = 0 := by
  by_cases station : 256 ≤ i ∧ i < 512
  · have fourth := Part.status_station count drops racks (s := (i - 256) / 4) (j := 3) (by omega) (by decide)
    rw [show 256 + 3 + 4 * ((i - 256) / 4) = i by omega] at fourth
    rw [fourth, Part.stationBytes]
    split <;> rfl
  · refine leField_gap (Part.statusFields_ascending count drops racks) (by omega) fun f member => ?_
    have := Part.statusFields_extent count drops member
    omega

end

theorem Part.status_readBack {p : Part} (count : BitVec 32) (fits : p.CountsFit) :
    p.StatusReadBack count (p.statusBytes count) := by
  have drops := fits.drops
  have racks : p.prs.racks.length ≤ 16 := by
    have sized := congrArg List.length fits.racks
    have : p.prs.racks.length = 16 := by simpa [Table.numbers] using sized
    omega
  have asc := Part.statusFields_ascending count drops racks
  have number {o n v : Nat} (member : (o, leBytes n v) ∈ p.statusFields count) (small : v < 256 ^ n) :
      leField (p.statusBytes count) o n = v := (leField_of_mem asc member).trans (Nat.mod_eq_of_lt small)
  have byte {o : Nat} {b : Byte} (member : (o, [b]) ∈ p.statusFields count) :
      leField (p.statusBytes count) o 1 = b.toNat := by
    rw [leField_one, Part.statusBytes_eq, byteAt_of_mem asc member]
  have pool : p.pool ≤ 992 := by
    unfold Part.pool
    cases p.smc.strap <;> decide
  have records := fits.records
  have queued := fits.queued
  have claims := fits.claims
  have contexts := fits.contexts
  have serves := fits.serves
  have lanes : (p.ftu.filter fun l => l.2.holder.isSome).length ≤ 128 :=
    Nat.le_trans (List.length_filter_le _ _) fits.lanes
  exact {
    size := Part.status_size count drops racks
    counts := Part.status_counts count drops racks
    state := byte (b := p.hlk.phase.code) (by simp [Part.statusFields])
    warning := by
      rw [byte (b := flagByteOf p.cbe.warning) (by simp [Part.statusFields])]
      cases p.cbe.warning <;> rfl
    epoch := number (by simp [Part.statusFields]) p.prs.ownEpoch.isLt
    dram := number (by simp [Part.statusFields]) (by cases p.smc.strap <;> decide)
    positions := ⟨number (by simp [Part.statusFields]) p.hlk.commandConsume.isLt,
      number (by simp [Part.statusFields]) p.hlk.reportProduce.isLt⟩
    records := number (by simp [Part.statusFields]) (by omega)
    queued := number (by simp [Part.statusFields]) (by omega)
    claims := number (by simp [Part.statusFields]) (by omega)
    contexts := number (by simp [Part.statusFields]) (by omega)
    lanes := number (by simp [Part.statusFields]) (by omega)
    serves := number (by simp [Part.statusFields]) (by omega)
    slots := number (by simp [Part.statusFields]) (by omega)
    config := fun c some_ => by
      rw [Part.status_config count drops racks some_, readConfig_bytes (fits.config c some_)]
    noConfig := fun none_ => bytesAt_layout_gap asc (by decide) fun f member => by
      have := Part.statusFields_extent count drops member
      simp only [none_, true_implies] at this
      omega
    drops := Part.status_drops count drops racks
    racks := fun r small => by
      obtain ⟨rack, at_, state⟩ := Part.rackState_listed fits.racks small
      rw [Part.status_rack count drops racks at_, state]
    members := fun s q small peer => Part.status_member count drops racks small peer
    others := fun s small peer => Part.status_other count drops racks small peer
    unnamed := fun i small place => Part.status_unnamed count drops racks small place }

/-! ## Writing the block (R170) -/

theorem Part.writeHost_row? (p : Part) (address : BitVec 64) (bytes : List Byte) (a : Nat) :
    (p.writeHost address bytes).hlk.hostMemory.row? a =
      if address.toNat ≤ a ∧ a < address.toNat + bytes.length then bytes[a - address.toNat]?
      else p.hlk.hostMemory.row? a := by
  change Table.row? (p.hlk.hostMemory.splice address.toNat bytes.length (cellsFrom address.toNat bytes)) a = _
  rw [Table.splice_row? _ _ _ _ _ fun c hc => cellsFrom_bounds hc, cellsFrom_row?]
  by_cases inside : address.toNat ≤ a <;> simp [inside]

/-- Settles O21. -/
theorem statusBlockIsWritten : Obligations.StatusBlockIsWritten := by
  refine fun w p => ⟨fun stands => ?_, fun marked valid drops racks => ?_⟩
  · have same : p.rewriteStatus = p := if_neg (by rcases stands with h | h <;> simp [h])
    change run ⟨w, p⟩ Part.rewriteStatus = _
    simp [run, same, Part.markStatus]
  · have size := Part.status_size (p.hlk.updateCount + 1) drops racks
    have rewrites : p.rewriteStatus = { p with
        hlk := { p.hlk with
          hostMemory := (p.writeHost p.hlk.statusAddress (p.statusBytes (p.hlk.updateCount + 1))).hlk.hostMemory
          updateCount := p.hlk.updateCount + 1
          statusMarked := false } } := if_pos (by simp [marked, valid])
    have row := p.writeHost_row? p.hlk.statusAddress (p.statusBytes (p.hlk.updateCount + 1))
    rw [size] at row
    refine leads_of_run (f := Part.rewriteStatus) rfl ?_
    have unshown : p.markStatus p.rewriteStatus = p.rewriteStatus := by rw [rewrites]; exact if_pos rfl
    dsimp only
    rw [unshown, rewrites]
    have asc := Part.statusFields_ascending (p.hlk.updateCount + 1) drops racks
    have count {o : Nat} (member : (o, leBytes 4 (p.hlk.updateCount + 1).toNat) ∈ p.statusFields (p.hlk.updateCount + 1))
        (k : Nat) (small : k < 4) : (p.statusBytes (p.hlk.updateCount + 1))[o + k]? =
          (leBytes 4 (p.hlk.updateCount + 1).toNat)[k]? := by
      have field := bytesAt_layout_field asc member
      rw [length_leBytes] at field
      rw [← field, getElem?_bytesAt, if_pos small]
      rfl
    refine ⟨rfl, fun a outside => (row a).trans (if_neg (by omega)), fun k small => ?_, fun k small => ⟨?_, ?_⟩, ?_,
      fun fits => Part.status_readBack _ fits⟩
    · rw [row, if_pos (by omega), Nat.add_sub_cancel_left]
    · rw [← count (o := 0) (by simp [Part.statusFields]) k small, Nat.zero_add]
    · exact count (o := 572) (by simp [Part.statusFields]) k small
    · have field := bytesAt_layout_field asc (o := 4) (b := [p.hlk.phase.code]) (by simp [Part.statusFields])
      have first := congrArg (·[0]?) field
      simp only [getElem?_bytesAt] at first
      exact first

end Sys2Proof.Machine

/-! The serve unit: its openers, and the answers to OPEN, PULL and RELEASE (R123, R127 to R129). -/

namespace Sys2Proof

variable {α : Type}

theorem Table.setRow_eq_editRow {t : Table α} (rising : t.rising = true) {k : Nat} {a : α} (b : α)
    (row : t.row? k = some a) : t.setRow k b = t.editRow k fun _ => b := by
  refine Machine.Table.ext_row? (Table.rising_setRow k b rising) ((Table.rising_editRow t k _).trans rising) fun j => ?_
  rw [Table.row?_setRow, Table.row?_editRow]
  by_cases here : j = k
  · subst here
    simp [row]
  · simp [here]

theorem Table.setRow_same {t : Table α} (rising : t.rising = true) {k : Nat} {a : α} (row : t.row? k = some a) :
    t.setRow k a = t := by
  rw [Table.setRow_eq_editRow rising a row]
  exact Table.editRow_same rising fun b some_ => Option.some.inj (row.symm.trans some_)

namespace Machine

/-! ## Openers removed (R128) -/

/-- An entry without some of its openers. -/
def ServeEntry.without (leaves : Opener → Bool) (e : ServeEntry) : ServeEntry :=
  { e with openers := e.openers.filter fun o => !leaves o }

theorem ServeEntry.without_none {leaves : Opener → Bool} {e : ServeEntry} (none_ : e.openers.any leaves = false) :
    e.without leaves = e := by
  have all : e.openers.filter (fun o => !leaves o) = e.openers := by
    rw [List.filter_eq_self]
    intro o member
    simpa using (List.any_eq_false.1 none_ o member)
  rw [ServeEntry.without, all]

/-- The part with other serve entries. -/
def Part.withServes (p : Part) (entries : Table ServeEntry) : Part := { p with svu := { p.svu with entries := entries } }

section
variable {p : Part} {n : Nat} {e : ServeEntry} {leaves : Opener → Bool} (row : p.serve? n = some e)
include row

theorem Part.removeOpeners_none (none_ : e.openers.any leaves = false) : p.removeOpeners n leaves = p := by
  simp [Part.removeOpeners, row, none_]

theorem Part.removeOpeners_some (any : e.openers.any leaves = true)
    (stays : e.state = .staging ∨ e.state = .staged ∨ (e.openers.filter fun o => !leaves o) ≠ []) :
    p.removeOpeners n leaves = p.setServe n (e.without leaves) := by
  simp only [Part.removeOpeners, row, any, if_true]
  split
  next cause failed left =>
    rcases stays with h | h | h
    · simp [h] at failed
    · simp [h] at failed
    · exact absurd left h
  next => rfl

end

/-- Openers leave an entry, which is not freed. -/
theorem Part.removeOpeners_editRow {p : Part} {t : Table ServeEntry} {leaves : Opener → Bool} (rising : t.rising = true)
    (n : Nat) (stays : ∀ e, t.row? n = some e → e.openers.any leaves = true → e.state = .staging ∨ e.state = .staged) :
    (p.withServes t).removeOpeners n leaves = p.withServes (t.editRow n (ServeEntry.without leaves)) := by
  cases row : t.row? n with
  | none =>
    have stands : (p.withServes t).removeOpeners n leaves = p.withServes t := by
      have absent : (p.withServes t).serve? n = none := row
      simp [Part.removeOpeners, absent]
    rw [stands, Table.editRow_same rising fun a some_ => by simp [row] at some_]
  | some e =>
    have here : (p.withServes t).serve? n = some e := row
    cases any : e.openers.any leaves with
    | false =>
      rw [Part.removeOpeners_none here any, Table.editRow_same rising fun a some_ => ?_]
      obtain rfl := Option.some.inj (row.symm.trans some_)
      exact ServeEntry.without_none any
    | true =>
      have alive := stays e row any
      rw [Part.removeOpeners_some here any (alive.elim .inl fun h => .inr (.inl h))]
      have edited : t.editRow n (ServeEntry.without leaves) = t.setRow n (e.without leaves) := by
        rw [Table.setRow_eq_editRow rising _ row]
        exact Table.editRow_congr rising fun a some_ => by rw [Option.some.inj (row.symm.trans some_)]
      rw [edited]
      rfl

theorem Part.foldl_removeOpeners {p : Part} {leaves : Opener → Bool} (l : List Nat) {t : Table ServeEntry}
    (rising : t.rising = true)
    (stays : ∀ n e, t.row? n = some e → e.openers.any leaves = true → e.state = .staging ∨ e.state = .staged) :
    l.foldl (fun q n => q.removeOpeners n leaves) (p.withServes t) =
      p.withServes (l.foldl (fun u n => u.editRow n (ServeEntry.without leaves)) t) := by
  induction l generalizing t with
  | nil => rfl
  | cons n rest ih =>
    rw [List.foldl_cons, List.foldl_cons, Part.removeOpeners_editRow rising n (stays n)]
    refine ih ((Table.rising_editRow _ _ _).trans rising) fun k e row any => ?_
    rw [Table.row?_editRow] at row
    split at row
    next =>
      obtain ⟨a, before, rfl⟩ := Option.map_eq_some_iff.1 row
      refine stays k a before ?_
      obtain ⟨o, member, leaves_⟩ := List.any_eq_true.1 any
      exact List.any_eq_true.2 ⟨o, (List.mem_filter.1 member).1, leaves_⟩
    next => exact stays k e row any

/-- Openers removed from the entries of a list, none of which is freed. -/
theorem Part.removeOpeners_list {p : Part} {leaves : Opener → Bool} {l : List Nat} (nodup : l.Nodup)
    (rising : p.svu.entries.rising = true)
    (stays : ∀ r ∈ p.svu.entries, r.2.openers.any leaves = true → r.2.state = .staging ∨ r.2.state = .staged) :
    l.foldl (fun q n => q.removeOpeners n leaves) p = p.withServes (p.svu.entries.map fun r =>
      (r.1, if r.1 ∈ l then r.2.without leaves else r.2)) := by
  have fold := Part.foldl_removeOpeners (p := p) l rising fun n e row => stays (n, e) (Table.row?_mem row)
  rw [Table.foldl_editRow (fun _ => ServeEntry.without leaves) l nodup] at fold
  exact fold

theorem Part.removeOpenersEverywhere_entries {p : Part} {leaves : Opener → Bool} (rising : p.svu.entries.rising = true)
    (stays : ∀ r ∈ p.svu.entries, r.2.openers.any leaves = true → r.2.state = .staging ∨ r.2.state = .staged) :
    p.removeOpenersEverywhere leaves = p.withServes (p.svu.entries.map fun r => (r.1, r.2.without leaves)) := by
  refine (Part.removeOpeners_list (Table.nodup_numbers rising) rising stays).trans (congrArg p.withServes ?_)
  refine List.map_congr_left fun r member => ?_
  exact congrArg (Prod.mk r.1) (if_pos (show r.1 ∈ p.svu.entries.numbers from List.mem_map_of_mem member))

/-! ## RELEASE and the idle limit (R128, R129) -/

/-- Settles O40. -/
theorem openersLeave : Obligations.OpenersLeave := by
  refine fun w p rising alive => ⟨fun h tag from_ => ⟨fun halted => ?_, fun running => ?_⟩,
    fun n station tag e last row activity => ?_⟩
  · refine answers_of_effect (f := fun p => p.receive h (.release tag) fun q =>
      if q.hlk.phase = .halted then q else q.removeOpenersEverywhere (Opener.isPair h.sender.toNat tag)) rfl
      (congrArg Part.unmarked ?_)
    exact (Part.receive_fromPeer p h _ _ from_ rfl rfl rfl).trans (if_pos halted)
  · refine answers_of_effect (f := fun p => p.receive h (.release tag) fun q =>
      if q.hlk.phase = .halted then q else q.removeOpenersEverywhere (Opener.isPair h.sender.toNat tag)) rfl
      (congrArg Part.unmarked ?_)
    refine (Part.receive_fromPeer p h _ _ from_ rfl rfl rfl).trans ((if_neg (by simp [running])).trans ?_)
    exact Part.removeOpenersEverywhere_entries rising fun r member _ => alive r member
  · refine answers_of_effect (f := fun p => p.expireOpener n station tag) rfl (congrArg Part.unmarked ?_)
    have stays := alive (n, e) (Table.row?_mem row)
    have any : e.openers.any (Opener.isPair station tag) = true := by
      obtain ⟨o, member, found⟩ := List.exists_of_findSome?_eq_some activity
      refine List.any_eq_true.2 ⟨o, member, ?_⟩
      cases o with
      | internal => simp at found
      | remote s t epoch time =>
        obtain ⟨⟨rfl, rfl⟩, -⟩ : (s = station ∧ t = tag) ∧ time = last := by simpa using found
        simp [Opener.isPair]
    have reaches : p.expireOpener n station tag =
        (p.reach (last + p.openerIdleLimit)).removeOpeners n (Opener.isPair station tag) := by
      simp only [Part.expireOpener, row, Option.bind_some, activity]
    rw [reaches, Part.removeOpeners_some (p := p.reach _) row any (stays.elim .inl fun h => .inr (.inl h))]
    rfl

/-! ## PULL (R127) -/

theorem pull_answers {p : Part} {h : FrameHeader} {tag : Tag} {c : Byte} {q : Part} (w : List Instr) (from_ : p.fromPeer h)
    (taken : p.takePull h.sender.toNat tag c.toNat = q) : Answers (.pull h tag c) ⟨w, p⟩ q :=
  answers_of_effect (f := fun p => p.receive h (.pull tag c) fun q => q.takePull h.sender.toNat tag c.toNat) rfl
    (congrArg Part.unmarked ((Part.receive_fromPeer p h _ _ from_ rfl rfl rfl).trans taken))

theorem Part.replyRefuse_queued {p : Part} (room : p.queueOpen) (station : Nat) (tag : Tag) (reason : RefuseReason) :
    p.replyRefuse station tag reason = p.queued (some station) (.refuse tag reason.code) :=
  p.post_open (some station) (.refuse tag reason.code) room rfl

theorem Part.replyWait_queued {p : Part} (room : p.queueOpen) (station : Nat) (tag : Tag) (hint : Byte) (busy : Bool) :
    p.replyWait station tag hint busy = p.queued (some station) (.wait tag hint (flagByteOf busy)) :=
  p.post_open (some station) (.wait tag hint (flagByteOf busy)) room rfl

theorem ServeFailure.refusal_code (cause : ServeFailure) :
    cause.refusal.code = if cause = .hostFailed then 0x03 else 0x01 := by cases cause <;> rfl

/-- The table of the entries after a PULL is answered, and the slot's count (R127). -/
theorem Part.answerPull_eq {p : Part} {n : Nat} {e : ServeEntry} (row : p.serve? n = some e) (station : Nat) (tag : Tag)
    (chunk : Nat) (free : p.svu.holdPlace = none) : p.answerPull n e station tag chunk =
      ((p.withServes (p.svu.entries.setRow n
        { e with openers := e.openers.map (Opener.touched station tag p.now), lastUse := p.now })).editSlot e.slot
          fun r => { r with queuedChunks := r.queuedChunks + 1 }).placeChunk (p.chunkFor e station tag chunk) := by
  have touched : p.touchOpener n station tag =
      p.setServe n { e with openers := e.openers.map (Opener.touched station tag p.now) } := by
    simp only [Part.touchOpener, row]
  have used : (p.touchOpener n station tag).touchServe n = p.withServes (p.svu.entries.setRow n
      { e with openers := e.openers.map (Opener.touched station tag p.now), lastUse := p.now }) := by
    rw [touched, Part.touchServe, show (p.setServe n _).serve? n = _ from Table.row?_setRow_self _ _ _]
    simp only [Part.setServe, Table.setRow_setRow]
    rfl
  rw [Part.answerPull, if_neg (by simp [free]), used]

section
variable {p : Part} {station chunk n : Nat} {tag : Tag} {e : ServeEntry} (entered : p.hlk.phase ≠ .halted)
  (pair : p.entryOfPair? station tag = some (n, e))
include entered pair

theorem Part.takePull_staging (state : e.state = .staging) : p.takePull station tag chunk = p := by
  refine (if_neg entered).trans ?_
  simp only [pair, state]

theorem Part.takePull_failed {cause : ServeFailure} (state : e.state = .failed cause) :
    p.takePull station tag chunk =
      (p.removeOpeners n (Opener.isPair station tag)).replyRefuse station tag cause.refusal := by
  refine (if_neg entered).trans ?_
  simp only [pair, state]

theorem Part.takePull_staged (state : e.state = .staged) : p.takePull station tag chunk =
    if chunkCountOf e.length ≤ chunk then p.replyRefuse station tag .badChunk
    else p.answerPull n e station tag chunk := by
  refine (if_neg entered).trans ?_
  simp only [pair, state]

end

/-- Settles O39. -/
theorem pullsAreAnswered : Obligations.PullsAreAnswered := by
  refine fun w p h tag c from_ room => ⟨fun halted => pull_answers w from_ ?_, fun running none_ => pull_answers w from_ ?_,
    fun n e running pair row => ?_⟩
  · exact (if_pos halted).trans (Part.replyRefuse_queued room _ _ _)
  · refine (if_neg (by simp [running])).trans ?_
    rw [none_]
    exact Part.replyRefuse_queued room _ _ _
  · have entered : p.hlk.phase ≠ .halted := by simp [running]
    have any : e.hasPair h.sender.toNat tag = true := (List.find?_some pair :)
    refine ⟨fun staging => pull_answers w from_ ?_, fun cause failed left => pull_answers w from_ ?_,
      fun staged beyond => pull_answers w from_ ?_, fun staged within => ⟨fun held => pull_answers w from_ ?_,
      fun frame entries free frame_ entries_ => ⟨fun place => pull_answers w from_ ?_, fun full => pull_answers w from_ ?_⟩⟩⟩
    · exact Part.takePull_staging entered pair staging
    · rw [Part.takePull_failed entered pair failed, Part.removeOpeners_some row any (.inr (.inr left)), ← ServeFailure.refusal_code]
      exact Part.replyRefuse_queued (p := p.setServe n _) room _ _ _
    · rw [Part.takePull_staged entered pair staged]
      exact (if_pos beyond).trans (Part.replyRefuse_queued room _ _ _)
    · rw [Part.takePull_staged entered pair staged]
      refine (if_neg (Nat.not_le.2 within)).trans (if_pos ?_)
      exact Option.isSome_iff_ne_none.2 held
    · rw [Part.takePull_staged entered pair staged]
      refine (if_neg (Nat.not_le.2 within)).trans ?_
      rw [Part.answerPull_eq row _ _ _ free, frame_, entries_]
      exact if_pos place
    · rw [Part.takePull_staged entered pair staged]
      refine (if_neg (Nat.not_le.2 within)).trans ?_
      rw [Part.answerPull_eq row _ _ _ free, frame_, entries_]
      exact if_neg (Nat.not_lt.2 full)

/-! ## OPEN (R123) -/

theorem open_answers {p : Part} {h : FrameHeader} {t : StripeId} {position : Byte} {tag : Tag} {q : Part} (w : List Instr)
    (from_ : p.fromPeer h) (taken : p.takeOpen h.sender.toNat t position.toNat tag = q) :
    Answers (.fetchOpen h t position tag) ⟨w, p⟩ q :=
  answers_of_effect (f := fun p => p.receive h (.fetchOpen t position tag) fun q =>
      q.takeOpen h.sender.toNat t position.toNat tag) rfl
    (congrArg Part.unmarked ((Part.receive_fromPeer p h _ _ from_ rfl rfl rfl).trans taken))

theorem Part.replyReady_queued {p : Part} (room : p.queueOpen) (station : Nat) (tag : Tag) (r : HoldingRecord) :
    p.replyReady station tag r = p.queued (some station)
      (.ready tag (if (r.digests[r.ownIndex]?).join.isSome then 0x01 else 0x00) (BitVec.ofNat 32 r.length)
        ((r.digests[r.ownIndex]?).join.getD 0)) :=
  p.post_open (some station) (.ready tag (flagByteOf (r.digests[r.ownIndex]?).join.isSome) (BitVec.ofNat 32 r.length)
    ((r.digests[r.ownIndex]?).join.getD 0)) room rfl

theorem Part.addOpener_eq {p : Part} {n : Nat} {e : ServeEntry} (row : p.serve? n = some e) (o : Opener) :
    p.addOpener n o = p.setServe n { e with openers := e.openers ++ [o] } := by
  simp only [Part.addOpener, row]

theorem Part.touchServe_setServe (p : Part) (n : Nat) (e : ServeEntry) :
    (p.setServe n e).touchServe n = p.setServe n { e with lastUse := p.now } := by
  rw [Part.touchServe, show (p.setServe n e).serve? n = some e from Table.row?_setRow_self _ _ _]
  simp only [Part.setServe, Table.setRow_setRow]

theorem Part.touchOpener_eq {p : Part} {n : Nat} {e : ServeEntry} (row : p.serve? n = some e) (station : Nat) (tag : Tag) :
    p.touchOpener n station tag =
      p.setServe n { e with openers := e.openers.map (Opener.touched station tag p.now) } := by
  simp only [Part.touchOpener, row]

theorem Part.removePairElsewhere_none {p : Part} {kept : Option Nat} {station : Nat} {tag : Tag}
    (none_ : ∀ k ∈ p.svu.entries, kept ≠ some k.1 → k.2.hasPair station tag = false) :
    p.removePairElsewhere kept station tag = p := by
  have step (l : List Nat) (apart : ∀ n ∈ l, kept ≠ some n) :
      l.foldl (fun q n => q.removeOpeners n (Opener.isPair station tag)) p = p := by
    induction l with
    | nil => rfl
    | cons n rest ih =>
      have stands : p.removeOpeners n (Opener.isPair station tag) = p := by
        cases row : p.serve? n with
        | none => simp [Part.removeOpeners, row]
        | some e =>
          exact Part.removeOpeners_none row (none_ (n, e) (Table.row?_mem row) (apart n List.mem_cons_self))
      rw [List.foldl_cons, stands]
      exact ih fun k member => apart k (List.mem_cons_of_mem _ member)
  refine step _ fun n member => ?_
  simpa using (List.mem_filter.1 member).2

theorem Part.newServe?_none {p : Part} {t : StripeId} {position length : Nat}
    (full : p.svu.entries.lowestFree? 256 = none ∨ p.freeSlots = []) (stay : p.evictables = []) :
    p.newServe? t position length = none := by
  have noEvict : p.evict? = none := by rw [Part.evict?, stay]; rfl
  unfold Part.newServe?
  split
  next n slot free head =>
    rcases full with none_ | none_
    · exact absurd (none_.symm.trans free) nofun
    · simp [none_] at head
  next => rw [noEvict]

section
variable {p : Part} {station : Nat} {tag : Tag} {t : StripeId} {position place : Nat} {r : HoldingRecord}
  (running : p.hlk.phase = .running) (record : p.recordOf? t position = some (place, r))
include running record

theorem Part.takeOpen_eq {q : Part} (elsewhere : p.removePairElsewhere ((p.serveOf? t position).map Prod.fst) station tag = q) :
    p.takeOpen station t position tag =
      match q.serveOf? t position with
      | some (n, e) => q.openAtEntry n e r station tag
      | none => q.openNewEntry t position r station tag := by
  refine (if_neg (by simp [running])).trans ?_
  rw [record]
  subst elsewhere
  rfl

/-- An OPEN at the entry of its key, whose pair has no opener in another entry (R123). -/
theorem Part.takeOpen_entry {n : Nat} {e : ServeEntry} (entry : p.serveOf? t position = some (n, e))
    (none_ : ∀ k ∈ p.svu.entries, k.1 ≠ n → k.2.hasPair station tag = false) :
    p.takeOpen station t position tag = p.openAtEntry n e r station tag := by
  rw [Part.takeOpen_eq running record (Part.removePairElsewhere_none fun k member apart => none_ k member ?_), entry]
  rintro rfl
  exact apart (congrArg (Option.map Prod.fst) entry)

end

section
variable {p : Part} {n : Nat} {e : ServeEntry} {r : HoldingRecord} {station : Nat} {tag : Tag} (room : p.queueOpen)
  (row : p.serve? n = some e)
include room row

omit row in
theorem Part.openAtEntry_full (alive : e.state = .staged ∨ e.state = .staging) (fresh : e.hasPair station tag = false)
    (full : 16 ≤ e.openers.length) :
    p.openAtEntry n e r station tag = p.queued (some station) (.wait tag 2 0x01) := by
  have many : openerPlaces ≤ e.openers.length := full
  refine Eq.trans ?_ (Part.replyWait_queued room station tag 2 true)
  unfold Part.openAtEntry
  rcases alive with state | state <;> rw [state] <;> simp [fresh, many]

theorem Part.openAtEntry_staged (state : e.state = .staged) (fresh : e.hasPair station tag = false)
    (few : e.openers.length < 16) : p.openAtEntry n e r station tag = Part.queued
      (p.withServes (p.svu.entries.setRow n
        { e with openers := e.openers ++ [p.remoteOpener station tag], lastUse := p.now })) (some station)
      (.ready tag (if (r.digests[r.ownIndex]?).join.isSome then 0x01 else 0x00) (BitVec.ofNat 32 r.length)
        ((r.digests[r.ownIndex]?).join.getD 0)) := by
  have few : ¬ openerPlaces ≤ e.openers.length := Nat.not_le.2 few
  have opened : p.openAtEntry n e r station tag =
      ((p.addOpener n (p.remoteOpener station tag)).touchServe n).replyReady station tag r := by
    rw [Part.openAtEntry, state]
    simp [fresh, few]
  rw [opened, Part.addOpener_eq row, Part.touchServe_setServe]
  exact Part.replyReady_queued (p := p.setServe n _) room station tag r

theorem Part.openAtEntry_staging (state : e.state = .staging) (fresh : e.hasPair station tag = false)
    (few : e.openers.length < 16) : p.openAtEntry n e r station tag = Part.queued
      (p.withServes (p.svu.entries.setRow n { e with openers := e.openers ++ [p.remoteOpener station tag] })) (some station)
      (.wait tag 1 0x00) := by
  have few : ¬ openerPlaces ≤ e.openers.length := Nat.not_le.2 few
  have opened : p.openAtEntry n e r station tag =
      (p.addOpener n (p.remoteOpener station tag)).replyWait station tag 1 false := by
    rw [Part.openAtEntry, state]
    simp [fresh, few]
  rw [opened, Part.addOpener_eq row]
  exact Part.replyWait_queued (p := p.setServe n _) room station tag 1 false

end

/-- The entry of a key is found again where only openers of a pair have gone. -/
theorem Part.serveOf?_map {p : Part} {t : StripeId} {position : Nat} {f : ServeEntry → ServeEntry}
    (key : ∀ e, (f e).holdsKey = e.holdsKey ∧ (f e).stripe = e.stripe ∧ (f e).position = e.position) {n : Nat}
    {e : ServeEntry} (entry : p.serveOf? t position = some (n, e)) :
    (p.withServes (p.svu.entries.map fun k => (k.1, f k.2))).serveOf? t position = some (n, f e) := by
  have found := List.find?_map (f := fun k : Nat × ServeEntry => (k.1, f k.2))
    (p := fun k => k.2.holdsKey && k.2.stripe == t && k.2.position == position) (l := p.svu.entries)
  have same : (fun k : Nat × ServeEntry => k.2.holdsKey && k.2.stripe == t && k.2.position == position) ∘
      (fun k : Nat × ServeEntry => (k.1, f k.2)) =
      fun k => k.2.holdsKey && k.2.stripe == t && k.2.position == position := by
    funext k
    obtain ⟨holds, stripe, position_⟩ := key k.2
    simp [Function.comp_apply, holds, stripe, position_]
  rw [same] at found
  exact found.trans (congrArg (Option.map _) entry)

/-- The openers of a pair removed from the entries other than its key's, which has none of them (R123, step 3). -/
theorem Part.removePairElsewhere_others {p : Part} {n : Nat} {e : ServeEntry} {station : Nat} {tag : Tag}
    (rising : p.svu.entries.rising = true) (row : p.serve? n = some e) (fresh : e.hasPair station tag = false)
    (alive : ∀ k ∈ p.svu.entries, k.2.hasPair station tag = true → k.2.state = .staging ∨ k.2.state = .staged) :
    p.removePairElsewhere (some n) station tag =
      p.withServes (p.svu.entries.map fun k => (k.1, k.2.without (Opener.isPair station tag))) := by
  refine (Part.removeOpeners_list ((Table.nodup_numbers rising).filter _) rising alive).trans (congrArg p.withServes ?_)
  refine List.map_congr_left fun k member => ?_
  by_cases here : k.1 = n
  · obtain same : k.2 = e := Table.row?_eq_of_mem rising member (here ▸ row)
    rw [same, ServeEntry.without_none fresh, ite_self]
  · have listed : k.1 ∈ p.svu.entries.numbers.filter fun m => some n != some m :=
      List.mem_filter.2 ⟨List.mem_map_of_mem member, by simpa using fun h : n = k.1 => here h.symm⟩
    rw [if_pos listed]

/-- Settles O37. -/
theorem opensAreAnswered : Obligations.OpensAreAnswered := by
  refine fun w p h t position tag from_ room => ⟨fun fresh => ⟨fun halted => open_answers w from_ ?_,
    fun running none_ => open_answers w from_ ?_, fun place r running record => ⟨fun noEntry full stay =>
      open_answers w from_ ?_, fun n e entry row => ?_⟩⟩, fun place r n e running record entry row rising => ⟨fun pair alone =>
      ⟨fun staged => open_answers w from_ ?_, fun staging => open_answers w from_ ?_,
        fun cause failed left => open_answers w from_ ?_⟩,
      fun others fresh _ alive others_ => ?_⟩⟩
  · exact (if_pos halted).trans (Part.replyRefuse_queued room _ _ _)
  · refine (if_neg (by simp [running])).trans ?_
    rw [none_]
    exact Part.replyRefuse_queued room _ _ _
  · rw [Part.takeOpen_eq running record (Part.removePairElsewhere_none fun k member _ => fresh k member), noEntry]
    dsimp only
    rw [Part.openNewEntry, Part.newServe?_none full stay]
    exact Part.replyWait_queued room _ _ _ _
  · have taken := Part.takeOpen_entry (station := h.sender.toNat) (tag := tag) running record entry
      fun k member _ => fresh k member
    have noPair := fresh (n, e) (Table.row?_mem row)
    refine ⟨fun cause failed => open_answers w from_ (taken.trans ?_),
      fun alive full => open_answers w from_ (taken.trans (Part.openAtEntry_full room alive noPair full)),
      fun staged few => open_answers w from_ (taken.trans ?_), fun staging few => open_answers w from_ (taken.trans ?_)⟩
    · have refused : p.openAtEntry n e r h.sender.toNat tag =
          (p.removeOpeners n (Opener.isPair h.sender.toNat tag)).replyRefuse h.sender.toNat tag .damaged := by
        rw [Part.openAtEntry, failed]
      rw [refused, Part.removeOpeners_none row noPair]
      exact Part.replyRefuse_queued room _ _ _
    · rw [Part.openAtEntry_staged room row staged noPair few, Part.remoteOpener, from_.2.2.2.2.1]
      rfl
    · rw [Part.openAtEntry_staging room row staging noPair few, Part.remoteOpener, from_.2.2.2.2.1]
      rfl
  · have opened : p.openAtEntry n e r h.sender.toNat tag =
        (p.touchOpener n h.sender.toNat tag).replyReady h.sender.toNat tag r := by
      rw [Part.openAtEntry, staged]
      simp [pair]
    rw [Part.takeOpen_entry running record entry alone, opened, Part.touchOpener_eq row]
    exact Part.replyReady_queued (p := p.setServe n _) room _ _ _
  · have opened : p.openAtEntry n e r h.sender.toNat tag =
        (p.touchOpener n h.sender.toNat tag).replyWait h.sender.toNat tag 1 false := by
      rw [Part.openAtEntry, staging]
      simp [pair]
    rw [Part.takeOpen_entry running record entry alone, opened, Part.touchOpener_eq row]
    exact Part.replyWait_queued (p := p.setServe n _) room _ _ _ _
  · have refused : p.openAtEntry n e r h.sender.toNat tag =
        (p.removeOpeners n (Opener.isPair h.sender.toNat tag)).replyRefuse h.sender.toNat tag .damaged := by
      rw [Part.openAtEntry, failed]
    rw [Part.takeOpen_entry running record entry alone, refused, Part.removeOpeners_some row pair (.inr (.inr left))]
    exact Part.replyRefuse_queued (p := p.setServe n _) room _ _ _
  · have same : e.without (Opener.isPair h.sender.toNat tag) = e := ServeEntry.without_none fresh
    have elsewhere := Part.removePairElsewhere_others rising row fresh alive
    have found := Part.serveOf?_map (f := ServeEntry.without (Opener.isPair h.sender.toNat tag))
      (fun _ => ⟨rfl, rfl, rfl⟩) entry
    have there : (p.withServes others).serve? n = some e := by
      rw [others_]
      exact (Table.row?_map p.svu.entries n fun _ k => k.without (Opener.isPair h.sender.toNat tag)).trans
        ((congrArg (Option.map _) row).trans (congrArg some same))
    have taken : p.takeOpen h.sender.toNat t position.toNat tag =
        (p.withServes others).openAtEntry n e r h.sender.toNat tag := by
      have listed : p.removePairElsewhere ((p.serveOf? t position.toNat).map Prod.fst) h.sender.toNat tag =
          p.withServes (p.svu.entries.map fun k => (k.1, k.2.without (Opener.isPair h.sender.toNat tag))) := by
        rw [entry]
        exact elsewhere
      rw [Part.takeOpen_eq running record listed, found, same, others_]
      rfl
    have epoch : (p.withServes others).remoteOpener h.sender.toNat tag = .remote h.sender.toNat tag (some h.epoch) p.now :=
      congrArg (Opener.remote _ _ · _) from_.2.2.2.2.1
    refine ⟨fun staged few => open_answers w from_ (taken.trans ?_), fun staging few => open_answers w from_ (taken.trans ?_),
      fun state full => open_answers w from_ (taken.trans
        (Part.openAtEntry_full (p := p.withServes others) room state fresh full))⟩
    · rw [Part.openAtEntry_staged (p := p.withServes others) room there staged fresh few, epoch]
      rfl
    · rw [Part.openAtEntry_staging (p := p.withServes others) room there staging fresh few, epoch]
      rfl

end Machine

end Sys2Proof

/-! New serve entries and their STAGE requests (R123 to R125, R150, R154, R168, R169). -/

namespace Sys2Proof.Machine

/-! ## The report of a request -/

/-- A report posted where the path has a place goes into the ring or to the tail of the internal report queue. -/
theorem Part.postsReport_of {p : Part} {r : Report} {ends : Part → Prop} (room : p.reportPathFull = false)
    (posted : ends (p.postReport r)) : p.postsReport r ends := by
  refine ⟨fun empty place => ⟨p.writeReport r, p.writeReport_written r place, ?_⟩, fun waits => ?_⟩
  · rwa [← Part.postReport_ring r empty place]
  · have few : p.hlk.reportQueue.length < 64 := by
      have waiting : (p.hlk.reportQueue.isEmpty && p.ringPlace) = false := by
        rw [Bool.and_eq_false_iff]
        exact waits.imp_left fun h => by simpa using h
      simpa [Part.reportPathFull, waiting] using room
    rwa [← Part.postReport_queue r waits few]

section
variable {p : Part} {n : Nat} {e : ServeEntry} (row : p.serve? n = some e)
include row

theorem Part.postStageRequest_full (full : p.reportPathFull = true) : p.postStageRequest n = p := by
  simp only [Part.postStageRequest, row, full, if_true]

/-- An entry's STAGE request where the report path has a place (R124, R168). -/
theorem Part.postStageRequest_asks {next : Tag} (room : p.reportPathFull = false)
    (tag : nextTag (p.hlk.stageTags ++ [p.hlk.tagCounter] ++ p.hlk.storeTags) p.hlk.tagCounter next) :
    p.postStageRequest n = (p.stageAsked n e next).postReport
      (.stageRequest p.hlk.tagCounter e.stripe e.position e.length e.slot) := by
  have counter := skipOutstanding_nextTag tag
  simp only [Part.postStageRequest, row, room, Bool.false_eq_true, if_false, Part.takeTag, counter]
  rfl

end

/-! ## Eviction (R125) -/

/-- The choice between the entry found so far and the next one (R125). -/
def evictChoice (best : Option (Nat × ServeEntry)) (r : Nat × ServeEntry) : Option (Nat × ServeEntry) :=
  match best with
  | none => some r
  | some b => if r.2.lastUse < b.2.lastUse then some r else some b

theorem foldl_evictChoice_keeps {b : Nat × ServeEntry} (entries : Table ServeEntry)
    (all : ∀ r ∈ entries, b.2.lastUse ≤ r.2.lastUse) : entries.foldl evictChoice (some b) = some b := by
  induction entries with
  | nil => rfl
  | cons r rest ih =>
    have here : evictChoice (some b) r = some b := if_neg (Nat.not_lt.2 (all r List.mem_cons_self))
    rw [List.foldl_cons, here]
    exact ih fun s member => all s (List.mem_cons_of_mem _ member)

theorem foldl_evictChoice_member {best : Option (Nat × ServeEntry)} (entries : Table ServeEntry) :
    entries.foldl evictChoice best = best ∨ ∃ r ∈ entries, entries.foldl evictChoice best = some r := by
  induction entries generalizing best with
  | nil => exact .inl rfl
  | cons r rest ih =>
    have choice : evictChoice best r = some r ∨ evictChoice best r = best := by
      cases best with
      | none => exact .inl rfl
      | some b =>
        rw [evictChoice]
        split
        · exact .inl rfl
        · exact .inr rfl
    rw [List.foldl_cons]
    rcases ih (best := evictChoice best r) with same | ⟨s, member, chosen⟩
    · rcases choice with here | before
      · exact .inr ⟨r, List.mem_cons_self, same.trans here⟩
      · exact .inl (same.trans before)
    · exact .inr ⟨s, List.mem_cons_of_mem _ member, chosen⟩

theorem firstEvicted?_earliest {entries : Table ServeEntry} (rising : entries.rising = true) {r : Nat × ServeEntry}
    (member : r ∈ entries)
    (earliest : ∀ s ∈ entries, r.2.lastUse < s.2.lastUse ∨ (r.2.lastUse = s.2.lastUse ∧ r.1 ≤ s.1)) :
    firstEvicted? entries = some r := by
  obtain ⟨before, after, rfl⟩ := List.append_of_mem member
  obtain ⟨-, -, less⟩ := List.pairwise_append.1 (by simpa using (Table.rising_iff _).1 rising)
  change (before ++ r :: after).foldl evictChoice none = _
  rw [List.foldl_append, List.foldl_cons]
  have chosen : evictChoice (before.foldl evictChoice none) r = some r := by
    rcases foldl_evictChoice_member before (best := none) with none_ | ⟨s, listed, some_⟩
    · rw [none_]
      rfl
    · rw [some_]
      have number : s.1 < r.1 := less s.1 (List.mem_map_of_mem listed) r.1 (by simp)
      have later := earliest s (List.mem_append_left _ listed)
      exact if_pos (by omega)
  rw [chosen]
  refine foldl_evictChoice_keeps after fun s listed => ?_
  have later := earliest s (List.mem_append_right _ (List.mem_cons_of_mem _ listed))
  omega

/-! ## A new entry (R124, R150) -/

theorem Part.newServe?_place {p base : Part} {n slot : Nat} (place : p.entryPlace base n slot) (t : StripeId)
    (position length : Nat) :
    (p.newServe? t position length = some (base.startServe n slot t position length, n))
      ∧ ∃ entries, base = p.withServes entries := by
  rcases place with ⟨rfl, free, head⟩ | ⟨full, rising, -, r, member, rfl, earliest, rfl, free⟩
  · refine ⟨?_, _, rfl⟩
    unfold Part.newServe?
    rw [show Table.lowestFree? _ serveEntries = some n from free, head]
  · have evicts : p.evict? = some (p.withServes (p.svu.entries.dropRow r.1), r.2.slot) := by
      have ordered : p.evictables.rising = true := Table.rising_filter _ rising
      rw [Part.evict?, firstEvicted?_earliest ordered member earliest]
      rfl
    refine ⟨?_, p.svu.entries.dropRow r.1, rfl⟩
    unfold Part.newServe?
    split
    next n' slot' free' head =>
      rcases full with none_ | none_
      · exact absurd (none_.symm.trans free') nofun
      · simp [none_] at head
    next =>
      rw [evicts]
      exact congrArg (Option.map _) free

/-- The entry that a key gets on a slot, in STAGING, its STAGE request not yet posted (R124). -/
def newEntry (t : StripeId) (position length slot now : Nat) (openers : List Opener) : ServeEntry where
  stripe := t
  position := position
  length := length
  slot := slot
  state := .staging
  requested := false
  tag := none
  openers := openers
  lastUse := now

theorem Part.addOpener_hlk (p : Part) (hlk : HostLink) (n : Nat) (o : Opener) :
    { p with hlk := hlk }.addOpener n o = { p.addOpener n o with hlk := hlk } := by
  unfold Part.addOpener
  rw [show Part.serve? { p with hlk := hlk } n = p.serve? n from rfl]
  cases p.serve? n <;> rfl

section
variable {base : Part} {n slot : Nat} (t : StripeId) (position length : Nat)

theorem Part.startServe_full (full : base.reportPathFull = true) :
    base.startServe n slot t position length = base.entryMade n (newEntry t position length slot base.now []) :=
  Part.postStageRequest_full (p := base.entryMade n (newEntry t position length slot base.now []))
    (Table.row?_setRow_self _ _ _) full

theorem Part.addOpener_entryMade (e : ServeEntry) (o : Opener) :
    (base.entryMade n e).addOpener n o = base.entryMade n { e with openers := e.openers ++ [o] } := by
  rw [Part.addOpener_eq (p := base.entryMade n e) (Table.row?_setRow_self _ _ _)]
  simp only [Part.setServe, Part.entryMade, Table.setRow_setRow]

variable {next : Tag} (room : base.reportPathFull = false)
  (tag : nextTag (base.hlk.stageTags ++ [base.hlk.tagCounter] ++ base.hlk.storeTags) base.hlk.tagCounter next)
include room tag

theorem Part.startServe_asks : base.startServe n slot t position length =
    ((base.entryMade n (newEntry t position length slot base.now [])).stageAsked n
      (newEntry t position length slot base.now []) next).postReport
      (.stageRequest base.hlk.tagCounter t position length slot) :=
  Part.postStageRequest_asks (p := base.entryMade n (newEntry t position length slot base.now []))
    (Table.row?_setRow_self _ _ _) room tag

/-- The opener that a new entry is made for, its STAGE request already posted (R123, R124). -/
theorem Part.startServe_asks_opener (o : Opener) : (base.startServe n slot t position length).addOpener n o =
    ((base.entryMade n (newEntry t position length slot base.now [o])).stageAsked n
      (newEntry t position length slot base.now [o]) next).postReport
      (.stageRequest base.hlk.tagCounter t position length slot) := by
  have alone (entry : ServeEntry) := Part.postReport_of_same
    (p := { base with hlk := { base.hlk with
      stageTags := base.hlk.stageTags ++ [base.hlk.tagCounter], tagCounter := next } })
    (q := (base.entryMade n entry).stageAsked n entry next) rfl rfl
    (.stageRequest base.hlk.tagCounter t position length slot)
  rw [Part.startServe_asks t position length room tag, alone, alone, Part.addOpener_hlk,
    Part.addOpener_eq (p := (base.entryMade n (newEntry t position length slot base.now [])).stageAsked n _ next)
      (Table.row?_setRow_self _ _ _)]
  simp only [Part.setServe, Part.stageAsked, Part.entryMade, Table.setRow_setRow]
  rfl

end

theorem Part.postStageRequest_same (p : Part) (n : Nat) :
    (p.postStageRequest n).prs = p.prs ∧ (p.postStageRequest n).now = p.now := by
  unfold Part.postStageRequest
  split
  · exact ⟨rfl, rfl⟩
  · split
    · exact ⟨rfl, rfl⟩
    · dsimp only
      rw [Part.postReport_of_same rfl rfl]
      exact ⟨rfl, rfl⟩

theorem stageRequest_running (w : List Instr) (p : Part) : ∃ f, exec .stageRequest ⟨w, p⟩ = run ⟨w, p⟩ f
    ∧ ∀ n e, p.unrequested? = some (n, e) → f p = p.postStageRequest n :=
  ⟨fun p =>
    match p.unrequested? with
    | some (n, _) => p.postStageRequest n
    | none => p, rfl, fun n e found => by simp only [found]⟩

/-- Settles O38. -/
theorem opensStartStaging : Obligations.OpensStartStaging := by
  refine fun w p => ⟨?_, fun n e found row => ?_⟩
  · rintro h t position tag place n slot r base made entry from_ running room fresh record noEntry free rfl rfl
    obtain ⟨makes, entries, rfl⟩ := Part.newServe?_place free t position.toNat r.length
    have opener : ((p.withServes entries).startServe n slot t position.toNat r.length).remoteOpener h.sender.toNat tag =
        .remote h.sender.toNat tag (some h.epoch) p.now := by
      obtain ⟨prs, now⟩ := Part.postStageRequest_same (((p.withServes entries).setSlot slot (serveSlot n)).setServe n
        (newEntry t position.toNat r.length slot p.now [])) n
      refine (congrArg₂ (Opener.remote _ _ · ·) ?_ now)
      exact (congrArg (fun prs : Roster => (prs.peers.row? h.sender.toNat).bind Peer.epoch) prs).trans from_.2.2.2.2.1
    have taken : p.takeOpen h.sender.toNat t position.toNat tag =
        (((p.withServes entries).startServe n slot t position.toNat r.length).addOpener n
          (.remote h.sender.toNat tag (some h.epoch) p.now)).replyWait h.sender.toNat tag 1 false := by
      rw [Part.takeOpen_eq running record (Part.removePairElsewhere_none fun k member _ => fresh k member), noEntry]
      dsimp only
      rw [Part.openNewEntry, makes, ← opener]
    refine ⟨fun full => open_answers w from_ (taken.trans ?_), fun next path tag_ => ?_⟩
    · rw [Part.startServe_full (base := p.withServes entries) _ _ _ full, Part.addOpener_entryMade]
      exact Part.replyWait_queued (p := (p.withServes entries).entryMade n _) room _ _ _ _
    · refine Part.postsReport_of path (open_answers w from_ (taken.trans ?_))
      rw [Part.startServe_asks_opener (base := p.withServes entries) t position.toNat r.length path tag_]
      have alone (entry : ServeEntry) := Part.postReport_of_same
        (p := { p with hlk := { p.hlk with
          stageTags := p.hlk.stageTags ++ [p.hlk.tagCounter], tagCounter := next } })
        (q := ((p.withServes entries).entryMade n entry).stageAsked n entry next) rfl rfl
        (.stageRequest p.hlk.tagCounter t position.toNat r.length slot)
      have aloneQueued (entry : ServeEntry) := Part.postReport_of_same
        (p := { p with hlk := { p.hlk with
          stageTags := p.hlk.stageTags ++ [p.hlk.tagCounter], tagCounter := next } })
        (q := (((p.withServes entries).entryMade n entry).queued (some h.sender.toNat) (.wait tag 1 0x00)).stageAsked n entry
          next) rfl rfl (.stageRequest p.hlk.tagCounter t position.toNat r.length slot)
      refine (congrArg (fun q : Part => q.replyWait h.sender.toNat tag 1 false) (alone _)).trans ?_
      refine Eq.trans ?_ (aloneQueued _).symm
      exact Part.replyWait_queued (p := { ((p.withServes entries).entryMade n _).stageAsked n _ next with hlk := _ }) room
        _ _ _ _
  · obtain ⟨f, runs, asks⟩ := stageRequest_running w p
    refine ⟨fun full => answers_of_effect runs (congrArg Part.unmarked ((asks n e found).trans
      (Part.postStageRequest_full row full))), fun next room tag => Part.postsReport_of room ?_⟩
    exact answers_of_effect runs (congrArg Part.unmarked ((asks n e found).trans
      (Part.postStageRequest_asks row room tag)))

end Sys2Proof.Machine

/-! The re-plan of a context, step by step: its lanes released, its internal opener detached, its fills requested (R94, R95,
R120, R134). -/

namespace Sys2Proof

variable {α : Type}

theorem Table.editRow_editRow (t : Table α) (k : Nat) (f g : α → α) :
    (t.editRow k f).editRow k g = t.editRow k fun a => g (f a) := by
  simp only [Table.editRow_eq_map, List.map_map]
  refine List.map_congr_left fun r _ => ?_
  by_cases here : r.1 = k <;> simp [here]

theorem Table.editRow_self (t : Table α) (k : Nat) : (t.editRow k fun a => a) = t := by
  rw [Table.editRow_eq_map]
  refine (List.map_congr_left fun r _ => ?_).trans (List.map_id t)
  rw [ite_self]
  rfl

namespace Machine

/-! ## Frames withdrawn where none is held (R159) -/

theorem Part.withdrawRequests_noneHeld {p : Part} (none_ : p.sgp.hold = []) (n : Nat) : p.withdrawRequests n =
    { p with sgp := { p.sgp with control := p.sgp.control.filter fun f => !f.body.isRequestOf n } } := by
  have empty : (p.sgp.hold.filter fun f => !f.body.isRequestOf n) = [] := by rw [none_]; rfl
  unfold Part.withdrawRequests Part.withdrawFrames
  rw [empty, Part.serveHeld_of_noneHeld _ rfl, ← none_]

theorem Part.roomFor_withdrawRequests {p : Part} {k : Nat} (room : p.roomFor k) (n : Nat) :
    (p.withdrawRequests n).roomFor k := by
  rw [Part.withdrawRequests_noneHeld room.1 n]
  refine ⟨room.1, Nat.le_trans (Nat.add_le_add_right ?_ k) room.2⟩
  exact (List.filter_sublist.filter _).length_le

/-! ## Lanes released (R120) -/

/-- The RELEASE that a lane posts when it is released, if one is due (R120). -/
def Part.releaseFrame? (p : Part) (n : Nat) : Option ControlFrame :=
  match p.laneUse? n with
  | some u =>
    if u.releaseDue then
      some { target := some u.server, epoch := p.prs.ownEpoch, body := .release (fetchTag n (p.lane n).useCount) }
    else none
  | none => none

/-- A frame is no OPEN or PULL of a lane of a list that is in use (R159). -/
def Part.noRequest (p : Part) (lanes : List Nat) (f : ControlFrame) : Bool :=
  lanes.all fun n => (p.laneUse? n).isNone || !f.body.isRequestOf n

theorem Part.lanesReleased_eq (p : Part) (lanes : List Nat) : p.lanesReleased lanes =
    { p with
      ftu := p.ftu.map fun r => if r.1 ∈ lanes then (r.1, { r.2 with use := none }) else r
      sgp := { p.sgp with
        control := p.sgp.control.filter (p.noRequest lanes) ++ lanes.filterMap p.releaseFrame? } } := rfl

theorem Part.lanesReleased_nil (p : Part) : p.lanesReleased [] = p := by
  have table : (p.ftu.map fun r => if r.1 ∈ ([] : List Nat) then (r.1, { r.2 with use := none }) else r) = p.ftu := by simp
  have all : p.sgp.control.filter (p.noRequest []) = p.sgp.control := List.filter_eq_self.2 fun _ _ => rfl
  rw [Part.lanesReleased_eq, table, all]
  simp

theorem Part.releaseFrame?_release {p : Part} {n : Nat} {f : ControlFrame} (frame : p.releaseFrame? n = some f) :
    f.body.isBeacon = false ∧ ∀ m, f.body.isRequestOf m = false := by
  unfold Part.releaseFrame? at frame
  split at frame
  · split at frame
    · obtain rfl := Option.some.inj frame
      exact ⟨rfl, fun _ => rfl⟩
    · cases frame
  · cases frame

theorem Part.lane_lanesReleased (p : Part) (lanes : List Nat) (n : Nat) :
    (p.lanesReleased lanes).lane n = if n ∈ lanes then { p.lane n with use := none } else p.lane n := by
  have row := Table.row?_map p.ftu n fun i (l : Lane) => if i ∈ lanes then { l with use := none } else l
  have table : (p.ftu.map fun r : Nat × Lane => if r.1 ∈ lanes then (r.1, { r.2 with use := none }) else r) =
      p.ftu.map fun r => (r.1, if r.1 ∈ lanes then { r.2 with use := none } else r.2) := by
    refine List.map_congr_left fun r _ => ?_
    split <;> rfl
  rw [← table] at row
  unfold Part.lane
  rw [show (p.lanesReleased lanes).ftu.row? n = _ from row]
  cases p.ftu.row? n with
  | none => by_cases here : n ∈ lanes <;> simp [here, Lane.reset]
  | some l => by_cases here : n ∈ lanes <;> simp [here]

theorem Part.laneUse?_lanesReleased (p : Part) (lanes : List Nat) (n : Nat) :
    (p.lanesReleased lanes).laneUse? n = if n ∈ lanes then none else p.laneUse? n := by
  rw [Part.laneUse?, Part.lane_lanesReleased]
  split <;> rfl

/-- Releasing one lane, and then others, is releasing them all. -/
theorem Part.lanesReleased_cons {p : Part} {n : Nat} {rest : List Nat} (fresh : n ∉ rest) :
    (p.lanesReleased [n]).lanesReleased rest = p.lanesReleased (n :: rest) := by
  have apart {m : Nat} (member : m ∈ rest) : m ≠ n := fun h => fresh (h ▸ member)
  have use {m : Nat} (member : m ∈ rest) : (p.lanesReleased [n]).laneUse? m = p.laneUse? m := by
    rw [Part.laneUse?_lanesReleased, if_neg (by simpa using apart member)]
  have lane {m : Nat} (member : m ∈ rest) : (p.lanesReleased [n]).lane m = p.lane m := by
    rw [Part.lane_lanesReleased, if_neg (by simpa using apart member)]
  have frames : rest.filterMap (p.lanesReleased [n]).releaseFrame? = rest.filterMap p.releaseFrame? :=
    List.filterMap_congr fun m member => by
      unfold Part.releaseFrame?
      rw [use member, lane member]
      rfl
  have tested : (p.lanesReleased [n]).noRequest rest = p.noRequest rest := by
    funext f
    rw [Part.noRequest, Part.noRequest, Bool.eq_iff_iff, List.all_eq_true, List.all_eq_true]
    exact forall₂_congr fun m member => by rw [use member]
  have posted : ([n].filterMap p.releaseFrame?).filter (p.noRequest rest) = [n].filterMap p.releaseFrame? := by
    rw [List.filter_eq_self]
    intro f member
    obtain ⟨m, -, frame⟩ := List.mem_filterMap.1 member
    simp [Part.noRequest, (Part.releaseFrame?_release frame).2]
  have both : (fun f => p.noRequest [n] f && p.noRequest rest f) = p.noRequest (n :: rest) := by
    funext f
    simp [Part.noRequest]
  have control : (p.sgp.control.filter (p.noRequest [n]) ++ [n].filterMap p.releaseFrame?).filter (p.noRequest rest)
      ++ rest.filterMap p.releaseFrame?
      = p.sgp.control.filter (p.noRequest (n :: rest)) ++ (n :: rest).filterMap p.releaseFrame? := by
    have joined : (n :: rest).filterMap p.releaseFrame? = [n].filterMap p.releaseFrame? ++ rest.filterMap p.releaseFrame? :=
      List.filterMap_append (l := [n])
    rw [List.filter_append, posted, List.filter_filter, joined, ← both, List.append_assoc]
    simp only [Bool.and_comm]
  have table : ((p.lanesReleased [n]).ftu.map fun r => if r.1 ∈ rest then (r.1, { r.2 with use := none }) else r) =
      p.ftu.map fun r => if r.1 ∈ n :: rest then (r.1, { r.2 with use := none }) else r := by
    rw [Part.lanesReleased_eq, List.map_map]
    refine List.map_congr_left fun r _ => ?_
    by_cases here : r.1 = n <;> by_cases there : r.1 ∈ rest <;> simp [here, there, fresh]
  rw [Part.lanesReleased_eq (p.lanesReleased [n]), table, tested, frames, Part.lanesReleased_eq p (n :: rest), ← control]
  rfl

/-- A lane released where the control queue has room for its RELEASE (R120). -/
theorem Part.releaseLane_eq {p : Part} (room : p.roomFor 1) (rising : p.ftu.rising = true) (n : Nat) :
    p.releaseLane n = p.lanesReleased [n] := by
  have single (f : Lane → Lane) : (p.ftu.map fun r => if r.1 ∈ [n] then (r.1, f r.2) else r) = p.ftu.editRow n f := by
    refine List.map_congr_left fun r _ => ?_
    simp
  rw [Part.lanesReleased_eq, single fun l => { l with use := none }, List.filterMap_cons, List.filterMap_nil]
  cases use : p.laneUse? n with
  | none =>
    have table : (p.ftu.editRow n fun l => { l with use := none }) = p.ftu := Table.editRow_same rising fun l row => by
      have idle : l.use = none := by simpa [Part.laneUse?, Part.lane, row] using use
      rw [← idle]
    have kept : p.sgp.control.filter (p.noRequest [n]) = p.sgp.control :=
      List.filter_eq_self.2 fun f _ => by simp [Part.noRequest, use]
    rw [table, kept]
    simp [Part.releaseLane, Part.releaseFrame?, use]
  | some u =>
    have kept : p.sgp.control.filter (p.noRequest [n]) = p.sgp.control.filter fun f => !f.body.isRequestOf n :=
      List.filter_congr fun f _ => by simp [Part.noRequest, use]
    have released : p.releaseLane n = (if u.releaseDue then (p.withdrawRequests n).postRelease n u.server
        else p.withdrawRequests n).editLane n fun l => { l with use := none } := by
      simp only [Part.releaseLane, use]
    have open_ := Part.queueOpen_of_roomFor _ (Nat.le_refl 1) (Part.roomFor_withdrawRequests room n)
    rw [released, kept, Part.releaseFrame?, use]
    dsimp only
    cases due : u.releaseDue with
    | false =>
      rw [if_neg Bool.false_ne_true, if_neg Bool.false_ne_true, Part.withdrawRequests_noneHeld room.1]
      simp [Part.editLane]
    | true =>
      rw [if_pos rfl, if_pos rfl, Part.postRelease, Part.post_open _ _ _ open_ rfl, Part.withdrawRequests_noneHeld room.1]
      rfl

theorem Part.roomFor_lanesReleased {p : Part} {k : Nat} {n : Nat} (room : p.roomFor (k + 1)) :
    (p.lanesReleased [n]).roomFor k := by
  refine ⟨room.1, ?_⟩
  rw [Part.lanesReleased_eq]
  have kept := (List.filter_sublist (p := p.noRequest [n]) (l := p.sgp.control)).filter (fun f => !f.body.isBeacon)
  have few := kept.length_le
  have one : (([n].filterMap p.releaseFrame?).filter fun f => !f.body.isBeacon).length ≤ 1 :=
    Nat.le_trans (List.length_filter_le _ _) (List.length_filterMap_le _ _)
  have whole := room.2
  rw [List.filter_append, List.length_append]
  omega

theorem Part.rising_lanesReleased {p : Part} (rising : p.ftu.rising = true) (lanes : List Nat) :
    (p.lanesReleased lanes).ftu.rising = true := by
  have numbers : ((p.lanesReleased lanes).ftu).map Prod.fst = p.ftu.map Prod.fst := by
    rw [Part.lanesReleased_eq, List.map_map]
    refine List.map_congr_left fun r _ => ?_
    rw [Function.comp_apply]
    split <;> rfl
  rw [Table.rising_iff] at rising ⊢
  rwa [numbers]

/-- Lanes released one by one, where the control queue has room for their RELEASEs (R120). -/
theorem Part.releaseLanes_eq {p : Part} {lanes : List Nat} (nodup : lanes.Nodup) (room : p.roomFor lanes.length)
    (rising : p.ftu.rising = true) : p.releaseLanes lanes = p.lanesReleased lanes := by
  induction lanes generalizing p with
  | nil => exact (Part.lanesReleased_nil p).symm
  | cons n rest ih =>
    obtain ⟨fresh, nodup⟩ := List.nodup_cons.1 nodup
    have one : p.roomFor 1 := ⟨room.1, Nat.le_trans (Nat.add_le_add_left (by simp) _) room.2⟩
    rw [Part.releaseLanes, List.foldl_cons, Part.releaseLane_eq one rising]
    exact (ih nodup (Part.roomFor_lanesReleased room) (Part.rising_lanesReleased rising _)).trans
      (Part.lanesReleased_cons fresh)

/-! ## The fills requested (R95, step 8) -/

theorem Part.foldl_requestFill {p : Part} (c : Nat) {slots : List Nat} (nodup : slots.Nodup) :
    slots.foldl (fun q j => q.requestFill c j) p =
      { p with smc := { p.smc with
          fillQueue := (p.smc.fillQueue.filter fun f => !slots.contains f.slot)
            ++ slots.map fun j => { context := c, generation := p.generation c, slot := j } } } := by
  induction slots generalizing p with
  | nil => simp
  | cons j rest ih =>
    obtain ⟨fresh, nodup⟩ := List.nodup_cons.1 nodup
    rw [List.foldl_cons, ih nodup]
    have queue : ((p.requestFill c j).smc.fillQueue.filter fun f => !rest.contains f.slot)
        ++ rest.map (fun i => ({ context := c, generation := (p.requestFill c j).generation c, slot := i } : FillRequest))
        = (p.smc.fillQueue.filter fun f => !(j :: rest).contains f.slot)
          ++ (j :: rest).map fun i => { context := c, generation := p.generation c, slot := i } := by
      have requested : (p.requestFill c j).smc.fillQueue =
          (p.smc.fillQueue.filter fun f => f.slot != j) ++ [{ context := c, generation := p.generation c, slot := j }] := rfl
      have apart : rest.contains j = false := by simpa using fresh
      rw [requested, List.filter_append, List.filter_filter]
      simp only [List.filter_cons, apart, Bool.not_false, if_true, List.filter_nil, List.map_cons, List.append_assoc,
        List.singleton_append]
      congr 1
      refine List.filter_congr fun f _ => ?_
      by_cases here : f.slot = j <;> simp [here]
    rw [queue]
    rfl

/-! ## The re-plan (R95) -/

theorem Part.detachOpener_eq {p : Part} {c : Nat} (rising : p.svu.entries.rising = true)
    (openers : ∀ r ∈ p.svu.entries, (∃ o ∈ r.2.openers, o.isInternalOf c = true) →
      r.2.state = .staging ∨ r.2.state = .staged) : p.detachOpener c =
    { p with svu := { p.svu with
        entries := p.svu.entries.map fun r =>
          (r.1, { r.2 with openers := r.2.openers.filter fun o => !o.isInternalOf c })
        waiting := p.svu.waiting.filter fun i => i.context != c } } := by
  rw [Part.detachOpener, Part.removeOpenersEverywhere_entries rising fun r member any =>
    openers r member (List.any_eq_true.1 any)]
  rfl

theorem Part.refill_eq {p : Part} {c : Nat} {x : Context} (inUse : p.context? c = some x)
    (slots : (x.enabled.filterMap LostEntry.slot).Nodup) : p.refill c =
    { p with
      ctx := { p.ctx with contexts := p.ctx.contexts.editRow c fun y =>
        { y with lostList := y.lostList.map fun e =>
            if e.enabled && e.slot.isSome then { e with fill := .filling } else e } }
      smc := { p.smc with
        fillQueue := (p.smc.fillQueue.filter fun f => !(x.enabled.filterMap LostEntry.slot).contains f.slot)
          ++ (x.enabled.filterMap LostEntry.slot).map fun j =>
            { context := c, generation := p.generation c, slot := j } } } := by
  have meaning : p.refill c = (x.enabled.filterMap LostEntry.slot).foldl (fun r j => r.requestFill c j)
      (p.editContext c fun y =>
        { y with lostList := y.lostList.map fun e =>
            if e.enabled && e.slot.isSome then { e with fill := .filling } else e }) := by
    simp only [Part.refill, inUse]
  rw [meaning, Part.foldl_requestFill c slots]
  rfl

theorem Part.context?_editContext {p : Part} {c : Nat} {x : Context} (inUse : p.context? c = some x)
    (f : Context → Context) : (p.editContext c f).context? c = some (f x) :=
  (Table.row?_editRow _ _ _ _).trans ((if_pos rfl).trans (congrArg (Option.map f) inUse))

theorem Part.askSlots_granted {p : Part} {c : Nat} {x : Context} (inUse : p.context? c = some x)
    (granted : ∀ e ∈ x.lostList, e.enabled = true → e.slot ≠ none) : p.askSlots c = p := by
  have none_ : x.lacking = [] := by
    unfold Context.lacking
    rw [List.map_eq_nil_iff, List.filter_eq_nil_iff]
    intro e member
    have has := granted e member
    cases enabled : e.enabled <;> cases slot : e.slot <;> simp_all [LostEntry.lacksSlot]
  simp [Part.askSlots, inUse, none_]

/-- What a re-plan clears in its context (R95, steps 1 and 5 to 7). -/
def Context.replanCleared (y : Context) : Context :=
  { y with
    rePlans := y.rePlans + 1
    survivors := none
    plan := none
    contributions := List.replicate y.chunkCount []
    chunksComplete := 0
    deadline := .absent }

/-- The part in which a context has released what a re-plan takes from it, before its fills are requested (R95). -/
def Part.replanReleased (p : Part) (c : Nat) (x : Context) : Part :=
  { p.lanesReleased x.reservation with
    ctx := {
      contexts := p.ctx.contexts.editRow c Context.replanCleared
      generations := p.ctx.generations.setRow c (p.generation c + 1) }
    plu := {
      queue := p.plu.queue.filter (· != c)
      job := p.plu.job.map fun j => if j.context = c then { j with void := true } else j }
    svu := { p.svu with
      entries := p.svu.entries.map fun r =>
        (r.1, { r.2 with openers := r.2.openers.filter fun o => !o.isInternalOf c })
      waiting := p.svu.waiting.filter fun i => i.context != c } }

section
variable {p : Part} {c : Nat} {x : Context} (inUse : p.context? c = some x) (lanes : x.reservation.Nodup)
  (openers : ∀ r ∈ p.svu.entries, (∃ o ∈ r.2.openers, o.isInternalOf c = true) →
    r.2.state = .staging ∨ r.2.state = .staged)
  (rising : p.ftu.rising = true ∧ p.svu.entries.rising = true) (room : p.roomFor x.reservation.length)
  (tries : x.rePlans < 8)

include inUse in
theorem Part.replanReleased_context : (p.replanReleased c x).context? c = some x.replanCleared :=
  (Table.row?_editRow _ _ _ _).trans ((if_pos rfl).trans (congrArg (Option.map _) inUse))

theorem Part.replanReleased_generation : (p.replanReleased c x).generation c = p.generation c + 1 :=
  congrArg (Option.getD · 0) (Table.row?_setRow_self _ _ _)

include lanes openers rising room in
/-- The first steps of a re-plan, up to what it clears in its context (R95). -/
theorem Part.replanReleased_eq :
    ((((p.bumpGeneration c).tellPlanUnit c).releaseLanes x.reservation).detachOpener c).editContext c
      Context.replanCleared = p.replanReleased c x := by
  rw [Part.releaseLanes_eq (p := (p.bumpGeneration c).tellPlanUnit c) lanes room rising.1,
    Part.detachOpener_eq (p := ((p.bumpGeneration c).tellPlanUnit c).lanesReleased x.reservation) rising.2 openers]
  rfl

include inUse lanes openers rising room tries

theorem Part.rePlan_none : p.rePlan c none = (((p.replanReleased c x).refill c).askSlots c).enterPlanning c := by
  rw [← Part.replanReleased_eq lanes openers rising room]
  simp only [Part.rePlan, inUse]
  exact if_neg (Nat.not_le.2 tries)

theorem Part.rePlan_some (new : Positions) : p.rePlan c (some new) =
    ((((p.replanReleased c x).rebuildLostList c new).refill c).askSlots c).enterPlanning c := by
  rw [← Part.replanReleased_eq lanes openers rising room]
  simp only [Part.rePlan, inUse]
  exact if_neg (Nat.not_le.2 tries)

variable (granted : ∀ e ∈ x.lostList, e.enabled = true → e.slot ≠ none)
  (slots : ((x.lostList.filter LostEntry.enabled).filterMap LostEntry.slot).Nodup)
include granted slots

/-- A re-plan, where the enabled entries of the context have slots (R95). -/
theorem Part.rePlan_plain : p.rePlan c none = p.rePlanned c x none := by
  have cleared := Part.replanReleased_context inUse
  have filled := Part.refill_eq cleared slots
  have after : ((p.replanReleased c x).refill c).context? c = some { x.replanCleared with
      lostList := x.lostList.map fun e => if e.enabled && e.slot.isSome then { e with fill := .filling } else e } := by
    rw [filled]
    exact Part.context?_editContext cleared _
  rw [Part.rePlan_none inUse lanes openers rising room tries, Part.askSlots_granted after fun e member enabled => ?_, filled,
    Part.replanReleased_generation]
  · have fused : ((p.ctx.contexts.editRow c Context.replanCleared).editRow c fun y =>
        { y with lostList := y.lostList.map fun e =>
            if e.enabled && e.slot.isSome then { e with fill := .filling } else e }).editRow c
          (fun y => { y with state := .planning }) = p.ctx.contexts.editRow c fun y =>
        { y with
          state := .planning
          rePlans := y.rePlans + 1
          survivors := none
          plan := none
          contributions := List.replicate y.chunkCount []
          chunksComplete := 0
          deadline := .absent
          lostList := y.lostList.map fun e =>
            if e.enabled = true ∧ e.slot ≠ none then { e with fill := .filling } else e } := by
      rw [Table.editRow_editRow, Table.editRow_editRow]
      have same (e : LostEntry) : (e.enabled && e.slot.isSome) = true ↔ e.enabled = true ∧ e.slot ≠ none := by
        rw [Bool.and_eq_true, Option.isSome_iff_ne_none]
      simp only [same]
      rfl
    have whole := congrArg (fun contexts => { p.rePlanned c x none with
      ctx := { contexts := contexts, generations := p.ctx.generations.setRow c (p.generation c + 1) } }) fused
    exact whole
  · obtain ⟨f, listed, rfl⟩ := List.mem_map.1 member
    split at enabled
    · rw [if_pos ‹_›]
      exact granted f listed enabled
    · rw [if_neg ‹_›]
      exact granted f listed enabled

/-- A re-plan with a position that is unusable from then on (R94, R95). -/
theorem Part.rePlan_unusable (position : Nat) :
    (p.markUnusable c position).rePlan c none = p.rePlanned c x (some position) := by
  have marked : (p.markUnusable c position).context? c =
      some { x with unusable := insertPosition position x.unusable } := Part.context?_editContext inUse _
  rw [Part.rePlan_plain (p := p.markUnusable c position) marked lanes openers rising room tries granted slots]
  have fused := Table.editRow_editRow p.ctx.contexts c
    (fun y => { y with unusable := insertPosition position y.unusable }) fun y =>
        { y with
          state := .planning
          rePlans := y.rePlans + 1
          survivors := none
          plan := none
          contributions := List.replicate y.chunkCount []
          chunksComplete := 0
          deadline := .absent
          lostList := y.lostList.map fun e =>
            if e.enabled = true ∧ e.slot ≠ none then { e with fill := .filling } else e }
  exact congrArg (fun contexts => { p.rePlanned c x (some position) with
    ctx := { contexts := contexts, generations := p.ctx.generations.setRow c (p.generation c + 1) } }) fused

end

end Machine

end Sys2Proof

/-! A lane fails, and its context plans again (R94, R95, R118). -/

namespace Sys2Proof.Machine

theorem Part.withdrawRequests_same (p : Part) (n : Nat) : ∃ sgp, p.withdrawRequests n = { p with sgp := sgp } :=
  ⟨_, rfl⟩

theorem Part.queueOpen_withdrawRequests {p : Part} (room : p.queueOpen) (n : Nat) : (p.withdrawRequests n).queueOpen := by
  rw [Part.withdrawRequests_noneHeld room.1 n]
  refine ⟨room.1, decide_eq_true ?_⟩
  have few : (p.sgp.control.filter fun f => !f.body.isBeacon).length < controlPlaces := of_decide_eq_true room.2
  exact Nat.lt_of_le_of_lt (List.filter_sublist.filter _).length_le few

/-- The use of a lane that has FAILED (R118). -/
def LaneUse.failedWith (u : LaneUse) (cause : LaneFailure) : LaneUse :=
  { u with state := .failed cause, bank0 := .empty, bank1 := .empty }

section
variable {p : Part} {n : Nat} {u : LaneUse} (use : p.laneUse? n = some u)
include use

/-- A RELEASE posted by a lane after its use is written (R118). -/
theorem Part.postRelease_setUse (room : p.queueOpen) (v : LaneUse) (server : Nat) :
    ((p.withdrawRequests n).setUse n v).postRelease n server =
      ((p.withdrawRequests n).queued (some server) (.release (fetchTag n (p.lane n).useCount))).setUse n v := by
  have lane : ((p.withdrawRequests n).setUse n v).lane n = { p.lane n with use := some v } :=
    Part.lane_setUse (p.withdrawRequests n) n v u use
  have posted := Part.post_open ((p.withdrawRequests n).setUse n v) (some server)
    (.release (((p.withdrawRequests n).setUse n v).laneTag n)) (Part.queueOpen_withdrawRequests room n) rfl
  rw [Part.postRelease, posted, Part.laneTag, lane]
  rfl

theorem Part.enterFailed_eq {cause : LaneFailure} (room : cause.tellsServer u = true → p.queueOpen) :
    p.enterFailed n cause = p.laneFailed n u cause := by
  have quiet : cause.tellsServer u = false →
      (p.withdrawRequests n).setUse n (u.failedWith cause) = p.laneFailed n u cause := fun silent => by
    rw [Part.laneFailed, silent]
    rfl
  have told : cause.tellsServer u = true →
      ((p.withdrawRequests n).setUse n (u.failedWith cause)).postRelease n u.server = p.laneFailed n u cause := fun tells => by
    rw [Part.laneFailed, tells]
    exact Part.postRelease_setUse use (room tells) _ _
  simp only [Part.enterFailed, use]
  cases cause with
  | refused | serverLost => exact quiet rfl
  | noReply | length | damaged | reOpenLimit => exact told rfl
  | waitLimit =>
    dsimp only
    rcases Bool.eq_false_or_eq_true u.waitBusy with busy | clear
    · exact (if_pos busy).trans (quiet (by simp [LaneFailure.tellsServer, busy]))
    · exact (if_neg (by simp [clear])).trans (told (by simp [LaneFailure.tellsServer, clear]))

theorem Part.laneUse?_laneFailed (cause : LaneFailure) : (p.laneFailed n u cause).laneUse? n = some (u.failedWith cause) := by
  unfold Part.laneFailed
  split
  · exact Part.laneUse?_setUse ((p.withdrawRequests n).queued _ _) n _ u use
  · exact Part.laneUse?_setUse (p.withdrawRequests n) n _ u use

omit use in
/-- What a lane that fails leaves: all but the lanes and the segment port. -/
theorem Part.laneFailed_same (p : Part) (n : Nat) (u : LaneUse) (cause : LaneFailure) :
    ∃ sgp, p.laneFailed n u cause =
      { p with sgp := sgp, ftu := p.ftu.editRow n fun l => { l with use := some (u.failedWith cause) } } := by
  unfold Part.laneFailed
  dsimp only
  split
  · exact ⟨_, rfl⟩
  · exact ⟨_, rfl⟩

omit use in
theorem Part.roomFor_laneFailed {k : Nat} (room : p.roomFor (k + 1)) (cause : LaneFailure) :
    (p.laneFailed n u cause).roomFor k := by
  have withdrawn := Part.roomFor_withdrawRequests room n
  unfold Part.laneFailed
  dsimp only
  split
  · refine ⟨withdrawn.1, ?_⟩
    change (List.filter _ ((p.withdrawRequests n).sgp.control ++ [_])).length + k ≤ 63
    have few := withdrawn.2
    have one := List.length_filter_le (fun f : ControlFrame => !f.body.isBeacon)
      [{ target := some u.server, epoch := (p.withdrawRequests n).prs.ownEpoch,
         body := .release (fetchTag n (p.lane n).useCount) }]
    rw [List.filter_append, List.length_append]
    simp only [List.length_singleton] at one
    omega
  · exact ⟨withdrawn.1, Nat.le_trans (Nat.le_succ _) withdrawn.2⟩

/-- A lane fails whose context does not gather under its generation (R118). -/
theorem Part.failLane_alone {cause : LaneFailure} (still : p.gatheringAt u.context u.generation = false)
    (room : cause.tellsServer u = true → p.queueOpen) : p.failLane n cause = p.laneFailed n u cause := by
  obtain ⟨sgp, same⟩ := Part.laneFailed_same p n u cause
  have gathers : (p.laneFailed n u cause).gatheringAt u.context u.generation = false := by
    rw [same]
    exact still
  have failed := Part.laneUse?_laneFailed use cause
  rw [Part.failLane, Part.enterFailed_eq use room]
  simp only [Part.reportFailedLane, failed, LaneUse.failedWith, gathers, Bool.false_eq_true, if_false]

theorem Part.failLane_gathering {cause : LaneFailure} (gathers : p.gatheringAt u.context u.generation = true)
    (room : cause.tellsServer u = true → p.queueOpen) : p.failLane n cause =
      (if cause = .serverLost then p.laneFailed n u cause
        else (p.laneFailed n u cause).markUnusable u.context u.position).rePlan u.context none := by
  obtain ⟨sgp, same⟩ := Part.laneFailed_same p n u cause
  have gathers : (p.laneFailed n u cause).gatheringAt u.context u.generation = true := by
    rw [same]
    exact gathers
  have failed := Part.laneUse?_laneFailed use cause
  rw [Part.failLane, Part.enterFailed_eq use room]
  simp only [Part.reportFailedLane, failed, LaneUse.failedWith, gathers, if_true]

/-- A lane fails whose context gathers under its generation: the context plans again (R94, R95, R118). -/
theorem Part.failLane_rePlans {cause : LaneFailure} {x : Context} (plain : p.CanRePlan u.context u.generation x)
    (tries : x.rePlans < 8) : p.failLane n cause =
      (p.laneFailed n u cause).rePlanned u.context x (if cause = .serverLost then none else some u.position) := by
  obtain ⟨sgp, same⟩ := Part.laneFailed_same p n u cause
  have gathers : p.gatheringAt u.context u.generation = true := by
    simp [Part.gatheringAt, plain.inUse, Context.live, plain.live, plain.gathers, plain.current]
  have inUse : (p.laneFailed n u cause).context? u.context = some x := by
    rw [same]
    exact plain.inUse
  have openers : ∀ r ∈ (p.laneFailed n u cause).svu.entries, (∃ o ∈ r.2.openers, o.isInternalOf u.context = true) →
      r.2.state = .staging ∨ r.2.state = .staged := by
    rw [same]
    exact plain.openers
  have rising : (p.laneFailed n u cause).ftu.rising = true ∧ (p.laneFailed n u cause).svu.entries.rising = true := by
    rw [same]
    refine ⟨?_, plain.rising.2⟩
    exact (Table.rising_editRow p.ftu n fun l => { l with use := some (u.failedWith cause) }).trans plain.rising.1
  have room := Part.roomFor_laneFailed (u := u) (n := n) plain.room cause
  rw [Part.failLane_gathering use gathers fun _ => Part.queueOpen_of_roomFor _ (by omega) plain.room]
  split
  · exact Part.rePlan_plain inUse plain.lanes openers rising room tries plain.granted plain.slots
  · exact Part.rePlan_unusable inUse plain.lanes openers rising room tries plain.granted plain.slots _

end

/-- A context that can plan again can do so from a part with the same contexts, serve entries and segment port. -/
theorem Part.CanRePlan.of_same {p q : Part} {c : Nat} {g : BitVec 8} {x : Context} (h : p.CanRePlan c g x)
    (ctx : q.ctx = p.ctx) (svu : q.svu = p.svu) (sgp : q.sgp = p.sgp) (ftu : q.ftu.rising = true) : q.CanRePlan c g x where
  inUse := by rw [Part.context?, ctx]; exact h.inUse
  granted := h.granted
  slots := h.slots
  lanes := h.lanes
  openers := by rw [svu]; exact h.openers
  rising := ⟨ftu, by rw [svu]; exact h.rising.2⟩
  room := by rw [Part.roomFor, sgp]; exact h.room
  live := h.live
  gathers := h.gathers
  current := by rw [Part.generation, ctx]; exact h.current

/-- A command that fails a lane of a base that differs from the part in the clock alone. -/
theorem failsLane_of {i : Instr} {w : List Instr} {p base : Part} {n : Nat} {u : LaneUse} {cause : LaneFailure}
    {f : Part → Part} (meaning : exec i ⟨w, p⟩ = run ⟨w, p⟩ f) (effect : f p = base.failLane n cause) {now : Nat}
    (clock : base = { p with now := now }) (use : p.laneUse? n = some u) : FailsLane i w p base n u cause := by
  subst clock
  refine ⟨fun still room => answers_of_effect meaning (congrArg Part.unmarked (effect.trans ?_)),
    fun x plain tries => answers_of_effect meaning (congrArg Part.unmarked (effect.trans ?_))⟩
  · exact Part.failLane_alone (p := { p with now := now }) use still room
  · exact Part.failLane_rePlans (p := { p with now := now }) use (plain.of_same rfl rfl rfl plain.rising.1) tries

end Sys2Proof.Machine

/-! The fetch commands: the frames that a lane takes, and the timers of a lane (chapter 7). -/

namespace Sys2Proof.Machine

/-! ## The frames that a lane takes (R106) -/

/-- What a frame of the fetch exchange does: what the lane that its tag names makes of it, or nothing (R106). -/
def Part.atLane (h : FrameHeader) (tag : Tag) (take : Part → Nat → LaneUse → Part) (q : Part) : Part :=
  match q.laneFor? h.sender.toNat tag with
  | some (n, u) => take q n u
  | none => q

theorem Part.atLane_none {p : Part} {h : FrameHeader} {tag : Tag} (nobody : p.noLaneFor h tag)
    (take : Part → Nat → LaneUse → Part) : p.atLane h tag take = p := by
  simp [Part.atLane, p.laneFor?_of_noLaneFor h tag nobody]

theorem Part.atLane_used {p : Part} {h : FrameHeader} {tag : Tag} {n : Nat} {u : LaneUse} (used : p.laneUsed h tag n u)
    (take : Part → Nat → LaneUse → Part) : p.atLane h tag take = take p n u := by
  simp [Part.atLane, p.laneFor?_of_laneUsed h tag n u used]

/-- The command is a frame of the fetch exchange, from a peer, that a lane takes so. -/
def TakenAtLane (i : Instr) (w : List Instr) (p : Part) (h : FrameHeader) (tag : Tag)
    (take : Part → Nat → LaneUse → Part) : Prop :=
  ∃ f : Part → Part, exec i ⟨w, p⟩ = run ⟨w, p⟩ f ∧ (laneOfTag tag ≤ 127 → f p = p.atLane h tag take)

section
variable {i : Instr} {w : List Instr} {p : Part} {h : FrameHeader} {tag : Tag} {take : Part → Nat → LaneUse → Part}
  (taken : TakenAtLane i w p h tag take)
include taken

theorem TakenAtLane.ignored (nobody : p.noLaneFor h tag) : Answers i ⟨w, p⟩ p := by
  obtain ⟨f, meaning, effect⟩ := taken
  exact answers_of_effect meaning (congrArg Part.unmarked ((effect nobody.1).trans (Part.atLane_none nobody take)))

theorem TakenAtLane.answers {n : Nat} {u : LaneUse} (used : p.laneUsed h tag n u) {q : Part} (eq : take p n u = q) :
    Answers i ⟨w, p⟩ q := by
  obtain ⟨f, meaning, effect⟩ := taken
  have lane : laneOfTag tag ≤ 127 := used.1 ▸ used.2.1
  exact answers_of_effect meaning (congrArg Part.unmarked ((effect lane).trans ((Part.atLane_used used take).trans eq)))

theorem TakenAtLane.fails {n : Nat} {u : LaneUse} (used : p.laneUsed h tag n u) {cause : LaneFailure}
    (eq : take p n u = p.failLane n cause) : FailsLane i w p p n u cause := by
  obtain ⟨f, meaning, effect⟩ := taken
  have lane : laneOfTag tag ≤ 127 := used.1 ▸ used.2.1
  exact failsLane_of meaning ((effect lane).trans ((Part.atLane_used used take).trans eq)) (now := p.now) rfl used.2.2.1

end

theorem RefuseReason.ofCode?_code (r : RefuseReason) : RefuseReason.ofCode? r.code = some r := by
  cases r <;> rfl

section
variable (w : List Instr) {p : Part} {h : FrameHeader} (from_ : p.fromPeer h) (tag : Tag)
include from_

theorem ready_takenAtLane (present : Byte) (length : BitVec 32) (digest : Digest) :
    TakenAtLane (.ready h tag present length digest) w p h tag fun q n u =>
      q.takeReady n u length.toNat (if flagSet present then some digest else none) :=
  ⟨fun p => p.receive h (.ready tag present length digest) (Part.atLane h tag fun q n u =>
      q.takeReady n u length.toNat (if flagSet present then some digest else none)), rfl,
    fun lane => Part.receive_fromPeer _ _ _ _ from_ rfl rfl (decide_eq_true lane)⟩

theorem wait_takenAtLane (hint busy : Byte) :
    TakenAtLane (.wait h tag hint busy) w p h tag fun q n u => q.takeWait n u (waitHint hint) (flagSet busy) :=
  ⟨fun p => p.receive h (.wait tag hint busy) (Part.atLane h tag fun q n u =>
      q.takeWait n u (waitHint hint) (flagSet busy)), rfl,
    fun lane => Part.receive_fromPeer _ _ _ _ from_ rfl rfl (decide_eq_true lane)⟩

theorem refuse_takenAtLane (reason : RefuseReason) :
    TakenAtLane (.refuse h tag reason.code) w p h tag fun q n u => q.takeRefuse n u reason := by
  refine ⟨fun p => p.receive h (.refuse tag reason.code) fun q =>
    match q.laneFor? h.sender.toNat tag, RefuseReason.ofCode? reason.code with
    | some (n, u), some r => q.takeRefuse n u r
    | _, _ => q, rfl, fun lane => (Part.receive_fromPeer _ _ _ _ from_ rfl rfl ?_).trans ?_⟩
  · exact Bool.and_eq_true_iff.2 ⟨decide_eq_true lane, congrArg Option.isSome (RefuseReason.ofCode?_code reason)⟩
  · rw [RefuseReason.ofCode?_code]
    unfold Part.atLane
    cases p.laneFor? h.sender.toNat tag <;> rfl

theorem chunk_takenAtLane (c : Byte) {data : List Byte} (some_ : 1 ≤ data.length) (most : data.length ≤ 8192) :
    TakenAtLane (.chunk h tag c data) w p h tag fun q n u => q.takeChunk n u c.toNat data :=
  ⟨fun p => p.receive h (.chunk tag c data) (Part.atLane h tag fun q n u => q.takeChunk n u c.toNat data), rfl,
    fun lane => Part.receive_fromPeer _ _ _ _ from_ rfl (decide_eq_true ⟨some_, most⟩) (decide_eq_true lane)⟩

end

/-! ## CHUNK (R113, R114) -/

theorem Part.setUse_editLane_use {p : Part} (n : Nat) (u : LaneUse) (f : Lane → Lane) :
    (p.setUse n u).editLane n f = p.editLane n fun l => f { l with use := some u } := by
  simp only [Part.setUse, Part.editLane, Table.editRow_editRow]

theorem Part.postCombine_eq (p : Part) (r : CombineRequest) : p.postCombine r =
    if p.combineDepth = 95 ∧ p.cbe.warning = false then
      Part.flagged { p with cbe := { p.cbe with queue := p.cbe.queue ++ [r], warning := true } } .warn
    else { p with cbe := { p.cbe with queue := p.cbe.queue ++ [r] } } := by
  have depth : Part.combineDepth { p with cbe := { p.cbe with queue := p.cbe.queue ++ [r] } } = 96 ↔
      p.combineDepth = 95 := by
    simp only [Part.combineDepth, List.length_append, List.length_singleton]
    omega
  simp only [Part.postCombine, depth, Part.setFlag_eq_flagged]

theorem LaneUse.bankOf_setBank (u : LaneUse) (chunk : Nat) (b : Bank) : (u.setBank chunk b).bankOf chunk = b := by
  unfold LaneUse.setBank LaneUse.bankOf
  split <;> rfl

@[simp] theorem LaneUse.setBank_state (u : LaneUse) (chunk : Nat) (b : Bank) : (u.setBank chunk b).state = u.state := by
  unfold LaneUse.setBank; split <;> rfl

@[simp] theorem LaneUse.setBank_nextConsume (u : LaneUse) (chunk : Nat) (b : Bank) :
    (u.setBank chunk b).nextConsume = u.nextConsume := by unfold LaneUse.setBank; split <;> rfl

@[simp] theorem LaneUse.setBank_context (u : LaneUse) (chunk : Nat) (b : Bank) :
    (u.setBank chunk b).context = u.context := by unfold LaneUse.setBank; split <;> rfl

@[simp] theorem LaneUse.setBank_generation (u : LaneUse) (chunk : Nat) (b : Bank) :
    (u.setBank chunk b).generation = u.generation := by unfold LaneUse.setBank; split <;> rfl

@[simp] theorem LaneUse.setBank_survivor (u : LaneUse) (chunk : Nat) (b : Bank) :
    (u.setBank chunk b).survivor = u.survivor := by unfold LaneUse.setBank; split <;> rfl

/-- What a lane asks for its next chunk (R114). -/
def LaneUse.combineOf (u : LaneUse) (n : Nat) (tag : Tag) : CombineRequest where
  context := u.context
  generation := u.generation
  survivor := u.survivor
  chunk := u.nextConsume
  source := .lane n tag

/-- A lane whose combine outstanding mark is set posts no request (R114). -/
theorem Part.laneCombine_outstanding {p : Part} {n : Nat} (mark : (p.lane n).outstanding = true) :
    p.laneCombine n = p := by
  unfold Part.laneCombine
  split
  · rfl
  · exact if_neg (by simp [mark])

/-- A lane whose next chunk is not in its bank posts no request (R114). -/
theorem Part.laneCombine_notFull {p : Part} {n : Nat} {u : LaneUse} (use : p.laneUse? n = some u)
    (none_ : (u.bankOf u.nextConsume).fullFor u.nextConsume = false) : p.laneCombine n = p := by
  simp only [Part.laneCombine, use]
  exact if_neg (by simp [none_])

/-- A lane that posts the combine request of its next chunk (R114). -/
theorem Part.laneCombine_asks {p : Part} {n : Nat} {u : LaneUse} (use : p.laneUse? n = some u) (active : u.active = true)
    (full : (u.bankOf u.nextConsume).fullFor u.nextConsume = true) (clear : (p.lane n).outstanding = false) :
    p.laneCombine n = (p.editLane n fun l => { l with outstanding := true }).postCombine
      (u.combineOf n (fetchTag n (p.lane n).useCount)) := by
  simp only [Part.laneCombine, use]
  exact if_pos (by simp [active, full, clear])

/-- Settles O45. -/
theorem chunksFillBanks : Obligations.ChunksFillBanks := by
  refine fun w p h tag c data from_ some_ most => ?_
  have meaning := chunk_takenAtLane w from_ tag c some_ most
  refine ⟨meaning.ignored, fun n u used => ⟨fun unfit => meaning.answers used (if_neg ?_),
    fun streams requested length => ?_⟩⟩
  · rintro ⟨streams, requested, length⟩
    rcases unfit with other | unasked | longer
    · exact other streams
    · exact Bool.false_ne_true (unasked.symm.trans requested)
    · exact longer length
  obtain ⟨v, filled⟩ : ∃ v, v = u.setBank c.toNat (.full c.toNat data) := ⟨_, rfl⟩
  have lane : (p.setUse n v).lane n = { p.lane n with use := some v } := p.lane_setUse n v u used.2.2.1
  have taken : p.takeChunk n u c.toNat data =
      if c.toNat = u.nextConsume then (p.setUse n v).laneCombine n else p.setUse n v := by
    rw [filled]
    exact if_pos ⟨streams, requested, length⟩
  rw [← filled]
  refine ⟨fun quiet => meaning.answers used (taken.trans ?_), fun posted posted_eq next clear => ?_⟩
  · split
    · next next =>
      refine Part.laneCombine_outstanding ?_
      rw [lane]
      exact quiet.resolve_left fun other => other next
    · rfl
  · have asks : (p.setUse n v).laneCombine n = ((p.setUse n v).editLane n fun l => { l with outstanding := true }).postCombine
        (v.combineOf n (fetchTag n ((p.setUse n v).lane n).useCount)) := by
      refine Part.laneCombine_asks (p.laneUse?_setUse n v u used.2.2.1) ?_ ?_ ?_
      · simp [filled, LaneUse.active, streams]
      · rw [filled, LaneUse.setBank_nextConsume, ← next, LaneUse.bankOf_setBank]
        exact beq_self_eq_true c.toNat
      · rw [lane]
        exact clear
    have request : v.combineOf n (fetchTag n ((p.setUse n v).lane n).useCount) =
        { context := u.context, generation := u.generation, survivor := u.survivor, chunk := c.toNat,
          source := .lane n tag } := by
      rw [lane, show fetchTag n (p.lane n).useCount = tag from used.2.2.2.1, filled, next]
      simp [LaneUse.combineOf]
    have effect : p.takeChunk n u c.toNat data =
        if p.combineDepth = 95 ∧ p.cbe.warning = false then
          Part.flagged { posted with cbe := { posted.cbe with warning := true } } .warn
        else posted := by
      rw [taken, if_pos next, asks, request, Part.setUse_editLane_use, Part.postCombine_eq, posted_eq]
      rfl
    exact ⟨fun calm => meaning.answers used (effect.trans (if_neg fun ⟨depth, low⟩ =>
        calm.elim (fun other => other depth) fun raised => Bool.false_ne_true (low.symm.trans raised))),
      fun depth low => meaning.answers used (effect.trans (if_pos ⟨depth, low⟩))⟩

/-! ## The timers of a lane (R108, R110, R117) -/

section
variable {p : Part} {n : Nat} {u : LaneUse} (use : p.laneUse? n = some u) (room : p.queueOpen)
include use room

/-- A lane's OPEN posted after its use is written (R108, R158). -/
theorem Part.postOpen_setUse (v : LaneUse) : (p.setUse n v).postOpen n u =
    (p.queued (some u.server)
      (.fetchOpen u.stripe (BitVec.ofNat 8 u.position) (fetchTag n (p.lane n).useCount))).setUse n v := by
  have open_ : (p.setUse n v).queueOpen := room
  have posted := Part.post_open (p.setUse n v) (some u.server)
    (.fetchOpen u.stripe (BitVec.ofNat 8 u.position) ((p.setUse n v).laneTag n)) open_ rfl
  refine (if_pos (Part.takesControl_open _ open_)).trans (posted.trans ?_)
  rw [Part.laneTag, p.lane_setUse n v u use]
  rfl

/-- A lane's PULL posted after its use is written (R112, R158). -/
theorem Part.postPull_setUse (v : LaneUse) (chunk : Nat) : (p.setUse n v).postPull n u chunk =
    (p.queued (some u.server) (.pull (fetchTag n (p.lane n).useCount) (BitVec.ofNat 8 chunk))).setUse n v := by
  have open_ : (p.setUse n v).queueOpen := room
  have posted := Part.post_open (p.setUse n v) (some u.server)
    (.pull ((p.setUse n v).laneTag n) (BitVec.ofNat 8 chunk)) open_ rfl
  refine (if_pos (Part.takesControl_open _ open_)).trans (posted.trans ?_)
  rw [Part.laneTag, p.lane_setUse n v u use]
  rfl

end

section
variable {p : Part} {n : Nat} {u : LaneUse} (use : p.laneUse? n = some u)
include use

theorem Part.expireOpen_eq {due : Nat} (state : u.state = .opening (some due)) : p.expireOpen n =
    if p.tries ≤ u.openTries then (p.reach due).failLane n .noReply
    else ((p.reach due).setUse n { u with state := .opening none, openTries := u.openTries + 1 }).postOpen n u := by
  simp only [Part.expireOpen, use, state]
  rfl

theorem Part.expirePull_eq {bank c tries sent : Nat} (held : u.bankNumbered? bank = some (.requested c tries (some sent)))
    (streams : u.state = .streaming) : p.expirePull n bank =
      if p.tries ≤ tries then (p.reach (sent + p.replyTimeout)).failLane n .noReply
      else ((p.reach (sent + p.replyTimeout)).setUse n (u.setBank bank (.requested c (tries + 1) none))).postPull n u c := by
  simp only [Part.expirePull, use, held]
  exact if_pos streams

theorem Part.expireWait_eq {due : Nat} (state : u.state = .openWait due) : p.expireWait n =
    ((p.reach due).setUse n { u with state := .opening none, openTries := 1 }).postOpen n u := by
  simp only [Part.expireWait, use, state]

end

/-- Settles O46. -/
theorem laneTimersExpire : Obligations.LaneTimersExpire := by
  refine fun w p n u tag use _ tag_eq room => ⟨fun due state => ?_, fun bank c tries sent held _ streams => ?_,
    fun due state => ?_⟩
  · have meaning : exec (.openReplyTimeout n) ⟨w, p⟩ = run ⟨w, p⟩ fun p => p.expireOpen n := rfl
    have effect := Part.expireOpen_eq use state
    refine ⟨fun few => answers_of_effect meaning (congrArg Part.unmarked ?_),
      fun all => failsLane_of meaning (effect.trans (if_pos all)) (now := max p.now due) rfl use⟩
    rw [tag_eq]
    exact (effect.trans (if_neg (Nat.not_le_of_lt few))).trans (Part.postOpen_setUse (p := p.reach due) use room _)
  · have meaning : exec (.pullReplyTimeout n bank) ⟨w, p⟩ = run ⟨w, p⟩ fun p => p.expirePull n bank := rfl
    have effect := Part.expirePull_eq use held streams
    refine ⟨fun few => answers_of_effect meaning (congrArg Part.unmarked ?_),
      fun all => failsLane_of meaning (effect.trans (if_pos all)) (now := max p.now (sent + p.replyTimeout)) rfl use⟩
    rw [tag_eq]
    exact (effect.trans (if_neg (Nat.not_le_of_lt few))).trans
      (Part.postPull_setUse (p := p.reach (sent + p.replyTimeout)) use room _ c)
  · have meaning : exec (.waitTimerExpiry n) ⟨w, p⟩ = run ⟨w, p⟩ fun p => p.expireWait n := rfl
    refine answers_of_effect meaning (congrArg Part.unmarked ?_)
    rw [tag_eq]
    exact (Part.expireWait_eq use state).trans (Part.postOpen_setUse (p := p.reach due) use room _)

/-! ## READY (R109) -/

theorem flagSet_eq {b : Byte} (flag : b = 0 ∨ b = 1) : flagSet b = decide (b = 1) := by
  rcases flag with rfl | rfl <;> rfl

/-- A lane's READY of the right length and with no other digest than the expected one (R109). -/
theorem Part.takeReady_streams {p : Part} {n : Nat} {u : LaneUse} {length : Nat} {digest : Option Digest}
    (opening : u.opening = true) (fits : length = u.length)
    (expected : digest = none ∨ u.digest = none ∨ u.digest = digest) : p.takeReady n u length digest =
      (p.setUse n
        { u with
          digest := if u.digest.isSome then u.digest else digest
          waitCount := 0
          state := .streaming }).testWindow n := by
  have agrees : (digest.isSome && u.digest.isSome && digest != u.digest) = false := by
    rcases expected with none_ | unknown | same
    · simp [none_]
    · simp [unknown]
    · simp [same]
  simp [Part.takeReady, opening, fits, agrees]

/-- A PULL sent after the lane's use is written (R112). -/
theorem Part.pullSent_setUse {p : Part} {n : Nat} {u : LaneUse} (use : p.laneUse? n = some u) {tag : Tag}
    (tagged : fetchTag n (p.lane n).useCount = tag) (v : LaneUse) : (p.setUse n v).pullSent n v =
      (p.queued (some v.server) (.pull tag (BitVec.ofNat 8 v.nextRequest))).setUse n v.pulled := by
  have lane : (p.setUse n v).lane n = { p.lane n with use := some v } := p.lane_setUse n v u use
  have again : (p.setUse n v).setUse n v.pulled = p.setUse n v.pulled := by
    simp only [Part.setUse, Part.editLane, Table.editRow_editRow]
  rw [Part.pullSent, lane, again, tagged]
  rfl

/-- The first two PULLs of a fresh lane (R109, R112). -/
theorem Part.pullSent_twice {p : Part} {n : Nat} {u v : LaneUse} (use : p.laneUse? n = some u) {tag : Tag}
    (tagged : fetchTag n (p.lane n).useCount = tag) (empty : v.bank1 = .empty) (first : v.nextRequest = 0) :
    ((p.setUse n v).pullSent n v).pullSent n v.pulled =
      (p.queuedAll [(some v.server, .pull tag 0), (some v.server, .pull tag 1)]).setUse n
        { v with
          nextRequest := 2
          bank0 := .requested 0 1 none
          bank1 := .requested 1 1 none } := by
  have pulled : v.pulled = { v with nextRequest := 1, bank0 := .requested 0 1 none } := by
    simp [LaneUse.pulled, LaneUse.setBank, LaneUse.bankOf, first, empty, Bank.fullFor]
  have pulled' : v.pulled.pulled =
      { v with nextRequest := 2, bank0 := .requested 0 1 none, bank1 := .requested 1 1 none } := by
    rw [pulled]
    simp [LaneUse.pulled, LaneUse.setBank, LaneUse.bankOf, Bank.fullFor]
  have frames (a b : ControlFrame) : (p.sgp.control ++ [a]) ++ [b] = p.sgp.control ++ [a, b] := List.append_assoc _ _ _
  rw [Part.pullSent_setUse use tagged, Part.pullSent_setUse (p := p.queued _ _) use tagged, pulled', pulled, first]
  simp only [Part.queued, Part.queuedAll, frames]
  rfl

/-- Settles O42. -/
theorem readiesStartStreaming : Obligations.ReadiesStartStreaming := by
  refine fun w p h tag present length digest from_ => ?_
  have meaning := ready_takenAtLane w from_ tag present length digest
  refine ⟨meaning.ignored, fun n u used => ⟨fun other => meaning.answers used (by simp [Part.takeReady, other]),
    fun opening flag => ?_⟩⟩
  have flagged : (if flagSet present then some digest else none) = if present = 1 then some digest else none := by
    simp [flagSet_eq flag]
  rw [flagged] at meaning
  refine ⟨fun v fits expected v_eq => ?_, fun longer => meaning.fails used (by simp [Part.takeReady, opening, longer]),
    fun fits announced => ?_⟩
  · have streams : p.takeReady n u length.toNat (if present = 1 then some digest else none) =
        (p.setUse n v).testWindow n := by
      rw [v_eq]
      refine Part.takeReady_streams opening fits ?_
      rcases expected with absent | unknown | same
      · exact .inl (by simp [absent])
      · exact .inr (.inl unknown)
      · by_cases one : present = 1
        · exact .inr (.inr (by simp [same, one]))
        · exact .inl (if_neg one)
    have use := p.laneUse?_setUse n v u used.2.2.1
    have state : v.state = .streaming := by rw [v_eq]
    have tested := Part.testWindow_tested (p.setUse n v) n v use state (Answers (.ready h tag present length digest) ⟨w, p⟩)
      (meaning.answers used streams)
    refine ⟨tested, fun empty0 empty1 consume request chunks low room => ?_⟩
    have fresh : v.bank0 = .empty ∧ v.bank1 = .empty ∧ v.nextConsume = 0 ∧ v.nextRequest = 0 ∧ v.length = u.length
        ∧ v.server = u.server := by
      rw [v_eq]
      exact ⟨empty0, empty1, consume, request, rfl, rfl⟩
    obtain ⟨empty0, empty1, consume, request, same, server⟩ := fresh
    have width : (if (p.setUse n v).cbe.warning = true then 1 else 2) = 2 := if_neg (by simp [Part.setUse, Part.editLane, low])
    have one : v.windowOpen 2 := by
      simp [LaneUse.windowOpen, request, consume, LaneUse.bankOf, empty0, empty1, Bank.isRequested, same]
      omega
    have two : v.pulled.windowOpen 2 := by
      simp [LaneUse.windowOpen, LaneUse.pulled, LaneUse.setBank, request, consume, LaneUse.bankOf, empty1, Bank.isRequested,
        Bank.fullFor, same]
      omega
    rw [width] at tested
    rw [← server, ← Part.pullSent_twice used.2.2.1 used.2.2.2.1 empty1 request]
    exact tested.2.2 one two room
  · intro ⟨known, digest_eq, differs⟩
    refine meaning.fails used ?_
    have other : some digest ≠ u.digest := by
      rw [digest_eq]
      exact fun same => differs (Option.some.inj same).symm
    simp [Part.takeReady, opening, fits, announced, digest_eq, Ne.symm differs]

/-! ## WAIT and REFUSE (R110, R111, R119) -/

theorem waitHint_eq (hint : Byte) : waitHint hint = if hint = 0 then 1 else hint.toNat := by
  unfold waitHint
  split
  · next zero => rw [zero]; rfl
  · next other => exact Nat.max_eq_right (Nat.pos_of_ne_zero fun zero => other (BitVec.eq_of_toNat_eq zero))

theorem Part.laneFailed_setUse {p : Part} {n : Nat} {u : LaneUse} (use : p.laneUse? n = some u) (v : LaneUse)
    (cause : LaneFailure) : (p.setUse n v).laneFailed n v cause = p.laneFailed n v cause := by
  have again (q : Part) (a b : LaneUse) : (q.setUse n a).setUse n b = q.setUse n b := by
    simp only [Part.setUse, Part.editLane, Table.editRow_editRow]
  have lane : (p.setUse n v).lane n = { p.lane n with use := some v } := p.lane_setUse n v u use
  unfold Part.laneFailed
  rw [lane]
  dsimp only
  split
  · exact again ((p.withdrawRequests n).queued _ _) v _
  · exact again (p.withdrawRequests n) v _

/-- A command that writes a lane's use and then fails the lane. -/
theorem failsLane_afterUse {i : Instr} {w : List Instr} {p : Part} {n : Nat} {u v : LaneUse} {cause : LaneFailure}
    {f : Part → Part} (meaning : exec i ⟨w, p⟩ = run ⟨w, p⟩ f) (effect : f p = (p.setUse n v).failLane n cause)
    (use : p.laneUse? n = some u) : FailsLane i w p p n v cause := by
  have after := p.laneUse?_setUse n v u use
  have same := Part.laneFailed_setUse use v cause
  refine ⟨fun still room => answers_of_effect meaning (congrArg Part.unmarked (effect.trans ?_)),
    fun x plain tries => answers_of_effect meaning (congrArg Part.unmarked (effect.trans ?_))⟩
  · exact (Part.failLane_alone after still room).trans same
  · rw [← same]
    exact Part.failLane_rePlans after
      (plain.of_same rfl rfl rfl ((Table.rising_editRow p.ftu n fun l => { l with use := some v }).trans plain.rising.1)) tries

theorem Bank.fullFor_dropRequest (b : Bank) (chunk : Nat) : b.dropRequest.fullFor chunk = b.fullFor chunk := by
  cases b <;> rfl

theorem LaneUse.bankOf_add_two (u : LaneUse) (chunk : Nat) : u.bankOf (chunk + 2) = u.bankOf chunk := by
  simp [LaneUse.bankOf]

/-- A bank is FULL for one chunk at most. -/
theorem Bank.fullFor_unique {b : Bank} {c d : Nat} (one : b.fullFor c = true) (other : b.fullFor d = true) : c = d := by
  cases b with
  | full e data =>
    have ec : e = c := by simpa [Bank.fullFor] using one
    have ed : e = d := by simpa [Bank.fullFor] using other
    exact ec.symm.trans ed
  | empty => simp [Bank.fullFor] at one
  | requested => simp [Bank.fullFor] at one

/-- Next to request at a re-open is the lowest chunk that no bank holds (R119, step 3). -/
theorem LaneUse.firstMissing_eq {u : LaneUse} {next : Nat} (from_ : u.nextConsume ≤ next)
    (missing : (u.bankOf next).fullFor next = false)
    (held : ∀ c, u.nextConsume ≤ c → c < next → (u.bankOf c).fullFor c = true) : u.firstMissing = next := by
  have below {c : Nat} (start : u.nextConsume ≤ c) (full : (u.bankOf c).fullFor c = true) (le : c ≤ next) : c < next :=
    Nat.lt_of_le_of_ne le fun same => by
      rw [same, missing] at full
      exact Bool.false_ne_true full
  have upto {c : Nat} (start : u.nextConsume ≤ c) (none_ : (u.bankOf c).fullFor c = false) : next ≤ c :=
    Nat.le_of_not_lt fun lt => Bool.false_ne_true (none_.symm.trans (held c start lt))
  unfold LaneUse.firstMissing
  split
  · next none_ => exact Nat.le_antisymm from_ (upto (Nat.le_refl _) (by simpa using none_))
  · next full =>
    have full : (u.bankOf u.nextConsume).fullFor u.nextConsume = true := by simpa using full
    have one := below (Nat.le_refl _) full from_
    split
    · next none_ => exact Nat.le_antisymm one (upto (Nat.le_succ _) (by simpa using none_))
    · next full' =>
      have two := below (Nat.le_succ _) (by simpa using full') one
      refine Nat.le_antisymm two (upto (by omega) (Bool.eq_false_iff.2 fun again => ?_))
      rw [LaneUse.bankOf_add_two] at again
      have := Bank.fullFor_unique full again
      omega

/-- A lane's re-open below the limit (R119). -/
theorem Part.reOpen_eq {p : Part} {n next : Nat} {u : LaneUse} (use : p.laneUse? n = some u) (few : u.reOpens < 2)
    (from_ : u.nextConsume ≤ next) (missing : (u.bankOf next).fullFor next = false)
    (held : ∀ c, u.nextConsume ≤ c → c < next → (u.bankOf c).fullFor c = true) (room : p.queueOpen) : p.reOpen n =
      ((p.withdrawRequests n).queued (some u.server)
          (.fetchOpen u.stripe (BitVec.ofNat 8 u.position) (fetchTag n (p.lane n).useCount))).setUse n
        { u with
          state := .opening none
          openTries := 1
          reOpens := u.reOpens + 1
          nextRequest := next
          bank0 := if u.bank0.isRequested then .empty else u.bank0
          bank1 := if u.bank1.isRequested then .empty else u.bank1 } := by
  obtain ⟨v, v_eq⟩ : ∃ v : LaneUse, v = { u with bank0 := u.bank0.dropRequest, bank1 := u.bank1.dropRequest } := ⟨_, rfl⟩
  have full (c : Nat) : (v.bankOf c).fullFor c = (u.bankOf c).fullFor c := by
    rw [v_eq]
    unfold LaneUse.bankOf
    split <;> exact Bank.fullFor_dropRequest _ _
  have first : v.firstMissing = next := by
    refine LaneUse.firstMissing_eq (by rw [v_eq]; exact from_) ((full next).trans missing) fun c start lt => ?_
    exact (full c).trans (held c (by rw [v_eq] at start; exact start) lt)
  have posted := Part.postOpen_setUse (p := p.withdrawRequests n) use (Part.queueOpen_withdrawRequests room n)
    { v with reOpens := u.reOpens + 1, nextRequest := v.firstMissing, state := .opening none, openTries := 1 }
  have effect : p.reOpen n = ((p.withdrawRequests n).setUse n
      { v with reOpens := u.reOpens + 1, nextRequest := v.firstMissing, state := .opening none, openTries := 1 }).postOpen
        n u := by
    simp only [Part.reOpen, use, v_eq]
    exact if_neg (Nat.not_le_of_lt few)
  rw [effect, posted, first, v_eq]
  rfl

theorem Part.reOpen_limit {p : Part} {n : Nat} {u : LaneUse} (use : p.laneUse? n = some u) (many : 2 ≤ u.reOpens) :
    p.reOpen n = p.failLane n .reOpenLimit := by
  simp only [Part.reOpen, use]
  exact if_pos many

theorem Part.takeWait_opening {p : Part} {n : Nat} {u : LaneUse} {old : Option Nat} (state : u.state = .opening old)
    (hint : Nat) (busy : Bool) : p.takeWait n u hint busy =
      if 256 ≤ u.waitCount + 1 then
        (p.setUse n { u with waitCount := u.waitCount + 1, waitBusy := busy }).failLane n .waitLimit
      else p.setUse n
        { u with waitCount := u.waitCount + 1, waitBusy := busy, state := .openWait (p.now + hint * 1000) } := by
  simp only [Part.takeWait, state]

theorem Part.takeWait_other {p : Part} {n : Nat} {u : LaneUse} (state : ∀ old, u.state ≠ .opening old) (hint : Nat)
    (busy : Bool) : p.takeWait n u hint busy = p := by
  unfold Part.takeWait
  split
  · next old same => exact absurd same (state old)
  · rfl

/-- Settles O43. -/
theorem waitsAndRefusals : Obligations.WaitsAndRefusals := by
  refine fun w p h tag n u from_ used => ⟨fun hint busy flag => ?_, ?_⟩
  · have meaning := wait_takenAtLane w from_ tag hint busy
    have busy_eq : flagSet busy = (busy == 1) := (flagSet_eq flag).trans (by rcases flag with rfl | rfl <;> rfl)
    rw [waitHint_eq, busy_eq] at meaning
    refine ⟨fun old state => ⟨fun few => meaning.answers used ?_, fun many => ?_⟩,
      fun other => meaning.answers used (Part.takeWait_other other _ _)⟩
    · exact (Part.takeWait_opening state _ _).trans (if_neg (by omega))
    · obtain ⟨f, meant, effect⟩ := meaning
      refine failsLane_afterUse meant ?_ used.2.2.1
      exact (effect (used.1 ▸ used.2.1)).trans ((Part.atLane_used used _).trans
        ((Part.takeWait_opening state _ _).trans (if_pos (by omega))))
  have notOpen := refuse_takenAtLane w from_ tag .notOpen
  refine ⟨fun other => notOpen.answers used (by simp [Part.takeRefuse, other]),
    fun next streams few start missing held room => notOpen.answers used ?_, fun streams many => notOpen.fails used ?_,
    fun reason other active => (refuse_takenAtLane w from_ tag reason).fails used (by simp [Part.takeRefuse, other, active])⟩
  · have effect : p.takeRefuse n u .notOpen = p.reOpen n := by simp [Part.takeRefuse, streams]
    rw [← show fetchTag n (p.lane n).useCount = tag from used.2.2.2.1]
    exact effect.trans (Part.reOpen_eq used.2.2.1 few start missing held room)
  · have effect : p.takeRefuse n u .notOpen = p.reOpen n := by simp [Part.takeRefuse, streams]
    exact effect.trans (Part.reOpen_limit used.2.2.1 many)

end Sys2Proof.Machine

/-! STORE requests and the start of a combine operation (R99, R136 to R138, R143). -/

namespace Sys2Proof.Machine

/-! ## STORE requests (R99, R168) -/

/-- The STORE request of a context's entry, posted under the tag counter's value (R99, R154, R168). -/
theorem Part.postStoreRequest_eq {p : Part} {next : Tag}
    (tag : nextTag (p.hlk.stageTags ++ p.hlk.storeTags ++ [p.hlk.tagCounter]) p.hlk.tagCounter next) (c : Nat)
    (x : Context) (e : LostEntry) (slot : Nat) : p.postStoreRequest c x e slot =
      Part.postReport
        { p with
          hlk := { p.hlk with storeTags := p.hlk.storeTags ++ [p.hlk.tagCounter], tagCounter := next }
          ctx := { p.ctx with
            contexts := p.ctx.contexts.editRow c fun y =>
              { y with lostList := y.lostList.map fun f =>
                  if f.position = e.position then
                    { f with delivery := .requested, tag := some p.hlk.tagCounter } else f } }
          smc := { p.smc with
            slots := p.smc.slots.editRow slot fun r => { r with right := .read p.hlk.tagCounter } } }
        (.storeRequest p.hlk.tagCounter x.stripe e.position x.length (e.digest.getD 0) slot) := by
  have counter := skipOutstanding_nextTag tag
  rw [List.append_assoc] at counter
  simp only [Part.postStoreRequest, Part.takeTag, counter]
  rfl

/-- Settles O54. -/
theorem storeRequestsArePosted : Obligations.StoreRequestsArePosted := by
  intro w p c x e slot inUse live state asked
  have alive : x.live = true := by simp [Context.live, live]
  have meaning : exec (.storeRequest c) ⟨w, p⟩ = run ⟨w, p⟩ fun p =>
      match p.context? c with
      | none => p
      | some x =>
        if x.live && x.state == .delivering && !p.reportPathFull then
          match x.nextStore? with
          | some (e, slot) => p.postStoreRequest c x e slot
          | none => p
        else p := rfl
  refine ⟨fun full => answers_of_effect meaning (congrArg Part.unmarked ?_),
    fun tag next report posted path tag_eq next_eq report_eq posted_eq => ?_⟩
  · simp only [inUse, full, Bool.not_true, Bool.and_false, Bool.false_eq_true, if_false]
  · subst tag_eq
    have place : posted.reportPathFull = false := by
      rw [posted_eq]
      exact path
    refine Part.postsReport_of place (answers_of_effect meaning (congrArg Part.unmarked ?_))
    rw [posted_eq, report_eq, ← Part.postStoreRequest_eq next_eq c x e slot]
    simp only [inUse, alive, state, path, asked, beq_self_eq_true, Bool.not_false, Bool.and_self, if_true]

/-! ## The start of an operation (R137, R138) -/

section
variable {p : Part} {r : CombineRequest} {rest : List CombineRequest} (idle : p.cbe.operation = none)
  (head : p.cbe.queue = r :: rest)
include idle head

/-- A request whose context is current and whose source supplies the operand starts its operation (R138). -/
theorem Part.startCombine_starts {x : Context} {operand : List Byte} (current : p.combineContext? r = some x)
    (supplied : p.operand? r = some operand) : p.startCombine =
      { p with
        cbe := { p.cbe with
          queue := rest
          operation := some { request := r, operand := operand, targets := x.targets r.survivor } } } := by
  have current : Part.combineContext? { p with cbe := { p.cbe with queue := rest } } r = some x := current
  have supplied : Part.operand? { p with cbe := { p.cbe with queue := rest } } r = some operand := supplied
  unfold Part.startCombine
  split
  · next _ queue =>
    obtain ⟨rfl, rfl⟩ := List.cons.inj (queue.symm.trans head)
    simp only [current, supplied]
  · next other => exact absurd head (other _ _ idle)

/-- A stale request is completed at once (R137). -/
theorem Part.startCombine_stale (stale : p.combineContext? r = none) :
    p.startCombine = Part.completeCombine { p with cbe := { p.cbe with queue := rest } } r := by
  have stale : Part.combineContext? { p with cbe := { p.cbe with queue := rest } } r = none := stale
  unfold Part.startCombine
  split
  · next _ queue =>
    obtain ⟨rfl, rfl⟩ := List.cons.inj (queue.symm.trans head)
    simp only [stale]
  · next other => exact absurd head (other _ _ idle)

end

theorem Part.combineContext?_current {p : Part} {r : CombineRequest} {x : Context} (inUse : p.context? r.context = some x)
    (current : p.gatheringAt r.context r.generation = true) : p.combineContext? r = some x := by
  simp only [Part.combineContext?, inUse, current, if_true]

theorem Part.combineContext?_stale {p : Part} {r : CombineRequest} (stale : p.gatheringAt r.context r.generation = false) :
    p.combineContext? r = none := by
  unfold Part.combineContext?
  split
  · simp [stale]
  · rfl

theorem Part.gatheringAt_of {p : Part} {c : Nat} {g : BitVec 8} {x : Context} (inUse : p.context? c = some x)
    (live : x.pendingOutcome = none) (state : x.state = .gathering) (generation : p.generation c = g) :
    p.gatheringAt c g = true := by
  simp [Part.gatheringAt, inUse, Context.live, live, state, generation]

theorem Part.operand?_lane {p : Part} {r : CombineRequest} {n : Nat} {tag : Tag} {u : LaneUse} {data : List Byte}
    (source : r.source = .lane n tag) (use : p.laneUse? n = some u) (tagged : fetchTag n (p.lane n).useCount = tag)
    (active : u.active = true) (full : u.bankOf r.chunk = .full r.chunk data) : p.operand? r = some data := by
  simp only [Part.operand?, source, use, Part.laneTag, tagged, active, full, if_true, and_self]

theorem Part.operand?_internal {p : Part} {r : CombineRequest} {n : Nat} {e : ServeEntry} {i : InternalOpener}
    (source : r.source = .internal) (opener : p.attachedOpener? r.context = some (n, e, i)) : p.operand? r =
      some (p.smc.dram.bytes (slotOffset e.slot + r.chunk * chunkSize) (chunkLength e.length r.chunk)) := by
  simp only [Part.operand?, source, opener]

/-- An edit of a lane that keeps its use (R106). -/
theorem Part.laneUse?_editLane_same (p : Part) (n m : Nat) {f : Lane → Lane} (same : ∀ l, (f l).use = l.use) :
    (p.editLane n f).laneUse? m = p.laneUse? m := by
  simp only [Part.laneUse?, Part.lane, Part.editLane, Table.row?_editRow]
  split
  · cases p.ftu.row? m with
    | none => rfl
    | some l => exact same l
  · rfl

/-- Settles O55. -/
theorem combinesStart : Obligations.CombinesStart := by
  refine ⟨fun p r low => ?_, fun w p r rest idle head => ⟨fun x inUse live state generation => ?_,
    fun n tag source stale low none_ => ?_⟩⟩
  · rw [Part.postCombine_eq]
    simp only [low, and_true]
  · have current := Part.combineContext?_current inUse (Part.gatheringAt_of inUse live state generation)
    refine ⟨fun n tag u data source use tagged active full => answers_of_effect (f := Part.startCombine) rfl
        (congrArg Part.unmarked (Part.startCombine_starts idle head current
          (Part.operand?_lane source use tagged active full))),
      fun n e i source opener => answers_of_effect (f := Part.startCombine) rfl
        (congrArg Part.unmarked (Part.startCombine_starts idle head current (Part.operand?_internal source opener)))⟩
  · refine answers_of_effect (f := Part.startCombine) rfl (congrArg Part.unmarked ?_)
    refine (Part.startCombine_stale idle head (Part.combineContext?_stale stale)).trans ?_
    have calm : Part.lowerWarning { p with cbe := { p.cbe with queue := rest } } =
        { p with cbe := { p.cbe with queue := rest } } := if_neg fun ⟨_, raised⟩ => Bool.false_ne_true (low.symm.trans raised)
    have use : (Part.editLane { p with cbe := { p.cbe with queue := rest } } n fun l =>
        { l with outstanding := false }).laneUse? n = none :=
      (Part.laneUse?_editLane_same p n n (f := fun l => { l with outstanding := false }) fun _ => rfl).trans none_
    simp only [Part.completeCombine, calm, source, Part.completeAtLane, use]

end Sys2Proof.Machine

/-! What a context releases, and the outcomes that post a report (R101 to R104). -/

namespace Sys2Proof.Machine

/-! ## What the release of a context leaves (R101) -/

/-- The host link but for its request tags and the marks of the requests that wait. -/
def HostLink.sameButTags (h k : HostLink) : Prop :=
  k = { h with stageTags := k.stageTags, storeTags := k.storeTags, reportQueue := k.reportQueue }
    ∧ k.reportQueue.length = h.reportQueue.length

theorem HostLink.sameButTags.rfl {h : HostLink} : h.sameButTags h := ⟨Eq.refl _, Eq.refl _⟩

theorem HostLink.sameButTags.trans {h k l : HostLink} (one : h.sameButTags k) (two : k.sameButTags l) :
    h.sameButTags l :=
  ⟨two.1.trans (congrArg (fun k : HostLink =>
      { k with stageTags := l.stageTags, storeTags := l.storeTags, reportQueue := l.reportQueue }) one.1),
    two.2.trans one.2⟩

/-- A part that differs from another in what its serve entries, its slots and its request tags show, at most; the DRAM is the
same. -/
structure Part.Unbinds (p q : Part) : Prop where
  rest : q = { p with svu := q.svu, smc := q.smc, hlk := q.hlk }
  dram : q.smc.dram = p.smc.dram
  tags : p.hlk.sameButTags q.hlk

theorem Part.Unbinds.rfl {p : Part} : p.Unbinds p := ⟨Eq.refl _, Eq.refl _, .rfl⟩

theorem Part.Unbinds.trans {p q r : Part} (one : p.Unbinds q) (two : q.Unbinds r) : p.Unbinds r :=
  ⟨two.rest.trans (congrArg (fun q : Part => { q with svu := r.svu, smc := r.smc, hlk := r.hlk }) one.rest),
    two.dram.trans one.dram, one.tags.trans two.tags⟩

/-- A fold of steps of a kind that is closed under composition. -/
theorem Part.Unbinds.foldl {α : Type} {f : Part → α → Part} (step : ∀ (q : Part) a, q.Unbinds (f q a)) (p : Part) (as : List α) :
    p.Unbinds (as.foldl f p) := by
  induction as generalizing p with
  | nil => exact .rfl
  | cons a rest ih => exact (step p a).trans (ih (f p a))

theorem Part.unbinds_settleSlot (p : Part) (j : Nat) : p.Unbinds (p.settleSlot j) := by
  unfold Part.settleSlot
  split
  · exact .rfl
  · split
    · exact ⟨Eq.refl _, Eq.refl _, .rfl⟩
    · exact .rfl

theorem Part.unbinds_giveUpSlot (p : Part) (j : Nat) : p.Unbinds (p.giveUpSlot j) :=
  Part.Unbinds.trans (q := { p.editSlot j fun r => { r with owner := none, right := .none_ } with
    smc := { (p.editSlot j fun r => { r with owner := none, right := .none_ }).smc with
      fillQueue := p.smc.fillQueue.filter fun f => f.slot != j } }) ⟨Eq.refl _, Eq.refl _, .rfl⟩ (Part.unbinds_settleSlot _ j)

theorem Part.unbinds_giveUpSlots (p : Part) (slots : List Nat) : p.Unbinds (p.giveUpSlots slots) :=
  .foldl Part.unbinds_giveUpSlot p slots

theorem Part.unbinds_setServe (p : Part) (n : Nat) (e : ServeEntry) : p.Unbinds (p.setServe n e) :=
  ⟨Eq.refl _, Eq.refl _, .rfl⟩

theorem Part.unbinds_freeServe (p : Part) (n : Nat) : p.Unbinds (p.freeServe n) := by
  unfold Part.freeServe
  split
  · exact .rfl
  · next e _ =>
    exact Part.Unbinds.trans (q := { p with svu := { p.svu with entries := p.svu.entries.dropRow n } })
      ⟨Eq.refl _, Eq.refl _, .rfl⟩ (Part.unbinds_giveUpSlot _ e.slot)

theorem Part.unbinds_removeOpeners (p : Part) (n : Nat) (leaves : Opener → Bool) : p.Unbinds (p.removeOpeners n leaves) := by
  unfold Part.removeOpeners
  split
  · exact .rfl
  · split
    · dsimp only
      split
      · exact (Part.unbinds_setServe p n _).trans (Part.unbinds_freeServe _ n)
      · exact Part.unbinds_setServe p n _
    · exact .rfl

theorem Part.unbinds_detachOpener (p : Part) (c : Nat) : p.Unbinds (p.detachOpener c) :=
  Part.Unbinds.trans (q := p.removeOpenersEverywhere (Opener.isInternalOf c))
    (.foldl (fun q n => Part.unbinds_removeOpeners q n (Opener.isInternalOf c)) p p.svu.entries.numbers)
    ⟨Eq.refl _, Eq.refl _, .rfl⟩

theorem Part.unbinds_voidTag (p : Part) (tag : Tag) : p.Unbinds (p.voidTag tag) := by
  unfold Part.voidTag
  split
  · exact ⟨Eq.refl _, Eq.refl _, Eq.refl _, List.length_map _⟩
  · exact .rfl

/-! ## The openers that wait -/

theorem Part.waiting_settleSlot (p : Part) (j : Nat) : (p.settleSlot j).svu = p.svu := by
  unfold Part.settleSlot
  split
  · rfl
  · split <;> rfl

theorem Part.svu_giveUpSlot (p : Part) (j : Nat) : (p.giveUpSlot j).svu = p.svu := Part.waiting_settleSlot _ j

theorem Part.svu_giveUpSlots (p : Part) (slots : List Nat) : (p.giveUpSlots slots).svu = p.svu := by
  induction slots generalizing p with
  | nil => rfl
  | cons j rest ih => exact (ih (p.giveUpSlot j)).trans (Part.svu_giveUpSlot p j)

theorem Part.waiting_freeServe (p : Part) (n : Nat) : (p.freeServe n).svu.waiting = p.svu.waiting := by
  unfold Part.freeServe
  split
  · rfl
  · rw [Part.svu_giveUpSlot]

theorem Part.waiting_removeOpeners (p : Part) (n : Nat) (leaves : Opener → Bool) :
    (p.removeOpeners n leaves).svu.waiting = p.svu.waiting := by
  unfold Part.removeOpeners
  split
  · rfl
  · split
    · dsimp only
      split
      · exact Part.waiting_freeServe _ n
      · rfl
    · rfl

theorem Part.waiting_detachOpener (p : Part) (c : Nat) :
    (p.detachOpener c).svu.waiting = p.svu.waiting.filter fun o => o.context != c := by
  have kept (ns : List Nat) (q : Part) :
      (ns.foldl (fun q n => q.removeOpeners n (Opener.isInternalOf c)) q).svu.waiting = q.svu.waiting := by
    induction ns generalizing q with
    | nil => rfl
    | cons n rest ih => exact (ih _).trans (Part.waiting_removeOpeners q n _)
  exact congrArg (List.filter fun o => o.context != c) (kept p.svu.entries.numbers p)

theorem Part.svu_voidTags (p : Part) (tags : List Tag) : (tags.foldl Part.voidTag p).svu = p.svu := by
  induction tags generalizing p with
  | nil => rfl
  | cons tag rest ih =>
    refine (ih (p.voidTag tag)).trans ?_
    unfold Part.voidTag
    split <;> rfl

/-! ## Lanes given back (R107, R120) -/

theorem Part.releaseLane_rest (p : Part) (n : Nat) :
    p.releaseLane n = { p with sgp := (p.releaseLane n).sgp, ftu := (p.releaseLane n).ftu } := by
  unfold Part.releaseLane
  split
  · rfl
  · next u _ =>
    dsimp only
    split
    · rw [Part.postRelease, Part.post_eq]
      rfl
    · rfl

theorem Part.releaseLane_ftu (p : Part) (n : Nat) : (p.releaseLane n).ftu = p.ftu ∧ p.laneUse? n = none
    ∨ (p.releaseLane n).ftu = p.ftu.editRow n fun l => { l with use := none } := by
  unfold Part.releaseLane
  split
  · next idle => exact .inl ⟨rfl, idle⟩
  · next u _ =>
    refine .inr ?_
    dsimp only
    split
    · rw [Part.postRelease, Part.post_eq]
      rfl
    · rfl

theorem Part.lane_editRow (p q : Part) (n m : Nat) (f : Lane → Lane) (edited : q.ftu = p.ftu.editRow n f)
    (idle : f Lane.reset = Lane.reset) : q.lane m = if m = n then f (p.lane m) else p.lane m := by
  simp only [Part.lane, edited, Table.row?_editRow]
  split
  · cases p.ftu.row? m with
    | none => exact idle.symm
    | some l => rfl
  · rfl

theorem Part.lane_releaseLane (p : Part) (n m : Nat) :
    (p.releaseLane n).lane m = if m = n then { p.lane m with use := none } else p.lane m := by
  rcases Part.releaseLane_ftu p n with ⟨same, idle⟩ | edited
  · have lane : (p.releaseLane n).lane m = p.lane m := by rw [Part.lane, same]; rfl
    rw [lane]
    split
    · next here =>
      subst here
      rw [← show (p.lane m).use = none from idle]
    · rfl
  · exact Part.lane_editRow p _ n m (fun l => { l with use := none }) edited rfl

theorem Part.releaseLanes_rest (p : Part) (lanes : List Nat) :
    p.releaseLanes lanes = { p with sgp := (p.releaseLanes lanes).sgp, ftu := (p.releaseLanes lanes).ftu } := by
  induction lanes generalizing p with
  | nil => rfl
  | cons n rest ih =>
    exact (ih (p.releaseLane n)).trans (congrArg (fun q : Part =>
      { q with sgp := ((p.releaseLane n).releaseLanes rest).sgp, ftu := ((p.releaseLane n).releaseLanes rest).ftu })
      (Part.releaseLane_rest p n))

theorem Part.lane_releaseLanes (p : Part) (lanes : List Nat) (m : Nat) :
    (p.releaseLanes lanes).lane m = if m ∈ lanes then { p.lane m with use := none } else p.lane m := by
  induction lanes generalizing p with
  | nil => simp [Part.releaseLanes]
  | cons n rest ih =>
    refine (ih (p.releaseLane n)).trans ?_
    rw [Part.lane_releaseLane]
    by_cases here : m = n <;> by_cases there : m ∈ rest <;> simp [here, there]

theorem Part.laneUse?_releaseLanes (p : Part) (lanes : List Nat) (m : Nat) :
    (p.releaseLanes lanes).laneUse? m = if m ∈ lanes then none else p.laneUse? m := by
  rw [Part.laneUse?, Part.lane_releaseLanes]
  split <;> rfl

theorem Part.freeLanes_rest (p : Part) (lanes : List Nat) :
    p.freeLanes lanes = { p with ftu := (p.freeLanes lanes).ftu } := by
  induction lanes generalizing p with
  | nil => rfl
  | cons n rest ih => exact ih (p.editLane n fun l => { l with holder := none })

theorem Part.lane_freeLanes (p : Part) (lanes : List Nat) (m : Nat) :
    (p.freeLanes lanes).lane m = if m ∈ lanes then { p.lane m with holder := none } else p.lane m := by
  induction lanes generalizing p with
  | nil => simp [Part.freeLanes]
  | cons n rest ih =>
    refine (ih (p.editLane n fun l => { l with holder := none })).trans ?_
    rw [Part.lane_editRow p (p.editLane n _) n m (fun l => { l with holder := none }) rfl rfl]
    by_cases here : m = n <;> by_cases there : m ∈ rest <;> simp [here, there]

/-- The RELEASEs of lanes leave room in the control queue for what it had room for besides them. -/
theorem Part.roomFor_releaseLane {p : Part} {k : Nat} (room : p.roomFor (k + 1)) (n : Nat) :
    (p.releaseLane n).roomFor k := by
  unfold Part.releaseLane
  split
  · exact ⟨room.1, Nat.le_trans (Nat.le_succ _) room.2⟩
  · next u _ =>
    have withdrawn := Part.roomFor_withdrawRequests room n
    dsimp only
    split
    · rw [Part.postRelease, Part.post_open _ (some u.server) (.release ((p.withdrawRequests n).laneTag n))
        (Part.queueOpen_of_roomFor _ (Nat.le_add_left 1 k) withdrawn) rfl]
      refine ⟨withdrawn.1, ?_⟩
      have few := withdrawn.2
      change (List.filter _ ((p.withdrawRequests n).sgp.control ++ [_])).length + k ≤ 63
      rw [List.filter_append, List.length_append]
      refine Nat.le_trans (Nat.add_le_add_right (Nat.add_le_add_left (List.length_filter_le _ _) _) k) ?_
      rw [List.length_singleton]
      omega
    · exact ⟨withdrawn.1, Nat.le_trans (Nat.le_succ _) withdrawn.2⟩

theorem Part.roomFor_releaseLanes {p : Part} {k : Nat} (lanes : List Nat) (room : p.roomFor (lanes.length + k)) :
    (p.releaseLanes lanes).roomFor k := by
  induction lanes generalizing p with
  | nil => simpa [Part.releaseLanes] using room
  | cons n rest ih =>
    refine ih (p := p.releaseLane n) (Part.roomFor_releaseLane ?_ n)
    rwa [List.length_cons, Nat.add_right_comm] at room

/-- Lanes that are IDLE leave nothing to release. -/
theorem Part.releaseLanes_idle {p : Part} {lanes : List Nat} (idle : ∀ n ∈ lanes, p.laneUse? n = none) :
    p.releaseLanes lanes = p := by
  induction lanes with
  | nil => rfl
  | cons n rest ih =>
    have here : p.releaseLane n = p := by simp [Part.releaseLane, idle n List.mem_cons_self]
    rw [Part.releaseLanes, List.foldl_cons, here]
    exact ih fun m member => idle m (List.mem_cons_of_mem _ member)

/-! ## The release (R101) -/

/-- What its release leaves of a context (R101, R103). -/
def Context.released (y : Context) : Context :=
  { y with
    reservation := []
    survivors := none
    plan := none
    lostList := y.lostList.map fun e => { e with slot := none, tag := none } }

/-- The part with its plan and verify jobs told of a context, and the context's lanes released and free (R101). -/
def Part.lanesGiven (p : Part) (c : Nat) (x : Context) : Part :=
  (((p.tellPlanUnit c).tellVerifyUnit c).releaseLanes x.reservation).freeLanes x.reservation

theorem Part.sgp_lanesGiven (p : Part) (c : Nat) (x : Context) : (p.lanesGiven c x).sgp =
    (((p.tellPlanUnit c).tellVerifyUnit c).releaseLanes x.reservation).sgp :=
  (congrArg Part.sgp (Part.freeLanes_rest _ _) :)

theorem Part.lanesGiven_rest (p : Part) (c : Nat) (x : Context) : p.lanesGiven c x =
    { (p.tellPlanUnit c).tellVerifyUnit c with sgp := (p.lanesGiven c x).sgp, ftu := (p.lanesGiven c x).ftu } := by
  have released := Part.releaseLanes_rest ((p.tellPlanUnit c).tellVerifyUnit c) x.reservation
  rw [Part.sgp_lanesGiven]
  exact (Part.freeLanes_rest _ _).trans
    (congrArg (fun q : Part => { q with ftu := (p.lanesGiven c x).ftu }) released)

theorem Part.lane_lanesGiven (p : Part) (c : Nat) (x : Context) (m : Nat) : (p.lanesGiven c x).lane m =
    if m ∈ x.reservation then { p.lane m with holder := none, use := none } else p.lane m := by
  rw [Part.lanesGiven, Part.lane_freeLanes, Part.lane_releaseLanes]
  by_cases here : m ∈ x.reservation
  · simp only [here, if_true]
    rfl
  · simp only [here, if_false]
    rfl

theorem Part.roomFor_lanesGiven {p : Part} {k : Nat} {x : Context} (room : p.roomFor (x.reservation.length + k)) (c : Nat) :
    (p.lanesGiven c x).roomFor k := by
  rw [Part.roomFor, Part.sgp_lanesGiven]
  exact Part.roomFor_releaseLanes (p := (p.tellPlanUnit c).tellVerifyUnit c) x.reservation room

theorem Part.sgp_lanesGiven_idle {p : Part} {x : Context} (idle : ∀ n ∈ x.reservation, p.laneUse? n = none) (c : Nat) :
    (p.lanesGiven c x).sgp = p.sgp := by
  rw [Part.sgp_lanesGiven, Part.releaseLanes_idle (p := (p.tellPlanUnit c).tellVerifyUnit c) idle]
  rfl

/-- What the release of a context leaves: all but its lanes, its jobs, what serves it, its slots and its tags (R101). -/
structure Part.ReleasedTo (p : Part) (c : Nat) (x : Context) (q : Part) : Prop where
  rest : q = { p.lanesGiven c x with
    svu := q.svu
    smc := q.smc
    hlk := q.hlk
    ctx := { p.ctx with contexts := p.ctx.contexts.editRow c Context.released } }
  dram : q.smc.dram = p.smc.dram
  tags : p.hlk.sameButTags q.hlk
  waiting : q.svu.waiting = p.svu.waiting.filter fun i => i.context != c

theorem Part.releaseContext_releasedTo {p : Part} {c : Nat} {x : Context} (inUse : p.context? c = some x) :
    p.ReleasedTo c x (p.releaseContext c) := by
  obtain ⟨a, a_eq⟩ : ∃ a, a = (x.lostList.filterMap LostEntry.requestedTag?).foldl Part.voidTag
      ((p.lanesGiven c x).detachOpener c) := ⟨_, rfl⟩
  have before : (p.lanesGiven c x).Unbinds a := by
    rw [a_eq]
    exact (Part.unbinds_detachOpener _ c).trans (.foldl Part.unbinds_voidTag _ _)
  have meaning : p.releaseContext c =
      (a.editContext c Context.released).giveUpSlots (x.lostList.filterMap LostEntry.slot) := by
    rw [a_eq]
    simp only [Part.releaseContext, inUse]
    rfl
  have after := Part.unbinds_giveUpSlots (a.editContext c Context.released) (x.lostList.filterMap LostEntry.slot)
  have given := Part.lanesGiven_rest p c x
  have ctx : a.ctx = p.ctx := (congrArg Part.ctx before.rest :).trans (congrArg Part.ctx given :)
  rw [meaning]
  refine ⟨?_, ?_, ?_, ?_⟩
  · refine after.rest.trans ?_
    have edited : a.editContext c Context.released = { p.lanesGiven c x with
        svu := a.svu
        smc := a.smc
        hlk := a.hlk
        ctx := { p.ctx with contexts := p.ctx.contexts.editRow c Context.released } } := by
      rw [Part.editContext, ctx]
      exact congrArg (fun q : Part =>
        { q with ctx := { p.ctx with contexts := p.ctx.contexts.editRow c Context.released } }) before.rest
    exact congrArg (fun q : Part =>
      { q with
        svu := ((a.editContext c Context.released).giveUpSlots (x.lostList.filterMap LostEntry.slot)).svu
        smc := ((a.editContext c Context.released).giveUpSlots (x.lostList.filterMap LostEntry.slot)).smc
        hlk := ((a.editContext c Context.released).giveUpSlots (x.lostList.filterMap LostEntry.slot)).hlk }) edited
  · exact after.dram.trans (before.dram.trans (congrArg (fun q : Part => q.smc.dram) given :))
  · exact ((congrArg Part.hlk given :) ▸ before.tags : p.hlk.sameButTags a.hlk).trans after.tags
  · rw [Part.svu_giveUpSlots]
    change a.svu.waiting = _
    rw [a_eq, Part.svu_voidTags, Part.waiting_detachOpener, given]
    rfl

end Sys2Proof.Machine

/-! The outcomes ABANDONED and VERIFY-FAIL, decided and completed (R102, R103). -/

namespace Sys2Proof.Machine

/-- A command leads to what its effect shows, where the status block's mark has no part in it. -/
theorem leads_of_effect {i : Instr} {s : State} {f : Part → Part} {after : Part → Prop} (h : exec i s = run s f)
    (shown : after (f s.part))
    (beside : ∀ (q : Part) (m : Bool), after q → after { q with hlk := { q.hlk with statusMarked := m } }) :
    Leads i s after := by
  refine leads_of_run h ?_
  unfold Part.markStatus
  split
  · exact shown
  · exact beside _ true shown

/-! ## An outcome completed (R102) -/

/-- An outcome completed: the frame, the entry removed, the standing, the report, the context free (R102). -/
def Part.outcomeReported (p : Part) (c : Nat) (t : StripeId) (reason : WithdrawReason) (lost : Positions)
    (standing : Standing) (r : Report) : Part :=
  ((((p.withdrawPlain t reason).removeClaimOf t).setStanding t lost standing).postReport r).freeContext c

/-- What a completed outcome leaves, but for the images of the stripe's records (R102). -/
def Part.outcomeShown (p : Part) (c : Nat) (t : StripeId) (reason : WithdrawReason) (lost : Positions)
    (standing : Standing) (r : Report) : Part :=
  { p with
    ctx := { p.ctx with contexts := p.ctx.contexts.dropRow c }
    clt := (p.removeClaimOf t).clt
    hdt := withStanding p.hdt t lost standing
    sgp := (p.withdrawPlain t reason).sgp
    hlk := (p.postReport r).hlk }

theorem Part.removeClaimOf_rest (p : Part) (t : StripeId) : p.removeClaimOf t = { p with clt := (p.removeClaimOf t).clt } := by
  unfold Part.removeClaimOf
  split <;> rfl

/-- The claim table depends on the claim table alone when an entry is removed. -/
theorem Part.removeClaimOf_of_same {p q : Part} (clt : q.clt = p.clt) (t : StripeId) :
    q.removeClaimOf t = { q with clt := (p.removeClaimOf t).clt } := by
  have entry : q.claimOf? t = p.claimOf? t := by rw [Part.claimOf?, clt]; rfl
  unfold Part.removeClaimOf
  rw [entry]
  split
  · rw [Part.removeClaim, clt]
    rfl
  · rw [← clt]

theorem Part.removeClaimOf_clt {p : Part} {t : StripeId} {n : Nat} {e : ClaimEntry} (entry : p.claimOf? t = some (n, e)) :
    (p.removeClaimOf t).clt = { entries := p.clt.entries.dropRow n, owned := p.clt.owned.filter (· != n) } := by
  simp only [Part.removeClaimOf, entry]
  rfl

theorem besideRecords_freeContext (c : Nat) : BesideRecords fun q => q.freeContext c := fun _ => ⟨fun _ => rfl, rfl, rfl⟩

theorem Part.outcomeReported_imaged {p : Part} (rising : p.hdt.rising = true) (c : Nat) (t : StripeId)
    (reason : WithdrawReason) (lost : Positions) (standing : Standing) (r : Report) :
    p.Imaged (p.outcomeReported c t reason lost standing r) (p.outcomeShown c t reason lost standing r) := by
  obtain ⟨a, a_eq⟩ : ∃ a, a = (p.withdrawPlain t reason).removeClaimOf t := ⟨_, rfl⟩
  have rest : a = { p with sgp := (p.withdrawPlain t reason).sgp, clt := (p.removeClaimOf t).clt } := by
    have posted : p.withdrawPlain t reason = { p with sgp := (p.withdrawPlain t reason).sgp } :=
      Part.post_eq p none (.withdraw t reason.code 0xFF#8 (maskOf []))
    rw [a_eq, Part.removeClaimOf_of_same (p := p) (congrArg Part.clt posted :)]
    exact congrArg (fun q : Part => { q with clt := (p.removeClaimOf t).clt }) posted
  have imaged := ((Part.setStanding_imaged (p := p) (r := a) t lost standing rising (congrArg Part.hdt rest :)
    (congrArg (fun q : Part => q.smc.dram) rest :) (congrArg Part.now rest :)).then (besideRecords_postReport r)).then
      (besideRecords_freeContext c)
  have posted : Part.postReport { a with hdt := withStanding p.hdt t lost standing } r =
      { a with hdt := withStanding p.hdt t lost standing, hlk := (p.postReport r).hlk } :=
    Part.postReport_of_same (p := p) (q := { a with hdt := withStanding p.hdt t lost standing })
      (congrArg Part.hlk rest :) (congrArg Part.config rest :) r
  have shown : Part.freeContext { a with hdt := withStanding p.hdt t lost standing, hlk := (p.postReport r).hlk } c =
      p.outcomeShown c t reason lost standing r := by
    rw [rest]
    rfl
  rw [posted, shown, a_eq] at imaged
  exact imaged

theorem Part.completeAbandoned_eq {p : Part} {c : Nat} {x : Context} (inUse : p.context? c = some x) (cause : AbandonCause) :
    p.completeAbandoned c cause =
      p.outcomeReported c x.stripe .abandoned [] .quiet (.repairAbandoned cause x.stripe) := by
  simp only [Part.completeAbandoned, inUse]
  rfl

theorem Part.completeVerifyFail_eq {p : Part} {c n : Nat} {x : Context} {e : ClaimEntry} (inUse : p.context? c = some x)
    (entry : p.claimOf? x.stripe = some (n, e)) (failed : Positions) : p.completeVerifyFail c failed =
      p.outcomeReported c x.stripe .unrecoverable e.lost .unrecoverable (.verifyFail x.stripe failed) := by
  simp only [Part.completeVerifyFail, inUse, entry]
  rfl

/-! ## An outcome decided (R103) -/

section
variable {p q : Part} {c : Nat} {x : Context} (released : p.ReleasedTo c x q)
include released

theorem Part.ReleasedTo.context?_same (d : Nat) : q.context? d = (p.editContext c Context.released).context? d :=
  (congrArg (fun q : Part => q.context? d) released.rest :)

theorem Part.ReleasedTo.context?_self (inUse : p.context? c = some x) : q.context? c = some x.released :=
  (released.context?_same c).trans (Part.context?_editContext inUse _)

theorem Part.ReleasedTo.context?_other {d : Nat} (other : d ≠ c) : q.context? d = p.context? d :=
  (released.context?_same d).trans ((Table.row?_editRow _ _ _ _).trans (if_neg other))

theorem Part.ReleasedTo.generation_same (d : Nat) : q.generation d = p.generation d :=
  (congrArg (fun q : Part => q.generation d) released.rest :)

theorem Part.ReleasedTo.lane_eq (m : Nat) :
    q.lane m = if m ∈ x.reservation then { p.lane m with holder := none, use := none } else p.lane m :=
  (congrArg (fun q : Part => q.lane m) released.rest :).trans (Part.lane_lanesGiven p c x m)

theorem Part.ReleasedTo.hdt_same : q.hdt = p.hdt :=
  (congrArg Part.hdt released.rest :).trans (congrArg Part.hdt (Part.lanesGiven_rest p c x) :)

theorem Part.ReleasedTo.clt_same : q.clt = p.clt :=
  (congrArg Part.clt released.rest :).trans (congrArg Part.clt (Part.lanesGiven_rest p c x) :)

theorem Part.ReleasedTo.config_same : q.config = p.config :=
  (congrArg Part.config released.rest :).trans (congrArg Part.config (Part.lanesGiven_rest p c x) :)

theorem Part.ReleasedTo.sgp_same : q.sgp = (p.lanesGiven c x).sgp := (congrArg Part.sgp released.rest :)

end

theorem Part.context?_editContext_other (p : Part) {c d : Nat} (other : d ≠ c) (f : Context → Context) :
    (p.editContext c f).context? d = p.context? d :=
  (Table.row?_editRow _ _ _ _).trans (if_neg other)

/-- A report path that another host link shows in the same state. -/
theorem HostLink.sameButTags.reportPath {p q : Part} (tags : p.hlk.sameButTags q.hlk) :
    q.reportPathFull = p.reportPathFull ∧ q.ringPlace = p.ringPlace ∧ q.produceAddress = p.produceAddress
      ∧ (q.hlk.reportQueue = [] ↔ p.hlk.reportQueue = []) := by
  obtain ⟨same, length⟩ := tags
  have size : q.hlk.reportSize = p.hlk.reportSize := (congrArg HostLink.reportSize same :)
  have produce : q.hlk.reportProduce = p.hlk.reportProduce := (congrArg HostLink.reportProduce same :)
  have consume : q.hlk.reportConsume = p.hlk.reportConsume := (congrArg HostLink.reportConsume same :)
  have base : q.hlk.reportBase = p.hlk.reportBase := (congrArg HostLink.reportBase same :)
  have place : q.ringPlace = p.ringPlace := by rw [Part.ringPlace, size, produce, consume]; rfl
  have empty : q.hlk.reportQueue.isEmpty = p.hlk.reportQueue.isEmpty := by
    rw [Bool.eq_iff_iff, List.isEmpty_iff_length_eq_zero, List.isEmpty_iff_length_eq_zero, length]
  refine ⟨?_, place, ?_, ?_⟩
  · rw [Part.reportPathFull, place, length, empty]
    rfl
  · rw [Part.produceAddress, base, produce]
    rfl
  · rw [← List.isEmpty_iff, ← List.isEmpty_iff, empty]

/-- A report posted where the path has a place has its place in the path (R169). -/
theorem Part.postReport_reported {p : Part} {r : Report} (room : p.reportPathFull = false) : p.reported (p.postReport r) r := by
  refine ⟨fun empty place k lt => ?_, fun waits => ?_⟩
  · rw [Part.postReport_ring r empty place]
    exact (p.writeReport_written r place).1 k lt
  · have few : p.hlk.reportQueue.length < 64 := by
      have waiting : (p.hlk.reportQueue.isEmpty && p.ringPlace) = false := by
        rw [Bool.and_eq_false_iff]
        exact waits.imp_left fun h => by simpa using h
      simpa [Part.reportPathFull, waiting] using room
    rw [Part.postReport_queue r waits few]
    exact List.getLast?_concat

/-- A report's place in the path depends on the path and on the host link after it alone. -/
theorem Part.reported_of_same {p q a b : Part} {r : Report} (tags : p.hlk.sameButTags q.hlk) (h : q.reported a r)
    (hlk : b.hlk = a.hlk) : p.reported b r := by
  obtain ⟨-, place, address, empty⟩ := tags.reportPath
  rw [Part.reported, hlk]
  rw [Part.reported, place, address, empty] at h
  rwa [ne_eq, empty] at h

/-- A WITHDRAW posted where the control queue has room stands in it. -/
theorem Part.withdrawPlain_control {p : Part} (room : p.queueOpen) (t : StripeId) (reason : WithdrawReason) :
    ∃ f ∈ (p.withdrawPlain t reason).sgp.control, f.target = none ∧ f.body = .withdraw t reason.code 0xFF 0 := by
  have body : p.withdrawPlain t reason = p.post none (.withdraw t reason.code 0xFF 0) := rfl
  rw [body]
  cases waits : p.claimWaits t with
  | false =>
    rw [Part.post_contest (t := t) rfl waits room none]
    exact ⟨_, List.mem_append_right _ List.mem_cons_self, rfl, rfl⟩
  | true =>
    have claim : ∃ f ∈ p.sgp.control, f.body.isClaimOf t = true := by
      simpa [Part.claimWaits, room.1] using waits
    obtain ⟨f, member, claims⟩ := claim
    rw [Part.post_replaces (t := t) none rfl waits]
    exact ⟨_, List.mem_map.2 ⟨f, member, if_pos claims⟩, rfl, rfl⟩

/-- The WITHDRAW of a context that is ABANDONED, where its lanes leave room for it (R102). -/
theorem Part.abandon_control {p : Part} {c : Nat} {x : Context} (inUse : p.context? c = some x)
    (path : p.reportPathFull = false) (room : (p.lanesGiven c x).queueOpen) (rising : p.hdt.rising = true)
    (cause : AbandonCause) : ∃ f ∈ (p.abandon c cause).sgp.control,
      f.target = none ∧ f.body = .withdraw x.stripe 0x03 0xFF 0 := by
  have released := Part.releaseContext_releasedTo inUse
  obtain ⟨q, q_eq⟩ : ∃ q, q = p.releaseContext c := ⟨_, rfl⟩
  rw [← q_eq] at released
  have path' : q.reportPathFull = false := released.tags.reportPath.1.trans path
  have completed := Part.completeAbandoned_eq (released.context?_self inUse) cause
  have decided : p.abandon c cause =
      q.outcomeReported c x.stripe .abandoned [] .quiet (.repairAbandoned cause x.stripe) := by
    refine Eq.trans ?_ completed
    rw [q_eq] at path' ⊢
    exact if_neg (by rw [path']; exact Bool.false_ne_true)
  have shown := (Part.outcomeReported_imaged (p := q) (by rw [released.hdt_same]; exact rising) c x.stripe .abandoned []
    .quiet (.repairAbandoned cause x.stripe)).same
  rw [← decided] at shown
  have open_ : q.queueOpen := by rw [Part.queueOpen, Part.controlPlace, released.sgp_same]; exact room
  rw [show (p.abandon c cause).sgp = (q.withdrawPlain x.stripe .abandoned).sgp from (congrArg Part.sgp shown :)]
  exact Part.withdrawPlain_control open_ x.stripe .abandoned

/-- A context that is ABANDONED, in a base that shows the part as it was but for what the event has done before (R101 to
R103). -/
theorem Part.abandon_abandoned {p base : Part} {c : Nat} {x y : Context} (inUse : base.context? c = some y)
    (stripe : y.stripe = x.stripe) (lanes : y.reservation = x.reservation)
    (others : ∀ d, d ≠ c → base.context? d = p.context? d) (generation : base.generation c = p.generation c)
    (hdt : base.hdt = p.hdt) (clt : base.clt = p.clt) (tags : p.hlk.sameButTags base.hlk)
    (room : p.roomFor (x.reservation.length + 2) → base.roomFor (x.reservation.length + 1))
    (rising : p.hdt.rising = true) (cause : AbandonCause) : p.abandoned (base.abandon c cause) c x cause := by
  have released := Part.releaseContext_releasedTo inUse
  obtain ⟨q, q_eq⟩ : ∃ q, q = base.releaseContext c := ⟨_, rfl⟩
  rw [← q_eq] at released
  have path := (tags.trans released.tags).reportPath.1
  have full : p.reportPathFull = true →
      base.abandon c cause = q.editContext c fun z => { z with pendingOutcome := some (.abandoned cause) } := fun full => by
    rw [q_eq] at path ⊢
    exact if_pos (path.trans full)
  have now : p.reportPathFull = false → base.abandon c cause =
      q.outcomeReported c x.stripe .abandoned [] .quiet (.repairAbandoned cause x.stripe) := fun open_ => by
    have completed := Part.completeAbandoned_eq (released.context?_self inUse) cause
    rw [show y.released.stripe = x.stripe from stripe] at completed
    rw [← completed]
    rw [q_eq] at path ⊢
    exact if_neg (by rw [path, open_]; exact Bool.false_ne_true)
  have shown : p.reportPathFull = false → (base.abandon c cause).setDram q.smc.dram =
      q.outcomeShown c x.stripe .abandoned [] .quiet (.repairAbandoned cause x.stripe) := fun open_ => by
    rw [now open_]
    exact (Part.outcomeReported_imaged (by rw [released.hdt_same, hdt]; exact rising) c x.stripe .abandoned [] .quiet _).same
  have apart {d : Nat} (other : d ≠ c) : q.context? d = p.context? d :=
    (released.context?_other other).trans (others d other)
  have kept : q.generation c = p.generation c := (released.generation_same c).trans generation
  have given (lane : Nat) (member : lane ∈ x.reservation) : (q.lane lane).holder = none ∧ q.laneUse? lane = none := by
    have idle := released.lane_eq lane
    rw [if_pos (lanes ▸ member)] at idle
    exact ⟨(congrArg Lane.holder idle :), (congrArg Lane.use idle :)⟩
  rcases Bool.eq_false_or_eq_true p.reportPathFull with closed | open_
  · rw [full closed]
    refine ⟨fun d other => (Part.context?_editContext_other q other _).trans (apart other), kept,
      given, fun open_ => absurd (open_.symm.trans closed) Bool.false_ne_true, fun _ => ⟨?_, ?_, ?_⟩⟩
    · exact released.hdt_same.trans hdt
    · exact released.clt_same.trans clt
    · refine ⟨_, Part.context?_editContext (released.context?_self inUse) _, rfl, rfl, rfl, rfl, fun e member => ?_⟩
      obtain ⟨f, -, rfl⟩ := List.mem_map.1 member
      rfl
  · have shown := shown open_
    have same {α : Type} (g : Part → α) (beside : ∀ q d, g (Part.setDram q d) = g q) :
        g (base.abandon c cause) = g (q.outcomeShown c x.stripe .abandoned [] .quiet (.repairAbandoned cause x.stripe)) :=
      (beside _ _).symm.trans (congrArg g shown)
    refine ⟨fun d other => ?_, ?_, fun lane member => ?_, fun _ => ⟨?_, ?_, fun n claim entry => ?_, ?_, fun wide => ?_⟩,
      fun closed => absurd (open_.symm.trans closed) Bool.false_ne_true⟩
    · refine (same (fun q => q.context? d) fun _ _ => rfl).trans ?_
      exact (Table.row?_dropRow _ _ _).trans ((if_neg other).trans (apart other))
    · exact (same (fun q => q.generation c) fun _ _ => rfl).trans kept
    · have lane_eq := same (fun q => q.lane lane) fun _ _ => rfl
      have lane_same : (base.abandon c cause).lane lane = q.lane lane := lane_eq
      rw [Part.laneUse?, lane_same]
      exact given lane member
    · exact (same (fun q => q.context? c) fun _ _ => rfl).trans ((Table.row?_dropRow _ _ _).trans (if_pos rfl))
    · refine (same Part.hdt fun _ _ => rfl).trans ?_
      rw [Part.outcomeShown, released.hdt_same, hdt]
    · refine (same Part.clt fun _ _ => rfl).trans ?_
      have clt' := released.clt_same.trans clt
      have entry' : q.claimOf? x.stripe = some (n, claim) := by rw [Part.claimOf?, clt']; exact entry
      refine (Part.removeClaimOf_clt entry').trans ?_
      rw [clt']
    · exact Part.reported_of_same (tags.trans released.tags)
        (Part.postReport_reported (r := .repairAbandoned cause x.stripe)
          (((tags.trans released.tags).reportPath.1).trans open_)) (same Part.hlk fun _ _ => rfl)
    · rw [← stripe]
      exact Part.abandon_control inUse (tags.reportPath.1.trans open_)
        (Part.queueOpen_of_roomFor _ (Nat.le_refl 1) (Part.roomFor_lanesGiven (by rw [lanes]; exact room wide) c))
        (by rw [hdt]; exact rising) cause

end Sys2Proof.Machine

/-! Plan-wait deadlines, pending outcomes and verify jobs (R91, R98, R103, R144 to R146). -/

namespace Sys2Proof.Machine

/-! ## The plan-wait deadline and pending outcomes -/

section
variable {p : Part} {c time : Nat} {x : Context} (inUse : p.context? c = some x) (live : x.pendingOutcome = none)
  (deadline : x.deadline = .due time)
include inUse live deadline

theorem Part.expirePlanWait_planning (state : x.state = .planning) : p.expirePlanWait c =
    (p.reach time).editContext c fun y => { y with deadline := .passed } := by
  simp [Part.expirePlanWait, inUse, deadline, Context.live, live, state]

theorem Part.expirePlanWait_waits (state : x.state = .planWait) :
    p.expirePlanWait c = (p.reach time).abandon c .planWaitLimit := by
  simp [Part.expirePlanWait, inUse, deadline, Context.live, live, state]

end

/-- A context in PLAN-WAIT is ABANDONED, or the outcome is pending, whatever the clock (R91). -/
theorem Part.abandon_reached {p : Part} {c : Nat} {x : Context} (inUse : p.context? c = some x)
    (rising : p.hdt.rising = true) (time : Nat) (cause : AbandonCause) :
    p.abandoned ((p.reach time).abandon c cause) c x cause :=
  Part.abandon_abandoned (base := p.reach time) inUse rfl rfl (fun _ _ => rfl) rfl rfl rfl .rfl
    (fun room => ⟨room.1, Nat.le_trans (Nat.le_succ _) room.2⟩) rising cause

/-- What a completed outcome shows where its WITHDRAW joins the control queue (R102). -/
theorem Part.outcomeShown_queued {p : Part} {n : Nat} {claim : ClaimEntry} {t : StripeId}
    (entry : p.claimOf? t = some (n, claim)) (room : p.queueOpen) (fresh : p.claimWaits t = false) (c : Nat)
    (reason : WithdrawReason) (lost : Positions) (standing : Standing) (r : Report) :
    Part.postReport (Part.queued
      { p with
        ctx := { p.ctx with contexts := p.ctx.contexts.dropRow c }
        clt := { entries := p.clt.entries.dropRow n, owned := p.clt.owned.filter (· != n) }
        hdt := p.hdt.map (changeStripe t fun r => { r with lost := lost, standing := standing }) }
      none (.withdraw t reason.code 0xFF 0)) r = p.outcomeShown c t reason lost standing r := by
  rw [Part.outcomeShown, Part.removeClaimOf_clt entry, Part.withdrawPlain_queued reason room fresh]
  refine (Part.postReport_of_same (p := p) ?_ ?_ r).trans ?_ <;> rfl

/-- A pending outcome completes where the report path has a place (R103). -/
theorem outcome_completed {w : List Instr} {p : Part} {c : Nat} {x : Context} {o : PendingOutcome}
    (inUse : p.context? c = some x) (pending : x.pendingOutcome = some o) (path : p.reportPathFull = false)
    {after : Part} (imaged : p.Imaged (p.completeReported c o) after) :
    AnswersWithImages (.pendingOutcomeComplete c) ⟨w, p⟩ after := by
  have meaning : exec (.pendingOutcomeComplete c) ⟨w, p⟩ = run ⟨w, p⟩ fun p =>
      match (p.context? c).bind Context.pendingOutcome with
      | some o => if p.reportPathFull then p else p.completeReported c o
      | none => p := rfl
  refine answersWithImages_of_runImaged meaning ?_
  simpa only [inUse, Option.bind_some, pending, path, Bool.false_eq_true, if_false] using imaged

/-- Settles O52. -/
theorem outcomesWaitForTheirReport : Obligations.OutcomesWaitForTheirReport := by
  refine fun w p c x inUse rising => ⟨fun time live deadline => ⟨fun state => ?_, fun state full => ?_,
    fun state path => ?_⟩, fun full => ?_, fun n claim entry path room fresh => ⟨fun cause pending => ?_,
    fun failed pending => ?_⟩⟩
  · exact answers_of_effect (f := fun p => p.expirePlanWait c) rfl
      (congrArg Part.unmarked (Part.expirePlanWait_planning inUse live deadline state))
  · refine leads_of_effect (f := fun p => p.expirePlanWait c) rfl ?_ fun _ _ h => h
    dsimp only
    rw [Part.expirePlanWait_waits inUse live deadline state]
    obtain ⟨-, -, -, -, closed⟩ := Part.abandon_reached inUse rising time .planWaitLimit
    obtain ⟨hdt, clt, pending⟩ := closed full
    exact ⟨pending, clt, hdt⟩
  · refine leads_of_effect (f := fun p => p.expirePlanWait c) rfl ?_ fun _ _ h => h
    dsimp only
    rw [Part.expirePlanWait_waits inUse live deadline state]
    obtain ⟨-, -, -, open_, -⟩ := Part.abandon_reached inUse rising time .planWaitLimit
    obtain ⟨gone, hdt, -⟩ := open_ path
    exact ⟨gone, hdt⟩
  · have meaning : exec (.pendingOutcomeComplete c) ⟨w, p⟩ = run ⟨w, p⟩ fun p =>
        match (p.context? c).bind Context.pendingOutcome with
        | some o => if p.reportPathFull then p else p.completeReported c o
        | none => p := rfl
    refine answers_of_effect meaning (congrArg Part.unmarked ?_)
    simp only [full, if_true]
    split <;> rfl
  · refine outcome_completed inUse pending path ?_
    have imaged := Part.outcomeReported_imaged rising c x.stripe .abandoned [] .quiet (.repairAbandoned cause x.stripe)
    rw [← Part.completeAbandoned_eq inUse cause,
      ← Part.outcomeShown_queued entry room fresh c .abandoned [] .quiet (.repairAbandoned cause x.stripe)] at imaged
    exact imaged
  · refine outcome_completed inUse pending path ?_
    have imaged := Part.outcomeReported_imaged rising c x.stripe .unrecoverable claim.lost .unrecoverable
      (.verifyFail x.stripe failed)
    rw [← Part.completeVerifyFail_eq inUse entry failed,
      ← Part.outcomeShown_queued entry room fresh c .unrecoverable claim.lost .unrecoverable
        (.verifyFail x.stripe failed)] at imaged
    exact imaged

/-! ## Verify jobs (R98, R144 to R146) -/

theorem Part.foldl_settleSlot_owned {p : Part} {slots : List Nat}
    (owned : ∀ slot ∈ slots, ∃ r, p.slot? slot = some r ∧ r.owner ≠ none) : slots.foldl Part.settleSlot p = p := by
  induction slots with
  | nil => rfl
  | cons j rest ih =>
    obtain ⟨r, slot, owner⟩ := owned j List.mem_cons_self
    rw [List.foldl_cons, Part.settleSlot_owned slot owner]
    exact ih fun k member => owned k (List.mem_cons_of_mem _ member)

section
variable {p : Part} {j : VerifyJob} (job : p.vfu.job = some j)
  (owned : ∀ slot ∈ j.slots, ∃ r, p.slot? slot = some r ∧ r.owner ≠ none)
include job owned

theorem Part.endVerify_void (void : j.void = true) : p.endVerify = { p with vfu := { p.vfu with job := none } } := by
  have settled : j.slots.foldl Part.settleSlot { p with vfu := { p.vfu with job := none } } =
      { p with vfu := { p.vfu with job := none } } := Part.foldl_settleSlot_owned owned
  simp only [Part.endVerify, job, settled, void]
  split <;> rfl

/-- A verify job that is not void completes at its context, which is in VERIFYING under its generation (R145). -/
theorem Part.endVerify_current {x : Context} (valid : j.void = false) (inUse : p.context? j.context = some x)
    (live : x.pendingOutcome = none) (state : x.state = .verifying) (current : p.generation j.context = j.generation) :
    p.endVerify = Part.takeVerify { p with vfu := { p.vfu with job := none } } j x := by
  have settled : j.slots.foldl Part.settleSlot { p with vfu := { p.vfu with job := none } } =
      { p with vfu := { p.vfu with job := none } } := Part.foldl_settleSlot_owned owned
  have inUse : Part.context? { p with vfu := { p.vfu with job := none } } j.context = some x := inUse
  have current : Part.generation { p with vfu := { p.vfu with job := none } } j.context = j.generation := current
  simp only [Part.endVerify, job, settled, inUse, valid, Context.live, live, state, current, Option.isNone_none,
    beq_self_eq_true, Bool.not_false, Bool.and_self, if_true]

end

theorem Part.mismatched_iff (p : Part) (t : StripeId) (r : Nat × Digest) :
    p.mismatched t r = true ↔ ∃ expected, p.expectedDigest? t r.1 = some expected ∧ expected ≠ r.2 := by
  unfold Part.mismatched
  cases p.expectedDigest? t r.1 with
  | none => simp
  | some expected => simp

/-- The digests of a verify job written into the entries of a context (R98). -/
def Context.digested (j : VerifyJob) (y : Context) : Context :=
  { y with lostList := y.lostList.map fun e =>
      if e.enabled then { e with digest := (j.digests.lookup e.position).or e.digest } else e }

theorem Part.takeVerify_matches {p : Part} {j : VerifyJob} {x : Context}
    (agree : ∀ d ∈ j.digests, p.mismatched x.stripe d = false) : p.takeVerify j x =
      p.editContext j.context fun y => { y.digested j with state := .delivering } := by
  have none_ : j.digests.filter (p.mismatched x.stripe) = [] :=
    List.filter_eq_nil_iff.2 fun d member => by simp [agree d member]
  simp only [Part.takeVerify, none_, List.map_nil, List.isEmpty_nil, if_true, Part.editContext, Table.editRow_editRow]
  rfl

theorem Part.takeVerify_differs {p : Part} {j : VerifyJob} {x : Context} {d : Nat × Digest} (member : d ∈ j.digests)
    (differs : p.mismatched x.stripe d = true) : ∃ failed, p.takeVerify j x =
      (p.editContext j.context (Context.digested j)).decideReported j.context (.verifyFail failed) := by
  refine ⟨(j.digests.filter (p.mismatched x.stripe)).map Prod.fst, if_neg ?_⟩
  rw [List.isEmpty_iff]
  exact List.ne_nil_of_mem (List.mem_map.2 ⟨d, List.mem_filter.2 ⟨member, differs⟩, rfl⟩)

/-- Outcome VERIFY-FAIL decided where the report path has a place and the context holds no lanes (R102). -/
theorem Part.decideReported_verifyFail {p : Part} {c n : Nat} {x : Context} {claim : ClaimEntry}
    (inUse : p.context? c = some x) (entry : p.claimOf? x.stripe = some (n, claim)) (path : p.reportPathFull = false)
    (noLanes : x.reservation = []) (room : p.queueOpen) (rising : p.hdt.rising = true) (failed : Positions) :
    (p.decideReported c (.verifyFail failed)).context? c = none
      ∧ (p.decideReported c (.verifyFail failed)).hdt = withStanding p.hdt x.stripe claim.lost .unrecoverable
      ∧ ∃ f ∈ (p.decideReported c (.verifyFail failed)).sgp.control,
        f.target = none ∧ f.body = .withdraw x.stripe 0x07 0xFF 0 := by
  have released := Part.releaseContext_releasedTo inUse
  obtain ⟨q, q_eq⟩ : ∃ q, q = p.releaseContext c := ⟨_, rfl⟩
  rw [← q_eq] at released
  have path' : q.reportPathFull = false := released.tags.reportPath.1.trans path
  have entry' : q.claimOf? x.released.stripe = some (n, claim) := by
    rw [Part.claimOf?, released.clt_same]
    exact entry
  have decided : p.decideReported c (.verifyFail failed) =
      q.outcomeReported c x.stripe .unrecoverable claim.lost .unrecoverable (.verifyFail x.stripe failed) := by
    refine Eq.trans ?_ (Part.completeVerifyFail_eq (released.context?_self inUse) entry' failed)
    rw [q_eq] at path' ⊢
    exact if_neg (by rw [path']; exact Bool.false_ne_true)
  have sgp : q.sgp = p.sgp :=
    released.sgp_same.trans (Part.sgp_lanesGiven_idle (by rw [noLanes]; exact fun _ member => absurd member (List.not_mem_nil)) c)
  have room' : q.queueOpen := by rw [Part.queueOpen, Part.controlPlace, sgp]; exact room
  have shown := (Part.outcomeReported_imaged (p := q) (by rw [released.hdt_same]; exact rising) c x.stripe .unrecoverable
    claim.lost .unrecoverable (.verifyFail x.stripe failed)).same
  rw [← decided] at shown
  refine ⟨?_, ?_, ?_⟩
  · exact (congrArg (fun q : Part => q.context? c) shown :).trans ((Table.row?_dropRow _ _ _).trans (if_pos rfl))
  · refine (congrArg Part.hdt shown :).trans ?_
    rw [Part.outcomeShown, released.hdt_same]
  · have control := Part.withdrawPlain_control room' x.stripe .unrecoverable
    rw [show (p.decideReported c (.verifyFail failed)).sgp = (q.withdrawPlain x.stripe .unrecoverable).sgp from
      (congrArg Part.sgp shown :)]
    exact control

/-- Settles O53. -/
theorem rebuiltFragmentsAreVerified : Obligations.RebuiltFragmentsAreVerified := by
  refine fun w p => ⟨fun j rest x idle head inUse => ?_, fun j job owned => ⟨fun void => ?_,
    fun x valid inUse live state current => ⟨fun agree => ?_,
    fun n claim d expected member known differs entry path noLanes room rising => ?_⟩⟩⟩
  · have meaning : exec .verifyJobStart ⟨w, p⟩ = run ⟨w, p⟩ fun p =>
        match p.vfu.job, p.vfu.queue with
        | none, j :: rest =>
          { p with vfu := { queue := rest, job := (p.context? j.context).map fun x => p.verifyJob j x } }
        | _, _ => p := rfl
    refine answers_of_effect meaning (congrArg Part.unmarked ?_)
    simp only [idle, head, inUse, Option.map_some]
    rfl
  · exact answers_of_effect (f := Part.endVerify) rfl (congrArg Part.unmarked (Part.endVerify_void job owned void))
  · refine answers_of_effect (f := Part.endVerify) rfl (congrArg Part.unmarked ?_)
    refine (Part.endVerify_current job owned valid inUse live state current).trans (Part.takeVerify_matches ?_)
    intro d member
    refine Bool.eq_false_iff.2 fun differs => ?_
    obtain ⟨expected, known, other⟩ := (Part.mismatched_iff _ _ _).1 differs
    exact other (agree d member expected known)
  · refine leads_of_effect (f := Part.endVerify) rfl ?_ fun _ _ h => h
    dsimp only
    rw [Part.endVerify_current job owned valid inUse live state current]
    obtain ⟨failed, effect⟩ := Part.takeVerify_differs (p := { p with vfu := { p.vfu with job := none } }) (x := x) member
      ((Part.mismatched_iff _ _ _).2 ⟨expected, known, differs⟩)
    rw [effect]
    have inUse' : Part.context? (Part.editContext { p with vfu := { p.vfu with job := none } } j.context
        (Context.digested j)) j.context = some (x.digested j) :=
      Part.context?_editContext (p := { p with vfu := { p.vfu with job := none } }) inUse _
    exact Part.decideReported_verifyFail inUse' entry path noLanes room rising failed

end Sys2Proof.Machine

/-! Survivor choice and the start of a plan job (R24 to R26, R89, R91). -/

namespace Sys2Proof.Machine

/-! ## The candidates (R24, R25) -/

/-- A position that survivor choice does not pass over, with its holder (R24). -/
def Part.openTo (p : Part) (x : Context) (i holder : Nat) : Prop :=
  (p.placementOf x.stripe)[i]? = some holder ∧ i ∉ x.lostList.map LostEntry.position ∧ i ∉ x.unusable

theorem mem_zip_range (l : List Nat) (i h : Nat) : (i, h) ∈ (List.range l.length).zip l ↔ l[i]? = some h := by
  rw [List.mem_iff_getElem?]
  constructor
  · rintro ⟨k, found⟩
    obtain ⟨number, entry⟩ := List.getElem?_zip_eq_some.1 found
    obtain ⟨lt, same⟩ := List.getElem?_eq_some_iff.1 number
    have here : k = i := by simpa using same
    exact here ▸ entry
  · intro entry
    have lt : i < l.length := (List.getElem?_eq_some_iff.1 entry).1
    exact ⟨i, List.getElem?_zip_eq_some.2 ⟨List.getElem?_range lt, entry⟩⟩

theorem Part.mem_choosable (p : Part) (x : Context) (i h : Nat) : (i, h) ∈ p.choosable x ↔ p.openTo x i h := by
  simp only [Part.choosable, List.mem_filter, mem_zip_range, Context.excluded, Part.openTo, Bool.not_eq_true',
    Bool.or_eq_false_iff, List.contains_eq_mem, decide_eq_false_iff_not]

theorem Part.choosable_ascending (p : Part) (x : Context) : (p.choosable x).Pairwise fun a b => a.1 < b.1 := by
  have numbers : ((List.range (p.placementOf x.stripe).length).zip (p.placementOf x.stripe)).map Prod.fst =
      List.range (p.placementOf x.stripe).length := List.map_fst_zip (by simp)
  have all : ((List.range (p.placementOf x.stripe).length).zip (p.placementOf x.stripe)).Pairwise fun a b => a.1 < b.1 := by
    rw [← List.pairwise_map (f := Prod.fst) (R := (· < ·)), numbers]
    exact List.pairwise_lt_range
  exact all.filter _

theorem Part.mem_remotePositions (p : Part) (x : Context) (state : PeerState) (i h : Nat) :
    (i, h) ∈ p.remotePositions x state ↔ p.openTo x i h ∧ h ≠ p.own ∧ p.peerState? h = some state := by
  simp only [Part.remotePositions, List.mem_filter, Part.mem_choosable, Bool.and_eq_true, bne_iff_ne, beq_iff_eq]

theorem Part.remotePositions_ascending (p : Part) (x : Context) (state : PeerState) :
    ((p.remotePositions x state).map Prod.fst).Pairwise (· < ·) :=
  List.pairwise_map.2 ((p.choosable_ascending x).filter _)

theorem Part.localPosition?_none {p : Part} {x : Context} (none_ : p.localPosition? x = none) {i : Nat}
    (open_ : p.openTo x i p.own) : p.holds x.stripe i = false := by
  have searched := List.find?_eq_none.1 (Option.map_eq_none_iff.1 none_) (i, p.own) ((p.mem_choosable x i p.own).2 open_)
  simpa using searched

theorem Part.localPosition?_some {p : Part} {x : Context} {i : Nat} (found : p.localPosition? x = some i) :
    p.openTo x i p.own ∧ p.holds x.stripe i = true
      ∧ ∀ j, p.openTo x j p.own → p.holds x.stripe j = true → i ≤ j := by
  obtain ⟨⟨i', h⟩, search, rfl⟩ := Option.map_eq_some_iff.1 found
  obtain ⟨test, before, after, split, none_⟩ := List.find?_eq_some_iff_append.1 search
  obtain ⟨own, held⟩ : h = p.own ∧ p.holds x.stripe i' = true := by simpa using test
  subst own
  have member : (i', p.own) ∈ p.choosable x := by rw [split]; simp
  refine ⟨(p.mem_choosable x i' p.own).1 member, held, fun j open_ holds => ?_⟩
  have sorted := p.choosable_ascending x
  have there := (p.mem_choosable x j p.own).2 open_
  rw [split] at sorted there
  rcases List.mem_append.1 there with early | late
  · have failed := none_ (j, p.own) early
    simp [holds] at failed
  · rcases List.mem_cons.1 late with here | later
    · exact Nat.le_of_eq (congrArg Prod.fst here).symm
    · exact Nat.le_of_lt ((List.pairwise_cons.1 (List.pairwise_append.1 sorted).2.1).1 _ later)

/-- What survivor choice chooses from: the local position, if there is one, and then the reachable ones (R25). -/
theorem Part.candidates_shape (p : Part) (x : Context) : ∃ first others, p.candidates x = first ++ others
    ∧ ((first = [] ∧ ∀ i, p.openTo x i p.own → p.holds x.stripe i = false)
      ∨ ∃ i, p.openTo x i p.own ∧ p.holds x.stripe i = true
        ∧ (∀ j, p.openTo x j p.own → p.holds x.stripe j = true → i ≤ j)
        ∧ first = [{ position := i, holder := p.own, source := .ownHoldings }])
    ∧ (others.map Survivor.position).Pairwise (· < ·)
    ∧ ∀ v, v ∈ others ↔ v.source = .unassigned ∧ p.openTo x v.position v.holder ∧ v.holder ≠ p.own
      ∧ p.peerState? v.holder = some .present := by
  refine ⟨_, _, rfl, ?_, ?_, fun v => ?_⟩
  · cases found : p.localPosition? x with
    | none => exact .inl ⟨rfl, fun i open_ => Part.localPosition?_none found open_⟩
    | some i =>
      obtain ⟨open_, held, least⟩ := Part.localPosition?_some found
      exact .inr ⟨i, open_, held, least, rfl⟩
  · rw [List.map_map]
    exact p.remotePositions_ascending x .present
  · rw [List.mem_map]
    constructor
    · rintro ⟨⟨i, h⟩, member, rfl⟩
      exact ⟨rfl, (p.mem_remotePositions x .present i h).1 member⟩
    · rintro ⟨source, reachable⟩
      refine ⟨(v.position, v.holder), (p.mem_remotePositions x .present _ _).2 reachable, ?_⟩
      rw [← source]

/-! ## The start of a plan job (R26, R89) -/

section
variable {p : Part} {c : Nat} {rest : List Nat} {x : Context} {g : Geometry} (idle : p.plu.job = none)
  (head : p.plu.queue = c :: rest) (inUse : p.context? c = some x) (live : x.pendingOutcome = none)
  (state : x.state = .planning) (geometry : p.geometry? x.geometry = some g)

/-- The head job of the plan FIFO started (R26). -/
def Part.headPlan (p : Part) : Part :=
  match p.plu.job, p.plu.queue with
  | none, c :: rest => Part.startPlan { p with plu := { p.plu with queue := rest } } c
  | _, _ => p

include idle head in
theorem Part.headPlan_eq : p.headPlan = Part.startPlan { p with plu := { p.plu with queue := rest } } c := by
  simp only [Part.headPlan, idle, head]

include inUse live state geometry

theorem Part.startPlan_planned (enough : g.k ≤ (p.candidates x).length) : p.startPlan c =
    { p with
      plu := { p.plu with
        job := some { context := c, void := false, geometry := g, survivors := (p.candidates x).take g.k,
                      lost := x.lostList.map LostEntry.position } } } := by
  have choice : p.choose x g.k = .planned ((p.candidates x).take g.k) := if_pos enough
  simp [Part.startPlan, inUse, geometry, Context.live, live, state, choice]

theorem Part.startPlan_short (few : (p.candidates x).length < g.k)
    (silent : g.k ≤ (p.candidates x).length + (p.remotePositions x .silent).length) :
    p.startPlan c = p.planShort c x := by
  have choice : p.choose x g.k = .short := (if_neg (Nat.not_le.2 few)).trans (if_pos silent)
  simp [Part.startPlan, inUse, geometry, Context.live, live, state, choice]

theorem Part.startPlan_none (few : (p.candidates x).length + (p.remotePositions x .silent).length < g.k) :
    p.startPlan c = p.abandon c .noSurvivors := by
  have choice : p.choose x g.k = .none_ :=
    (if_neg (by omega)).trans (if_neg (Nat.not_le.2 few))
  simp [Part.startPlan, inUse, geometry, Context.live, live, state, choice]

end

theorem Part.planShort_eq (p : Part) (c : Nat) (x : Context) :
    (x.deadline = .absent → p.planShort c x =
        p.editContext c fun y => { y with state := .planWait, deadline := .due (p.now + 1000000) })
      ∧ (∀ time, x.deadline = .due time → p.planShort c x = p.editContext c fun y => { y with state := .planWait })
      ∧ (x.deadline = .passed → p.planShort c x = p.abandon c .planWaitLimit) := by
  refine ⟨fun deadline => ?_, fun time deadline => ?_, fun deadline => ?_⟩ <;> simp only [Part.planShort, deadline]

/-- Settles O49. -/
theorem planJobsStart : Obligations.PlanJobsStart := by
  refine ⟨fun p x open_ open_eq => ?_, fun w p c rest x g idle head inUse live state geometry => ?_⟩
  · obtain rfl : open_ = p.openTo x := open_eq
    exact ⟨p.candidates_shape x, p.remotePositions_ascending x .silent,
      fun i holder => p.mem_remotePositions x .silent i holder⟩
  have meaning : exec .planJobStart ⟨w, p⟩ = run ⟨w, p⟩ Part.headPlan := rfl
  have effect := Part.headPlan_eq idle head
  obtain ⟨a, a_eq⟩ : ∃ a : Part, a = { p with plu := { p.plu with queue := rest } } := ⟨_, rfl⟩
  have inUse' : a.context? c = some x := by rw [a_eq]; exact inUse
  have geometry' : a.geometry? x.geometry = some g := by rw [a_eq]; exact geometry
  have choosers : a.candidates x = p.candidates x ∧ a.remotePositions x .silent = p.remotePositions x .silent := by
    rw [a_eq]
    exact ⟨rfl, rfl⟩
  rw [← a_eq] at effect
  have short (few : (p.candidates x).length < g.k)
      (silent : g.k ≤ (p.candidates x).length + (p.remotePositions x .silent).length) : p.headPlan = a.planShort c x := by
    rw [← choosers.1] at few silent
    rw [← choosers.2] at silent
    exact effect.trans (Part.startPlan_short inUse' live state geometry' few silent)
  have abandoned (cause : AbandonCause) (rising : p.hdt.rising = true) : p.abandoned (a.abandon c cause) c x cause := by
    rw [a_eq]
    exact Part.abandon_abandoned (base := { p with plu := { p.plu with queue := rest } }) inUse rfl rfl (fun _ _ => rfl) rfl
      rfl rfl .rfl (fun room => ⟨room.1, Nat.le_trans (Nat.le_succ _) room.2⟩) rising cause
  have none_ (few : (p.candidates x).length + (p.remotePositions x .silent).length < g.k) :
      p.headPlan = a.abandon c .noSurvivors := by
    rw [← choosers.1, ← choosers.2] at few
    exact effect.trans (Part.startPlan_none inUse' live state geometry' few)
  obtain ⟨absent, due, passed⟩ := Part.planShort_eq a c x
  refine ⟨fun enough => ?_, fun few silent deadline => ?_, fun few silent time deadline => ?_,
    fun few silent deadline rising => ?_, fun few rising => ?_, fun n claim few lanes entry path room rising => ?_⟩
  · refine answers_of_effect meaning (congrArg Part.unmarked (effect.trans ?_))
    refine (Part.startPlan_planned inUse' live state geometry' (by rwa [choosers.1])).trans ?_
    rw [choosers.1, a_eq]
  · refine answers_of_effect meaning (congrArg Part.unmarked ((short few silent).trans ((absent deadline).trans ?_)))
    rw [a_eq]
  · refine answers_of_effect meaning (congrArg Part.unmarked ((short few silent).trans ((due time deadline).trans ?_)))
    rw [a_eq]
  · refine leads_of_effect meaning ?_ fun _ _ h => h
    dsimp only
    rw [short few silent, passed deadline]
    exact abandoned .planWaitLimit rising
  · refine leads_of_effect meaning ?_ fun _ _ h => h
    dsimp only
    rw [none_ few]
    exact abandoned .noSurvivors rising
  · obtain ⟨-, -, given, open_, -⟩ := abandoned .noSurvivors rising
    obtain ⟨gone, hdt, clt, -⟩ := open_ path
    refine leads_of_effect meaning ?_ fun _ _ h => h
    dsimp only
    rw [none_ few]
    refine ⟨gone, given, clt n claim entry, hdt, ?_⟩
    have lanes' : ∀ lane ∈ x.reservation, a.laneUse? lane = none := by rw [a_eq]; exact lanes
    refine Part.abandon_control inUse' (by rw [a_eq]; exact path) ?_ (by rw [a_eq]; exact rising) .noSurvivors
    rw [Part.queueOpen, Part.controlPlace, Part.sgp_lanesGiven_idle lanes' c, a_eq]
    exact room

end Sys2Proof.Machine

/-! Lanes and slots given to a context (R87, R88, R90, R149, R151). -/

namespace Sys2Proof.Machine

/-! ## Lanes (R87, R90) -/

/-- The rows of lanes that a context holds from now on. -/
def lanesHeld (ftu : Table Lane) (c : Nat) (lanes : List Nat) : Table Lane :=
  ftu.map fun r => if r.1 ∈ lanes then (r.1, { r.2 with holder := some c }) else r

theorem lanesHeld_nil (ftu : Table Lane) (c : Nat) : lanesHeld ftu c [] = ftu := by
  simp [lanesHeld]

theorem Part.reserveLanes_eq (p : Part) (c : Nat) (lanes : List Nat) :
    p.reserveLanes c lanes = { p with ftu := lanesHeld p.ftu c lanes } := by
  induction lanes generalizing p with
  | nil => rw [lanesHeld_nil]; rfl
  | cons n rest ih =>
    have table : lanesHeld (p.ftu.editRow n fun l => { l with holder := some c }) c rest = lanesHeld p.ftu c (n :: rest) := by
      rw [lanesHeld, Table.editRow_eq_map, List.map_map]
      refine List.map_congr_left fun r _ => ?_
      by_cases here : r.1 = n <;> by_cases there : r.1 ∈ rest <;> simp [here, there]
    exact (ih (p.editLane n fun l => { l with holder := some c })).trans
      (congrArg (fun t => { p with ftu := t }) table)

theorem lanesHeld_row? (ftu : Table Lane) (c : Nat) (lanes : List Nat) (n : Nat) : (lanesHeld ftu c lanes).row? n =
    (ftu.row? n).map fun l => if n ∈ lanes then { l with holder := some c } else l := by
  have rows : lanesHeld ftu c lanes =
      ftu.map fun r => (r.1, if r.1 ∈ lanes then { r.2 with holder := some c } else r.2) := by
    refine List.map_congr_left fun r _ => ?_
    split <;> rfl
  rw [rows]
  exact Table.row?_map ftu n fun i (l : Lane) => if i ∈ lanes then { l with holder := some c } else l

theorem Part.poolLanes_row {p : Part} {n : Nat} (member : n ∈ p.poolLanes) : ∃ l, p.ftu.row? n = some l := by
  obtain ⟨r, held, rfl⟩ := List.mem_map.1 member
  have numbered : r.1 ∈ p.ftu.numbers := List.mem_map_of_mem (List.mem_of_mem_filter held)
  exact Option.isSome_iff_exists.1 ((Table.row?_isSome_iff _ _).2 numbered)

/-- A lane of the table after lanes of it have been reserved (R87). -/
theorem Part.lane_reserved {p q : Part} {c : Nat} {lanes : List Nat} (ftu : q.ftu = lanesHeld p.ftu c lanes)
    (known : ∀ n ∈ lanes, ∃ l, p.ftu.row? n = some l) (n : Nat) :
    q.lane n = if n ∈ lanes then { p.lane n with holder := some c } else p.lane n := by
  rw [Part.lane, ftu, lanesHeld_row?, Part.lane]
  by_cases here : n ∈ lanes
  · obtain ⟨l, row⟩ := known n here
    simp [here, row]
  · simp only [here, if_false]
    cases p.ftu.row? n <;> rfl

theorem mem_of_mem_take {α : Type} {l : List α} {k : Nat} {a : α} (member : a ∈ l.take k) : a ∈ l :=
  (List.take_sublist k l).subset member

/-! ## Slots (R88, R149, R151) -/

/-- An entry of a lost list after positions have been given slots (R88, R90). -/
def LostEntry.given (pairs : List (Nat × Nat)) (e : LostEntry) : LostEntry :=
  match pairs.lookup e.position with
  | some j => if e.lacksSlot then { e with slot := some j, fill := .filling } else e
  | none => e

/-- A context whose positions have been given slots (R88, R90). -/
def Context.givenSlots (pairs : List (Nat × Nat)) (y : Context) : Context :=
  { y with lostList := y.lostList.map (LostEntry.given pairs) }

/-- The slot table after positions of a context have been given slots (R149). -/
def slotsGiven (slots : Table Slot) (c : Nat) (pairs : List (Nat × Nat)) : Table Slot :=
  pairs.foldl (fun t ps => t.setRow ps.2 (accumulatorSlot c ps.1)) slots

theorem LostEntry.given_cons (position j : Nat) (rest : List (Nat × Nat)) (e : LostEntry) :
    LostEntry.given rest (if e.position = position ∧ e.lacksSlot then { e with slot := some j, fill := .filling } else e) =
      e.given ((position, j) :: rest) := by
  by_cases here : e.position = position
  · cases lacks : e.lacksSlot with
    | false =>
      have kept (pairs : List (Nat × Nat)) : e.given pairs = e := by
        unfold LostEntry.given
        split <;> simp [lacks]
      simp [kept]
    | true =>
      have full : LostEntry.lacksSlot { e with slot := some j, fill := .filling } = false := by simp [LostEntry.lacksSlot]
      have kept : LostEntry.given rest { e with slot := some j, fill := .filling } =
          { e with slot := some j, fill := .filling } := by
        unfold LostEntry.given
        split <;> simp [full]
      rw [if_pos ⟨here, rfl⟩, kept]
      simp [LostEntry.given, List.lookup, here, lacks]
  · have other : (e.position == position) = false := by simpa using here
    simp [LostEntry.given, List.lookup, here, other]

/-- A fill requested, and then others of other slots (R151). -/
theorem fillsRequested_cons (queue : List FillRequest) (c : Nat) (g : BitVec 8) {j : Nat} {js : List Nat}
    (fresh : j ∉ js) :
    (((queue.filter fun f => f.slot != j) ++ [({ context := c, generation := g, slot := j } : FillRequest)]).filter
        fun f => !js.contains f.slot) ++ js.map (fun i => { context := c, generation := g, slot := i })
      = (queue.filter fun f => !(j :: js).contains f.slot)
        ++ (j :: js).map fun i => { context := c, generation := g, slot := i } := by
  have apart : js.contains j = false := by simpa using fresh
  rw [List.filter_append, List.filter_filter]
  simp only [List.filter_cons, apart, Bool.not_false, if_true, List.filter_nil, List.map_cons, List.append_assoc,
    List.singleton_append]
  congr 1
  refine List.filter_congr fun f _ => ?_
  by_cases here : f.slot = j <;> simp [here]

/-- Slots given to a context one by one, with their fill requests (R88, R90, R149, R151). -/
theorem Part.giveSlots_eq {p : Part} (c : Nat) {pairs : List (Nat × Nat)} (nodup : (pairs.map Prod.snd).Nodup) :
    pairs.foldl (fun q ps => q.giveSlot c ps) p =
      { p with
        ctx := { p.ctx with
          contexts := p.ctx.contexts.editRow c (Context.givenSlots pairs) }
        smc := { p.smc with
          slots := slotsGiven p.smc.slots c pairs
          fillQueue := (p.smc.fillQueue.filter fun f => !(pairs.map Prod.snd).contains f.slot)
            ++ (pairs.map Prod.snd).map fun j => { context := c, generation := p.generation c, slot := j } } } := by
  induction pairs generalizing p with
  | nil =>
    have same : LostEntry.given [] = id := by funext e; rfl
    have kept : Context.givenSlots [] = fun y => y := by funext y; simp [Context.givenSlots, same]
    simp [kept, slotsGiven, Table.editRow_self]
  | cons ps rest ih =>
    obtain ⟨position, j⟩ := ps
    obtain ⟨fresh, nodup⟩ := List.nodup_cons.1 nodup
    rw [List.foldl_cons, ih nodup]
    have contexts : (p.giveSlot c (position, j)).ctx.contexts.editRow c (Context.givenSlots rest) =
        p.ctx.contexts.editRow c (Context.givenSlots ((position, j) :: rest)) := by
      have once : (p.giveSlot c (position, j)).ctx.contexts = p.ctx.contexts.editRow c fun y =>
          { y with lostList := y.lostList.map fun e =>
              if e.position = position ∧ e.lacksSlot then { e with slot := some j, fill := .filling } else e } := rfl
      rw [once, Table.editRow_editRow]
      congr 1
      funext y
      simp only [Context.givenSlots, List.map_map]
      congr 1
      exact List.map_congr_left fun e _ => LostEntry.given_cons position j rest e
    have queue := fillsRequested_cons p.smc.fillQueue c (p.generation c) fresh
    rw [contexts]
    exact congrArg (fun fills => { p with
      ctx := { p.ctx with
        contexts := p.ctx.contexts.editRow c (Context.givenSlots ((position, j) :: rest)) }
      smc := { p.smc with slots := slotsGiven p.smc.slots c ((position, j) :: rest), fillQueue := fills } }) queue

theorem slotsGiven_row?_other {slots : Table Slot} {c j : Nat} {pairs : List (Nat × Nat)}
    (other : j ∉ pairs.map Prod.snd) : (slotsGiven slots c pairs).row? j = slots.row? j := by
  induction pairs generalizing slots with
  | nil => rfl
  | cons ps rest ih =>
    rw [List.map_cons, List.mem_cons, not_or] at other
    exact (ih (slots := slots.setRow ps.2 _) other.2).trans (Table.row?_setRow_ne _ _ other.1)

theorem slotsGiven_row?_self {slots : Table Slot} {c : Nat} {pairs : List (Nat × Nat)}
    (nodup : (pairs.map Prod.snd).Nodup) {ps : Nat × Nat} (member : ps ∈ pairs) :
    (slotsGiven slots c pairs).row? ps.2 = some (accumulatorSlot c ps.1) := by
  induction pairs generalizing slots with
  | nil => cases member
  | cons first rest ih =>
    obtain ⟨fresh, nodup⟩ := List.nodup_cons.1 nodup
    rcases List.mem_cons.1 member with rfl | later
    · exact (slotsGiven_row?_other (slots := slots.setRow _ _) fresh).trans (Table.row?_setRow_self _ _ _)
    · exact ih (slots := slots.setRow _ _) nodup later

theorem Part.nodup_freeSlots (p : Part) : p.freeSlots.Nodup := List.nodup_range.filter _

/-- The slots of a take of the free ones, zipped with as many positions. -/
theorem map_snd_zip_take {positions slots : List Nat} {k : Nat} (length : positions.length = k) (enough : k ≤ slots.length) :
    (positions.zip (slots.take k)).map Prod.snd = slots.take k :=
  List.map_snd_zip (by rw [List.length_take]; omega)

theorem Part.grantSlots?_free {p : Part} {n : Nat} (enough : n ≤ p.freeSlots.length)
    (budget : p.slotsOf .accumulator + n ≤ p.pool - p.serveReserve) : p.grantSlots? n = some (p, p.freeSlots.take n) := by
  have within : ¬ p.accumulatorBudget < p.slotsOf .accumulator + n := Nat.not_lt.2 budget
  simp only [Part.grantSlots?, if_neg within, if_pos enough]

/-! ## Admission (R87) -/

/-- What admission does with the part in RUNNING. -/
theorem admission_running {w : List Instr} {p : Part} (running : p.hlk.phase = .running) :
    ∃ f : Part → Part, exec .admission ⟨w, p⟩ = run ⟨w, p⟩ f ∧ f p = p.tryAdmit :=
  ⟨fun p => if p.hlk.phase = .running then p.tryAdmit else p, rfl, if_pos running⟩

section
variable {p : Part} {e : ClaimEntry} {r : HoldingRecord} {g : Geometry} {c : Nat} (calm : p.someContextWaits = false)
  (candidate : p.candidate? = some e) (record : p.firstRecord? e.stripe = some r)
  (geometry : p.geometryOf? e.stripe = some g) (free : p.ctx.contexts.lowestFree? 32 = some c)
include calm candidate record geometry free

theorem Part.tryAdmit_fewLanes (few : p.poolLanes.length < g.k) : p.tryAdmit = p := by
  simp only [Part.tryAdmit, calm, candidate, record, geometry, show p.ctx.contexts.lowestFree? contextCount = _ from free,
    Bool.false_eq_true, if_false, few, if_true]

theorem Part.tryAdmit_admits (lanes : g.k ≤ p.poolLanes.length) (slots : e.lost.length ≤ p.freeSlots.length)
    (budget : p.slotsOf .accumulator + e.lost.length ≤ p.pool - p.serveReserve) : p.tryAdmit =
      p.admitCandidate c e r (p.poolLanes.take g.k) (p.freeSlots.take e.lost.length) := by
  simp only [Part.tryAdmit, calm, candidate, record, geometry, show p.ctx.contexts.lowestFree? contextCount = _ from free,
    Bool.false_eq_true, if_false, Nat.not_lt.2 lanes, Part.grantSlots?_free slots budget]

end

/-- The new entries of a lost list, each with its slot (R87). -/
theorem map_given_fresh {positions slots : List Nat} (nodup : positions.Nodup) (length : positions.length = slots.length) :
    (positions.map LostEntry.fresh).map (LostEntry.given (positions.zip slots)) =
      (positions.zip slots).map fun ps =>
        { position := ps.1, enabled := true, slot := some ps.2, fill := .filling, digest := none, delivery := .none_,
          tag := none } := by
  have keys : (positions.zip slots).map Prod.fst = positions := List.map_fst_zip (Nat.le_of_eq length)
  have found : ∀ ps ∈ positions.zip slots, (positions.zip slots).lookup ps.1 = some ps.2 := by
    intro ps member
    rw [← keys] at nodup
    generalize positions.zip slots = pairs at nodup member
    induction pairs with
    | nil => cases member
    | cons first rest ih =>
      obtain ⟨fresh, nodup⟩ := List.nodup_cons.1 nodup
      rcases List.mem_cons.1 member with rfl | later
      · simp [List.lookup]
      · have other : (ps.1 == first.1) = false := by
          simpa using fun same : ps.1 = first.1 => fresh (same ▸ List.mem_map_of_mem later)
        simp [List.lookup, other, ih nodup later]
  have paired (f : Nat → LostEntry) : positions.map f = (positions.zip slots).map fun ps => f ps.1 := by
    conv => lhs; rw [← keys, List.map_map]
    rfl
  rw [List.map_map, paired]
  refine List.map_congr_left fun ps member => ?_
  simp [LostEntry.given, LostEntry.fresh, LostEntry.lacksSlot, found ps member]

end Sys2Proof.Machine

/-! Admission, waiting contexts and zero fills (R85 to R90, R149 to R152). -/

namespace Sys2Proof.Machine

/-- Settles O47. -/
theorem admissionMakesAContext : Obligations.AdmissionMakesAContext := by
  intro w p running
  obtain ⟨f, meaning, effect⟩ := admission_running (w := w) running
  refine ⟨fun nothing => answers_of_effect meaning (congrArg Part.unmarked (effect.trans ?_)),
    fun e r g c lanes slots calm candidate record geometry free nodup lanes_eq slots_eq =>
      ⟨fun few => answers_of_effect meaning (congrArg Part.unmarked
        (effect.trans (Part.tryAdmit_fewLanes calm candidate record geometry free few))), fun enough room budget => ?_⟩⟩
  · rcases nothing with waits | none_
    · simp [Part.tryAdmit, waits]
    · simp [Part.tryAdmit, none_]
  have admitted := Part.tryAdmit_admits calm candidate record geometry free enough room budget
  rw [← lanes_eq, ← slots_eq] at admitted
  have length : slots.length = e.lost.length := by rw [slots_eq, List.length_take]; omega
  have given : (e.lost.zip slots).map Prod.snd = slots := List.map_snd_zip (Nat.le_of_eq length)
  have distinct : ((e.lost.zip slots).map Prod.snd).Nodup := by
    rw [given, slots_eq]
    exact p.nodup_freeSlots.sublist (List.take_sublist _ _)
  obtain ⟨a, a_eq⟩ : ∃ a, a = ((p.bumpGeneration c).setContext c (Context.admitted e r lanes)).reserveLanes c lanes := ⟨_, rfl⟩
  have rest := a_eq.trans (Part.reserveLanes_eq _ c lanes)
  have row : a.context? c = some (Context.admitted e r lanes) := by
    rw [rest]
    exact Table.row?_setRow_self _ _ _
  have generation : a.generation c = p.generation c + 1 := by
    rw [rest]
    exact congrArg (fun g => Option.getD g 0) (Table.row?_setRow_self _ _ _)
  have whole := Part.giveSlots_eq (p := a) c distinct
  rw [a_eq] at whole
  rw [show p.admitCandidate c e r lanes slots = _ from whole, ← a_eq, given, generation] at admitted
  refine leads_of_effect meaning ?_ fun _ _ h => h
  dsimp only
  rw [effect, admitted]
  refine ⟨?_, fun d other => ?_, ?_, fun n => ?_, fun ps member => ?_, fun j other => ?_, ?_, ?_, ?_, ?_, ?_, ?_, ?_⟩
  · refine (Part.context?_editContext row (Context.givenSlots (e.lost.zip slots))).trans ?_
    simp only [Context.givenSlots, Context.admitted, map_given_fresh nodup length.symm]
  · refine (Part.context?_editContext_other a other (Context.givenSlots (e.lost.zip slots))).trans ?_
    rw [rest]
    exact Table.row?_setRow_ne _ _ other
  · exact generation
  · refine Part.lane_reserved (p := p) (congrArg Part.ftu rest :) (fun m member => ?_) n
    rw [lanes_eq] at member
    exact Part.poolLanes_row (mem_of_mem_take member)
  · exact slotsGiven_row?_self distinct member
  · refine (slotsGiven_row?_other (by rwa [given])).trans ?_
    rw [rest]
    rfl
  all_goals
    rw [rest]
    rfl

/-! ## The waiting contexts (R90) -/

theorem Part.serveContext_calm {p : Part} {c : Nat} {x : Context} (inUse : p.context? c = some x)
    (calm : x.waits = false) : p.serveContext c = p := by
  simp only [Part.serveContext, inUse, calm, Bool.false_and, Bool.false_eq_true, if_false]

theorem Part.serveContext_cannot {p : Part} {c : Nat} {x : Context} (inUse : p.context? c = some x)
    (cannot : p.cannotServe x) : p.serveContext c = p := by
  simp only [Part.serveContext, inUse]
  rcases cannot with fewLanes | ⟨lacks, budget⟩
  · exact if_neg (by simp [Nat.not_le.2 fewLanes])
  · split
    · rw [if_neg (by simp [lacks])]
      have none_ : p.grantSlots? x.lacking.length = none := by
        simp only [Part.grantSlots?, show p.accumulatorBudget < p.slotsOf .accumulator + x.lacking.length from budget, if_true]
      simp only [none_]
    · rfl

/-- A context that lacks lanes and slots is given both (R90). -/
theorem Part.serveContext_gives {p : Part} {c : Nat} {x : Context} (inUse : p.context? c = some x)
    (live : x.pendingOutcome = none) (lacks : x.lacking ≠ []) (lanes : x.lanesLacking ≤ p.poolLanes.length)
    (enough : x.lacking.length ≤ p.freeSlots.length)
    (budget : p.slotsOf .accumulator + x.lacking.length ≤ p.pool - p.serveReserve) :
    p.serveContext c = p.giveLacking c x (p.freeSlots.take x.lacking.length) := by
  have waits : (x.waits && decide (x.lanesLacking ≤ p.poolLanes.length)) = true := by
    simp [Context.waits, Context.live, live, lacks, lanes]
  have some_ : x.lacking.isEmpty = false := by simpa using lacks
  simp only [Part.serveContext, inUse, waits, some_, if_true, Bool.false_eq_true, if_false,
    Part.grantSlots?_free enough budget]

/-- A context with lanes of the free pool after those that it has (R90). -/
def Context.givenLanes (lanes : List Nat) (y : Context) : Context := { y with reservation := y.reservation ++ lanes }

/-- A context that lacks lanes alone is given them all (R90). -/
theorem Part.serveContext_lanes {p : Part} {c : Nat} {x : Context} (inUse : p.context? c = some x)
    (live : x.pendingOutcome = none) (full : x.lacking = []) (some_ : 0 < x.lanesLacking)
    (lanes : x.lanesLacking ≤ p.poolLanes.length) : p.serveContext c =
      Part.tryGather
        (Part.editContext { p with ftu := lanesHeld p.ftu c (p.poolLanes.take x.lanesLacking) } c
          (Context.givenLanes (p.poolLanes.take x.lanesLacking))) c := by
  have waits : (x.waits && decide (x.lanesLacking ≤ p.poolLanes.length)) = true := by
    simp [Context.waits, Context.live, live, full, some_, lanes]
  simp only [Part.serveContext, inUse, waits, full, List.isEmpty_nil, if_true, Part.giveLacking, Part.reserveLanes_eq,
    List.zip_nil_left, List.foldl_nil]
  rfl

theorem Part.tryGather_notReady {p : Part} {c : Nat} {x : Context} (inUse : p.context? c = some x)
    (unready : x.allReady = false) : p.tryGather c = p := by
  simp only [Part.tryGather, inUse]
  exact if_neg (by simp [Context.mayGather, unready])

theorem Context.allReady_false {x : Context} : x.allReady = false ↔ ∃ e ∈ x.lostList, e.enabled = true ∧ e.fill ≠ .ready := by
  rw [← Bool.not_eq_true, Context.allReady, List.all_eq_true]
  simp [Context.enabled]

/-- The row of a context after waiting contexts have been served with lanes (R90). -/
def servedContext (served : List (Nat × List Nat)) (r : Nat × Context) : Nat × Context :=
  match served.lookup r.1 with
  | some lanes => (r.1, { r.2 with reservation := r.2.reservation ++ lanes })
  | none => r

/-- The row of a lane after waiting contexts have been served with lanes (R90). -/
def servedLane (served : List (Nat × List Nat)) (r : Nat × Lane) : Nat × Lane :=
  match served.find? fun s => s.2.contains r.1 with
  | some s => (r.1, { r.2 with holder := some s.1 })
  | none => r

theorem lanesServed_mem {rest : Table Context} {pool : List Nat} {s : Nat × List Nat} (member : s ∈ lanesServed rest pool) :
    (∀ n ∈ s.2, n ∈ pool) ∧ s.1 ∈ rest.map Prod.fst := by
  induction rest generalizing pool with
  | nil => cases member
  | cons r rest ih =>
    obtain ⟨c, x⟩ := r
    rw [lanesServed] at member
    split at member
    · rcases List.mem_cons.1 member with rfl | later
      · exact ⟨fun n taken => mem_of_mem_take taken, List.mem_cons_self⟩
      · obtain ⟨lanes, number⟩ := ih later
        exact ⟨fun n taken => (List.drop_sublist _ _).subset (lanes n taken), List.mem_cons_of_mem _ number⟩
    · obtain ⟨lanes, number⟩ := ih member
      exact ⟨lanes, List.mem_cons_of_mem _ number⟩

theorem servedContext_cons_other {c : Nat} {lanes : List Nat} {served : List (Nat × List Nat)} {r : Nat × Context}
    (other : r.1 ≠ c) : servedContext ((c, lanes) :: served) r = servedContext served r := by
  have apart : (r.1 == c) = false := by simpa using other
  simp [servedContext, List.lookup, apart]

/-- A context that is not in the list of those served stays. -/
theorem servedContext_other {served : List (Nat × List Nat)} {r : Nat × Context} (other : ∀ s ∈ served, s.1 ≠ r.1) :
    servedContext served r = r := by
  induction served with
  | nil => rfl
  | cons s rest ih =>
    rw [servedContext_cons_other (other s List.mem_cons_self).symm]
    exact ih fun t member => other t (List.mem_cons_of_mem _ member)

theorem filter_not_take {l : List Nat} (nodup : l.Nodup) (k : Nat) :
    (l.filter fun n => !(l.take k).contains n) = l.drop k := by
  have apart := List.nodup_append.1 ((List.take_append_drop k l).symm ▸ nodup)
  have split : (l.filter fun n => !(l.take k).contains n) =
      ((l.take k ++ l.drop k).filter fun n => !(l.take k).contains n) := by rw [List.take_append_drop]
  have gone : ((l.take k).filter fun n => !(l.take k).contains n) = [] :=
    List.filter_eq_nil_iff.2 fun n member => by simp [member]
  have kept : ((l.drop k).filter fun n => !(l.take k).contains n) = l.drop k :=
    List.filter_eq_self.2 fun n member => by
      have other : n ∉ l.take k := fun there => apart.2.2 n there n member rfl
      simp [other]
  rw [split, List.filter_append, gone, kept, List.nil_append]

theorem Part.nodup_poolLanes {p : Part} (rising : p.ftu.rising = true) : p.poolLanes.Nodup :=
  (Table.nodup_numbers rising).sublist (List.filter_sublist.map Prod.fst)

/-- The lanes of the free pool after the first of them have been given (R90). -/
theorem poolLanes_lanesHeld {p q : Part} (rising : p.ftu.rising = true) (c k : Nat)
    (ftu : q.ftu = lanesHeld p.ftu c (p.poolLanes.take k)) : q.poolLanes = p.poolLanes.drop k := by
  rw [← filter_not_take (Part.nodup_poolLanes rising) k]
  obtain ⟨lanes, lanes_eq⟩ : ∃ lanes, lanes = p.poolLanes.take k := ⟨_, rfl⟩
  rw [← lanes_eq] at ftu ⊢
  have numbers : q.poolLanes =
      (p.ftu.filter fun r => r.2.holder.isNone && !lanes.contains r.1).map Prod.fst := by
    rw [Part.poolLanes, ftu, lanesHeld, List.filter_map, List.map_map]
    have test : ((fun r : Nat × Lane => r.2.holder.isNone) ∘
        fun r : Nat × Lane => if r.1 ∈ lanes then (r.1, { r.2 with holder := some c }) else r) =
        fun r => r.2.holder.isNone && !lanes.contains r.1 := by
      funext r
      by_cases here : r.1 ∈ lanes <;> simp [here]
    rw [test]
    refine List.map_congr_left fun r _ => ?_
    by_cases here : r.1 ∈ lanes <;> simp [here]
  rw [numbers, Part.poolLanes, List.filter_map, List.filter_filter]
  simp only [Function.comp_def, Bool.and_comm]

/-- What serving the first of some waiting contexts with lanes does to a row of the lanes (R90). -/
theorem servedLane_cons {c k : Nat} {pool : List Nat} (nodup : pool.Nodup) (rest : Table Context) (r : Nat × Lane) :
    servedLane (lanesServed rest (pool.drop k))
        (if r.1 ∈ pool.take k then (r.1, { r.2 with holder := some c }) else r) =
      servedLane ((c, pool.take k) :: lanesServed rest (pool.drop k)) r := by
  by_cases here : r.1 ∈ pool.take k
  · have none_ : (lanesServed rest (pool.drop k)).find? (fun s => decide (r.1 ∈ s.2)) = none := by
      refine List.find?_eq_none.2 fun s member there => ?_
      have late := (lanesServed_mem member).1 r.1 (by simpa using there)
      exact (List.nodup_append.1 ((List.take_append_drop k pool).symm ▸ nodup)).2.2 _ here _ late rfl
    simp [servedLane, here, none_]
  · simp [servedLane, here]

/-- The waiting contexts served in turn, where they lack lanes alone (R90). -/
theorem Part.foldl_serveContext {p : Part} {before rest : Table Context}
    (contexts : p.ctx.contexts = before ++ rest) (rising : p.ctx.contexts.rising = true) (ftu : p.ftu.rising = true)
    (lanesOnly : ∀ r ∈ rest, r.2.pendingOutcome = none →
      r.2.lacking = [] ∧ (0 < r.2.lanesLacking → r.2.allReady = false)) :
    (rest.map Prod.fst).foldl Part.serveContext p =
      { p with
        ctx := { p.ctx with contexts := before ++ rest.map (servedContext (lanesServed rest p.poolLanes)) }
        ftu := p.ftu.map (servedLane (lanesServed rest p.poolLanes)) } := by
  induction rest generalizing p before with
  | nil =>
    have lanes : p.ftu.map (servedLane []) = p.ftu := List.map_id p.ftu
    rw [List.map_nil, List.foldl_nil, lanesServed, lanes, List.map_nil, ← contexts]
  | cons r rest ih =>
    obtain ⟨c, x⟩ := r
    have inUse : p.context? c = some x :=
      Table.row?_of_mem (k := c) (a := x) rising (by rw [contexts]; exact List.mem_append_right _ List.mem_cons_self)
    have numbers := (Table.rising_iff _).1 rising
    rw [contexts, List.map_append, List.map_cons, List.pairwise_append, List.pairwise_cons] at numbers
    obtain ⟨-, ⟨above, -⟩, below⟩ := numbers
    have lanesOnly' : ∀ r ∈ rest, r.2.pendingOutcome = none →
        r.2.lacking = [] ∧ (0 < r.2.lanesLacking → r.2.allReady = false) :=
      fun r member => lanesOnly r (List.mem_cons_of_mem _ member)
    rw [List.map_cons, List.foldl_cons]
    by_cases given : x.pendingOutcome = none ∧ 0 < x.lanesLacking ∧ x.lanesLacking ≤ p.poolLanes.length
    · obtain ⟨live, some_, enough⟩ := given
      obtain ⟨full, unready⟩ := lanesOnly (c, x) List.mem_cons_self live
      have list : lanesServed ((c, x) :: rest) p.poolLanes =
          (c, p.poolLanes.take x.lanesLacking) :: lanesServed rest (p.poolLanes.drop x.lanesLacking) :=
        if_pos ⟨live, some_, enough⟩
      obtain ⟨q, q_eq⟩ : ∃ q, q = Part.editContext { p with ftu := lanesHeld p.ftu c (p.poolLanes.take x.lanesLacking) } c
          (Context.givenLanes (p.poolLanes.take x.lanesLacking)) := ⟨_, rfl⟩
      have served : p.serveContext c = q := by
        rw [Part.serveContext_lanes inUse live full some_ enough, ← q_eq]
        refine Part.tryGather_notReady (x := x.givenLanes (p.poolLanes.take x.lanesLacking)) ?_ (unready some_)
        rw [q_eq]
        exact Part.context?_editContext
          (p := { p with ftu := lanesHeld p.ftu c (p.poolLanes.take x.lanesLacking) }) inUse _
      have edited : q.ctx.contexts = p.ctx.contexts.editRow c (Context.givenLanes (p.poolLanes.take x.lanesLacking)) := by
        rw [q_eq]
        rfl
      have table : q.ctx.contexts =
          (before ++ [(c, x.givenLanes (p.poolLanes.take x.lanesLacking))]) ++ rest := by
        rw [edited, Table.editRow, contexts, List.map_append, List.map_cons, if_pos rfl, List.append_assoc]
        congr 1
        · refine (List.map_congr_left fun r member => if_neg ?_).trans (List.map_id _)
          exact Nat.ne_of_lt (below r.1 (List.mem_map_of_mem member) c List.mem_cons_self)
        · refine congrArg (List.cons _) ((List.map_congr_left fun r member => if_neg ?_).trans (List.map_id _))
          exact Nat.ne_of_gt (above r.1 (List.mem_map_of_mem member))
      have rising' : q.ctx.contexts.rising = true := by
        rw [edited]
        exact (Table.rising_editRow p.ctx.contexts c _).trans rising
      have ftu' : q.ftu.rising = true := by
        have rows := Table.rising_map (fun n (l : Lane) =>
          if n ∈ p.poolLanes.take x.lanesLacking then { l with holder := some c } else l) ftu
        rw [q_eq]
        refine Eq.trans (congrArg Table.rising (List.map_congr_left fun r _ => ?_)) rows
        split <;> rfl
      have pool : q.poolLanes = p.poolLanes.drop x.lanesLacking :=
        poolLanes_lanesHeld ftu c x.lanesLacking (by rw [q_eq]; rfl)
      rw [served, ih table rising' ftu' lanesOnly', pool, list]
      have lanes : q.ftu.map (servedLane (lanesServed rest (p.poolLanes.drop x.lanesLacking))) = p.ftu.map (servedLane
          ((c, p.poolLanes.take x.lanesLacking) :: lanesServed rest (p.poolLanes.drop x.lanesLacking))) := by
        rw [q_eq]
        change (lanesHeld p.ftu c _).map _ = _
        rw [lanesHeld, List.map_map]
        exact List.map_congr_left fun r _ => servedLane_cons (Part.nodup_poolLanes ftu) rest r
      have rows : (before ++ [(c, x.givenLanes (p.poolLanes.take x.lanesLacking))])
          ++ rest.map (servedContext (lanesServed rest (p.poolLanes.drop x.lanesLacking))) =
          before ++ ((c, x) :: rest).map (servedContext
            ((c, p.poolLanes.take x.lanesLacking) :: lanesServed rest (p.poolLanes.drop x.lanesLacking))) := by
        have first : servedContext ((c, p.poolLanes.take x.lanesLacking)
            :: lanesServed rest (p.poolLanes.drop x.lanesLacking)) (c, x) =
            (c, x.givenLanes (p.poolLanes.take x.lanesLacking)) := by
          simp [servedContext, List.lookup, Context.givenLanes]
        rw [List.map_cons, first, List.append_assoc]
        refine congrArg (fun t => before ++ _ :: t) (List.map_congr_left fun r member => ?_)
        exact (servedContext_cons_other (Nat.ne_of_gt (above r.1 (List.mem_map_of_mem member)))).symm
      rw [lanes, rows, q_eq]
      rfl
    · have list : lanesServed ((c, x) :: rest) p.poolLanes = lanesServed rest p.poolLanes := if_neg given
      have same : p.serveContext c = p := by
        by_cases live : x.pendingOutcome = none
        · by_cases some_ : 0 < x.lanesLacking
          · exact Part.serveContext_cannot inUse (.inl (Nat.lt_of_not_le fun enough => given ⟨live, some_, enough⟩))
          · obtain ⟨full, -⟩ := lanesOnly (c, x) List.mem_cons_self live
            exact Part.serveContext_calm inUse (by simp [Context.waits, full, Nat.eq_zero_of_not_pos some_])
        · exact Part.serveContext_calm inUse (by simp [Context.waits, Context.live, live])
      have alone : servedContext (lanesServed rest p.poolLanes) (c, x) = (c, x) :=
        servedContext_other fun s member => Nat.ne_of_gt (above s.1 (lanesServed_mem member).2)
      have whole := ih (p := p) (before := before ++ [(c, x)]) (by rw [contexts, List.append_assoc]; rfl) rising ftu
        lanesOnly'
      rw [same, whole, list, List.map_cons, alone, List.append_assoc]
      rfl

end Sys2Proof.Machine

/-! Waiting contexts that are given slots, and zero fills (R88, R90, R149, R151). -/

namespace Sys2Proof

variable {α : Type}

/-- A row of a number that the table lacks adds to what a test counts. -/
theorem Table.length_filter_setRow {t : Table α} {k : Nat} (free : t.row? k = none) (a : α) (f : Nat × α → Bool) :
    (t.filter f).length ≤ ((t.setRow k a).filter f).length := by
  induction t with
  | nil => exact Nat.zero_le _
  | cons r rest ih =>
    obtain ⟨i, b⟩ := r
    have apart : i ≠ k := fun same => by simp [Table.row?, same] at free
    have free' : Table.row? rest k = none := by simpa [Table.row?, apart] using free
    rw [Table.setRow]
    split
    · exact ((List.sublist_cons_self (k, a) ((i, b) :: rest)).filter f).length_le
    · rw [List.filter_cons, List.filter_cons]
      split
      · exact Nat.succ_le_succ (ih free')
      · exact ih free'

namespace Machine

/-! ## The service of the waiting contexts (R90) -/

theorem Part.foldl_serveContext_same {p : Part} {numbers : List Nat} (same : ∀ c ∈ numbers, p.serveContext c = p) :
    numbers.foldl Part.serveContext p = p := by
  induction numbers with
  | nil => rfl
  | cons c rest ih =>
    rw [List.foldl_cons, same c List.mem_cons_self]
    exact ih fun d member => same d (List.mem_cons_of_mem _ member)

theorem Part.serveContext_stays {p : Part} {c : Nat}
    (stays : ∀ x, p.context? c = some x → x.waits = false ∨ p.cannotServe x) : p.serveContext c = p := by
  cases inUse : p.context? c with
  | none => simp only [Part.serveContext, inUse]
  | some x =>
    rcases stays x inUse with calm | cannot
    · exact Part.serveContext_calm inUse calm
    · exact Part.serveContext_cannot inUse cannot

/-- Where one of the waiting contexts can be served and no other can before or after it, the service of all is that of the
one (R90). -/
theorem Part.foldl_serveContext_one {p q : Part} {c : Nat} (rising : p.ctx.contexts.rising = true)
    (member : c ∈ p.ctx.contexts.numbers) (served : p.serveContext c = q)
    (before : ∀ d, d ≠ c → p.serveContext d = p) (after : ∀ d, d ≠ c → q.serveContext d = q) :
    p.ctx.contexts.numbers.foldl Part.serveContext p = q := by
  have nodup := Table.nodup_numbers rising
  obtain ⟨pre, post, split⟩ := List.append_of_mem member
  rw [split] at nodup ⊢
  obtain ⟨-, tail, apart⟩ := List.nodup_append.1 nodup
  obtain ⟨fresh, -⟩ := List.nodup_cons.1 tail
  rw [List.foldl_append, List.foldl_cons,
    Part.foldl_serveContext_same fun d there => before d (apart d there c List.mem_cons_self), served]
  exact Part.foldl_serveContext_same fun d there => after d fun same => fresh (same ▸ there)

/-- A context that lacks slots and gets them does not gather yet (R88, R90). -/
theorem Context.allReady_givenSlots {x : Context} {pairs : List (Nat × Nat)} (lacks : x.lacking ≠ [])
    (all : ∀ i ∈ x.lacking, i ∈ pairs.map Prod.fst) : (x.givenSlots pairs).allReady = false := by
  obtain ⟨i, member⟩ := List.exists_mem_of_ne_nil _ lacks
  obtain ⟨e, held, rfl⟩ := List.mem_map.1 member
  obtain ⟨entry, lacking⟩ := List.mem_filter.1 held
  obtain ⟨ps, paired, number⟩ := List.mem_map.1 (all _ member)
  obtain ⟨j, found⟩ : ∃ j, pairs.lookup e.position = some j := by
    rw [← Option.isSome_iff_exists, List.lookup_isSome_iff]
    exact ⟨ps, paired, by simpa using number.symm⟩
  have given : e.given pairs = { e with slot := some j, fill := .filling } := by
    simp [LostEntry.given, found, lacking]
  have enabled : e.enabled = true := (Bool.and_eq_true_iff.1 lacking).1
  refine Context.allReady_false.2 ⟨e.given pairs, List.mem_map_of_mem entry, ?_, ?_⟩
  · rw [given]
    exact enabled
  · rw [given]
    exact fun same => nomatch same

theorem Part.mem_freeSlots {p : Part} {j : Nat} (member : j ∈ p.freeSlots) : p.slot? j = none := by
  simpa using (List.mem_filter.1 member).2

theorem slotsOf_slotsGiven {slots : Table Slot} {c : Nat} {pairs : List (Nat × Nat)}
    (nodup : (pairs.map Prod.snd).Nodup) (free : ∀ ps ∈ pairs, slots.row? ps.2 = none) (f : Nat × Slot → Bool) :
    (slots.filter f).length ≤ ((slotsGiven slots c pairs).filter f).length := by
  induction pairs generalizing slots with
  | nil => exact Nat.le_refl _
  | cons ps rest ih =>
    obtain ⟨fresh, nodup⟩ := List.nodup_cons.1 nodup
    refine Nat.le_trans (Table.length_filter_setRow (free ps List.mem_cons_self) _ f)
      (ih (slots := slots.setRow ps.2 _) nodup fun qs member => ?_)
    have other : qs.2 ≠ ps.2 := fun same => fresh (same ▸ List.mem_map_of_mem (f := Prod.snd) member)
    rw [Table.row?_setRow_ne _ _ other]
    exact free qs (List.mem_cons_of_mem _ member)

theorem poolLanes_lanesHeld_le {p q : Part} {c : Nat} {lanes : List Nat} (ftu : q.ftu = lanesHeld p.ftu c lanes) :
    q.poolLanes.length ≤ p.poolLanes.length := by
  rw [Part.poolLanes, Part.poolLanes, List.length_map, List.length_map, ftu, lanesHeld, List.filter_map, List.length_map]
  refine (List.monotone_filter_right p.ftu fun r free => ?_).length_le
  by_cases here : r.1 ∈ lanes <;> simp_all

/-- What a context given its lanes and slots leaves (R90, R149, R151). -/
def Part.lackingGiven (p : Part) (c : Nat) (lanes slots : List Nat) (pairs : List (Nat × Nat)) : Part :=
  { p with
    ctx := { p.ctx with
      contexts := p.ctx.contexts.editRow c fun y => (y.givenLanes lanes).givenSlots pairs }
    ftu := lanesHeld p.ftu c lanes
    smc := { p.smc with
      slots := slotsGiven p.smc.slots c pairs
      fillQueue := (p.smc.fillQueue.filter fun f => !slots.contains f.slot)
        ++ slots.map fun j => { context := c, generation := p.generation c, slot := j } } }

section
variable {p : Part} {c : Nat} {x : Context} {lanes slots : List Nat} (inUse : p.context? c = some x)
  (lacks : x.lacking ≠ []) (lanes_eq : lanes = p.poolLanes.take x.lanesLacking) (length : slots.length = x.lacking.length)
  (nodup : slots.Nodup)
include inUse lacks lanes_eq length nodup

theorem Part.giveLacking_eq : p.giveLacking c x slots = p.lackingGiven c lanes slots (x.lacking.zip slots) := by
  have given : (x.lacking.zip slots).map Prod.snd = slots := List.map_snd_zip (Nat.le_of_eq length)
  have keys : (x.lacking.zip slots).map Prod.fst = x.lacking := List.map_fst_zip (Nat.le_of_eq length.symm)
  have whole := Part.giveSlots_eq (pairs := x.lacking.zip slots) (c := c)
    (p := Part.editContext { p with ftu := lanesHeld p.ftu c lanes } c (Context.givenLanes lanes)) (given.symm ▸ nodup)
  have filled : (x.lacking.zip slots).foldl (fun q ps => q.giveSlot c ps)
      (Part.editContext { p with ftu := lanesHeld p.ftu c lanes } c (Context.givenLanes lanes)) =
      p.lackingGiven c lanes slots (x.lacking.zip slots) := by
    rw [whole, given]
    exact congrArg (fun t => { p.lackingGiven c lanes slots (x.lacking.zip slots) with
      ctx := { p.ctx with contexts := t } }) (Table.editRow_editRow _ _ _ _)
  have row : (p.lackingGiven c lanes slots (x.lacking.zip slots)).context? c =
      some ((x.givenLanes lanes).givenSlots (x.lacking.zip slots)) :=
    Part.context?_editContext inUse fun y => (y.givenLanes lanes).givenSlots (x.lacking.zip slots)
  have waits := Part.tryGather_notReady row
    (Context.allReady_givenSlots (x := x.givenLanes lanes) lacks fun i member => by rw [keys]; exact member)
  refine Eq.trans ?_ waits
  rw [← filled, Part.giveLacking, ← lanes_eq, Part.reserveLanes_eq]
  rfl

end

/-! ## Zero fills (R88, R151) -/

/-- The zero fill of a slot that its owner still has ends at a context that holds the slot under the fill's generation
(R88, R151). -/
theorem Part.endFill_ready {p : Part} {f : FillRequest} {r : Slot} {x : Context} (filling : p.smc.fill = some f)
    (slot : p.slot? f.slot = some r) (owner : r.owner ≠ none) (inUse : p.context? f.context = some x)
    (live : x.pendingOutcome = none) (current : p.generation f.context = f.generation)
    (entry : ∃ e ∈ x.lostList, e.enabled = true ∧ e.slot = some f.slot) : p.endFill =
      Part.advance (Part.editContext
        { p with smc := { p.smc with fill := none, dram := p.smc.dram.zeroBlock (32 + f.slot) } } f.context
        fun y => y.slotReady f.slot) f.context := by
  obtain ⟨q, q_eq⟩ : ∃ q : Part, q = { p with
      smc := { p.smc with fill := none, dram := p.smc.dram.zeroBlock (32 + f.slot) } } := ⟨_, rfl⟩
  have settled : q.settleSlot f.slot = q := Part.settleSlot_owned (r := r) (by rw [q_eq]; exact slot) owner
  have meaning : p.endFill = (q.settleSlot f.slot).takeFillDone f := by
    rw [q_eq]
    simp only [Part.endFill, filling]
    rfl
  have inUse' : q.context? f.context = some x := by rw [q_eq]; exact inUse
  have taken : (x.live && q.generation f.context == f.generation && x.enabled.any fun e => e.slot == some f.slot) = true := by
    have current' : q.generation f.context = f.generation := by rw [q_eq]; exact current
    obtain ⟨e, member, enabled, held⟩ := entry
    have any : (x.enabled.any fun e => e.slot == some f.slot) = true :=
      List.any_eq_true.2 ⟨e, List.mem_filter.2 ⟨member, enabled⟩, by simp [held]⟩
    simp [Context.live, live, current', any]
  have ready : (fun y : Context => y.slotReady f.slot) = fun y =>
      { y with lostList := y.lostList.map fun e =>
          if e.enabled && e.slot == some f.slot then { e with fill := .ready } else e } := by
    funext y
    simp [Context.slotReady]
  rw [meaning, settled, ← q_eq, ready]
  simp only [Part.takeFillDone, inUse', taken, if_true]

theorem Part.advance_notReady {p : Part} {c : Nat} {x : Context} (inUse : p.context? c = some x)
    (unready : x.allReady = false) : p.advance c = p := by
  simp only [Part.advance, inUse]
  split
  · split
    · exact if_neg (by simp [unready])
    · exact Part.tryGather_notReady inUse unready
    · rfl
  · rfl

theorem Part.advance_admitting {p : Part} {c : Nat} {x : Context} (inUse : p.context? c = some x)
    (live : x.pendingOutcome = none) (state : x.state = .admitting) (ready : x.allReady = true) :
    p.advance c = p.enterPlanning c := by
  simp [Part.advance, inUse, Context.live, live, state, ready]

theorem Dram.zeroBlock_wrote (d : Dram) (slot : Nat) :
    d.wrote (d.zeroBlock (32 + slot)) ((32 + slot) * 1048576) (List.replicate 1048576 0) := by
  intro a
  have block : a / Config.mebibyte = 32 + slot ↔ (32 + slot) * 1048576 ≤ a ∧ a < (32 + slot) * 1048576 + 1048576 := by
    rw [show Config.mebibyte = 1048576 from rfl]
    omega
  rw [Dram.byte_zeroBlock, List.length_replicate]
  by_cases within : a / Config.mebibyte = 32 + slot
  · have bounds := block.1 within
    rw [if_pos within, if_pos bounds, List.getElem?_replicate, if_pos (by omega)]
    rfl
  · rw [if_neg within, if_neg fun bounds => within (block.2 bounds)]

/-- A context with the fill of a slot done, every other fill being done too, has them all READY (R88). -/
theorem Context.allReady_slotReady {x : Context} {slot : Nat}
    (all : ∀ e ∈ x.lostList, e.enabled = true → e.slot = some slot ∨ e.fill = .ready) :
    (x.slotReady slot).allReady = true := by
  rw [← Bool.not_eq_false, Context.allReady_false]
  rintro ⟨e', member, enabled, unready⟩
  obtain ⟨e, entry, rfl⟩ := List.mem_map.1 member
  by_cases held : e.enabled = true ∧ e.slot = some slot
  · rw [if_pos held] at unready
    exact unready rfl
  · rw [if_neg held] at enabled unready
    rcases all e entry enabled with same | ready
    · exact held ⟨enabled, same⟩
    · exact unready ready

/-- Settles O48. -/
theorem waitingContextsAndFills : Obligations.WaitingContextsAndFills := by
  intro w p
  have meaning : exec .waitingContextServed ⟨w, p⟩ =
      run ⟨w, p⟩ fun p => p.ctx.contexts.numbers.foldl Part.serveContext p := rfl
  refine ⟨fun c x lanes only live state plan full some_ unready lanes_eq => ?_,
    fun served rising ftu lanesOnly served_eq => ?_, fun stays => ?_,
    fun c x lanes slots rising inUse live others lacks enough room budget lanes_eq slots_eq => ?_,
    fun f rest idle queue => ?_, fun f r x filling slot owner inUse live current entry => ?_⟩
  · have inUse : p.context? c = some x := by rw [Part.context?, only]; simp [Table.row?]
    have one : p.ctx.contexts.numbers.foldl Part.serveContext p = p.serveContext c := by rw [only]; rfl
    refine ⟨fun few => answers_of_effect meaning (congrArg Part.unmarked
      (one.trans (Part.serveContext_cannot inUse (.inl few)))), fun enough => answers_of_effect meaning
      (congrArg Part.unmarked (one.trans ?_))⟩
    rw [Part.serveContext_lanes inUse live full some_ enough, ← lanes_eq]
    have row : (Part.editContext { p with ftu := lanesHeld p.ftu c lanes } c (Context.givenLanes lanes)).context? c =
        some (x.givenLanes lanes) :=
      Part.context?_editContext (p := { p with ftu := lanesHeld p.ftu c lanes }) inUse _
    rw [Part.tryGather_notReady row unready]
    have table : p.ctx.contexts.editRow c (Context.givenLanes lanes) = [(c, x.givenLanes lanes)] := by
      rw [only]
      simp [Table.editRow]
    exact congrArg (fun t => { p with ctx := { p.ctx with contexts := t }, ftu := lanesHeld p.ftu c lanes }) table
  · refine answers_of_effect meaning (congrArg Part.unmarked ?_)
    rw [served_eq]
    exact Part.foldl_serveContext (before := []) rfl rising ftu lanesOnly
  · refine answers_of_effect meaning (congrArg Part.unmarked (Part.foldl_serveContext_same fun c _ =>
      Part.serveContext_stays fun x inUse => ?_))
    exact stays (c, x) (Table.row?_mem inUse)
  · have served := (Part.serveContext_gives inUse live lacks enough room budget).trans
      (Part.giveLacking_eq inUse lacks lanes_eq (by rw [List.length_take]; omega)
        (p.nodup_freeSlots.sublist (List.take_sublist _ _)))
    rw [← slots_eq] at served
    have length : slots.length = x.lacking.length := by rw [slots_eq, List.length_take]; omega
    have given : (x.lacking.zip slots).map Prod.snd = slots := List.map_snd_zip (Nat.le_of_eq length)
    have distinct : ((x.lacking.zip slots).map Prod.snd).Nodup := by
      rw [given, slots_eq]
      exact p.nodup_freeSlots.sublist (List.take_sublist _ _)
    obtain ⟨q, q_eq⟩ : ∃ q, q = p.lackingGiven c lanes slots (x.lacking.zip slots) := ⟨_, rfl⟩
    rw [← q_eq] at served
    have apart {d : Nat} (other : d ≠ c) : q.context? d = p.context? d := by
      rw [q_eq]
      exact Part.context?_editContext_other p other fun y => (y.givenLanes lanes).givenSlots (x.lacking.zip slots)
    have fewer : q.poolLanes.length ≤ p.poolLanes.length :=
      poolLanes_lanesHeld_le (p := p) (c := c) (lanes := lanes) (by rw [q_eq]; rfl)
    have more : p.slotsOf .accumulator ≤ q.slotsOf .accumulator := by
      rw [q_eq]
      refine slotsOf_slotsGiven distinct (fun ps member => ?_) _
      have taken : ps.2 ∈ slots := by rw [← given]; exact List.mem_map_of_mem member
      rw [slots_eq] at taken
      exact Part.mem_freeSlots (mem_of_mem_take taken)
    have same : q.pool = p.pool ∧ q.serveReserve = p.serveReserve := by rw [q_eq]; exact ⟨rfl, rfl⟩
    have all : p.ctx.contexts.numbers.foldl Part.serveContext p = q := by
      refine Part.foldl_serveContext_one rising
        ((Table.row?_isSome_iff _ _).1 (Option.isSome_iff_exists.2 ⟨x, inUse⟩)) served
        (fun d other => Part.serveContext_stays fun y held => others (d, y) (Table.row?_mem held) other)
        fun d other => Part.serveContext_stays fun y held => ?_
      rw [apart other] at held
      refine (others (d, y) (Table.row?_mem held) other).imp_right fun cannot => ?_
      rcases cannot with fewLanes | ⟨lacking, beyond⟩
      · exact .inl (Nat.lt_of_le_of_lt fewer fewLanes)
      · exact .inr ⟨lacking, by rw [same.1, same.2]; exact Nat.lt_of_lt_of_le beyond (Nat.add_le_add_right more _)⟩
    refine leads_of_effect meaning ?_ fun _ _ h => h
    dsimp only
    rw [all, q_eq]
    refine ⟨Part.context?_editContext inUse fun y => (y.givenLanes lanes).givenSlots (x.lacking.zip slots),
      fun d other => Part.context?_editContext_other p other fun y => (y.givenLanes lanes).givenSlots (x.lacking.zip slots),
      fun n => Part.lane_reserved (p := p) rfl (fun m member => ?_) n,
      fun ps member => slotsGiven_row?_self distinct member, fun j other => slotsGiven_row?_other (by rwa [given]),
      rfl, rfl, rfl, rfl, rfl, rfl, rfl, rfl, rfl, rfl⟩
    rw [lanes_eq] at member
    exact Part.poolLanes_row (mem_of_mem_take member)
  · refine ⟨fun clear => answers_of_effect (f := Part.startFill) rfl (congrArg Part.unmarked ?_),
      fun held => answers_of_effect (f := Part.startFill) rfl (congrArg Part.unmarked ?_)⟩
    · simp only [Part.startFill, idle, queue, clear, Bool.false_eq_true, if_false]
    · simp only [Part.startFill, idle, queue, held, if_true]
  · have done := Part.endFill_ready filling slot owner inUse live current entry
    obtain ⟨q, q_eq⟩ : ∃ q, q = Part.editContext
        { p with smc := { p.smc with fill := none, dram := p.smc.dram.zeroBlock (32 + f.slot) } } f.context
        fun y => y.slotReady f.slot := ⟨_, rfl⟩
    have row : q.context? f.context = some (x.slotReady f.slot) := by
      rw [q_eq]
      exact Part.context?_editContext
        (p := { p with smc := { p.smc with fill := none, dram := p.smc.dram.zeroBlock (32 + f.slot) } }) inUse _
    rw [← q_eq] at done
    refine ⟨fun waits => ?_, fun all state => ?_⟩
    · have same : q.advance f.context = q := by
        refine Part.advance_notReady row (Context.allReady_false.2 ?_)
        obtain ⟨e, member, enabled, other, unready⟩ := waits
        have kept : (if e.enabled = true ∧ e.slot = some f.slot then { e with fill := .ready } else e) = e :=
          if_neg fun h => other h.2
        exact ⟨_, List.mem_map_of_mem member, by rw [kept]; exact enabled, by rw [kept]; exact unready⟩
      refine leads_of_effect (f := Part.endFill) rfl ?_ fun _ _ h => h
      dsimp only
      rw [done, same, q_eq]
      exact ⟨Dram.zeroBlock_wrote _ _, rfl⟩
    · have planned := Part.advance_admitting row live state (Context.allReady_slotReady all)
      refine leads_of_effect (f := Part.endFill) rfl ?_ fun _ _ h => h
      dsimp only
      rw [done, planned, q_eq]
      refine ⟨Dram.zeroBlock_wrote _ _, ?_⟩
      have twice := Table.editRow_editRow p.ctx.contexts f.context (fun y => y.slotReady f.slot)
        fun y => { y with state := .planning }
      exact congrArg (fun t => Part.unmarked { p with
        smc := { p.smc with fill := none }
        plu := { p.plu with queue := p.plu.queue ++ [f.context] }
        ctx := { p.ctx with contexts := t } }) twice

end Machine

end Sys2Proof

/-! What every re-plan does, whatever the room, the slots and the openers (R94 to R96, R118). -/

namespace Sys2Proof.Machine

/-! ## The lost list of a context that asks for its slots (R88, R90, R95) -/

/-- An entry after fills and slots have been asked for: its position stays, and so does a slot that it has. -/
structure LostEntry.AskedFrom (e f : LostEntry) : Prop where
  position : f.position = e.position
  enabled : f.enabled = e.enabled
  slot : e.slot ≠ none → f.slot = e.slot

theorem LostEntry.AskedFrom.rfl {e : LostEntry} : e.AskedFrom e := ⟨Eq.refl _, Eq.refl _, fun _ => Eq.refl _⟩

theorem LostEntry.AskedFrom.trans {e f g : LostEntry} (one : e.AskedFrom f) (two : f.AskedFrom g) : e.AskedFrom g :=
  ⟨two.position.trans one.position, two.enabled.trans one.enabled,
    fun held => (two.slot (one.slot held ▸ held)).trans (one.slot held)⟩

/-- A context whose lost-list entries a change has been made of. -/
def Context.mapLost (h : LostEntry → LostEntry) (y : Context) : Context := { y with lostList := y.lostList.map h }

theorem Part.editContext_editContext (p : Part) (c : Nat) (f g : Context → Context) :
    (p.editContext c f).editContext c g = p.editContext c fun y => g (f y) :=
  congrArg (fun t => { p with ctx := { p.ctx with contexts := t } }) (Table.editRow_editRow p.ctx.contexts c f g)

/-- A part in which a context's lost list has been given fills and slots: nothing but the list, the serve entries, the slots
and the tags differs. -/
def Part.Asks (p q : Part) (c : Nat) : Prop :=
  ∃ h : LostEntry → LostEntry, (∀ e : LostEntry, e.AskedFrom (h e))
    ∧ (p.editContext c (Context.mapLost h)).Unbinds q

theorem Part.Asks.of_unbinds {p q : Part} (c : Nat) (h : p.Unbinds q) : p.Asks q c := by
  have same : p.editContext c (Context.mapLost id) = p := by
    have kept : Context.mapLost id = fun y => y := by funext y; simp [Context.mapLost]
    rw [kept, Part.editContext, Table.editRow_self]
  exact ⟨id, fun _ => .rfl, by rw [same]; exact h⟩

theorem Part.Unbinds.editContext {p q : Part} (h : p.Unbinds q) (c : Nat) (f : Context → Context) :
    (p.editContext c f).Unbinds (q.editContext c f) := by
  have ctx : q.ctx = p.ctx := (congrArg Part.ctx h.rest :)
  refine ⟨?_, h.dram, h.tags⟩
  rw [Part.editContext, ctx]
  exact congrArg (fun q : Part => { q with ctx := { p.ctx with contexts := p.ctx.contexts.editRow c f } }) h.rest

theorem Part.Asks.trans {p q r : Part} {c : Nat} (one : p.Asks q c) (two : q.Asks r c) : p.Asks r c := by
  obtain ⟨h, kept, first⟩ := one
  obtain ⟨k, kept', second⟩ := two
  refine ⟨fun e => k (h e), fun e => (kept e).trans (kept' _), ?_⟩
  have composed : (fun y => Context.mapLost k (Context.mapLost h y)) = Context.mapLost fun e => k (h e) := by
    funext y
    simp [Context.mapLost]
  have twice := p.editContext_editContext c (Context.mapLost h) (Context.mapLost k)
  rw [composed] at twice
  rw [← twice]
  exact (first.editContext c (Context.mapLost k)).trans second

theorem Part.Asks.foldl {α : Type} {c : Nat} {f : Part → α → Part} (step : ∀ (q : Part) a, q.Asks (f q a) c) (p : Part)
    (as : List α) : p.Asks (as.foldl f p) c := by
  induction as generalizing p with
  | nil => exact .of_unbinds c .rfl
  | cons a rest ih => exact (step p a).trans (ih (f p a))

theorem Part.asks_requestFill (p : Part) (c d j : Nat) : p.Asks (p.requestFill d j) c :=
  .of_unbinds c ⟨Eq.refl _, Eq.refl _, .rfl⟩

theorem Part.asks_refill (p : Part) (c : Nat) : p.Asks (p.refill c) c := by
  unfold Part.refill
  split
  · exact .of_unbinds c .rfl
  · refine Part.Asks.trans (q := p.editContext c (Context.mapLost fun e =>
        if e.enabled && e.slot.isSome then { e with fill := .filling } else e))
      ⟨_, fun e => ?_, .rfl⟩ (.foldl (fun q j => q.asks_requestFill c c j) _ _)
    split
    · exact ⟨rfl, rfl, fun _ => rfl⟩
    · exact .rfl

theorem Part.asks_giveSlot (p : Part) (c : Nat) (ps : Nat × Nat) : p.Asks (p.giveSlot c ps) c := by
  refine ⟨fun e => if e.position = ps.1 ∧ e.lacksSlot then { e with slot := some ps.2, fill := .filling } else e,
    fun e => ?_, Eq.refl _, Eq.refl _, .rfl⟩
  dsimp only
  split
  · next lacks =>
    refine ⟨rfl, rfl, fun held => absurd ?_ held⟩
    simpa [LostEntry.lacksSlot] using (Bool.and_eq_true_iff.1 lacks.2).2
  · exact .rfl

theorem Part.unbinds_evictMany (p : Part) (n : Nat) : p.Unbinds (p.evictMany n).1 := by
  induction n generalizing p with
  | zero => exact .rfl
  | succ n ih =>
    rw [Part.evictMany]
    split
    · exact .rfl
    · next q slot evicted =>
      obtain ⟨r, -, made⟩ := Option.map_eq_some_iff.1 evicted
      have dropped : p.Unbinds q := by
        rw [← (Prod.mk.inj made).1]
        exact ⟨Eq.refl _, Eq.refl _, .rfl⟩
      exact dropped.trans (ih q)

theorem Part.unbinds_grantSlots? {p q : Part} {n : Nat} {slots : List Nat} (granted : p.grantSlots? n = some (q, slots)) :
    p.Unbinds q := by
  simp only [Part.grantSlots?] at granted
  split at granted
  · cases granted
  · split at granted
    · cases granted
      exact .rfl
    · split at granted
      · cases granted
        exact p.unbinds_evictMany _
      · cases granted

theorem Part.asks_askSlots (p : Part) (c : Nat) : p.Asks (p.askSlots c) c := by
  unfold Part.askSlots
  split
  · exact .of_unbinds c .rfl
  · split
    · exact .of_unbinds c .rfl
    · split
      · exact .of_unbinds c .rfl
      · next q slots granted =>
        exact (Part.Asks.of_unbinds c (Part.unbinds_grantSlots? granted)).trans
          (.foldl (fun r ps => r.asks_giveSlot c ps) q _)

/-! ## The re-plan (R95, R96) -/

/-- The lost list of a context rebuilt from a new lost set, where one is given (R96). -/
def Context.relisted (x : Context) : Option Positions → List LostEntry
  | none => x.lostList
  | some new => new.map fun position =>
      (x.lostList.find? fun e => e.enabled && e.position == position).getD (LostEntry.fresh position)

/-- A context as a re-plan clears it, with its lost list rebuilt where a new lost set is given (R95, R96). -/
def Context.replanned (new : Option Positions) (y : Context) : Context :=
  { y.replanCleared with lostList := y.relisted new }

/-- What a re-plan leaves, where it is not the ninth (R95, R96). -/
structure Part.Replans (p q : Part) (c : Nat) (x : Context) (new : Option Positions) : Prop where
  context : ∃ h : LostEntry → LostEntry, (∀ e : LostEntry, e.AskedFrom (h e))
    ∧ q.context? c = some { x.replanCleared with state := .planning, lostList := (x.relisted new).map h }
  others : ∀ d, d ≠ c → q.context? d = p.context? d
  generation : q.generation c = p.generation c + 1
  plu : q.plu = {
    queue := p.plu.queue.filter (· != c) ++ [c]
    job := p.plu.job.map fun j => if j.context = c then { j with void := true } else j }
  uses : ∀ lane, q.laneUse? lane = if lane ∈ x.reservation then none else p.laneUse? lane
  rest : q = { p with ctx := q.ctx, plu := q.plu, ftu := q.ftu, sgp := q.sgp, svu := q.svu, smc := q.smc, hlk := q.hlk }
  dram : q.smc.dram = p.smc.dram
  tags : p.hlk.sameButTags q.hlk

theorem Part.Replans.idle {p q : Part} {c : Nat} {x : Context} {new : Option Positions} (h : p.Replans q c x new) (lane : Nat)
    (member : lane ∈ x.reservation) : q.laneUse? lane = none := (h.uses lane).trans (if_pos member)

/-- The part in which a context has released its lanes and its opener for a re-plan (R95, steps 2 to 4). -/
def Part.replanFreed (p : Part) (c : Nat) (x : Context) : Part :=
  (((p.bumpGeneration c).tellPlanUnit c).releaseLanes x.reservation).detachOpener c

section
variable {p : Part} {c : Nat} {x : Context} (inUse : p.context? c = some x)
include inUse

theorem Part.rePlan_limit (many : 8 ≤ x.rePlans) (new : Option Positions) :
    p.rePlan c new = p.abandon c .rePlanLimit := by
  simp only [Part.rePlan, inUse, many, if_true]

/-- A re-plan after its lost list has been rebuilt, where that is to be (R95). -/
theorem Part.rePlan_steps (few : x.rePlans < 8) (new : Option Positions) : ∃ b,
    ((p.replanFreed c x).editContext c (Context.replanned new)).Unbinds b
      ∧ p.rePlan c new = ((b.refill c).askSlots c).enterPlanning c := by
  obtain ⟨a, a_eq⟩ : ∃ a, a = p.replanFreed c x := ⟨_, rfl⟩
  have freed := (Part.unbinds_detachOpener (((p.bumpGeneration c).tellPlanUnit c).releaseLanes x.reservation) c).rest
  have row : a.context? c = some x := by
    rw [a_eq]
    have kept := Part.releaseLanes_rest ((p.bumpGeneration c).tellPlanUnit c) x.reservation
    refine (congrArg (fun q : Part => q.context? c) freed :).trans ?_
    exact (congrArg (fun q : Part => q.context? c) kept :).trans inUse
  have steps : p.rePlan c new = (((match new with
      | some set => (a.editContext c Context.replanCleared).rebuildLostList c set
      | none => a.editContext c Context.replanCleared).refill c).askSlots c).enterPlanning c := by
    rw [a_eq]
    simp only [Part.rePlan, inUse, Nat.not_le.2 few, if_false]
    cases new <;> rfl
  rw [← a_eq]
  cases new with
  | none => exact ⟨_, .rfl, steps⟩
  | some set =>
    refine ⟨_, ?_, steps⟩
    have cleared : (a.editContext c Context.replanCleared).context? c = some x.replanCleared :=
      Part.context?_editContext row _
    have fused := a.editContext_editContext c Context.replanCleared fun y =>
      { y with lostList := set.map fun position =>
          (y.lostList.find? fun e => e.enabled && e.position == position).getD (LostEntry.fresh position) }
    rw [show a.editContext c (Context.replanned (some set)) = _ from fused.symm]
    simp only [Part.rebuildLostList, cleared]
    exact Part.unbinds_giveUpSlots _ _

theorem Part.rePlan_replans (few : x.rePlans < 8) (new : Option Positions) : p.Replans (p.rePlan c new) c x new := by
  obtain ⟨b, relisted, steps⟩ := Part.rePlan_steps inUse few new
  obtain ⟨h, kept, asked⟩ := (b.asks_refill c).trans ((b.refill c).asks_askSlots c)
  obtain ⟨q, q_eq⟩ : ∃ q, q = (b.refill c).askSlots c := ⟨_, rfl⟩
  rw [← q_eq] at steps asked
  obtain ⟨a, a_eq⟩ : ∃ a, a = ((p.bumpGeneration c).tellPlanUnit c).releaseLanes x.reservation := ⟨_, rfl⟩
  have released : a = { (p.bumpGeneration c).tellPlanUnit c with sgp := a.sgp, ftu := a.ftu } := by
    rw [a_eq]
    exact Part.releaseLanes_rest _ _
  have freed : a.Unbinds (p.replanFreed c x) := by
    rw [a_eq]
    exact Part.unbinds_detachOpener _ c
  have whole := (((freed.editContext c _).trans relisted).editContext c (Context.mapLost h)).trans asked
  rw [a.editContext_editContext] at whole
  have row : a.context? c = some x := (congrArg (fun q : Part => q.context? c) released :).trans inUse
  have edited (d : Nat) : q.context? d = (a.editContext c fun y => (y.replanned new).mapLost h).context? d :=
    (congrArg (fun q : Part => q.context? d) whole.rest :)
  have plu : q.plu = ((p.bumpGeneration c).tellPlanUnit c).plu :=
    (congrArg Part.plu whole.rest :).trans (congrArg Part.plu released :)
  have rest : q = { p with ctx := q.ctx, plu := q.plu, ftu := q.ftu, sgp := q.sgp, svu := q.svu, smc := q.smc, hlk := q.hlk } :=
    (congrArg (fun r : Part =>
      { r with ctx := q.ctx, plu := q.plu, ftu := q.ftu, sgp := q.sgp, svu := q.svu, smc := q.smc, hlk := q.hlk })
      whole.rest).trans (congrArg (fun r : Part =>
      { r with ctx := q.ctx, plu := q.plu, ftu := q.ftu, sgp := q.sgp, svu := q.svu, smc := q.smc, hlk := q.hlk }) released)
  rw [steps]
  refine ⟨⟨h, kept, ?_⟩, fun d other => ?_, ?_, ?_, fun lane => ?_, ?_, ?_, ?_⟩
  · have cleared := (edited c).trans (Part.context?_editContext row _)
    exact Part.context?_editContext cleared fun y => { y with state := .planning }
  · refine (Part.context?_editContext_other q other _).trans ((edited d).trans ?_)
    refine (Part.context?_editContext_other a other _).trans ?_
    exact (congrArg (fun q : Part => q.context? d) released :)
  · refine (congrArg (fun q : Part => q.generation c) whole.rest :).trans ?_
    refine (congrArg (fun q : Part => q.generation c) released :).trans ?_
    exact congrArg (fun g => Option.getD g 0) (Table.row?_setRow_self _ _ _)
  · exact congrArg (fun u : PlanUnit => { u with queue := u.queue ++ [c] }) plu
  · refine (congrArg (fun q : Part => q.laneUse? lane) whole.rest :).trans ?_
    change a.laneUse? lane = _
    rw [a_eq, Part.laneUse?_releaseLanes]
    rfl
  · exact congrArg (fun r : Part => r.enterPlanning c) rest
  · exact whole.dram.trans (congrArg (fun q : Part => q.smc.dram) released :)
  · have hlk : a.hlk = p.hlk := (congrArg Part.hlk released :)
    have tags := whole.tags
    change a.hlk.sameButTags q.hlk at tags
    rwa [hlk] at tags

end

end Sys2Proof.Machine

/-! A lane that fails re-plans its context, by every command that can fail it (R94, R95, R118). -/

namespace Sys2Proof.Machine

theorem mem_insertPosition {i j : Nat} {ps : List Nat} : i ∈ insertPosition j ps ↔ i = j ∨ i ∈ ps := by
  induction ps with
  | nil => simp [insertPosition]
  | cons k rest ih =>
    rw [insertPosition]
    split
    · exact List.mem_cons
    · split
      · next same =>
        subst same
        simp
      · rw [List.mem_cons, ih, List.mem_cons]
        exact or_left_comm

/-! ## A lane enters FAILED (R118) -/

section
variable {p : Part} {n : Nat} {u : LaneUse} (use : p.laneUse? n = some u) (cause : LaneFailure)
include use

/-- What entry to FAILED leaves, whatever room the RELEASE finds (R118). -/
theorem Part.enterFailed_rest : p.enterFailed n cause =
    { p with
      sgp := (p.enterFailed n cause).sgp
      ftu := p.ftu.editRow n fun l => { l with use := some (u.failedWith cause) } } := by
  have quiet : (p.withdrawRequests n).setUse n (u.failedWith cause) =
      { p with
        sgp := ((p.withdrawRequests n).setUse n (u.failedWith cause)).sgp
        ftu := p.ftu.editRow n fun l => { l with use := some (u.failedWith cause) } } := rfl
  have told : ((p.withdrawRequests n).setUse n (u.failedWith cause)).postRelease n u.server =
      { p with
        sgp := (((p.withdrawRequests n).setUse n (u.failedWith cause)).postRelease n u.server).sgp
        ftu := p.ftu.editRow n fun l => { l with use := some (u.failedWith cause) } } := by
    conv => lhs; rw [Part.postRelease, Part.post_eq]
    rfl
  have meaning : p.enterFailed n cause = (p.withdrawRequests n).setUse n (u.failedWith cause) ∨
      p.enterFailed n cause = ((p.withdrawRequests n).setUse n (u.failedWith cause)).postRelease n u.server := by
    simp only [Part.enterFailed, use]
    cases cause with
    | refused | serverLost => exact .inl rfl
    | noReply | length | damaged | reOpenLimit => exact .inr rfl
    | waitLimit =>
      dsimp only
      split
      · exact .inl rfl
      · exact .inr rfl
  rcases meaning with same | same <;> rw [same]
  · exact quiet
  · exact told

theorem Part.laneUse?_enterFailed : (p.enterFailed n cause).laneUse? n = some (u.failedWith cause) := by
  rw [Part.enterFailed_rest use]
  exact Part.laneUse?_setUse p n (u.failedWith cause) u use

theorem Part.roomFor_enterFailed {k : Nat} (room : p.roomFor (k + 1)) : (p.enterFailed n cause).roomFor k := by
  rw [Part.enterFailed_eq use fun _ => Part.queueOpen_of_roomFor _ (Nat.le_add_left 1 k) room]
  exact Part.roomFor_laneFailed room cause

/-- A lane fails whose context gathers under its generation: the context plans again (R94, R118). -/
theorem Part.failLane_rePlan (gathers : p.gatheringAt u.context u.generation = true) (kept : cause ≠ .serverLost) :
    p.failLane n cause = ((p.enterFailed n cause).markUnusable u.context u.position).rePlan u.context none := by
  have gathers' : (p.enterFailed n cause).gatheringAt u.context u.generation = true := by
    rw [Part.enterFailed_rest use]
    exact gathers
  simp only [Part.failLane, Part.reportFailedLane, Part.laneUse?_enterFailed use, LaneUse.failedWith, gathers', if_true, kept,
    if_false]

end

/-! ## What the failure shows (R94, R95, R101 to R103) -/

/-- A part in which a context of another stands as it did, but for its contributions; and all else that its re-plan or its
outcome shows. -/
structure Part.FailsIn (p base : Part) (c : Nat) (x : Context) : Prop where
  inUse : ∃ sets complete, base.context? c = some { x with contributions := sets, chunksComplete := complete }
  others : ∀ d, d ≠ c → base.context? d = p.context? d
  generation : base.generation c = p.generation c
  hdt : base.hdt = p.hdt
  clt : base.clt = p.clt
  prs : base.prs = p.prs
  sgp : base.sgp = p.sgp
  tags : p.hlk.sameButTags base.hlk

/-- What a re-plan of a context shows, with a position that is unusable from then on (R94, R95). -/
def Part.replanShown (p q : Part) (c position : Nat) (x : Context) : Prop :=
  (∃ y, q.context? c = some y ∧ y.state = .planning ∧ position ∈ y.unusable ∧ y.rePlans = x.rePlans + 1
      ∧ y.survivors = none ∧ y.plan = none ∧ y.contributions = List.replicate x.chunkCount []
      ∧ y.chunksComplete = 0 ∧ y.reservation = x.reservation ∧ y.deadline = .absent)
    ∧ q.generation c = p.generation c + 1 ∧ c ∈ q.plu.queue
    ∧ (∀ lane ∈ x.reservation, q.laneUse? lane = none) ∧ q.clt = p.clt ∧ q.hdt = p.hdt ∧ q.prs = p.prs

section
variable {p base : Part} {n : Nat} {v : LaneUse} {x : Context} (fails : p.FailsIn base v.context x)
  (use : base.laneUse? n = some v) (live : x.pendingOutcome = none) (state : x.state = .gathering)
  (current : p.generation v.context = v.generation) {cause : LaneFailure} (kept : cause ≠ .serverLost)
include fails use live state current kept

/-- A lane's failure as a re-plan of its context, from the part with the lane FAILED and its position unusable. -/
theorem Part.FailsIn.failLane : ∃ a, base.failLane n cause = a.rePlan v.context none
    ∧ a = (base.enterFailed n cause).markUnusable v.context v.position
    ∧ ∃ sets complete, a.context? v.context = some { x with
        contributions := sets
        chunksComplete := complete
        unusable := insertPosition v.position x.unusable } := by
  obtain ⟨sets, complete, inUse⟩ := fails.inUse
  have gathers : base.gatheringAt v.context v.generation = true :=
    Part.gatheringAt_of inUse live state (fails.generation.trans current)
  refine ⟨_, Part.failLane_rePlan use cause gathers kept, rfl, sets, complete, ?_⟩
  have failed := Part.enterFailed_rest use cause
  have row : (base.enterFailed n cause).context? v.context =
      some { x with contributions := sets, chunksComplete := complete } :=
    (congrArg (fun q : Part => q.context? v.context) failed :).trans inUse
  exact Part.context?_editContext row _

theorem Part.FailsIn.rePlans (few : x.rePlans < 8) : p.replanShown (base.failLane n cause) v.context v.position x := by
  obtain ⟨a, effect, a_eq, sets, complete, row⟩ := fails.failLane use live state current kept
  have failed := Part.enterFailed_rest use cause
  have plans := Part.rePlan_replans row few none
  have idle := plans.idle
  obtain ⟨⟨h, -, context⟩, -, generation, plu, -, rest, -, -⟩ := plans
  rw [← effect] at context generation plu idle rest
  have same {α : Type} (g : Part → α) (beside : ∀ (a : Part) f sgp ftu, g { a.editContext v.context f with
      sgp := sgp, ftu := ftu } = g a) : g a = g base := by
    rw [a_eq]
    refine (congrArg (fun q : Part => g (q.markUnusable v.context v.position)) failed).trans ?_
    exact beside base _ _ _
  refine ⟨⟨_, context, rfl, mem_insertPosition.2 (.inl rfl), rfl, rfl, rfl, rfl, rfl, rfl, rfl⟩, ?_, ?_, idle, ?_, ?_, ?_⟩
  · rw [generation, ← fails.generation]
    exact congrArg (· + 1) (same (fun q => q.generation v.context) fun _ _ _ _ => rfl)
  · rw [plu]
    exact List.mem_append_right _ List.mem_cons_self
  · exact (congrArg Part.clt rest :).trans ((same Part.clt fun _ _ _ _ => rfl).trans fails.clt)
  · exact (congrArg Part.hdt rest :).trans ((same Part.hdt fun _ _ _ _ => rfl).trans fails.hdt)
  · exact (congrArg Part.prs rest :).trans ((same Part.prs fun _ _ _ _ => rfl).trans fails.prs)

theorem Part.FailsIn.abandons (many : 8 ≤ x.rePlans) (rising : p.hdt.rising = true) :
    p.abandoned (base.failLane n cause) v.context x .rePlanLimit := by
  obtain ⟨a, effect, a_eq, sets, complete, row⟩ := fails.failLane use live state current kept
  have failed := Part.enterFailed_rest use cause
  have same {α : Type} (g : Part → α) (beside : ∀ (a : Part) f sgp ftu, g { a.editContext v.context f with
      sgp := sgp, ftu := ftu } = g a) : g a = g base := by
    rw [a_eq]
    refine (congrArg (fun q : Part => g (q.markUnusable v.context v.position)) failed).trans ?_
    exact beside base _ _ _
  rw [effect, Part.rePlan_limit row many]
  refine Part.abandon_abandoned row rfl rfl (fun d other => ?_)
    ((same (fun q => q.generation v.context) fun _ _ _ _ => rfl).trans fails.generation)
    ((same Part.hdt fun _ _ _ _ => rfl).trans fails.hdt) ((same Part.clt fun _ _ _ _ => rfl).trans fails.clt) ?_
    (fun room => ?_) rising _
  · rw [a_eq]
    refine (Part.context?_editContext_other _ other _).trans ?_
    exact (congrArg (fun q : Part => q.context? d) failed :).trans (fails.others d other)
  · rw [show a.hlk = base.hlk from same Part.hlk fun _ _ _ _ => rfl]
    exact fails.tags
  · rw [a_eq]
    refine Part.roomFor_enterFailed (k := x.reservation.length + 1) use cause ?_
    rw [Part.roomFor, fails.sgp]
    exact room

end

end Sys2Proof.Machine

/-! A combine completion at a lane, and the commands that fail a lane (R94, R108 to R119, R139). -/

namespace Sys2Proof.Machine

/-! ## The end of an operation whose source is a lane (R115, R116, R139) -/

/-- The part in which the slots of an operation are held no more, the accumulators being written (R138, R152). -/
def Part.operationSettled (p : Part) (o : CombineOperation) : Part :=
  (o.targets.map Prod.fst).foldl Part.settleSlot
    { p.setDram (p.smc.dram.combineAll o) with cbe := { p.cbe with operation := none } }

theorem Part.endCombine_eq {p : Part} {o : CombineOperation} (operation : p.cbe.operation = some o) :
    p.endCombine = ((p.operationSettled o).recordContribution o).completeCombine o.request := by
  simp only [Part.endCombine, operation]
  rfl

theorem Part.unbinds_operationSettled (p : Part) (o : CombineOperation) :
    Part.Unbinds { p.setDram (p.smc.dram.combineAll o) with cbe := { p.cbe with operation := none } }
      (p.operationSettled o) :=
  .foldl Part.unbinds_settleSlot _ _

/-- The k of a context's geometry, as a contribution counts it (R139). -/
def Part.contributionK (p : Part) (x : Context) : Nat := ((p.geometry? x.geometry).map Geometry.k).getD 0

section
variable {p : Part} {o : CombineOperation} {n : Nat} {tag : Tag} {u : LaneUse}
  (source : o.request.source = .lane n tag) (use : p.laneUse? n = some u)
  (tagged : fetchTag n (p.lane n).useCount = tag)
include source use tagged

theorem Part.recordContribution_lane {x : Context} (inUse : p.context? o.request.context = some x)
    (current : p.gatheringAt o.request.context o.request.generation = true) : p.recordContribution o =
      (p.editContext o.request.context fun y =>
        y.contributed (p.contributionK x) o.request.chunk o.request.survivor).setUse n
          { u with runningDigest := digestAdvance u.runningDigest o.operand } := by
  obtain ⟨a, a_eq⟩ : ∃ a, a = p.editContext o.request.context fun y =>
      y.contributed (p.contributionK x) o.request.chunk o.request.survivor := ⟨_, rfl⟩
  have use' : a.laneUse? n = some u := by rw [a_eq]; exact use
  have tagged' : a.laneTag n = tag := by rw [a_eq]; exact tagged
  have recorded : p.recordContribution o = a.advanceDigest o.request o.operand := by
    rw [a_eq]
    simp only [Part.recordContribution, Part.combineContext?_current inUse current]
    rfl
  rw [recorded, ← a_eq]
  simp only [Part.advanceDigest, source, use', tagged', if_true]

end

section
variable {p : Part} {n : Nat} {tag : Tag} {u : LaneUse} (use : p.laneUse? n = some u)
include use

theorem Part.completeAtLane_active (tagged : fetchTag n (p.lane n).useCount = tag) (active : u.active = true) (chunk : Nat) :
    p.completeAtLane n tag chunk = (p.editLane n fun l => { l with outstanding := false }).consumeChunk n u chunk := by
  have use' : (p.editLane n fun l => { l with outstanding := false }).laneUse? n = some u :=
    (Part.laneUse?_editLane_same p n n (f := fun l => { l with outstanding := false }) fun _ => rfl).trans use
  have tagged' : (p.editLane n fun l => { l with outstanding := false }).laneTag n = tag := by
    refine Eq.trans ?_ tagged
    rw [Part.laneTag, Part.lane_editRow p _ n n (fun l => { l with outstanding := false }) rfl rfl, if_pos rfl]
  have same : ¬ tag ≠ (p.editLane n fun l => { l with outstanding := false }).laneTag n := fun other => other tagged'.symm
  simp only [Part.completeAtLane, use', same, if_false, active, if_true]

theorem Part.endFragment_damaged {d : Digest} (known : u.digest = some d) (differs : d ≠ digestFinish u.runningDigest) :
    p.endFragment n = p.failLane n .damaged := by
  simp only [Part.endFragment, use, known]
  exact if_pos (by simp [differs])

end

/-- A lane's use after its chunk is consumed (R115). -/
theorem Part.consumeChunk_last {p : Part} {u : LaneUse} {chunk : Nat} (last : chunkCountOf u.length ≤ u.nextConsume + 1)
    (n : Nat) : p.consumeChunk n u chunk =
      (p.setUse n { u.setBank chunk .empty with nextConsume := u.nextConsume + 1 }).endFragment n :=
  if_pos last

/-! ## The commands that fail a lane (R108 to R111, R116 to R119) -/

/-- A command fails a lane of a part in which the lane's context stands as it did. -/
def LaneFails (w : List Instr) (p : Part) (i : Instr) (n : Nat) (u : LaneUse) (x : Context) : Prop :=
  ∃ (f : Part → Part) (base : Part) (v : LaneUse) (cause : LaneFailure),
    exec i ⟨w, p⟩ = run ⟨w, p⟩ f ∧ f p = base.failLane n cause ∧ cause ≠ .serverLost
      ∧ base.laneUse? n = some v ∧ v.context = u.context ∧ v.generation = u.generation ∧ v.position = u.position
      ∧ p.FailsIn base u.context x

section
variable {w : List Instr} {p : Part} {i : Instr} {n : Nat} {u : LaneUse} {x : Context}
  (inUse : p.context? u.context = some x)
include inUse

/-- A command that fails a lane of a part which differs in the clock alone. -/
theorem laneFails_reached (now : Nat) {f : Part → Part} {cause : LaneFailure} (meaning : exec i ⟨w, p⟩ = run ⟨w, p⟩ f)
    (effect : f p = Part.failLane { p with now := now } n cause) (kept : cause ≠ .serverLost)
    (use : p.laneUse? n = some u) : LaneFails w p i n u x :=
  ⟨f, { p with now := now }, u, cause, meaning, effect, kept, use, rfl, rfl, rfl,
    ⟨⟨_, _, inUse⟩, fun _ _ => rfl, rfl, rfl, rfl, rfl, rfl, .rfl⟩⟩

theorem TakenAtLane.laneFails {h : FrameHeader} {tag : Tag} {take : Part → Nat → LaneUse → Part}
    (taken : TakenAtLane i w p h tag take) (used : p.laneUsed h tag n u) {cause : LaneFailure}
    (eq : take p n u = p.failLane n cause) (kept : cause ≠ .serverLost) : LaneFails w p i n u x := by
  obtain ⟨f, meaning, effect⟩ := taken
  have lane : laneOfTag tag ≤ 127 := used.1 ▸ used.2.1
  exact laneFails_reached inUse p.now meaning ((effect lane).trans ((Part.atLane_used used take).trans eq)) kept used.2.2.1

/-- The 256th WAIT fails the lane after its count has been written (R110). -/
theorem laneFails_wait {h : FrameHeader} {tag : Tag} {hint busy : Byte} (from_ : p.fromPeer h) (used : p.laneUsed h tag n u)
    {old : Option Nat} (opening : u.state = .opening old) (many : 255 ≤ u.waitCount) :
    LaneFails w p (.wait h tag hint busy) n u x := by
  obtain ⟨f, meaning, effect⟩ := wait_takenAtLane w from_ tag hint busy
  have lane : laneOfTag tag ≤ 127 := used.1 ▸ used.2.1
  have written := Part.takeWait_opening (p := p) (n := n) opening (waitHint hint) (flagSet busy)
  rw [if_pos (by omega)] at written
  exact ⟨f, _, { u with waitCount := u.waitCount + 1, waitBusy := flagSet busy }, .waitLimit, meaning,
    (effect lane).trans ((Part.atLane_used used _).trans written), nofun,
    p.laneUse?_setUse n _ u used.2.2.1, rfl, rfl, rfl,
    ⟨⟨_, _, inUse⟩, fun _ _ => rfl, rfl, rfl, rfl, rfl, rfl, .rfl⟩⟩

/-- The combine completion that ends a fragment with another digest than the expected one (R116). -/
theorem laneFails_combine {o : CombineOperation} {d : Digest} (use : p.laneUse? n = some u) (streams : u.state = .streaming)
    (calm : p.cbe.warning = false) (operation : p.cbe.operation = some o)
    (source : o.request.source = .lane n (fetchTag n (p.lane n).useCount)) (context : o.request.context = u.context)
    (current : p.gatheringAt o.request.context o.request.generation = true)
    (last : chunkCountOf u.length = u.nextConsume + 1) (known : u.digest = some d)
    (differs : d ≠ (digestAdvance u.runningDigest o.operand) ^^^ 0xFFFFFFFF#32) :
    LaneFails w p .combineDone n u x := by
  obtain ⟨s, s_eq⟩ : ∃ s, s = p.operationSettled o := ⟨_, rfl⟩
  have settled := (Part.unbinds_operationSettled p o)
  rw [← s_eq] at settled
  have use' : s.laneUse? n = some u := (congrArg (fun q : Part => q.laneUse? n) settled.rest :).trans use
  have tagged' : fetchTag n (s.lane n).useCount = fetchTag n (p.lane n).useCount :=
    (congrArg (fun q : Part => fetchTag n (q.lane n).useCount) settled.rest :)
  have inUse' : s.context? o.request.context = some x := by
    refine (congrArg (fun q : Part => q.context? o.request.context) settled.rest :).trans ?_
    rw [context]
    exact inUse
  have current' : s.gatheringAt o.request.context o.request.generation = true :=
    (congrArg (fun q : Part => q.gatheringAt o.request.context o.request.generation) settled.rest :).trans current
  have recorded := Part.recordContribution_lane source use' tagged' inUse' current'
  obtain ⟨u', u'_eq⟩ : ∃ u' : LaneUse, u' = { u with runningDigest := digestAdvance u.runningDigest o.operand } := ⟨_, rfl⟩
  obtain ⟨r, r_eq⟩ : ∃ r, r = s.recordContribution o := ⟨_, rfl⟩
  rw [← r_eq, ← u'_eq] at recorded
  have use_r : r.laneUse? n = some u' := by
    rw [recorded]
    exact Part.laneUse?_setUse (s.editContext o.request.context _) n u' u use'
  have tagged_r : fetchTag n (r.lane n).useCount = fetchTag n (p.lane n).useCount := by
    rw [recorded, Part.lane_setUse (s.editContext o.request.context _) n u' u use']
    exact tagged'
  have warning : r.lowerWarning = r := by
    refine if_neg fun raised => ?_
    have low : r.cbe.warning = false := by
      rw [recorded]
      exact (congrArg (fun q : Part => q.cbe.warning) settled.rest :).trans calm
    exact Bool.false_ne_true (low.symm.trans raised.2)
  have active : u'.active = true := by rw [u'_eq]; simp [LaneUse.active, streams]
  obtain ⟨v, v_eq⟩ : ∃ v : LaneUse, v = { u'.setBank o.request.chunk .empty with nextConsume := u'.nextConsume + 1 } :=
    ⟨_, rfl⟩
  obtain ⟨base, base_eq⟩ : ∃ base, base = (r.editLane n fun l => { l with outstanding := false }).setUse n v := ⟨_, rfl⟩
  have unbanked (b : Bank) : (u'.setBank o.request.chunk b).digest = u'.digest
      ∧ (u'.setBank o.request.chunk b).runningDigest = u'.runningDigest
      ∧ (u'.setBank o.request.chunk b).position = u'.position := by
    unfold LaneUse.setBank
    split <;> exact ⟨rfl, rfl, rfl⟩
  obtain ⟨digest, running, position⟩ := unbanked .empty
  have use_b : base.laneUse? n = some v := by
    rw [base_eq]
    refine Part.laneUse?_setUse _ n v u' ?_
    exact (Part.laneUse?_editLane_same r n n (f := fun l => { l with outstanding := false }) fun _ => rfl).trans use_r
  have effect : p.endCombine = base.failLane n .damaged := by
    rw [Part.endCombine_eq operation, ← s_eq, ← r_eq, Part.completeCombine, warning]
    simp only [source]
    rw [Part.completeAtLane_active use_r tagged_r active, Part.consumeChunk_last (by rw [u'_eq]; exact Nat.le_of_eq last),
      ← v_eq, ← base_eq]
    refine Part.endFragment_damaged use_b (d := d) ?_ ?_
    · rw [v_eq]
      exact digest.trans (by rw [u'_eq]; exact known)
    · have final : v.runningDigest = digestAdvance u.runningDigest o.operand := by
        rw [v_eq]
        exact running.trans (by rw [u'_eq])
      rw [final]
      exact differs
  have base_rest : base = { s.editContext o.request.context (fun y =>
      y.contributed (s.contributionK x) o.request.chunk o.request.survivor) with ftu := base.ftu } := by
    rw [base_eq, recorded]
    rfl
  have row := Part.context?_editContext inUse' fun y =>
    y.contributed (s.contributionK x) o.request.chunk o.request.survivor
  have same {α : Type} (g : Part → α) (beside : ∀ (a : Part) f ftu, g { a.editContext o.request.context f with
      ftu := ftu } = g a) (beside' : g { p.setDram (p.smc.dram.combineAll o) with
        cbe := { p.cbe with operation := none }, svu := s.svu, smc := s.smc, hlk := s.hlk } = g p) : g base = g p := by
    refine (congrArg g base_rest).trans ((beside s _ _).trans ?_)
    exact (congrArg g settled.rest).trans beside'
  refine ⟨Part.endCombine, base, v, .damaged, rfl, effect, nofun, use_b, ?_, ?_, ?_, ⟨?_, fun e other => ?_, ?_, ?_, ?_, ?_, ?_, ?_⟩⟩
  · rw [v_eq, u'_eq]
    exact LaneUse.setBank_context _ _ _
  · rw [v_eq, u'_eq]
    exact LaneUse.setBank_generation _ _ _
  · rw [v_eq]
    exact position.trans (by rw [u'_eq])
  · obtain ⟨y, y_eq⟩ : ∃ y, y = x.contributed (s.contributionK x) o.request.chunk o.request.survivor := ⟨_, rfl⟩
    have shape : y = { x with contributions := y.contributions, chunksComplete := y.chunksComplete } := by
      rw [y_eq]
      rfl
    have read : base.context? u.context = some y := by
      refine (congrArg (fun q : Part => q.context? u.context) base_rest :).trans ?_
      rw [y_eq, ← context]
      exact row
    exact ⟨y.contributions, y.chunksComplete, read.trans (congrArg some shape)⟩
  · refine (congrArg (fun q : Part => q.context? e) base_rest :).trans ?_
    refine (Part.context?_editContext_other s (by rw [context]; exact other) _).trans ?_
    exact (congrArg (fun q : Part => q.context? e) settled.rest :)
  · exact same (fun q => q.generation u.context) (fun _ _ _ => rfl) rfl
  · exact same Part.hdt (fun _ _ _ => rfl) rfl
  · exact same Part.clt (fun _ _ _ => rfl) rfl
  · exact same Part.prs (fun _ _ _ => rfl) rfl
  · exact same Part.sgp (fun _ _ _ => rfl) rfl
  · have hlk : base.hlk = s.hlk := (congrArg Part.hlk base_rest :)
    rw [hlk]
    exact settled.tags

/-- Every command that fails a lane of a context fails it so (R94, R118). -/
theorem laneFailsBy_fails (live : x.pendingOutcome = none) (state : x.state = .gathering)
    (current : p.generation u.context = u.generation) (by_ : p.laneFailsBy i n u) : LaneFails w p i n u x := by
  rcases by_ with ⟨h, tag, reason, from_, used, active, other, rfl⟩ | ⟨h, tag, from_, used, streams, many, rfl⟩
    | ⟨h, tag, present, length, digest, from_, used, opening, fault, rfl⟩
    | ⟨h, tag, hint, busy, from_, used, ⟨old, opening⟩, many, rfl⟩ | ⟨use, ⟨due, opening⟩, all, rfl⟩
    | ⟨use, streams, bank, c, tries, sent, held, all, rfl⟩
    | ⟨use, streams, calm, rfl, o, d, operation, source, context, generation, chunk, last, known, differs⟩
  · exact (refuse_takenAtLane w from_ tag reason).laneFails inUse used (cause := .refused reason) (by simp [Part.takeRefuse, other, active]) nofun
  · have effect : p.takeRefuse n u .notOpen = p.reOpen n := by simp [Part.takeRefuse, streams]
    exact (refuse_takenAtLane w from_ tag .notOpen).laneFails inUse used (cause := .reOpenLimit)
      (effect.trans (Part.reOpen_limit used.2.2.1 many)) nofun
  · by_cases fits : length.toNat = u.length
    · obtain ⟨one, known, digest_eq, differs⟩ := fault.resolve_left fun longer => longer fits
      refine (ready_takenAtLane w from_ tag present length digest).laneFails inUse used (cause := .damaged) ?_ nofun
      simp [Part.takeReady, opening, fits, one, flagSet, digest_eq, Ne.symm differs]
    · exact (ready_takenAtLane w from_ tag present length digest).laneFails inUse used (cause := .length)
        (by simp [Part.takeReady, opening, fits]) nofun
  · exact laneFails_wait inUse from_ used opening many
  · exact laneFails_reached inUse (max p.now due) (f := fun p => p.expireOpen n) rfl
      ((Part.expireOpen_eq use opening).trans (if_pos all)) nofun use
  · exact laneFails_reached inUse (max p.now (sent + p.replyTimeout)) (f := fun p => p.expirePull n bank) rfl
      ((Part.expirePull_eq use held streams).trans (if_pos all)) nofun use
  · have gathers : p.gatheringAt o.request.context o.request.generation = true := by
      rw [context, generation]
      exact Part.gatheringAt_of inUse live state current
    exact laneFails_combine inUse use streams calm operation source context gathers last known differs

end

end Sys2Proof.Machine

/-! How an internal opener attaches, and the service of the openers that wait (R132 to R134). -/

namespace Sys2Proof.Machine

/-! ## The opener attached to an entry (R132) -/

theorem Part.attachedOpener?_alone {p : Part} {c n : Nat} {e : ServeEntry} {i : InternalOpener} {old : List Opener}
    (others : ∀ r ∈ p.svu.entries, ∀ o ∈ r.2.openers, o.isInternalOf c = false)
    (before : ∀ o ∈ old, o.isInternalOf c = false) (mine : i.context = c) (openers : e.openers = old ++ [.internal i]) :
    (p.setServe n e).attachedOpener? c = some (n, e, i) := by
  obtain ⟨g, g_eq⟩ : ∃ g : Nat × ServeEntry → Opener → Option (Nat × ServeEntry × InternalOpener), g = fun r o =>
      match o with
      | .internal i => if i.context = c then some (r.1, r.2, i) else none
      | .remote .. => none := ⟨_, rfl⟩
  have none_ (r : Nat × ServeEntry) (os : List Opener) (apart : ∀ o ∈ os, o.isInternalOf c = false) :
      os.findSome? (g r) = none := by
    refine List.findSome?_eq_none_iff.2 fun o member => ?_
    have other := apart o member
    subst g_eq
    cases o with
    | internal j => exact if_neg (by simpa [Opener.isInternalOf] using other)
    | remote => rfl
  have found : e.openers.findSome? (g (n, e)) = some (n, e, i) := by
    rw [openers, List.findSome?_append, none_ _ _ before, g_eq]
    simp [mine]
  have meaning : (p.setServe n e).attachedOpener? c =
      (p.svu.entries.setRow n e).findSome? fun r => r.2.openers.findSome? (g r) := by rw [g_eq]; rfl
  have member : (n, e) ∈ p.svu.entries.setRow n e := Table.row?_mem (Table.row?_setRow_self _ _ _)
  have whole : ∀ t : Table ServeEntry, (∀ r ∈ t, r = (n, e) ∨ r ∈ p.svu.entries) → (n, e) ∈ t →
      (t.findSome? fun r => r.2.openers.findSome? (g r)) = some (n, e, i) := by
    intro t
    induction t with
    | nil => exact fun _ member => absurd member List.not_mem_nil
    | cons r rest ih =>
      intro kinds member
      rw [List.findSome?_cons]
      rcases kinds r List.mem_cons_self with rfl | old
      · rw [found]
      · have passes : r.2.openers.findSome? (g r) = none ∨ r = (n, e) := by
          exact .inl (none_ r _ (others r old))
        rcases passes with passes | rfl
        · rw [passes]
          refine ih (fun s listed => kinds s (List.mem_cons_of_mem _ listed)) ?_
          rcases List.mem_cons.1 member with rfl | later
          · exact absurd (passes.symm.trans found) nofun
          · exact later
        · rw [found]
  rw [meaning]
  exact whole _ (fun r listed => Table.mem_setRow listed) member

section
variable {p : Part} {i : InternalOpener} {n : Nat} {e : ServeEntry} {record : Nat × HoldingRecord}
  (held : p.recordOf? i.stripe i.position = some record)
include held

section
variable (serves : p.serveOf? i.stripe i.position = some (n, e))
include serves

theorem Part.attach_full (many : 16 ≤ e.openers.length) (state : e.state = .staged ∨ e.state = .staging) :
    p.attach i = .mustWait := by
  have full : ¬ e.openers.length < openerPlaces := Nat.not_lt.2 many
  rcases state with staged | staging
  · simp only [Part.attach, held, serves, staged, full, if_false]
  · simp only [Part.attach, held, serves, staging, full, if_false]

variable (room : e.openers.length < 16)
include room

theorem Part.attach_staging (row : p.serve? n = some e) (state : e.state = .staging) :
    p.attach i = .attached (p.setServe n { e with openers := e.openers ++ [.internal i] }) := by
  rw [← Part.addOpener_eq row]
  simp only [Part.attach, held, serves, state, show e.openers.length < openerPlaces from room, if_true]

/-- An opener that attaches to a STAGED entry posts the combine request of its first chunk (R132, R133). -/
theorem Part.attach_staged (row : p.serve? n = some e) (state : e.state = .staged) (fresh : i.nextChunk = 0)
    (ended : i.ended = .open_) (long : 0 < e.length)
    (apart : ∀ r ∈ p.svu.entries, ∀ o ∈ r.2.openers, o.isInternalOf i.context = false) {attached : Part}
    (attached_eq : attached = p.setServe n { e with openers := e.openers ++ [.internal i], lastUse := p.now }) :
    p.attach i = .attached (if i.context ∈ p.svu.combineMarks then attached else Part.postCombine
      { attached with svu := { attached.svu with combineMarks := insertPosition i.context p.svu.combineMarks } }
      { context := i.context, generation := i.generation, survivor := 0, chunk := 0, source := .internal }) := by
  have found : attached.attachedOpener? i.context =
      some (n, { e with openers := e.openers ++ [.internal i], lastUse := p.now }, i) := by
    rw [attached_eq]
    exact Part.attachedOpener?_alone apart (apart (n, e) (Table.row?_mem row)) rfl rfl
  have chunks : 0 < chunkCountOf e.length := by
    unfold chunkCountOf
    exact Nat.div_pos (by unfold chunkSize; omega) (by decide)
  have marks : attached.svu.combineMarks = p.svu.combineMarks := by rw [attached_eq]; rfl
  have step : p.attach i = .attached (attached.feed i.context) := by
    rw [attached_eq, ← Part.touchServe_setServe p n { e with openers := e.openers ++ [.internal i] }, ← Part.addOpener_eq row]
    simp only [Part.attach, held, serves, state, show e.openers.length < openerPlaces from room, if_true]
  rw [step]
  simp only [Part.feed, found, state, ended, fresh, chunks, marks, true_and]
  by_cases marked : i.context ∈ p.svu.combineMarks
  · simp [marked]
  · simp [marked]

end

variable (none_ : p.serveOf? i.stripe i.position = none)
include none_

theorem Part.attach_noPlace (full : p.svu.entries.lowestFree? 256 = none ∨ p.freeSlots = []) (rigid : p.evictables = []) :
    p.attach i = .mustWait := by
  simp only [Part.attach, held, none_, Part.newServe?_none full rigid]

/-- An opener for whose key a new entry is made (R124, R132). -/
theorem Part.attach_new {base : Part} {slot : Nat} (place : p.entryPlace base n slot) : p.attach i =
    .attached ((base.startServe n slot i.stripe i.position record.2.length).addOpener n (.internal i)) := by
  obtain ⟨position, r⟩ := record
  simp only [Part.attach, held, none_, (Part.newServe?_place place _ _ _).1]

end

/-! ## The failure of the local survivor (R134) -/

section
variable {p : Part} {c : Nat} {g : BitVec 8} {x : Context} (position : Nat)

theorem Part.failLocal_stale (still : p.gatheringAt c g = false) : p.failLocal c g position = p :=
  if_neg (by rw [still]; exact Bool.false_ne_true)

theorem Part.failLocal_rePlans (plain : p.CanRePlan c g x) (few : x.rePlans < 8) :
    p.failLocal c g position = p.rePlanned c x (some position) := by
  have gathers : p.gatheringAt c g = true := Part.gatheringAt_of plain.inUse plain.live plain.gathers plain.current
  have room : p.roomFor x.reservation.length := ⟨plain.room.1, by have := plain.room.2; omega⟩
  exact (if_pos gathers).trans (Part.rePlan_unusable plain.inUse plain.lanes plain.openers plain.rising room few plain.granted
    plain.slots position)

theorem Part.waiting_abandon {base : Part} {y : Context} (inUse : base.context? c = some y) (rising : base.hdt.rising = true)
    (cause : AbandonCause) : (base.abandon c cause).svu.waiting = base.svu.waiting.filter fun i => i.context != c := by
  have released := Part.releaseContext_releasedTo inUse
  obtain ⟨q, q_eq⟩ : ∃ q, q = base.releaseContext c := ⟨_, rfl⟩
  rw [← q_eq] at released
  rw [← released.waiting]
  have decided : base.abandon c cause = if q.reportPathFull = true then
      q.editContext c fun z => { z with pendingOutcome := some (.abandoned cause) } else q.completeAbandoned c cause := by
    rw [q_eq]
    rfl
  rw [decided]
  split
  · rfl
  · have imaged := Part.outcomeReported_imaged (p := q) (by rw [released.hdt_same]; exact rising) c y.stripe .abandoned []
      .quiet (.repairAbandoned cause y.stripe)
    rw [Part.completeAbandoned_eq (released.context?_self inUse)]
    exact (congrArg (fun q : Part => q.svu.waiting) imaged.same :)

theorem Part.failLocal_abandons (gathers : p.gatheringAt c g = true) (inUse : p.context? c = some x) (many : 8 ≤ x.rePlans)
    (rising : p.hdt.rising = true) (apart : ∀ j ∈ p.svu.waiting, j.context ≠ c) :
    p.abandoned (p.failLocal c g position) c x .rePlanLimit
      ∧ (p.failLocal c g position).svu.waiting = p.svu.waiting := by
  have row := Part.context?_editContext inUse fun y => { y with unusable := insertPosition position y.unusable }
  have effect : p.failLocal c g position = (p.markUnusable c position).abandon c .rePlanLimit :=
    (if_pos gathers).trans (Part.rePlan_limit row many none)
  rw [effect]
  refine ⟨Part.abandon_abandoned row rfl rfl (fun d other => Part.context?_editContext_other p other _) rfl rfl rfl .rfl
    (fun room => ⟨room.1, by have := room.2; change (List.filter _ p.sgp.control).length + _ ≤ 63; omega⟩) rising _, ?_⟩
  refine (Part.waiting_abandon row rising _).trans (List.filter_eq_self.2 fun j member => ?_)
  simpa using apart j member

end

/-- What the attempt to attach an opener that has posted nothing comes to (R132). -/
theorem Part.attachesTo_of {p : Part} {i : InternalOpener} {waits : Prop} {ends : Part → Prop} (fresh : i.nextChunk = 0)
    (open_ : i.ended = .open_) (wait : p.attach i = .mustWait → waits) (attached : ∀ q, p.attach i = .attached q → ends q)
    (fails : p.attach i = .failed → (p.failLocal i.context i.generation i.position).svu.waiting = p.svu.waiting →
      ends (p.failLocal i.context i.generation i.position)) : p.attachesTo i waits ends := by
  refine ⟨fun lacks => ?_, fun n e record held serves row => ⟨fun many state => wait ?_, fun state room => attached _ ?_,
    fun a state room long apart a_eq => ?_⟩, fun place record held none_ => ⟨fun full rigid => wait ?_,
    fun n slot base made entry place entry_eq made_eq => ?_⟩⟩
  · have failed : p.attach i = .failed := by
      rcases lacks with none_ | ⟨n, e, cause, serves, state⟩
      · simp only [Part.attach, none_]
      · cases held : p.recordOf? i.stripe i.position with
        | none => simp only [Part.attach, held]
        | some record => simp only [Part.attach, held, serves, state]
    have told := fails failed
    refine ⟨fun still => ?_, fun apart x => ⟨fun plain few => ?_, fun gathers inUse many rising => ?_⟩⟩
    · rw [Part.failLocal_stale _ still] at told
      exact told rfl
    · rw [Part.failLocal_rePlans _ plain few] at told
      exact told (List.filter_eq_self.2 fun j member => by simpa using apart j member)
    · obtain ⟨shown, waiting⟩ := Part.failLocal_abandons i.position gathers inUse many rising apart
      exact ⟨_, shown, waiting, told waiting⟩
  · exact Part.attach_full held serves many state
  · exact Part.attach_staging held serves room row state
  · have attaches := attached _ (Part.attach_staged held serves room row state fresh open_ long apart a_eq)
    exact ⟨fun marked => by rwa [if_pos marked] at attaches, fun clear => by rwa [if_neg clear] at attaches⟩
  · exact Part.attach_noPlace held none_ full rigid
  · obtain ⟨-, entries, base_eq⟩ := Part.newServe?_place place i.stripe i.position record.length
    have attaches := attached _ (Part.attach_new held none_ place)
    have hlk : base.hlk = p.hlk := by rw [base_eq]; rfl
    have now : base.now = p.now := by rw [base_eq]; rfl
    have path : base.reportPathFull = p.reportPathFull := by rw [base_eq]; rfl
    refine ⟨fun full => ?_, fun next open_ tag => ?_⟩
    · rw [Part.startServe_full _ _ _ (path.trans full), Part.addOpener_entryMade, now] at attaches
      rw [made_eq, entry_eq]
      exact attaches
    · rw [Part.startServe_asks_opener _ _ _ (path.trans open_) (by rw [hlk]; exact tag), hlk, now] at attaches
      refine Part.postsReport_of ?_ ?_
      · rw [made_eq, base_eq]
        exact open_
      · rw [made_eq, entry_eq]
        exact attaches

/-! ## The openers that wait (R132) -/

/-- The part with another list of openers that wait. -/
def Part.waitingSet (p : Part) (waiting : List InternalOpener) : Part :=
  { p with svu := { p.svu with waiting := waiting } }

/-- What an attempt to attach comes to, with another list of openers that wait. -/
def Attachment.waitingSet (waiting : List InternalOpener) : Attachment → Attachment
  | .failed => .failed
  | .attached q => .attached (q.waitingSet waiting)
  | .mustWait => .mustWait

section
variable (p : Part) (waiting : List InternalOpener) (n : Nat)

theorem Part.addOpener_waitingSet (o : Opener) :
    (p.waitingSet waiting).addOpener n o = (p.addOpener n o).waitingSet waiting := by
  unfold Part.addOpener
  rw [show (p.waitingSet waiting).serve? n = p.serve? n from rfl]
  cases p.serve? n <;> rfl

theorem Part.touchServe_waitingSet : (p.waitingSet waiting).touchServe n = (p.touchServe n).waitingSet waiting := by
  unfold Part.touchServe
  rw [show (p.waitingSet waiting).serve? n = p.serve? n from rfl]
  cases p.serve? n <;> rfl

theorem Part.postCombine_waitingSet (r : CombineRequest) :
    (p.waitingSet waiting).postCombine r = (p.postCombine r).waitingSet waiting := by
  by_cases raises : p.combineDepth = 95 ∧ p.cbe.warning = false
  · rw [Part.postCombine_eq p, if_pos raises]
    exact (Part.postCombine_eq (p.waitingSet waiting) r).trans (if_pos raises)
  · rw [Part.postCombine_eq p, if_neg raises]
    exact (Part.postCombine_eq (p.waitingSet waiting) r).trans (if_neg raises)

theorem Part.feed_waitingSet (c : Nat) : (p.waitingSet waiting).feed c = (p.feed c).waitingSet waiting := by
  unfold Part.feed
  rw [show (p.waitingSet waiting).attachedOpener? c = p.attachedOpener? c from rfl]
  cases p.attachedOpener? c with
  | none => rfl
  | some found =>
    obtain ⟨m, e, i⟩ := found
    dsimp only
    refine Eq.trans ?_ (apply_ite (fun q : Part => q.waitingSet waiting) _ _ _).symm
    congr 1
    exact Part.postCombine_waitingSet { p with svu := { p.svu with combineMarks := insertPosition c p.svu.combineMarks } }
      waiting _

theorem Part.postStageRequest_waitingSet :
    (p.waitingSet waiting).postStageRequest n = (p.postStageRequest n).waitingSet waiting := by
  unfold Part.postStageRequest
  rw [show (p.waitingSet waiting).serve? n = p.serve? n from rfl]
  cases p.serve? n with
  | none => rfl
  | some e =>
    dsimp only
    refine Eq.trans ?_ (apply_ite (fun q : Part => q.waitingSet waiting) _ _ _).symm
    congr 1
    obtain ⟨a, a_eq⟩ : ∃ a, a = Part.editSlot ((p.takeTag .stage).setServe n
      { e with requested := true, tag := some p.hlk.tagCounter }) e.slot
      fun r => { r with right := .write p.hlk.tagCounter } := ⟨_, rfl⟩
    have apart (r : Report) : (a.waitingSet waiting).postReport r = (a.postReport r).waitingSet waiting := by
      have alone : a.postReport r = { a with hlk := (a.postReport r).hlk } :=
        Part.postReport_of_same (p := a) (q := a) rfl rfl r
      rw [Part.postReport_of_same (p := a) (q := a.waitingSet waiting) rfl rfl r, alone]
      rfl
    have posted := apart (.stageRequest p.hlk.tagCounter e.stripe e.position e.length e.slot)
    rw [a_eq] at posted
    exact posted

theorem Part.newServe?_waitingSet (t : StripeId) (position length : Nat) : (p.waitingSet waiting).newServe? t position length =
    (p.newServe? t position length).map fun r => (r.1.waitingSet waiting, r.2) := by
  have starts (b : Part) (m slot : Nat) : (b.waitingSet waiting).startServe m slot t position length =
      (b.startServe m slot t position length).waitingSet waiting :=
    Part.postStageRequest_waitingSet ((b.setSlot slot (serveSlot m)).setServe m
      { stripe := t, position := position, length := length, slot := slot, state := .staging, requested := false,
        tag := none, openers := [], lastUse := b.now }) waiting m
  have evicts : (p.waitingSet waiting).evict? = p.evict?.map fun r => (r.1.waitingSet waiting, r.2) := by
    rw [Part.evict?, Part.evict?, Option.map_map]
    rfl
  unfold Part.newServe?
  rw [show (p.waitingSet waiting).svu.entries = p.svu.entries from rfl,
    show (p.waitingSet waiting).freeSlots = p.freeSlots from rfl, evicts]
  cases p.svu.entries.lowestFree? serveEntries with
  | none =>
    cases p.evict? with
    | none => rfl
    | some found =>
      dsimp only [Option.map_some]
      rw [Option.map_map]
      exact congrArg (fun f => Option.map f _) (funext fun m => congrArg (·, m) (starts found.1 m found.2))
  | some m =>
    cases p.freeSlots.head? with
    | none =>
      cases p.evict? with
      | none => rfl
      | some found =>
        dsimp only [Option.map_some]
        rw [Option.map_map]
        exact congrArg (fun f => Option.map f _) (funext fun m => congrArg (·, m) (starts found.1 m found.2))
    | some slot => exact congrArg (fun q => some (q, m)) (starts p m slot)

/-- An attempt to attach does not depend on the openers that wait (R132). -/
theorem Part.attach_waitingSet (i : InternalOpener) :
    (p.waitingSet waiting).attach i = (p.attach i).waitingSet waiting := by
  unfold Part.attach
  rw [show (p.waitingSet waiting).recordOf? i.stripe i.position = p.recordOf? i.stripe i.position from rfl,
    show (p.waitingSet waiting).serveOf? i.stripe i.position = p.serveOf? i.stripe i.position from rfl]
  cases p.recordOf? i.stripe i.position with
  | none => rfl
  | some record =>
    cases p.serveOf? i.stripe i.position with
    | none =>
      dsimp only
      rw [Part.newServe?_waitingSet]
      cases p.newServe? i.stripe i.position record.2.length with
      | none => rfl
      | some made => exact congrArg Attachment.attached (Part.addOpener_waitingSet made.1 waiting made.2 _)
    | some found =>
      obtain ⟨m, e⟩ := found
      dsimp only
      cases e.state with
      | failed cause => rfl
      | staged =>
        dsimp only
        rw [Part.addOpener_waitingSet, Part.touchServe_waitingSet, Part.feed_waitingSet]
        split <;> rfl
      | staging =>
        dsimp only
        rw [Part.addOpener_waitingSet]
        split <;> rfl

end

theorem internalOpenerAttach_runs (w : List Instr) (p : Part) :
    exec .internalOpenerAttach ⟨w, p⟩ = run ⟨w, p⟩ fun p => p.serveWaiting p.svu.waiting := rfl

/-- The head has left the list for a part that serves the openers after it (R132). -/
theorem servesHead_of {w : List Instr} {p q : Part}
    (steps : p.serveWaiting p.svu.waiting = q.serveWaiting q.svu.waiting) : ServesHead w p q := by
  refine ⟨fun none_ => answers_of_effect (internalOpenerAttach_runs w p) (congrArg Part.unmarked ?_), ?_⟩
  · refine steps.trans ?_
    rw [none_]
    rfl
  · rintro r ⟨t, next, pending, shown⟩
    obtain rfl := Host.Outcome.next.inj ((internalOpenerAttach_runs w q).symm.trans next)
    exact answers_of_effect (internalOpenerAttach_runs w p)
      ((congrArg Part.unmarked steps).trans ((q.unmarked_markStatus _).symm.trans shown))

section
variable {p : Part} {i : InternalOpener} {rest : List InternalOpener} (waiting : p.svu.waiting = i :: rest)
include waiting

theorem Part.serveWaiting_waits (waits : p.attach i = .mustWait) : p.serveWaiting p.svu.waiting = p := by
  rw [waiting, Part.serveWaiting, waits]

theorem Part.serveWaiting_attached {q : Part} (attached : p.attach i = .attached q) :
    p.serveWaiting p.svu.waiting = (q.waitingSet (q.svu.waiting.drop 1)).serveWaiting rest := by
  rw [waiting, Part.serveWaiting, attached]
  rfl

theorem Part.serveWaiting_failed (failed : p.attach i = .failed) : p.serveWaiting p.svu.waiting =
    ((p.waitingSet rest).failLocal i.context i.generation i.position).serveWaiting rest := by
  rw [waiting, Part.serveWaiting, failed, waiting]
  rfl

end

/-- Settles O41. -/
theorem waitingOpenersAttach : Obligations.WaitingOpenersAttach := by
  refine fun w p => ⟨fun none_ => ?_, fun i rest left waiting fresh open_ left_eq => ?_⟩
  · refine answers_of_effect (internalOpenerAttach_runs w p) (congrArg Part.unmarked ?_)
    change p.serveWaiting p.svu.waiting = p
    rw [none_]
    rfl
  have back : p = left.waitingSet p.svu.waiting := by rw [left_eq]; rfl
  have same : p.attach i = (left.attach i).waitingSet p.svu.waiting := by
    rw [← left.attach_waitingSet, ← back]
  have rest_eq : left.svu.waiting = rest := by rw [left_eq]
  have own : left.attach i = (left.attach i).waitingSet rest := by
    rw [← left.attach_waitingSet, ← rest_eq]
    rfl
  refine Part.attachesTo_of fresh open_ (fun waits => ?_) (fun q attached => ?_) fun failed kept => ?_
  · rw [waits] at same
    exact answers_of_effect (internalOpenerAttach_runs w p) (congrArg Part.unmarked (Part.serveWaiting_waits waiting same))
  · rw [attached] at same own
    refine servesHead_of ((Part.serveWaiting_attached waiting same).trans ?_)
    have waiting_q : q.svu.waiting = rest := (congrArg (fun a : Part => a.svu.waiting) (Attachment.attached.inj own) :)
    rw [waiting_q]
    refine congrArg (fun a : Part => a.serveWaiting rest) ?_
    change q.waitingSet (p.svu.waiting.drop 1) = q
    rw [waiting]
    exact (Attachment.attached.inj own).symm
  · rw [failed] at same
    refine servesHead_of ((Part.serveWaiting_failed waiting same).trans ?_)
    rw [kept, rest_eq, left_eq]
    rfl

end Sys2Proof.Machine

/-! Entry to GATHERING: each remote survivor gets a lane and its OPEN, and the local one its internal opener (R92, R108,
R132). -/

namespace Sys2Proof.Machine

/-! ## Lanes in ascending order -/

theorem insertPosition_ascending {j : Nat} {ps : List Nat} (sorted : ps.Pairwise (· < ·)) :
    (insertPosition j ps).Pairwise (· < ·) := by
  induction ps with
  | nil => simp [insertPosition]
  | cons k rest ih =>
    obtain ⟨less, sorted'⟩ := List.pairwise_cons.1 sorted
    rw [insertPosition]
    split
    · next before =>
      refine List.pairwise_cons.2 ⟨fun i member => ?_, sorted⟩
      rcases List.mem_cons.1 member with rfl | later
      · exact before
      · exact Nat.lt_trans before (less i later)
    · split
      · exact sorted
      · next after other =>
        refine List.pairwise_cons.2 ⟨fun i member => ?_, ih sorted'⟩
        rcases mem_insertPosition.1 member with rfl | later
        · omega
        · exact less i later

theorem length_insertPosition {j : Nat} {ps : List Nat} (fresh : j ∉ ps) : (insertPosition j ps).length = ps.length + 1 := by
  induction ps with
  | nil => rfl
  | cons k rest ih =>
    obtain ⟨apart, fresh⟩ := not_or.1 fun either => fresh (List.mem_cons.2 either)
    simp only [insertPosition, apart, if_false]
    split
    · rfl
    · rw [List.length_cons, ih fresh, List.length_cons]

theorem mem_ascending {n : Nat} {ns : List Nat} : n ∈ ascending ns ↔ n ∈ ns := by
  induction ns with
  | nil => exact Iff.rfl
  | cons m rest ih =>
    rw [ascending, List.foldr_cons, mem_insertPosition, List.mem_cons]
    exact or_congr_right ih

theorem ascending_sorted (ns : List Nat) : (ascending ns).Pairwise (· < ·) := by
  induction ns with
  | nil => exact .nil
  | cons m rest ih => exact insertPosition_ascending ih

theorem nodup_ascending (ns : List Nat) : (ascending ns).Nodup := (ascending_sorted ns).imp Nat.ne_of_lt

theorem length_ascending {ns : List Nat} (nodup : ns.Nodup) : (ascending ns).length = ns.length := by
  induction ns with
  | nil => rfl
  | cons m rest ih =>
    obtain ⟨fresh, nodup⟩ := List.nodup_cons.1 nodup
    have apart : m ∉ ascending rest := fun member => fresh (mem_ascending.1 member)
    exact (length_insertPosition apart).trans (congrArg (· + 1) (ih nodup))

/-! ## The sources of the survivors (R92) -/

/-- A remote survivor with its lane, and its index in the survivor list. -/
abbrev Lent := (Survivor × Nat) × Nat

/-- A survivor with its lane as its source (R92). -/
def Lent.survivor (g : Lent) : Survivor := { g.1.1 with source := .lane g.1.2 }

theorem assignSources_remote {remotes : List Survivor} (remote : ∀ v ∈ remotes, v.source ≠ .ownHoldings) (k : Nat)
    {lanes : List Nat} (enough : remotes.length ≤ lanes.length) : assignSources k remotes lanes =
      ((remotes.zip lanes).zipIdx k).map fun g => (g.2, Lent.survivor g) := by
  induction remotes generalizing k lanes with
  | nil => cases lanes <;> rfl
  | cons v rest ih =>
    cases lanes with
    | nil => simp at enough
    | cons n more =>
      have fits : rest.length ≤ more.length := by simpa using enough
      rw [assignSources, if_neg (remote v List.mem_cons_self), ih (fun u member => remote u (List.mem_cons_of_mem _ member)) _ fits]
      rfl

theorem assignSources_lists {p : Part} {survivors : List Survivor} {own : Option Survivor} {remotes : List Survivor}
    (lists : p.ListsSurvivors survivors own remotes) {lanes : List Nat} (enough : remotes.length ≤ lanes.length) :
    assignSources 0 survivors lanes = own.toList.map (0, ·)
      ++ ((remotes.zip lanes).zipIdx own.toList.length).map fun g => (g.2, Lent.survivor g) := by
  have remote : ∀ v ∈ remotes, v.source ≠ .ownHoldings := fun v member => (lists.remote v member).1
  rw [lists.list]
  cases own with
  | none => exact assignSources_remote remote 0 enough
  | some v =>
    exact (if_pos (lists.local_ v rfl)).trans (congrArg ((0, v) :: ·) (assignSources_remote remote 1 enough))

/-! ## Lanes given (R108) -/

section
variable (p : Part) (c : Nat) (x : Context)

/-- The frame that opens a lane (R108). -/
def Part.openFrame (g : Lent) : Option Nat × FrameBody :=
  (some g.1.1.holder, .fetchOpen x.stripe (BitVec.ofNat 8 g.1.1.position) (fetchTag g.1.2 ((p.lane g.1.2).useCount + 1)))

/-- A lane in its first use by a survivor (R106, R108). -/
def Part.lent (g : Lent) (l : Lane) : Lane :=
  { l with useCount := l.useCount + 1, use := some (p.firstUse c g.2 x g.1.1) }

/-- The lanes with those that survivors are given in their first use (R108). -/
def Part.lanesLent (given : List Lent) : Table Lane :=
  p.ftu.map fun r => (r.1, ((given.find? fun g => g.1.2 == r.1).elim id (p.lent c x)) r.2)

/-- The part with lanes given to survivors and their OPENs posted (R108). -/
def Part.lanesOpened (given : List Lent) : Part :=
  { p.queuedAll (given.map (p.openFrame x)) with ftu := p.lanesLent c x given }

end

section
variable {p : Part} {c : Nat} {x : Context}

theorem Part.lanesLent_nil : p.lanesLent c x [] = p.ftu := by simp [Part.lanesLent]

theorem Part.lane_lanesOpened (given : List Lent) (m : Nat) (l : Lane) (row : p.ftu.row? m = some l) :
    (p.lanesOpened c x given).ftu.row? m = some (((given.find? fun g => g.1.2 == m).elim id (p.lent c x)) l) := by
  have mapped := Table.row?_map p.ftu m fun n l => ((given.find? fun g => g.1.2 == n).elim id (p.lent c x)) l
  rw [row] at mapped
  exact mapped

/-- A lane given where the control queue has room for its OPEN (R108). -/
theorem Part.giveLane_eq {g : Lent} {l : Lane} (row : p.ftu.row? g.1.2 = some l) (near : p.gone g.1.1.holder = false)
    (room : p.queueOpen) : p.giveLane g.1.2 c g.2 x g.survivor = p.lanesOpened c x [g] := by
  obtain ⟨⟨v, n⟩, k⟩ := g
  obtain ⟨q, q_eq⟩ : ∃ q, q = p.editLane n (p.lent c x ((v, n), k)) := ⟨_, rfl⟩
  have read : (p.editLane n (p.lent c x ((v, n), k))).ftu.row? n = some (p.lent c x ((v, n), k) l) := by
    refine (Table.row?_editRow _ _ _ _).trans ?_
    rw [if_pos rfl, row]
    rfl
  have count : (q.lane n).useCount = (p.lane n).useCount + 1 := by
    rw [q_eq, Part.lane, read, Part.lane, row]
    rfl
  have open_ : q.queueOpen := by rw [q_eq]; exact room
  have given : p.giveLane n c k x (Lent.survivor ((v, n), k)) = q.postOpen n (p.firstUse c k x v) := by
    rw [q_eq]
    exact if_neg (by rw [show p.gone (Lent.survivor ((v, n), k)).holder = false from near]; exact Bool.false_ne_true)
  have posted := Part.post_open q (some v.holder) (.fetchOpen x.stripe (BitVec.ofNat 8 v.position) (q.laneTag n)) open_ rfl
  rw [given]
  refine (if_pos (Part.takesControl_open q open_)).trans (posted.trans ?_)
  have tag : q.laneTag n = fetchTag n ((p.lane n).useCount + 1) := by rw [Part.laneTag, count]
  have table : p.ftu.editRow n (p.lent c x ((v, n), k)) = p.lanesLent c x [((v, n), k)] := by
    rw [Table.editRow_eq_map]
    refine List.map_congr_left fun r _ => ?_
    by_cases here : r.1 = n
    · simp [here]
    · simp [here, Ne.symm here]
  rw [tag, q_eq, Part.lanesOpened, ← table]
  rfl

theorem Part.lanesOpened_cons {g : Lent} {rest : List Lent} (fresh : ∀ h ∈ rest, h.1.2 ≠ g.1.2) :
    (p.lanesOpened c x [g]).lanesOpened c x rest = p.lanesOpened c x (g :: rest) := by
  have lane {h : Lent} (member : h ∈ rest) : (p.lanesOpened c x [g]).lane h.1.2 = p.lane h.1.2 := by
    have mapped := Table.row?_map p.ftu h.1.2 fun n l => (([g].find? fun g => g.1.2 == n).elim id (p.lent c x)) l
    rw [Part.lane, show (p.lanesOpened c x [g]).ftu.row? h.1.2 = _ from mapped, Part.lane]
    have apart : ([g].find? fun g => g.1.2 == h.1.2) = none := by simpa using Ne.symm (fresh h member)
    rw [apart]
    cases p.ftu.row? h.1.2 <;> rfl
  have frames : rest.map ((p.lanesOpened c x [g]).openFrame x) = rest.map (p.openFrame x) :=
    List.map_congr_left fun h member => by rw [Part.openFrame, lane member]; rfl
  have table : (p.lanesOpened c x [g]).lanesLent c x rest = p.lanesLent c x (g :: rest) := by
    refine List.map_map.trans (List.map_congr_left fun r _ => ?_)
    rw [List.find?_cons]
    by_cases here : g.1.2 = r.1
    · have none_ : (rest.find? fun h => h.1.2 == r.1) = none := by
        refine List.find?_eq_none.2 fun h member => ?_
        simpa using here ▸ fresh h member
      simp [here, none_]
    · have other : (g.1.2 == r.1) = false := by simpa using here
      simp only [Function.comp_apply, List.find?_cons, List.find?_nil, other]
      rfl
  rw [Part.lanesOpened, frames, table, Part.lanesOpened]
  simp only [Part.queuedAll, Part.lanesOpened, List.map_cons, List.map_nil, List.append_assoc, List.singleton_append]

theorem Part.foldl_giveLane {given : List Lent} (nodup : (given.map fun g => g.1.2).Nodup)
    (rows : ∀ g ∈ given, ∃ l, p.ftu.row? g.1.2 = some l) (near : ∀ g ∈ given, p.gone g.1.1.holder = false)
    (room : p.roomFor given.length) :
    given.foldl (fun r g => r.giveLane g.1.2 c g.2 x (Lent.survivor g)) p = p.lanesOpened c x given := by
  induction given generalizing p with
  | nil => simp [Part.lanesOpened, Part.lanesLent_nil, Part.queuedAll]
  | cons g rest ih =>
    obtain ⟨fresh, nodup⟩ := List.nodup_cons.1 nodup
    have apart : ∀ h ∈ rest, h.1.2 ≠ g.1.2 := fun h member same =>
      fresh (List.mem_map.2 ⟨h, member, same⟩)
    obtain ⟨l, row⟩ := rows g List.mem_cons_self
    have open_ : p.queueOpen := Part.queueOpen_of_roomFor p (Nat.le_add_left 1 rest.length) room
    rw [List.foldl_cons, Part.giveLane_eq row (near g List.mem_cons_self) open_, ih nodup ?_ ?_ ?_,
      Part.lanesOpened_cons apart]
    · intro h member
      obtain ⟨m, found⟩ := rows h (List.mem_cons_of_mem _ member)
      exact ⟨_, Part.lane_lanesOpened [g] h.1.2 m found⟩
    · exact fun h member => near h (List.mem_cons_of_mem _ member)
    · refine ⟨room.1, ?_⟩
      have few := room.2
      change (List.filter _ (p.sgp.control ++ [_])).length + rest.length ≤ 63
      rw [List.filter_append, List.length_append]
      refine Nat.le_trans (Nat.add_le_add_right (Nat.add_le_add_left (List.length_filter_le _ _) _) _) ?_
      rw [List.length_cons] at few
      rw [List.length_singleton]
      omega

end

/-! ## The entry (R92) -/

/-- The remote survivors of a context with their lanes and their indices in its survivor list (R92). -/
def Context.lentOf (x : Context) (own : Option Survivor) (remotes : List Survivor) : List Lent :=
  (x.lanesOf remotes).zipIdx own.toList.length

/-- What a context enters GATHERING with is what the statements name (R92). -/
theorem Part.lanesOpened_entered (p : Part) (c : Nat) (x : Context) (own : Option Survivor) (remotes : List Survivor) :
    (p.editContext c fun y => y.entered own (x.lanesOf remotes)).lanesOpened c x (x.lentOf own remotes) =
      p.gatheringEntered c x own remotes := by
  have frames : (x.lentOf own remotes).map (p.openFrame x) = (x.lanesOf remotes).map fun g => (some g.1.holder,
      .fetchOpen x.stripe (BitVec.ofNat 8 g.1.position) (fetchTag g.2 ((p.lane g.2).useCount + 1))) := by
    have fst := congrArg (List.map fun g : Survivor × Nat => (some g.1.holder, FrameBody.fetchOpen x.stripe
      (BitVec.ofNat 8 g.1.position) (fetchTag g.2 ((p.lane g.2).useCount + 1))))
      (List.zipIdx_map_fst own.toList.length (x.lanesOf remotes))
    rw [List.map_map] at fst
    exact fst
  have shifted : x.lentOf own remotes = (x.lanesOf remotes).zipIdx.map fun g => (g.1, own.toList.length + g.2) := by
    rw [Context.lentOf, ← Nat.add_zero own.toList.length, ← List.map_snd_add_zipIdx_eq_zipIdx]
    exact List.map_congr_left fun g _ => congrArg (g.1, ·) (Nat.add_comm _ _)
  have table : (p.editContext c fun y => y.entered own (x.lanesOf remotes)).lanesLent c x (x.lentOf own remotes) =
      (p.gatheringEntered c x own remotes).ftu := by
    refine List.map_congr_left fun r _ => ?_
    have found : ((x.lentOf own remotes).find? fun g => g.1.2 == r.1) =
        ((x.lanesOf remotes).zipIdx.find? fun g => g.1.2 == r.1).map fun g => (g.1, own.toList.length + g.2) := by
      rw [shifted, List.find?_map]
      rfl
    rw [found]
    cases (x.lanesOf remotes).zipIdx.find? fun g => g.1.2 == r.1 with
    | none => rfl
    | some g => rfl
  rw [Part.lanesOpened, table]
  have queued := congrArg (fun frames => (p.editContext c fun y => y.entered own (x.lanesOf remotes)).queuedAll frames) frames
  exact congrArg (fun q : Part => { q with ftu := (p.gatheringEntered c x own remotes).ftu }) queued

/-- The part in which the local survivor has attached too, if there is one (R92, R132). -/
def Part.attachedAfter (entered : Part) (p : Part) (c : Nat) (x : Context) : Option Survivor → Part
  | none => entered
  | some v => entered.attachOrWait (p.freshOpener c x v)

/-- The survivors of a context with their indices and sources: the local one first, and then those with lanes (R92). -/
def sourcesOf (own : Option Survivor) (lent : List Lent) : List (Nat × Survivor) :=
  own.toList.map (0, ·) ++ lent.map fun g => (g.2, g.survivor)

section
variable {own : Option Survivor} (local_ : ∀ v, own = some v → v.source = .ownHoldings) (lent : List Lent)
include local_

/-- The survivors that are given lanes (R92). -/
theorem filterMap_sources {f : Nat × Survivor → Option (Nat × Nat × Survivor)}
    (own_ : ∀ i v, v.source = .ownHoldings → f (i, v) = none) (lane : ∀ i v n, v.source = .lane n → f (i, v) = some (n, i, v)) :
    (sourcesOf own lent).filterMap f =
      lent.map fun g => (g.1.2, g.2, g.survivor) := by
  have none_ : (own.toList.map (0, ·)).filterMap f = [] := by
    cases own with
    | none => rfl
    | some v => simp [own_ 0 v (local_ v rfl)]
  have each : (fun g : Lent => f (g.2, g.survivor)) = fun g => some (g.1.2, g.2, g.survivor) :=
    funext fun g => lane _ _ _ rfl
  rw [sourcesOf, List.filterMap_append, none_, List.nil_append, List.filterMap_map]
  exact (congrArg (fun h => lent.filterMap h) each).trans (congrFun List.filterMap_eq_map lent)

/-- The local survivor is the one that is found (R92). -/
theorem find?_sources {f : Nat × Survivor → Bool} (reads : ∀ i v, f (i, v) = (v.source == .ownHoldings)) :
    (sourcesOf own lent).find? f = own.map (0, ·) := by
  have none_ : (lent.map fun g : Lent => (g.2, g.survivor)).find? f = none := by
    refine List.find?_eq_none.2 fun s member => ?_
    obtain ⟨g, -, rfl⟩ := List.mem_map.1 member
    rw [reads]
    exact Bool.false_ne_true
  rw [sourcesOf, List.find?_append, none_, Option.or_none]
  cases own with
  | none => rfl
  | some v => simp [reads, local_ v rfl]

end

section
variable {p : Part} {c : Nat} {x : Context} {survivors : List Survivor} {own : Option Survivor} {remotes : List Survivor}
  (inUse : p.context? c = some x) (listed : x.survivors.getD [] = survivors) (lists : p.ListsSurvivors survivors own remotes)
  (enough : remotes.length ≤ x.reservation.length) (nodup : x.reservation.Nodup)
  (rows : ∀ n ∈ x.reservation, ∃ l, p.ftu.row? n = some l) (room : p.roomFor remotes.length)
include inUse listed lists enough nodup rows room

theorem Part.enterGathering_steps : p.enterGathering c =
    (x.lentOf own remotes).foldl (fun r g => r.reportFailedLane g.1.2)
      ((p.gatheringEntered c x own remotes).attachedAfter p c x own) := by
  have fits : remotes.length ≤ (ascending x.reservation).length := by rwa [length_ascending nodup]
  have sources : assignSources 0 survivors (ascending x.reservation) =
      sourcesOf own (x.lentOf own remotes) := assignSources_lists lists fits
  have listed' : (sourcesOf own (x.lentOf own remotes)).map Prod.snd =
      own.toList ++ (x.lanesOf remotes).map fun g => { g.1 with source := .lane g.2 } := by
    have fst := congrArg (List.map fun g : Survivor × Nat => { g.1 with source := Source.lane g.2 })
      (List.zipIdx_map_fst own.toList.length (x.lanesOf remotes))
    rw [List.map_map] at fst
    rw [sourcesOf, List.map_append, List.map_map, List.map_map]
    exact congrArg₂ (· ++ ·) (List.map_id _) fst
  obtain ⟨a, a_eq⟩ : ∃ a, a = p.editContext c fun y => y.entered own (x.lanesOf remotes) := ⟨_, rfl⟩
  have lanes : (x.lentOf own remotes).foldl (fun r g => r.giveLane g.1.2 c g.2 x (Lent.survivor g)) a =
      p.gatheringEntered c x own remotes := by
    rw [← Part.lanesOpened_entered, ← a_eq]
    have member {g : Lent} (listed : g ∈ x.lentOf own remotes) : g.1.1 ∈ remotes ∧ g.1.2 ∈ x.reservation := by
      have pair : g.1 ∈ x.lanesOf remotes := List.fst_mem_of_mem_zipIdx listed
      have both := List.of_mem_zip pair
      exact ⟨both.1, mem_ascending.1 both.2⟩
    have pairs := List.zipIdx_map_fst own.toList.length (x.lanesOf remotes)
    refine Part.foldl_giveLane ?_ (fun g listed => ?_) (fun g listed => ?_) ?_
    · have seconds : (x.lentOf own remotes).map (fun g => g.1.2) = (x.lanesOf remotes).map Prod.snd := by
        rw [← pairs, List.map_map]
        rfl
      rw [seconds]
      have pairs : x.lanesOf remotes = remotes.zip ((ascending x.reservation).take remotes.length) := by
        have cut := List.zip_eq_zip_take_min (l₁ := remotes) (l₂ := ascending x.reservation)
        rwa [Nat.min_eq_left fits, List.take_length] at cut
      rw [pairs, List.map_snd_zip (by rw [List.length_take]; omega)]
      exact (nodup_ascending _).sublist (List.take_sublist _ _)
    · rw [a_eq]
      exact rows _ (member listed).2
    · rw [a_eq]
      exact (lists.remote _ (member listed).1).2
    · rw [a_eq]
      refine ⟨room.1, ?_⟩
      have count : (x.lentOf own remotes).length = remotes.length := by
        rw [Context.lentOf, List.length_zipIdx, Context.lanesOf, List.length_zip, Nat.min_eq_left fits]
      rw [count]
      exact room.2
  unfold Part.enterGathering
  rw [inUse]
  dsimp only
  rw [listed, sources, listed', filterMap_sources lists.local_, List.foldl_map, List.foldl_map,
    find?_sources lists.local_]
  · rw [a_eq] at lanes
    cases own with
    | none => exact congrArg (fun q => List.foldl (fun (r : Part) (g : Lent) => r.reportFailedLane g.1.2) q _) lanes
    | some v =>
      exact congrArg (fun q : Part => List.foldl (fun (r : Part) (g : Lent) => r.reportFailedLane g.1.2)
        (q.attachOrWait (p.freshOpener c x v)) _) lanes
  · exact fun _ _ => rfl
  · intro i v own_
    simp only [own_]
  · intro i v n lane
    simp only [lane]

end

end Sys2Proof.Machine

/-! What attaching the local survivor leaves of the lanes, and entry to GATHERING as a whole (R92, R132). -/

namespace Sys2Proof.Machine

/-! ## What attaching leaves (R132) -/

/-- A part that differs in what its serve entries, its slots, its host link and its combine engine show, at most. -/
def Part.SameButServed (p q : Part) : Prop := q = { p with svu := q.svu, smc := q.smc, hlk := q.hlk, cbe := q.cbe }

theorem Part.SameButServed.rfl {p : Part} : p.SameButServed p := Eq.refl _

theorem Part.SameButServed.trans {p q r : Part} (one : p.SameButServed q) (two : q.SameButServed r) : p.SameButServed r :=
  Eq.trans two (congrArg (fun q : Part => { q with svu := r.svu, smc := r.smc, hlk := r.hlk, cbe := r.cbe }) one)

theorem Part.sameButServed_addOpener (p : Part) (n : Nat) (o : Opener) : p.SameButServed (p.addOpener n o) := by
  unfold Part.addOpener
  cases p.serve? n with
  | none => exact .rfl
  | some e => exact Eq.refl _

theorem Part.sameButServed_touchServe (p : Part) (n : Nat) : p.SameButServed (p.touchServe n) := by
  unfold Part.touchServe
  cases p.serve? n with
  | none => exact .rfl
  | some e => exact Eq.refl _

theorem Part.sameButServed_postCombine (p : Part) (r : CombineRequest) : p.SameButServed (p.postCombine r) := by
  rw [Part.postCombine_eq]
  split
  · exact Eq.refl _
  · exact Eq.refl _

theorem Part.sameButServed_feed (p : Part) (c : Nat) : p.SameButServed (p.feed c) := by
  unfold Part.feed
  cases p.attachedOpener? c with
  | none => exact .rfl
  | some found =>
    dsimp only
    split
    · exact Part.SameButServed.trans (q := { p with svu := { p.svu with
        combineMarks := insertPosition c p.svu.combineMarks } }) (Eq.refl _) (Part.sameButServed_postCombine _ _)
    · exact .rfl

theorem Part.sameButServed_postReport (p : Part) (r : Report) : p.SameButServed (p.postReport r) := by
  have alone : p.postReport r = { p with hlk := (p.postReport r).hlk } :=
    Part.postReport_of_same (p := p) (q := p) (Eq.refl _) (Eq.refl _) r
  rw [alone]
  exact Eq.refl _

theorem Part.sameButServed_startServe (p : Part) (n slot : Nat) (t : StripeId) (position length : Nat) :
    p.SameButServed (p.startServe n slot t position length) := by
  obtain ⟨a, a_eq⟩ : ∃ a, a = p.entryMade n (newEntry t position length slot p.now []) := ⟨_, Eq.refl _⟩
  have made : p.SameButServed a := by rw [a_eq]; exact Eq.refl _
  have meaning : p.startServe n slot t position length = a.postStageRequest n := by rw [a_eq]; exact Eq.refl _
  rw [meaning]
  refine made.trans ?_
  unfold Part.postStageRequest
  cases a.serve? n with
  | none => exact .rfl
  | some e =>
    dsimp only
    split
    · exact .rfl
    · exact Part.SameButServed.trans (q := Part.editSlot ((a.takeTag .stage).setServe n
        { e with requested := true, tag := some a.hlk.tagCounter }) e.slot
        fun r => { r with right := .write a.hlk.tagCounter }) (Eq.refl _) (Part.sameButServed_postReport _ _)

theorem Part.sameButServed_newServe? {p q : Part} {t : StripeId} {position length n : Nat}
    (made : p.newServe? t position length = some (q, n)) : p.SameButServed q := by
  have evicted (found : Part × Nat) (from_ : p.evict? = some found) : p.SameButServed found.1 := by
    obtain ⟨r, -, rfl⟩ := Option.map_eq_some_iff.1 from_
    exact Eq.refl _
  unfold Part.newServe? at made
  split at made
  · cases made
    exact Part.sameButServed_startServe p _ _ t position length
  · split at made
    · cases made
    · next b slot found =>
      obtain ⟨m, -, pair⟩ := Option.map_eq_some_iff.1 made
      cases pair
      exact (evicted _ found).trans (Part.sameButServed_startServe b _ _ t position length)

/-- An opener that has attached stands in an entry, and nothing but what serves it has changed (R132). -/
theorem Part.sameButServed_attach {p q : Part} {i : InternalOpener} (attached : p.attach i = .attached q) :
    p.SameButServed q := by
  unfold Part.attach at attached
  split at attached
  · cases attached
  · split at attached
    · next n e _ =>
      cases state : e.state with
      | failed cause =>
        rw [state] at attached
        cases attached
      | staged =>
        rw [state] at attached
        dsimp only at attached
        split at attached
        · cases attached
          exact ((p.sameButServed_addOpener n _).trans (Part.sameButServed_touchServe _ n)).trans
            (Part.sameButServed_feed _ _)
        · cases attached
      | staging =>
        rw [state] at attached
        dsimp only at attached
        split at attached
        · cases attached
          exact p.sameButServed_addOpener n _
        · cases attached
    · split at attached
      · next made =>
        cases attached
        exact (Part.sameButServed_newServe? made).trans (Part.sameButServed_addOpener _ _ _)
      · cases attached

/-! ## Lanes after the local survivor has failed (R94, R134) -/

theorem Part.setRecord_rest (p : Part) (n : Nat) (r : HoldingRecord) :
    p.setRecord n r = { p with hdt := (p.setRecord n r).hdt, smc := (p.setRecord n r).smc } := by
  unfold Part.setRecord
  split <;> rfl

/-- The records of a stripe change nothing but the table and the DRAM. -/
theorem Part.updateStripe_rest (p : Part) (t : StripeId) (f : HoldingRecord → HoldingRecord) :
    p.updateStripe t f = { p with hdt := (p.updateStripe t f).hdt, smc := (p.updateStripe t f).smc } := by
  have steps (rows : Table HoldingRecord) (q : Part) : ∃ hdt smc,
      rows.foldl (fun q row => if row.2.stripe = t then q.setRecord row.1 (f row.2) else q) q =
        { q with hdt := hdt, smc := smc } := by
    induction rows generalizing q with
    | nil => exact ⟨_, _, rfl⟩
    | cons r rest ih =>
      obtain ⟨hdt, smc, after⟩ := ih (if r.2.stripe = t then q.setRecord r.1 (f r.2) else q)
      refine ⟨hdt, smc, after.trans ?_⟩
      split
      · rw [Part.setRecord_rest]
      · rfl
  obtain ⟨hdt, smc, after⟩ := steps p.hdt p
  exact (after : p.updateStripe t f = _).trans (by rw [show p.updateStripe t f = _ from after])

theorem Part.laneUse?_abandon {p : Part} {c : Nat} {x : Context} (inUse : p.context? c = some x) (n : Nat)
    (cause : AbandonCause) : (p.abandon c cause).laneUse? n = if n ∈ x.reservation then none else p.laneUse? n := by
  have released := Part.releaseContext_releasedTo inUse
  obtain ⟨q, q_eq⟩ : ∃ q, q = p.releaseContext c := ⟨_, rfl⟩
  rw [← q_eq] at released
  have idle : q.laneUse? n = if n ∈ x.reservation then none else p.laneUse? n := by
    rw [Part.laneUse?, released.lane_eq]
    split <;> rfl
  have ftu : (p.abandon c cause).ftu = q.ftu := by
    have decided : p.abandon c cause = if q.reportPathFull = true then
        q.editContext c fun z => { z with pendingOutcome := some (.abandoned cause) } else q.completeAbandoned c cause := by
      rw [q_eq]
      rfl
    rw [decided]
    split
    · rfl
    · have posted := Part.post_eq q none (.withdraw x.stripe (WithdrawReason.abandoned).code 0xFF#8 (maskOf []))
      rw [Part.completeAbandoned_eq (released.context?_self inUse)]
      obtain ⟨a, a_eq⟩ : ∃ a, a = ((q.withdrawPlain x.stripe .abandoned).removeClaimOf x.stripe).setStanding x.stripe []
          .quiet := ⟨_, rfl⟩
      have before : a.ftu = q.ftu := by
        rw [a_eq, Part.setStanding, Part.updateStripe_rest, Part.removeClaimOf_rest]
        exact (congrArg Part.ftu posted :)
      have after : (a.postReport (.repairAbandoned cause x.stripe)).ftu = a.ftu := by
        rw [Part.postReport_of_same (p := a) (q := a) rfl rfl]
      rw [← before, ← after, a_eq]
      rfl
  rw [Part.laneUse?, Part.lane, ftu]
  exact idle

theorem Part.laneUse?_failLocal {p : Part} {c n : Nat} {x : Context} (g : BitVec 8) (position : Nat)
    (inUse : p.context? c = some x) :
    (p.failLocal c g position).laneUse? n = none ∨ (p.failLocal c g position).laneUse? n = p.laneUse? n := by
  unfold Part.failLocal
  split
  · have row := Part.context?_editContext inUse fun y => { y with unusable := insertPosition position y.unusable }
    have either {q : Part} (uses : q.laneUse? n = if n ∈ x.reservation then none else p.laneUse? n) :
        q.laneUse? n = none ∨ q.laneUse? n = p.laneUse? n := by
      rw [uses]
      split
      · exact .inl rfl
      · exact .inr rfl
    by_cases few : x.rePlans < 8
    · exact either ((Part.rePlan_replans row few none).uses n)
    · rw [show p.markUnusable c position = p.editContext c fun y => { y with
          unusable := insertPosition position y.unusable } from rfl, Part.rePlan_limit row (Nat.not_lt.1 few)]
      exact either (Part.laneUse?_abandon row n _)
  · exact .inr rfl

theorem Part.laneUse?_attachOrWait {p : Part} {n : Nat} {x : Context} (i : InternalOpener)
    (inUse : p.context? i.context = some x) :
    (p.attachOrWait i).laneUse? n = none ∨ (p.attachOrWait i).laneUse? n = p.laneUse? n := by
  unfold Part.attachOrWait
  split
  · next q attached =>
    exact .inr (congrArg (fun q : Part => q.laneUse? n) (Part.sameButServed_attach attached) :)
  · exact .inr rfl
  · exact Part.laneUse?_failLocal _ _ inUse

/-! ## The entry (R92) -/

theorem Part.reportFailedLane_other {p : Part} {n : Nat}
    (works : ∀ u, p.laneUse? n = some u → ∀ cause, u.state ≠ .failed cause) : p.reportFailedLane n = p := by
  cases use : p.laneUse? n with
  | none => simp only [Part.reportFailedLane, use]
  | some u =>
    have other := works u use
    cases state : u.state with
    | failed cause => exact absurd state (other cause)
    | _ => simp only [Part.reportFailedLane, use, state]

section
variable {p : Part} {c : Nat} {x : Context} {survivors : List Survivor} {own : Option Survivor} {remotes : List Survivor}

theorem Part.context?_gatheringEntered (inUse : p.context? c = some x) :
    (p.gatheringEntered c x own remotes).context? c = some (x.entered own (x.lanesOf remotes)) :=
  Part.context?_editContext inUse _

theorem Context.mem_lentOf {g : Lent} (listed : g ∈ x.lentOf own remotes) : g.1.1 ∈ remotes ∧ g.1.2 ∈ x.reservation := by
  have pair : g.1 ∈ x.lanesOf remotes := List.fst_mem_of_mem_zipIdx listed
  have both := List.of_mem_zip pair
  exact ⟨both.1, mem_ascending.1 both.2⟩

/-- The remote survivors of a context get lanes of their own (R92). -/
theorem Context.lentOf_nodup (x : Context) (own : Option Survivor) (remotes : List Survivor) :
    ((x.lentOf own remotes).map fun g => g.1.2).Nodup := by
  have seconds : (x.lentOf own remotes).map (fun g => g.1.2) = (x.lanesOf remotes).map Prod.snd := by
    rw [← List.zipIdx_map_fst own.toList.length (x.lanesOf remotes), List.map_map]
    rfl
  have cut := List.zip_eq_zip_take_min (l₁ := remotes) (l₂ := ascending x.reservation)
  rw [seconds, Context.lanesOf, cut, List.map_snd_zip (by simp only [List.length_take]; omega)]
  exact (nodup_ascending _).sublist (List.take_sublist _ _)

theorem Part.row?_gatheringEntered {g : Lent} (listed : g ∈ x.lentOf own remotes) {l : Lane}
    (row : p.ftu.row? g.1.2 = some l) :
    (p.gatheringEntered c x own remotes).ftu.row? g.1.2 = some (p.lent c x g l) := by
  rw [← Part.lanesOpened_entered, Part.lane_lanesOpened (p := p.editContext c _) _ _ l row]
  have found : ((x.lentOf own remotes).find? fun h => h.1.2 == g.1.2) = some g := by
    cases first : (x.lentOf own remotes).find? fun h => h.1.2 == g.1.2 with
    | none => exact absurd (List.find?_eq_none.1 first g listed) (by simp)
    | some h =>
      have same : h.1.2 = g.1.2 := by simpa using List.find?_some first
      rw [List.inj_on_of_nodup_map (x.lentOf_nodup own remotes) (List.mem_of_find?_eq_some first) listed same]
  rw [found]
  rfl

variable (inUse : p.context? c = some x) (listed : x.survivors.getD [] = survivors)
  (lists : p.ListsSurvivors survivors own remotes) (enough : remotes.length ≤ x.reservation.length)
  (nodup : x.reservation.Nodup) (rows : ∀ n ∈ x.reservation, ∃ l, p.ftu.row? n = some l) (room : p.roomFor remotes.length)
include inUse listed lists enough nodup rows room

/-- Entry to GATHERING: the remote survivors with their lanes, and then the local one (R92). -/
theorem Part.enterGathering_eq :
    p.enterGathering c = (p.gatheringEntered c x own remotes).attachedAfter p c x own := by
  obtain ⟨q, q_eq⟩ : ∃ q, q = (p.gatheringEntered c x own remotes).attachedAfter p c x own := ⟨_, rfl⟩
  rw [Part.enterGathering_steps inUse listed lists enough nodup rows room, ← q_eq]
  have works : ∀ g ∈ x.lentOf own remotes, q.reportFailedLane g.1.2 = q := by
    intro g member
    obtain ⟨l, row⟩ := rows _ (Context.mem_lentOf member).2
    have use : (p.gatheringEntered c x own remotes).laneUse? g.1.2 = some (p.firstUse c g.2 x g.1.1) := by
      rw [Part.laneUse?, Part.lane, Part.row?_gatheringEntered member row]
      rfl
    have after : q.laneUse? g.1.2 = none ∨
        q.laneUse? g.1.2 = (p.gatheringEntered c x own remotes).laneUse? g.1.2 := by
      rw [q_eq]
      cases own with
      | none => exact .inr rfl
      | some v =>
        exact Part.laneUse?_attachOrWait (p.freshOpener c x v) (Part.context?_gatheringEntered inUse)
    refine Part.reportFailedLane_other fun u used cause failed => ?_
    rcases after with none_ | same
    · exact absurd (used.symm.trans none_) nofun
    · rw [same, use] at used
      cases used
      cases failed
  have steps (given : List Lent) (all : ∀ g ∈ given, q.reportFailedLane g.1.2 = q) :
      given.foldl (fun r g => r.reportFailedLane g.1.2) q = q := by
    induction given with
    | nil => rfl
    | cons g rest ih =>
      rw [List.foldl_cons, all g List.mem_cons_self]
      exact ih fun h member => all h (List.mem_cons_of_mem _ member)
  exact steps _ works

end

end Sys2Proof.Machine

/-! What entry to GATHERING leaves of the contexts, whatever it meets on the way (R92, R94, R132). -/

namespace Sys2Proof.Machine

/-! ## A context after an outcome or a re-plan (R95, R102, R103) -/

theorem Part.abandon_ctx {p : Part} {c : Nat} {x : Context} (inUse : p.context? c = some x) (cause : AbandonCause) :
    (∀ d, d ≠ c → (p.abandon c cause).context? d = p.context? d)
      ∧ ∀ y, (p.abandon c cause).context? c = some y → y.pendingOutcome ≠ none := by
  have released := Part.releaseContext_releasedTo inUse
  obtain ⟨q, q_eq⟩ : ∃ q, q = p.releaseContext c := ⟨_, rfl⟩
  rw [← q_eq] at released
  have decided : p.abandon c cause = if q.reportPathFull = true then
      q.editContext c fun z => { z with pendingOutcome := some (.abandoned cause) } else q.completeAbandoned c cause := by
    rw [q_eq]
    rfl
  rw [decided]
  split
  · refine ⟨fun d other => (Part.context?_editContext_other q other _).trans (released.context?_other other),
      fun y row => ?_⟩
    obtain rfl := Option.some.inj ((Part.context?_editContext (released.context?_self inUse) _).symm.trans row)
    exact nofun
  · obtain ⟨a, a_eq⟩ : ∃ a, a = ((q.withdrawPlain x.stripe .abandoned).removeClaimOf x.stripe).setStanding x.stripe []
        .quiet := ⟨_, rfl⟩
    have before : a.ctx = q.ctx := by
      have posted := Part.post_eq q none (.withdraw x.stripe (WithdrawReason.abandoned).code 0xFF#8 (maskOf []))
      rw [a_eq, Part.setStanding, Part.updateStripe_rest, Part.removeClaimOf_rest]
      exact (congrArg Part.ctx posted :)
    have after : q.completeAbandoned c cause = (a.postReport (.repairAbandoned cause x.stripe)).freeContext c := by
      rw [Part.completeAbandoned_eq (released.context?_self inUse), a_eq]
      rfl
    have contexts : (q.completeAbandoned c cause).ctx.contexts = q.ctx.contexts.dropRow c := by
      rw [after, Part.postReport_of_same (p := a) (q := a) rfl rfl, ← before]
      rfl
    refine ⟨fun d other => ?_, fun y row => ?_⟩
    · rw [Part.context?, contexts, Table.row?_dropRow, if_neg other]
      exact released.context?_other other
    · rw [Part.context?, contexts, Table.row?_dropRow, if_pos rfl] at row
      cases row

/-- An entry list in which none lacked a slot and each entry was asked for again lacks none. -/
theorem lacking_asked {l : List LostEntry} {h : LostEntry → LostEntry} (asked : ∀ e : LostEntry, e.AskedFrom (h e))
    (none_ : l.filter LostEntry.lacksSlot = []) : (l.map h).filter LostEntry.lacksSlot = [] := by
  rw [List.filter_eq_nil_iff] at none_ ⊢
  intro f member
  obtain ⟨e, listed, rfl⟩ := List.mem_map.1 member
  have whole := none_ e listed
  intro lacks
  obtain ⟨enabled, slot⟩ := Bool.and_eq_true_iff.1 lacks
  rw [(asked e).enabled] at enabled
  refine whole (Bool.and_eq_true_iff.2 ⟨enabled, ?_⟩)
  cases held : e.slot with
  | none => rfl
  | some j =>
    rw [(asked e).slot (by rw [held]; exact nofun), held] at slot
    exact slot

/-- A context that a re-plan or an outcome has met: it holds no plan, or its outcome is pending (R95, R103). -/
structure Context.Cleared (x y : Context) : Prop where
  idle : y.pendingOutcome ≠ none ∨ y.plan = none
  lacking : y.pendingOutcome = none → x.lacking = [] → y.lacking = []

theorem Part.rePlan_cleared {p : Part} {c : Nat} {x : Context} (inUse : p.context? c = some x) :
    (∀ d, d ≠ c → (p.rePlan c none).context? d = p.context? d)
      ∧ ∀ y, (p.rePlan c none).context? c = some y → x.Cleared y := by
  by_cases few : x.rePlans < 8
  · have plans := Part.rePlan_replans inUse few none
    obtain ⟨h, asked, context⟩ := plans.context
    refine ⟨plans.others, fun y row => ?_⟩
    obtain rfl := Option.some.inj (context.symm.trans row)
    refine ⟨.inr rfl, fun _ full => ?_⟩
    have none_ : x.lostList.filter LostEntry.lacksSlot = [] := List.map_eq_nil_iff.1 full
    exact List.map_eq_nil_iff.2 (lacking_asked asked none_)
  · rw [Part.rePlan_limit inUse (Nat.not_lt.1 few)]
    obtain ⟨others, own⟩ := Part.abandon_ctx inUse .rePlanLimit
    exact ⟨others, fun y row => ⟨.inl (own y row), fun live => absurd live (own y row)⟩⟩

theorem Part.failLocal_cleared {p : Part} {c : Nat} {x : Context} (g : BitVec 8) (position : Nat)
    (inUse : p.context? c = some x) : (∀ d, d ≠ c → (p.failLocal c g position).context? d = p.context? d)
      ∧ ∀ y, (p.failLocal c g position).context? c = some y → y = x ∨ x.Cleared y := by
  unfold Part.failLocal
  split
  · have row := Part.context?_editContext inUse fun y => { y with unusable := insertPosition position y.unusable }
    obtain ⟨others, own⟩ := Part.rePlan_cleared (p := p.markUnusable c position) row
    refine ⟨fun d other => (others d other).trans (Part.context?_editContext_other p other _), fun y row => .inr ?_⟩
    obtain ⟨idle, lacking⟩ := own y row
    exact ⟨idle, lacking⟩
  · exact ⟨fun _ _ => rfl, fun y row => .inl (Option.some.inj (row.symm.trans inUse))⟩

theorem Part.attachOrWait_cleared {p : Part} {x : Context} (i : InternalOpener) (inUse : p.context? i.context = some x) :
    (∀ d, d ≠ i.context → (p.attachOrWait i).context? d = p.context? d)
      ∧ ∀ y, (p.attachOrWait i).context? i.context = some y → y = x ∨ x.Cleared y := by
  unfold Part.attachOrWait
  split
  · next q attached =>
    have same (d : Nat) : q.context? d = p.context? d :=
      (congrArg (fun q : Part => q.context? d) (Part.sameButServed_attach attached) :)
    exact ⟨fun d _ => same d, fun y row => .inl (Option.some.inj (row.symm.trans ((same _).trans inUse)))⟩
  · exact ⟨fun _ _ => rfl, fun y row => .inl (Option.some.inj (row.symm.trans inUse))⟩
  · exact Part.failLocal_cleared _ _ inUse

/-! ## Lanes given (R108) -/

/-- A lane that is not in use, or opens (R106). -/
def Part.opensAt (p : Part) (n : Nat) : Prop := ∀ u, p.laneUse? n = some u → ∃ due, u.state = .opening due

theorem Part.startOpenTimeout_rest (p : Part) (n : Nat) :
    p.startOpenTimeout n = { p with ftu := (p.startOpenTimeout n).ftu } := by
  unfold Part.startOpenTimeout
  split
  · rfl
  · split <;> rfl

theorem Part.startOpenTimeout_opens {p : Part} {n m : Nat} (opens : p.opensAt m) : (p.startOpenTimeout n).opensAt m := by
  unfold Part.startOpenTimeout
  cases use : p.laneUse? n with
  | none => exact opens
  | some u =>
    dsimp only
    cases state : u.state with
    | opening old =>
      intro v used
      by_cases here : m = n
      · rw [here, Part.laneUse?_setUse p n _ u use] at used
        cases used
        exact ⟨_, rfl⟩
      · have other : (p.setUse n { u with state := .opening (some (p.now + p.replyTimeout)) }).laneUse? m =
            p.laneUse? m := by
          rw [Part.laneUse?, Part.laneUse?, Part.lane, Part.lane]
          exact congrArg (fun r => (Option.getD r Lane.reset).use) ((Table.row?_editRow p.ftu m n fun l =>
            { l with use := some { u with state := .opening (some (p.now + p.replyTimeout)) } }).trans (if_neg here))
        exact opens v (other.symm.trans used)
    | _ => exact opens

/-- A lane given to a survivor whose holder is not gone (R108). -/
theorem Part.giveLane_leaves {p : Part} {n c i : Nat} {x : Context} {v : Survivor} (near : p.gone v.holder = false) :
    (∃ sgp ftu, p.giveLane n c i x v = { p with sgp := sgp, ftu := ftu }) ∧ (p.giveLane n c i x v).opensAt n
      ∧ ∀ m, p.opensAt m → (p.giveLane n c i x v).opensAt m := by
  obtain ⟨q, q_eq⟩ : ∃ q, q = p.editLane n (p.lent c x ((v, n), i)) := ⟨_, rfl⟩
  have meaning : p.giveLane n c i x v = q.postOpen n (p.firstUse c i x v) := by
    rw [q_eq]
    exact if_neg (by rw [near]; exact Bool.false_ne_true)
  have row (m : Nat) : q.ftu.row? m = if m = n then (p.ftu.row? m).map (p.lent c x ((v, n), i))
      else p.ftu.row? m := by
    rw [q_eq]
    exact Table.row?_editRow p.ftu m n _
  have mine : q.opensAt n := by
    intro u used
    rw [Part.laneUse?, Part.lane, row, if_pos rfl] at used
    cases held : p.ftu.row? n with
    | none =>
      rw [held] at used
      cases used
    | some l =>
      rw [held] at used
      cases used
      exact ⟨_, rfl⟩
  have others (m : Nat) (opens : p.opensAt m) : q.opensAt m := by
    by_cases here : m = n
    · exact here ▸ mine
    · intro u used
      rw [Part.laneUse?, Part.lane, row, if_neg here] at used
      exact opens u used
  obtain ⟨posted, posted_eq⟩ : ∃ posted, posted = q.post (some (p.firstUse c i x v).server)
      (.fetchOpen (p.firstUse c i x v).stripe (BitVec.ofNat 8 (p.firstUse c i x v).position) (q.laneTag n)) := ⟨_, rfl⟩
  have post_rest : posted = { q with sgp := posted.sgp } := by rw [posted_eq]; exact Part.post_eq _ _ _
  have kept (m : Nat) (opens : q.opensAt m) : posted.opensAt m := by rw [post_rest]; exact opens
  have step : p.giveLane n c i x v = if q.takesControl = true then posted else posted.startOpenTimeout n := by
    rw [meaning, posted_eq]
    rfl
  rw [step]
  split
  · refine ⟨⟨posted.sgp, q.ftu, ?_⟩, kept n mine, fun m opens => kept m (others m opens)⟩
    rw [post_rest, q_eq]
    rfl
  · refine ⟨⟨posted.sgp, (posted.startOpenTimeout n).ftu, ?_⟩, Part.startOpenTimeout_opens (kept n mine),
      fun m opens => Part.startOpenTimeout_opens (kept m (others m opens))⟩
    have timed := (Part.startOpenTimeout_rest posted n).trans
      (congrArg (fun r : Part => { r with ftu := (posted.startOpenTimeout n).ftu }) post_rest)
    exact timed.trans (congrArg (fun r : Part =>
      { r with sgp := posted.sgp, ftu := (posted.startOpenTimeout n).ftu }) q_eq)

theorem Part.foldl_giveLane_leaves {p : Part} (c : Nat) (x : Context) {given : List (Nat × Nat × Survivor)}
    (near : ∀ g ∈ given, p.gone g.2.2.holder = false) :
    (∃ sgp ftu, given.foldl (fun r g => r.giveLane g.1 c g.2.1 x g.2.2) p = { p with sgp := sgp, ftu := ftu })
      ∧ (∀ g ∈ given, (given.foldl (fun r g => r.giveLane g.1 c g.2.1 x g.2.2) p).opensAt g.1)
      ∧ ∀ m, p.opensAt m → (given.foldl (fun r g => r.giveLane g.1 c g.2.1 x g.2.2) p).opensAt m := by
  induction given generalizing p with
  | nil => exact ⟨⟨_, _, rfl⟩, nofun, fun _ opens => opens⟩
  | cons g rest ih =>
    obtain ⟨⟨sgp, ftu, one⟩, mine, kept⟩ := Part.giveLane_leaves (n := g.1) (c := c) (i := g.2.1) (x := x)
      (near g List.mem_cons_self)
    obtain ⟨⟨sgp', ftu', more⟩, all, kept'⟩ := ih (p := p.giveLane g.1 c g.2.1 x g.2.2) fun h member => by
      rw [one]
      exact near h (List.mem_cons_of_mem _ member)
    rw [List.foldl_cons]
    refine ⟨⟨sgp', ftu', ?_⟩, fun h member => ?_, fun m opens => kept' m (kept m opens)⟩
    · rw [more, one]
    · rcases List.mem_cons.1 member with rfl | later
      · exact kept' _ mine
      · exact all h later

/-! ## The entry, whatever it meets (R92) -/

theorem assignSources_mem {k : Nat} {survivors : List Survivor} {lanes : List Nat} {s : Nat × Survivor}
    (member : s ∈ assignSources k survivors lanes) :
    ∃ v ∈ survivors, s.2.holder = v.holder ∧ (s.2.source ≠ .ownHoldings → v.source ≠ .ownHoldings) := by
  induction survivors generalizing k lanes with
  | nil => cases lanes <;> cases member
  | cons v rest ih =>
    have later {j : Nat} {more : List Nat} (listed : s ∈ assignSources j rest more) :
        ∃ u ∈ v :: rest, s.2.holder = u.holder ∧ (s.2.source ≠ .ownHoldings → u.source ≠ .ownHoldings) := by
      obtain ⟨u, there, same⟩ := ih listed
      exact ⟨u, List.mem_cons_of_mem _ there, same⟩
    unfold assignSources at member
    split at member
    · rcases List.mem_cons.1 member with rfl | listed
      · exact ⟨v, List.mem_cons_self, rfl, fun other => other⟩
      · exact later listed
    · next remote =>
      split at member
      · rcases List.mem_cons.1 member with rfl | listed
        · exact ⟨v, List.mem_cons_self, rfl, fun _ => remote⟩
        · exact later listed
      · rcases List.mem_cons.1 member with rfl | listed
        · exact ⟨v, List.mem_cons_self, rfl, fun other => other⟩
        · exact later listed

/-- The holders of the survivors that are given lanes (R92). -/
theorem holders_near {p : Part} {survivors : List Survivor} {lanes : List Nat}
    (near : ∀ v ∈ survivors, v.source ≠ .ownHoldings → p.gone v.holder = false)
    {f : Nat × Survivor → Option (Nat × Nat × Survivor)}
    (lane : ∀ s g, f s = some g → s.2.source ≠ .ownHoldings ∧ g.2.2 = s.2) {g : Nat × Nat × Survivor}
    (member : g ∈ (assignSources 0 survivors lanes).filterMap f) : p.gone g.2.2.holder = false := by
  obtain ⟨s, listed, chosen⟩ := List.mem_filterMap.1 member
  obtain ⟨remote, same⟩ := lane s g chosen
  obtain ⟨v, there, holder, kept⟩ := assignSources_mem listed
  rw [same, holder]
  exact near v there (kept remote)

/-- Lanes that open have nothing to report (R118). -/
theorem Part.foldl_reportFailedLane {p : Part} {given : List (Nat × Nat × Survivor)} (opens : ∀ g ∈ given, p.opensAt g.1) :
    given.foldl (fun r g => r.reportFailedLane g.1) p = p := by
  induction given with
  | nil => rfl
  | cons g rest ih =>
    have here : p.reportFailedLane g.1 = p := by
      refine Part.reportFailedLane_other fun u used cause failed => ?_
      obtain ⟨due, state⟩ := opens g List.mem_cons_self u used
      exact absurd (state.symm.trans failed) nofun
    rw [List.foldl_cons, here]
    exact ih fun h member => opens h (List.mem_cons_of_mem _ member)

section
variable {p : Part} {c : Nat} {x : Context} (inUse : p.context? c = some x) {f : Context → Context}
  (gathers : (f x).state = .gathering) (lostList : (f x).lostList = x.lostList) {given : List (Nat × Nat × Survivor)}
  (near : ∀ g ∈ given, p.gone g.2.2.holder = false)
include inUse gathers lostList near

theorem Part.lanesGiven_context :
    (∀ d, d ≠ c → (given.foldl (fun r g => r.reportFailedLane g.1)
      (given.foldl (fun r g => r.giveLane g.1 c g.2.1 x g.2.2) (p.editContext c f))).context? d = p.context? d)
      ∧ ∀ y, (given.foldl (fun r g => r.reportFailedLane g.1)
        (given.foldl (fun r g => r.giveLane g.1 c g.2.1 x g.2.2) (p.editContext c f))).context? c = some y →
        (y.state = .gathering ∧ y.lostList = x.lostList) ∨ x.Cleared y := by
  obtain ⟨⟨sgp, ftu, rest⟩, opens, -⟩ := Part.foldl_giveLane_leaves (p := p.editContext c f) c x near
  rw [Part.foldl_reportFailedLane opens, rest]
  refine ⟨fun d other => Part.context?_editContext_other p other f, fun y held => .inl ?_⟩
  obtain rfl := Option.some.inj ((Part.context?_editContext inUse f).symm.trans held)
  exact ⟨gathers, lostList⟩

theorem Part.lanesGiven_attached {i : InternalOpener} (mine : i.context = c) :
    (∀ d, d ≠ c → (given.foldl (fun r g => r.reportFailedLane g.1)
      ((given.foldl (fun r g => r.giveLane g.1 c g.2.1 x g.2.2) (p.editContext c f)).attachOrWait i)).context? d =
        p.context? d)
      ∧ ∀ y, (given.foldl (fun r g => r.reportFailedLane g.1)
        ((given.foldl (fun r g => r.giveLane g.1 c g.2.1 x g.2.2) (p.editContext c f)).attachOrWait i)).context? c =
          some y →
        (y.state = .gathering ∧ y.lostList = x.lostList) ∨ x.Cleared y := by
  obtain ⟨⟨sgp, ftu, rest⟩, opens, -⟩ := Part.foldl_giveLane_leaves (p := p.editContext c f) c x near
  obtain ⟨q, q_eq⟩ : ∃ q, q = given.foldl (fun r g => r.giveLane g.1 c g.2.1 x g.2.2) (p.editContext c f) := ⟨_, rfl⟩
  rw [← q_eq] at rest opens ⊢
  have context (d : Nat) : q.context? d = (p.editContext c f).context? d := by rw [rest]; rfl
  have row : q.context? i.context = some (f x) := by rw [mine, context, Part.context?_editContext inUse f]
  have still : ∀ g ∈ given, (q.attachOrWait i).opensAt g.1 := fun g member u used => by
    rcases Part.laneUse?_attachOrWait (n := g.1) i row with none_ | same
    · exact absurd (used.symm.trans none_) nofun
    · exact opens g member u (same.symm.trans used)
  obtain ⟨others, own⟩ := Part.attachOrWait_cleared i row
  rw [mine] at others own
  rw [Part.foldl_reportFailedLane still]
  refine ⟨fun d other => (others d other).trans ((context d).trans (Part.context?_editContext_other p other f)),
    fun y held => ?_⟩
  rcases own y held with rfl | cleared
  · exact .inl ⟨gathers, lostList⟩
  · have lacking : (f x).lacking = x.lacking := by rw [Context.lacking, lostList]; rfl
    exact .inr ⟨cleared.idle, fun live full => cleared.lacking live (lacking.trans full)⟩

end

/-- What an entry to GATHERING leaves of the contexts where no remote survivor is lost (R92). -/
theorem Part.enterGathering_leaves {p : Part} {c : Nat} {x : Context} (inUse : p.context? c = some x)
    (near : ∀ v ∈ x.survivors.getD [], v.source ≠ .ownHoldings → p.gone v.holder = false) :
    (∀ d, d ≠ c → (p.enterGathering c).context? d = p.context? d)
      ∧ ∀ y, (p.enterGathering c).context? c = some y →
        (y.state = .gathering ∧ y.lostList = x.lostList) ∨ x.Cleared y := by
  unfold Part.enterGathering
  rw [inUse]
  dsimp only
  have chosen (lanes : List Nat) {f : Nat × Survivor → Option (Nat × Nat × Survivor)}
    (lane : ∀ s g, f s = some g → s.2.source ≠ .ownHoldings ∧ g.2.2 = s.2) (g : Nat × Nat × Survivor)
    (member : g ∈ (assignSources 0 (x.survivors.getD []) lanes).filterMap f) : p.gone g.2.2.holder = false :=
    holders_near near lane member
  split
  · refine Part.lanesGiven_attached inUse ?_ ?_ (chosen _ fun s g pick => ?_) ?_
    · rfl
    · rfl
    · split at pick
      · next lane =>
        cases pick
        exact ⟨by rw [lane]; exact nofun, rfl⟩
      · cases pick
    · rfl
  · refine Part.lanesGiven_context inUse ?_ ?_ (chosen _ fun s g pick => ?_)
    · rfl
    · rfl
    · split at pick
      · next lane =>
        cases pick
        exact ⟨by rw [lane]; exact nofun, rfl⟩
      · cases pick

end Sys2Proof.Machine

/-! PLAN-DONE (R27, R30, R89, R90), and the commands that bring a context to GATHERING (R88 to R90, R92). -/

namespace Sys2Proof.Machine

/-! ## What an outcome leaves (R101 to R103) -/

/-- An outcome after the release changes the contexts, the claim table, the records and what is posted. -/
theorem Part.abandon_rest {p : Part} {c : Nat} {x : Context} (inUse : p.context? c = some x) (cause : AbandonCause) :
    ∃ ctx clt hdt smc sgp hlk, p.abandon c cause =
      { p.releaseContext c with ctx := ctx, clt := clt, hdt := hdt, smc := smc, sgp := sgp, hlk := hlk } := by
  have released := Part.releaseContext_releasedTo inUse
  obtain ⟨q, q_eq⟩ : ∃ q, q = p.releaseContext c := ⟨_, rfl⟩
  rw [← q_eq] at released ⊢
  have decided : p.abandon c cause = if q.reportPathFull = true then
      q.editContext c fun z => { z with pendingOutcome := some (.abandoned cause) } else q.completeAbandoned c cause := by
    rw [q_eq]
    rfl
  rw [decided]
  split
  · exact ⟨_, _, _, _, _, _, rfl⟩
  · obtain ⟨a, a_eq⟩ : ∃ a, a = (q.withdrawPlain x.stripe .abandoned).removeClaimOf x.stripe := ⟨_, rfl⟩
    obtain ⟨sgp, clt, before⟩ : ∃ sgp clt, a = { q with sgp := sgp, clt := clt } := by
      have posted : q.withdrawPlain x.stripe .abandoned = { q with sgp := (q.withdrawPlain x.stripe .abandoned).sgp } :=
        Part.post_eq q none (.withdraw x.stripe (WithdrawReason.abandoned).code 0xFF#8 (maskOf []))
      rw [a_eq]
      exact ⟨_, _, (Part.removeClaimOf_rest _ _).trans (congrArg (fun r : Part =>
        { r with clt := ((q.withdrawPlain x.stripe .abandoned).removeClaimOf x.stripe).clt }) posted)⟩
    obtain ⟨b, b_eq⟩ : ∃ b, b = a.setStanding x.stripe [] .quiet := ⟨_, rfl⟩
    have standing : b = { a with hdt := b.hdt, smc := b.smc } := by
      rw [b_eq]
      exact Part.updateStripe_rest a x.stripe _
    have completed : q.completeAbandoned c cause = (b.postReport (.repairAbandoned cause x.stripe)).freeContext c := by
      rw [Part.completeAbandoned_eq (released.context?_self inUse), b_eq, a_eq]
      rfl
    rw [completed, Part.postReport_of_same (p := b) (q := b) rfl rfl, standing, before]
    exact ⟨_, _, _, _, _, _, rfl⟩

theorem Part.abandon_kept {p : Part} {c : Nat} {x : Context} (inUse : p.context? c = some x) (cause : AbandonCause)
    {α : Type} (g : Part → α) (beside : ∀ (q : Part) ctx clt hdt smc sgp hlk svu ftu,
      g { q with ctx := ctx, clt := clt, hdt := hdt, smc := smc, sgp := sgp, hlk := hlk, svu := svu, ftu := ftu } = g q) :
    g (p.abandon c cause) = g ((p.tellPlanUnit c).tellVerifyUnit c) := by
  have released := (Part.releaseContext_releasedTo inUse).rest
  obtain ⟨ctx, clt, hdt, smc, sgp, hlk, rest⟩ := Part.abandon_rest inUse cause
  rw [rest, released, Part.lanesGiven_rest]
  exact beside ((p.tellPlanUnit c).tellVerifyUnit c) ctx clt hdt smc sgp hlk _ _

/-! ## The plan written (R30, R89) -/

theorem Part.freeLanes_eq (p : Part) (lanes : List Nat) : p.freeLanes lanes =
    { p with ftu := p.ftu.map fun r => if r.1 ∈ lanes then (r.1, { r.2 with holder := none }) else r } := by
  induction lanes generalizing p with
  | nil => simp [Part.freeLanes]
  | cons n rest ih =>
    refine (ih (p.editLane n fun l => { l with holder := none })).trans ?_
    refine congrArg (fun t => { p with ftu := t }) (List.map_map.trans (List.map_congr_left fun r _ => ?_))
    by_cases here : r.1 = n <;> by_cases there : r.1 ∈ rest <;> simp [here, there]

/-- A context with the survivors and the plan of a job (R30, R89). -/
def PlanJob.written (j : PlanJob) (y : Context) : Context :=
  { y with
    survivors := some j.survivors
    plan := some (decodePlan j.geometry (j.survivors.map Survivor.position) j.lost) }

section
variable {p : Part} {j : PlanJob} (job : p.plu.job = some j)
include job

theorem Part.endPlan_void (void : j.void = true) : p.endPlan = { p with plu := { p.plu with job := none } } := by
  simp only [Part.endPlan, job, void, Bool.not_true, Bool.false_and, Bool.false_eq_true, if_false]
  split <;> rfl

variable {x : Context} (valid : j.void = false) (inUse : p.context? j.context = some x) (live : x.pendingOutcome = none)
  (state : x.state = .planning)
include valid inUse live state

theorem Part.endPlan_valid : p.endPlan = Part.takePlan { p with plu := { p.plu with job := none } } j := by
  have row : Part.context? { p with plu := { p.plu with job := none } } j.context = some x := inUse
  simp only [Part.endPlan, job, row, valid, Context.live, live, state]
  rfl

/-- PLAN-DONE where the holder of a remote survivor has become LOST or ABSENT (R89). -/
theorem Part.endPlan_lost (lost : ∃ v ∈ j.survivors, v.source ≠ .ownHoldings ∧ p.gone v.holder = true) : p.endPlan =
    (Part.editContext { p with plu := { p.plu with job := none } } j.context j.written).rePlan j.context none := by
  obtain ⟨v, listed, remote, gone⟩ := lost
  rw [Part.endPlan_valid job valid inUse live state]
  refine if_pos (List.any_eq_true.2 ⟨v, List.mem_filter.2 ⟨listed, ?_⟩, gone⟩)
  simpa using remote

variable {needed : Nat} (needed_eq : needed = (j.survivors.filter fun v => v.source != .ownHoldings).length)
include needed_eq

/-- PLAN-DONE where no holder is lost: the plan written, and the context served (R89, R90). -/
theorem Part.endPlan_served (near : ∀ v ∈ j.survivors, v.source ≠ .ownHoldings → p.gone v.holder = false) : p.endPlan =
    ((p.planTaken j x needed []).serveContext j.context).tryGather j.context := by
  obtain ⟨a, a_eq⟩ : ∃ a : Part, a = { p with plu := { p.plu with job := none } } := ⟨_, rfl⟩
  have noneGone : ((j.survivors.filter fun v => v.source != .ownHoldings).any fun v => a.gone v.holder) = false := by
    rw [List.any_eq_false]
    intro v member
    obtain ⟨listed, remote⟩ := List.mem_filter.1 member
    have here : a.gone v.holder = false := by
      rw [a_eq]
      exact near v listed (by simpa using remote)
    rw [here]
    exact Bool.false_ne_true
  have row : a.context? j.context = some x := by rw [a_eq]; exact inUse
  have taken : a.takePlan j = ((((a.editContext j.context j.written).editContext j.context fun y =>
      { y with deadline := .absent }).returnSurplus j.context needed).serveContext j.context).tryGather j.context := by
    rw [needed_eq]
    exact if_neg (by rw [noneGone]; exact Bool.false_ne_true)
  rw [Part.endPlan_valid job valid inUse live state, ← a_eq, taken]
  have read := Part.context?_editContext (Part.context?_editContext row j.written) fun y => { y with deadline := .absent }
  have surplus : ((a.editContext j.context j.written).editContext j.context fun y =>
      { y with deadline := .absent }).returnSurplus j.context needed = p.planTaken j x needed [] := by
    simp only [Part.returnSurplus, read, Part.freeLanes_eq]
    have edits := ((Table.editRow_editRow (p.ctx.contexts.editRow j.context j.written) j.context
      (fun y => { y with deadline := .absent }) fun y =>
        { y with reservation := (ascending x.reservation).take needed })).trans
      (Table.editRow_editRow p.ctx.contexts j.context j.written _)
    have contexts : (((p.ctx.contexts.editRow j.context j.written).editRow j.context fun y =>
        { y with deadline := .absent }).editRow j.context fun y =>
        { y with reservation := (ascending x.reservation).take needed }) =
        p.ctx.contexts.editRow j.context fun z => z.planWritten j ((ascending x.reservation).take needed ++ []) := by
      rw [edits, List.append_nil]
      rfl
    have table : (p.ftu.map fun r =>
        if r.1 ∈ (ascending x.reservation).drop needed then (r.1, { r.2 with holder := none }) else r) =
        p.ftu.map fun r =>
          if r.1 ∈ (ascending x.reservation).drop needed then (r.1, { r.2 with holder := none })
          else if r.1 ∈ ([] : List Nat) then (r.1, { r.2 with holder := some j.context })
          else r :=
      List.map_congr_left fun r _ => by simp only [List.not_mem_nil, if_false]
    rw [a_eq]
    exact congrArg₂ (fun contexts ftu => { p with
      plu := { p.plu with job := none }, ctx := { p.ctx with contexts := contexts }, ftu := ftu }) contexts table
  rw [surplus]

end

/-! ## A context that may gather (R89, R90) -/

theorem Part.gone_of_prs {p q : Part} (prs : q.prs = p.prs) (n : Nat) : q.gone n = p.gone n := by
  rw [Part.gone, Part.gone, Part.peerState?, Part.peerState?, Part.peer?, Part.peer?, prs]

theorem Part.tryGather_stays {p : Part} {c : Nat}
    (stays : ∀ y, p.context? c = some y → y.mayGather = false) : p.tryGather c = p := by
  cases inUse : p.context? c with
  | none => simp only [Part.tryGather, inUse]
  | some y => simp only [Part.tryGather, inUse, stays y inUse, Bool.false_eq_true, if_false]

theorem Context.Cleared.mayGather {x y : Context} (h : x.Cleared y) : y.mayGather = false := by
  rcases h.idle with pending | plan
  · simp [Context.mayGather, Context.live, pending]
  · simp [Context.mayGather, plan]

section
variable {p : Part} {c : Nat} {x : Context} (inUse : p.context? c = some x)
  (near : ∀ v ∈ x.survivors.getD [], v.source ≠ .ownHoldings → p.gone v.holder = false)
include inUse near

theorem Part.tryGather_others (d : Nat) (other : d ≠ c) : (p.tryGather c).context? d = p.context? d := by
  simp only [Part.tryGather, inUse]
  split
  · exact (Part.enterGathering_leaves inUse near).1 d other
  · rfl

/-- A context that has entered GATHERING does not enter it again (R92). -/
theorem Part.tryGather_again : (p.tryGather c).tryGather c = p.tryGather c := by
  by_cases may : x.mayGather = true
  · have entered : p.tryGather c = p.enterGathering c := by simp only [Part.tryGather, inUse, may, if_true]
    refine Part.tryGather_stays fun y held => ?_
    rw [entered] at held
    rcases (Part.enterGathering_leaves inUse near).2 y held with ⟨gathers, -⟩ | cleared
    · simp [Context.mayGather, gathers]
    · exact cleared.mayGather
  · have stays : p.tryGather c = p := by simp only [Part.tryGather, inUse, may, if_false, Bool.false_eq_true]
    rw [stays, stays]

end

/-- A context has been tried for entry to GATHERING in a part that shows its survivors, the roster and the other contexts as
they were. -/
def Part.TriesGather (b q : Part) (c : Nat) (x : Context) : Prop :=
  ∃ (a : Part) (y : Context), q = a.tryGather c ∧ a.context? c = some y ∧ y.survivors = x.survivors ∧ a.prs = b.prs
    ∧ ∀ d, d ≠ c → a.context? d = b.context? d

/-- A waiting context is served with nothing, or with all that it lacks (R90). -/
theorem Part.serveContext_cases {b : Part} {c : Nat} {x : Context} (inUse : b.context? c = some x) :
    b.serveContext c = b ∨ b.TriesGather (b.serveContext c) c x := by
  have given {q : Part} (slots : List Nat) (granted : b.Unbinds q) : b.TriesGather (q.giveLacking c x slots) c x := by
    obtain ⟨lanes, lanes_eq⟩ : ∃ lanes, lanes = q.poolLanes.take x.lanesLacking := ⟨_, rfl⟩
    obtain ⟨r, r_eq⟩ : ∃ r, r = Part.editContext { q with ftu := lanesHeld q.ftu c lanes } c (Context.givenLanes lanes) :=
      ⟨_, rfl⟩
    obtain ⟨h, -, asked⟩ := Part.Asks.foldl (c := c) (fun r ps => r.asks_giveSlot c ps) r (x.lacking.zip slots)
    obtain ⟨a, a_eq⟩ : ∃ a, a = (x.lacking.zip slots).foldl (fun r ps => r.giveSlot c ps) r := ⟨_, rfl⟩
    rw [← a_eq] at asked
    have context (d : Nat) : q.context? d = b.context? d := (congrArg (fun q : Part => q.context? d) granted.rest :)
    have row : r.context? c = some (x.givenLanes lanes) := by
      rw [r_eq]
      exact Part.context?_editContext (p := { q with ftu := lanesHeld q.ftu c lanes }) ((context c).trans inUse) _
    refine ⟨a, _, ?_, (congrArg (fun q : Part => q.context? c) asked.rest :).trans (Part.context?_editContext row _), rfl,
      ?_, fun d other => ?_⟩
    · rw [a_eq, r_eq, lanes_eq, Part.giveLacking, Part.reserveLanes_eq]
      rfl
    · refine (congrArg Part.prs asked.rest :).trans ?_
      rw [r_eq]
      exact (congrArg Part.prs granted.rest :)
    · refine (congrArg (fun q : Part => q.context? d) asked.rest :).trans ?_
      refine (Part.context?_editContext_other r other _).trans ?_
      rw [r_eq]
      exact (Part.context?_editContext_other { q with ftu := lanesHeld q.ftu c lanes } other _).trans (context d)
  simp only [Part.serveContext, inUse]
  split
  · split
    · exact .inr (given [] .rfl)
    · split
      · exact .inl rfl
      · next q slots granted => exact .inr (given slots (Part.unbinds_grantSlots? granted))
  · exact .inl rfl

/-! ## PLAN-DONE as the service of the context (R89, R90) -/

section
variable {p : Part} {j : PlanJob} {x : Context} {needed : Nat} (given : List Nat)

theorem Part.context?_planTaken (inUse : p.context? j.context = some x) : (p.planTaken j x needed given).context? j.context =
    some (x.planWritten j ((ascending x.reservation).take needed ++ given)) :=
  Part.context?_editContext (p := { p with
      plu := { p.plu with job := none }
      ftu := p.ftu.map fun r =>
        if r.1 ∈ (ascending x.reservation).drop needed then (r.1, { r.2 with holder := none })
        else if r.1 ∈ given then (r.1, { r.2 with holder := some j.context })
        else r }) inUse _

theorem Part.context?_planTaken_other {d : Nat} (other : d ≠ j.context) :
    (p.planTaken j x needed given).context? d = p.context? d :=
  Part.context?_editContext_other _ other _

variable (needed_eq : needed = (j.survivors.filter fun v => v.source != .ownHoldings).length)
include needed_eq

theorem Context.remotes_planWritten (lanes : List Nat) : (x.planWritten j lanes).remotes.length = needed := by
  rw [needed_eq]
  rfl

variable (state : x.state = .planning) (nodup : x.reservation.Nodup)
include state nodup

/-- A context whose plan has been written lacks the lanes that its reservation is short of (R89). -/
theorem Context.lanesLacking_planWritten :
    (x.planWritten j ((ascending x.reservation).take needed ++ [])).lanesLacking = needed - x.reservation.length := by
  have lanes : ((ascending x.reservation).take needed ++ ([] : List Nat)).length = min needed x.reservation.length := by
    rw [List.append_nil, List.length_take, length_ascending nodup]
  have meaning : (x.planWritten j ((ascending x.reservation).take needed ++ [])).lanesLacking =
      (x.planWritten j ((ascending x.reservation).take needed ++ [])).remotes.length
        - ((ascending x.reservation).take needed ++ ([] : List Nat)).length := if_pos ⟨state, rfl⟩
  rw [meaning, Context.remotes_planWritten needed_eq, lanes]
  omega

omit state in
/-- A context with a plan may not gather while it lacks lanes, or slots for entries that are not READY (R89, R90). -/
theorem Context.mayGather_planWritten (lacks : x.lacking ≠ [] ∨ x.reservation.length < needed)
    (unready : ∀ e ∈ x.lostList, e.lacksSlot = true → e.fill ≠ .ready) :
    (x.planWritten j ((ascending x.reservation).take needed ++ [])).mayGather = false := by
  rcases lacks with some_ | short
  · have waits : (x.planWritten j ((ascending x.reservation).take needed ++ [])).allReady = false := by
      obtain ⟨i, member⟩ := List.exists_mem_of_ne_nil _ some_
      obtain ⟨e, listed, -⟩ := List.mem_map.1 member
      obtain ⟨entry, lacking⟩ := List.mem_filter.1 listed
      exact Context.allReady_false.2 ⟨e, entry, (Bool.and_eq_true_iff.1 lacking).1, unready e entry lacking⟩
    simp only [Context.mayGather, waits, Bool.and_false]
  · have lanes : ((ascending x.reservation).take needed ++ ([] : List Nat)).length < needed := by
      rw [List.append_nil, List.length_take, length_ascending nodup]
      omega
    have fewer : decide ((x.planWritten j ((ascending x.reservation).take needed ++ [])).remotes.length
        ≤ (x.planWritten j ((ascending x.reservation).take needed ++ [])).reservation.length) = false := by
      rw [Context.remotes_planWritten needed_eq]
      exact decide_eq_false (Nat.not_le.2 lanes)
    simp only [Context.mayGather, fewer, Bool.and_false, Bool.false_and]

end

end Sys2Proof.Machine

/-! PLAN-DONE settled (R27, R30, R89, R90, R94, R95). -/

namespace Sys2Proof.Machine

section
variable {p : Part} {j : PlanJob} (job : p.plu.job = some j) {x : Context} (valid : j.void = false)
  (inUse : p.context? j.context = some x) (live : x.pendingOutcome = none) (state : x.state = .planning) {needed : Nat}
  (needed_eq : needed = (j.survivors.filter fun v => v.source != .ownHoldings).length)
  (near : ∀ v ∈ j.survivors, v.source ≠ .ownHoldings → p.gone v.holder = false)
include job valid inUse live state needed_eq near

section
variable (nodup : x.reservation.Nodup)
include nodup

/-- PLAN-DONE for a context that lacks nothing but fills (R89). -/
theorem Part.endPlan_enough (enough : needed ≤ x.reservation.length) (full : x.lacking = []) :
    p.endPlan = (p.planTaken j x needed []).tryGather j.context := by
  have row := Part.context?_planTaken (needed := needed) [] inUse
  have calm : (x.planWritten j ((ascending x.reservation).take needed ++ [])).waits = false := by
    rw [Context.waits, Context.lanesLacking_planWritten needed_eq state nodup,
      show (x.planWritten j ((ascending x.reservation).take needed ++ [])).lacking = [] from full]
    simp [Nat.sub_eq_zero_of_le enough]
  rw [Part.endPlan_served job valid inUse live state needed_eq near, Part.serveContext_calm row calm]

/-- PLAN-DONE for a context that lacks lanes, which the free pool has (R90). -/
theorem Part.endPlan_givenLanes {given : List Nat} (short : x.reservation.length < needed)
    (pool : needed ≤ x.reservation.length + p.poolLanes.length) (full : x.lacking = [])
    (given_eq : given = p.poolLanes.take (needed - x.reservation.length)) :
    p.endPlan = ((p.planTaken j x needed given).tryGather j.context).tryGather j.context := by
  have row := Part.context?_planTaken (needed := needed) [] inUse
  have lacking := Context.lanesLacking_planWritten needed_eq state nodup
  have none_ : (ascending x.reservation).drop needed = [] :=
    List.drop_eq_nil_of_le (by rw [length_ascending nodup]; omega)
  have table (lanes : List Nat) : (p.planTaken j x needed lanes).ftu = lanesHeld p.ftu j.context lanes := by
    refine List.map_congr_left fun r _ => ?_
    simp only [none_, List.not_mem_nil, if_false]
  have free : (p.planTaken j x needed []).poolLanes = p.poolLanes := by
    rw [Part.poolLanes, table, lanesHeld_nil]
    rfl
  rw [Part.endPlan_served job valid inUse live state needed_eq near,
    Part.serveContext_lanes row live full (by rw [lacking]; omega) (by rw [lacking, free]; omega), lacking, free, ← given_eq]
  have same : Part.editContext { p.planTaken j x needed [] with
      ftu := lanesHeld (p.planTaken j x needed []).ftu j.context given } j.context (Context.givenLanes given) =
      p.planTaken j x needed given := by
    have contexts := Table.editRow_editRow p.ctx.contexts j.context
      (fun z => z.planWritten j ((ascending x.reservation).take needed ++ [])) (Context.givenLanes given)
    have ftu : lanesHeld (p.planTaken j x needed []).ftu j.context given = (p.planTaken j x needed given).ftu := by
      rw [table, table, lanesHeld_nil]
    have written : (fun z : Context =>
        (z.planWritten j ((ascending x.reservation).take needed ++ [])).givenLanes given) =
        fun z => z.planWritten j ((ascending x.reservation).take needed ++ given) := by
      funext z
      rw [List.append_nil]
      rfl
    rw [written] at contexts
    rw [ftu]
    exact congrArg (fun contexts => { p.planTaken j x needed given with
      ctx := { p.ctx with contexts := contexts } }) contexts
  rw [same]

/-- PLAN-DONE for a context that lacks more lanes than the free pool has (R90). -/
theorem Part.endPlan_fewLanes (few : x.reservation.length + p.poolLanes.length < needed) :
    p.endPlan = p.planTaken j x needed [] := by
  have row := Part.context?_planTaken (needed := needed) [] inUse
  have none_ : (ascending x.reservation).drop needed = [] :=
    List.drop_eq_nil_of_le (by rw [length_ascending nodup]; omega)
  have table : (p.planTaken j x needed []).ftu = p.ftu := by
    refine (List.map_congr_left fun r _ => ?_).trans (List.map_id p.ftu)
    simp only [none_, List.not_mem_nil, if_false, id]
  have free : (p.planTaken j x needed []).poolLanes = p.poolLanes := by rw [Part.poolLanes, table]; rfl
  have stays := Part.serveContext_cannot row (.inl (by
    rw [free, Context.lanesLacking_planWritten needed_eq state nodup]
    omega))
  rw [Part.endPlan_served job valid inUse live state needed_eq near, stays]
  refine Part.tryGather_stays fun y held => ?_
  obtain rfl := Option.some.inj (row.symm.trans held)
  have lanes : ((ascending x.reservation).take needed ++ ([] : List Nat)).length < needed := by
    rw [List.append_nil, List.length_take, length_ascending nodup]
    omega
  have fewer : decide ((x.planWritten j ((ascending x.reservation).take needed ++ [])).remotes.length
      ≤ (x.planWritten j ((ascending x.reservation).take needed ++ [])).reservation.length) = false := by
    rw [Context.remotes_planWritten needed_eq]
    exact decide_eq_false (Nat.not_le.2 lanes)
  simp only [Context.mayGather, fewer, Bool.and_false, Bool.false_and]

/-- PLAN-DONE for a context that lacks slots or lanes is the service of waiting contexts, where no other waits (R90). -/
theorem Part.endPlan_waits (lacks : x.lacking ≠ [] ∨ x.reservation.length < needed)
    (unready : ∀ e ∈ x.lostList, e.lacksSlot = true → e.fill ≠ .ready) (rising : p.ctx.contexts.rising = true)
    (others : ∀ r ∈ p.ctx.contexts, r.1 ≠ j.context → r.2.waits = false) : p.endPlan =
      (p.planTaken j x needed []).ctx.contexts.numbers.foldl Part.serveContext (p.planTaken j x needed []) := by
  obtain ⟨b, b_eq⟩ : ∃ b, b = p.planTaken j x needed [] := ⟨_, rfl⟩
  have row : b.context? j.context = some (x.planWritten j ((ascending x.reservation).take needed ++ [])) := by
    rw [b_eq]
    exact Part.context?_planTaken (needed := needed) [] inUse
  have may := Context.mayGather_planWritten needed_eq nodup lacks unready
  have near' : ∀ v ∈ j.survivors, v.source ≠ .ownHoldings → b.gone v.holder = false := by rw [b_eq]; exact near
  have calm {d : Nat} (other : d ≠ j.context) {y : Context} (held : b.context? d = some y) : y.waits = false := by
    rw [b_eq, Part.context?_planTaken_other [] other] at held
    exact others (d, y) (Table.row?_mem held) other
  have leaves : (∀ d, d ≠ j.context → (b.serveContext j.context).context? d = b.context? d)
      ∧ (b.serveContext j.context).tryGather j.context = b.serveContext j.context := by
    rcases Part.serveContext_cases row with same | ⟨a, y, served, held, survivors, prs, apart⟩
    · rw [same]
      refine ⟨fun _ _ => rfl, Part.tryGather_stays fun y held => ?_⟩
      obtain rfl := Option.some.inj (row.symm.trans held)
      exact may
    · have present : ∀ v ∈ y.survivors.getD [], v.source ≠ .ownHoldings → a.gone v.holder = false := by
        rw [survivors]
        exact fun v listed remote => (Part.gone_of_prs prs v.holder).trans (near' v listed remote)
      rw [served]
      exact ⟨fun d other => (Part.tryGather_others held present d other).trans (apart d other),
        Part.tryGather_again held present⟩
  have ordered : b.ctx.contexts.rising = true := by
    rw [b_eq]
    exact (Table.rising_editRow p.ctx.contexts j.context fun z =>
      z.planWritten j ((ascending x.reservation).take needed ++ [])).trans rising
  have all := Part.foldl_serveContext_one ordered
    ((Table.row?_isSome_iff _ _).1 (Option.isSome_iff_exists.2 ⟨_, row⟩)) rfl
    (fun d other => Part.serveContext_stays fun y held => .inl (calm other held))
    fun d other => Part.serveContext_stays fun y held => .inl (calm other ((leaves.1 d other).symm.trans held))
  rw [Part.endPlan_served job valid inUse live state needed_eq near, ← b_eq, all]
  exact leaves.2

end

end

theorem planDone_runs (w : List Instr) (p : Part) : exec .planDone ⟨w, p⟩ = run ⟨w, p⟩ Part.endPlan := rfl

/-- Settles O50. -/
theorem planJobsEnd : Obligations.PlanJobsEnd := by
  intro w p j job
  have ends {q : Part} (effect : p.endPlan = q) : Answers .planDone ⟨w, p⟩ q :=
    answers_of_effect (planDone_runs w p) (congrArg Part.unmarked effect)
  refine ⟨fun void => ends (Part.endPlan_void job void), fun x needed valid inUse live state needed_eq =>
    ⟨fun near nodup => ⟨fun enough full unready => ends ?_, fun given short pool full unready given_eq => ends ?_,
      fun few => ends (Part.endPlan_fewLanes job valid inUse live state needed_eq near nodup few),
      fun lacks unready rising others q served => ?_⟩, fun lost => ?_⟩⟩
  · rw [Part.endPlan_enough job valid inUse live state needed_eq near nodup enough full]
    exact Part.tryGather_notReady (Part.context?_planTaken [] inUse) unready
  · rw [Part.endPlan_givenLanes job valid inUse live state needed_eq near nodup short pool full given_eq]
    have stays : (p.planTaken j x needed given).tryGather j.context = p.planTaken j x needed given :=
      Part.tryGather_notReady (Part.context?_planTaken given inUse) unready
    rw [stays, stays]
  · obtain ⟨t, next, -, shown⟩ := served
    have runs : exec .waitingContextServed ⟨w, p.planTaken j x needed []⟩ =
        run ⟨w, p.planTaken j x needed []⟩ fun p => p.ctx.contexts.numbers.foldl Part.serveContext p := rfl
    obtain rfl := Host.Outcome.next.inj (runs.symm.trans next)
    refine answers_of_effect (planDone_runs w p) (Eq.trans ?_ ((Part.unmarked_markStatus _ _).symm.trans shown))
    exact congrArg Part.unmarked
      (Part.endPlan_waits job valid inUse live state needed_eq near nodup lacks unready rising others)
  · obtain ⟨a, a_eq⟩ : ∃ a : Part, a = { p with plu := { p.plu with job := none } } := ⟨_, rfl⟩
    have row : (a.editContext j.context j.written).context? j.context = some (j.written x) := by
      rw [a_eq]
      exact Part.context?_editContext (p := { p with plu := { p.plu with job := none } }) inUse _
    have effect : p.endPlan = (a.editContext j.context j.written).rePlan j.context none := by
      rw [a_eq]
      exact Part.endPlan_lost job valid inUse live state lost
    refine ⟨fun plain few => ends ?_, fun few => ?_, fun many rising => ?_⟩
    · rw [effect, Part.rePlan_plain row plain.lanes (by rw [a_eq]; exact plain.openers) (by rw [a_eq]; exact plain.rising)
        (by rw [a_eq]; exact ⟨plain.room.1, Nat.le_trans (Nat.le_succ _) plain.room.2⟩) few plain.granted plain.slots]
      have contexts := Table.editRow_editRow a.ctx.contexts j.context j.written fun y =>
        { y with
          state := .planning
          rePlans := y.rePlans + 1
          unusable := y.unusable
          survivors := none
          plan := none
          contributions := List.replicate y.chunkCount []
          chunksComplete := 0
          deadline := .absent
          lostList := y.lostList.map fun e =>
            if e.enabled = true ∧ e.slot ≠ none then { e with fill := .filling } else e }
      rw [← a_eq]
      exact congrArg (fun contexts => { a.rePlanned j.context x none with
        ctx := { contexts := contexts, generations := a.ctx.generations.setRow j.context (a.generation j.context + 1) } })
        contexts
    · refine leads_of_effect (planDone_runs w p) ?_ fun _ _ h => h
      have plans := Part.rePlan_replans row few none
      have idle := plans.idle
      obtain ⟨⟨h, -, context⟩, -, generation, plu, -, rest, -, -⟩ := plans
      rw [← effect] at context generation plu idle rest
      refine ⟨⟨_, context, rfl, rfl, rfl, rfl, rfl, rfl, rfl, rfl, rfl⟩, ?_, ?_, ?_, idle, ?_, ?_, ?_⟩
      · rw [generation, a_eq]
        rfl
      · rw [plu]
        exact List.mem_append_right _ List.mem_cons_self
      · rw [plu, a_eq]
        rfl
      · exact (congrArg Part.clt rest :).trans (by rw [a_eq]; rfl)
      · exact (congrArg Part.hdt rest :).trans (by rw [a_eq]; rfl)
      · exact (congrArg Part.prs rest :).trans (by rw [a_eq]; rfl)
    · refine leads_of_effect (planDone_runs w p) ?_ fun _ _ h => h
      dsimp only
      rw [effect, Part.rePlan_limit row many]
      refine ⟨Part.abandon_abandoned row rfl rfl (fun d other => ?_) (by rw [a_eq]; rfl) (by rw [a_eq]; rfl)
        (by rw [a_eq]; rfl) (by rw [a_eq]; exact .rfl) (fun room => ?_) rising _, ?_⟩
      · rw [a_eq]
        exact Part.context?_editContext_other _ other _
      · rw [a_eq]
        exact ⟨room.1, Nat.le_trans (Nat.le_succ _) room.2⟩
      · have kept := Part.abandon_kept row .rePlanLimit (fun q => q.plu.job) fun _ _ _ _ _ _ _ _ _ => rfl
        rw [kept, a_eq]
        rfl

end Sys2Proof.Machine

/-! The entry to GATHERING by PLAN-DONE, of a context whose reservation lists a lane twice (R89, R92). -/

namespace Sys2Proof.Machine

open Tests in
/-- The part of the tests in which a plan job of two remote survivors ends, the context's reservation listing lane 0 twice:
no lane is lacking by the reservation's length, but the lanes it names are one. -/
def lentTwice : Part := planEnding [0, 0] .ready false

open Tests in
/-- The context of that part. -/
def twiceLent : Context := contextA .planning [lostEntry (some 0) .ready .none_ none] [0, 0]

open Tests in
/-- The plan job of that part. -/
def twiceJob : PlanJob := planJob false

/-- The context after PLAN-DONE, as the statement has it: one lane for two survivors. -/
def twiceWritten : Context := twiceLent.planWritten twiceJob ([0] ++ [])

theorem lentTwice_gathersBy : lentTwice.gathersBy .planDone (lentTwice.planTaken twiceJob twiceLent 2 []) 0 twiceWritten
    twiceJob.survivors 2 :=
  ⟨twiceLent, rfl, rfl, rfl,
    .inl ⟨twiceJob, [], rfl, rfl, rfl, rfl, rfl, by decide, by decide, rfl, by decide +kernel, rfl, rfl⟩⟩

theorem lentTwice_listsSurvivors : lentTwice.ListsSurvivors twiceJob.survivors none twiceJob.survivors :=
  ⟨rfl, nofun, by decide +kernel⟩

theorem lentTwice_lanes : ∀ n ∈ twiceWritten.reservation, ∃ l, lentTwice.ftu.row? n = some l := by
  intro n member
  have zero : n = 0 := List.mem_singleton.1 member
  rw [zero]
  exact Option.isSome_iff_exists.1 (by decide +kernel)

/-- PLAN-DONE gives the context a second lane, since its one lane does not do (R89, R90). -/
theorem lentTwice_served : (lentTwice.endPlan.context? 0).map Context.reservation = some [0, 2] := by
  decide +kernel

theorem lentTwice_entered : (((lentTwice.planTaken twiceJob twiceLent 2 []).gatheringEntered 0 twiceWritten none
    twiceJob.survivors).context? 0).map Context.reservation = some [0] := by
  decide +kernel

/-- What PLAN-DONE answers shows the contexts that its end leaves. -/
theorem planDone_shows {w : List Instr} {p q : Part} (answer : Answers .planDone ⟨w, p⟩ q) (c : Nat) :
    p.endPlan.context? c = q.context? c := by
  obtain ⟨t, next, -, shown⟩ := answer
  obtain rfl := Host.Outcome.next.inj ((planDone_runs w p).symm.trans next)
  have same : p.endPlan.unmarked = q.unmarked := (Part.unmarked_markStatus _ _).symm.trans shown
  exact (congrArg (fun q : Part => q.context? c) same :)

/-- Refutes O51: the statement does not say that the reservation of the context names its lanes once. PLAN-DONE keeps
each lane once (R89), so that a reservation of lane 0 twice is one lane, and a context of two remote survivors is given a
second one, where the statement has it gather with one. -/
theorem not_gatheringOpensLanes : ¬ Obligations.GatheringOpensLanes := by
  intro h
  have all := h [] lentTwice _ _ .planDone 0 twiceWritten twiceJob.survivors none twiceJob.survivors lentTwice_gathersBy
    lentTwice_listsSurvivors (by decide) lentTwice_lanes (by decide +kernel) rfl
  have lanes := congrArg (Option.map Context.reservation) (planDone_shows (all.1 rfl) 0)
  have differ := (lentTwice_served.symm.trans lanes).trans lentTwice_entered
  exact absurd differ (by decide)

end Sys2Proof.Machine

/-! Lane failures and changed loss sets at a context (R82, R94 to R97). -/

namespace Sys2Proof.Machine

/-! ## A lane failure at a context that gathers (R94, R95) -/

section
variable {w : List Instr} {p : Part} {i : Instr} {n : Nat} {u : LaneUse} {x : Context} (fails : LaneFails w p i n u x)
  (live : x.pendingOutcome = none) (state : x.state = .gathering) (current : p.generation u.context = u.generation)
include fails live state current

theorem LaneFails.rePlans (few : x.rePlans < 8) : Leads i ⟨w, p⟩ fun q => p.replanShown q u.context u.position x := by
  obtain ⟨f, base, v, cause, meaning, effect, kept, use, context, generation, position, fails⟩ := fails
  rw [← context] at fails current
  rw [← generation] at current
  have shown := fails.rePlans use live state current kept few
  rw [context, position, ← effect] at shown
  exact leads_of_effect meaning shown fun _ _ h => h

theorem LaneFails.abandons (many : 8 ≤ x.rePlans) (rising : p.hdt.rising = true) :
    Leads i ⟨w, p⟩ fun q => p.abandoned q u.context x .rePlanLimit := by
  obtain ⟨f, base, v, cause, meaning, effect, kept, use, context, generation, position, fails⟩ := fails
  rw [← context] at fails current
  rw [← generation] at current
  have shown := fails.abandons use live state current kept many rising
  rw [context, ← effect] at shown
  exact leads_of_effect meaning shown fun _ _ h => h

end

/-! ## A changed loss set found by a visit (R82, R96, R97) -/

/-- A claim entry and its stripe with another loss set (R82). -/
def Part.lossWritten (p : Part) (t : StripeId) (n : Nat) (e : ClaimEntry) (loss : Positions) : Part :=
  (p.setClaim n { e with lost := loss }).setLost t loss

section
variable {p : Part} {t : StripeId} {loss : Positions} {n c : Nat} {e : ClaimEntry} {x : Context}
  (entry : p.claimOf? t = some (n, e)) (rising : p.hdt.rising = true)

/-- The part that the statements name, with the images of the changed records apart (R10, R82). -/
theorem Part.lossWritten_imaged {changed : Part} (rising : p.hdt.rising = true)
    (changed_eq : changed = { p with
      clt := { p.clt with entries := p.clt.entries.setRow n { e with lost := loss } }
      hdt := p.hdt.map (changeStripe t fun h => { h with lost := loss }) }) :
    p.Imaged (p.lossWritten t n e loss) changed := by
  rw [changed_eq]
  exact Part.Imaged.updateStripe (r := p.setClaim n { e with lost := loss }) t (fun h => { h with lost := loss }) rising rfl
    rfl rfl

include entry in
/-- A loss-changed event with 1 to m losses at a stripe with a context (R82). -/
theorem Part.lossChanged?_context (some_ : loss ≠ []) (few : loss.length ≤ p.parityOf t)
    (serves : p.contextOf? t = some (c, x)) :
    p.lossChanged? t loss = some ((p.lossWritten t n e loss).changeContextLoss c loss) := by
  have kept := Part.updateStripe_rest (p.setClaim n { e with lost := loss }) t fun r => { r with lost := loss }
  have context : (p.lossWritten t n e loss).contextOf? t = some (c, x) :=
    (congrArg (fun q : Part => q.contextOf? t) kept :).trans serves
  have nonempty : loss.isEmpty = false := by simpa using some_
  simp only [Part.lossChanged?, entry, Nat.not_lt.2 few, if_false, nonempty, Bool.false_eq_true]
  rw [← Part.lossWritten, context]

end

/-! ## What the changed records show (R5, R8) -/

/-- A change of the stripe-level fields that leaves the stripe and the digests leaves the expected digests (R5). -/
theorem Part.expectedDigest?_changed {p q : Part} {t : StripeId} {f : HoldingRecord → HoldingRecord}
    (changed : q.hdt = p.hdt.map (changeStripe t f)) (stripe : ∀ r, (f r).stripe = r.stripe)
    (digests : ∀ r, (f r).digests = r.digests) (s : StripeId) (position : Nat) :
    q.expectedDigest? s position = p.expectedDigest? s position := by
  have each (r : Nat × HoldingRecord) : (changeStripe t f r).2.stripe = r.2.stripe
      ∧ (changeStripe t f r).2.digests = r.2.digests := by
    unfold changeStripe
    split
    · exact ⟨stripe _, digests _⟩
    · exact ⟨rfl, rfl⟩
  rw [Part.expectedDigest?, Part.expectedDigest?, Part.recordsOf, Part.recordsOf, changed]
  refine congrArg List.head? ?_
  generalize p.hdt = rows
  induction rows with
  | nil => rfl
  | cons r rest ih =>
    simp only [List.map_cons, List.filter_cons, (each r).1]
    split
    · rw [List.filterMap_cons, List.filterMap_cons, ih, (each r).2]
    · exact ih

section
variable (p : Part) (t : StripeId) (n : Nat) (e : ClaimEntry) (loss : Positions)

theorem Part.lossWritten_rest : p.lossWritten t n e loss =
    { p with
      clt := { p.clt with entries := p.clt.entries.setRow n { e with lost := loss } }
      hdt := (p.lossWritten t n e loss).hdt
      smc := (p.lossWritten t n e loss).smc } :=
  Part.updateStripe_rest (p.setClaim n { e with lost := loss }) t fun h => { h with lost := loss }

end

/-! ## What a context makes of a changed loss set (R96, R97) -/

section
variable {p : Part} {c : Nat} {x : Context} {loss : Positions} (inUse : p.context? c = some x) (live : x.pendingOutcome = none)
include inUse live

theorem Part.changeContextLoss_late (late : x.state = .verifying ∨ x.state = .delivering) :
    p.changeContextLoss c loss = p := by
  rcases late with state | state <;> simp [Part.changeContextLoss, inUse, Context.live, live, state]

section
variable (grown : ∃ i ∈ loss, i ∉ x.enabledPositions)
include grown

theorem Part.changeContextLoss_grows (state : x.state = .planning ∨ x.state = .planWait ∨ x.state = .gathering) :
    p.changeContextLoss c loss = p.rePlan c (some loss) := by
  have growth : (loss.any fun position => !x.enabledPositions.contains position) = true := by
    simpa [List.any_eq_true] using grown
  simp only [Part.changeContextLoss, inUse, Context.live, live, growth]
  rcases state with state | state | state <;> rw [state] <;> rfl

theorem Part.changeContextLoss_growsAdmitting (state : x.state = .admitting) :
    p.changeContextLoss c loss = (p.rebuildLostList c loss).askSlots c := by
  have growth : (loss.any fun position => !x.enabledPositions.contains position) = true := by
    simpa [List.any_eq_true] using grown
  simp only [Part.changeContextLoss, inUse, Context.live, live, growth, state]
  rfl

end

/-- Shrink in a state in which the context has a lost list that counts (R97). -/
theorem Part.changeContextLoss_shrinks (within : ∀ i ∈ loss, i ∈ x.enabledPositions)
    (fewer : ∃ i ∈ x.enabledPositions, i ∉ loss)
    (state : x.state = .admitting ∨ x.state = .planning ∨ x.state = .planWait ∨ x.state = .gathering) :
    p.changeContextLoss c loss = p.shrinkContext c loss := by
  have growth : (loss.any fun position => !x.enabledPositions.contains position) = false := by
    simpa [List.any_eq_false] using within
  have shrink : (x.enabledPositions.any fun position => !loss.contains position) = true := by
    simpa [List.any_eq_true] using fewer
  simp only [Part.changeContextLoss, inUse, Context.live, live, growth, shrink]
  rcases state with state | state | state | state <;> rw [state] <;> rfl

end

/-! ## Growth (R96) -/

/-- The lost list rebuilt has an enabled entry for each member, in order (R96). -/
theorem Context.relisted_positions (x : Context) (loss : Positions) :
    (x.relisted (some loss)).map LostEntry.position = loss
      ∧ ∀ e ∈ x.relisted (some loss), e.enabled = true := by
  have each (i : Nat) : ((x.lostList.find? fun e => e.enabled && e.position == i).getD (LostEntry.fresh i)).position = i
      ∧ ((x.lostList.find? fun e => e.enabled && e.position == i).getD (LostEntry.fresh i)).enabled = true := by
    cases found : x.lostList.find? fun e => e.enabled && e.position == i with
    | none => exact ⟨rfl, rfl⟩
    | some e =>
      have chosen := List.find?_some found
      obtain ⟨enabled, position⟩ := Bool.and_eq_true_iff.1 chosen
      exact ⟨by simpa using position, enabled⟩
  refine ⟨?_, fun e member => ?_⟩
  · refine List.map_map.trans ((List.map_congr_left fun i _ => (each i).1).trans (List.map_id loss))
  · obtain ⟨i, -, rfl⟩ := List.mem_map.1 member
    exact (each i).2

/-- An enabled entry that stays keeps its place in the lost list (R96). -/
theorem Context.mem_relisted {x : Context} {loss : Positions} (distinct : (x.lostList.map LostEntry.position).Nodup)
    {f : LostEntry} (member : f ∈ x.lostList) (enabled : f.enabled = true) (kept : f.position ∈ loss) :
    f ∈ x.relisted (some loss) := by
  refine List.mem_map.2 ⟨f.position, kept, ?_⟩
  cases found : x.lostList.find? fun e => e.enabled && e.position == f.position with
  | none => exact absurd (List.find?_eq_none.1 found f member) (by simp [enabled])
  | some e =>
    have chosen := List.find?_some found
    obtain ⟨-, position⟩ := Bool.and_eq_true_iff.1 chosen
    exact List.inj_on_of_nodup_map distinct (List.mem_of_find?_eq_some found) member (by simpa using position)

/-- What growth makes of the lost list, where slots are then asked for (R96). -/
theorem Context.grown_lostList {x : Context} {loss : Positions} (distinct : (x.lostList.map LostEntry.position).Nodup)
    {h : LostEntry → LostEntry} (asked : ∀ e : LostEntry, e.AskedFrom (h e)) :
    ((x.relisted (some loss)).map h).map LostEntry.position = loss
      ∧ (∀ f ∈ (x.relisted (some loss)).map h, f.enabled = true)
      ∧ ∀ f ∈ x.lostList, f.enabled = true → f.position ∈ loss → f.slot ≠ none →
        ∃ g ∈ (x.relisted (some loss)).map h, g.position = f.position ∧ g.slot = f.slot := by
  obtain ⟨positions, all⟩ := x.relisted_positions loss
  refine ⟨?_, fun f member => ?_, fun f member enabled kept held =>
    ⟨h f, List.mem_map_of_mem (Context.mem_relisted distinct member enabled kept), (asked f).position, (asked f).slot held⟩⟩
  · rw [List.map_map]
    exact (List.map_congr_left fun e _ => (asked e).position).trans positions
  · obtain ⟨e, listed, rfl⟩ := List.mem_map.1 member
    exact (asked e).enabled.trans (all e listed)

/-- Growth of a context that is admitted: its lost list rebuilt, and its slots asked for (R96). -/
theorem Part.rebuildLostList_asks {p : Part} {c : Nat} {x : Context} (inUse : p.context? c = some x) (loss : Positions) :
    ∃ h : LostEntry → LostEntry, (∀ e : LostEntry, e.AskedFrom (h e))
      ∧ (p.editContext c fun y => { y with lostList := (y.relisted (some loss)).map h }).Unbinds
        ((p.rebuildLostList c loss).askSlots c) := by
  obtain ⟨h, asked, asks⟩ := (p.rebuildLostList c loss).asks_askSlots c
  refine ⟨h, asked, ?_⟩
  have rebuilt : (p.editContext c fun y => { y with lostList := y.relisted (some loss) }).Unbinds
      (p.rebuildLostList c loss) := by
    simp only [Part.rebuildLostList, inUse]
    exact Part.unbinds_giveUpSlots _ _
  have whole := (rebuilt.editContext c (Context.mapLost h)).trans asks
  rw [p.editContext_editContext] at whole
  exact whole

/-! ## Shrink (R97) -/

/-- The lost list without the entries of the positions that have returned (R97). -/
def Context.shrunkTo (x : Context) (loss : Positions) : Context :=
  { x with
    lostList := x.lostList.map fun e =>
      if e.enabled && !loss.contains e.position then { e with enabled := false, slot := none } else e }

/-- The part in which a context's returned positions have given up their slots (R97). -/
theorem Part.shrinkContext_eq {p : Part} {c : Nat} {x : Context} (inUse : p.context? c = some x) (loss : Positions) :
    p.shrinkContext c loss = (((p.editContext c fun y => y.shrunkTo loss).giveUpSlots
      ((x.lostList.filter fun e => e.enabled && !loss.contains e.position).filterMap LostEntry.slot)).advance c) := by
  simp only [Part.shrinkContext, inUse]
  rfl

theorem Part.slot?_settleSlot (p : Part) (i j : Nat) : (p.settleSlot i).slot? j = p.slot? j ∨ (p.settleSlot i).slot? j = none := by
  unfold Part.settleSlot
  split
  · exact .inl rfl
  · split
    · rw [Part.slot?]
      by_cases here : j = i
      · exact .inr ((Table.row?_dropRow _ _ _).trans (if_pos here))
      · exact .inl ((Table.row?_dropRow _ _ _).trans (if_neg here))
    · exact .inl rfl

/-- A slot without its owner (R152). -/
def Slot.ownerless (r : Slot) : Slot := { r with owner := none, right := .none_ }

/-- The part in which the owner of a slot has given it up, the slot not yet settled (R152). -/
def Part.slotLeft (p : Part) (i : Nat) : Part :=
  { p with smc := { p.smc with
    slots := p.smc.slots.editRow i Slot.ownerless
    fillQueue := p.smc.fillQueue.filter fun f => f.slot != i } }

theorem Part.giveUpSlot_eq (p : Part) (i : Nat) : p.giveUpSlot i = (p.slotLeft i).settleSlot i := rfl

theorem Part.slot?_slotLeft (p : Part) (i j : Nat) :
    (p.slotLeft i).slot? j = if j = i then (p.slot? j).map Slot.ownerless else p.slot? j :=
  Table.row?_editRow p.smc.slots j i Slot.ownerless

theorem Part.slot?_giveUpSlot_none {p : Part} {j : Nat} (none_ : p.slot? j = none) (i : Nat) :
    (p.giveUpSlot i).slot? j = none := by
  have before : (p.slotLeft i).slot? j = none := by
    rw [Part.slot?_slotLeft, none_]
    split <;> rfl
  rw [Part.giveUpSlot_eq]
  exact ((p.slotLeft i).slot?_settleSlot i j).elim (fun same => same.trans before) id

theorem Part.slot?_giveUpSlots_none {p : Part} {j : Nat} (none_ : p.slot? j = none) (slots : List Nat) :
    (p.giveUpSlots slots).slot? j = none := by
  induction slots generalizing p with
  | nil => exact none_
  | cons i rest ih => exact ih (Part.slot?_giveUpSlot_none none_ i)

theorem Part.settleSlot_rest (p : Part) (i : Nat) :
    p.settleSlot i = { p with smc := { p.smc with slots := (p.settleSlot i).smc.slots } } := by
  unfold Part.settleSlot
  split
  · rfl
  · split <;> rfl

/-- A slot that nothing holds is FREE once it is given up (R151, R152). -/
theorem Part.slot?_giveUpSlots {p : Part} {j : Nat} {slots : List Nat} (member : j ∈ slots)
    (unfilled : p.smc.fill.map FillRequest.slot ≠ some j) (loose : p.slotHeld j = false)
    (quiet : ∀ s, p.slot? j = some s → s.queuedChunks = 0) : (p.giveUpSlots slots).slot? j = none := by
  induction slots generalizing p with
  | nil => cases member
  | cons i rest ih =>
    change (((p.slotLeft i).settleSlot i).giveUpSlots rest).slot? j = none
    by_cases here : j = i
    · refine Part.slot?_giveUpSlots_none ?_ rest
      subst here
      have read := p.slot?_slotLeft j j
      rw [if_pos rfl] at read
      cases slot : p.slot? j with
      | none =>
        rw [slot] at read
        exact ((p.slotLeft j).slot?_settleSlot j j).elim (fun same => same.trans read) id
      | some s =>
        rw [slot] at read
        have frees : (p.slotLeft j).settleSlot j = { p.slotLeft j with
            smc := { (p.slotLeft j).smc with slots := (p.slotLeft j).smc.slots.dropRow j } } := by
          simp only [Part.settleSlot, read, Option.map_some]
          exact if_pos ⟨rfl, unfilled, loose, quiet s slot⟩
        rw [frees]
        exact (Table.row?_dropRow _ _ _).trans (if_pos rfl)
    · have later : j ∈ rest := (List.mem_cons.1 member).resolve_left here
      have rest_ := (p.slotLeft i).settleSlot_rest i
      refine ih later (by rw [rest_]; exact unfilled) (by rw [rest_]; exact loose) fun s slot => ?_
      rcases (p.slotLeft i).slot?_settleSlot i j with same | none_
      · rw [same, Part.slot?_slotLeft, if_neg here] at slot
        exact quiet s slot
      · exact absurd (slot.symm.trans none_) nofun

end Sys2Proof.Machine

/-! A scan visit that finds another loss set at a stripe with a context (R56, R82, R96, R97), and entry to GATHERING as the
statements show it (R92). -/

namespace Sys2Proof.Machine

/-! ## Entry to GATHERING as it is shown (R92, R132) -/

theorem Part.addOpener_member {p : Part} {n : Nat} {e : ServeEntry} (row : p.serve? n = some e) (o : Opener) :
    ∃ f, (p.addOpener n o).serve? n = some f ∧ o ∈ f.openers := by
  rw [Part.addOpener_eq row]
  exact ⟨_, Table.row?_setRow_self _ _ _, List.mem_append_right _ List.mem_cons_self⟩

theorem Part.touchServe_member {p : Part} {n : Nat} {o : Opener}
    (attached : ∃ f, p.serve? n = some f ∧ o ∈ f.openers) : ∃ f, (p.touchServe n).serve? n = some f ∧ o ∈ f.openers := by
  obtain ⟨f, row, member⟩ := attached
  simp only [Part.touchServe, row]
  exact ⟨_, Table.row?_setRow_self _ _ _, member⟩

theorem Part.feed_entries (p : Part) (c : Nat) : (p.feed c).svu.entries = p.svu.entries := by
  unfold Part.feed
  cases p.attachedOpener? c with
  | none => rfl
  | some found =>
    dsimp only
    split
    · rw [Part.postCombine_eq]
      split <;> rfl
    · rfl

theorem Part.startServe_row (p : Part) (n slot : Nat) (t : StripeId) (position length : Nat) :
    ∃ e, (p.startServe n slot t position length).serve? n = some e := by
  obtain ⟨a, a_eq⟩ : ∃ a, a = p.entryMade n (newEntry t position length slot p.now []) := ⟨_, rfl⟩
  have row : a.serve? n = some (newEntry t position length slot p.now []) := by
    rw [a_eq]
    exact Table.row?_setRow_self _ _ _
  have meaning : p.startServe n slot t position length = a.postStageRequest n := by rw [a_eq]; rfl
  rw [meaning]
  simp only [Part.postStageRequest, row]
  split
  · exact ⟨_, row⟩
  · obtain ⟨b, b_eq⟩ : ∃ b, b = Part.editSlot ((a.takeTag .stage).setServe n
        { newEntry t position length slot p.now [] with requested := true, tag := some a.hlk.tagCounter })
        (newEntry t position length slot p.now []).slot fun r => { r with right := .write a.hlk.tagCounter } := ⟨_, rfl⟩
    rw [← b_eq, Part.postReport_of_same (p := b) (q := b) rfl rfl, b_eq]
    exact ⟨_, Table.row?_setRow_self _ _ _⟩

theorem Part.attach_member {p q : Part} {i : InternalOpener} (attached : p.attach i = .attached q) :
    ∃ r ∈ q.svu.entries, .internal i ∈ r.2.openers := by
  have listed {a : Part} {n : Nat} (held : ∃ f, a.serve? n = some f ∧ .internal i ∈ f.openers) :
      ∃ r ∈ a.svu.entries, .internal i ∈ r.2.openers := by
    obtain ⟨f, row, member⟩ := held
    exact ⟨(n, f), Table.row?_mem row, member⟩
  unfold Part.attach at attached
  split at attached
  · cases attached
  · split at attached
    · next n e serves =>
      obtain ⟨e', row⟩ : ∃ e', p.serve? n = some e' := by
        have member : n ∈ p.svu.entries.map Prod.fst := List.mem_map_of_mem (List.mem_of_find?_eq_some serves)
        exact Option.isSome_iff_exists.1 ((Table.row?_isSome_iff _ _).2 member)
      have added := Part.addOpener_member row (.internal i)
      cases state : e.state with
      | failed cause =>
        rw [state] at attached
        cases attached
      | staged =>
        rw [state] at attached
        dsimp only at attached
        split at attached
        · cases attached
          rw [Part.feed_entries]
          exact listed (Part.touchServe_member added)
        · cases attached
      | staging =>
        rw [state] at attached
        dsimp only at attached
        split at attached
        · cases attached
          exact listed added
        · cases attached
    · split at attached
      · next b n made =>
        cases attached
        have row : ∃ e, b.serve? n = some e := by
          unfold Part.newServe? at made
          split at made
          · cases made
            exact Part.startServe_row _ _ _ _ _ _
          · split at made
            · cases made
            · obtain ⟨m, -, pair⟩ := Option.map_eq_some_iff.1 made
              cases pair
              exact Part.startServe_row _ _ _ _ _ _
        obtain ⟨e, row⟩ := row
        exact listed (Part.addOpener_member row (.internal i))
      · cases attached

/-- An opener that does not fail attaches or waits (R132). -/
theorem Part.attachOrWait_holds {p : Part} {i : InternalOpener} (fit : p.attach i ≠ .failed) :
    p.SameButServed (p.attachOrWait i)
      ∧ (i ∈ (p.attachOrWait i).svu.waiting ∨ ∃ r ∈ (p.attachOrWait i).svu.entries, .internal i ∈ r.2.openers) := by
  unfold Part.attachOrWait
  split
  · next q attached => exact ⟨Part.sameButServed_attach attached, .inr (Part.attach_member attached)⟩
  · exact ⟨rfl, .inl (List.mem_append_right _ List.mem_cons_self)⟩
  · next failed => exact absurd failed fit

theorem Part.attach_fits {p : Part} {i : InternalOpener} (held : (p.recordOf? i.stripe i.position).isSome = true)
    (sound : ∀ k f cause, p.serveOf? i.stripe i.position = some (k, f) → f.state ≠ .failed cause) :
    p.attach i ≠ .failed := by
  obtain ⟨record, found⟩ := Option.isSome_iff_exists.1 held
  intro failed
  unfold Part.attach at failed
  rw [found] at failed
  dsimp only at failed
  split at failed
  · next n e serves =>
    have state := fun cause => sound n e cause serves
    split at failed
    · exact absurd ‹_› (state _)
    · split at failed <;> cases failed
    · split at failed <;> cases failed
  · split at failed <;> cases failed

section
variable {p : Part} {c : Nat} {x : Context} {survivors : List Survivor} {own : Option Survivor} {remotes : List Survivor}
  (inUse : p.context? c = some x) (listed : x.survivors.getD [] = survivors) (lists : p.ListsSurvivors survivors own remotes)
  (enough : remotes.length ≤ x.reservation.length) (nodup : x.reservation.Nodup)
  (rows : ∀ n ∈ x.reservation, ∃ l, p.ftu.row? n = some l) (room : p.roomFor remotes.length)
  (fits : ∀ v, own = some v → (p.recordOf? x.stripe v.position).isSome = true
    ∧ ∀ k f cause, p.serveOf? x.stripe v.position = some (k, f) → f.state ≠ .failed cause)
include inUse listed lists enough nodup rows room fits

/-- A context that enters GATHERING, its local survivor sound, gathers as the statements show it, and nothing but what
serves it changes besides the entry (R92). -/
theorem Part.enterGathering_gathersIn : p.gathersIn (p.enterGathering c) c x own remotes
    ∧ (p.gatheringEntered c x own remotes).SameButServed (p.enterGathering c) := by
  have entered := Part.enterGathering_eq inUse listed lists enough nodup rows room
  have holds : (p.gatheringEntered c x own remotes).SameButServed (p.enterGathering c)
      ∧ ∀ v, own = some v → p.freshOpener c x v ∈ (p.enterGathering c).svu.waiting
        ∨ ∃ r ∈ (p.enterGathering c).svu.entries, .internal (p.freshOpener c x v) ∈ r.2.openers := by
    rw [entered]
    cases own with
    | none => exact ⟨rfl, nofun⟩
    | some v =>
      obtain ⟨held, sound⟩ := fits v rfl
      obtain ⟨same, opener⟩ := Part.attachOrWait_holds (p := p.gatheringEntered c x (some v) remotes)
        (i := p.freshOpener c x v) (Part.attach_fits held sound)
      refine ⟨same, ?_⟩
      rintro _ ⟨⟩
      exact opener
  obtain ⟨same, opener⟩ := holds
  refine ⟨⟨?_, fun v n i given => ?_, opener⟩, same⟩
  · exact (congrArg (fun q : Part => q.context? c) same :).trans (Part.context?_gatheringEntered inUse)
  · have member : ((v, n), own.toList.length + i) ∈ x.lentOf own remotes := by
      rw [Context.lentOf, List.mk_mem_zipIdx_iff_le_and_getElem?_sub]
      exact ⟨Nat.le_add_right _ _, by rw [Nat.add_sub_cancel_left]; exact given⟩
    obtain ⟨l, row⟩ := rows n (Context.mem_lentOf member).2
    have read := Part.row?_gatheringEntered (c := c) member row
    have lane : (p.enterGathering c).lane n = p.lent c x ((v, n), own.toList.length + i) l := by
      refine (congrArg (fun q : Part => q.lane n) same :).trans ?_
      exact congrArg (fun l => Option.getD l Lane.reset) read
    refine ⟨?_, ?_, ?_⟩
    · rw [Part.laneUse?, lane]
      rfl
    · rw [lane, Part.lane, row]
      rfl
    · have control : (p.enterGathering c).sgp = (p.gatheringEntered c x own remotes).sgp := (congrArg Part.sgp same :)
      rw [control]
      exact List.mem_append_right _ (List.mem_map.2 ⟨_, List.mem_map.2 ⟨(v, n), List.mem_of_getElem? given, rfl⟩, rfl⟩)

end

end Sys2Proof.Machine

/-! What a lane failure and a changed loss set make of a context, settled (R82, R94 to R97). -/

namespace Sys2Proof.Machine

theorem Part.gathersIn_of_same {p b q : Part} {c : Nat} {x : Context} {own : Option Survivor} {remotes : List Survivor}
    (h : b.gathersIn q c x own remotes) (ftu : b.ftu = p.ftu) (prs : b.prs = p.prs) (generation : b.generation c = p.generation c)
    (digests : ∀ position, b.expectedDigest? x.stripe position = p.expectedDigest? x.stripe position) :
    p.gathersIn q c x own remotes := by
  have lane (n : Nat) : b.lane n = p.lane n := by rw [Part.lane, ftu]; rfl
  have use (i : Nat) (v : Survivor) : b.firstUse c i x v = p.firstUse c i x v := by
    rw [Part.firstUse, Part.firstUse, generation, digests]
  have opener (v : Survivor) : b.freshOpener c x v = p.freshOpener c x v := by
    rw [Part.freshOpener, Part.freshOpener, generation]
  simpa only [Part.gathersIn, lane, use, opener, prs] using h

section
variable {w : List Instr} {p : Part} {t : StripeId} {r r0 : HoldingRecord} {n c : Nat} {e : ClaimEntry} {x : Context}
  {loss : Positions}

/-- The part that a visit leaves which finds another loss set at a stripe with a context (R56, R82). -/
def Part.lossVisited (p : Part) (t : StripeId) (n : Nat) (e : ClaimEntry) (loss : Positions) (c : Nat) : Part :=
  ((p.lossWritten t n e loss).changeContextLoss c loss).visited t

variable (running : p.hlk.phase = .running)
  (due : p.scn.pass = .walking ∨ (p.scn.pass = .blocked ∧ p.scn.placeFreed = true))
  (row : p.hdt.row? p.scn.cursor = some r) (stripe : t = r.stripe) (unmet : t ∉ p.scn.met)
  (record : p.firstRecord? t = some r0) (standing : r0.standing = .claiming) (found : loss = p.lossSet t)
  (other : loss ≠ r0.lost) (some_ : loss ≠ []) (few : loss.length ≤ p.parityOf t) (entry : p.claimOf? t = some (n, e))
  (serves : p.contextOf? t = some (c, x))

section
include running record standing found other some_ few entry serves

theorem Part.evaluate?_context :
    p.evaluate? t = some ((p.lossWritten t n e loss).changeContextLoss c loss) := by
  rw [Part.evaluate?_claiming running record standing, ← found, if_neg other]
  exact Part.lossChanged?_context entry some_ few serves

include due row stripe unmet

/-- A visit that finds another loss set at a stripe with a context leads to what the context makes of it (R82, R96). -/
theorem scanVisit_lossVisited {P : Part → Prop} (shown : P (p.lossVisited t n e loss c))
    (beside : ∀ (q : Part) (m : Bool), P q → P { q with hlk := { q.hlk with statusMarked := m } }) :
    Leads .scanVisit ⟨w, p⟩ P := by
  have evaluated := Part.evaluate?_context running record standing found other some_ few entry serves
  subst stripe
  have visit : p.visit = p.lossVisited r.stripe n e loss c := by
    simp only [Part.visit, row, List.contains_eq_mem, unmet, decide_false, Bool.false_eq_true, if_false, evaluated]
    exact Part.moveCursor_eq _
  have effect : (if p.visitDue = true then p.visit else p) = p.lossVisited r.stripe n e loss c :=
    (if_pos ((Part.visitDue_iff running).2 due)).trans visit
  refine leads_of_effect (f := fun p => if p.visitDue then p.visit else p) rfl ?_ beside
  change P (if p.visitDue = true then p.visit else p)
  rw [effect]
  exact shown

end

/-! ### What the visit leaves, by what the context makes of the set -/

section
variable {changed : Part} (rising : p.hdt.rising = true) (inUse : p.context? c = some x) (live : x.pendingOutcome = none)
  (distinct : (x.lostList.map LostEntry.position).Nodup)
  (changed_eq : changed = { p with
    clt := { p.clt with entries := p.clt.entries.setRow n { e with lost := loss } }
    hdt := p.hdt.map (changeStripe t fun h => { h with lost := loss }) })
include rising changed_eq

/-- The part with the loss set written is the named one but for the DRAM. -/
theorem Part.lossWritten_eq : ∃ d, p.lossWritten t n e loss = changed.setDram d := by
  obtain ⟨same, -⟩ := Part.lossWritten_imaged rising changed_eq
  refine ⟨(p.lossWritten t n e loss).smc.dram, ?_⟩
  rw [← same]
  rfl

end

end

/-! ## What a context makes of the set, in a part that shows it as it was (R96, R97) -/

section
variable {b : Part} {c : Nat} {x : Context} {loss : Positions} (inUse : b.context? c = some x) (live : x.pendingOutcome = none)
include inUse live

section
variable (grown : ∃ i ∈ loss, i ∉ x.enabledPositions) (distinct : (x.lostList.map LostEntry.position).Nodup)
include grown

/-- What growth leaves of a context (R96). -/
structure Part.GrownTo (b q : Part) (c : Nat) (x : Context) (loss : Positions) (again : Bool) : Prop where
  clt : q.clt = b.clt
  hdt : q.hdt = b.hdt
  others : ∀ d, d ≠ c → q.context? d = b.context? d
  rePlan : again = true → q.generation c = b.generation c + 1 ∧ c ∈ q.plu.queue
  same : again = false → q.generation c = b.generation c ∧ q.plu = b.plu
  context : ∃ y, q.context? c = some y ∧ y.lostList.map LostEntry.position = loss
    ∧ (∀ f ∈ y.lostList, f.enabled = true)
    ∧ (∀ f ∈ x.lostList, f.enabled = true → f.position ∈ loss → f.slot ≠ none →
      ∃ g ∈ y.lostList, g.position = f.position ∧ g.slot = f.slot)
    ∧ (again = true → y.state = .planning ∧ y.rePlans = x.rePlans + 1 ∧ y.survivors = none ∧ y.plan = none
      ∧ y.chunksComplete = 0 ∧ y.unusable = x.unusable)
    ∧ (again = false → y.state = .admitting ∧ y.rePlans = x.rePlans)

include distinct

theorem Part.changeContextLoss_grown {again : Bool} (again_eq : again = (x.state != .admitting))
    (early : x.state ≠ .verifying ∧ x.state ≠ .delivering) (few : again = true → x.rePlans < 8) :
    b.GrownTo (b.changeContextLoss c loss) c x loss again := by
  by_cases admitting : x.state = .admitting
  · have again_ : again = false := by rw [again_eq, admitting]; rfl
    subst again_
    rw [Part.changeContextLoss_growsAdmitting inUse live grown admitting]
    obtain ⟨h, asked, unbound⟩ := Part.rebuildLostList_asks inUse loss
    obtain ⟨positions, enabled, kept⟩ := Context.grown_lostList distinct asked
    obtain ⟨q, q_eq⟩ : ∃ q, q = (b.rebuildLostList c loss).askSlots c := ⟨_, rfl⟩
    rw [← q_eq] at unbound ⊢
    have rest := unbound.rest
    exact {
      clt := (congrArg Part.clt rest :)
      hdt := (congrArg Part.hdt rest :)
      others := fun d other => (congrArg (fun q : Part => q.context? d) rest :).trans
        (Part.context?_editContext_other b other _)
      rePlan := nofun
      same := fun _ => ⟨(congrArg (fun q : Part => q.generation c) rest :), (congrArg Part.plu rest :)⟩
      context := ⟨_, (congrArg (fun q : Part => q.context? c) rest :).trans (Part.context?_editContext inUse _), positions,
        enabled, kept, nofun, fun _ => ⟨admitting, rfl⟩⟩ }
  · have again_ : again = true := by simpa [again_eq] using admitting
    have state : x.state = .planning ∨ x.state = .planWait ∨ x.state = .gathering := by
      cases state : x.state with
      | admitting => exact absurd state admitting
      | planning => exact .inl rfl
      | planWait => exact .inr (.inl rfl)
      | gathering => exact .inr (.inr rfl)
      | verifying => exact absurd state early.1
      | delivering => exact absurd state early.2
    subst again_
    rw [Part.changeContextLoss_grows inUse live grown state]
    obtain ⟨⟨h, asked, context⟩, others, generation, plu, -, rest, -, -⟩ :=
      Part.rePlan_replans inUse (few rfl) (some loss)
    obtain ⟨positions, enabled, kept⟩ := Context.grown_lostList distinct asked
    exact {
      clt := (congrArg Part.clt rest :)
      hdt := (congrArg Part.hdt rest :)
      others := others
      rePlan := fun _ => ⟨generation, by rw [plu]; exact List.mem_append_right _ List.mem_cons_self⟩
      same := nofun
      context := ⟨_, context, positions, enabled, kept, fun _ => ⟨rfl, rfl, rfl, rfl, rfl, rfl⟩, nofun⟩ }

end

section
variable (within : ∀ i ∈ loss, i ∈ x.enabledPositions) (fewer : ∃ i ∈ x.enabledPositions, i ∉ loss)
include within fewer

/-- The part in which a context's returned positions have given up their slots, and what that may complete (R97). -/
theorem Part.changeContextLoss_shrunk
    (state : x.state = .admitting ∨ x.state = .planning ∨ x.state = .planWait ∨ x.state = .gathering) :
    ∃ a, b.changeContextLoss c loss = a.advance c ∧ (b.editContext c fun y => y.shrunkTo loss).Unbinds a
      ∧ a.svu = b.svu ∧ a.context? c = some (x.shrunkTo loss)
      ∧ ∀ f ∈ x.lostList, f.enabled = true → f.position ∉ loss → ∀ j, f.slot = some j →
        b.smc.fill.map FillRequest.slot ≠ some j → b.slotHeld j = false →
        (∀ s, b.slot? j = some s → s.queuedChunks = 0) → a.slot? j = none := by
  have unbound := Part.unbinds_giveUpSlots (b.editContext c fun y => y.shrunkTo loss)
    ((x.lostList.filter fun e => e.enabled && !loss.contains e.position).filterMap LostEntry.slot)
  refine ⟨_, (Part.changeContextLoss_shrinks inUse live within fewer state).trans (Part.shrinkContext_eq inUse loss), unbound,
    Part.svu_giveUpSlots _ _, (congrArg (fun q : Part => q.context? c) unbound.rest :).trans
      (Part.context?_editContext inUse _), fun f member enabled returned j slot unfilled loose quiet => ?_⟩
  refine Part.slot?_giveUpSlots (p := b.editContext c fun y => y.shrunkTo loss) (List.mem_filterMap.2 ⟨f, ?_, slot⟩) unfilled
    loose quiet
  exact List.mem_filter.2 ⟨member, by simpa [enabled] using returned⟩

end

end

/-- What is left of a context that a shrink leaves waiting (R97). -/
theorem Part.advance_shrunk {a : Part} {c : Nat} {x : Context} {loss : Positions} (row : a.context? c = some (x.shrunkTo loss))
    (waits : x.state = .gathering ∨ x.state = .planWait
      ∨ ((x.state = .admitting ∨ x.state = .planning)
        ∧ ∃ f ∈ x.lostList, f.enabled = true ∧ f.position ∈ loss ∧ f.fill ≠ .ready)
      ∨ (x.state = .planning ∧ (x.plan = none ∨ x.reservation.length < x.remotes.length))) : a.advance c = a := by
  have unready : (∃ f ∈ x.lostList, f.enabled = true ∧ f.position ∈ loss ∧ f.fill ≠ .ready) →
      (x.shrunkTo loss).allReady = false := by
    rintro ⟨f, member, enabled, kept, waiting⟩
    have stays : (if f.enabled && !loss.contains f.position then { f with enabled := false, slot := none } else f) = f :=
      if_neg (by simp [kept])
    exact Context.allReady_false.2 ⟨_, List.mem_map_of_mem member, by rw [stays]; exact enabled, by rw [stays]; exact waiting⟩
  rcases waits with state | state | ⟨-, unfilled⟩ | ⟨state, short⟩
  · simp [Part.advance, row, Context.shrunkTo, state]
  · simp [Part.advance, row, Context.shrunkTo, state]
  · exact Part.advance_notReady row (unready unfilled)
  · have may : (x.shrunkTo loss).mayGather = false := by
      rcases short with none_ | few
      · simp [Context.mayGather, Context.shrunkTo, none_]
      · have fewer : decide ((x.shrunkTo loss).remotes.length ≤ (x.shrunkTo loss).reservation.length) = false :=
          decide_eq_false (Nat.not_le.2 few)
        simp only [Context.mayGather, fewer, Bool.and_false, Bool.false_and]
    have stays : a.tryGather c = a := Part.tryGather_stays fun y held => by
      obtain rfl := Option.some.inj (row.symm.trans held)
      exact may
    simp only [Part.advance, row, show (x.shrunkTo loss).state = .planning from state, stays, ite_self]

theorem Context.allReady_shrunkTo {x : Context} {loss : Positions}
    (ready : ∀ f ∈ x.lostList, f.enabled = true → f.position ∈ loss → f.fill = .ready) : (x.shrunkTo loss).allReady = true := by
  rw [← Bool.not_eq_false, Context.allReady_false]
  rintro ⟨e', member, enabled, unready⟩
  obtain ⟨e, listed, rfl⟩ := List.mem_map.1 member
  by_cases returned : (e.enabled && !loss.contains e.position) = true
  · rw [if_pos returned] at enabled
    exact absurd enabled Bool.false_ne_true
  · rw [if_neg returned] at enabled unready
    refine unready (ready e listed enabled ?_)
    by_contra out
    exact returned (by simpa [enabled] using out)

end Sys2Proof.Machine

/-! What re-plans a context and what does not, settled (R82, R94 to R97). -/

namespace Sys2Proof.Machine

theorem Context.shrunkTo_eq (x : Context) (loss : Positions) {shrunk : List LostEntry}
    (shrunk_eq : shrunk = x.lostList.map fun f =>
      if f.enabled = true ∧ f.position ∉ loss then { f with enabled := false, slot := none } else f) :
    { x with lostList := shrunk } = x.shrunkTo loss := by
  have same (f : LostEntry) : (f.enabled && !loss.contains f.position) = true ↔ f.enabled = true ∧ f.position ∉ loss := by
    simp
  rw [shrunk_eq, Context.shrunkTo]
  simp only [same]

/-- Settles O44. -/
theorem failuresRePlan : Obligations.FailuresRePlan := by
  refine ⟨fun w p i n u x by_ inUse live state current => ?_, ?_⟩
  · have fails := laneFailsBy_fails (w := w) inUse live state current by_
    refine ⟨fun few => ?_, fun many rising => fails.abandons live state current many rising⟩
    have plans := fails.rePlans live state current few
    unfold Part.replanShown at plans
    rwa [current] at plans
  intro w p t r r0 n c e x loss changed running due row stripe unmet record standing rising found other some_ few entry serves
    inUse live distinct changed_eq
  have leads {P : Part → Prop} := scanVisit_lossVisited (w := w) (P := P) running due row stripe unmet record standing found
    other some_ few entry serves
  have evaluated := Part.evaluate?_context running record standing found other some_ few entry serves
  have imaged := Part.lossWritten_imaged (n := n) (e := e) rising changed_eq
  obtain ⟨d, written⟩ := Part.lossWritten_eq (n := n) (e := e) rising changed_eq
  unfold Part.lossVisited at leads
  rw [written] at leads evaluated imaged
  obtain ⟨b, b_eq⟩ : ∃ b, b = changed.setDram d := ⟨_, rfl⟩
  rw [← b_eq] at leads evaluated imaged
  have inUse_b : b.context? c = some x := by rw [b_eq, changed_eq]; exact inUse
  have others_b (d : Nat) : b.context? d = p.context? d := by rw [b_eq, changed_eq]; rfl
  have clt_b : b.clt = changed.clt := by rw [b_eq]; rfl
  have hdt_b : b.hdt = changed.hdt := by rw [b_eq]; rfl
  refine ⟨fun late => ?_, fun grown => ⟨?_, fun state many => ?_⟩, fun within fewer shrunk shrunk_eq => ?_⟩
  · have kept := Part.changeContextLoss_late (loss := loss) inUse_b live late
    rw [kept] at evaluated
    subst stripe
    exact scanVisit_evaluates w running due row unmet evaluated imaged
  · intro again again_eq early early' tries
    have after := Part.changeContextLoss_grown inUse_b live grown distinct again_eq ⟨early, early'⟩ tries
    refine leads ⟨after.clt.trans clt_b, after.hdt.trans hdt_b, fun d other => (after.others d other).trans (others_b d),
      fun yes => ?_, fun no => ?_, after.context⟩ fun _ _ h => h
    · obtain ⟨generation, queued⟩ := after.rePlan yes
      exact ⟨generation.trans (by rw [b_eq, changed_eq]; rfl), queued⟩
    · obtain ⟨generation, plu⟩ := after.same no
      exact ⟨generation.trans (by rw [b_eq, changed_eq]; rfl), plu.trans (by rw [b_eq, changed_eq]; rfl)⟩
  · have effect := (Part.changeContextLoss_grows inUse_b live grown state).trans (Part.rePlan_limit inUse_b many (some loss))
    have shown : changed.abandoned (b.abandon c .rePlanLimit) c x .rePlanLimit :=
      Part.abandon_abandoned inUse_b rfl rfl (fun d _ => by rw [b_eq]; rfl) (by rw [b_eq]; rfl) hdt_b clt_b
        (by rw [b_eq]; exact .rfl) (fun room => by rw [b_eq]; exact ⟨room.1, Nat.le_trans (Nat.le_succ _) room.2⟩)
        (by rw [changed_eq]; exact rising_changeStripe t _ rising) _
    have scn : (b.abandon c .rePlanLimit).scn = changed.scn :=
      (Part.abandon_kept inUse_b .rePlanLimit Part.scn fun _ _ _ _ _ _ _ _ _ => rfl).trans (by rw [b_eq]; rfl)
    refine leads ?_ fun _ _ h => h
    rw [effect]
    refine ⟨shown, ?_⟩
    exact congrArg (fun scn => (Part.visited { changed with scn := scn } t).scn) scn
  · rw [Context.shrunkTo_eq x loss shrunk_eq]
    have shrinks := Part.changeContextLoss_shrunk inUse_b live within fewer
    refine ⟨fun waits => ?_, fun state ready => ?_, fun own remotes state ready plan lists enough nodup rows room ordered fits =>
      ?_⟩
    · have early : x.state = .admitting ∨ x.state = .planning ∨ x.state = .planWait ∨ x.state = .gathering := by
        rcases waits with state | state | ⟨state | state, -⟩ | ⟨state, -⟩ <;> simp [state]
      obtain ⟨a, effect, unbound, -, read, frees⟩ := shrinks early
      rw [Part.advance_shrunk read waits] at effect
      have rest := unbound.rest
      refine leads ?_ fun _ _ h => h
      rw [effect]
      refine ⟨(congrArg Part.clt rest :).trans clt_b, (congrArg Part.hdt rest :).trans hdt_b, read, fun d other => ?_, ?_, ?_,
        fun f member enabled returned j slot unfilled loose quiet => ?_⟩
      · exact (congrArg (fun q : Part => q.context? d) rest :).trans
          ((Part.context?_editContext_other b other _).trans (others_b d))
      · exact (congrArg (fun q : Part => q.ctx.generations) rest :).trans (by rw [b_eq, changed_eq]; rfl)
      · exact (congrArg Part.plu rest :).trans (by rw [b_eq, changed_eq]; rfl)
      · refine frees f member enabled returned j slot ?_ ?_ ?_
        · rw [b_eq, changed_eq]
          exact unfilled
        · rw [b_eq, changed_eq]
          exact loose
        · rw [b_eq, changed_eq]
          exact quiet
    · obtain ⟨a, effect, unbound, -, read, -⟩ := shrinks (.inl state)
      rw [Part.advance_admitting read live state (Context.allReady_shrunkTo ready)] at effect
      have rest := unbound.rest
      refine leads ?_ fun _ _ h => h
      rw [effect]
      rw [show ({ x with lostList := shrunk, state := .planning } : Context) = { x.shrunkTo loss with state := .planning } from
        congrArg (fun y : Context => { y with state := .planning }) (Context.shrunkTo_eq x loss shrunk_eq)]
      refine ⟨Part.context?_editContext read fun y => { y with state := .planning }, ?_, ?_⟩
      · exact congrArg (fun u : PlanUnit => u.queue ++ [c]) ((congrArg Part.plu rest :).trans (by rw [b_eq, changed_eq]; rfl))
      · exact (congrArg (fun q : Part => q.ctx.generations) rest :).trans (by rw [b_eq, changed_eq]; rfl)
    · obtain ⟨a, effect, unbound, svu, read, -⟩ := shrinks (.inr (.inl state))
      have rest := unbound.rest
      have stripe_x : x.stripe = t := by simpa using List.find?_some serves
      have hdt_a : a.hdt = p.hdt.map (changeStripe t fun h => { h with lost := loss }) :=
        (congrArg Part.hdt rest :).trans (hdt_b.trans (by rw [changed_eq]))
      have prs_a : a.prs = p.prs := (congrArg Part.prs rest :).trans (by rw [b_eq, changed_eq]; rfl)
      have ftu_a : a.ftu = p.ftu := (congrArg Part.ftu rest :).trans (by rw [b_eq, changed_eq]; rfl)
      have sgp_a : a.sgp = p.sgp := (congrArg Part.sgp rest :).trans (by rw [b_eq, changed_eq]; rfl)
      have svu_a : a.svu = p.svu := svu.trans (by rw [b_eq, changed_eq]; rfl)
      have ctx_a (d : Nat) (apart : d ≠ c) : a.context? d = p.context? d :=
        (congrArg (fun q : Part => q.context? d) rest :).trans
          ((Part.context?_editContext_other b apart _).trans (others_b d))
      have generations_a : a.ctx.generations = p.ctx.generations :=
        (congrArg (fun q : Part => q.ctx.generations) rest :).trans (by rw [b_eq, changed_eq]; rfl)
      have lists_a : a.ListsSurvivors (x.survivors.getD []) own remotes :=
        ⟨lists.list, lists.local_, fun v member =>
          ⟨(lists.remote v member).1, (Part.gone_of_prs prs_a v.holder).trans (lists.remote v member).2⟩⟩
      have fits_a : ∀ v, own = some v → (a.recordOf? x.stripe v.position).isSome = true
          ∧ ∀ k f cause, a.serveOf? x.stripe v.position = some (k, f) → f.state ≠ .failed cause := by
        intro v mine
        obtain ⟨held, sound⟩ := fits v mine
        rw [stripe_x]
        refine ⟨?_, fun k f cause => ?_⟩
        · have kept := Part.holds_changed (p := p) (t := t) (f := fun h => { h with lost := loss }) _ rfl (fun _ => rfl)
            (fun _ => rfl) v.position
          rw [show (a.recordOf? t v.position).isSome = a.holds t v.position from rfl, Part.holds, Part.recordOf?, hdt_a]
          exact kept.trans held
        · rw [Part.serveOf?, svu_a]
          exact sound k f cause
      have count : x.remotes.length = remotes.length := by
        have none_ : own.toList.filter (fun v => v.source != .ownHoldings) = [] := by
          cases own with
          | none => rfl
          | some v => simp [lists.local_ v rfl]
        have all : remotes.filter (fun v => v.source != .ownHoldings) = remotes :=
          List.filter_eq_self.2 fun v member => by simpa using (lists.remote v member).1
        rw [Context.remotes, lists.list, List.filter_append, none_, all, List.nil_append]
      have may : (x.shrunkTo loss).mayGather = true := by
        have lanes : (x.shrunkTo loss).remotes.length ≤ (x.shrunkTo loss).reservation.length := by
          change x.remotes.length ≤ x.reservation.length
          rwa [count]
        have has : (x.shrunkTo loss).plan.isSome = true := Option.isSome_iff_ne_none.2 plan
        simp only [Context.mayGather, lanes, has, Context.allReady_shrunkTo ready, decide_true, Bool.and_true]
        simp [Context.live, Context.shrunkTo, live, state]
      have enters : a.advance c = a.enterGathering c := by
        have tries : a.advance c = a.tryGather c := by
          simp [Part.advance, read, Context.live, Context.shrunkTo, live, state]
        rw [tries]
        simp only [Part.tryGather, read, may, if_true]
      obtain ⟨gathers, same⟩ := Part.enterGathering_gathersIn read rfl lists_a enough nodup (by rw [ftu_a]; exact rows)
        (by rw [Part.roomFor, sgp_a]; exact room) fits_a
      rw [enters] at effect
      refine leads ?_ fun _ _ h => h
      rw [effect]
      obtain ⟨q, q_eq⟩ : ∃ q, q = a.enterGathering c := ⟨_, rfl⟩
      rw [← q_eq] at gathers same ⊢
      have shown : p.gathersIn q c (x.shrunkTo loss) own remotes :=
        Part.gathersIn_of_same gathers ftu_a prs_a (congrArg (fun g => (Table.row? g c).getD 0) generations_a)
          fun position => Part.expectedDigest?_changed hdt_a (fun _ => rfl) (fun _ => rfl) _ position
      refine ⟨shown, (congrArg Part.clt same :).trans ((congrArg Part.clt rest :).trans clt_b),
        (congrArg Part.hdt same :).trans ((congrArg Part.hdt rest :).trans hdt_b), fun d apart => ?_, ?_, ?_, ?_⟩
      · refine (congrArg (fun q : Part => q.context? d) same :).trans ?_
        exact (Part.context?_editContext_other a apart _).trans (ctx_a d apart)
      · exact (congrArg (fun q : Part => q.ctx.generations) same :).trans generations_a
      · exact (congrArg Part.plu same :).trans ((congrArg Part.plu rest :).trans (by rw [b_eq, changed_eq]; rfl))
      · have scn : q.scn = changed.scn := (congrArg Part.scn same :).trans ((congrArg Part.scn rest :).trans (by rw [b_eq]; rfl))
        exact congrArg (fun scn => (Part.visited { changed with scn := scn } t).scn) scn

end Sys2Proof.Machine

/-! The end of a combine operation: the bytes it writes, and what its base shows (R31, R138, R139, R143). -/

namespace Sys2Proof.Machine

/-! ## The bytes written (R31, R138) -/

theorem slotOffset_eq (slot : Nat) : slotOffset slot = (32 + slot) * 1048576 := rfl

/-- One accumulator's chunk after its sum; the coefficient 00h writes what stands there (R31). -/
theorem Dram.byte_combine (d : Dram) (offset : Nat) (coefficient : Byte) (operand : List Byte) (a : Nat) :
    (d.combine offset coefficient operand).byte a =
      if offset ≤ a ∧ a < offset + operand.length then
        d.byte a ^^^ fieldMul coefficient ((operand[a - offset]?).getD 0)
      else d.byte a := by
  unfold Dram.combine
  by_cases zero : coefficient = 0
  · rw [if_pos zero, zero]
    rw [zero_fieldMul]
    simp
  · rw [if_neg zero, Dram.byte_write]
    simp only [contribute, List.length_zipWith, Dram.length_bytes, Nat.min_self]
    split
    · next inside =>
      have at_ : a - offset < operand.length := by omega
      have back : offset + (a - offset) = a := by omega
      simp [Dram.bytes, at_, back]
    · rfl

/-- The bytes that a list of targets leaves alone. -/
theorem Dram.byte_foldl_combine_outside {targets : List (Nat × Byte)} (offsets : Nat → Nat) (operand : List Byte) {a : Nat}
    (apart : ∀ t ∈ targets, ¬ (offsets t.1 ≤ a ∧ a < offsets t.1 + operand.length)) (d : Dram) :
    (targets.foldl (fun d t => d.combine (offsets t.1) t.2 operand) d).byte a = d.byte a := by
  induction targets generalizing d with
  | nil => rfl
  | cons t rest ih =>
    rw [List.foldl_cons, ih fun s listed => apart s (List.mem_cons_of_mem _ listed), Dram.byte_combine,
      if_neg (apart t List.mem_cons_self)]

/-- The bytes of one target, which no other target reaches. -/
theorem Dram.byte_foldl_combine_target {targets : List (Nat × Byte)} (offsets : Nat → Nat) (operand : List Byte)
    (distinct : (targets.map Prod.fst).Nodup)
    (apart : ∀ j k a, j ≠ k → offsets j ≤ a ∧ a < offsets j + operand.length →
      ¬ (offsets k ≤ a ∧ a < offsets k + operand.length))
    {t : Nat × Byte} (listed : t ∈ targets) {i : Nat} {b : Byte} (operand_i : operand[i]? = some b) (d : Dram) :
    (targets.foldl (fun d t => d.combine (offsets t.1) t.2 operand) d).byte (offsets t.1 + i)
      = d.byte (offsets t.1 + i) ^^^ fieldMul t.2 b := by
  obtain ⟨short, -⟩ := List.getElem?_eq_some_iff.1 operand_i
  have inside : offsets t.1 ≤ offsets t.1 + i ∧ offsets t.1 + i < offsets t.1 + operand.length := by omega
  induction targets generalizing d with
  | nil => exact absurd listed List.not_mem_nil
  | cons s rest ih =>
    obtain ⟨fresh, distinct⟩ := List.nodup_cons.1 distinct
    rw [List.foldl_cons]
    rcases List.mem_cons.1 listed with rfl | later
    · rw [Dram.byte_foldl_combine_outside offsets operand, Dram.byte_combine, if_pos inside, Nat.add_sub_cancel_left, operand_i]
      · rfl
      · intro r member
        exact apart t.1 r.1 _ (fun same => fresh (same ▸ List.mem_map_of_mem member)) inside
    · rw [ih distinct later, Dram.byte_combine, if_neg]
      exact apart t.1 s.1 _ (fun same => fresh (same ▸ List.mem_map_of_mem later)) inside

/-- Every accumulator of an operation is written, and nothing else (R31, R138). -/
theorem Dram.combined_combineAll (d : Dram) {o : CombineOperation} (distinct : (o.targets.map Prod.fst).Nodup)
    (short : o.operand.length ≤ 8192) : d.combined (d.combineAll o) o := by
  obtain ⟨offsets, offsets_eq⟩ : ∃ offsets : Nat → Nat,
      offsets = fun j => (32 + j) * 1048576 + o.request.chunk * 8192 := ⟨_, rfl⟩
  have whole : d.combineAll o = o.targets.foldl (fun d t => d.combine (offsets t.1) t.2 o.operand) d := by
    rw [offsets_eq]
    rfl
  rw [whole]
  refine ⟨fun t listed i b operand => ?_, fun a apart => ?_⟩
  · have written := Dram.byte_foldl_combine_target offsets o.operand distinct (fun j k a other inside => ?_) listed operand d
    · rw [offsets_eq] at written ⊢
      exact written
    · rw [offsets_eq] at inside ⊢
      dsimp only at inside ⊢
      omega
  · refine Dram.byte_foldl_combine_outside offsets o.operand ?_ d
    rw [offsets_eq]
    exact apart

/-! ## The warning lowered (R143) -/

theorem Part.sendPull_shut {p : Part} {n : Nat}
    (shut : ∀ u, p.laneUse? n = some u → u.state = .streaming → ¬ u.windowOpen p.windowWidth) : p.sendPull n = p := by
  cases use : p.laneUse? n with
  | none => simp only [Part.sendPull, use]
  | some u =>
    by_cases streams : u.state = .streaming
    · exact Part.sendPull_closed p n u use streams (shut u use streams)
    · have closed : u.mayPull p.windowWidth = false := by simp [LaneUse.mayPull, streams]
      simp only [Part.sendPull, use, closed, Bool.false_eq_true, if_false]

theorem Part.testAllWindows_shut {p : Part}
    (shut : ∀ n u, p.laneUse? n = some u → u.state = .streaming → ¬ u.windowOpen p.windowWidth) : p.testAllWindows = p := by
  have each (n : Nat) : p.testWindow n = p := by
    rw [Part.testWindow, Part.sendPull_shut (shut n), Part.sendPull_shut (shut n)]
  unfold Part.testAllWindows
  generalize p.ftu.numbers = lanes
  induction lanes with
  | nil => rfl
  | cons n rest ih => rw [List.foldl_cons, each]; exact ih

/-- The warning falls where the depth comes to 32, and no window opens (R143). -/
theorem Part.lowerWarning_eq {p : Part} (idle : p.cbe.operation = none)
    (shut : p.cbe.warning = true → p.cbe.queue.length = 32 →
      ∀ n u, p.laneUse? n = some u → u.state = .streaming → ¬ u.windowOpen 2) :
    p.lowerWarning = { p with cbe := { p.cbe with
      warning := if p.cbe.queue.length = 32 then false else p.cbe.warning } } := by
  have depth : p.combineDepth = p.cbe.queue.length := by simp [Part.combineDepth, idle]
  unfold Part.lowerWarning
  rw [depth]
  by_cases low : p.cbe.queue.length = 32
  · by_cases raised : p.cbe.warning = true
    · rw [if_pos ⟨low, raised⟩, if_pos low]
      exact Part.testAllWindows_shut (p := { p with cbe := { p.cbe with warning := false } }) (shut raised low)
    · rw [if_neg fun h => raised h.2, if_pos low, ← Bool.eq_false_iff.2 raised]
  · rw [if_neg fun h => low h.1, if_neg low]

/-! ## What the statement says of the part after the operation -/

/-- The end of the operation, whatever its completion brings: the bytes are the combined ones. -/
theorem endsCombine_of {w : List Instr} {p q : Part} {o : CombineOperation}
    (combined : p.smc.dram.combined (p.smc.dram.combineAll o) o) (effect : p.endCombine = q)
    (dram : q.smc.dram = p.smc.dram.combineAll o) : EndsCombine w p o (q.setDram p.smc.dram) := by
  refine leads_of_effect (f := Part.endCombine) rfl ?_ fun _ _ h => h
  have meaning : (State.part ⟨w, p⟩).endCombine = q := effect
  rw [meaning, dram]
  exact ⟨combined, rfl⟩

end Sys2Proof.Machine

/-! Entry to VERIFYING (R93). -/

namespace Sys2Proof.Machine

/-! ## Lanes that have no RELEASE to send (R120) -/

/-- A lane whose release sends nothing: its use has ended, or it is IDLE and none of its requests waits. -/
def Part.Silent (p : Part) (n : Nat) : Prop :=
  (∃ u, p.laneUse? n = some u ∧ u.releaseDue = false)
    ∨ (∀ r ∈ p.ftu, r.1 = n → r.2.use = none) ∧ ∀ f ∈ p.sgp.control, f.body.isRequestOf n = false

/-- Lanes made IDLE, their requests withdrawn from the control queue (R120, R159). -/
def Part.idled (p : Part) (lanes : List Nat) : Part :=
  { p with
    ftu := p.ftu.map fun r => if r.1 ∈ lanes then (r.1, { r.2 with use := none }) else r
    sgp := { p.sgp with control := p.sgp.control.filter fun f => lanes.all fun n => !f.body.isRequestOf n } }

theorem Part.idled_nil (p : Part) : p.idled [] = p := by simp [Part.idled]

theorem Part.idled_cons (p : Part) (n : Nat) (rest : List Nat) : (p.idled [n]).idled rest = p.idled (n :: rest) := by
  have table : ((p.idled [n]).ftu.map fun r => if r.1 ∈ rest then (r.1, { r.2 with use := none }) else r) =
      p.ftu.map fun r => if r.1 ∈ n :: rest then (r.1, { r.2 with use := none }) else r := by
    rw [Part.idled, List.map_map]
    refine List.map_congr_left fun r _ => ?_
    by_cases here : r.1 = n <;> by_cases there : r.1 ∈ rest <;> simp [here, there]
  have frames : ((p.idled [n]).sgp.control.filter fun f => rest.all fun m => !f.body.isRequestOf m) =
      p.sgp.control.filter fun f => (n :: rest).all fun m => !f.body.isRequestOf m := by
    rw [Part.idled, List.filter_filter]
    refine List.filter_congr fun f _ => ?_
    simp [Bool.and_comm]
  rw [Part.idled, table, frames]
  rfl

theorem Part.Silent.idled {p : Part} {m : Nat} (silent : p.Silent m) (n : Nat) : (p.idled [n]).Silent m := by
  have rows : ∀ r ∈ (p.idled [n]).ftu, ∃ s ∈ p.ftu, s.1 = r.1 ∧ (r.2.use = none ∨ r = s ∧ s.1 ≠ n) := by
    intro r member
    obtain ⟨s, listed, rfl⟩ := List.mem_map.1 member
    by_cases here : s.1 = n
    · exact ⟨s, listed, by simp [here], .inl (by simp [here])⟩
    · exact ⟨s, listed, by simp [here], .inr ⟨by simp [here], here⟩⟩
  by_cases same : m = n
  · subst same
    refine .inr ⟨fun r member number => ?_, fun f waits => ?_⟩
    · obtain ⟨s, -, number', idle | ⟨-, other⟩⟩ := rows r member
      · exact idle
      · exact absurd (number'.trans number) other
    · simpa using (List.mem_filter.1 waits).2
  · rcases silent with ⟨u, use, ended⟩ | ⟨idle, none_⟩
    · refine .inl ⟨u, ?_, ended⟩
      have edited : p.ftu.editRow n (fun l => { l with use := none }) =
          p.ftu.map fun r => if r.1 ∈ [n] then (r.1, { r.2 with use := none }) else r :=
        List.map_congr_left fun r _ => by simp
      have row : (p.idled [n]).ftu.row? m = p.ftu.row? m := by
        refine (congrArg (fun t : Table Lane => t.row? m) edited.symm).trans ?_
        rw [Table.row?_editRow, if_neg same]
      rw [Part.laneUse?, Part.lane, row]
      exact use
    · refine .inr ⟨fun r member number => ?_, fun f waits => none_ f (List.mem_filter.1 waits).1⟩
      obtain ⟨s, listed, number', unused | ⟨rfl, -⟩⟩ := rows r member
      · exact unused
      · exact idle r listed number

theorem Part.releaseLane_silent {p : Part} {n : Nat} (held : p.sgp.hold = []) (silent : p.Silent n) :
    p.releaseLane n = p.idled [n] := by
  rcases silent with ⟨u, use, ended⟩ | ⟨idle, none_⟩
  · have edited : p.ftu.editRow n (fun l => { l with use := none }) =
        p.ftu.map fun r => if r.1 ∈ [n] then (r.1, { r.2 with use := none }) else r :=
      List.map_congr_left fun r _ => by simp
    have frames : (p.sgp.control.filter fun f => [n].all fun m => !f.body.isRequestOf m) =
        p.sgp.control.filter fun f => !f.body.isRequestOf n := List.filter_congr fun f _ => by simp
    simp only [Part.releaseLane, use, ended, Bool.false_eq_true, if_false]
    rw [Part.withdrawRequests_noneHeld held, Part.idled, ← edited, frames]
    rfl
  · have unused : p.laneUse? n = none := by
      rw [Part.laneUse?, Part.lane]
      cases row : p.ftu.row? n with
      | none => rfl
      | some l => exact idle (n, l) (Table.row?_mem row) rfl
    have table : (p.ftu.map fun r => if r.1 ∈ [n] then (r.1, { r.2 with use := none }) else r) = p.ftu := by
      refine (List.map_congr_left fun r member => ?_).trans (List.map_id p.ftu)
      by_cases here : r.1 = n
      · have none_ : r.2.use = none := idle r member here
        rw [if_pos (by simpa using here), ← none_]
        rfl
      · simp [here]
    have frames : (p.sgp.control.filter fun f => [n].all fun m => !f.body.isRequestOf m) = p.sgp.control :=
      List.filter_eq_self.2 fun f waits => by simpa using none_ f waits
    simp only [Part.releaseLane, unused]
    rw [Part.idled, table, frames]

theorem Part.releaseLanes_silent {p : Part} {lanes : List Nat} (held : p.sgp.hold = []) (silent : ∀ n ∈ lanes, p.Silent n) :
    p.releaseLanes lanes = p.idled lanes := by
  induction lanes generalizing p with
  | nil => exact (Part.idled_nil p).symm
  | cons n rest ih =>
    rw [Part.releaseLanes, List.foldl_cons, Part.releaseLane_silent held (silent n List.mem_cons_self)]
    refine Eq.trans ?_ (p.idled_cons n rest)
    exact ih (p := p.idled [n]) held fun m listed => (silent m (List.mem_cons_of_mem _ listed)).idled n

/-! ## The conditions, and the entry (R93) -/

section
variable {p : Part} {c : Nat} {x y : Context} (inUse : p.context? c = some y) (live : y.pendingOutcome = none)
  (state : y.state = .gathering) (lanes : y.reservation = x.reservation)
include inUse live state

theorem Part.gathered_iff : p.gathered c ↔ (y.live && y.state == .gathering && y.chunksComplete == y.chunkCount
    && y.reservation.all p.laneComplete && p.openerFed c y) = true := by
  have complete (n : Nat) : p.laneComplete n = true ↔ ∃ u, p.laneUse? n = some u ∧ u.state = .complete := by
    unfold Part.laneComplete
    cases p.laneUse? n with
    | none => simp
    | some u => simp
  have own : ((y.survivors.getD []).any fun v => v.source == .ownHoldings) = true ↔
      ∃ v ∈ y.survivors.getD [], v.source = .ownHoldings := by simp
  have fed : p.openerFed c y = true ↔ ((∃ v ∈ y.survivors.getD [], v.source = .ownHoldings) →
      ∃ n e i, p.attachedOpener? c = some (n, e, i) ∧ i.generation = p.generation c ∧ i.ended = .fed) := by
    rw [← own, Part.openerFed]
    cases (y.survivors.getD []).any fun v => v.source == .ownHoldings with
    | false => simp
    | true =>
      cases p.attachedOpener? c with
      | none => simp
      | some found =>
        obtain ⟨n, e, i⟩ := found
        simp
  have standing : (y.live && y.state == .gathering) = true := by simp [Context.live, live, state]
  rw [standing, Bool.true_and, Bool.and_eq_true, Bool.and_eq_true, beq_iff_eq, List.all_eq_true, fed, and_assoc]
  simp only [complete]
  constructor
  · rintro ⟨z, found, rest⟩
    obtain rfl := Option.some.inj (inUse.symm.trans found)
    exact rest
  · exact fun rest => ⟨y, inUse, rest⟩

include lanes in
/-- What the report of a context's last source brings (R93). -/
theorem Part.checkGathered_tested {ends : Part → Prop} (tested : ends (p.checkGathered c)) : p.gatheredTested c x ends := by
  have meaning : p.checkGathered c =
      if (y.live && y.state == .gathering && y.chunksComplete == y.chunkCount
        && y.reservation.all p.laneComplete && p.openerFed c y) = true then
        let q := ((p.detachOpener c).releaseLanes y.reservation).freeLanes y.reservation
        let q := q.editContext c fun y => { y with reservation := [], state := .verifying }
        { q with vfu := { q.vfu with queue := q.vfu.queue ++ [{ context := c, generation := q.generation c }] } }
      else p := by
    simp only [Part.checkGathered, inUse]
  rw [meaning] at tested
  refine ⟨fun not_ => ?_, fun whole rising openers held => ?_⟩
  · rwa [if_neg fun all => not_ ((Part.gathered_iff inUse live state).2 all)] at tested
  · rw [if_pos ((Part.gathered_iff inUse live state).1 whole)] at tested
    obtain ⟨z, found, -, completed, -⟩ := whole
    obtain rfl := Option.some.inj (inUse.symm.trans found)
    obtain ⟨a, a_eq⟩ : ∃ a, a = p.detachOpener c := ⟨_, rfl⟩
    have detached := Part.detachOpener_eq rising openers
    rw [← a_eq] at detached
    rw [← a_eq] at tested
    have silent : ∀ n ∈ y.reservation, a.Silent n := fun n listed => by
      obtain ⟨u, use, complete⟩ := completed n listed
      exact .inl ⟨u, (congrArg (fun q : Part => q.laneUse? n) detached :).trans use, by simp [LaneUse.releaseDue, complete]⟩
    have released := Part.releaseLanes_silent (p := a) (by rw [detached]; exact held) silent
    rw [released, lanes] at tested
    have frames : (p.lanesReleased x.reservation).sgp = (a.idled x.reservation).sgp := by
      have unused (n : Nat) (listed : n ∈ x.reservation) : p.releaseFrame? n = none := by
        obtain ⟨u, use, complete⟩ := completed n (lanes ▸ listed)
        simp [Part.releaseFrame?, use, LaneUse.releaseDue, complete]
      have control : p.sgp.control.filter (p.noRequest x.reservation) =
          p.sgp.control.filter fun f => x.reservation.all fun n => !f.body.isRequestOf n := by
        refine List.filter_congr fun f _ => ?_
        rw [Part.noRequest, Bool.eq_iff_iff, List.all_eq_true, List.all_eq_true]
        refine forall₂_congr fun n listed => ?_
        obtain ⟨u, use, -⟩ := completed n (lanes ▸ listed)
        simp [use]
      rw [Part.lanesReleased_eq, detached, List.filterMap_eq_nil_iff.2 unused, List.append_nil, control]
      rfl
    have table : ((a.idled x.reservation).ftu.map fun r =>
        if r.1 ∈ x.reservation then (r.1, { r.2 with holder := none }) else r) =
        p.ftu.map fun r => if r.1 ∈ x.reservation then (r.1, { r.2 with holder := none, use := none }) else r := by
      rw [detached, Part.idled, List.map_map]
      refine List.map_congr_left fun r _ => ?_
      by_cases here : r.1 ∈ x.reservation <;> simp [here]
    have whole : p.verifying c x = { (a.idled x.reservation).freeLanes x.reservation with
        ctx := { p.ctx with
          contexts := p.ctx.contexts.editRow c fun y => { y with state := .verifying, reservation := [] } }
        vfu := { p.vfu with queue := p.vfu.queue ++ [{ context := c, generation := p.generation c }] } } := by
      rw [Part.freeLanes_eq, table, Part.verifying, frames, detached]
      rfl
    rw [whole]
    refine cast (congrArg ends ?_) tested
    rw [Part.freeLanes_eq, detached]
    rfl

end

/-- The DRAM at entry to VERIFYING (R93). -/
theorem Part.dram_checkGathered (p : Part) (c : Nat) : (p.checkGathered c).smc.dram = p.smc.dram := by
  unfold Part.checkGathered
  split
  · rfl
  · split
    · next x _ _ =>
      have released := Part.releaseLanes_rest (p.detachOpener c) x.reservation
      have freed := Part.freeLanes_rest ((p.detachOpener c).releaseLanes x.reservation) x.reservation
      dsimp only
      refine (congrArg (fun q : Part => q.smc.dram) freed :).trans ?_
      refine (congrArg (fun q : Part => q.smc.dram) released :).trans ?_
      exact (Part.unbinds_detachOpener p c).dram
    · rfl

end Sys2Proof.Machine

/-! A combine operation whose source is a lane (R114 to R116, R139). -/

namespace Sys2Proof.Machine

section
variable {w : List Instr} {p : Part} {o : CombineOperation}

/-- The part with the bytes of an operation written and the operation gone (R138). -/
def Part.operationWritten (p : Part) (o : CombineOperation) : Part :=
  { p.setDram (p.smc.dram.combineAll o) with cbe := { p.cbe with operation := none } }

theorem Part.operationSettled_owned (owned : ∀ t ∈ o.targets, ∃ r, p.slot? t.1 = some r ∧ r.owner ≠ none) :
    p.operationSettled o = p.operationWritten o := by
  refine Part.foldl_settleSlot_owned fun slot listed => ?_
  obtain ⟨t, member, rfl⟩ := List.mem_map.1 listed
  exact owned t member

theorem Part.completeCombine_lane {r : CombineRequest} {n : Nat} {tag : Tag} (source : r.source = .lane n tag) :
    p.completeCombine r = p.lowerWarning.completeAtLane n tag r.chunk := by
  simp only [Part.completeCombine, source]

theorem Part.completeCombine_internal {r : CombineRequest} (source : r.source = .internal) :
    p.completeCombine r = p.lowerWarning.completeAtServe r.context r.generation := by
  simp only [Part.completeCombine, source]

/-- No lane's window opens where the warning falls (R112, R143). -/
def Part.staysShut (p : Part) : Prop :=
  p.cbe.warning = true → p.cbe.queue.length = 32 →
    ∀ r ∈ p.ftu, ∀ u, r.2.use = some u → u.state = .streaming → ¬ u.windowOpen 2

theorem Part.staysShut.lane (shut : p.staysShut) (raised : p.cbe.warning = true) (low : p.cbe.queue.length = 32) (n : Nat)
    (u : LaneUse) (use : p.laneUse? n = some u) (streams : u.state = .streaming) : ¬ u.windowOpen 2 := by
  obtain ⟨l, row, held⟩ := (p.laneUse?_eq_some n u).1 use
  exact shut raised low (n, l) (Table.row?_mem row) u held streams

variable (operation : p.cbe.operation = some o)
  (owned : ∀ t ∈ o.targets, ∃ r, p.slot? t.1 = some r ∧ r.owner ≠ none) (shut : p.staysShut)
include operation owned shut

/-- The completion of an operation whose context is no longer current (R139). -/
theorem Part.endCombine_stale (stale : p.gatheringAt o.request.context o.request.generation = false) :
    (∀ n tag, o.request.source = .lane n tag →
      p.endCombine = (p.operationEnded.setDram (p.smc.dram.combineAll o)).completeAtLane n tag o.request.chunk)
    ∧ (o.request.source = .internal → p.endCombine =
      (p.operationEnded.setDram (p.smc.dram.combineAll o)).completeAtServe o.request.context o.request.generation) := by
  have recorded : (p.operationWritten o).recordContribution o = p.operationWritten o := by
    have none_ : (p.operationWritten o).combineContext? o.request = none := Part.combineContext?_stale stale
    simp only [Part.recordContribution, none_]
  have lowered : (p.operationWritten o).lowerWarning = p.operationEnded.setDram (p.smc.dram.combineAll o) :=
    Part.lowerWarning_eq (p := p.operationWritten o) rfl shut.lane
  rw [Part.endCombine_eq operation, Part.operationSettled_owned owned, recorded]
  refine ⟨fun n tag source => ?_, fun source => ?_⟩
  · rw [Part.completeCombine_lane source, lowered]
  · rw [Part.completeCombine_internal source, lowered]

/-- The completion of an operation whose context is current and whose source is a lane (R139). -/
theorem Part.endCombine_lane {x : Context} {g : Geometry} {n : Nat} {tag : Tag} {u : LaneUse}
    (inUse : p.context? o.request.context = some x)
    (current : p.gatheringAt o.request.context o.request.generation = true) (geometry : p.geometry? x.geometry = some g)
    (source : o.request.source = .lane n tag) (use : p.laneUse? n = some u)
    (tagged : fetchTag n (p.lane n).useCount = tag) : p.endCombine =
      (((p.contributionMade o g.k).setUse n { u with runningDigest := digestAdvance u.runningDigest o.operand }).setDram
        (p.smc.dram.combineAll o)).completeAtLane n tag o.request.chunk := by
  have counted : (p.operationWritten o).contributionK x = g.k :=
    (congrArg (fun h : Option Geometry => (h.map Geometry.k).getD 0) geometry :)
  have recorded := Part.recordContribution_lane (p := p.operationWritten o) source use tagged inUse current
  rw [counted] at recorded
  obtain ⟨v, v_eq⟩ : ∃ v : LaneUse, v = { u with runningDigest := digestAdvance u.runningDigest o.operand } := ⟨_, rfl⟩
  obtain ⟨r, r_eq⟩ : ∃ r, r = (p.operationWritten o).recordContribution o := ⟨_, rfl⟩
  rw [← v_eq, ← r_eq] at recorded
  have lane (m : Nat) : r.laneUse? m = if m = n then some v else p.laneUse? m := by
    obtain ⟨l, row, -⟩ := (p.laneUse?_eq_some n u).1 use
    rw [recorded, Part.laneUse?, Part.lane]
    refine (congrArg (fun f : Option Lane => (f.getD Lane.reset).use) (Table.row?_editRow p.ftu m n fun l => { l with use := some v })).trans ?_
    by_cases here : m = n
    · simp [here, row]
    · simp [here, Part.laneUse?, Part.lane]
  have lowered : r.lowerWarning = ((p.contributionMade o g.k).setUse n v).setDram (p.smc.dram.combineAll o) := by
    refine (Part.lowerWarning_eq (by rw [recorded]; rfl) fun raised low m a held streams => ?_).trans ?_
    · have raised' : p.cbe.warning = true := by rw [recorded] at raised; exact raised
      have low' : p.cbe.queue.length = 32 := by rw [recorded] at low; exact low
      rw [lane m] at held
      split at held
      · obtain rfl := Option.some.inj held
        rw [v_eq] at streams ⊢
        exact shut.lane raised' low' n u use streams
      · exact shut.lane raised' low' m a held streams
    · rw [recorded]
      rfl
  rw [Part.endCombine_eq operation, Part.operationSettled_owned owned, ← r_eq, Part.completeCombine_lane source, lowered, v_eq]

end

/-! ## What the lane makes of its completion (R114 to R116) -/

/-- A lane's use after its next chunk has been combined (R115). -/
theorem LaneUse.consumed_eq (u : LaneUse) (operand : List Byte) :
    LaneUse.consumed u operand = { LaneUse.setBank { u with runningDigest := digestAdvance u.runningDigest operand }
      u.nextConsume .empty with nextConsume := u.nextConsume + 1 } := by
  unfold LaneUse.consumed LaneUse.setBank
  split <;> rfl

/-- A lane whose mark is clear posts the request of its next chunk where that stands in its bank (R114). -/
theorem Part.laneCombine_nextAsked {p : Part} {n : Nat} {u : LaneUse} (use : p.laneUse? n = some u)
    (active : u.active = true) (clear : (p.lane n).outstanding = false) : p.laneCombine n = p.nextAsked n u := by
  by_cases full : (u.bankOf u.nextConsume).fullFor u.nextConsume = true
  · exact (Part.laneCombine_asks use active full clear).trans (if_pos full).symm
  · exact (Part.laneCombine_notFull use (Bool.eq_false_iff.2 full)).trans (if_neg full).symm

theorem Part.laneCombine_inactive {p : Part} {n : Nat} {u : LaneUse} (use : p.laneUse? n = some u)
    (ended : u.active = false) : p.laneCombine n = p := by
  simp only [Part.laneCombine, use, ended, Bool.false_and, Bool.false_eq_true, if_false]

/-- A combine request posted is no write into the DRAM (R136). -/
theorem Part.postCombine_setDram (p : Part) (d : Dram) (r : CombineRequest) :
    (p.setDram d).postCombine r = (p.postCombine r).setDram d := by
  rw [Part.postCombine_eq, Part.postCombine_eq]
  change (if p.combineDepth = 95 ∧ p.cbe.warning = false then _ else _) = _
  split <;> rfl

theorem Part.nextAsked_setDram (p : Part) (d : Dram) (n : Nat) (u : LaneUse) :
    (p.setDram d).nextAsked n u = (p.nextAsked n u).setDram d := by
  unfold Part.nextAsked
  split
  · exact Part.postCombine_setDram (p.editLane n fun l => { l with outstanding := true }) d _
  · rfl

theorem Part.dram_postCombine (p : Part) (r : CombineRequest) : (p.postCombine r).smc = p.smc := by
  rw [Part.postCombine_eq]
  split <;> rfl

theorem Part.dram_nextAsked (p : Part) (n : Nat) (u : LaneUse) : (p.nextAsked n u).smc = p.smc := by
  unfold Part.nextAsked
  split
  · exact Part.dram_postCombine _ _
  · rfl

theorem Part.laneUse?_nextAsked (p : Part) (n m : Nat) (u : LaneUse) : (p.nextAsked n u).laneUse? m = p.laneUse? m := by
  unfold Part.nextAsked
  split
  · rw [Part.postCombine_eq]
    refine Eq.trans ?_ (Part.laneUse?_editLane_same p n m (f := fun l => { l with outstanding := true }) fun _ => rfl)
    split <;> rfl
  · rfl

theorem Part.smc_sendPull (p : Part) (n : Nat) : (p.sendPull n).smc = p.smc := by
  have started (q : Part) (chunk : Nat) : (q.startPullTimeout n chunk).smc = q.smc := by
    unfold Part.startPullTimeout
    split
    · rfl
    · split
      · split <;> rfl
      · rfl
  unfold Part.sendPull
  split
  · rfl
  · split
    · unfold Part.postPull
      dsimp only
      rw [Part.post_eq]
      split
      · rfl
      · exact started _ _
    · rfl

end Sys2Proof.Machine

/-! What a lane makes of its combine completion (R112, R114 to R116, R139). -/

namespace Sys2Proof.Machine

theorem Part.setDram_back {p : Part} {e : Dram} (same : p.smc.dram = e) (d : Dram) : (p.setDram d).setDram e = p := by
  subst same
  rfl

theorem Part.consumeChunk_eq (p : Part) (n : Nat) (u : LaneUse) (chunk : Nat) {v : LaneUse}
    (v_eq : v = { u.setBank chunk .empty with nextConsume := u.nextConsume + 1 }) : p.consumeChunk n u chunk =
      if chunkCountOf u.length ≤ v.nextConsume then (p.setUse n v).endFragment n
      else if u.state = .streaming then ((p.setUse n v).laneCombine n).testWindow n
      else (p.setUse n v).laneCombine n := by
  rw [v_eq]
  rfl

/-- A lane whose fragment ends as expected is COMPLETE, and sends its RELEASE (R116). -/
theorem Part.endFragment_complete {p : Part} {n : Nat} {u : LaneUse} (use : p.laneUse? n = some u)
    (sound : u.digest = none ∨ u.digest = some (digestFinish u.runningDigest))
    (current : p.generation u.context = u.generation) (room : p.queueOpen) : p.endFragment n =
      (((p.withdrawRequests n).setUse n { u with state := .complete }).queued (some u.server)
        (.release (fetchTag n (p.lane n).useCount))).checkGathered u.context := by
  have checked : (u.digest.isSome && u.digest != some (digestFinish u.runningDigest)) = false := by
    rcases sound with none_ | known
    · simp [none_]
    · simp [known]
  have posted := Part.postRelease_setUse use room { u with state := .complete } u.server
  have moved : ((p.withdrawRequests n).setUse n { u with state := .complete }).postRelease n u.server =
      ((p.withdrawRequests n).setUse n { u with state := .complete }).queued (some u.server)
        (.release (fetchTag n (p.lane n).useCount)) := posted
  have still : (((p.withdrawRequests n).setUse n { u with state := .complete }).queued (some u.server)
      (.release (fetchTag n (p.lane n).useCount))).generation u.context = u.generation := by
    rw [Part.withdrawRequests_noneHeld room.1]
    exact current
  simp only [Part.endFragment, use, checked, Bool.false_eq_true, if_false]
  rw [moved, if_pos still]

/-- A context with a contribution still gathers (R139). -/
theorem Context.contributed_rest (x : Context) (k chunk survivor : Nat) :
    (x.contributed k chunk survivor).pendingOutcome = x.pendingOutcome
      ∧ (x.contributed k chunk survivor).state = x.state
      ∧ (x.contributed k chunk survivor).reservation = x.reservation := ⟨rfl, rfl, rfl⟩

/-- What gatheringAt says of a context (R137). -/
theorem Part.gatheringAt_shows {p : Part} {c : Nat} {generation : BitVec 8} {x : Context} (inUse : p.context? c = some x)
    (current : p.gatheringAt c generation = true) :
    x.pendingOutcome = none ∧ x.state = .gathering ∧ p.generation c = generation := by
  simp only [Part.gatheringAt, inUse] at current
  simpa [Context.live, and_assoc] using current

section
variable {w : List Instr} {p : Part} {o : CombineOperation} {x : Context} {g : Geometry} {n : Nat} {tag : Tag}
  {u v : LaneUse} {done : Part}
  (operation : p.cbe.operation = some o)
  (combined : p.smc.dram.combined (p.smc.dram.combineAll o) o)
  (owned : ∀ t ∈ o.targets, ∃ r, p.slot? t.1 = some r ∧ r.owner ≠ none) (shut : p.staysShut)
  (inUse : p.context? o.request.context = some x)
  (current : p.gatheringAt o.request.context o.request.generation = true) (geometry : p.geometry? x.geometry = some g)
  (source : o.request.source = .lane n tag) (use : p.laneUse? n = some u)
  (tagged : fetchTag n (p.lane n).useCount = tag) (active : u.active = true) (next : u.nextConsume = o.request.chunk)
  (v_eq : v = u.consumed o.operand)
  (done_eq : done = ((p.contributionMade o g.k).editLane n fun l => { l with outstanding := false, use := some v }))

omit use in
theorem Part.laneUse?_combineDone (row : ∃ l, p.ftu.row? n = some l) (done_eq : done =
    ((p.contributionMade o g.k).editLane n fun l => { l with outstanding := false, use := some v })) :
    done.laneUse? n = some v ∧ (done.lane n).outstanding = false
      ∧ (done.lane n).useCount = (p.lane n).useCount := by
  obtain ⟨l, row⟩ := row
  have read : done.ftu.row? n = some { l with outstanding := false, use := some v } := by
    rw [done_eq]
    refine (Table.row?_editRow p.ftu n n fun l => { l with outstanding := false, use := some v }).trans ?_
    rw [if_pos rfl, row]
    rfl
  simp only [Part.laneUse?, Part.lane, read, row, Option.getD_some, and_self]

include operation owned shut inUse current geometry source use tagged active next v_eq done_eq

/-- The lane's part of the event, from the part with its chunk consumed (R115). -/
theorem Part.endCombine_consumed : p.endCombine =
    if chunkCountOf u.length ≤ v.nextConsume then (done.setDram (p.smc.dram.combineAll o)).endFragment n
    else if u.state = .streaming then
      ((done.nextAsked n v).setDram (p.smc.dram.combineAll o)).testWindow n
    else (done.nextAsked n v).setDram (p.smc.dram.combineAll o) := by
  obtain ⟨d, d_eq⟩ : ∃ d, d = p.smc.dram.combineAll o := ⟨_, rfl⟩
  obtain ⟨a, a_eq⟩ : ∃ a : LaneUse, a = { u with runningDigest := digestAdvance u.runningDigest o.operand } := ⟨_, rfl⟩
  obtain ⟨q, q_eq⟩ : ∃ q, q = ((p.contributionMade o g.k).setUse n a).setDram d := ⟨_, rfl⟩
  have start := Part.endCombine_lane operation owned shut inUse current geometry source use tagged
  rw [← d_eq, ← a_eq, ← q_eq] at start
  have use_q : q.laneUse? n = some a := by
    rw [q_eq]
    exact Part.laneUse?_setUse (p.contributionMade o g.k) n a u use
  have tagged_q : fetchTag n (q.lane n).useCount = tag := by
    rw [q_eq]
    refine Eq.trans (congrArg (fun l : Lane => fetchTag n l.useCount)
      (Part.lane_setUse (p.contributionMade o g.k) n a u use) :) ?_
    exact tagged
  have active_a : a.active = true := by rw [a_eq]; exact active
  have v_a : v = { a.setBank o.request.chunk .empty with nextConsume := a.nextConsume + 1 } := by
    rw [v_eq, LaneUse.consumed_eq, a_eq, next]
  have written : (q.editLane n fun l => { l with outstanding := false }).setUse n v = done.setDram d := by
    rw [q_eq, done_eq]
    simp only [Part.setUse, Part.editLane, Part.setDram, Table.editRow_editRow]
  obtain ⟨l, row, -⟩ := (p.laneUse?_eq_some n u).1 use
  obtain ⟨use_d, clear, -⟩ := Part.laneUse?_combineDone ⟨l, row⟩ done_eq
  have active_v : v.active = true := by
    rw [v_eq, LaneUse.active, show (u.consumed o.operand).state = u.state from LaneUse.setBank_state _ _ _]
    exact active
  have asked : (done.setDram d).laneCombine n = (done.nextAsked n v).setDram d := by
    rw [Part.laneCombine_nextAsked (p := done.setDram d) use_d active_v clear, Part.nextAsked_setDram]
  have length : a.length = u.length ∧ a.state = u.state := by rw [a_eq]; exact ⟨rfl, rfl⟩
  rw [start, Part.completeAtLane_active use_q tagged_q active_a, Part.consumeChunk_eq _ n a _ v_a, written, asked,
    length.1, length.2, d_eq]

include combined

/-- Before the last chunk the lane asks for the next, and tests its window while it streams (R112, R114, R115). -/
theorem endsCombine_laneGoesOn (more : v.nextConsume < chunkCountOf u.length) :
    (u.state ≠ .streaming → EndsCombine w p o (done.nextAsked n v))
      ∧ (u.state = .streaming → (done.nextAsked n v).windowTested n v
        (if (done.nextAsked n v).cbe.warning = true then 1 else 2) (EndsCombine w p o)) := by
  have effect := Part.endCombine_consumed operation owned shut inUse current geometry source use tagged active next v_eq done_eq
  rw [if_neg (Nat.not_le.2 more)] at effect
  have dram : (done.nextAsked n v).smc.dram = p.smc.dram := by
    rw [Part.dram_nextAsked, done_eq]
    rfl
  refine ⟨fun other => ?_, fun streams => ?_⟩
  · rw [if_neg other] at effect
    have ends := endsCombine_of (w := w) combined effect rfl
    rwa [Part.setDram_back dram] at ends
  · rw [if_pos streams] at effect
    obtain ⟨q, q_eq⟩ : ∃ q, q = done.nextAsked n v := ⟨_, rfl⟩
    rw [← q_eq] at effect dram ⊢
    obtain ⟨l, row, -⟩ := (p.laneUse?_eq_some n u).1 use
    have use_q : q.laneUse? n = some v := by
      rw [q_eq, Part.laneUse?_nextAsked]
      exact (Part.laneUse?_combineDone ⟨l, row⟩ done_eq).1
    have state : v.state = .streaming := by
      rw [v_eq]
      exact (LaneUse.setBank_state _ _ _).trans streams
    have shown := endsCombine_of (w := w) combined effect (by
      rw [Part.testWindow, Part.smc_sendPull, Part.smc_sendPull]
      rfl)
    have tested := Part.testWindow_tested (q.setDram (p.smc.dram.combineAll o)) n v use_q state
      (fun r => EndsCombine w p o (r.setDram p.smc.dram)) shown
    have back (r : Part) (same : r.smc = q.smc) : (r.setDram (p.smc.dram.combineAll o)).setDram p.smc.dram = r :=
      Part.setDram_back (by rw [same]; exact dram) _
    obtain ⟨none_, one, two⟩ := tested
    refine ⟨fun closed => ?_, fun open_ closed room => ?_, fun open_ again room => ?_⟩
    · rw [← back q rfl]
      exact none_ closed
    · rw [← back (q.pullSent n v) rfl]
      exact one open_ closed room
    · rw [← back ((q.pullSent n v).pullSent n v.pulled) rfl]
      exact two open_ again room

/-- After the last chunk the lane is COMPLETE, and its context is told (R93, R115, R116). -/
theorem endsCombine_laneCompletes (last : chunkCountOf u.length ≤ v.nextConsume)
    (sound : u.digest = none ∨ u.digest = some (v.runningDigest ^^^ 0xFFFFFFFF#32))
    (mine : u.context = o.request.context) (same : u.generation = o.request.generation) (room : p.roomFor 1) :
    Part.gatheredTested (((done.withdrawRequests n).setUse n { v with state := .complete }).queued
      (some u.server) (.release tag)) o.request.context x (EndsCombine w p o) := by
  have effect := Part.endCombine_consumed operation owned shut inUse current geometry source use tagged active next v_eq done_eq
  rw [if_pos last] at effect
  obtain ⟨l, row, -⟩ := (p.laneUse?_eq_some n u).1 use
  obtain ⟨use_d, -, count⟩ := Part.laneUse?_combineDone ⟨l, row⟩ done_eq
  obtain ⟨live, state, generation⟩ := Part.gatheringAt_shows inUse current
  have kept : v.digest = u.digest ∧ v.server = u.server ∧ v.context = u.context ∧ v.generation = u.generation := by
    rw [v_eq, LaneUse.consumed, LaneUse.setBank]
    split <;> exact ⟨rfl, rfl, rfl, rfl⟩
  obtain ⟨digest, server, context, generation_v⟩ := kept
  have open_ : done.queueOpen := by
    rw [done_eq]
    exact p.queueOpen_of_roomFor (Nat.le_refl 1) room
  have ended := Part.endFragment_complete (p := done.setDram (p.smc.dram.combineAll o)) use_d (by rw [digest]; exact sound) (by
    rw [context, generation_v, mine, same, ← generation, done_eq]
    rfl) open_
  obtain ⟨q, q_eq⟩ : ∃ q, q = ((done.withdrawRequests n).setUse n { v with state := .complete }).queued
      (some u.server) (.release tag) := ⟨_, rfl⟩
  have moved : (((done.setDram (p.smc.dram.combineAll o)).withdrawRequests n).setUse n { v with state := .complete }).queued
      (some v.server) (.release (fetchTag n ((done.setDram (p.smc.dram.combineAll o)).lane n).useCount)) =
      q.setDram (p.smc.dram.combineAll o) := by
    have tag_eq : fetchTag n ((done.setDram (p.smc.dram.combineAll o)).lane n).useCount = tag := by
      rw [← tagged, ← count]
      rfl
    rw [q_eq, tag_eq, server, Part.withdrawRequests_noneHeld open_.1,
      Part.withdrawRequests_noneHeld (p := done.setDram (p.smc.dram.combineAll o)) open_.1]
    rfl
  rw [ended, moved, context, mine] at effect
  have rest : q.ctx = done.ctx ∧ q.smc = done.smc := by
    rw [q_eq, Part.withdrawRequests_noneHeld open_.1]
    exact ⟨rfl, rfl⟩
  obtain ⟨y, y_eq⟩ : ∃ y, y = x.contributed g.k o.request.chunk o.request.survivor := ⟨_, rfl⟩
  have inUse_q : (q.setDram (p.smc.dram.combineAll o)).context? o.request.context = some y := by
    have read := Part.context?_editContext inUse fun y => y.contributed g.k o.request.chunk o.request.survivor
    rw [y_eq, ← read, Part.context?]
    change q.ctx.contexts.row? _ = _
    rw [rest.1, done_eq]
    rfl
  obtain ⟨live_y, state_y, lanes_y⟩ := x.contributed_rest g.k o.request.chunk o.request.survivor
  rw [← y_eq] at live_y state_y lanes_y
  have shown := endsCombine_of (w := w) combined effect (Part.dram_checkGathered _ _)
  have tested := Part.checkGathered_tested inUse_q (live_y.trans live) (state_y.trans state) lanes_y
    (ends := fun r => EndsCombine w p o (r.setDram p.smc.dram)) shown
  have dram : q.smc.dram = p.smc.dram := by
    rw [rest.2, done_eq]
    rfl
  rw [← q_eq]
  obtain ⟨not_, all⟩ := tested
  refine ⟨fun partly => ?_, fun whole rising openers held => ?_⟩
  · rw [← Part.setDram_back dram (p.smc.dram.combineAll o)]
    exact not_ partly
  · rw [← Part.setDram_back (p := q.verifying o.request.context x) dram (p.smc.dram.combineAll o)]
    exact all whole rising openers held

end

end Sys2Proof.Machine

/-! A combine operation whose source is the serve unit, and stale ones (R133, R134, R139). -/

namespace Sys2Proof.Machine

/-! ## The internal opener of a context, read after it is written (R133) -/

/-- The internal opener that an opener is, where it is one of the context. -/
def Opener.internalOf? (c : Nat) : Opener → Option InternalOpener
  | .internal i => if i.context = c then some i else none
  | .remote .. => none

theorem Opener.internalOf?_some {c : Nat} {o : Opener} {i : InternalOpener} :
    o.internalOf? c = some i ↔ o = .internal i ∧ i.context = c := by
  cases o with
  | remote => exact ⟨nofun, fun h => nomatch h.1⟩
  | internal k =>
    simp only [Opener.internalOf?, Option.ite_none_right_eq_some, Option.some.injEq, Opener.internal.injEq]
    constructor
    · rintro ⟨mine, rfl⟩
      exact ⟨rfl, mine⟩
    · rintro ⟨rfl, mine⟩
      exact ⟨mine, rfl⟩

theorem Opener.isInternalOf_iff {c : Nat} {o : Opener} : o.isInternalOf c = true ↔ ∃ i, o.internalOf? c = some i := by
  cases o with
  | remote => simp [Opener.isInternalOf, Opener.internalOf?]
  | internal k => simp [Opener.isInternalOf, Opener.internalOf?]

theorem Part.attachedOpener?_eq (p : Part) (c : Nat) : p.attachedOpener? c = p.svu.entries.findSome? fun r =>
    (r.2.openers.findSome? (Opener.internalOf? c)).map fun i => (r.1, r.2, i) := by
  unfold Part.attachedOpener?
  refine congrArg (p.svu.entries.findSome? ·) (funext fun r => ?_)
  induction r.2.openers with
  | nil => rfl
  | cons o rest ih =>
    rw [List.findSome?_cons, List.findSome?_cons]
    cases o with
    | remote => exact ih
    | internal i =>
      by_cases mine : i.context = c
      · simp [Opener.internalOf?, mine]
      · simpa [Opener.internalOf?, mine] using ih

/-- The entry with the internal opener of a context written (R133). -/
def ServeEntry.withOpener (e : ServeEntry) (c : Nat) (i : InternalOpener) : ServeEntry :=
  { e with openers := e.openers.map fun o => if o.isInternalOf c = true then .internal i else o }

theorem ServeEntry.withOpener_withOpener (e : ServeEntry) {c : Nat} {i : InternalOpener} (mine : i.context = c)
    (j : InternalOpener) : (e.withOpener c i).withOpener c j = e.withOpener c j := by
  have changed : ((e.openers.map fun o => if o.isInternalOf c = true then .internal i else o).map fun o =>
      if o.isInternalOf c = true then .internal j else o) =
      e.openers.map fun o => if o.isInternalOf c = true then .internal j else o := by
    rw [List.map_map]
    have own : (Opener.internal i).isInternalOf c = true := by simp [Opener.isInternalOf, mine]
    refine List.map_congr_left fun o _ => ?_
    by_cases here : o.isInternalOf c = true
    · simp [here, own]
    · simp [here]
  rw [ServeEntry.withOpener, ServeEntry.withOpener, changed]
  rfl

theorem findSome?_withOpener {c : Nat} {openers : List Opener} {i j : InternalOpener}
    (found : openers.findSome? (Opener.internalOf? c) = some i) (mine : j.context = c) :
    (openers.map fun o => if o.isInternalOf c = true then Opener.internal j else o).findSome? (Opener.internalOf? c) =
      some j := by
  induction openers with
  | nil => exact nomatch found
  | cons o rest ih =>
    rw [List.findSome?_cons] at found
    rw [List.map_cons, List.findSome?_cons]
    cases here : o.internalOf? c with
    | some k =>
      rw [if_pos (Opener.isInternalOf_iff.2 ⟨k, here⟩)]
      simp [Opener.internalOf?, mine]
    | none =>
      rw [here] at found
      have other : ¬ o.isInternalOf c = true := fun own => by
        obtain ⟨k, some_⟩ := Opener.isInternalOf_iff.1 own
        exact nomatch here.symm.trans some_
      rw [if_neg other, here]
      exact ih found

section
variable {p : Part} {c n : Nat} {e : ServeEntry} {i : InternalOpener}
  (attached : p.attachedOpener? c = some (n, e, i))
include attached

/-- The attached opener stands in an entry. -/
theorem Part.attachedOpener?_shows : (n, e) ∈ p.svu.entries ∧ .internal i ∈ e.openers ∧ i.context = c := by
  rw [Part.attachedOpener?_eq] at attached
  obtain ⟨r, member, found⟩ := List.exists_of_findSome?_eq_some attached
  obtain ⟨k, first, same⟩ := Option.map_eq_some_iff.1 found
  obtain ⟨rfl, rfl, rfl⟩ : r.1 = n ∧ r.2 = e ∧ k = i := by simpa using same
  obtain ⟨o, listed, shown⟩ := List.exists_of_findSome?_eq_some first
  obtain ⟨rfl, mine⟩ := Opener.internalOf?_some.1 shown
  exact ⟨member, listed, mine⟩

/-- The opener of a context after it has been written in its entry (R133). -/
theorem Part.attachedOpener?_setServe (row : p.serve? n = some e) (rising : p.svu.entries.rising = true)
    {f : ServeEntry} {j : InternalOpener} (mine : j.context = c) (openers : f.openers = (e.withOpener c j).openers) :
    (p.setServe n f).attachedOpener? c = some (n, f, j) := by
  rw [Part.attachedOpener?_eq] at attached ⊢
  change ((p.svu.entries.setRow n f).findSome? _) = _
  rw [Table.setRow_eq_editRow rising f row]
  have row' : p.svu.entries.row? n = some e := row
  generalize p.svu.entries = t at attached row'
  induction t with
  | nil => exact nomatch attached
  | cons r rest ih =>
    obtain ⟨m, a⟩ := r
    rw [List.findSome?_cons] at attached
    rw [Table.editRow, List.map_cons, List.findSome?_cons]
    by_cases here : m = n
    · obtain rfl : a = e := by simpa [Table.row?, here] using row'
      cases found : a.openers.findSome? (Opener.internalOf? c) with
      | some k =>
        have written := findSome?_withOpener found mine
        have first : f.openers.findSome? (Opener.internalOf? c) = some j := by rw [openers]; exact written
        simp [here, first]
      | none =>
        rw [found] at attached
        have later : (rest.findSome? fun r => (r.2.openers.findSome? (Opener.internalOf? c)).map fun i => (r.1, r.2, i))
          = some (n, a, i) := attached
        obtain ⟨s, -, shown⟩ := List.exists_of_findSome?_eq_some later
        obtain ⟨k, first, same⟩ := Option.map_eq_some_iff.1 shown
        obtain ⟨-, entry, -⟩ : s.1 = n ∧ s.2 = a ∧ k = i := by simpa using same
        rw [entry, found] at first
        exact nomatch first
    · rw [if_neg here]
      have row_rest : Table.row? rest n = some e := by simpa [Table.row?, here] using row'
      cases found : a.openers.findSome? (Opener.internalOf? c) with
      | some k =>
        rw [found] at attached
        have same : m = n ∧ a = e ∧ k = i := by simpa using attached
        exact absurd same.1 here
      | none =>
        rw [found] at attached
        simp only [Option.map_none]
        exact ih attached row_rest

end

theorem Part.setOpener_eq {p : Part} {n : Nat} {e : ServeEntry} {i : InternalOpener} {c : Nat} (row : p.serve? n = some e)
    (mine : i.context = c) : p.setOpener n i = p.setServe n (e.withOpener c i) := by
  subst mine
  simp only [Part.setOpener, row]
  rfl

theorem Part.setServe_setServe (p : Part) (n : Nat) (e f : ServeEntry) :
    (p.setServe n e).setServe n f = p.setServe n f := by
  simp only [Part.setServe, Table.setRow_setRow]

theorem Part.serve?_setServe (p : Part) (n : Nat) (e : ServeEntry) : (p.setServe n e).serve? n = some e :=
  Table.row?_setRow_self _ _ _

end Sys2Proof.Machine

/-! What the serve unit makes of its combine completion, and the completion of a stale request (R133, R134, R139). -/

namespace Sys2Proof.Machine

theorem Part.smc_feed (p : Part) (c : Nat) : (p.feed c).smc = p.smc := by
  unfold Part.feed
  split
  · split
    · exact Part.dram_postCombine _ _
    · rfl
  · rfl

/-- An internal opener that may not post its next chunk posts nothing (R133). -/
theorem Part.feed_still {p : Part} {c n : Nat} {e : ServeEntry} {i : InternalOpener}
    (attached : p.attachedOpener? c = some (n, e, i))
    (still : e.state ≠ .staged ∨ i.ended ≠ .open_ ∨ chunkCountOf e.length ≤ i.nextChunk) : p.feed c = p := by
  simp only [Part.feed, attached]
  refine if_neg fun h => ?_
  obtain ⟨staged, ended, more, -⟩ := h
  rcases still with other | other | done
  · exact other staged
  · exact other ended
  · omega

/-- An internal opener whose context's mark is clear posts the request of its next chunk (R133). -/
theorem Part.feed_asks {p : Part} {c n : Nat} {e : ServeEntry} {i : InternalOpener}
    (attached : p.attachedOpener? c = some (n, e, i)) (staged : e.state = .staged) (ended : i.ended = .open_)
    (more : i.nextChunk < chunkCountOf e.length) (clear : c ∉ p.svu.combineMarks) : p.feed c =
      { p with svu := { p.svu with combineMarks := insertPosition c p.svu.combineMarks } }.postCombine
        { context := c, generation := i.generation, survivor := 0, chunk := i.nextChunk, source := .internal } := by
  simp only [Part.feed, attached]
  exact if_pos ⟨staged, ended, more, by simpa using clear⟩

/-- The part with the combine mark of a context clear (R133, R139). -/
def Part.unmarkedFor (p : Part) (c : Nat) : Part :=
  { p with svu := { p.svu with combineMarks := p.svu.combineMarks.filter (· != c) } }

section
variable {p : Part} {c : Nat} {generation : BitVec 8}

theorem Part.completeAtServe_none (none_ : p.attachedOpener? c = none) :
    p.completeAtServe c generation = p.unmarkedFor c := by
  have none' : (p.unmarkedFor c).attachedOpener? c = none := none_
  rw [Part.unmarkedFor] at none' ⊢
  simp only [Part.completeAtServe, none']

variable {n : Nat} {e : ServeEntry} {i : InternalOpener} (attached : p.attachedOpener? c = some (n, e, i))
include attached

/-- An opener of another generation only posts the request that waited (R133). -/
theorem Part.completeAtServe_other (other : i.generation ≠ generation) :
    p.completeAtServe c generation = (p.unmarkedFor c).feed c := by
  have attached' : (p.unmarkedFor c).attachedOpener? c = some (n, e, i) := attached
  rw [Part.unmarkedFor] at attached' ⊢
  simp only [Part.completeAtServe, attached', if_neg other]

/-- An opener of the request's generation goes on to its next chunk, or ends (R133). -/
theorem Part.completeAtServe_current (current : i.generation = generation) {j : InternalOpener}
    (j_eq : j = { i with nextChunk := i.nextChunk + 1 }) : p.completeAtServe c generation =
      if chunkCountOf e.length ≤ j.nextChunk then (((p.unmarkedFor c).setOpener n j).touchServe n).endOpener n j
      else (((p.unmarkedFor c).setOpener n j).touchServe n).feed c := by
  have attached' : (p.unmarkedFor c).attachedOpener? c = some (n, e, i) := attached
  rw [Part.unmarkedFor] at attached' ⊢
  simp only [Part.completeAtServe, attached', if_pos current, j_eq]

end

theorem not_mem_filter_ne (c : Nat) (marks : List Nat) : c ∉ marks.filter (· != c) := by simp

section
variable {w : List Instr} {p : Part} {o : CombineOperation}
  (operation : p.cbe.operation = some o)
  (combined : p.smc.dram.combined (p.smc.dram.combineAll o) o)
  (owned : ∀ t ∈ o.targets, ∃ r, p.slot? t.1 = some r ∧ r.owner ≠ none) (shut : p.staysShut)

/-! ## A completion whose context is no longer current (R139) -/

section
variable (stale : p.gatheringAt o.request.context o.request.generation = false)
include operation owned shut stale combined

theorem endsCombine_staleLane {n : Nat} {tag : Tag} (source : o.request.source = .lane n tag) {done : Part}
    (done_eq : done = (p.operationEnded.editLane n fun l => { l with outstanding := false })) :
    (p.laneUse? n = none → EndsCombine w p o done)
      ∧ ∀ u, p.laneUse? n = some u → fetchTag n (p.lane n).useCount ≠ tag →
        EndsCombine w p o (if u.active = true then done.nextAsked n u else done) := by
  obtain ⟨d, d_eq⟩ : ∃ d, d = p.smc.dram.combineAll o := ⟨_, rfl⟩
  have effect := (Part.endCombine_stale operation owned shut stale).1 n tag source
  rw [← d_eq] at effect
  have use : (done.setDram d).laneUse? n = p.laneUse? n := by
    rw [done_eq]
    exact Part.laneUse?_editLane_same p n n (f := fun l => { l with outstanding := false }) fun _ => rfl
  have lane : (done.setDram d).lane n = { p.lane n with outstanding := false } := by
    rw [done_eq]
    refine (Part.lane_editRow p _ n n (fun l => { l with outstanding := false }) rfl rfl).trans (if_pos rfl)
  have dram (q : Part) (same : q.smc = done.smc) (ends : EndsCombine w p o ((q.setDram d).setDram p.smc.dram)) :
      EndsCombine w p o q := by
    rwa [Part.setDram_back (by rw [same, done_eq]; rfl)] at ends
  refine ⟨fun idle => ?_, fun u used other => ?_⟩
  · have taken : p.endCombine = done.setDram d := by
      rw [effect, Part.completeAtLane]
      simp only [show Part.laneUse? (Part.editLane (p.operationEnded.setDram d) n fun l => { l with outstanding := false }) n
        = none by rw [← idle, ← use, done_eq]; rfl]
      rw [done_eq]
      rfl
    exact dram done rfl (endsCombine_of combined taken d_eq)
  · have asks : p.endCombine = (done.setDram d).laneCombine n := by
      have used' : Part.laneUse? (Part.editLane (p.operationEnded.setDram d) n fun l => { l with outstanding := false }) n
          = some u := by
        rw [← used, ← use, done_eq]
        rfl
      have fresh : tag ≠ Part.laneTag (Part.editLane (p.operationEnded.setDram d) n fun l => { l with outstanding := false }) n := by
        intro same
        refine other (Eq.trans ?_ same.symm)
        rw [done_eq] at lane
        exact (congrArg (fun l : Lane => fetchTag n l.useCount) lane :).symm
      rw [effect, Part.completeAtLane]
      simp only [used', if_pos fresh]
      rw [done_eq]
      rfl
    by_cases active : u.active = true
    · rw [if_pos active]
      rw [Part.laneCombine_nextAsked (use.trans used) active (by rw [lane]), Part.nextAsked_setDram] at asks
      exact dram _ (Part.dram_nextAsked done n u) (endsCombine_of combined asks d_eq)
    · rw [if_neg active]
      rw [Part.laneCombine_inactive (use.trans used) (Bool.eq_false_iff.2 active)] at asks
      exact dram done rfl (endsCombine_of combined asks d_eq)

theorem endsCombine_staleInternal (source : o.request.source = .internal) {done : Part}
    (done_eq : done = { p.operationEnded with
      svu := { p.svu with combineMarks := p.svu.combineMarks.filter (· != o.request.context) } }) :
    (p.attachedOpener? o.request.context = none → EndsCombine w p o done)
      ∧ ∀ n e i, p.attachedOpener? o.request.context = some (n, e, i) → i.generation ≠ o.request.generation →
        (e.state ≠ .staged ∨ i.ended ≠ .open_ ∨ chunkCountOf e.length ≤ i.nextChunk → EndsCombine w p o done)
          ∧ (e.state = .staged → i.ended = .open_ → i.nextChunk < chunkCountOf e.length →
            EndsCombine w p o (Part.postCombine
              { done with
                svu := { done.svu with
                  combineMarks := insertPosition o.request.context done.svu.combineMarks } }
              { context := o.request.context, generation := i.generation, survivor := 0, chunk := i.nextChunk,
                source := .internal })) := by
  obtain ⟨d, d_eq⟩ : ∃ d, d = p.smc.dram.combineAll o := ⟨_, rfl⟩
  have effect := (Part.endCombine_stale operation owned shut stale).2 source
  rw [← d_eq] at effect
  have opener : (done.setDram d).attachedOpener? o.request.context = p.attachedOpener? o.request.context := by
    rw [done_eq]
    rfl
  have dram (q : Part) (same : q.smc = done.smc) (ends : EndsCombine w p o ((q.setDram d).setDram p.smc.dram)) :
      EndsCombine w p o q := by
    rwa [Part.setDram_back (by rw [same, done_eq]; rfl)] at ends
  refine ⟨fun none_ => ?_, fun n e i attached other => ?_⟩
  · have taken : p.endCombine = done.setDram d := by
      rw [effect, Part.completeAtServe_none (p := p.operationEnded.setDram d) none_, done_eq]
      rfl
    exact dram done rfl (endsCombine_of combined taken d_eq)
  · have feeds : p.endCombine = (done.setDram d).feed o.request.context := by
      rw [effect, Part.completeAtServe_other (p := p.operationEnded.setDram d) attached other, done_eq]
      rfl
    refine ⟨fun still => ?_, fun staged open_ more => ?_⟩
    · rw [Part.feed_still (opener.trans attached) still] at feeds
      exact dram done rfl (endsCombine_of combined feeds d_eq)
    · rw [Part.feed_asks (opener.trans attached) staged open_ more (by rw [done_eq]; exact not_mem_filter_ne _ _)] at feeds
      have moved := feeds.trans (Part.postCombine_setDram { done with
        svu := { done.svu with combineMarks := insertPosition o.request.context done.svu.combineMarks } } d _)
      exact dram _ (Part.dram_postCombine _ _) (endsCombine_of combined moved d_eq)

end

end

end Sys2Proof.Machine

/-! A combine operation whose source is the serve unit, of a context that is current (R133, R134, R139), and O56. -/

namespace Sys2Proof.Machine

/-! ## What a re-plan makes of the part before it (R95) -/

theorem Table.map_editRow_congr {α β : Type} (t : Table α) (n : Nat) {f g : α → α} {h : α → β}
    (same : ∀ r ∈ t, r.1 = n → h (f r.2) = h (g r.2)) :
    ((t.editRow n f).map fun r => (r.1, h r.2)) = (t.editRow n g).map fun r => (r.1, h r.2) := by
  rw [Table.editRow, Table.editRow, List.map_map, List.map_map]
  refine List.map_congr_left fun r listed => ?_
  by_cases here : r.1 = n
  · simp only [Function.comp, if_pos here]
    exact congrArg (Prod.mk r.1) (same r listed here)
  · simp [here]

/-- A re-plan reads only the reservation and the lost list of the context (R95). -/
theorem Part.rePlanned_context {p : Part} {c : Nat} {x y : Context} (lanes : y.reservation = x.reservation)
    (lost : y.lostList = x.lostList) (position : Option Nat) : p.rePlanned c y position = p.rePlanned c x position := by
  unfold Part.rePlanned
  rw [lanes, lost]

/-! ## The end of an internal opener (R133, R134) -/

section
variable {p : Part} {n : Nat} {i : InternalOpener} (open_ : i.ended = .open_)
include open_

theorem Part.endOpener_fed (sound : ∀ d, p.expectedDigest? i.stripe i.position = some d → d = digestFinish i.runningDigest)
    {q : Part} (written : p.setOpener n { i with ended := .fed } = q) : p.endOpener n i = q.checkGathered i.context := by
  subst written
  unfold Part.endOpener
  rw [if_neg fun other => other open_]
  split
  · next d known => rw [if_neg fun differs => differs (sound d known)]
  · rfl

theorem Part.endOpener_fails {d : Digest} (known : p.expectedDigest? i.stripe i.position = some d)
    (differs : d ≠ digestFinish i.runningDigest) {q : Part} (written : p.setOpener n { i with ended := .failed } = q) :
    p.endOpener n i = q.failLocal i.context i.generation i.position := by
  subst written
  unfold Part.endOpener
  rw [if_neg fun other => other open_]
  simp only [known, if_pos differs]
  rfl

end

section
variable {p : Part} {o : CombineOperation} {x : Context} {g : Geometry} {n : Nat} {e : ServeEntry} {i j : InternalOpener}

/-- The part after the internal opener has gone on to its next chunk (R133): what the statement names. -/
def Part.openerTaken (p : Part) (o : CombineOperation) (k n : Nat) (e : ServeEntry) (j : InternalOpener) (z : OpenerEnd) :
    Part :=
  { p.contributionMade o k with
    svu := { p.svu with
      entries := p.svu.entries.setRow n
        { e with
          openers := e.openers.map fun k =>
            if k.isInternalOf o.request.context = true then .internal { j with ended := z } else k
          lastUse := p.now }
      combineMarks := p.svu.combineMarks.filter (· != o.request.context) } }

/-- The entry of the opener after it has gone on (R133). -/
def ServeEntry.openerTaken (e : ServeEntry) (c : Nat) (j : InternalOpener) (z : OpenerEnd) (now : Nat) : ServeEntry :=
  { e.withOpener c { j with ended := z } with lastUse := now }

theorem Part.openerTaken_eq (p : Part) (o : CombineOperation) (k n : Nat) (e : ServeEntry) (j : InternalOpener)
    (z : OpenerEnd) : p.openerTaken o k n e j z =
      ((p.contributionMade o k).unmarkedFor o.request.context).setServe n
        (e.openerTaken o.request.context j z p.now) := rfl

theorem Part.openerTaken_setDram (q : Part) (d : Dram) (same : q = p.openerTaken o g.k n e j .open_) (z : OpenerEnd) :
    (q.setDram d).setServe n (e.openerTaken o.request.context j z p.now) = (p.openerTaken o g.k n e j z).setDram d := by
  rw [same, Part.openerTaken_eq]
  refine Eq.trans (Part.setServe_setServe
    (((p.contributionMade o g.k).unmarkedFor o.request.context).setDram d) n _ _) ?_
  rfl

end

section
variable {w : List Instr} {p : Part} {o : CombineOperation} {x : Context} {g : Geometry} {n : Nat} {e : ServeEntry}
  {i j : InternalOpener}
  (operation : p.cbe.operation = some o)
  (combined : p.smc.dram.combined (p.smc.dram.combineAll o) o)
  (owned : ∀ t ∈ o.targets, ∃ r, p.slot? t.1 = some r ∧ r.owner ≠ none) (shut : p.staysShut)
  (inUse : p.context? o.request.context = some x)
  (current : p.gatheringAt o.request.context o.request.generation = true) (geometry : p.geometry? x.geometry = some g)
  (source : o.request.source = .internal) (attached : p.attachedOpener? o.request.context = some (n, e, i))
  (row : p.serve? n = some e) (rising : p.svu.entries.rising = true) (mine : i.generation = o.request.generation)
  (ended : i.ended = .open_)
  (j_eq : j = { i with nextChunk := i.nextChunk + 1, runningDigest := digestAdvance i.runningDigest o.operand })

include operation owned shut inUse current geometry source attached row rising mine ended j_eq

/-- The serve unit's part of the event, from the part with its opener gone on (R133). -/
theorem Part.endCombine_taken : p.endCombine =
    if chunkCountOf e.length ≤ j.nextChunk then
      ((p.openerTaken o g.k n e j .open_).setDram (p.smc.dram.combineAll o)).endOpener n j
    else ((p.openerTaken o g.k n e j .open_).setDram (p.smc.dram.combineAll o)).feed o.request.context := by
  obtain ⟨c, c_eq⟩ : ∃ c, c = o.request.context := ⟨_, rfl⟩
  obtain ⟨d, d_eq⟩ : ∃ d, d = p.smc.dram.combineAll o := ⟨_, rfl⟩
  obtain ⟨-, -, mine_c⟩ := Part.attachedOpener?_shows attached
  obtain ⟨k, k_eq⟩ : ∃ k : InternalOpener, k = { i with runningDigest := digestAdvance i.runningDigest o.operand } := ⟨_, rfl⟩
  have mine_k : k.context = o.request.context := by rw [k_eq]; exact mine_c
  have counted : (p.operationWritten o).contributionK x = g.k :=
    (congrArg (fun h : Option Geometry => (h.map Geometry.k).getD 0) geometry :)
  obtain ⟨b, b_eq⟩ : ∃ b, b = (p.operationWritten o).editContext o.request.context fun y =>
      y.contributed g.k o.request.chunk o.request.survivor := ⟨_, rfl⟩
  have attached_b : b.attachedOpener? o.request.context = some (n, e, i) := by rw [b_eq]; exact attached
  have row_b : b.serve? n = some e := by rw [b_eq]; exact row
  have rising_b : b.svu.entries.rising = true := by rw [b_eq]; exact rising
  have recorded : (p.operationWritten o).recordContribution o = b.setServe n (e.withOpener o.request.context k) := by
    have advanced : (p.operationWritten o).recordContribution o = b.advanceDigest o.request o.operand := by
      rw [b_eq, ← counted]
      simp only [Part.recordContribution, Part.combineContext?_current (p := p.operationWritten o) inUse current]
      rfl
    rw [advanced, ← Part.setOpener_eq row_b mine_k, k_eq]
    simp only [Part.advanceDigest, source, attached_b, if_pos mine]
  obtain ⟨q, q_eq⟩ : ∃ q, q = ((p.contributionMade o g.k).setServe n (e.withOpener o.request.context k)).setDram d := ⟨_, rfl⟩
  have lowered : ((p.operationWritten o).recordContribution o).lowerWarning = q := by
    rw [recorded, q_eq, d_eq]
    refine (Part.lowerWarning_eq (by rw [b_eq]; rfl) fun raised low m a held streams => ?_).trans ?_
    · rw [b_eq] at raised low held
      exact shut.lane raised low m a held streams
    · rw [b_eq]
      rfl
  have attached_q : q.attachedOpener? o.request.context = some (n, e.withOpener o.request.context k, k) := by
    have read := Part.attachedOpener?_setServe attached_b row_b rising_b (f := e.withOpener o.request.context k) mine_k rfl
    rw [q_eq]
    rw [b_eq] at read
    exact read
  have mine_j : j.context = o.request.context := by rw [j_eq]; exact mine_c
  have row_q : (q.unmarkedFor o.request.context).serve? n = some (e.withOpener o.request.context k) := by
    rw [q_eq]
    exact Part.serve?_setServe (p.contributionMade o g.k) n _
  have open_ : ({ j with ended := .open_ } : InternalOpener) = j := by
    rw [← show j.ended = .open_ by rw [j_eq]; exact ended]
  have written : ((q.unmarkedFor o.request.context).setOpener n j).touchServe n =
      (p.openerTaken o g.k n e j .open_).setDram d := by
    rw [Part.setOpener_eq row_q mine_j, Part.touchServe_setServe, ServeEntry.withOpener_withOpener e mine_k,
      Part.openerTaken_eq, ServeEntry.openerTaken, open_, q_eq]
    exact Part.setServe_setServe (((p.contributionMade o g.k).unmarkedFor o.request.context).setDram d) n _ _
  rw [Part.endCombine_eq operation, Part.operationSettled_owned owned, Part.completeCombine_internal source, lowered,
    Part.completeAtServe_current attached_q (by rw [k_eq]; exact mine) (j := j) (by rw [j_eq, k_eq]), written, d_eq]
  rfl

omit operation owned shut inUse current geometry source mine in
/-- The opener after it has gone on (R133). -/
theorem Part.attachedOpener?_openerTaken (d : Dram) :
    ((p.openerTaken o g.k n e j .open_).setDram d).attachedOpener? o.request.context =
      some (n, e.openerTaken o.request.context j .open_ p.now, j) := by
  obtain ⟨-, -, mine_c⟩ := Part.attachedOpener?_shows attached
  have mine_j : j.context = o.request.context := by rw [j_eq]; exact mine_c
  have open_ : ({ j with ended := .open_ } : InternalOpener) = j := by
    rw [← show j.ended = .open_ by rw [j_eq]; exact ended]
  have openers : (e.openerTaken o.request.context j .open_ p.now).openers = (e.withOpener o.request.context j).openers := by
    rw [ServeEntry.openerTaken, open_]
  exact Part.attachedOpener?_setServe (p := (p.contributionMade o g.k).unmarkedFor o.request.context) attached row rising
    mine_j openers

include combined

/-- Before its last chunk the opener asks for the next one, in STAGED (R133). -/
theorem endsCombine_openerGoesOn (more : j.nextChunk < chunkCountOf e.length) :
    (e.state ≠ .staged → EndsCombine w p o (p.openerTaken o g.k n e j .open_))
      ∧ (e.state = .staged → EndsCombine w p o (Part.postCombine
        { p.openerTaken o g.k n e j .open_ with
          svu := { (p.openerTaken o g.k n e j .open_).svu with
            combineMarks := insertPosition o.request.context (p.openerTaken o g.k n e j .open_).svu.combineMarks } }
        { context := o.request.context, generation := i.generation, survivor := 0, chunk := j.nextChunk,
          source := .internal })) := by
  have effect := Part.endCombine_taken operation owned shut inUse current geometry source attached row rising mine ended j_eq
  rw [if_neg (Nat.not_le.2 more)] at effect
  have read := Part.attachedOpener?_openerTaken (g := g) (o := o) attached row rising ended j_eq (p.smc.dram.combineAll o)
  have generation : j.generation = i.generation := by rw [j_eq]
  have ended_j : j.ended = .open_ := by rw [j_eq]; exact ended
  obtain ⟨q, q_eq⟩ : ∃ q, q = p.openerTaken o g.k n e j .open_ := ⟨_, rfl⟩
  rw [← q_eq] at effect read ⊢
  have dram (r : Part) (same : r.smc = q.smc)
      (ends : EndsCombine w p o ((r.setDram (p.smc.dram.combineAll o)).setDram p.smc.dram)) : EndsCombine w p o r := by
    rwa [Part.setDram_back (by rw [same, q_eq]; rfl)] at ends
  refine ⟨fun other => ?_, fun staged => ?_⟩
  · rw [Part.feed_still read (.inl other)] at effect
    exact dram q rfl (endsCombine_of combined effect rfl)
  · rw [Part.feed_asks read staged ended_j more (by rw [q_eq]; exact not_mem_filter_ne _ _), generation] at effect
    have moved := effect.trans (Part.postCombine_setDram { q with
      svu := { q.svu with combineMarks := insertPosition o.request.context q.svu.combineMarks } } _ _)
    exact dram _ (Part.dram_postCombine _ _) (endsCombine_of combined moved rfl)

omit operation combined owned shut inUse current geometry source row rising mine ended in
/-- The opener written again, with what it has come to (R133, R134). -/
theorem Part.setOpener_openerTaken (d : Dram) (z : OpenerEnd) :
    ((p.openerTaken o g.k n e j .open_).setDram d).setOpener n { j with ended := z } =
      (p.openerTaken o g.k n e j z).setDram d := by
  obtain ⟨-, -, mine_c⟩ := Part.attachedOpener?_shows attached
  have mine_j : j.context = o.request.context := by rw [j_eq]; exact mine_c
  have row_q : ((p.openerTaken o g.k n e j .open_).setDram d).serve? n =
      some (e.openerTaken o.request.context j .open_ p.now) :=
    Part.serve?_setServe ((p.contributionMade o g.k).unmarkedFor o.request.context) n _
  have entry : (e.openerTaken o.request.context j .open_ p.now).withOpener o.request.context { j with ended := z } =
      e.openerTaken o.request.context j z p.now :=
    congrArg (fun f : ServeEntry => { f with lastUse := p.now })
      (e.withOpener_withOpener (i := { j with ended := .open_ }) mine_j { j with ended := z })
  rw [Part.setOpener_eq (i := { j with ended := z }) row_q mine_j, entry]
  exact Part.setServe_setServe (((p.contributionMade o g.k).unmarkedFor o.request.context).setDram d) n _ _

/-- After its last chunk the opener, with a matching or unknown digest, has fed (R93, R133). -/
theorem endsCombine_openerFed (last : chunkCountOf e.length ≤ j.nextChunk)
    (sound : ∀ d, p.expectedDigest? i.stripe i.position = some d → d = j.runningDigest ^^^ 0xFFFFFFFF#32) :
    (p.openerTaken o g.k n e j .fed).gatheredTested o.request.context x (EndsCombine w p o) := by
  have effect := Part.endCombine_taken operation owned shut inUse current geometry source attached row rising mine ended j_eq
  rw [if_pos last] at effect
  obtain ⟨q, q_eq⟩ : ∃ q, q = p.openerTaken o g.k n e j .open_ := ⟨_, rfl⟩
  obtain ⟨-, -, mine_c⟩ := Part.attachedOpener?_shows attached
  obtain ⟨live, state, -⟩ := Part.gatheringAt_shows inUse current
  have mine_j : j.context = o.request.context ∧ j.stripe = i.stripe ∧ j.position = i.position := by
    rw [j_eq]
    exact ⟨mine_c, rfl, rfl⟩
  rw [Part.endOpener_fed (by rw [j_eq]; exact ended) (by rw [mine_j.2.1, mine_j.2.2]; exact sound)
    (Part.setOpener_openerTaken attached j_eq _ _), mine_j.1] at effect
  have inUse_q := Part.context?_editContext inUse fun y => y.contributed g.k o.request.chunk o.request.survivor
  have shown := endsCombine_of (w := w) combined effect (Part.dram_checkGathered _ _)
  obtain ⟨not_, all⟩ := Part.checkGathered_tested
    (p := (p.openerTaken o g.k n e j .fed).setDram (p.smc.dram.combineAll o)) (x := x) inUse_q live state rfl
    (ends := fun r => EndsCombine w p o (r.setDram p.smc.dram)) shown
  refine ⟨fun partly => not_ partly, fun whole entries openers held => all whole entries openers held⟩

omit combined in
/-- With another digest than the expected one the opener fails (R134). -/
theorem Part.endCombine_openerFails (last : chunkCountOf e.length ≤ j.nextChunk) {d : Digest}
    (known : p.expectedDigest? i.stripe i.position = some d) (differs : d ≠ j.runningDigest ^^^ 0xFFFFFFFF#32) :
    p.endCombine = ((p.openerTaken o g.k n e j .failed).setDram (p.smc.dram.combineAll o)).failLocal o.request.context
      o.request.generation i.position := by
  have effect := Part.endCombine_taken operation owned shut inUse current geometry source attached row rising mine ended j_eq
  obtain ⟨-, -, mine_c⟩ := Part.attachedOpener?_shows attached
  have mine_j : j.context = o.request.context ∧ j.stripe = i.stripe ∧ j.position = i.position ∧
      j.generation = o.request.generation := by
    rw [j_eq]
    exact ⟨mine_c, rfl, rfl, mine⟩
  obtain ⟨context, stripe, position, generation⟩ := mine_j
  rw [if_pos last, Part.endOpener_fails (by rw [j_eq]; exact ended) (by rw [stripe, position]; exact known) differs
    (Part.setOpener_openerTaken attached j_eq _ _), context, generation, position] at effect
  exact effect

end

end Sys2Proof.Machine

/-! The failure of the local survivor at a combine completion, and O56 (R94, R134, R139). -/

namespace Sys2Proof.Machine

/-- The images at an outcome ABANDONED: those of the records that it makes QUIET (R10, R102). -/
theorem Part.imagesFollow_abandon {base : Part} {c : Nat} {x : Context} (inUse : base.context? c = some x)
    (rising : base.hdt.rising = true) (cause : AbandonCause) : base.imagesFollow (base.abandon c cause) := by
  have released := Part.releaseContext_releasedTo inUse
  obtain ⟨q, q_eq⟩ : ∃ q, q = base.releaseContext c := ⟨_, rfl⟩
  rw [← q_eq] at released
  have now : q.now = base.now := (congrArg Part.now released.rest :).trans (congrArg Part.now (Part.lanesGiven_rest base c x) :)
  have decided : base.abandon c cause = if q.reportPathFull = true then
      q.editContext c fun z => { z with pendingOutcome := some (.abandoned cause) } else q.completeAbandoned c cause := by
    rw [q_eq]
    rfl
  rw [decided]
  by_cases full : q.reportPathFull = true
  · rw [if_pos full]
    exact Part.imagesFollow_of_same released.hdt_same released.dram
  · have completed := Part.completeAbandoned_eq (released.context?_self inUse) cause
    have shown := Part.outcomeReported_imaged (p := q) (by rw [released.hdt_same]; exact rising) c x.stripe .abandoned []
      .quiet (.repairAbandoned cause x.stripe)
    rw [if_neg full, completed]
    exact Part.imagesFollow_congr shown.images released.hdt_same.symm released.dram.symm now.symm rfl rfl

section
variable {w : List Instr} {p : Part} {o : CombineOperation} {x : Context} {g : Geometry} {n : Nat} {e : ServeEntry}
  {i j : InternalOpener}
  (attached : p.attachedOpener? o.request.context = some (n, e, i)) (row : p.serve? n = some e)

/-- The context with its contribution, in the part after the opener has gone on (R139). -/
theorem Part.context?_openerTaken (inUse : p.context? o.request.context = some x) (d : Dram) (k : Nat) (z : OpenerEnd) :
    ((p.openerTaken o k n e j z).setDram d).context? o.request.context =
      some (x.contributed k o.request.chunk o.request.survivor) :=
  Part.context?_editContext inUse fun y => y.contributed k o.request.chunk o.request.survivor

include attached in
/-- A context that can re-plan can do so after its opener has gone on (R94, R95). -/
theorem Part.CanRePlan.openerTaken (plain : p.CanRePlan o.request.context o.request.generation x) (d : Dram) (k : Nat)
    (z : OpenerEnd) : ((p.openerTaken o k n e j z).setDram d).CanRePlan o.request.context o.request.generation
      (x.contributed k o.request.chunk o.request.survivor) where
  inUse := Part.context?_openerTaken plain.inUse d k z
  granted := plain.granted
  slots := plain.slots
  lanes := plain.lanes
  openers := fun r listed own => by
    obtain ⟨member, holds, mine⟩ := Part.attachedOpener?_shows attached
    rcases Table.mem_setRow listed with rfl | old
    · exact plain.openers (n, e) member ⟨.internal i, holds, by simp [Opener.isInternalOf, mine]⟩
    · exact plain.openers r old own
  rising := ⟨plain.rising.1, Table.rising_setRow _ _ plain.rising.2⟩
  room := plain.room
  live := plain.live
  gathers := plain.gathers
  current := plain.current

include row in
/-- A re-plan removes the opener, whatever it had come to (R95, R134). -/
theorem Part.rePlanned_openerTaken (rising : p.svu.entries.rising = true) (mine : j.context = o.request.context) (d : Dram)
    (k : Nat) (y z : OpenerEnd) (position : Option Nat) :
    ((p.openerTaken o k n e j y).setDram d).rePlanned o.request.context x position =
      ((p.openerTaken o k n e j z).rePlanned o.request.context x position).setDram d := by
  obtain ⟨strip, strip_eq⟩ : ∃ strip : ServeEntry → ServeEntry, strip = fun f =>
      { f with openers := f.openers.filter fun o' => !o'.isInternalOf o.request.context } := ⟨_, rfl⟩
  have stripped (z : OpenerEnd) : strip (e.openerTaken o.request.context j z p.now) = strip { e with lastUse := p.now } := by
    have openers : ((e.openerTaken o.request.context j z p.now).openers.filter
        fun o' => !o'.isInternalOf o.request.context) = e.openers.filter fun o' => !o'.isInternalOf o.request.context := by
      have own : (Opener.internal { j with ended := z }).isInternalOf o.request.context = true := by
        simp [Opener.isInternalOf, mine]
      rw [ServeEntry.openerTaken, ServeEntry.withOpener]
      generalize e.openers = openers
      induction openers with
      | nil => rfl
      | cons a rest ih =>
        rw [List.map_cons, List.filter_cons, List.filter_cons, ih]
        by_cases here : a.isInternalOf o.request.context = true
        · simp [here, own]
        · simp [here]
    rw [strip_eq]
    exact congrArg (fun l => { e with lastUse := p.now, openers := l }) openers
  have entries (z : OpenerEnd) : ((p.openerTaken o k n e j z).svu.entries.map fun r => (r.1, strip r.2)) =
      (p.svu.entries.editRow n fun _ => { e with lastUse := p.now }).map fun r => (r.1, strip r.2) := by
    rw [show (p.openerTaken o k n e j z).svu.entries = p.svu.entries.editRow n fun _ =>
      e.openerTaken o.request.context j z p.now from Table.setRow_eq_editRow rising _ row]
    exact Table.map_editRow_congr _ n fun _ _ _ => stripped z
  have same := (entries y).trans (entries z).symm
  rw [strip_eq] at same
  have whole : ((p.openerTaken o k n e j y).setDram d).rePlanned o.request.context x position =
      { ((p.openerTaken o k n e j z).rePlanned o.request.context x position).setDram d with
        svu := { (p.openerTaken o k n e j y).svu with
          entries := (p.openerTaken o k n e j y).svu.entries.map fun r =>
            (r.1, { r.2 with openers := r.2.openers.filter fun o' => !o'.isInternalOf o.request.context })
          waiting := p.svu.waiting.filter fun i => i.context != o.request.context } } := rfl
  rw [whole, same]
  rfl

end

section
variable {w : List Instr} {p : Part} {o : CombineOperation} {x : Context} {g : Geometry} {n : Nat} {e : ServeEntry}
  {i j : InternalOpener}
  (operation : p.cbe.operation = some o)
  (combined : p.smc.dram.combined (p.smc.dram.combineAll o) o)
  (owned : ∀ t ∈ o.targets, ∃ r, p.slot? t.1 = some r ∧ r.owner ≠ none) (shut : p.staysShut)
  (inUse : p.context? o.request.context = some x)
  (current : p.gatheringAt o.request.context o.request.generation = true) (geometry : p.geometry? x.geometry = some g)
  (source : o.request.source = .internal) (attached : p.attachedOpener? o.request.context = some (n, e, i))
  (row : p.serve? n = some e) (rising : p.svu.entries.rising = true) (mine : i.generation = o.request.generation)
  (ended : i.ended = .open_)
  (j_eq : j = { i with nextChunk := i.nextChunk + 1, runningDigest := digestAdvance i.runningDigest o.operand })
  (last : chunkCountOf e.length ≤ j.nextChunk) {d : Digest} (known : p.expectedDigest? i.stripe i.position = some d)
  (differs : d ≠ j.runningDigest ^^^ 0xFFFFFFFF#32)
include operation combined owned shut inUse current geometry source attached row rising mine ended j_eq last known differs

/-- The context plans again without its local position (R94, R95, R134). -/
theorem endsCombine_openerRePlans (plain : p.CanRePlan o.request.context o.request.generation x) (few : x.rePlans < 8) :
    EndsCombine w p o ((p.openerTaken o g.k n e j .open_).rePlanned o.request.context x (some i.position)) := by
  have effect := Part.endCombine_openerFails operation owned shut inUse current geometry source attached row rising mine ended
    j_eq last known differs
  have mine_j : j.context = o.request.context := by rw [j_eq]; exact (Part.attachedOpener?_shows attached).2.2
  rw [Part.failLocal_rePlans _ (plain.openerTaken attached _ g.k .failed) few,
    Part.rePlanned_context (x := x) (y := x.contributed g.k o.request.chunk o.request.survivor) rfl rfl, Part.rePlanned_openerTaken row rising mine_j _ g.k .failed .open_] at effect
  exact cast (congrArg (EndsCombine w p o) (Part.setDram_back rfl _)) (endsCombine_of (w := w) combined effect rfl)

/-- The ninth re-plan abandons the context (R95, R101 to R103, R134). -/
theorem combine_openerAbandons (many : 8 ≤ x.rePlans) (records : p.hdt.rising = true) :
    Leads .combineDone ⟨w, p⟩ fun q => p.combinedWithImages q o ∧ p.abandoned q o.request.context x .rePlanLimit := by
  have effect := Part.endCombine_openerFails operation owned shut inUse current geometry source attached row rising mine ended
    j_eq last known differs
  obtain ⟨f, f_eq⟩ : ∃ f, f = (p.openerTaken o g.k n e j .failed).setDram (p.smc.dram.combineAll o) := ⟨_, rfl⟩
  have inUse_f : f.context? o.request.context = some (x.contributed g.k o.request.chunk o.request.survivor) := by
    rw [f_eq]
    exact Part.context?_openerTaken inUse _ g.k .failed
  obtain ⟨live, state, generation⟩ := Part.gatheringAt_shows inUse current
  have generation_f : f.generation o.request.context = p.generation o.request.context := by
    rw [f_eq]
    rfl
  have gathers : f.gatheringAt o.request.context o.request.generation = true :=
    Part.gatheringAt_of inUse_f live state (generation_f.trans generation)
  have row_f := Part.context?_editContext inUse_f fun y => { y with unusable := insertPosition i.position y.unusable }
  have abandons : f.failLocal o.request.context o.request.generation i.position =
      (f.markUnusable o.request.context i.position).abandon o.request.context .rePlanLimit :=
    (if_pos gathers).trans (Part.rePlan_limit row_f many none)
  rw [← f_eq, abandons] at effect
  have hdt_f : f.hdt = p.hdt := by rw [f_eq]; rfl
  have images := Part.imagesFollow_abandon row_f (by rw [← hdt_f] at records; exact records) .rePlanLimit
  refine leads_of_effect (f := Part.endCombine) rfl (?_ : _ ∧ _) fun _ _ h => h
  have meaning : (State.part ⟨w, p⟩).endCombine = _ := effect
  rw [meaning]
  refine ⟨⟨_, combined, Part.imagesFollow_congr images ?_ ?_ ?_ rfl rfl⟩,
    Part.abandon_abandoned row_f rfl rfl (fun c other => ?_) generation_f hdt_f ?_ ?_ (fun room => ?_) records _⟩
  · rw [f_eq]; rfl
  · rw [f_eq]; rfl
  · rw [f_eq]; rfl
  · refine (Part.context?_editContext_other f other _).trans ?_
    rw [f_eq]
    exact Part.context?_editContext_other p other _
  · rw [f_eq]; rfl
  · rw [f_eq]
    exact .rfl
  · rw [f_eq]
    exact ⟨room.1, by have := room.2; change (List.filter _ p.sgp.control).length + _ ≤ 63; omega⟩

end

/-- Settles O56. -/
theorem combinesEnd : Obligations.CombinesEnd := by
  intro w p o operation distinct chunk short owned shut
  have combined := p.smc.dram.combined_combineAll distinct short
  refine ⟨fun x g inUse current geometry => ⟨fun n tag u v done source use tagged active next v_eq done_eq =>
    ⟨endsCombine_laneGoesOn operation combined owned shut inUse current geometry source use tagged active next v_eq done_eq,
      endsCombine_laneCompletes operation combined owned shut inUse current geometry source use tagged active next v_eq done_eq⟩,
    fun n e i j ended source attached row rising mine open_ j_eq ended_eq => ?_⟩,
    fun stale => ⟨fun n tag done source done_eq =>
      endsCombine_staleLane operation combined owned shut stale source done_eq,
      fun done source done_eq => endsCombine_staleInternal operation combined owned shut stale source done_eq⟩⟩
  obtain rfl : ended = p.openerTaken o g.k n e j := funext ended_eq
  exact ⟨endsCombine_openerGoesOn operation combined owned shut inUse current geometry source attached row rising mine open_
      j_eq,
    fun last sound _ => endsCombine_openerFed operation combined owned shut inUse current geometry source attached row rising
      mine open_ j_eq last sound,
    fun d last known differs => ⟨endsCombine_openerRePlans operation combined owned shut inUse current geometry source attached
      row rising mine open_ j_eq last known differs,
      combine_openerAbandons operation combined owned shut inUse current geometry source attached row rising mine open_ j_eq
        last known differs⟩⟩

end Sys2Proof.Machine

/-! Elimination in a field of characteristic 2, and the matrix of a Cauchy system (R23, R28): the algebra that the decode
plans rest on, apart from bytes. -/

namespace Sys2Proof.Machine

section
variable {K : Type} [Field K]

/-! ## A Cauchy system has no other solution than zero -/

/-- A step of the elimination of one unknown from a Cauchy system: what is left of it is one again. -/
theorem cauchy_difference {y z t s : K} (here : y + t ≠ 0) (there : y + s ≠ 0) :
    z * (y + t)⁻¹ - z * (y + s)⁻¹ = (s - t) * (z * (y + s)⁻¹ * (y + t)⁻¹) := by
  field_simp
  ring

/-- At most as many terms z / (y + t) as there are values t at which their sum is zero: then each z is zero. -/
theorem cauchy_injective {ι : Type} [DecidableEq ι] {y : ι → K} (I : Finset ι) :
    ∀ (J : Finset K) (z : ι → K), I.card ≤ J.card → Set.InjOn y I → (∀ i ∈ I, ∀ t ∈ J, y i + t ≠ 0) →
      (∀ t ∈ J, ∑ i ∈ I, z i * (y i + t)⁻¹ = 0) → ∀ i ∈ I, z i = 0 := by
  classical
  induction I using Finset.induction_on with
  | empty => exact fun _ _ _ _ _ _ i member => absurd member (Finset.notMem_empty i)
  | insert a I fresh ih =>
    intro J z many injective apart zero
    rw [Finset.card_insert_of_notMem fresh] at many
    obtain ⟨s, s_mem⟩ : J.Nonempty := Finset.card_pos.1 (by omega)
    have apart_I : ∀ i ∈ I, ∀ t ∈ J, y i + t ≠ 0 := fun i member => apart i (Finset.mem_insert_of_mem member)
    have injective_I : Set.InjOn y I := injective.mono (by simp)
    -- each equation times y a + t is free of the unknown z a but for a constant
    have freed : ∀ t ∈ J, ∑ i ∈ I, z i * (y a - y i) * (y i + t)⁻¹ = -(z a + ∑ i ∈ I, z i) := by
      intro t member
      have whole := zero t member
      rw [Finset.sum_insert fresh] at whole
      have times : (y a + t) * (z a * (y a + t)⁻¹) = z a := by
        have := apart a (Finset.mem_insert_self _ _) t member
        field_simp
      have split : ∑ i ∈ I, z i * (y a - y i) * (y i + t)⁻¹ =
          (y a + t) * (∑ i ∈ I, z i * (y i + t)⁻¹) - ∑ i ∈ I, z i := by
        rw [Finset.mul_sum, ← Finset.sum_sub_distrib]
        refine Finset.sum_congr rfl fun i listed => ?_
        have := apart_I i listed t member
        field_simp
        ring
      have both : (y a + t) * (z a * (y a + t)⁻¹) + (y a + t) * (∑ i ∈ I, z i * (y i + t)⁻¹) = 0 := by
        rw [← mul_add, whole, mul_zero]
      rw [times] at both
      rw [split]
      linear_combination both
    -- the differences of these to the equation of s are a Cauchy system with one unknown and one value less
    have rest := ih (J.erase s) (fun i => z i * (y a - y i) * (y i + s)⁻¹) (by rw [Finset.card_erase_of_mem s_mem]; omega)
      injective_I (fun i listed t member => apart_I i listed t (Finset.mem_of_mem_erase member)) (fun t member => by
        obtain ⟨other, member⟩ := Finset.mem_erase.1 member
        have difference := congrArg₂ (· - ·) (freed t member) (freed s s_mem)
        simp only [sub_self] at difference
        rw [← Finset.sum_sub_distrib] at difference
        have scaled : (s - t) * (∑ i ∈ I, z i * (y a - y i) * (y i + s)⁻¹ * (y i + t)⁻¹) = 0 := by
          rw [Finset.mul_sum, ← difference]
          exact Finset.sum_congr rfl fun i listed =>
            (cauchy_difference (apart_I i listed t member) (apart_I i listed s s_mem)).symm
        exact (mul_eq_zero.1 scaled).resolve_left (sub_ne_zero.2 (Ne.symm other)))
    have zero_I : ∀ i ∈ I, z i = 0 := by
      intro i listed
      have differs : y a - y i ≠ 0 := sub_ne_zero.2 fun same =>
        fresh (injective (by simp) (by simp [listed]) same ▸ listed)
      have inverse := inv_ne_zero (apart_I i listed s s_mem)
      exact ((mul_eq_zero.1 ((mul_eq_zero.1 (rest i listed)).resolve_right inverse)).resolve_right differs)
    have zero_a : z a = 0 := by
      have whole := zero s s_mem
      rw [Finset.sum_insert fresh, Finset.sum_eq_zero fun i listed => by rw [zero_I i listed, zero_mul], add_zero] at whole
      exact (mul_eq_zero.1 whole).resolve_right (inv_ne_zero (apart a (Finset.mem_insert_self _ _) s s_mem))
    intro i member
    rcases Finset.mem_insert.1 member with rfl | listed
    · exact zero_a
    · exact zero_I i listed

/-! ## The working pair while its columns are eliminated (R28) -/

/-- A k × 2k working pair whose first c columns are those of the unit matrix: each row is an equation between the unknowns x
and the right-hand sides b, and the left half has a trivial kernel. -/
structure Eliminated (k c : Nat) (x b : Nat → K) (a : Nat → Nat → K) : Prop where
  equations : ∀ q < k, ∑ i ∈ Finset.range k, a q i * x i = ∑ s ∈ Finset.range k, a q (k + s) * b s
  kernel : ∀ v : Nat → K, (∀ q < k, ∑ i ∈ Finset.range k, a q i * v i = 0) → ∀ i < k, v i = 0
  units : ∀ q < k, ∀ i < c, a q i = if q = i then 1 else 0

section
variable {k c : Nat} {x b : Nat → K} {a : Nat → Nat → K} (h : Eliminated k c x b a) (more : c < k)
include h

theorem Eliminated.congr {a' : Nat → Nat → K} (same : ∀ q < k, ∀ i < k + k, a' q i = a q i) (short : c ≤ k) :
    Eliminated k c x b a' := by
  have left (v : Nat → K) (q : Nat) (row : q < k) : ∑ i ∈ Finset.range k, a' q i * v i = ∑ i ∈ Finset.range k, a q i * v i :=
    Finset.sum_congr rfl fun i member => by rw [same q row i (by have := Finset.mem_range.1 member; omega)]
  refine ⟨fun q row => ?_, fun v zero => h.kernel v fun q row => (left v q row).symm.trans (zero q row), fun q row i early => ?_⟩
  · rw [left x q row, h.equations q row]
    exact Finset.sum_congr rfl fun s member => by rw [same q row _ (by have := Finset.mem_range.1 member; omega)]
  · rw [same q row i (by omega), h.units q row i early]

include more in
/-- A column not yet eliminated has a pivot: else the pair's left half had a kernel (R28, step 1). -/
theorem Eliminated.pivot : ∃ r, c ≤ r ∧ r < k ∧ a r c ≠ 0 := by
  by_contra none_
  have zero (r : Nat) (late : c ≤ r) (row : r < k) : a r c = 0 := by
    by_contra some_
    exact none_ ⟨r, late, row, some_⟩
  obtain ⟨v, v_eq⟩ : ∃ v : Nat → K, v = fun i => if i < c then - a i c else if i = c then 1 else 0 := ⟨_, rfl⟩
  have kernel := h.kernel v (fun q row => by
    have parts (i : Nat) (short : i < k) : a q i * v i =
        (if i = q ∧ q < c then - a q c else 0) + (if i = c then a q c else 0) := by
      rcases Nat.lt_trichotomy i c with early | rfl | late
      · rw [v_eq, h.units q row i early]
        by_cases same : q = i
        · subst same
          simp [early, Nat.ne_of_lt early]
        · simp [same, Ne.symm same, Nat.ne_of_lt early]
      · have apart : ¬ (i = q ∧ q < i) := by omega
        simp [v_eq, apart]
      · have apart : ¬ (i = q ∧ q < c) := by omega
        simp [v_eq, Nat.not_lt.2 (Nat.le_of_lt late), Nat.ne_of_gt late, apart]
    rw [Finset.sum_congr rfl fun i member => parts i (Finset.mem_range.1 member), Finset.sum_add_distrib]
    by_cases early : q < c
    · simp [early, row, more]
    · simp [early, more, zero q (Nat.not_lt.1 early) row]) c more
  rw [v_eq] at kernel
  simp at kernel

/-- Two rows exchanged (R28, step 2). -/
theorem Eliminated.exchange {r : Nat} (late : c ≤ r) (row_r : r < k) (row_c : c < k) :
    Eliminated k c x b fun q => a (Equiv.swap c r q) := by
  have bound (q : Nat) (row : q < k) : Equiv.swap c r q < k := by
    rw [Equiv.swap_apply_def]
    split <;> [exact row_r; (split <;> assumption)]
  refine ⟨fun q row => h.equations _ (bound q row), fun v zero => h.kernel v fun q row => ?_, fun q row i early => ?_⟩
  · have swapped := zero _ (bound q row)
    rwa [Equiv.swap_apply_self] at swapped
  · rw [h.units _ (bound q row) i early, Equiv.swap_apply_def]
    split
    · next same => rw [if_neg (by omega), if_neg (by omega)]
    · split
      · next same => rw [if_neg (by omega), if_neg (by omega)]
      · rfl

include more in
/-- A column eliminated by its pivot, in characteristic 2 (R28, steps 3 and 4). -/
theorem Eliminated.eliminate (two : ∀ e : K, e + e = 0) (pivot : a c c ≠ 0) :
    Eliminated k (c + 1) x b fun q i =>
      if q = c then (a c c)⁻¹ * a c i else a q i + a q c * ((a c c)⁻¹ * a c i) := by
  have unit (v : Nat → K) (o : Nat) : ∑ i ∈ Finset.range k, (a c c)⁻¹ * a c (o + i) * v i =
      (a c c)⁻¹ * ∑ i ∈ Finset.range k, a c (o + i) * v i := by
    rw [Finset.mul_sum]
    exact Finset.sum_congr rfl fun i _ => mul_assoc _ _ _
  have other (v : Nat → K) (q o : Nat) :
      ∑ i ∈ Finset.range k, (a q (o + i) + a q c * ((a c c)⁻¹ * a c (o + i))) * v i =
        ∑ i ∈ Finset.range k, a q (o + i) * v i
          + a q c * ((a c c)⁻¹ * ∑ i ∈ Finset.range k, a c (o + i) * v i) := by
    rw [← unit v o, Finset.mul_sum, ← Finset.sum_add_distrib]
    exact Finset.sum_congr rfl fun i _ => by ring
  have left (v : Nat → K) : ∑ i ∈ Finset.range k, (a c c)⁻¹ * a c i * v i =
      (a c c)⁻¹ * ∑ i ∈ Finset.range k, a c i * v i := by simpa using unit v 0
  have left' (v : Nat → K) (q : Nat) : ∑ i ∈ Finset.range k, (a q i + a q c * ((a c c)⁻¹ * a c i)) * v i =
      ∑ i ∈ Finset.range k, a q i * v i + a q c * ((a c c)⁻¹ * ∑ i ∈ Finset.range k, a c i * v i) := by
    simpa using other v q 0
  refine ⟨fun q row => ?_, fun v zero => h.kernel v ?_, fun q row i early => ?_⟩
  · by_cases here : q = c
    · simp only [if_pos here]
      rw [left x, unit b k, h.equations c more]
    · simp only [if_neg here]
      rw [left' x q, other b q k, h.equations c more, h.equations q row]
  · have pivotal : ∑ i ∈ Finset.range k, a c i * v i = 0 := by
      have none_ := zero c more
      simp only [if_true] at none_
      rw [left v] at none_
      exact (mul_eq_zero.1 none_).resolve_left (inv_ne_zero pivot)
    intro q row
    by_cases here : q = c
    · rw [here, pivotal]
    · have none_ := zero q row
      simp only [if_neg here] at none_
      rwa [left' v q, pivotal, mul_zero, mul_zero, add_zero] at none_
  · rcases Nat.lt_succ_iff_lt_or_eq.1 early with before | rfl
    · have clear : a c i = 0 := by rw [h.units c more i before, if_neg (by omega)]
      simp only [clear, mul_zero, add_zero]
      by_cases here : q = c
      · rw [if_pos here, if_neg (by omega)]
      · rw [if_neg here, h.units q row i before]
    · by_cases here : q = i
      · simp [here, pivot]
      · simp only [if_neg here, inv_mul_cancel₀ pivot, mul_one]
        exact two _

end

/-- All columns eliminated, the right half gives each unknown (R28). -/
theorem Eliminated.solved {k : Nat} {x b : Nat → K} {a : Nat → Nat → K} (h : Eliminated k k x b a) {q : Nat} (row : q < k) :
    x q = ∑ s ∈ Finset.range k, a q (k + s) * b s := by
  rw [← h.equations q row, Finset.sum_congr rfl fun i member => by rw [h.units q row i (Finset.mem_range.1 member)]]
  simp [row]

end

end Sys2Proof.Machine

/-! Decode plans (R23, R28, R29): the bytes as a field, the generator's rows, and O58. -/

namespace Sys2Proof.Machine

/-! ## Bytes in a field (R20 to R22) -/

/-- The bytes stand in a field whose sum, product and inverse are those of bytes. -/
structure Embeds {K : Type} [Field K] (val : Byte → K) : Prop where
  add : ∀ a b : Byte, val (a ^^^ b) = val a + val b
  mul : ∀ a b : Byte, val (fieldMul a b) = val a * val b
  inv : ∀ a : Byte, val (fieldInverse a) = (val a)⁻¹
  one : val 1 = 1
  injective : Function.Injective val

theorem byteAt_zipWith (xs ys : List Byte) (i : Nat) :
    byteAt (List.zipWith fieldMul xs ys) i = fieldMul (byteAt xs i) (byteAt ys i) := by
  unfold byteAt
  rw [List.getElem?_zipWith]
  cases xs[i]? with
  | none => exact (zero_fieldMul _).symm
  | some x =>
    cases ys[i]? with
    | none => exact (fieldMul_zero x).symm
    | some y => rfl

section
variable {K : Type} [Field K] {val : Byte → K} (f : Embeds val)
include f

theorem Embeds.zero : val 0 = 0 := by
  have twice := f.add 0 0
  simpa using twice

theorem Embeds.double (a : Byte) : val a + val a = 0 := by
  rw [← f.add, BitVec.xor_self]
  exact f.zero

theorem Embeds.double_field (a : K) : a + a = 0 := by
  have one := f.double 1
  rw [f.one] at one
  rw [← mul_one a, ← mul_add, one, mul_zero]

theorem Embeds.foldl (terms : List Byte) (start : Byte) {n : Nat} (short : terms.length ≤ n) :
    val (terms.foldl (· ^^^ ·) start) = val start + ∑ i ∈ Finset.range n, val (byteAt terms i) := by
  induction terms generalizing start n with
  | nil =>
    have none_ (i : Nat) : val (byteAt [] i) = 0 := f.zero
    simp [none_]
  | cons t rest ih =>
    obtain ⟨m, rfl⟩ : ∃ m, n = m + 1 := ⟨n - 1, by have := List.length_cons (a := t) (as := rest); omega⟩
    have shift (i : Nat) : byteAt (t :: rest) (i + 1) = byteAt rest i := rfl
    have first : byteAt (t :: rest) 0 = t := rfl
    rw [List.foldl_cons, ih _ (Nat.le_of_succ_le_succ short), Finset.sum_range_succ', f.add]
    simp only [shift, first]
    ring

/-- The field sum of products as a sum in the field (R20, R21). -/
theorem Embeds.dot (xs ys : List Byte) {n : Nat} (short : xs.length ≤ n) :
    val (fieldDot xs ys) = ∑ i ∈ Finset.range n, val (byteAt xs i) * val (byteAt ys i) := by
  have bound : (List.zipWith fieldMul xs ys).length ≤ n := by
    rw [List.length_zipWith]
    omega
  rw [fieldDot, fieldSum, f.foldl _ 0 bound, f.zero, zero_add]
  exact Finset.sum_congr rfl fun i _ => by rw [byteAt_zipWith, f.mul]

end

/-! ## The rows of the working pair (R28) -/

theorem byteAt_map (row : List Byte) (g : Byte → Byte) (zero : g 0 = 0) (i : Nat) : byteAt (row.map g) i = g (byteAt row i) := by
  unfold byteAt
  rw [List.getElem?_map]
  cases row[i]? with
  | none => exact zero.symm
  | some x => rfl

theorem byteAt_addRows {x y : List Byte} (same : x.length = y.length) (i : Nat) :
    byteAt (addRows x y) i = byteAt x i ^^^ byteAt y i := by
  unfold byteAt addRows
  rw [List.getElem?_zipWith]
  by_cases inside : i < x.length
  · have inside' : i < y.length := by omega
    simp [inside, inside']
  · have outside : ¬ i < y.length := by omega
    simp [Nat.not_lt.1 inside, Nat.not_lt.1 outside]

theorem length_scaleRow (a : Byte) (row : List Byte) : (scaleRow a row).length = row.length := List.length_map _

theorem byteAt_scaleRow (a : Byte) (row : List Byte) (i : Nat) : byteAt (scaleRow a row) i = fieldMul a (byteAt row i) :=
  byteAt_map row (fieldMul a) (fieldMul_zero a) i

theorem rowAt_eq {rows : List (List Byte)} {q : Nat} (row : q < rows.length) : rowAt rows q = rows[q] := by
  simp [rowAt, row]

/-- A working pair: k rows of 2k bytes. -/
structure Paired (k : Nat) (rows : List (List Byte)) : Prop where
  count : rows.length = k
  width : ∀ q < k, (rowAt rows q).length = k + k

theorem rowAt_exchangeRows {rows : List (List Byte)} {c r q : Nat} (row_c : c < rows.length) (row_r : r < rows.length)
    (row_q : q < rows.length) : rowAt (exchangeRows rows c r) q = rowAt rows (Equiv.swap c r q) := by
  rw [Equiv.swap_apply_def]
  unfold exchangeRows
  by_cases last : q = r
  · subst last
    by_cases same : q = c
    · subst same
      simp [rowAt, row_q]
    · simp [rowAt, row_q, same, row_c]
  · by_cases first : q = c
    · subst first
      simp [rowAt, row_q, Ne.symm last, row_r]
    · simp [rowAt, Ne.symm last, Ne.symm first, first, last]

theorem rowAt_mapIdx {rows : List (List Byte)} (g : Nat → List Byte → List Byte) {q : Nat} (row : q < rows.length) :
    rowAt (rows.mapIdx g) q = g q (rowAt rows q) := by
  simp [rowAt, row]

/-- A pivot found by the search stands at or below the column's row (R28, step 1). -/
theorem pivotRow?_some {rows : List (List Byte)} {c r : Nat} (late : c ≤ r) (row : r < rows.length)
    (pivot : byteAt (rowAt rows r) c ≠ 0) : ∃ s, pivotRow? rows c = some s ∧ c ≤ s ∧ s < rows.length
      ∧ byteAt (rowAt rows s) c ≠ 0 := by
  have test : (decide (c ≤ r) && byteAt (rowAt rows r) c != 0) = true :=
    Bool.and_eq_true_iff.2 ⟨decide_eq_true late, bne_iff_ne.2 pivot⟩
  cases found : pivotRow? rows c with
  | none => exact absurd test (by
      have all := List.find?_eq_none.1 found r (List.mem_range.2 row)
      exact all)
  | some s =>
    have passes : (decide (c ≤ s) && byteAt (rowAt rows s) c != 0) = true :=
      List.find?_some (p := fun s => decide (c ≤ s) && byteAt (rowAt rows s) c != 0) found
    have listed : s < rows.length := List.mem_range.1 (List.mem_of_find?_eq_some found)
    obtain ⟨below, some_⟩ := Bool.and_eq_true_iff.1 passes
    exact ⟨s, rfl, of_decide_eq_true below, listed, bne_iff_ne.1 some_⟩

section
variable {k c : Nat} {rows : List (List Byte)} (paired : Paired k rows) (more : c < k)
include paired more

theorem Paired.exchangeRows {r : Nat} (row_r : r < k) : Paired k (exchangeRows rows c r) where
  count := by
    rw [Machine.exchangeRows, List.length_set, List.length_set]
    exact paired.count
  width := fun q row => by
    rw [rowAt_exchangeRows (paired.count.symm ▸ more) (paired.count.symm ▸ row_r) (paired.count.symm ▸ row)]
    refine paired.width _ ?_
    rw [Equiv.swap_apply_def]
    split <;> [exact row_r; (split <;> assumption)]

/-- One column's steps, byte by byte (R28). -/
theorem eliminateColumn_rows {r : Nat} (found : pivotRow? rows c = some r) (row_r : r < k) {ex : List (List Byte)}
    (ex_eq : ex = exchangeRows rows c r) : Paired k (eliminateColumn rows c)
      ∧ ∀ q < k, ∀ i, byteAt (rowAt (eliminateColumn rows c) q) i =
        if q = c then fieldMul (fieldInverse (byteAt (rowAt ex c) c)) (byteAt (rowAt ex c) i)
        else byteAt (rowAt ex q) i ^^^ fieldMul (byteAt (rowAt ex q) c)
          (fieldMul (fieldInverse (byteAt (rowAt ex c) c)) (byteAt (rowAt ex c) i)) := by
  have paired' : Paired k ex := ex_eq ▸ paired.exchangeRows more row_r
  obtain ⟨unit, unit_eq⟩ : ∃ unit, unit = scaleRow (fieldInverse (byteAt (rowAt ex c) c)) (rowAt ex c) := ⟨_, rfl⟩
  have meaning : eliminateColumn rows c = ex.mapIdx fun q row =>
      if q = c then unit else addRows row (scaleRow (byteAt row c) unit) := by
    rw [unit_eq, ex_eq]
    simp only [eliminateColumn, found]
  have unit_length : unit.length = k + k := by rw [unit_eq, length_scaleRow, paired'.width c more]
  have scaled (q : Nat) (row : q < k) :
      (rowAt ex q).length = (scaleRow (byteAt (rowAt ex q) c) unit).length := by
    rw [length_scaleRow, unit_length, paired'.width q row]
  have read (q : Nat) (row : q < k) : rowAt (eliminateColumn rows c) q =
      if q = c then unit else addRows (rowAt ex q) (scaleRow (byteAt (rowAt ex q) c) unit) := by
    rw [meaning]
    exact rowAt_mapIdx _ (paired'.count.symm ▸ row)
  refine ⟨⟨by rw [meaning, List.length_mapIdx]; exact paired'.count, fun q row => ?_⟩, fun q row i => ?_⟩
  · rw [read q row]
    split
    · exact unit_length
    · rw [addRows, List.length_zipWith, ← scaled q row, Nat.min_self]
      exact paired'.width q row
  · rw [read q row]
    split
    · rw [unit_eq, byteAt_scaleRow]
    · rw [byteAt_addRows (scaled q row), byteAt_scaleRow, unit_eq, byteAt_scaleRow]

end

section
variable {K : Type} [Field K] {val : Byte → K} (f : Embeds val) {k : Nat} {x b : Nat → K}
include f

/-- The bytes of a working pair in the field. -/
def pairIn (val : Byte → K) (rows : List (List Byte)) (q i : Nat) : K := val (byteAt (rowAt rows q) i)

theorem eliminateColumn_eliminated {c : Nat} {rows : List (List Byte)} (paired : Paired k rows) (more : c < k)
    (h : Eliminated k c x b (pairIn val rows)) :
    Paired k (eliminateColumn rows c) ∧ Eliminated k (c + 1) x b (pairIn val (eliminateColumn rows c)) := by
  obtain ⟨r, late, row_r, some_⟩ := h.pivot more
  have byte : byteAt (rowAt rows r) c ≠ 0 := fun none_ => some_ (by rw [pairIn, none_, f.zero])
  obtain ⟨s, found, late, row_s, pivot⟩ := pivotRow?_some late (paired.count.symm ▸ row_r) byte
  rw [paired.count] at row_s
  obtain ⟨paired', bytes⟩ := eliminateColumn_rows paired more found row_s rfl
  refine ⟨paired', ?_⟩
  have exchanged := h.exchange late row_s more
  have entries (q : Nat) (row : q < k) (i : Nat) :
      pairIn val (exchangeRows rows c s) q i = pairIn val rows (Equiv.swap c s q) i := by
    rw [pairIn, rowAt_exchangeRows (paired.count.symm ▸ more) (paired.count.symm ▸ row_s) (paired.count.symm ▸ row)]
    rfl
  have again := exchanged.congr (fun q row i _ => entries q row i) (Nat.le_of_lt more)
  have pivotal : pairIn val (exchangeRows rows c s) c c ≠ 0 := by
    rw [entries c more, Equiv.swap_apply_left]
    exact fun none_ => pivot (f.injective (none_.trans f.zero.symm))
  refine (again.eliminate more f.double_field pivotal).congr (fun q row i _ => ?_) more
  rw [pairIn, bytes q row i]
  split
  · rw [f.mul, f.inv]
    rfl
  · rw [f.add, f.mul, f.mul, f.inv]
    rfl

theorem foldl_eliminated {rows : List (List Byte)} (paired : Paired k rows) (h : Eliminated k 0 x b (pairIn val rows)) :
    ∀ c ≤ k, Paired k ((List.range c).foldl eliminateColumn rows)
      ∧ Eliminated k c x b (pairIn val ((List.range c).foldl eliminateColumn rows)) := by
  intro c
  induction c with
  | zero => exact fun _ => ⟨paired, h⟩
  | succ c ih =>
    intro short
    obtain ⟨paired', h'⟩ := ih (Nat.le_of_succ_le short)
    rw [List.range_succ, List.foldl_append]
    exact eliminateColumn_eliminated f paired' short h'

end

end Sys2Proof.Machine

/-! The generator's rows (R23), and O58. -/

namespace Sys2Proof.Machine

/-! ## The generator's rows (R23) -/

/-- The code's columns and its parity rows as bytes: the numbers below 16 are bytes of their own. -/
theorem ofNat_byte_injective {m n : Nat} (short_m : m < 256) (short_n : n < 256) (same : BitVec.ofNat 8 m = BitVec.ofNat 8 n) :
    m = n := by
  have numbers := congrArg BitVec.toNat same
  rw [BitVec.toNat_ofNat, BitVec.toNat_ofNat] at numbers
  omega

theorem byteAt_range_map {n : Nat} (f : Nat → Byte) {i : Nat} (short : i < n) : byteAt ((List.range n).map f) i = f i := by
  simp [byteAt, short]

theorem length_generatorRow (g : Geometry) (position : Nat) : (generatorRow g position).length = g.k := by
  simp [generatorRow]

section
variable {K : Type} [Field K] {val : Byte → K} (f : Embeds val) {g : Geometry}
include f

theorem generatorRow_data {position i : Nat} (data : position < g.k) (short : i < g.k) :
    val (byteAt (generatorRow g position) i) = if i = position then 1 else 0 := by
  rw [generatorRow, byteAt_range_map _ short, if_pos data]
  split
  · exact f.one
  · exact f.zero

/-- A parity row is a row of a Cauchy matrix, each column scaled (R23). -/
theorem generatorRow_parity {j i : Nat} (short : i < g.k) : val (byteAt (generatorRow g (g.k + j)) i) =
    val (BitVec.ofNat 8 (i + 4)) * (val (BitVec.ofNat 8 (i + 4)) + val (BitVec.ofNat 8 j))⁻¹ := by
  rw [generatorRow, byteAt_range_map _ short, if_neg (by omega), Nat.add_sub_cancel_left]
  simp only [parityCoefficient, f.mul, f.inv, f.add]

/-- Any k positions determine the data: no other data bytes than zeros give zeros there (R23, R28). -/
theorem survivors_determine (wide : g.k ≤ 12) (high : g.m ≤ 4) {survivors : Positions} (count : survivors.length = g.k)
    (nodup : survivors.Nodup) (within : ∀ s ∈ survivors, s < g.width) {v : Nat → K}
    (zero : ∀ s ∈ survivors, ∑ i ∈ Finset.range g.k, val (byteAt (generatorRow g s) i) * v i = 0) :
    ∀ i < g.k, v i = 0 := by
  classical
  have known : ∀ i < g.k, i ∈ survivors → v i = 0 := by
    intro i short member
    have row := zero i member
    rw [Finset.sum_congr rfl fun j listed => by rw [generatorRow_data f short (Finset.mem_range.1 listed)]] at row
    simpa [short] using row
  obtain ⟨lost, lost_eq⟩ : ∃ lost, lost = (Finset.range g.k).filter fun i => i ∉ survivors := ⟨_, rfl⟩
  obtain ⟨rows, rows_eq⟩ : ∃ rows, rows = (Finset.range g.m).filter fun j => g.k + j ∈ survivors := ⟨_, rfl⟩
  have mem_lost (i : Nat) : i ∈ lost ↔ i < g.k ∧ i ∉ survivors := by simp [lost_eq]
  have mem_rows (j : Nat) : j ∈ rows ↔ j < g.m ∧ g.k + j ∈ survivors := by simp [rows_eq]
  -- as many parity rows survive as data columns are lost
  have enough : lost.card ≤ rows.card := by
    have whole : survivors.toFinset.card = g.k := by rw [List.toFinset_card_of_nodup nodup, count]
    have split := Finset.card_filter_add_card_filter_not (s := survivors.toFinset) fun s => s < g.k
    have columns := Finset.card_filter_add_card_filter_not (s := Finset.range g.k) fun i => i ∈ survivors
    have same : survivors.toFinset.filter (fun s => s < g.k) = (Finset.range g.k).filter fun i => i ∈ survivors := by
      ext s
      simp [and_comm]
    have parity : (survivors.toFinset.filter fun s => ¬ s < g.k).card ≤ rows.card := by
      refine Finset.card_le_card_of_injOn (fun s => s - g.k) (fun s member => ?_) fun s member t member' same => ?_
      · obtain ⟨listed, late⟩ := Finset.mem_filter.1 member
        have survivor := List.mem_toFinset.1 listed
        have bound : s < g.k + g.m := within s survivor
        have back : g.k + (s - g.k) = s := by omega
        have short : s - g.k < g.m := by omega
        exact (mem_rows (s - g.k)).2 ⟨short, back.symm ▸ survivor⟩
      · have late := (Finset.mem_filter.1 member).2
        have late' := (Finset.mem_filter.1 member').2
        have difference : s - g.k = t - g.k := same
        omega
    rw [Finset.card_range] at columns
    rw [lost_eq]
    rw [same] at split
    omega
  obtain ⟨y, y_eq⟩ : ∃ y : Nat → K, y = fun i => val (BitVec.ofNat 8 (i + 4)) := ⟨_, rfl⟩
  obtain ⟨values, values_eq⟩ : ∃ values, values = rows.image fun j => val (BitVec.ofNat 8 j) := ⟨_, rfl⟩
  have card : values.card = rows.card := by
    rw [values_eq]
    refine Finset.card_image_of_injOn fun j member k member' same => ?_
    have short := ((mem_rows j).1 member).1
    have short' := ((mem_rows k).1 member').1
    exact ofNat_byte_injective (by omega) (by omega) (f.injective same)
  have distinct : Set.InjOn y lost := fun i member j member' same => by
    have short := ((mem_lost i).1 member).1
    have short' := ((mem_lost j).1 member').1
    rw [y_eq] at same
    have := ofNat_byte_injective (by omega) (by omega) (f.injective same)
    omega
  have apart : ∀ i ∈ lost, ∀ t ∈ values, y i + t ≠ 0 := by
    intro i member t listed none_
    obtain ⟨j, row, rfl⟩ := Finset.mem_image.1 (values_eq ▸ listed)
    have short := ((mem_lost i).1 member).1
    have short' := ((mem_rows j).1 row).1
    rw [y_eq, ← f.add, ← f.zero] at none_
    have same := ofNat_byte_injective (by omega) (by omega) (BitVec.xor_eq_zero_iff.1 (f.injective none_))
    omega
  have solved := cauchy_injective lost values (fun i => y i * v i) (card ▸ enough) distinct apart fun t listed => by
    obtain ⟨j, row, rfl⟩ := Finset.mem_image.1 (values_eq ▸ listed)
    have equation := zero _ ((mem_rows j).1 row).2
    rw [Finset.sum_congr rfl fun i member => by rw [generatorRow_parity f (Finset.mem_range.1 member)]] at equation
    rw [← equation, lost_eq, Finset.sum_filter]
    refine Finset.sum_congr rfl fun i member => ?_
    by_cases held : i ∈ survivors
    · simp [held, known i (Finset.mem_range.1 member) held]
    · rw [if_pos held, y_eq]
      ring
  intro i short
  by_cases held : i ∈ survivors
  · exact known i short held
  · have product := solved i ((mem_lost i).2 ⟨short, held⟩)
    refine (mul_eq_zero.1 product).resolve_left fun none_ => ?_
    rw [y_eq, ← f.zero] at none_
    have := ofNat_byte_injective (m := i + 4) (n := 0) (by omega) (by omega) (f.injective none_)
    omega

/-! ## The decode plan (R28, R29) -/

/-- The working pair before the first column: the survivors' rows beside the unit matrix (R28). -/
def startPair (g : Geometry) (survivors : Positions) : List (List Byte) :=
  (survivors.map (generatorRow g)).mapIdx fun r row =>
    row ++ ((List.range g.k).map fun i => if i = r then 0x01#8 else 0x00#8)

omit f in
theorem startPair_row {survivors : Positions} (count : survivors.length = g.k) {q : Nat} (row : q < g.k) :
    ∃ s, survivors[q]? = some s ∧ rowAt (startPair g survivors) q =
      generatorRow g s ++ ((List.range g.k).map fun i => if i = q then 0x01#8 else 0x00#8) := by
  have short : q < survivors.length := count.symm ▸ row
  refine ⟨survivors[q], List.getElem?_eq_getElem short, ?_⟩
  rw [startPair, rowAt_mapIdx _ (by rw [List.length_map]; exact short)]
  simp [rowAt, short]

omit f in
theorem byteAt_append_later {a b : List Byte} {n i : Nat} (length : a.length = n) : byteAt (a ++ b) (n + i) = byteAt b i := by
  rw [byteAt, List.getElem?_append_right (by omega), length, Nat.add_sub_cancel_left, byteAt]

omit f in
theorem startPair_paired {survivors : Positions} (count : survivors.length = g.k) : Paired g.k (startPair g survivors) where
  count := by rw [startPair, List.length_mapIdx, List.length_map, count]
  width := fun q row => by
    obtain ⟨s, -, read⟩ := startPair_row count row
    rw [read, List.length_append, length_generatorRow, List.length_map, List.length_range]

theorem startPair_eliminated (wide : g.k ≤ 12) (high : g.m ≤ 4) {survivors : Positions} (count : survivors.length = g.k)
    (nodup : survivors.Nodup) (within : ∀ s ∈ survivors, s < g.width) (data : List Byte) :
    Eliminated g.k 0 (fun i => val (byteAt data i))
      (fun s => val (byteAt (survivors.map fun s => fieldDot (generatorRow g s) data) s)) (pairIn val (startPair g survivors)) := by
  have left {q s : Nat} (row : q < g.k) (survivor : survivors[q]? = some s) (v : Nat → K) :
      ∑ i ∈ Finset.range g.k, pairIn val (startPair g survivors) q i * v i =
        ∑ i ∈ Finset.range g.k, val (byteAt (generatorRow g s) i) * v i := by
    obtain ⟨t, survivor', read⟩ := startPair_row count row
    obtain rfl := Option.some.inj (survivor.symm.trans survivor')
    refine Finset.sum_congr rfl fun i member => ?_
    rw [pairIn, read, byteAt_append _ (by rw [length_generatorRow]; exact Finset.mem_range.1 member)]
  have right {q s : Nat} (row : q < g.k) (short : s < g.k) :
      pairIn val (startPair g survivors) q (g.k + s) = if s = q then 1 else 0 := by
    obtain ⟨t, -, read⟩ := startPair_row count row
    rw [pairIn, read, byteAt_append_later (length_generatorRow g t), byteAt_range_map _ short]
    split
    · exact f.one
    · exact f.zero
  refine ⟨fun q row => ?_, fun v zero => survivors_determine f wide high count nodup within fun s member => ?_,
    fun _ _ i early => absurd early (Nat.not_lt_zero i)⟩
  · obtain ⟨s, survivor, -⟩ := startPair_row count row
    rw [left row survivor, ← f.dot _ _ (Nat.le_of_eq (length_generatorRow g s)),
      Finset.sum_congr rfl fun t member => by rw [right row (Finset.mem_range.1 member)]]
    simp only [ite_mul, one_mul, zero_mul]
    rw [Finset.sum_ite_eq' (Finset.range g.k) q, if_pos (Finset.mem_range.2 row), byteAt, List.getElem?_map, survivor]
    rfl
  · obtain ⟨q, at_⟩ := List.mem_iff_getElem?.1 member
    have row : q < g.k := count ▸ (List.getElem?_eq_some_iff.1 at_).1
    exact (left row at_ v).symm.trans (zero q row)

/-- The decode row of a position gives back its byte (R29). -/
theorem decodeRow_restores (wide : g.k ≤ 12) (high : g.m ≤ 4) {survivors : Positions} (count : survivors.length = g.k)
    (nodup : survivors.Nodup) (within : ∀ s ∈ survivors, s < g.width) (data : List Byte) (position : Nat) :
    fieldDot (decodeRow g (invertMatrix g.k (survivors.map (generatorRow g))) position)
        (survivors.map fun s => fieldDot (generatorRow g s) data) = fieldDot (generatorRow g position) data := by
  obtain ⟨b, b_eq⟩ : ∃ b, b = survivors.map fun s => fieldDot (generatorRow g s) data := ⟨_, rfl⟩
  obtain ⟨final, final_eq⟩ : ∃ final, final = (List.range g.k).foldl eliminateColumn (startPair g survivors) := ⟨_, rfl⟩
  have start := startPair_eliminated f wide high count nodup within data
  rw [← b_eq] at start
  obtain ⟨paired, done⟩ := foldl_eliminated f (startPair_paired count) start g.k (Nat.le_refl _)
  rw [← final_eq] at paired done
  have inverse : invertMatrix g.k (survivors.map (generatorRow g)) = final.map fun row => row.drop g.k := by
    rw [final_eq]
    rfl
  have entry {c s : Nat} (row : c < g.k) :
      byteAt ((invertMatrix g.k (survivors.map (generatorRow g))).map fun row => byteAt row s) c =
        byteAt (rowAt final c) (g.k + s) := by
    have short : c < final.length := paired.count.symm ▸ row
    rw [inverse, List.map_map]
    simp [byteAt, rowAt, short]
  refine f.injective ?_
  rw [f.dot _ _ (Nat.le_of_eq (length_generatorRow g position)), f.dot (n := g.k) _ _ (by simp [decodeRow])]
  have terms (s : Nat) (short : s < g.k) :
      val (byteAt (decodeRow g (invertMatrix g.k (survivors.map (generatorRow g))) position) s) =
        ∑ c ∈ Finset.range g.k, val (byteAt (generatorRow g position) c) * pairIn val final c (g.k + s) := by
    rw [decodeRow, byteAt_range_map _ short, f.dot _ _ (Nat.le_of_eq (length_generatorRow g position))]
    exact Finset.sum_congr rfl fun c member => by rw [entry (Finset.mem_range.1 member)]; rfl
  rw [Finset.sum_congr rfl fun s member => by rw [terms s (Finset.mem_range.1 member), Finset.sum_mul], Finset.sum_comm]
  refine Finset.sum_congr rfl fun c member => ?_
  rw [done.solved (Finset.mem_range.1 member), Finset.mul_sum, b_eq]
  exact Finset.sum_congr rfl fun s _ => mul_assoc _ _ _

end

/-! ## The field of the bytes (R20 to R22) -/

/-- A byte as an element of the field of 256 elements. -/
def FieldByte : Type := Byte

/-- The field of the bytes: the sum by exclusive-or, the product and the inverse of R21 and R22. -/
@[reducible] def byteField : Field FieldByte :=
  @Field.ofMinimalAxioms FieldByte ⟨fun a b => BitVec.xor a b⟩ ⟨fun a b => fieldMul a b⟩ ⟨fun a => a⟩
    ⟨fun a => fieldInverse a⟩ ⟨(0 : Byte)⟩ ⟨(1 : Byte)⟩
    (BitVec.xor_assoc (w := 8)) (fun _ => BitVec.zero_xor) (fun _ => BitVec.xor_self) fieldMul_assoc fieldMul_comm
    (fun a => (fieldMul_comm 1 a).trans (fieldMul_one a)) (fun _ some_ => fieldMul_fieldInverse some_)
    (show fieldInverse 0 = 0 by decide +kernel) (fun a b c => fieldMul_xor_right a b c) ⟨(0 : Byte), (1 : Byte),
      show (0 : Byte) ≠ 1 by decide⟩

theorem embeds_byteField : @Embeds FieldByte byteField fun b => b :=
  @Embeds.mk FieldByte byteField _ (fun _ _ => rfl) (fun _ _ => rfl) (fun _ => rfl) rfl fun _ _ same => same

/-- Settles O58. -/
theorem decodePlansRestoreFragments : Obligations.DecodePlansRestoreFragments := by
  intro g survivors lost data i position _ wide _ high _ count nodup within _ listed _
  refine ⟨List.length_map _, _, ?_, ?_,
    @decodeRow_restores FieldByte byteField _ embeds_byteField g wide high survivors count nodup within data position⟩
  · rw [decodePlan, List.getElem?_map, listed]
    rfl
  · rw [decodeRow, List.length_map, List.length_range]

end Sys2Proof.Machine

/-! STAGED in a part whose serve table has two records of one number (R126). -/

namespace Sys2Proof.Machine

/-- What a command leads to is shown by its effect, but for the status block's mark. -/
theorem leads_shows {i : Instr} {s : State} {f : Part → Part} {after : Part → Prop} (meaning : exec i s = run s f)
    (leads : Leads i s after) : ∃ q : Part, q.unmarked = (f s.part).unmarked ∧ after q := by
  obtain ⟨t, next, -, shown⟩ := leads
  obtain rfl := Host.Outcome.next.inj (meaning.symm.trans next)
  exact ⟨_, Part.unmarked_markStatus _ _, shown⟩

/-- What STAGED does (R126, R164). -/
def Part.stagedEffect (tag : Tag) (result : Byte) (p : Part) : Part :=
  p.takeCommand fun q => q.whileRunning fun r =>
    match resultOf? result with
    | none => .error .badField
    | some ok => r.answerStage tag ok

theorem staged_runs (tag : Tag) (result : Byte) (s : State) :
    exec (.staged tag result) s = run s (Part.stagedEffect tag result) := rfl

open Tests in
/-- The entry of the tests whose STAGE request has tag 9, without openers. -/
def stagingEntry : ServeEntry := { serveA .staging [] with tag := some 9 }

open Tests in
/-- The part of the tests with a STAGE request of tag 9 outstanding, in which another record has the entry's number too,
and stands before it: the entry that tag 9 finds is not the entry of that number. -/
def stagedTwice : Part :=
  { staging [] with svu := { (staging []).svu with entries := [(0, serveA .staged [openerOne]), (0, stagingEntry)] } }

theorem stagedTwice_taken : stagedTwice.readerTakes = true ∧ stagedTwice.stagingOf? 9 = some (0, stagingEntry) := by
  decide +kernel

theorem stagedTwice_left : (stagedTwice.stagedEffect 9 0x02).svu.entries.length = 2 := by decide +kernel

/-- Refutes O15: the statement does not say of an entry without internal opener that it is the entry of its number (it says
so of one that has an opener). Where another record of the number stands before it, STAGED with result 02h fails that one
instead, which keeps its opener, and removes no entry. -/
theorem not_stagedIsTaken : ¬ Obligations.StagedIsTaken := by
  intro h
  obtain ⟨taken, found⟩ := stagedTwice_taken
  have all := (h [] stagedTwice 9 0 stagingEntry taken rfl (by decide) found).1 rfl
  obtain ⟨q, same, gone⟩ := leads_shows (staged_runs 9 0x02 _) (all.2.2 rfl)
  have entries : q.svu.entries = (stagedTwice.stagedEffect 9 0x02).svu.entries :=
    (congrArg (fun q : Part => q.svu.entries) same :)
  have none_ : (stagedTwice.svu.entries.dropRow 0).length = 0 := by decide +kernel
  rw [← gone, entries, stagedTwice_left] at none_
  exact absurd none_ (by decide)

end Sys2Proof.Machine

/-! DROP in a part in which two contexts have one number (R13, R104). -/

namespace Sys2Proof.Machine

/-- What DROP does (R13, R14, R164). -/
def Part.dropEffect (stripe : StripeId) (ownIndex : Byte) (p : Part) : Part :=
  p.takeCommand fun q => q.whileRunning fun r => r.dropRecord stripe ownIndex.toNat

theorem drop_runs (stripe : StripeId) (ownIndex : Byte) (s : State) :
    exec (.drop stripe ownIndex) s = run s (Part.dropEffect stripe ownIndex) := rfl

open Tests in
/-- The context of stripe 12345h of the tests, which plans with lane 5. -/
def laneFiveContext : Context := contextA .planning [] [5]

open Tests in
/-- The part of the tests with that context, before which a context of another stripe has its number. -/
def contextTwice : Part :=
  { withContextLane laneFiveContext (laneUse .streaming) with
    ctx := { contexts := [(0, { contextA .planning [] [] with stripe := 0x222 }), (0, laneFiveContext)]
             generations := (withContext laneFiveContext).ctx.generations } }

theorem contextTwice_dropped : contextTwice.readerTakes = true ∧ contextTwice.hdt.rising = true
    ∧ contextTwice.contextOf? 0x12345 = some (0, laneFiveContext)
    ∧ (contextTwice.recordOf? 0x12345 (0 : Byte).toNat).map Prod.fst = some 0
    ∧ (∀ e ∈ contextTwice.svu.entries, e.2.stripe ≠ 0x12345)
    ∧ ∀ other ∈ contextTwice.hdt, other.1 ≠ 0 → other.2.stripe ≠ 0x12345 := by
  decide +kernel

theorem contextTwice_left : ((contextTwice.dropEffect 0x12345 0).lane 5).holder = some 0 := by decide +kernel

/-- Refutes O14: the statement does not say of the context of the stripe that it is the context of its number. Where another
one of the number stands before it, a DROP of the stripe's last record releases that one's lanes, and those of the context
itself stay. -/
theorem not_dropRemovesTheRecord : ¬ Obligations.DropRemovesTheRecord := by
  intro h
  obtain ⟨taken, rising, context, found, unserved, last⟩ := contextTwice_dropped
  obtain ⟨⟨position, r⟩, record, first⟩ := Option.map_eq_some_iff.1 found
  obtain rfl : position = 0 := first
  obtain ⟨-, -, -, -, ends⟩ := h [] contextTwice 0x12345 0 0 r taken rfl record rising
  obtain ⟨q, same, -, -, lanes, -⟩ := leads_shows (drop_runs 0x12345 0 _) (ends 0 laneFiveContext context unserved last)
  have holder : ((contextTwice.dropEffect 0x12345 0).lane 5).holder = none :=
    (congrArg (fun q : Part => (q.lane 5).holder) same :).symm.trans (lanes 5 List.mem_cons_self).1
  exact absurd (contextTwice_left.symm.trans holder) nofun

end Sys2Proof.Machine

/-! PEER-LOST at the lanes while frames are held (R118, R120, R159). -/

namespace Sys2Proof.Machine

open Tests in
/-- The part of the tests with lane 5 in use by station 1, and a RACKDOWN held while the control queue is empty, as after a
transmission that has freed the place it waits for. -/
def heldFrame : Part :=
  { withLane (laneUse .streaming) with
    sgp := { part.sgp with control := [], hold := [{ target := none, epoch := 6, body := .rackdown 0x03 }] } }

theorem heldFrame_rising : heldFrame.ftu.rising = true := by decide +kernel

theorem heldFrame_served : (heldFrame.lanesAndContextsPeerLost 1 true).sgp.hold.length = 0 := by decide +kernel

/-- Refutes O24: at the loss of a station its lanes withdraw their unsent requests, which serves the held frames (R159):
where the control queue has a place, the oldest of them enters it in the event. The statement, which asks only that no request
of the lanes waits, has nothing change but the lanes. -/
theorem not_stationsAreLost : ¬ Obligations.StationsAreLost := by
  intro h
  obtain ⟨-, -, lanes, -⟩ := h
  have kept := (lanes heldFrame 1 true heldFrame_rising).1 (fun r member => absurd member List.not_mem_nil)
    fun n u _ _ _ => ⟨rfl, fun f waits => by
      obtain rfl := List.mem_singleton.1 waits
      rfl⟩
  have held := congrArg (fun q : Part => q.sgp.hold.length) kept
  exact absurd (heldFrame_served.symm.trans held) (by decide)

end Sys2Proof.Machine

/-! STORED (R16, R17, R100 to R102): the delivery written, the record inserted, and the outcomes DONE and ABANDONED. -/

namespace Sys2Proof.Machine

/-! ## Positions and records -/

theorem Table.gapFrom_map {α : Type} (g : Nat × α → Nat × α) (number : ∀ r, (g r).1 = r.1) (t : Table α) (n : Nat) :
    Table.gapFrom n (t.map g) = Table.gapFrom n t := by
  induction t generalizing n with
  | nil => rfl
  | cons r rest ih =>
    obtain ⟨i, x⟩ := r
    have first : (g (i, x)).1 = i := number _
    rw [List.map_cons, ← Prod.eta (g (i, x)), first]
    simp only [Table.gapFrom, ih]

theorem changeStripe_number (t : StripeId) (f : HoldingRecord → HoldingRecord) (r : Nat × HoldingRecord) :
    (changeStripe t f r).1 = r.1 := by
  unfold changeStripe
  split <;> rfl

theorem lowestFree?_changeStripe (hdt : Table HoldingRecord) (t : StripeId) (f : HoldingRecord → HoldingRecord)
    (bound : Nat) : Table.lowestFree? (hdt.map (changeStripe t f)) bound = hdt.lowestFree? bound := by
  rw [Table.lowestFree?, Table.lowestFree?, Table.gapFrom_map _ (changeStripe_number t f)]

/-- A record written at a position that has been empty, after a change of records with their images (R9, R10). -/
theorem Part.Imaged.setRecord {p q r : Part} (h : p.Imaged q r) (now : r.now = p.now) {n : Nat}
    (empty : p.hdt.row? n = none) (free : r.hdt.row? n = none) (record : HoldingRecord) :
    p.Imaged (q.setRecord n record) { r with hdt := r.hdt.setRow n record } := by
  have table : q.hdt = r.hdt := (congrArg Part.hdt h.same :)
  have moment : q.now = p.now := (congrArg Part.now h.same :).trans now
  have changed : q.hdt.row? n ≠ some record := by
    rw [table, free]
    exact nofun
  refine ⟨?_, Part.imagesFollow_trans h.images (Part.setRecord_images q n record) moment fun j back => ?_⟩
  · have written := congrArg (fun x : Part => { x with hdt := r.hdt.setRow n record }) h.same
    rw [Part.setRecord, if_neg changed, table]
    exact written
  · rw [Part.setRecord_row?] at back ⊢
    split at back
    next here =>
      rw [here, empty] at back
      cases back
    next other => rw [if_neg other]

/-- A mask depends on which positions are listed alone. -/
theorem maskOf_congr {a b : Positions} (same : ∀ i, i ∈ a ↔ i ∈ b) : maskOf a = maskOf b := by
  refine BitVec.eq_of_getLsbD_eq fun i small => Bool.eq_iff_iff.2 ?_
  rw [maskOf, maskOf, getLsbD_foldl_mask a 0 small, getLsbD_foldl_mask b 0 small, same]

/-! ## Reports beside the tags (R168, R169) -/

/-- The host link with other outstanding tags. -/
def HostLink.withTags (h : HostLink) (stage store : List Tag) : HostLink := { h with stageTags := stage, storeTags := store }

theorem Part.postReport_withTags {p q : Part} {stage store : List Tag} (hlk : q.hlk = p.hlk.withTags stage store)
    (config : q.config = p.config) (r : Report) : (q.postReport r).hlk = (p.postReport r).hlk.withTags stage store := by
  have shown := Part.postReport_of_same (p := { p with hlk := p.hlk.withTags stage store }) hlk config r
  refine (congrArg Part.hlk shown).trans ?_
  dsimp only
  rw [Part.postReport_eq, Part.postReport_eq]
  split
  next ring => rw [if_pos (show (p.hlk.reportQueue.isEmpty && p.ringPlace) = true from ring)]; rfl
  next closed =>
    rw [if_neg (show ¬ (p.hlk.reportQueue.isEmpty && p.ringPlace) = true from closed)]
    split
    next room => rw [if_pos (show p.hlk.reportQueue.length < 64 from room)]; rfl
    next full => rw [if_neg (show ¬ p.hlk.reportQueue.length < 64 from full)]

theorem Part.storeTags_postReport (p : Part) (r : Report) : (p.postReport r).hlk.storeTags = p.hlk.storeTags := by
  have own := Part.postReport_withTags (p := p) (q := p) (stage := p.hlk.stageTags) (store := p.hlk.storeTags) rfl rfl r
  exact (congrArg HostLink.storeTags own :)

/-! ## A STORED taken (R16, R17, R100) -/

/-- A context with the delivery of a position written. -/
def Context.answered (position : Nat) (d : Delivery) (y : Context) : Context :=
  { y with lostList := y.lostList.map fun l => if l.position = position then { l with delivery := d } else l }

/-- The part with a STORED taken, apart from the records: the tag ended, the delivery written, and what a report has made of
the host link. -/
def Part.storeAnswered (p posted : Part) (tag : Tag) (c position : Nat) (d : Delivery) (table : Table HoldingRecord) :
    Part :=
  { p.tagEnded tag with
    hdt := table
    hlk := posted.hlk.withTags (p.hlk.stageTags.filter (· != tag)) (p.hlk.storeTags.filter (· != tag))
    ctx := { p.ctx with contexts := p.ctx.contexts.editRow c (Context.answered position d) } }

/-- The placement of a stripe with this station in the entry of a rebuilt position (R16). -/
def Part.placedHere (p : Part) (x : Context) (e : LostEntry) : Table HoldingRecord :=
  p.hdt.map (changeStripe x.stripe fun r => { r with placement := r.placement.set e.position p.own })

/-- The table after a rebuilt position is DELIVERED, and what has been posted: nothing, or HOLDINGS-FULL (R16, R17). -/
def Part.deliveredInto (p posted : Part) (x : Context) (e : LostEntry) (table : Table HoldingRecord) : Prop :=
  (p.deliveredTable x e table ∧ posted = p)
    ∨ (p.holds x.stripe e.position = false ∧ p.hdt.lowestFree? 131072 = none
      ∧ (∃ r0, p.firstRecord? x.stripe = some r0) ∧ table = p.placedHere x e
      ∧ posted = p.postReport (.holdingsFull x.stripe e.position))

section
variable {p : Part} {tag : Tag} {c : Nat} {x : Context} {e : LostEntry} (outstanding : tag ∈ p.hlk.storeTags)
  (delivery : p.deliveryOf? tag = some (c, x, e))
include outstanding delivery

theorem Part.answerStore_failed : p.answerStore tag false =
    .ok (((p.endTag tag).setDelivery c e.position .failed).checkDelivered c) := by
  simp [Part.answerStore, outstanding, delivery]

theorem Part.answerStore_delivered : p.answerStore tag true = .ok (Part.checkDelivered
    ((((p.endTag tag).setDelivery c e.position .delivered).setPlacement x.stripe e.position p.own).autoInsert x e.position
      e.digest) c) := by
  simp only [Part.answerStore, List.contains_iff_mem, outstanding, delivery, if_true]
  rfl

end

/-- The placement written and the record inserted, or HOLDINGS-FULL posted (R16, R17). -/
theorem Part.autoInsert_imaged {p posted : Part} {x : Context} {e : LostEntry} {table : Table HoldingRecord}
    (into : p.deliveredInto posted x e table) (rising : p.hdt.rising = true) (tag : Tag) (c : Nat) :
    p.Imaged ((((p.endTag tag).setDelivery c e.position .delivered).setPlacement x.stripe e.position p.own).autoInsert x
      e.position e.digest) (p.storeAnswered posted tag c e.position .delivered table) := by
  have placed : p.Imaged (((p.endTag tag).setDelivery c e.position .delivered).setPlacement x.stripe e.position p.own)
      (p.storeAnswered p tag c e.position .delivered (p.placedHere x e)) :=
    Part.Imaged.updateStripe (p := p) (r := (p.endTag tag).setDelivery c e.position .delivered) x.stripe
      (fun r => { r with placement := r.placement.set e.position p.own }) rising rfl rfl rfl
  generalize ((p.endTag tag).setDelivery c e.position .delivered).setPlacement x.stripe e.position p.own = q at placed
  have hdt : q.hdt = p.placedHere x e := (congrArg Part.hdt placed.same :)
  have holds : q.holds x.stripe e.position = p.holds x.stripe e.position :=
    (congrArg (fun q : Part => q.holds x.stripe e.position) placed.same :).trans
      (p.holds_changed _ rfl (t := x.stripe) (f := fun r => { r with placement := r.placement.set e.position p.own })
        (fun _ => rfl) (fun _ => rfl) e.position)
  have first : q.firstRecord? x.stripe =
      (p.firstRecord? x.stripe).map fun r => { r with placement := r.placement.set e.position p.own } :=
    (congrArg (fun q : Part => q.firstRecord? x.stripe) placed.same :).trans
      (p.firstRecord?_changed _ rfl (t := x.stripe) (f := fun r => { r with placement := r.placement.set e.position p.own })
        fun _ => rfl)
  have free : q.hdt.lowestFree? 131072 = p.hdt.lowestFree? 131072 := by
    rw [hdt]
    exact lowestFree?_changeStripe _ _ _ _
  rcases into with ⟨⟨held, rfl⟩ | ⟨r0, n, new, record, place, rfl⟩, rfl⟩ | ⟨new, full, ⟨r0, record⟩, rfl, rfl⟩
  · rw [Part.autoInsert, holds, held, if_pos rfl]
    exact placed
  · have inserted : q.autoInsert x e.position e.digest = q.setRecord n
        { r0 with
          ownIndex := e.position
          geometry := x.geometry
          length := x.length
          placement := r0.placement.set e.position posted.own
          digests := r0.digests.set e.position e.digest } := by
      simp only [Part.autoInsert, holds, new, Bool.false_eq_true, if_false, Part.rebuiltRecord?, first, record,
        Option.map_some, Part.insertRecord?, tablePositions, free, place]
    rw [inserted]
    obtain ⟨-, empty⟩ := Table.lowestFree?_spec rising place
    refine placed.setRecord rfl empty ?_ _
    exact (row?_changeStripe _ _ _ _).trans (by rw [empty]; rfl)
  · have posts : q.autoInsert x e.position e.digest = q.postReport (.holdingsFull x.stripe e.position) := by
      simp only [Part.autoInsert, holds, new, Bool.false_eq_true, if_false, Part.rebuiltRecord?, first, record,
        Option.map_some, Part.insertRecord?, tablePositions, free, full, Option.map_none]
    rw [posts]
    have shown := placed.then (besideRecords_postReport (.holdingsFull x.stripe e.position))
    have hlk := Part.postReport_withTags (p := p) (q := p.storeAnswered p tag c e.position .delivered (p.placedHere x e))
      rfl rfl (.holdingsFull x.stripe e.position)
    rw [Part.postReport_of_same (p := p.storeAnswered p tag c e.position .delivered (p.placedHere x e)) rfl rfl, hlk] at shown
    exact shown

end Sys2Proof.Machine

/-! STORED: the last answer ends its context (R100 to R102). -/

namespace Sys2Proof.Machine

/-! ## The host link after a release (R101) -/

/-- A fold of steps that leave what is read. -/
theorem foldl_reads {α β : Type} {g : Part → α} {f : Part → β → Part} (step : ∀ q a, g (f q a) = g q) (p : Part)
    (as : List β) : g (as.foldl f p) = g p := by
  induction as generalizing p with
  | nil => rfl
  | cons a rest ih => exact (ih (f p a)).trans (step p a)

/-- A reading of the part in which neither the serve table, the slots nor the fills that wait have a part. -/
def BesideSlots {α : Type} (g : Part → α) : Prop := ∀ (q : Part) svu slots fillQueue,
  g { q with svu := svu, smc := { q.smc with slots := slots, fillQueue := fillQueue } } = g q

section
variable {α : Type} {g : Part → α} (beside : BesideSlots g)
include beside

theorem BesideSlots.settleSlot (p : Part) (j : Nat) : g (p.settleSlot j) = g p := by
  unfold Part.settleSlot
  split
  · rfl
  · split
    · exact beside p _ _ _
    · rfl

theorem BesideSlots.giveUpSlot (p : Part) (j : Nat) : g (p.giveUpSlot j) = g p :=
  (beside.settleSlot _ j).trans (beside p _ _ _)

theorem BesideSlots.giveUpSlots (p : Part) (slots : List Nat) : g (p.giveUpSlots slots) = g p :=
  foldl_reads beside.giveUpSlot p slots

theorem BesideSlots.freeServe (p : Part) (n : Nat) : g (p.freeServe n) = g p := by
  unfold Part.freeServe
  split
  · rfl
  · exact (beside.giveUpSlot _ _).trans (beside p _ _ _)

theorem BesideSlots.removeOpeners (p : Part) (n : Nat) (leaves : Opener → Bool) : g (p.removeOpeners n leaves) = g p := by
  unfold Part.removeOpeners
  split
  · rfl
  · split
    · dsimp only
      split
      · exact (beside.freeServe _ n).trans (beside p _ _ _)
      · exact beside p _ _ _
    · rfl

theorem BesideSlots.detachOpener (p : Part) (c : Nat) : g (p.detachOpener c) = g p :=
  (beside (p.removeOpenersEverywhere (Opener.isInternalOf c)) _ _ _).trans
    (foldl_reads (fun q n => beside.removeOpeners q n (Opener.isInternalOf c)) p p.svu.entries.numbers)

end

theorem besideSlots_hlk : BesideSlots Part.hlk := fun _ _ _ _ => rfl

/-- A release makes the tags of the context's requests void, and changes nothing else of the host link (R101). -/
theorem Part.hlk_releaseContext {p : Part} {c : Nat} {x : Context} (inUse : p.context? c = some x) :
    ∃ q : Part, q.hlk = p.hlk
      ∧ (p.releaseContext c).hlk = ((x.lostList.filterMap LostEntry.requestedTag?).foldl Part.voidTag q).hlk := by
  refine ⟨(p.lanesGiven c x).detachOpener c, ?_, ?_⟩
  · rw [besideSlots_hlk.detachOpener, Part.lanesGiven_rest]
    rfl
  · have meaning : p.releaseContext c = (((x.lostList.filterMap LostEntry.requestedTag?).foldl Part.voidTag
        ((p.lanesGiven c x).detachOpener c)).editContext c Context.released).giveUpSlots
          (x.lostList.filterMap LostEntry.slot) := by
      simp only [Part.releaseContext, inUse]
      rfl
    rw [meaning, besideSlots_hlk.giveUpSlots]
    rfl

theorem Part.storeTags_voidTag (p : Part) (tag : Tag) : (p.voidTag tag).hlk.storeTags ⊆ p.hlk.storeTags := by
  unfold Part.voidTag
  split
  · exact List.filter_subset_self _
  · exact List.Subset.refl _

theorem Part.storeTags_releaseContext {p : Part} {c : Nat} {x : Context} (inUse : p.context? c = some x) :
    (p.releaseContext c).hlk.storeTags ⊆ p.hlk.storeTags := by
  obtain ⟨q, same, released⟩ := Part.hlk_releaseContext inUse
  rw [released, ← same]
  generalize x.lostList.filterMap LostEntry.requestedTag? = tags
  clear same released
  induction tags generalizing q with
  | nil => exact List.Subset.refl _
  | cons tag rest ih => exact List.Subset.trans (ih (q.voidTag tag)) (Part.storeTags_voidTag q tag)

theorem Part.hlk_releaseContext_noneRequested {p : Part} {c : Nat} {x : Context} (inUse : p.context? c = some x)
    (noRequest : ∀ e ∈ x.lostList, e.delivery ≠ .requested) : (p.releaseContext c).hlk = p.hlk := by
  obtain ⟨q, same, released⟩ := Part.hlk_releaseContext inUse
  have noTag : x.lostList.filterMap LostEntry.requestedTag? = [] :=
    List.filterMap_eq_nil_iff.2 fun e member => if_neg (noRequest e member)
  rw [released, noTag]
  exact same

/-! ## What an outcome posts (R102) -/

/-- A frame of a stripe's claim posted where the control queue has room stands in it. -/
theorem Part.post_control {p : Part} {b : FrameBody} {t : StripeId} (room : p.queueOpen)
    (contest : b.contestStripe? = some t) : ∃ f ∈ (p.post none b).sgp.control, f.target = none ∧ f.body = b := by
  cases waits : p.claimWaits t with
  | false =>
    rw [Part.post_contest contest waits room none]
    exact ⟨_, List.mem_append_right _ List.mem_cons_self, rfl, rfl⟩
  | true =>
    have claim : ∃ f ∈ p.sgp.control, f.body.isClaimOf t = true := by
      simpa [Part.claimWaits, room.1] using waits
    obtain ⟨f, member, claims⟩ := claim
    rw [Part.post_replaces none contest waits]
    exact ⟨_, List.mem_map.2 ⟨f, member, if_pos claims⟩, rfl, rfl⟩

theorem Part.storeTags_abandon {p : Part} {c : Nat} {x : Context} (inUse : p.context? c = some x)
    (rising : p.hdt.rising = true) (cause : AbandonCause) : (p.abandon c cause).hlk.storeTags ⊆ p.hlk.storeTags := by
  refine List.Subset.trans ?_ (Part.storeTags_releaseContext inUse)
  have released := Part.releaseContext_releasedTo inUse
  obtain ⟨q, q_eq⟩ : ∃ q, q = p.releaseContext c := ⟨_, rfl⟩
  rw [← q_eq] at released ⊢
  have decided : p.abandon c cause = if q.reportPathFull = true then
      q.editContext c fun z => { z with pendingOutcome := some (.abandoned cause) } else q.completeAbandoned c cause := by
    rw [q_eq]
    rfl
  rw [decided]
  split
  · exact List.Subset.refl _
  · rw [Part.completeAbandoned_eq (released.context?_self inUse)]
    have shown := (Part.outcomeReported_imaged (p := q) (by rw [released.hdt_same]; exact rising) c x.released.stripe
      .abandoned [] .quiet (.repairAbandoned cause x.released.stripe)).same
    have hlk := (congrArg (fun q : Part => q.hlk.storeTags) shown :)
    exact (hlk.trans (Part.storeTags_postReport q _)) ▸ List.Subset.refl _

end Sys2Proof.Machine

/-! STORED: outcome DONE, and the evaluation that follows it (R58, R61, R102). -/

namespace Sys2Proof.Machine

/-! ## Evaluation E of a QUIET stripe (R58, R61) -/

/-- Evaluation E of a QUIET stripe changes its records, the repair queue, the scanner's requests and the report path. -/
theorem Part.evaluateOrSweep_quiet {p : Part} {t : StripeId} (running : p.hlk.phase = .running)
    (quiet : ∀ r, p.firstRecord? t = some r → r.standing = .quiet) : ∃ hdt smc rq scn hlk, p.evaluateOrSweep t =
      { p with hdt := hdt, smc := smc, rq := rq, scn := scn, hlk := hlk } ∧ hlk.storeTags = p.hlk.storeTags := by
  cases record : p.firstRecord? t with
  | none =>
    have nothing : p.evaluateOrSweep t = p := by simp [Part.evaluateOrSweep, Part.evaluate?, running, record]
    exact ⟨_, _, _, _, _, nothing, rfl⟩
  | some r =>
    have standing := quiet r record
    rw [Part.evaluateOrSweep, Part.evaluate?_eq running record, standing]
    dsimp only
    split
    · exact ⟨_, _, _, _, _, rfl, rfl⟩
    · split
      · unfold Part.queueStripe?
        split
        · exact ⟨_, _, _, _, _, rfl, rfl⟩
        · rw [Part.setStanding, Part.updateStripe_rest]
          exact ⟨_, _, _, _, _, rfl, rfl⟩
      · unfold Part.makeUnrecoverable?
        split
        · exact ⟨_, _, _, _, _, rfl, rfl⟩
        · obtain ⟨hdt, smc, written⟩ : ∃ hdt smc, p.setStanding t (p.lossSet t) .unrecoverable =
              { p with hdt := hdt, smc := smc } := ⟨_, _, Part.updateStripe_rest p t _⟩
          rw [written, Part.postReport_of_same (p := p) (q := { p with hdt := hdt, smc := smc }) rfl rfl]
          exact ⟨_, _, _, _, _, rfl, Part.storeTags_postReport p _⟩

/-- What the statement about an evaluation compares: the records, the repair queue, the scanner and the report path. -/
def Part.endsLike (q after : Part) : Prop :=
  q.hdt = after.hdt ∧ q.rq = after.rq ∧ q.scn = after.scn
    ∧ q.hlk.reportQueue = after.hlk.reportQueue ∧ q.hlk.hostMemory = after.hlk.hostMemory

theorem Part.endsLike.of_same {q a b : Part} (h : q.endsLike a) (hdt : b.hdt = a.hdt) (rq : b.rq = a.rq)
    (scn : b.scn = a.scn) {stage store : List Tag} (hlk : a.hlk = b.hlk.withTags stage store) : q.endsLike b := by
  obtain ⟨sameHdt, sameRq, sameScn, queue, memory⟩ := h
  refine ⟨sameHdt.trans hdt.symm, sameRq.trans rq.symm, sameScn.trans scn.symm, ?_, ?_⟩
  · rw [queue, hlk]
    rfl
  · rw [memory, hlk]
    rfl

theorem Part.endsLike.posted {q a b : Part} {r : Report} (h : q.endsLike (a.postReport r)) (hdt : b.hdt = a.hdt)
    (rq : b.rq = a.rq) (scn : b.scn = a.scn) {stage store : List Tag} (hlk : a.hlk = b.hlk.withTags stage store)
    (config : a.config = b.config) : q.endsLike (b.postReport r) := by
  have rest (x : Part) : x.postReport r = { x with hlk := (x.postReport r).hlk } :=
    Part.postReport_of_same (p := x) (q := x) rfl rfl r
  refine h.of_same ?_ ?_ ?_ (Part.postReport_withTags hlk config r)
  · exact (congrArg Part.hdt (rest b)).trans (hdt.trans (congrArg Part.hdt (rest a)).symm)
  · exact (congrArg Part.rq (rest b)).trans (rq.trans (congrArg Part.rq (rest a)).symm)
  · exact (congrArg Part.scn (rest b)).trans (scn.trans (congrArg Part.scn (rest a)).symm)

/-- How an evaluation ends depends on the roster, the records, the repair queue, the scanner and the report path alone. -/
theorem Part.evaluatedTo_of_same {q a b : Part} {t : StripeId} {stage store : List Tag} (now : a.now = b.now)
    (config : a.config = b.config) (prs : a.prs = b.prs) (hdt : a.hdt = b.hdt) (rq : a.rq = b.rq) (scn : a.scn = b.scn)
    (wait : a.rqWait = b.rqWait) (hlk : a.hlk = b.hlk.withTags stage store) (h : a.evaluatedTo t q.endsLike) :
    b.evaluatedTo t q.endsLike := by
  obtain ⟨aNow, aConfig, aHlk, aPrs, aHdt, aScn, aRq, aWait, clt, ctx, plu, ftu, svu, cbe, vfu, smc, sgp⟩ := a
  dsimp only at now config prs hdt rq scn wait hlk
  subst now config prs hdt rq scn wait hlk
  intro r loss record lost
  obtain ⟨noLoss, few, many⟩ := h r loss record lost
  refine ⟨noLoss, few, fun more => ?_⟩
  obtain ⟨again, open_, full⟩ := many more
  refine ⟨again, fun path => ?_, full⟩
  obtain ⟨fresh, leaves⟩ := open_ path
  exact ⟨fun standing => (fresh standing).posted rfl rfl rfl (stage := stage) (store := store) rfl rfl,
    fun standing => (leaves standing).posted rfl rfl rfl (stage := stage) (store := store) rfl rfl⟩

end Sys2Proof.Machine

/-! STORED (R16, R17, R100 to R102). -/

namespace Sys2Proof.Machine

/-- An accepted command leads to what its effect shows, where the ring reader's own changes have no part in it. -/
theorem leads_of_accepted {i : Instr} {s : State} {q : Part} {body : Part → Except RefusalCode Part} {after : Part → Prop}
    (h : exec i s = run s fun p => p.takeCommand body) (taken : s.part.readerTakes = true) (accepted : body s.part = .ok q)
    (shown : ∀ k m, after { q with hlk := { q.hlk with commandConsume := k, statusMarked := m } }) : Leads i s after := by
  refine leads_of_run h ?_
  simp only [Part.takeCommand, if_pos taken, accepted]
  unfold Part.markStatus
  split
  · exact shown _ _
  · exact shown _ _

/-! ## Outcome DONE (R102) -/

/-- What outcome DONE leaves of its context, its claim entry and the report path, the frame it posts, and the evaluation that
follows it (R102). -/
structure Part.DoneBy (p q : Part) (c n : Nat) (x : Context) : Prop where
  free : q.context? c = none
  others : ∀ d, d ≠ c → q.context? d = p.context? d
  claims : q.clt = { entries := p.clt.entries.dropRow n, owned := p.clt.owned.filter (· != n) }
  tags : q.hlk.storeTags = p.hlk.storeTags
  frame : ∃ f ∈ q.sgp.control, f.target = none ∧ f.body = .withdraw x.stripe 0x01 0xFF
    (maskOf ((x.lostList.filter fun e => e.delivery == .delivered).map LostEntry.position))
  evaluated : Part.evaluatedTo { p with hdt := withStanding p.hdt x.stripe [] .quiet } x.stripe q.endsLike

/-- Outcome DONE up to the evaluation: the release, the frame, the claim entry and the standing (R102). -/
def Part.doneWritten (p : Part) (c : Nat) (x : Context) : Part :=
  Part.freeContext ((((p.releaseContext c).postWithdraw x.stripe .done 0xFF#8
    ((x.lostList.filter fun e => e.delivery == .delivered).map LostEntry.position)).removeClaimOf x.stripe).setStanding
      x.stripe [] .quiet) c

section
variable {p : Part} {c n : Nat} {x : Context} {claim : ClaimEntry} (inUse : p.context? c = some x)
  (noLanes : x.reservation = []) (noRequest : ∀ e ∈ x.lostList, e.delivery ≠ .requested) (rising : p.hdt.rising = true)
  (room : p.queueOpen)
include inUse noLanes noRequest rising room

theorem Part.doneWritten_eq : ∃ plu ftu svu vfu smc sgp, p.doneWritten c x =
    { p with
      plu := plu
      ftu := ftu
      svu := svu
      vfu := vfu
      smc := smc
      sgp := sgp
      hdt := withStanding p.hdt x.stripe [] .quiet
      clt := (p.removeClaimOf x.stripe).clt
      ctx := { p.ctx with contexts := (p.ctx.contexts.editRow c Context.released).dropRow c } }
    ∧ ∃ f ∈ sgp.control, f.target = none ∧ f.body = .withdraw x.stripe 0x01 0xFF
      (maskOf ((x.lostList.filter fun e => e.delivery == .delivered).map LostEntry.position)) := by
  have released := Part.releaseContext_releasedTo inUse
  have hlk := Part.hlk_releaseContext_noneRequested inUse noRequest
  unfold Part.doneWritten Part.postWithdraw
  generalize (x.lostList.filter fun e => e.delivery == .delivered).map LostEntry.position = delivered
  obtain ⟨q, q_eq⟩ : ∃ q, q = p.releaseContext c := ⟨_, rfl⟩
  rw [← q_eq] at released hlk ⊢
  obtain ⟨plu, ftu, svu, vfu, smc, rfl⟩ : ∃ plu ftu svu vfu smc, q =
      { p with
        plu := plu
        ftu := ftu
        svu := svu
        vfu := vfu
        smc := smc
        ctx := { p.ctx with contexts := p.ctx.contexts.editRow c Context.released } } := by
    have rest := released.rest
    have idle : ∀ lane ∈ x.reservation, p.laneUse? lane = none := by
      rw [noLanes]
      exact fun _ member => absurd member List.not_mem_nil
    rw [Part.lanesGiven_rest, hlk, Part.sgp_lanesGiven_idle idle] at rest
    exact ⟨_, _, _, _, _, rest⟩
  obtain ⟨q, q_eq⟩ : ∃ q : Part, q = { p with
      plu := plu
      ftu := ftu
      svu := svu
      vfu := vfu
      smc := smc
      ctx := { p.ctx with contexts := p.ctx.contexts.editRow c Context.released } } := ⟨_, rfl⟩
  rw [← q_eq]
  have posted := Part.post_eq q none (.withdraw x.stripe (WithdrawReason.done).code 0xFF#8 (maskOf delivered))
  have frame := Part.post_control (p := q) (b := .withdraw x.stripe (WithdrawReason.done).code 0xFF#8 (maskOf delivered))
    (by rw [q_eq]; exact room) rfl
  generalize q.post none (.withdraw x.stripe (WithdrawReason.done).code 0xFF#8 (maskOf delivered)) = a at posted frame
  have claims := Part.removeClaimOf_of_same (p := p) (q := a) (by rw [posted, q_eq]) x.stripe
  have written := (Part.setStanding_imaged (p := a) (r := a.removeClaimOf x.stripe) x.stripe [] .quiet
    (by rw [posted, q_eq]; exact rising) (by rw [claims]) (by rw [claims]) (by rw [claims])).same
  have rest := Part.updateStripe_rest (a.removeClaimOf x.stripe) x.stripe fun r => { r with lost := [], standing := .quiet }
  have table : ((a.removeClaimOf x.stripe).setStanding x.stripe [] .quiet).hdt = withStanding p.hdt x.stripe [] .quiet :=
    (congrArg Part.hdt written :).trans (by rw [posted, q_eq])
  refine ⟨plu, ftu, svu, vfu, ((a.removeClaimOf x.stripe).setStanding x.stripe [] .quiet).smc, a.sgp, ?_, frame⟩
  have whole : (a.removeClaimOf x.stripe).setStanding x.stripe [] .quiet = { a.removeClaimOf x.stripe with
      hdt := withStanding p.hdt x.stripe [] .quiet
      smc := ((a.removeClaimOf x.stripe).setStanding x.stripe [] .quiet).smc } := by
    rw [← table]
    exact rest
  rw [whole, claims]
  generalize ((a.removeClaimOf x.stripe).setStanding x.stripe [] .quiet).smc = smc
  rw [posted, q_eq]
  rfl

/-- Outcome DONE (R102). -/
theorem Part.completeDone_doneBy (entry : p.claimOf? x.stripe = some (n, claim)) (running : p.hlk.phase = .running) :
    p.DoneBy (p.completeDone c) c n x := by
  have meaning : p.completeDone c = (p.doneWritten c x).evaluateOrSweep x.stripe := by
    simp only [Part.completeDone, inUse]
    rfl
  obtain ⟨plu, ftu, svu, vfu, smc, sgp, written, frame⟩ := Part.doneWritten_eq inUse noLanes noRequest rising room
  rw [meaning]
  generalize p.doneWritten c x = b at written
  have hdt : b.hdt = withStanding p.hdt x.stripe [] .quiet := (congrArg Part.hdt written :)
  have quiet : ∀ r, b.firstRecord? x.stripe = some r → r.standing = .quiet := by
    intro r record
    have first := p.firstRecord?_changed (withStanding p.hdt x.stripe [] .quiet) rfl (t := x.stripe) (f := fun r => { r with lost := [], standing := .quiet })
      fun _ => rfl
    have same : b.firstRecord? x.stripe = Part.firstRecord? { p with hdt := withStanding p.hdt x.stripe [] .quiet } x.stripe :=
      (congrArg (fun q : Part => q.firstRecord? x.stripe) written :)
    rw [same, first] at record
    obtain ⟨r0, -, rfl⟩ := Option.map_eq_some_iff.1 record
    rfl
  have running' : b.hlk.phase = .running := (congrArg (fun q : Part => q.hlk.phase) written :).trans running
  have evaluated := (Part.ImagedBase.of_self b).evaluates (t := x.stripe) running' (by rw [hdt]; exact rising_changeStripe _ _ rising)
    (ends := (b.evaluateOrSweep x.stripe).endsLike) fun r imaged =>
      ⟨(congrArg Part.hdt imaged.same :), (congrArg Part.rq imaged.same :), (congrArg Part.scn imaged.same :),
        (congrArg (fun q : Part => q.hlk.reportQueue) imaged.same :), (congrArg (fun q : Part => q.hlk.hostMemory) imaged.same :)⟩
  obtain ⟨hdt', smc', rq, scn, hlk, rest, tags⟩ := Part.evaluateOrSweep_quiet running' quiet
  have hlk_eq : b.hlk = p.hlk := (congrArg Part.hlk written :)
  have contexts (d : Nat) : (b.evaluateOrSweep x.stripe).context? d = if d = c then none else p.context? d := by
    rw [rest, written]
    refine (Table.row?_dropRow _ _ _).trans ?_
    split
    · rfl
    · exact Part.context?_editContext_other p (by assumption) Context.released
  refine ⟨?_, fun d other => ?_, ?_, ?_, ?_, ?_⟩
  · rw [contexts, if_pos rfl]
  · rw [contexts, if_neg other]
  · rw [rest, written]
    exact Part.removeClaimOf_clt entry
  · rw [rest]
    exact tags.trans (congrArg HostLink.storeTags hlk_eq)
  · rw [rest, written]
    exact frame
  · refine Part.evaluatedTo_of_same (a := b) (stage := p.hlk.stageTags) (store := p.hlk.storeTags) ?_ ?_ ?_ ?_ ?_ ?_ ?_ ?_
      evaluated
    all_goals rw [written]
    rfl

end

end Sys2Proof.Machine

/-! STORED settled (R16, R17, R100 to R102). -/

namespace Sys2Proof.Machine

/-! ## The end of delivery (R100) -/

theorem Context.all_answered (x : Context) (position : Nat) (d : Delivery) (ok : Delivery → Bool) :
    ((x.answered position d).enabled.all fun e => ok e.delivery) = true ↔
      ∀ f ∈ x.lostList, f.enabled = true → ok (if f.position = position then d else f.delivery) = true := by
  have delivery (f : LostEntry) : (if f.position = position then { f with delivery := d } else f).delivery =
      if f.position = position then d else f.delivery := by
    split <;> rfl
  have enabled (f : LostEntry) : (if f.position = position then { f with delivery := d } else f).enabled = f.enabled := by
    split <;> rfl
  simp only [Context.enabled, Context.answered, List.all_eq_true, List.mem_filter, List.mem_map]
  constructor
  · intro all f member on
    rw [← delivery]
    exact all _ ⟨⟨f, member, rfl⟩, (enabled f).trans on⟩
  · rintro all _ ⟨⟨f, member, rfl⟩, on⟩
    rw [delivery]
    exact all f member ((enabled f).symm.trans on)

section
variable {q : Part} {c position : Nat} {x : Context} {d : Delivery} (inUse : q.context? c = some (x.answered position d))
include inUse

theorem Part.checkDelivered_eq : q.checkDelivered c =
    if (x.answered position d).enabled.all fun e => e.delivery == .delivered || e.delivery == .failed then
      if (x.answered position d).enabled.all fun e => e.delivery == .delivered then q.completeDone c
      else q.abandon c .storeFailed
    else q := by
  simp only [Part.checkDelivered, inUse]

theorem Part.checkDelivered_waits {f : LostEntry} (member : f ∈ x.lostList) (on : f.enabled = true)
    (other : f.position ≠ position) (open_ : f.delivery = .none_ ∨ f.delivery = .requested) : q.checkDelivered c = q := by
  rw [Part.checkDelivered_eq inUse, if_neg]
  rw [Context.all_answered x position d fun d => d == .delivered || d == .failed]
  intro all
  have answered := all f member on
  rw [if_neg other] at answered
  rcases open_ with open_ | open_ <;> rw [open_] at answered <;> cases answered

theorem Part.checkDelivered_done (delivered : d = .delivered)
    (all : ∀ f ∈ x.lostList, f.position ≠ position → f.enabled = true → f.delivery = .delivered) :
    q.checkDelivered c = q.completeDone c := by
  have each (ok : Delivery → Bool) (fine : ok .delivered = true) :
      ((x.answered position d).enabled.all fun e => ok e.delivery) = true := by
    refine (Context.all_answered x position d ok).2 fun f member on => ?_
    split
    · rw [delivered]
      exact fine
    next other =>
      rw [all f member other on]
      exact fine
  rw [Part.checkDelivered_eq inUse, if_pos (each (fun d => d == .delivered || d == .failed) rfl),
    if_pos (each (fun d => d == .delivered) rfl)]

theorem Part.checkDelivered_failed (answered : d = .delivered ∨ d = .failed)
    (all : ∀ f ∈ x.lostList, f.position ≠ position → f.enabled = true → f.delivery = .delivered ∨ f.delivery = .failed)
    (failed : ∃ f ∈ x.lostList, f.enabled = true ∧ (if f.position = position then d else f.delivery) = .failed) :
    q.checkDelivered c = q.abandon c .storeFailed := by
  have ended : ((x.answered position d).enabled.all fun e => e.delivery == .delivered || e.delivery == .failed) = true := by
    refine (Context.all_answered x position d fun d => d == .delivered || d == .failed).2 fun f member on => ?_
    split
    · simpa using answered
    next other => simpa using all f member other on
  have notAll : ¬ ((x.answered position d).enabled.all fun e => e.delivery == .delivered) = true := by
    rw [Context.all_answered x position d fun d => d == .delivered]
    intro every
    obtain ⟨f, member, on, fails⟩ := failed
    have wrong := every f member on
    rw [fails] at wrong
    cases wrong
  rw [Part.checkDelivered_eq inUse, if_pos ended, if_neg notAll]

end

/-! ## A part with a STORED taken -/

section
variable {p posted q : Part} {tag : Tag} {c n : Nat} {x : Context} {claim : ClaimEntry} {e : LostEntry} {d : Delivery}
  {table : Table HoldingRecord}
  (stored : q.setDram p.smc.dram = p.storeAnswered posted tag c e.position d table) (inUse : p.context? c = some x)
include stored

omit inUse in
theorem Part.stored_of_same {α : Type} (g : Part → α) (beside : ∀ (y : Part) m, g (y.setDram m) = g y) :
    g q = g (p.storeAnswered posted tag c e.position d table) :=
  (beside q _).symm.trans (congrArg g stored)

include inUse in
theorem Part.stored_context : q.context? c = some (x.answered e.position d) :=
  (Part.stored_of_same stored (fun y => y.context? c) fun _ _ => rfl).trans
    (Part.context?_editContext inUse (Context.answered e.position d))

theorem Part.stored_others {j : Nat} (other : j ≠ c) : q.context? j = p.context? j :=
  (Part.stored_of_same stored (fun y => y.context? j) fun _ _ => rfl).trans
    (Part.context?_editContext_other p other (Context.answered e.position d))

end

theorem Part.tag_not_stored (p posted : Part) (tag : Tag) (c position : Nat) (d : Delivery) (table : Table HoldingRecord) :
    tag ∉ (p.storeAnswered posted tag c position d table).hlk.storeTags := by
  intro member
  have kept : tag ∈ p.hlk.storeTags.filter (· != tag) := member
  simp at kept

section
variable {p posted q : Part} {tag : Tag} {c n : Nat} {x : Context} {claim : ClaimEntry} {e : LostEntry} {d : Delivery}
  {table : Table HoldingRecord} (inUse : p.context? c = some x) (entry : p.claimOf? x.stripe = some (n, claim))
  (noLanes : x.reservation = []) (room : p.queueOpen) (rising : Table.rising table = true)
include inUse entry noLanes room rising

/-- The last answer with every position DELIVERED (R100, R102). -/
theorem Part.stored_done
    (stored : q.setDram p.smc.dram = p.storeAnswered posted tag c e.position .delivered table)
    (running : p.hlk.phase = .running) (posts : posted = { p with hlk := posted.hlk })
    (phase : posted.hlk.phase = p.hlk.phase) (member : e ∈ x.lostList) (on : e.enabled = true)
    (all : ∀ f ∈ x.lostList, f.position ≠ e.position →
      (f.enabled = true ∧ f.delivery = .delivered) ∨ (f.enabled = false ∧ f.delivery = .none_)) :
    (q.checkDelivered c).context? c = none ∧ (∀ j, j ≠ c → (q.checkDelivered c).context? j = p.context? j)
      ∧ (q.checkDelivered c).clt = { entries := p.clt.entries.dropRow n, owned := p.clt.owned.filter (· != n) }
      ∧ tag ∉ (q.checkDelivered c).hlk.storeTags
      ∧ (∃ f ∈ (q.checkDelivered c).sgp.control, f.target = none ∧ f.body = .withdraw x.stripe 0x01 0xFF
        (maskOf ((x.lostList.filter LostEntry.enabled).map LostEntry.position)))
      ∧ Part.evaluatedTo { posted with hdt := withStanding table x.stripe [] .quiet } x.stripe
        (q.checkDelivered c).endsLike := by
  have same {α : Type} (g : Part → α) (beside : ∀ (y : Part) m, g (y.setDram m) = g y) := Part.stored_of_same stored g beside
  have inUse' : q.context? c = some (x.answered e.position .delivered) := Part.stored_context stored inUse
  have hdt : q.hdt = table := same Part.hdt fun _ _ => rfl
  have ends : q.checkDelivered c = q.completeDone c := Part.checkDelivered_done inUse' rfl fun f there other enabled => by
    rcases all f there other with ⟨-, delivered⟩ | ⟨off, -⟩
    · exact delivered
    · cases enabled.symm.trans off
  have answered {f : LostEntry} (there : f ∈ (x.answered e.position .delivered).lostList) :
      f.delivery = .delivered ∧ f.position ∈ ((x.lostList.filter LostEntry.enabled).map LostEntry.position)
        ∨ f.delivery = .none_ ∧ f.enabled = false := by
    obtain ⟨g, among, rfl⟩ := List.mem_map.1 there
    by_cases here : g.position = e.position
    · rw [if_pos here]
      exact .inl ⟨rfl, List.mem_map.2 ⟨e, List.mem_filter.2 ⟨member, on⟩, here.symm⟩⟩
    · rw [if_neg here]
      refine (all g among here).imp (fun ⟨on, delivered⟩ => ⟨delivered, ?_⟩) fun ⟨off, none_⟩ => ⟨none_, off⟩
      exact List.mem_map.2 ⟨g, List.mem_filter.2 ⟨among, on⟩, rfl⟩
  have noRequest : ∀ f ∈ (x.answered e.position .delivered).lostList, f.delivery ≠ .requested := by
    intro f there
    rcases answered there with ⟨delivery, -⟩ | ⟨delivery, -⟩ <;> rw [delivery] <;> exact nofun
  have done : q.DoneBy (q.completeDone c) c n (x.answered e.position .delivered) :=
    Part.completeDone_doneBy (claim := claim) inUse' noLanes noRequest (by rw [hdt]; exact rising)
      (by rw [Part.queueOpen, Part.controlPlace, same Part.sgp fun _ _ => rfl]; exact room)
      ((same (fun y => y.claimOf? x.stripe) fun _ _ => rfl).trans entry)
      ((same (fun y => y.hlk.phase) fun _ _ => rfl).trans (phase.trans running))
  rw [ends]
  refine ⟨done.free, fun j other => (done.others j other).trans (Part.stored_others stored other), ?_, ?_, ?_, ?_⟩
  · rw [done.claims, same Part.clt fun _ _ => rfl]
    rfl
  · rw [done.tags, same (fun y => y.hlk.storeTags) fun _ _ => rfl]
    exact p.tag_not_stored posted tag c e.position .delivered table
  · obtain ⟨f, there, target, body⟩ := done.frame
    refine ⟨f, there, target, body.trans (congrArg (FrameBody.withdraw x.stripe 0x01 0xFF) (maskOf_congr fun i => ?_))⟩
    constructor
    · intro listed
      obtain ⟨g, passed, rfl⟩ := List.mem_map.1 listed
      obtain ⟨there, delivered⟩ := List.mem_filter.1 passed
      rcases answered there with ⟨-, position⟩ | ⟨none_, -⟩
      · exact position
      · rw [none_] at delivered
        cases delivered
    · intro listed
      obtain ⟨g, passed, rfl⟩ := List.mem_map.1 listed
      obtain ⟨there, enabled⟩ := List.mem_filter.1 passed
      refine List.mem_map.2 ⟨if g.position = e.position then { g with delivery := .delivered } else g,
        List.mem_filter.2 ⟨List.mem_map.2 ⟨g, there, rfl⟩, ?_⟩, ?_⟩
      · split
        · rfl
        next other =>
          rcases all g there other with ⟨-, delivered⟩ | ⟨off, -⟩
          · rw [delivered]
            rfl
          · cases enabled.symm.trans off
      · split <;> rfl
  · refine Part.evaluatedTo_of_same (a := { q with hdt := withStanding q.hdt x.stripe [] .quiet }) ?_ ?_ ?_ ?_ ?_ ?_ ?_
      (same Part.hlk fun _ _ => rfl) done.evaluated
    · exact (same Part.now fun _ _ => rfl).trans (congrArg Part.now posts).symm
    · exact (same Part.config fun _ _ => rfl).trans (congrArg Part.config posts).symm
    · exact (same Part.prs fun _ _ => rfl).trans (congrArg Part.prs posts).symm
    · exact congrArg (fun table => withStanding table x.stripe [] .quiet) hdt
    · exact (same Part.rq fun _ _ => rfl).trans (congrArg Part.rq posts).symm
    · exact (same Part.scn fun _ _ => rfl).trans (congrArg Part.scn posts).symm
    · exact (same Part.rqWait fun _ _ => rfl).trans (congrArg Part.rqWait posts).symm

omit entry in
/-- The last answer with a position FAILED (R100, R102). -/
theorem Part.stored_abandons (entries : p.claimOf? x.stripe = some (n, claim))
    (stored : q.setDram p.smc.dram = p.storeAnswered p tag c e.position d table) (path : p.reportPathFull = false)
    (answered : d = .delivered ∨ d = .failed)
    (all : ∀ f ∈ x.lostList, f.position ≠ e.position → f.enabled = true → f.delivery = .delivered ∨ f.delivery = .failed)
    (failed : ∃ f ∈ x.lostList, f.enabled = true ∧ (if f.position = e.position then d else f.delivery) = .failed) :
    (q.checkDelivered c).context? c = none
      ∧ (q.checkDelivered c).clt = { entries := p.clt.entries.dropRow n, owned := p.clt.owned.filter (· != n) }
      ∧ (q.checkDelivered c).hdt = withStanding table x.stripe [] .quiet
      ∧ tag ∉ (q.checkDelivered c).hlk.storeTags
      ∧ p.reported (q.checkDelivered c) (.repairAbandoned .storeFailed x.stripe)
      ∧ ∃ f ∈ (q.checkDelivered c).sgp.control, f.target = none ∧ f.body = .withdraw x.stripe 0x03 0xFF 0 := by
  have same {α : Type} (g : Part → α) (beside : ∀ (y : Part) m, g (y.setDram m) = g y) := Part.stored_of_same stored g beside
  have inUse' : q.context? c = some (x.answered e.position d) := Part.stored_context stored inUse
  have hdt : q.hdt = table := same Part.hdt fun _ _ => rfl
  have hlk : q.hlk = p.hlk.withTags (p.hlk.stageTags.filter (· != tag)) (p.hlk.storeTags.filter (· != tag)) :=
    same Part.hlk fun _ _ => rfl
  have sgp : q.sgp = p.sgp := same Part.sgp fun _ _ => rfl
  have tags : p.hlk.sameButTags q.hlk := by
    rw [hlk]
    exact ⟨rfl, rfl⟩
  have rising' : q.hdt.rising = true := by rw [hdt]; exact rising
  rw [Part.checkDelivered_failed inUse' answered all failed]
  obtain ⟨-, -, -, open_, -⟩ := Part.abandon_abandoned (p := { p with hdt := table }) (x := x) inUse' rfl rfl
    (fun j other => Part.stored_others stored other) (same (fun y => y.generation c) fun _ _ => rfl) hdt
    (same Part.clt fun _ _ => rfl) tags
    (fun wide => by
      rw [noLanes] at wide ⊢
      rw [Part.roomFor, sgp]
      exact ⟨wide.1, Nat.le_of_succ_le wide.2⟩) rising .storeFailed
  obtain ⟨gone, records, claims, reported, -⟩ := open_ path
  refine ⟨gone, claims n claim entries, records, fun member => ?_, reported, ?_⟩
  · have kept := Part.storeTags_abandon inUse' rising' .storeFailed member
    rw [same (fun y => y.hlk.storeTags) fun _ _ => rfl] at kept
    exact p.tag_not_stored p tag c e.position d table kept
  · refine Part.abandon_control inUse' (tags.reportPath.1.trans path) ?_ rising' .storeFailed
    have idle : ∀ lane ∈ (x.answered e.position d).reservation, q.laneUse? lane = none := by
      rw [show (x.answered e.position d).reservation = [] from noLanes]
      exact fun _ member => absurd member List.not_mem_nil
    rw [Part.queueOpen, Part.controlPlace, Part.sgp_lanesGiven_idle idle, sgp]
    exact room

end

/-! ## The command (R100, R164) -/

theorem Part.deliveryOf?_member {p : Part} {tag : Tag} {c : Nat} {x : Context} {e : LostEntry}
    (delivery : p.deliveryOf? tag = some (c, x, e)) : e ∈ x.lostList := by
  obtain ⟨r, -, found⟩ := List.exists_of_findSome?_eq_some delivery
  split at found
  · obtain ⟨f, first, shown⟩ := Option.map_eq_some_iff.1 found
    cases shown
    exact List.mem_of_find?_eq_some first
  · cases found

theorem Part.deliveredInto.rising {p posted : Part} {x : Context} {e : LostEntry} {table : Table HoldingRecord}
    (into : p.deliveredInto posted x e table) (rising : p.hdt.rising = true) : Table.rising table = true := by
  rcases into with ⟨⟨-, rfl⟩ | ⟨r0, n, -, -, -, rfl⟩, -⟩ | ⟨-, -, -, rfl, -⟩
  · exact rising_changeStripe _ _ rising
  · exact Table.rising_setRow _ _ (rising_changeStripe _ _ rising)
  · exact rising_changeStripe _ _ rising

theorem Part.deliveredInto.posts {p posted : Part} {x : Context} {e : LostEntry} {table : Table HoldingRecord}
    (into : p.deliveredInto posted x e table) : posted = { p with hlk := posted.hlk } ∧ p.hlk.sameRing posted.hlk
      ∧ posted.hlk.phase = p.hlk.phase := by
  rcases into with ⟨-, rfl⟩ | ⟨-, -, -, -, rfl⟩
  · exact ⟨rfl, ⟨rfl, rfl⟩, rfl⟩
  · refine ⟨Part.postReport_of_same (p := p) (q := p) rfl rfl _, Part.postReport_sameRing _ _, ?_⟩
    rw [Part.postReport_eq]
    split
    · rfl
    · split <;> rfl

section
variable {p posted : Part} {tag : Tag} {c : Nat} {x : Context} {e : LostEntry} {table : Table HoldingRecord}
  (w : List Instr) (taken : p.readerTakes = true) (running : p.hlk.phase = .running) (outstanding : tag ∈ p.hlk.storeTags)
  (delivery : p.deliveryOf? tag = some (c, x, e))

/-- The part in which a fragment that the host has stored is DELIVERED, up to the end of its delivery. -/
def Part.storeDelivered (p : Part) (tag : Tag) (c : Nat) (x : Context) (e : LostEntry) : Part :=
  (((p.endTag tag).setDelivery c e.position .delivered).setPlacement x.stripe e.position p.own).autoInsert x e.position
    e.digest

include taken running outstanding delivery

theorem stored_leads {after : Part → Prop} (shown : after ((p.storeDelivered tag c x e).checkDelivered c))
    (beside : ∀ (q : Part) k m, after q → after { q with hlk := { q.hlk with commandConsume := k, statusMarked := m } }) :
    Leads (.stored tag 0x01) ⟨w, p⟩ after :=
  leads_of_accepted (s := ⟨w, p⟩) rfl taken
    ((Part.whileRunning_running running _).trans (Part.answerStore_delivered outstanding delivery))
    fun k m => beside _ k m shown

theorem stored_waits (into : p.deliveredInto posted x e table) (rising : p.hdt.rising = true)
    (inUse : p.context? c = some x) {f : LostEntry} (member : f ∈ x.lostList) (on : f.enabled = true)
    (other : f.position ≠ e.position) (open_ : f.delivery = .none_ ∨ f.delivery = .requested) :
    AnswersWithImages (.stored tag 0x01) ⟨w, p⟩ (p.storeAnswered posted tag c e.position .delivered table).consumed := by
  have imaged := Part.autoInsert_imaged into rising tag c
  refine answersWithImages_of_imaged (s := ⟨w, p⟩) rfl taken ?_ imaged into.posts.2.1
  refine (Part.whileRunning_running running _).trans ((Part.answerStore_delivered outstanding delivery).trans ?_)
  exact congrArg _ (Part.checkDelivered_waits (Part.stored_context imaged.same inUse) member on other open_)

end

/-- Settles O16. -/
theorem storedFragmentsAreTaken : Obligations.StoredFragmentsAreTaken := by
  have whole : ∀ (w : List Instr) (p posted : Part) (tag : Tag) (c n : Nat) (x : Context) (e : LostEntry)
      (claim : ClaimEntry) (table : Table HoldingRecord), p.readerTakes = true → p.hlk.phase = .running →
      tag ∈ p.hlk.storeTags → p.deliveryOf? tag = some (c, x, e) → p.context? c = some x →
      p.claimOf? x.stripe = some (n, claim) → x.reservation = [] → e.enabled = true → p.hdt.rising = true →
      p.queueOpen → p.deliveredInto posted x e table →
      (∀ f ∈ x.lostList, f.position ≠ e.position →
        (f.enabled = true ∧ f.delivery = .delivered) ∨ (f.enabled = false ∧ f.delivery = .none_)) →
      Leads (.stored tag 0x01) ⟨w, p⟩ fun q =>
        q.context? c = none ∧ (∀ d, d ≠ c → q.context? d = p.context? d)
          ∧ q.clt = { entries := p.clt.entries.dropRow n, owned := p.clt.owned.filter (· != n) }
          ∧ tag ∉ q.hlk.storeTags
          ∧ (∃ f ∈ q.sgp.control, f.target = none ∧ f.body = .withdraw x.stripe 0x01 0xFF
            (maskOf ((x.lostList.filter LostEntry.enabled).map LostEntry.position)))
          ∧ Part.evaluatedTo { posted with hdt := withStanding table x.stripe [] .quiet } x.stripe q.endsLike := by
    intro w p posted tag c n x e claim table taken running outstanding delivery inUse entry noLanes on rising room into all
    obtain ⟨posts, -, phase⟩ := into.posts
    exact stored_leads w taken running outstanding delivery
      (Part.stored_done inUse entry noLanes room (into.rising rising) (Part.autoInsert_imaged into rising tag c).same
        running posts phase (Part.deliveryOf?_member delivery) on all) fun _ _ _ h => h
  refine ⟨fun w p tag c x e f taken running outstanding delivery inUse member on other open_ rising =>
      ⟨fun held => ?_, fun r0 position new record place => ?_, fun r0 new record full => ?_, ?_⟩,
    fun w p tag c n x e claim taken running outstanding delivery inUse entry noLanes all on held rising room => ?_,
    fun w p posted tag c n x e claim table taken running outstanding delivery inUse entry noLanes on rising room into =>
      ⟨fun all => whole w p posted tag c n x e claim table taken running outstanding delivery inUse entry noLanes on
        rising room into all, fun still all failed => ?_⟩,
    fun w p tag c n x e claim taken running outstanding delivery inUse entry noLanes all on rising room => ?_⟩
  · exact stored_waits (posted := p) w taken running outstanding delivery (.inl ⟨.inl ⟨held, rfl⟩, rfl⟩) rising inUse member on
      other open_
  · exact stored_waits (posted := p) w taken running outstanding delivery
      (.inl ⟨.inr ⟨r0, position, new, record, place, rfl⟩, rfl⟩) rising inUse member on other open_
  · have waits := stored_waits w taken running outstanding delivery (.inr ⟨new, full, ⟨r0, record⟩, rfl, rfl⟩) rising inUse
      member on other open_
    have posted := Part.postReport_withTags (p := p)
      (q := p.storeAnswered p tag c e.position .delivered (p.placedHere x e)) rfl rfl (.holdingsFull x.stripe e.position)
    have shown : Part.postReport (p.storeAnswered p tag c e.position .delivered (p.placedHere x e))
        (.holdingsFull x.stripe e.position) = p.storeAnswered (p.postReport (.holdingsFull x.stripe e.position)) tag c
          e.position .delivered (p.placedHere x e) := by
      rw [Part.postReport_of_same (p := p.storeAnswered p tag c e.position .delivered (p.placedHere x e)) rfl rfl, posted]
      rfl
    rw [← shown] at waits
    exact waits
  · have context : ((p.endTag tag).setDelivery c e.position .failed).context? c = some (x.answered e.position .failed) :=
      Part.context?_editContext inUse (Context.answered e.position .failed)
    refine answers_of_accepted (s := ⟨w, p⟩) (q := (p.endTag tag).setDelivery c e.position .failed) rfl taken
      ((Part.whileRunning_running running _).trans ((Part.answerStore_failed outstanding delivery).trans ?_)) ⟨rfl, rfl⟩
    exact congrArg _ (Part.checkDelivered_waits context member on other open_)
  · obtain ⟨t, next, pending, gone, -, claims, tags, ⟨f, there, target, body⟩, -⟩ := whole w p p tag c n x e claim
      (p.placedHere x e) taken running outstanding delivery inUse entry noLanes on rising room (.inl ⟨.inl ⟨held, rfl⟩, rfl⟩)
      fun f member other => .inl (all f member other)
    refine ⟨t, next, pending, gone, claims, tags, f, there, target, body.trans
      (congrArg (FrameBody.withdraw x.stripe 0x01 0xFF) (maskOf_congr fun i => ?_))⟩
    constructor
    · intro listed
      obtain ⟨g, passed, rfl⟩ := List.mem_map.1 listed
      exact List.mem_map.2 ⟨g, (List.mem_filter.1 passed).1, rfl⟩
    · intro listed
      obtain ⟨g, there, rfl⟩ := List.mem_map.1 listed
      by_cases here : g.position = e.position
      · exact List.mem_map.2 ⟨e, List.mem_filter.2 ⟨Part.deliveryOf?_member delivery, on⟩, here.symm⟩
      · exact List.mem_map.2 ⟨g, List.mem_filter.2 ⟨there, (all g there here).1⟩, rfl⟩
  · have into : p.deliveredInto posted x e table := into
    subst still
    obtain ⟨g, member, other, enabled, fails⟩ := failed
    exact stored_leads w taken running outstanding delivery
      (Part.stored_abandons inUse noLanes room (into.rising rising) entry (Part.autoInsert_imaged into rising tag c).same
        (Part.reportPath_open taken) (.inl rfl) all ⟨g, member, enabled, by rw [if_neg other]; exact fails⟩) fun _ _ _ h => h
  · have ends := Part.stored_abandons (q := (p.endTag tag).setDelivery c e.position .failed) (tag := tag) (e := e)
      (d := .failed) (table := p.hdt) inUse noLanes room rising entry rfl (Part.reportPath_open taken) (.inr rfl) all
      ⟨e, Part.deliveryOf?_member delivery, on, if_pos rfl⟩
    exact leads_of_accepted (s := ⟨w, p⟩) rfl taken
      ((Part.whileRunning_running running _).trans (Part.answerStore_failed outstanding delivery)) fun _ _ => ends

end Sys2Proof.Machine

/-! LOAD: the record inserted, and its stripe joined (R9, R11, R12). -/

namespace Sys2Proof.Machine

/-! ## A record that is new in the table -/

section
variable {t : StripeId} {f : HoldingRecord → HoldingRecord}

theorem changeStripe_setRow (hdt : Table HoldingRecord) (n : Nat) {record : HoldingRecord} (stripe : record.stripe = t) :
    List.map (changeStripe t f) (hdt.setRow n record) = Table.setRow (hdt.map (changeStripe t f)) n (f record) := by
  have new : changeStripe t f (n, record) = (n, f record) := if_pos stripe
  induction hdt with
  | nil => simp [Table.setRow, new]
  | cons r rest ih =>
    obtain ⟨i, y⟩ := r
    obtain ⟨z, changed⟩ : ∃ z, changeStripe t f (i, y) = (i, z) :=
      ⟨(changeStripe t f (i, y)).2, Prod.ext (changeStripe_number t f (i, y)) rfl⟩
    rcases Nat.lt_trichotomy n i with less | rfl | more
    · simp [Table.setRow, less, new, changed]
    · simp [Table.setRow, new, changed]
    · simp [Table.setRow, Nat.not_lt.2 (Nat.le_of_lt more), Nat.ne_of_lt more, changed, ih]

end

/-- The first record that meets a test, where a record has been inserted: the new one, or the one before. -/
theorem Table.findRow?_setRow {α : Type} {table : Table α} {n : Nat} (free : table.row? n = none) {a : α} {test : α → Bool}
    {first : Nat × α} (found : table.findRow? test = some first) :
    ∃ r, (table.setRow n a).findRow? test = some r ∧ (r = (n, a) ∨ r = first) := by
  induction table with
  | nil => cases found
  | cons r rest ih =>
    obtain ⟨i, y⟩ := r
    rcases Nat.lt_trichotomy n i with less | rfl | more
    · have inserted : Table.setRow ((i, y) :: rest) n a = (n, a) :: (i, y) :: rest := by simp [Table.setRow, less]
      rw [inserted, Table.findRow?, List.find?_cons]
      cases test a
      · exact ⟨first, found, .inr rfl⟩
      · exact ⟨_, rfl, .inl rfl⟩
    · simp [Table.row?] at free
    · have inserted : Table.setRow ((i, y) :: rest) n a = (i, y) :: Table.setRow rest n a := by
        simp [Table.setRow, Nat.not_lt.2 (Nat.le_of_lt more), Nat.ne_of_lt more]
      rw [inserted, Table.findRow?, List.find?_cons]
      rw [Table.findRow?, List.find?_cons] at found
      dsimp only at found ⊢
      cases met : test y
      · rw [met] at found
        have free : Table.row? rest n = none := by simpa [Table.row?, Nat.ne_of_lt more] using free
        exact ih free found
      · rw [met] at found
        exact ⟨_, rfl, .inr (Option.some.inj found)⟩

/-- Every record of a stripe has the same placement, and there is one: that is the stripe's (R8). -/
theorem Part.placementOf_of_all {p : Part} {t : StripeId} {placement : List Nat}
    (all : ∀ r ∈ p.hdt, r.2.stripe = t → r.2.placement = placement) (some_ : ∃ r ∈ p.hdt, r.2.stripe = t) :
    p.placementOf t = placement := by
  unfold Part.placementOf Part.firstRecord?
  cases found : p.hdt.findRow? fun r => r.stripe == t with
  | none =>
    obtain ⟨r, member, stripe⟩ := some_
    have other := List.find?_eq_none.1 found r member
    simp [stripe] at other
  | some r =>
    have member : r ∈ p.hdt := List.mem_of_find?_eq_some found
    have stripe : r.2.stripe = t := beq_iff_eq.1 (List.find?_some (p := fun r : Nat × HoldingRecord => r.2.stripe == t) found)
    exact all r member stripe

theorem Table.mem_setRow_self {α : Type} (table : Table α) (n : Nat) (a : α) : (n, a) ∈ table.setRow n a :=
  Table.row?_mem (Table.row?_setRow_self table n a)

/-! ## The DOWN racks of a placement (R12, R52) -/

theorem Part.addDownRacksOf_eq (p : Part) (placement : List Nat) : ∃ racks : List Nat, p.addDownRacksOf placement =
    { p with scn := { p.scn with pending := addRacks p.scn.pending racks } }
      ∧ ∀ rack, rack ∈ racks ↔ p.downRackOf placement rack := by
  refine ⟨_, Part.foldl_addPending p _, fun rack => ?_⟩
  have down (station : Nat) : p.stationDown station = true
      ↔ ∃ q, p.peer? station = some q ∧ p.rackState q.rack = .down := by
    unfold Part.stationDown
    cases p.peer? station <;> simp
  simp only [List.mem_filterMap, List.mem_filter, Option.map_eq_some_iff, Part.downRackOf, down]
  constructor
  · rintro ⟨station, ⟨member, q, peer, down⟩, q', peer', rfl⟩
    obtain rfl := Option.some.inj (peer.symm.trans peer')
    exact ⟨station, member, q, peer, rfl, down⟩
  · rintro ⟨station, member, q, peer, rfl, down⟩
    exact ⟨station, ⟨member, q, peer, down⟩, q, peer, rfl⟩

/-- The DOWN racks of a stripe's placement become pending, whatever else has been done (R12, R52). -/
theorem Part.Imaged.addDownRacksOf {p q r : Part} {t : StripeId} {placement : List Nat} (imaged : p.Imaged q r)
    (placed : r.placementOf t = placement) (prs : r.prs = p.prs) (pending : r.scn.pending = p.scn.pending) :
    ∃ pending, pendingWith p.scn.pending pending (p.downRackOf placement)
      ∧ p.Imaged (q.addDownRacksOf (q.placementOf t)) { r with scn := { r.scn with pending := pending } } := by
  have placed' : q.placementOf t = placement := (congrArg (fun q : Part => q.placementOf t) imaged.same :).trans placed
  have prs' : q.prs = p.prs := (congrArg Part.prs imaged.same :).trans prs
  have scn : q.scn = r.scn := (congrArg Part.scn imaged.same :)
  obtain ⟨racks, added, down⟩ := Part.addDownRacksOf_eq q placement
  have sameRacks (rack : Nat) : rack ∈ racks ↔ p.downRackOf placement rack := by
    rw [down, Part.downRackOf, Part.downRackOf]
    unfold Part.peer? Part.rackState
    rw [prs']
  refine ⟨addRacks p.scn.pending racks, fun rack => ⟨fun listed => ?_, fun other => ?_⟩, ?_⟩
  · rw [addRacks_row?, if_pos ((sameRacks rack).2 listed)]
  · rw [addRacks_row?, if_neg fun listed => other ((sameRacks rack).1 listed)]
  · have adds : BesideRecords fun x : Part => { x with scn := { x.scn with pending := addRacks p.scn.pending racks } } :=
      fun _ => ⟨fun _ => rfl, rfl, rfl⟩
    rw [placed', added, scn, pending]
    have after := imaged.then adds
    rw [scn] at after
    exact after

/-! ## The record of a LOAD (R11, R12) -/

/-- The record of a LOAD that joins its stripe (R12). -/
def LoadRecord.joining (l : LoadRecord) (width own : Nat) (old : HoldingRecord) : HoldingRecord :=
  { LoadRecord.firstRecord l width with
    placement := old.placement.set l.ownIndex.toNat own
    standing := old.standing
    lost := old.lost
    outside := old.outside }

/-- The part with the record of a LOAD inserted at a position, and its stripe's placement showing this station in the entry
of the record (R12). -/
def Part.joinedAt (p : Part) (l : LoadRecord) (width position : Nat) (old : HoldingRecord) : Part :=
  { p with
    hdt := Table.setRow (p.hdt.map (changeStripe l.stripe fun r =>
      { r with placement := r.placement.set l.ownIndex.toNat p.own })) position (LoadRecord.joining l width p.own old) }

section
variable {p : Part} {l : LoadRecord} {width position : Nat} {old : HoldingRecord} (rising : p.hdt.rising = true)
  (place : p.hdt.lowestFree? 131072 = some position)
include rising place

theorem Part.insertRecord?_imaged (record : HoldingRecord) : ∃ q, p.insertRecord? record = some q
    ∧ p.Imaged q { p with hdt := p.hdt.setRow position record } := by
  obtain ⟨-, empty⟩ := Table.lowestFree?_spec rising place
  refine ⟨p.setRecord position record, ?_, ?_⟩
  · rw [Part.insertRecord?, show tablePositions = 131072 from rfl, place]
    rfl
  · exact Part.Imaged.setRecord (r := p) (.of_same rfl rfl) rfl empty empty record

/-- The stripe joined, its placement written in every record (R12). -/
theorem Part.join_imaged {q : Part} (inserted : p.insertRecord? (LoadRecord.joining l width p.own old) = some q) :
    p.Imaged (q.setPlacement l.stripe l.ownIndex.toNat p.own) (p.joinedAt l width position old) := by
  obtain ⟨-, empty⟩ := Table.lowestFree?_spec rising place
  obtain ⟨q', inserted', imaged⟩ := Part.insertRecord?_imaged rising place (LoadRecord.joining l width p.own old)
  obtain rfl := Option.some.inj (inserted'.symm.trans inserted)
  have hdt : q'.hdt = p.hdt.setRow position (LoadRecord.joining l width p.own old) := (congrArg Part.hdt imaged.same :)
  have now : q'.now = p.now := (congrArg Part.now imaged.same :)
  have again : { LoadRecord.joining l width p.own old with
      placement := (LoadRecord.joining l width p.own old).placement.set l.ownIndex.toNat p.own } = LoadRecord.joining l width p.own old := by
    simp [LoadRecord.joining]
  have placed := Part.Imaged.updateStripe (p := q') (r := q') l.stripe
    (fun r => { r with placement := r.placement.set l.ownIndex.toNat p.own })
    (by rw [hdt]; exact Table.rising_setRow _ _ rising) rfl rfl rfl
  have table : q'.hdt.map (changeStripe l.stripe fun r => { r with placement := r.placement.set l.ownIndex.toNat p.own }) =
      (p.joinedAt l width position old).hdt := by
    rw [hdt, changeStripe_setRow p.hdt position (show (LoadRecord.joining l width p.own old).stripe = l.stripe from rfl), again]
    rfl
  rw [table] at placed
  have after : (q'.setPlacement l.stripe l.ownIndex.toNat p.own).hdt = (p.joinedAt l width position old).hdt :=
    (congrArg Part.hdt placed.same :)
  refine ⟨?_, Part.imagesFollow_trans imaged.images placed.images now fun j back => ?_⟩
  · have whole := congrArg (fun x : Part => x.setDram p.smc.dram) placed.same
    refine (whole : _).trans ?_
    exact congrArg (fun x : Part => { x with hdt := (p.joinedAt l width position old).hdt }) imaged.same
  · rw [← back, hdt, Table.row?_setRow]
    by_cases here : j = position
    · rw [here, empty] at back
      have row : (q'.setPlacement l.stripe l.ownIndex.toNat p.own).hdt.row? position =
          some (LoadRecord.joining l width p.own old) := by
        rw [after]
        exact Table.row?_setRow_self _ _ _
      rw [row] at back
      cases back
    · rw [if_neg here]

end

end Sys2Proof.Machine

/-! LOAD: the evaluation of the stripe that it joins (R12, R57 to R61, R82). -/

namespace Sys2Proof.Machine

/-! ## What an evaluation leaves of the roster, the pending set and the placement -/

/-- A part with the roster, the pending set and the ring of another, and the placement of a stripe. -/
structure Part.KeptFor (a : Part) (t : StripeId) (r : Part) : Prop where
  prs : r.prs = a.prs
  pending : r.scn.pending = a.scn.pending
  ring : a.hlk.sameRing r.hlk
  placement : r.placementOf t = a.placementOf t

section
variable {a : Part} {t : StripeId}

theorem Part.placementOf_changed (a : Part) {table : Table HoldingRecord} {f : HoldingRecord → HoldingRecord}
    (changed : table = a.hdt.map (changeStripe t f)) (stripe : ∀ r, (f r).stripe = r.stripe)
    (placement : ∀ r, (f r).placement = r.placement) : { a with hdt := table }.placementOf t = a.placementOf t := by
  rw [Part.placementOf, a.firstRecord?_changed table changed stripe, Option.map_map, Part.placementOf]
  congr 2
  funext r
  exact placement r

theorem Part.KeptFor.changed {r : Part} (prs : r.prs = a.prs) (pending : r.scn.pending = a.scn.pending)
    (ring : a.hlk.sameRing r.hlk) {f : HoldingRecord → HoldingRecord} (hdt : r.hdt = a.hdt.map (changeStripe t f))
    (stripe : ∀ r, (f r).stripe = r.stripe) (placement : ∀ r, (f r).placement = r.placement) : a.KeptFor t r :=
  ⟨prs, pending, ring, by
    rw [← a.placementOf_changed hdt stripe placement]
    rfl⟩

theorem Part.KeptFor.reported {r : Part} (kept : a.KeptFor t r) (report : Report) : a.KeptFor t (r.postReport report) := by
  obtain ⟨prs, pending, ring, placement⟩ := kept
  obtain ⟨consume, size⟩ := ring
  obtain ⟨consume', size'⟩ := Part.postReport_sameRing r report
  rw [Part.postReport_of_same (p := r) (q := r) rfl rfl]
  exact ⟨prs, pending, ⟨consume'.trans consume, size'.trans size⟩, placement⟩

theorem Part.evaluatedTo.mono {ends ends' : Part → Prop} (h : a.evaluatedTo t ends)
    (into : ∀ r, a.KeptFor t r → ends r → ends' r) : a.evaluatedTo t ends' := by
  have ring : a.hlk.sameRing a.hlk := ⟨rfl, rfl⟩
  have written {r : Part} {lost : Positions} {standing : Standing} (prs : r.prs = a.prs)
      (pending : r.scn.pending = a.scn.pending) (hlk : r.hlk = a.hlk) (hdt : r.hdt = withStanding a.hdt t lost standing) :
      a.KeptFor t r := .changed prs pending (hlk ▸ ring) hdt (fun _ => rfl) fun _ => rfl
  have asIs {r : Part} (prs : r.prs = a.prs) (pending : r.scn.pending = a.scn.pending) (hlk : r.hlk = a.hlk)
      (hdt : r.hdt = a.hdt) : a.KeptFor t r :=
    ⟨prs, pending, hlk ▸ ring, by rw [Part.placementOf, Part.firstRecord?, hdt]; rfl⟩
  intro r loss record lost
  obtain ⟨noLoss, few, many⟩ := h r loss record lost
  refine ⟨fun empty => ?_, fun some_ little => ?_, fun more => ?_⟩
  · obtain ⟨quiet, unrecoverable, queued, parked⟩ := noLoss empty
    exact ⟨fun s => into _ (asIs rfl rfl rfl rfl) (quiet s), fun s => into _ (written rfl rfl rfl rfl) (unrecoverable s),
      fun s => into _ (written rfl rfl rfl rfl) (queued s),
      fun s => into _ (.changed rfl rfl ring rfl (fun _ => rfl) fun _ => rfl) (parked s)⟩
  · obtain ⟨queued, parked, taken⟩ := few some_ little
    refine ⟨fun s => into _ (written rfl rfl rfl rfl) (queued s), fun s stands => into _ (written rfl rfl rfl rfl)
      (parked s stands), fun s => ?_⟩
    obtain ⟨room, full⟩ := taken s
    exact ⟨fun place => into _ (written rfl rfl rfl rfl) (room place), fun none_ => into _ (asIs rfl rfl rfl rfl) (full none_)⟩
  · obtain ⟨again, open_, full⟩ := many more
    refine ⟨fun s => into _ (written rfl rfl rfl rfl) (again s), fun path => ?_,
      fun path s => into _ (asIs rfl rfl rfl rfl) (full path s)⟩
    obtain ⟨fresh, queued⟩ := open_ path
    exact ⟨fun s => into _ (.reported (by exact written rfl rfl rfl rfl) _) (fresh s),
      fun s => into _ (.reported (by exact written rfl rfl rfl rfl) _) (queued s)⟩

theorem Part.lossChangesTo.mono {n : Nat} {e : ClaimEntry} {loss : Positions} {ends ends' : Part → Prop}
    (h : a.lossChangesTo t n e loss ends) (into : ∀ r, a.KeptFor t r → ends r → ends' r) :
    a.lossChangesTo t n e loss ends' := by
  have ring : a.hlk.sameRing a.hlk := ⟨rfl, rfl⟩
  have written {r : Part} {f : HoldingRecord → HoldingRecord} (prs : r.prs = a.prs)
      (pending : r.scn.pending = a.scn.pending) (hlk : r.hlk = a.hlk) (hdt : r.hdt = a.hdt.map (changeStripe t f))
      (stripe : ∀ x, (f x).stripe = x.stripe) (placement : ∀ x, (f x).placement = x.placement) : a.KeptFor t r :=
    .changed prs pending (hlk ▸ ring) hdt stripe placement
  intro removed gone
  obtain ⟨many, noLoss, few⟩ := h removed gone
  refine ⟨fun more => ?_, fun empty => ?_, fun some_ little => into _ (written rfl rfl rfl rfl (fun _ => rfl) fun _ => rfl)
    (few some_ little)⟩
  · obtain ⟨full, open_⟩ := many more
    refine ⟨fun path => into _ ⟨rfl, rfl, ring, rfl⟩ (full path), fun path => ?_⟩
    obtain ⟨announced, silent⟩ := open_ path
    exact ⟨fun told queue fresh => into _ (.reported (by exact written rfl rfl rfl rfl (fun _ => rfl) fun _ => rfl) _)
        (announced told queue fresh),
      fun untold => into _ (.reported (by exact written rfl rfl rfl rfl (fun _ => rfl) fun _ => rfl) _) (silent untold)⟩
  · obtain ⟨announced, silent⟩ := noLoss empty
    exact ⟨fun told queue fresh => into _ (written rfl rfl rfl rfl (fun _ => rfl) fun _ => rfl) (announced told queue fresh),
      fun untold => into _ (written rfl rfl rfl rfl (fun _ => rfl) fun _ => rfl) (silent untold)⟩

end

/-! ## Evaluation on the joined stripe -/

section
variable {p q : Part} {l : LoadRecord} {width position : Nat} {old : HoldingRecord} (rising : p.hdt.rising = true)
  (place : p.hdt.lowestFree? 131072 = some position)
include rising place

/-- The joined stripe is a base for the changes that leave the placements (R10). -/
theorem Part.join_base (joined : p.Imaged q (p.joinedAt l width position old)) :
    p.ImagedBase q (p.joinedAt l width position old) := by
  obtain ⟨-, empty⟩ := Table.lowestFree?_spec rising place
  have table : q.hdt = (p.joinedAt l width position old).hdt := (congrArg Part.hdt joined.same :)
  have now : q.now = p.now := (congrArg Part.now joined.same :)
  have row (n : Nat) : q.hdt.row? n = if n = position then some (LoadRecord.joining l width p.own old) else
      (p.hdt.row? n).map fun r =>
        if r.stripe = l.stripe then { r with placement := r.placement.set l.ownIndex.toNat p.own } else r := by
    rw [table, Part.joinedAt, Table.row?_setRow, row?_changeStripe]
  refine ⟨joined.same, fun x r second placements =>
    ⟨(congrArg (fun y : Part => y.setDram p.smc.dram) second.same :),
      Part.imagesFollow_trans joined.images second.images now fun n back => ?_⟩⟩
  have later : x.hdt = r.hdt := (congrArg Part.hdt second.same :)
  have kept := placements n
  rw [Part.placements, Part.placements, ← later, ← back, row] at kept
  rw [← back, row]
  by_cases here : n = position
  · rw [if_pos here, here, empty] at kept
    cases kept
  · rw [if_neg here] at kept ⊢
    cases record : p.hdt.row? n with
    | none => rfl
    | some rec =>
      rw [record] at kept
      by_cases member : rec.stripe = l.stripe
      · simp only [Option.map_some, if_pos member, Option.some.injEq] at kept ⊢
        exact congrArg (fun list => { rec with placement := list }) kept.symm
      · rw [Option.map_some, if_neg member]

end

end Sys2Proof.Machine

/-! LOAD settled (R11, R12). -/

namespace Sys2Proof.Machine

/-! ## The joined stripe -/

/-- What a LOAD that joins a stripe finds in the stripe's records: geometry, length and placement agree, and none is of its
key (R11). -/
def Part.agreesWith (p : Part) (l : LoadRecord) (old : HoldingRecord) : Prop :=
  ∀ r ∈ p.hdt, r.2.stripe = l.stripe → r.2.geometry = l.geometry.toNat ∧ r.2.length = l.length.toNat
    ∧ r.2.placement = old.placement ∧ r.2.ownIndex ≠ l.ownIndex.toNat

section
variable {p : Part} {l : LoadRecord} {width position : Nat} {old : HoldingRecord} (agree : p.agreesWith l old)
include agree

theorem Part.joinedAt_placement :
    (p.joinedAt l width position old).placementOf l.stripe = old.placement.set l.ownIndex.toNat p.own := by
  refine Part.placementOf_of_all (fun r member stripe => ?_) ⟨_, Table.mem_setRow_self _ _ _, rfl⟩
  rcases Table.mem_setRow member with rfl | member
  · rfl
  · obtain ⟨r0, among, rfl⟩ := List.mem_map.1 member
    by_cases mine : r0.2.stripe = l.stripe
    · obtain ⟨-, -, placement, -⟩ := agree r0 among mine
      rw [changeStripe, if_pos mine, placement]
    · rw [changeStripe, if_neg mine] at stripe
      exact absurd stripe mine

/-- Where the placement shows this station already, the other records of the stripe stay as they are. -/
theorem Part.joinedAt_placed (own : old.placement[l.ownIndex.toNat]? = some p.own) : p.joinedAt l width position old =
    { p with hdt := p.hdt.setRow position (LoadRecord.joining l width p.own old) } := by
  have same : p.hdt.map (changeStripe l.stripe fun r => { r with placement := r.placement.set l.ownIndex.toNat p.own }) =
      p.hdt := by
    refine (List.map_congr_left fun r member => ?_).trans (List.map_id _)
    by_cases mine : r.2.stripe = l.stripe
    · obtain ⟨-, -, placement, -⟩ := agree r member mine
      obtain ⟨inside, entry⟩ := List.getElem?_eq_some_iff.1 own
      have set_ : r.2.placement.set l.ownIndex.toNat p.own = r.2.placement := by
        rw [placement, ← entry, List.set_getElem_self]
      rw [changeStripe, if_pos mine, set_]
      rfl
    · rw [changeStripe, if_neg mine]
      rfl
  rw [Part.joinedAt, same]

end

/-! ## The command (R11, R164) -/

section
variable {p : Part} {l : LoadRecord} {g : Geometry} {position : Nat} (w : List Instr) (taken : p.readerTakes = true)
  (running : p.hlk.phase = .running) (geometry : p.geometry? l.geometry.toNat = some g) (fits : LoadRecord.Fits p l g)
include taken running geometry fits

/-- A LOAD of a new key answers with its record inserted and the DOWN racks of its stripe's placement pending (R12). -/
theorem load_answers (agree : ∀ r ∈ p.hdt, r.2.stripe = l.stripe →
      r.2.geometry = l.geometry.toNat ∧ r.2.length = l.length.toNat ∧ r.2.ownIndex ≠ l.ownIndex.toNat)
    {q r : Part} {placement : List Nat} (inserted : p.insertLoaded l g.width = some (q.addDownRacksOf (q.placementOf l.stripe)))
    (imaged : p.Imaged q r) (placed : r.placementOf l.stripe = placement) (prs : r.prs = p.prs)
    (pending : r.scn.pending = p.scn.pending) (ring : p.hlk.sameRing r.hlk) :
    ∃ pending, pendingWith p.scn.pending pending (p.downRackOf placement)
      ∧ AnswersWithImages (.load l) ⟨w, p⟩ (Part.consumed { r with scn := { r.scn with pending := pending } }) := by
  obtain ⟨marks, added, shown⟩ := imaged.addDownRacksOf placed prs pending
  refine ⟨marks, added, answersWithImages_of_imaged (s := ⟨w, p⟩) rfl taken ?_ shown ring⟩
  refine (Part.whileRunning_running running _).trans ((Part.loadRecord_newKey geometry fits
    (fun r member stripe => ?_) fun r member stripe => ?_).trans ?_)
  · obtain ⟨geometry, length, -⟩ := agree r member stripe
    exact ⟨geometry, length⟩
  · obtain ⟨-, -, index⟩ := agree r member stripe
    exact index
  · rw [inserted]

variable (rising : p.hdt.rising = true) (place : p.hdt.lowestFree? 131072 = some position)
include rising place

/-- The first record of a stripe (R12). -/
theorem load_first (first : p.firstRecord? l.stripe = none) :
    ∃ pending, pendingWith p.scn.pending pending (p.downRackOf (LoadRecord.stations l g.width))
      ∧ AnswersWithImages (.load l) ⟨w, p⟩ (Part.consumed
        { p with
          hdt := p.hdt.setRow position (LoadRecord.firstRecord l g.width)
          scn := { p.scn with pending := pending } }) := by
  have none_ : ∀ r ∈ p.hdt, r.2.stripe ≠ l.stripe := by
    intro r member stripe
    have other := List.find?_eq_none.1 (Option.map_eq_none_iff.1 first) r member
    simp [stripe] at other
  obtain ⟨q, inserted, imaged⟩ := Part.insertRecord?_imaged rising place (LoadRecord.firstRecord l g.width)
  refine load_answers w taken running geometry fits (fun r member stripe => absurd stripe (none_ r member)) (q := q) ?_ imaged
    (Part.placementOf_of_all (fun r member stripe => ?_) ⟨_, Table.mem_setRow_self _ _ _, rfl⟩) rfl rfl ⟨rfl, rfl⟩
  · simp only [Part.insertLoaded, first, inserted, Option.map_some]
  · rcases Table.mem_setRow member with rfl | member
    · rfl
    · exact absurd stripe (none_ r member)

variable {old : HoldingRecord} (first : p.firstRecord? l.stripe = some old) (agree : p.agreesWith l old)
include first agree

omit taken running geometry fits agree in
/-- What a LOAD makes of a stripe with records, up to the DOWN racks of its placement (R12). -/
theorem Part.insertLoaded_joins : ∃ q,
    (p.insertLoaded l g.width = (some (if old.placement[l.ownIndex.toNat]? = some p.own then q
      else if old.standing = .quiet then q.setPlacement l.stripe l.ownIndex.toNat p.own
      else (q.setPlacement l.stripe l.ownIndex.toNat p.own).evaluateOrSweep l.stripe)).map fun x : Part =>
        x.addDownRacksOf (x.placementOf l.stripe))
      ∧ p.Imaged q { p with hdt := p.hdt.setRow position (LoadRecord.joining l g.width p.own old) }
      ∧ p.Imaged (q.setPlacement l.stripe l.ownIndex.toNat p.own) (p.joinedAt l g.width position old) := by
  obtain ⟨q, inserted, imaged⟩ := Part.insertRecord?_imaged rising place (LoadRecord.joining l g.width p.own old)
  refine ⟨q, ?_, imaged, Part.join_imaged rising place inserted⟩
  have record : p.insertRecord? { LoadRecord.firstRecord l g.width with
      placement := old.placement.set l.ownIndex.toNat p.own, standing := old.standing, lost := old.lost,
      outside := old.outside } = some q := inserted
  simp only [Part.insertLoaded, first, record, Option.map_some]

/-- A stripe that is not evaluated: QUIET, or one whose placement shows this station already (R12). -/
theorem load_joins (still : old.standing = .quiet ∨ old.placement[l.ownIndex.toNat]? = some p.own) :
    ∃ pending, pendingWith p.scn.pending pending (p.downRackOf (old.placement.set l.ownIndex.toNat p.own))
      ∧ AnswersWithImages (.load l) ⟨w, p⟩ (Part.consumed
        { p.joinedAt l g.width position old with scn := { p.scn with pending := pending } }) := by
  obtain ⟨q, joins, imaged, placed⟩ := Part.insertLoaded_joins (g := g) rising place first
  have fitting : ∀ r ∈ p.hdt, r.2.stripe = l.stripe →
      r.2.geometry = l.geometry.toNat ∧ r.2.length = l.length.toNat ∧ r.2.ownIndex ≠ l.ownIndex.toNat := by
    intro r member stripe
    obtain ⟨geometry, length, -, index⟩ := agree r member stripe
    exact ⟨geometry, length, index⟩
  have placement := Part.joinedAt_placement (width := g.width) (position := position) agree
  by_cases own : old.placement[l.ownIndex.toNat]? = some p.own
  · rw [if_pos own] at joins
    rw [← Part.joinedAt_placed agree own] at imaged
    exact load_answers w taken running geometry fits fitting joins imaged placement rfl rfl ⟨rfl, rfl⟩
  · rw [if_neg own, if_pos (still.resolve_right own)] at joins
    exact load_answers w taken running geometry fits fitting joins placed placement rfl rfl ⟨rfl, rfl⟩

/-- A stripe that is evaluated: how the evaluation ends shows in the answer (R12, R57). -/
theorem load_evaluates (busy : old.standing ≠ .quiet) (other : old.placement[l.ownIndex.toNat]? ≠ some p.own) :
    ∃ q, p.ImagedBase q (p.joinedAt l g.width position old) ∧ ∀ r, (p.joinedAt l g.width position old).KeptFor l.stripe r →
      p.Imaged (q.evaluateOrSweep l.stripe) r →
      ∃ pending, pendingWith p.scn.pending pending (p.downRackOf (old.placement.set l.ownIndex.toNat p.own))
        ∧ AnswersWithImages (.load l) ⟨w, p⟩ (Part.consumed { r with scn := { r.scn with pending := pending } }) := by
  obtain ⟨q, joins, -, placed⟩ := Part.insertLoaded_joins (g := g) rising place first
  rw [if_neg other, if_neg busy] at joins
  refine ⟨_, Part.join_base rising place placed, fun r kept imaged => ?_⟩
  refine load_answers w taken running geometry fits (fun r member stripe => ?_) joins imaged
    (kept.placement.trans (Part.joinedAt_placement agree)) kept.prs kept.pending kept.ring
  obtain ⟨geometry, length, -, index⟩ := agree r member stripe
  exact ⟨geometry, length, index⟩

omit taken running geometry fits in
/-- The first record of the joined stripe has the standing and the lost set of before, and its geometry (R12). -/
theorem Part.joinedAt_first : ∃ r, (p.joinedAt l g.width position old).firstRecord? l.stripe = some r
    ∧ r.standing = old.standing ∧ r.lost = old.lost ∧ r.geometry = l.geometry.toNat := by
  obtain ⟨-, empty⟩ := Table.lowestFree?_spec rising place
  obtain ⟨first_, found, first_eq⟩ := Option.map_eq_some_iff.1 first
  have mine : first_.2.stripe = l.stripe :=
    beq_iff_eq.1 (List.find?_some (p := fun r : Nat × HoldingRecord => r.2.stripe == l.stripe) found)
  obtain ⟨geometry, -⟩ := agree first_ (List.mem_of_find?_eq_some found) mine
  have found' := findRow?_changeStripe (t := l.stripe)
    (f := fun r => { r with placement := r.placement.set l.ownIndex.toNat p.own }) p.hdt (fun r => r.stripe == l.stripe)
    fun _ _ => rfl
  rw [found, Option.map_some] at found'
  have free : Table.row? (p.hdt.map (changeStripe l.stripe fun r =>
      { r with placement := r.placement.set l.ownIndex.toNat p.own })) position = none := by
    rw [row?_changeStripe, empty]
    rfl
  obtain ⟨r, record, new | before⟩ := Table.findRow?_setRow free (a := LoadRecord.joining l g.width p.own old) found'
  · refine ⟨r.2, (congrArg (Option.map Prod.snd) record :), ?_⟩
    rw [new]
    exact ⟨rfl, rfl, rfl⟩
  · refine ⟨r.2, (congrArg (Option.map Prod.snd) record :), ?_⟩
    rw [before, changeStripe, if_pos mine, ← first_eq]
    exact ⟨rfl, rfl, geometry⟩

end

/-- A changed loss set of 1 to m positions, where the stripe's context ignores it: it is the entry's and the stripe's (R82). -/
theorem Part.ImagedBase.lossLate {p q a : Part} {t : StripeId} (base : p.ImagedBase q a) (rising : a.hdt.rising = true)
    {n c : Nat} {e : ClaimEntry} {x : Context} {loss : Positions} (entry : q.claimOf? t = some (n, e))
    (context : q.contextOf? t = some (c, x)) (inUse : q.context? c = some x) (late : x.state = .verifying ∨ x.state = .delivering)
    (some_ : loss ≠ []) (few : loss.length ≤ q.parityOf t) : p.Imaged (q.lossChangedOrSweep t loss)
      { a with
        clt := { a.clt with entries := a.clt.entries.setRow n { e with lost := loss } }
        hdt := a.hdt.map (changeStripe t fun h => { h with lost := loss }) } := by
  obtain ⟨d, rfl⟩ : ∃ d, q = a.setDram d := ⟨_, base.setDram⟩
  have imaged := Part.setLost_imaged (p := a.setDram d) (r := (a.setDram d).setClaim n { e with lost := loss }) t loss rising
    rfl rfl rfl
  have changed : (a.setDram d).lossChangedOrSweep t loss = ((a.setDram d).setClaim n { e with lost := loss }).setLost t loss := by
    have context' : (((a.setDram d).setClaim n { e with lost := loss }).setLost t loss).contextOf? t = some (c, x) :=
      (congrArg (fun q : Part => q.contextOf? t) imaged.same : _).trans context
    have inUse' : (((a.setDram d).setClaim n { e with lost := loss }).setLost t loss).context? c = some x :=
      (congrArg (fun q : Part => q.context? c) imaged.same : _).trans inUse
    have ignored : (((a.setDram d).setClaim n { e with lost := loss }).setLost t loss).changeContextLoss c loss =
        ((a.setDram d).setClaim n { e with lost := loss }).setLost t loss := by
      cases pending : x.pendingOutcome with
      | none => exact Part.changeContextLoss_late inUse' pending late
      | some o => simp [Part.changeContextLoss, inUse', Context.live, pending]
    simp only [Part.lossChangedOrSweep, Part.lossChanged?, entry, if_neg (Nat.not_lt.2 few), List.isEmpty_iff, some_,
      if_false, context', ignored, Option.getD_some]
  rw [changed]
  have follows := base.follow _ _ imaged (Part.placements_change rfl fun _ => rfl)
  rw [← base.dram] at follows
  exact follows

/-- Settles O13. -/
theorem loadsInsertRecords : Obligations.LoadsInsertRecords := by
  refine ⟨fun w p l g position taken running geometry fits first rising place =>
      load_first w taken running geometry fits rising place first,
    fun w p l g position old taken running geometry fits first agree still rising place =>
      load_joins w taken running geometry fits rising place first agree still, ?_⟩
  intro w p joined l g position old ends taken running geometry fits first agree busy other rising place joined_eq ends_eq
  obtain ⟨q, base, evaluates⟩ := load_evaluates w taken running geometry fits rising place first agree busy other
  obtain rfl : joined = p.joinedAt l g.width position old := joined_eq
  obtain ⟨r, record, standing, lost, geometry'⟩ := Part.joinedAt_first (g := g) rising place first agree
  have into : ∀ r, (p.joinedAt l g.width position old).KeptFor l.stripe r → p.Imaged (q.evaluateOrSweep l.stripe) r →
      ends r := ends_eq ▸ evaluates
  have rising' : (p.joinedAt l g.width position old).hdt.rising = true :=
    Table.rising_setRow _ _ (rising_changeStripe _ _ rising)
  have setDram := base.setDram
  have record' : q.firstRecord? l.stripe = some r := setDram ▸ record
  have running' : q.hlk.phase = .running := setDram ▸ running
  have losses : q.lossSet l.stripe = (p.joinedAt l g.width position old).lossSet l.stripe :=
    (congrArg (fun x : Part => x.lossSet l.stripe) base.same :)
  refine ⟨fun _ => (base.evaluates running rising' fun r imaged => imaged).mono into, fun claiming => ?_⟩
  have evaluation := Part.evaluate?_claiming running' record' (standing.trans claiming)
  rw [losses, lost] at evaluation
  refine ⟨fun same => ?_, fun n e changed entry => ?_⟩
  · have still : q.evaluateOrSweep l.stripe = q := by
      rw [Part.evaluateOrSweep, evaluation, if_pos same]
      rfl
    exact into _ ⟨rfl, rfl, ⟨rfl, rfl⟩, rfl⟩ (still.symm ▸ base.imaged)
  · have changes : q.evaluateOrSweep l.stripe =
        q.lossChangedOrSweep l.stripe ((p.joinedAt l g.width position old).lossSet l.stripe) := by
      rw [Part.evaluateOrSweep, evaluation, if_neg changed]
      rfl
    rw [changes] at into
    refine ⟨fun free => (base.lossChanges entry free rising' fun r imaged => imaged).mono into,
      fun c x context inUse late some_ few => ?_⟩
    have claims : q.claimOf? l.stripe = some (n, e) := setDram ▸ entry
    have parity : p.parityOf l.stripe = q.parityOf l.stripe := by
      have mine : old.geometry = l.geometry.toNat := by
        obtain ⟨row, found, rfl⟩ := Option.map_eq_some_iff.1 first
        exact (agree row (List.mem_of_find?_eq_some found) (beq_iff_eq.1
          (List.find?_some (p := fun r : Nat × HoldingRecord => r.2.stripe == l.stripe) found))).1
      rw [Part.parityOf, Part.parityOf, Part.geometryOf?, Part.geometryOf?, first, record', Option.bind_some,
        Option.bind_some, mine, geometry', setDram]
      rfl
    rw [parity] at few
    exact into _ (.changed rfl rfl ⟨rfl, rfl⟩ rfl (fun _ => rfl) fun _ => rfl)
      (base.lossLate rising' claims (by rw [setDram]; exact context) (by rw [setDram]; exact inUse) late some_ few)

end Sys2Proof.Machine

/-! HALT: the request tags made void, and the requests that wait (R167, R168). -/

namespace Sys2Proof.Machine

/-! ## Tags made void (R168) -/

/-- A report that waits, marked where it is a request of a tag that has been made void. -/
def voidedBy (tags : List Tag) (r : QueuedReport) : QueuedReport :=
  if r.report.tag?.any tags.contains then { r with tagVoid := true } else r

/-- The host link with outstanding tags made void. -/
def HostLink.voided (h : HostLink) (tags : List Tag) : HostLink :=
  { h with
    stageTags := h.stageTags.filter fun t => !tags.contains t
    storeTags := h.storeTags.filter fun t => !tags.contains t
    reportQueue := h.reportQueue.map (voidedBy tags) }

/-- A host link in which some of the outstanding tags have been made void, and nothing else has changed. -/
def HostLink.VoidsTo (h k : HostLink) : Prop := ∃ tags : List Tag, (∀ t ∈ tags, t ∈ h.stageTags ++ h.storeTags) ∧ k = h.voided tags

theorem voidedBy_voidedBy (one two : List Tag) (r : QueuedReport) :
    voidedBy two (voidedBy one r) = voidedBy (one ++ two) r := by
  have report : (voidedBy one r).report = r.report := by
    unfold voidedBy
    split <;> rfl
  rw [show voidedBy two (voidedBy one r) = if (voidedBy one r).report.tag?.any two.contains then
    { voidedBy one r with tagVoid := true } else voidedBy one r from rfl, report]
  unfold voidedBy
  cases r.report.tag? with
  | none => simp
  | some t => by_cases first : t ∈ one <;> by_cases second : t ∈ two <;> simp [first, second]

theorem HostLink.voided_voided (h : HostLink) (one two : List Tag) : (h.voided one).voided two = h.voided (one ++ two) := by
  have both (t : Tag) : (!two.contains t && !one.contains t) = !(one ++ two).contains t := by
    simp only [List.contains_append, Bool.not_or, Bool.and_comm]
  simp only [HostLink.voided, List.filter_filter, both, List.map_map]
  congr 1
  exact List.map_congr_left fun r _ => voidedBy_voidedBy one two r

theorem HostLink.voided_nil (h : HostLink) : h.voided [] = h := by
  have same : h.reportQueue.map (voidedBy []) = h.reportQueue := by
    refine (List.map_congr_left fun r _ => ?_).trans (List.map_id _)
    unfold voidedBy
    cases r.report.tag? <;> rfl
  simp only [HostLink.voided, same, List.contains_nil, Bool.not_false, List.filter_true]

theorem HostLink.VoidsTo.rfl {h : HostLink} : h.VoidsTo h := ⟨[], nofun, h.voided_nil.symm⟩

theorem HostLink.VoidsTo.trans {h k l : HostLink} (one : h.VoidsTo k) (two : k.VoidsTo l) : h.VoidsTo l := by
  obtain ⟨first, out, rfl⟩ := one
  obtain ⟨second, out', rfl⟩ := two
  refine ⟨first ++ second, fun t member => ?_, HostLink.voided_voided h first second⟩
  rcases List.mem_append.1 member with member | member
  · exact out t member
  · rcases List.mem_append.1 (out' t member) with kept | kept
    · exact List.mem_append_left _ (List.mem_filter.1 kept).1
    · exact List.mem_append_right _ (List.mem_filter.1 kept).1

theorem Part.voidTag_hlk (p : Part) (tag : Tag) : p.hlk.VoidsTo (p.voidTag tag).hlk := by
  unfold Part.voidTag
  split
  next outstanding =>
    refine ⟨[tag], fun t member => ?_, ?_⟩
    · obtain rfl := List.mem_singleton.1 member
      exact List.contains_iff_mem.1 outstanding
    · have one (t : Tag) : (!([tag] : List Tag).contains t) = (t != tag) := by
        by_cases here : t = tag <;> simp [here]
      simp only [HostLink.voided, one]
      have marks (r : QueuedReport) : (if r.report.tag? = some tag then { r with tagVoid := true } else r) =
          voidedBy [tag] r := by
        unfold voidedBy
        cases r.report.tag? with
        | none => rfl
        | some t => by_cases here : t = tag <;> simp [here]
      simp only [Part.endTag, marks]
  next => exact .rfl

theorem Part.voidTags_hlk (p : Part) (tags : List Tag) : p.hlk.VoidsTo (tags.foldl Part.voidTag p).hlk := by
  induction tags generalizing p with
  | nil => exact .rfl
  | cons tag rest ih => exact (p.voidTag_hlk tag).trans (ih (p.voidTag tag))

theorem Part.mem_outstanding_voidTag {p : Part} {tag t : Tag} (member : t ∈ (p.voidTag tag).outstandingTags) :
    t ∈ p.outstandingTags ∧ t ≠ tag := by
  unfold Part.voidTag at member
  split at member
  next =>
    rcases List.mem_append.1 member with kept | kept
    · obtain ⟨kept, other⟩ := List.mem_filter.1 kept
      exact ⟨List.mem_append_left _ kept, bne_iff_ne.1 other⟩
    · obtain ⟨kept, other⟩ := List.mem_filter.1 kept
      exact ⟨List.mem_append_right _ kept, bne_iff_ne.1 other⟩
  next absent =>
    refine ⟨member, fun here => absent ?_⟩
    rw [← here]
    exact List.contains_iff_mem.2 member

theorem Part.mem_outstanding_voidTags {p : Part} {tags : List Tag} {t : Tag}
    (member : t ∈ (tags.foldl Part.voidTag p).outstandingTags) : t ∈ p.outstandingTags ∧ t ∉ tags := by
  induction tags generalizing p with
  | nil => exact ⟨member, List.not_mem_nil⟩
  | cons tag rest ih =>
    obtain ⟨before, later⟩ := ih (p := p.voidTag tag) member
    obtain ⟨kept, other⟩ := Part.mem_outstanding_voidTag before
    exact ⟨kept, fun listed => (List.mem_cons.1 listed).elim other later⟩

/-- Every tag made void: none is outstanding, and the requests of those that were have gone (R167 step 9, R168). -/
theorem Part.voidAllTags_hlk {p q : Part} (voids : p.hlk.VoidsTo q.hlk) : q.voidAllTags.hlk =
    { p.hlk with
      stageTags := []
      storeTags := []
      reportQueue := p.hlk.reportQueue.filter fun r =>
        !r.tagVoid && !(r.report.tag?.any (p.hlk.stageTags ++ p.hlk.storeTags).contains) } := by
  obtain ⟨tags, out, ended⟩ := voids.trans (q.voidTags_hlk q.outstandingTags)
  have none_ : (q.outstandingTags.foldl Part.voidTag q).outstandingTags = [] :=
    List.eq_nil_iff_forall_not_mem.2 fun t member =>
      (Part.mem_outstanding_voidTags member).2 (Part.mem_outstanding_voidTags member).1
  have outstanding : (q.outstandingTags.foldl Part.voidTag q).hlk.stageTags = []
      ∧ (q.outstandingTags.foldl Part.voidTag q).hlk.storeTags = [] := List.append_eq_nil_iff.1 none_
  have all (t : Tag) : tags.contains t = (p.hlk.stageTags ++ p.hlk.storeTags).contains t := by
    rw [Bool.eq_iff_iff, List.contains_iff_mem, List.contains_iff_mem]
    refine ⟨out t, fun member => ?_⟩
    by_contra kept
    have still : !tags.contains t := by simpa using kept
    rcases List.mem_append.1 member with member | member
    · have left := outstanding.1
      rw [ended] at left
      exact absurd (List.mem_filter.2 ⟨member, still⟩) (by rw [show List.filter _ _ = [] from left]; exact List.not_mem_nil)
    · have left := outstanding.2
      rw [ended] at left
      exact absurd (List.mem_filter.2 ⟨member, still⟩) (by rw [show List.filter _ _ = [] from left]; exact List.not_mem_nil)
  have queue : (q.outstandingTags.foldl Part.voidTag q).hlk.reportQueue.filter (fun r => !r.tagVoid) =
      p.hlk.reportQueue.filter fun r =>
        !r.tagVoid && !(r.report.tag?.any (p.hlk.stageTags ++ p.hlk.storeTags).contains) := by
    have marked (r : QueuedReport) : (!(voidedBy tags r).tagVoid) =
        (!r.tagVoid && !(r.report.tag?.any (p.hlk.stageTags ++ p.hlk.storeTags).contains)) := by
      unfold voidedBy
      rw [show tags.contains = (p.hlk.stageTags ++ p.hlk.storeTags).contains from funext all]
      split
      next void => rw [void, Bool.not_true, Bool.and_false]
      next kept => rw [Bool.eq_false_iff.2 kept, Bool.not_false, Bool.and_true]
    rw [show (q.outstandingTags.foldl Part.voidTag q).hlk.reportQueue = p.hlk.reportQueue.map (voidedBy tags) from
      congrArg HostLink.reportQueue ended, List.filter_map]
    refine (List.map_congr_left fun r member => ?_).trans ((List.map_id _).trans (List.filter_congr fun r _ => marked r))
    have still := (marked r).symm.trans (List.mem_filter.1 member).2
    rw [Bool.and_eq_true, Bool.not_eq_true', Bool.not_eq_true'] at still
    rw [← show tags.contains = (p.hlk.stageTags ++ p.hlk.storeTags).contains from funext all] at still
    exact if_neg (Bool.eq_false_iff.1 still.2)
  have whole : q.voidAllTags.hlk = { (q.outstandingTags.foldl Part.voidTag q).hlk with
      reportQueue := (q.outstandingTags.foldl Part.voidTag q).hlk.reportQueue.filter fun r => !r.tagVoid } := rfl
  rw [whole, queue]
  obtain ⟨stage, store⟩ := outstanding
  rw [ended] at stage store ⊢
  simp only [HostLink.voided] at stage store ⊢
  rw [stage, store]

end Sys2Proof.Machine

/-! HALT: what the ends of the contexts leave of the segment port and of the lanes (R101, R120, R159, R167). -/

namespace Sys2Proof.Machine

/-! ## Control frames posted and withdrawn (R158, R159) -/

/-- What a part still has of the frames of another: what it has transmitted, a hold list without BEACONs, and no more
frames held than k beside those of before. -/
structure Part.HoldsWith (p q : Part) (k : Nat) : Prop where
  wire : q.sgp.wire = p.sgp.wire
  held : (∀ f ∈ p.sgp.hold, f.body.isBeacon = false) → ∀ f ∈ q.sgp.hold, f.body.isBeacon = false
  room : q.sgp.hold.length ≤ p.sgp.hold.length + k

theorem Part.HoldsWith.rfl {p : Part} : p.HoldsWith p 0 := ⟨Eq.refl _, id, Nat.le_refl _⟩

theorem Part.HoldsWith.trans {p q r : Part} {k m : Nat} (one : p.HoldsWith q k) (two : q.HoldsWith r m) :
    p.HoldsWith r (k + m) :=
  ⟨two.wire.trans one.wire, two.held ∘ one.held, by have := one.room; have := two.room; omega⟩

theorem Part.HoldsWith.of_sgp {p q : Part} (same : q.sgp = p.sgp) : p.HoldsWith q 0 := by
  refine ⟨?_, ?_, ?_⟩ <;> rw [same]
  · exact id
  · exact Nat.le_refl _

theorem Part.HoldsWith.mono {p q : Part} {k m : Nat} (h : p.HoldsWith q k) (le : k ≤ m) : p.HoldsWith q m :=
  ⟨h.wire, h.held, Nat.le_trans h.room (Nat.add_le_add_left le _)⟩

theorem Part.serveHeld_frames (p : Part) :
    p.serveHeld.sgp.control ++ p.serveHeld.sgp.hold = p.sgp.control ++ p.sgp.hold := by
  simp [Part.serveHeld]

theorem Part.holdsWith_serveHeld (p : Part) : p.HoldsWith p.serveHeld 0 :=
  ⟨rfl, fun all f member => all f (List.mem_of_mem_drop member), by
    simp only [Part.serveHeld, List.length_drop]
    omega⟩

theorem Part.holdsWith_withdrawFrames (p : Part) (withdrawn : FrameBody → Bool) :
    p.HoldsWith (p.withdrawFrames withdrawn) 0 := by
  have filtered : p.HoldsWith { p with
      sgp := { p.sgp with
        control := p.sgp.control.filter fun f => !withdrawn f.body
        hold := p.sgp.hold.filter fun f => !withdrawn f.body } } 0 :=
    ⟨rfl, fun all f member => all f (List.mem_filter.1 member).1, List.length_filter_le _ _⟩
  exact filtered.trans (Part.holdsWith_serveHeld _)

theorem Part.holdsWith_enqueueControl (p : Part) {f : ControlFrame} (other : f.body.isBeacon = false) :
    p.HoldsWith (p.enqueueControl f) 1 := by
  have served := Part.holdsWith_serveHeld p
  refine (served.trans (m := 1) ?_).mono (Nat.le_refl 1)
  unfold Part.enqueueControl
  dsimp only
  split
  · exact ⟨rfl, id, Nat.le_succ _⟩
  · split
    · refine ⟨rfl, fun all g member => ?_, Nat.le_of_eq (List.length_append ..)⟩
      rcases List.mem_append.1 member with member | member
      · exact all g member
      · rw [List.mem_singleton.1 member]
        exact other
    · exact ⟨rfl, id, Nat.le_succ _⟩

theorem Part.holdsWith_post (p : Part) (target : Option Nat) {b : FrameBody} (other : b.isBeacon = false) :
    p.HoldsWith (p.post target b) 1 := by
  unfold Part.post
  dsimp only
  split
  · split
    · refine ⟨rfl, fun all g member => ?_, ?_⟩
      · obtain ⟨f, among, rfl⟩ := List.mem_map.1 member
        split
        · exact other
        · exact all f among
      · exact Nat.le_trans (Nat.le_of_eq (List.length_map _)) (Nat.le_succ _)
    · exact Part.holdsWith_enqueueControl p other
  · exact Part.holdsWith_enqueueControl p other

/-- A frame that is no CLAIM stays among the frames that wait, whatever is posted. -/
theorem Part.mem_post {p : Part} {f : ControlFrame} (member : f ∈ p.sgp.control ++ p.sgp.hold)
    (noClaim : ∀ t, f.body.isClaimOf t = false) (target : Option Nat) (b : FrameBody) :
    f ∈ (p.post target b).sgp.control ++ (p.post target b).sgp.hold := by
  have enqueued (g : ControlFrame) : f ∈ (p.enqueueControl g).sgp.control ++ (p.enqueueControl g).sgp.hold := by
    have served := member
    rw [← Part.serveHeld_frames] at served
    unfold Part.enqueueControl
    dsimp only
    split
    · exact (List.mem_append.1 served).elim (fun h => List.mem_append_left _ (List.mem_append_left _ h))
        (List.mem_append_right _)
    · split
      · exact (List.mem_append.1 served).elim (List.mem_append_left _)
          fun h => List.mem_append_right _ (List.mem_append_left _ h)
      · exact served
  unfold Part.post
  dsimp only
  split
  · split
    · rw [replaceClaim, replaceClaim, ← List.map_append]
      exact List.mem_map.2 ⟨f, member, if_neg (by rw [noClaim]; exact Bool.false_ne_true)⟩
    · exact enqueued _
  · exact enqueued _

/-- A frame posted where the hold list has room is among the frames that wait. -/
theorem Part.mem_post_self {p : Part} (room : p.sgp.hold.length < 1024) (target : Option Nat) (b : FrameBody) :
    { target := target, epoch := p.prs.ownEpoch, body := b }
      ∈ (p.post target b).sgp.control ++ (p.post target b).sgp.hold := by
  have enqueued (g : ControlFrame) : g ∈ (p.enqueueControl g).sgp.control ++ (p.enqueueControl g).sgp.hold := by
    have few : p.serveHeld.sgp.hold.length < 1024 :=
      Nat.lt_of_le_of_lt (Part.holdsWith_serveHeld p).room room
    unfold Part.enqueueControl
    dsimp only
    split
    · exact List.mem_append_left _ (List.mem_append_right _ List.mem_cons_self)
    · rw [if_pos (show p.serveHeld.sgp.hold.length < holdPlaces from few)]
      exact List.mem_append_right _ (List.mem_append_right _ List.mem_cons_self)
  unfold Part.post
  dsimp only
  split
  next t contest =>
    split
    next waits =>
      obtain ⟨f, member, claim⟩ := List.any_eq_true.1 waits
      rw [replaceClaim, replaceClaim, ← List.map_append]
      exact List.mem_map.2 ⟨f, member, if_pos claim⟩
    next => exact enqueued _
  next => exact enqueued _

/-! ## Lanes released (R120) -/

/-- The lanes that are in use. -/
def Part.lanesInUse (p : Part) : Nat := (p.ftu.filter fun r => r.2.use.isSome).length

theorem Table.filter_editRow_le {α : Type} (table : Table α) (n : Nat) (f : α → α) (test : α → Bool)
    (off : ∀ x, test (f x) = false) : ((table.editRow n f).filter fun r => test r.2).length ≤
      (table.filter fun r => test r.2).length := by
  induction table with
  | nil => exact Nat.le_refl _
  | cons r rest ih =>
    rw [Table.editRow, List.map_cons] at *
    by_cases here : r.1 = n
    · rw [if_pos here, List.filter_cons_of_neg (by simp [off])]
      exact Nat.le_trans ih (List.Sublist.length_le (List.Sublist.filter _ (List.sublist_cons_self r rest)))
    · rw [if_neg here]
      cases on : test r.2
      · rw [List.filter_cons_of_neg (by simp [on]), List.filter_cons_of_neg (by simp [on])]
        exact ih
      · rw [List.filter_cons_of_pos (p := fun r : Nat × α => test r.2) on,
          List.filter_cons_of_pos (p := fun r : Nat × α => test r.2) on]
        exact Nat.succ_le_succ ih

theorem Table.filter_editRow_lt {α : Type} {table : Table α} {n : Nat} {x : α} (row : table.row? n = some x) {f : α → α}
    {test : α → Bool} (on : test x = true) (off : ∀ x, test (f x) = false) :
    ((table.editRow n f).filter fun r => test r.2).length < (table.filter fun r => test r.2).length := by
  induction table with
  | nil => cases row
  | cons r rest ih =>
    obtain ⟨i, y⟩ := r
    have later := Table.filter_editRow_le rest n f test off
    rw [Table.editRow, List.map_cons] at *
    by_cases here : i = n
    · have first : y = x := by simpa [Table.row?, here] using row
      rw [if_pos here, List.filter_cons_of_neg (by simp [off]), List.filter_cons_of_pos (by rw [first]; exact on)]
      exact Nat.lt_succ_of_le later
    · have row' : Table.row? rest n = some x := by simpa [Table.row?, here, Ne.symm here] using row
      rw [if_neg here]
      cases on' : test y
      · rw [List.filter_cons_of_neg (by simp [on']), List.filter_cons_of_neg (by simp [on'])]
        exact ih row'
      · rw [List.filter_cons_of_pos (p := fun r : Nat × α => test r.2) on',
          List.filter_cons_of_pos (p := fun r : Nat × α => test r.2) on']
        exact Nat.succ_lt_succ (ih row')

end Sys2Proof.Machine

/-! HALT: the contexts ended and the claims withdrawn (R84, R101, R104, R167). -/

namespace Sys2Proof.Machine

/-! ## Lanes released and freed (R107, R120) -/

/-- What the releases of lanes leave of the segment port and of the lanes: each RELEASE is one of a lane that was in use. -/
structure Part.LanesEnd (p q : Part) : Prop where
  wire : q.sgp.wire = p.sgp.wire
  held : (∀ f ∈ p.sgp.hold, f.body.isBeacon = false) → ∀ f ∈ q.sgp.hold, f.body.isBeacon = false
  room : q.sgp.hold.length + q.lanesInUse ≤ p.sgp.hold.length + p.lanesInUse
  idled : (q.ftu.map fun r => (r.1, r.2.idled)) = p.ftu.map fun r => (r.1, r.2.idled)

theorem Part.LanesEnd.of_same {p q : Part} (sgp : q.sgp = p.sgp) (ftu : q.ftu = p.ftu) : p.LanesEnd q := by
  refine ⟨?_, ?_, ?_, ?_⟩
  · rw [sgp]
  · rw [sgp]
    exact id
  · rw [sgp, Part.lanesInUse, ftu]
    exact Nat.le_refl _
  · rw [ftu]

theorem Part.LanesEnd.trans {p q r : Part} (one : p.LanesEnd q) (two : q.LanesEnd r) : p.LanesEnd r :=
  ⟨two.wire.trans one.wire, two.held ∘ one.held, Nat.le_trans two.room one.room, two.idled.trans one.idled⟩

theorem Part.LanesEnd.foldl {α : Type} {f : Part → α → Part} (step : ∀ (q : Part) a, q.LanesEnd (f q a)) (p : Part)
    (as : List α) : p.LanesEnd (as.foldl f p) := by
  induction as generalizing p with
  | nil => exact .of_same rfl rfl
  | cons a rest ih => exact (step p a).trans (ih (f p a))

theorem map_idled_editRow (ftu : Table Lane) (n : Nat) {f : Lane → Lane} (same : ∀ l, (f l).idled = l.idled) :
    ((ftu.editRow n f).map fun r => (r.1, r.2.idled)) = ftu.map fun r => (r.1, r.2.idled) := by
  rw [Table.editRow, List.map_map]
  refine List.map_congr_left fun r _ => ?_
  simp only [Function.comp_apply]
  split
  · rw [same]
  · rfl

theorem Part.lanesEnd_releaseLane (p : Part) (n : Nat) : p.LanesEnd (p.releaseLane n) := by
  cases use : p.laneUse? n with
  | none =>
    have same : p.releaseLane n = p := by simp [Part.releaseLane, use]
    rw [same]
    exact .of_same rfl rfl
  | some u =>
    have ftu : (p.releaseLane n).ftu = p.ftu.editRow n fun l => { l with use := none } :=
      (Part.releaseLane_ftu p n).resolve_left fun ⟨_, idle⟩ => by cases use.symm.trans idle
    have holds : p.HoldsWith (p.releaseLane n) 1 := by
      have withdrawn := Part.holdsWith_withdrawFrames p fun body => body.isRequestOf n
      unfold Part.releaseLane
      rw [use]
      dsimp only
      split
      · exact (withdrawn.trans (Part.holdsWith_post (p.withdrawRequests n) (some u.server)
          (b := .release ((p.withdrawRequests n).laneTag n)) rfl)).trans (m := 0) (.of_sgp rfl)
      · exact withdrawn.trans (m := 1) (Part.HoldsWith.mono (.of_sgp rfl) (Nat.le_succ 0))
    obtain ⟨l, row, used⟩ : ∃ l, p.ftu.row? n = some l ∧ l.use = some u := by
      cases row : p.ftu.row? n with
      | none => simp [Part.laneUse?, Part.lane, row, Lane.reset] at use
      | some l => exact ⟨l, rfl, by simpa [Part.laneUse?, Part.lane, row] using use⟩
    have fewer : (p.releaseLane n).lanesInUse < p.lanesInUse := by
      rw [Part.lanesInUse, ftu]
      exact Table.filter_editRow_lt row (test := fun l : Lane => l.use.isSome) (by rw [used]; rfl) fun _ => rfl
    refine ⟨holds.wire, holds.held, ?_, ?_⟩
    · have := holds.room
      omega
    · rw [ftu]
      exact map_idled_editRow _ _ fun _ => rfl

theorem Part.lanesEnd_freeLane (p : Part) (n : Nat) : p.LanesEnd (p.editLane n fun l => { l with holder := none }) := by
  refine ⟨rfl, id, ?_, map_idled_editRow p.ftu n (f := fun l => { l with holder := none }) fun _ => rfl⟩
  refine Nat.add_le_add_left (Nat.le_of_eq ?_) _
  rw [Part.lanesInUse, Part.lanesInUse, show (p.editLane n fun l => { l with holder := none }).ftu =
    p.ftu.editRow n fun l => { l with holder := none } from rfl, Table.editRow, List.filter_map, List.length_map]
  congr 2
  funext r
  simp only [Function.comp_apply]
  split <;> rfl

theorem Part.lanesEnd_lanesGiven (p : Part) (c : Nat) (x : Context) : p.LanesEnd (p.lanesGiven c x) :=
  (Part.LanesEnd.of_same (p := p) (q := (p.tellPlanUnit c).tellVerifyUnit c) rfl rfl).trans
    ((Part.LanesEnd.foldl Part.lanesEnd_releaseLane _ x.reservation).trans
      (.foldl (f := fun q n => q.editLane n fun l => { l with holder := none }) Part.lanesEnd_freeLane _ x.reservation))

/-! ## Contexts ended (R101, R104) -/

/-- What ended contexts leave: all but the jobs, the lanes, what served them, their slots and tags, and the frames posted. -/
structure Part.WorkEnds (p q : Part) : Prop where
  rest : q = { p with
    plu := q.plu, vfu := q.vfu, sgp := q.sgp, ftu := q.ftu, svu := q.svu, smc := q.smc, hlk := q.hlk, ctx := q.ctx }
  memory : { q.smc with slots := [], fillQueue := [] } = { p.smc with slots := [], fillQueue := [] }
  generations : q.ctx.generations = p.ctx.generations
  tags : p.hlk.VoidsTo q.hlk
  lanes : p.LanesEnd q

theorem Part.WorkEnds.rfl {p : Part} : p.WorkEnds p := ⟨Eq.refl _, Eq.refl _, Eq.refl _, .rfl, .of_same (Eq.refl _) (Eq.refl _)⟩

theorem Part.WorkEnds.trans {p q r : Part} (one : p.WorkEnds q) (two : q.WorkEnds r) : p.WorkEnds r :=
  ⟨two.rest.trans (congrArg (fun q : Part => { q with
      plu := r.plu, vfu := r.vfu, sgp := r.sgp, ftu := r.ftu, svu := r.svu, smc := r.smc, hlk := r.hlk, ctx := r.ctx })
      one.rest),
    two.memory.trans one.memory, two.generations.trans one.generations, one.tags.trans two.tags, one.lanes.trans two.lanes⟩

/-- The memory but for its slots and the fills that wait. -/
def Part.memoryBeside (p : Part) : StagingMemory := { p.smc with slots := [], fillQueue := [] }

theorem besideSlots_memory : BesideSlots Part.memoryBeside := fun _ _ _ _ => rfl

theorem Part.memoryBeside_voidTag (p : Part) (tag : Tag) : (p.voidTag tag).memoryBeside = p.memoryBeside := by
  unfold Part.voidTag
  split <;> rfl

theorem Part.memoryBeside_releaseContext (p : Part) (c : Nat) : (p.releaseContext c).memoryBeside = p.memoryBeside := by
  cases inUse : p.context? c with
  | none => simp [Part.releaseContext, inUse]
  | some x =>
    have meaning : p.releaseContext c = (((x.lostList.filterMap LostEntry.requestedTag?).foldl Part.voidTag
        ((p.lanesGiven c x).detachOpener c)).editContext c Context.released).giveUpSlots
          (x.lostList.filterMap LostEntry.slot) := by
      simp only [Part.releaseContext, inUse]
      rfl
    rw [meaning, besideSlots_memory.giveUpSlots]
    have voided := foldl_reads Part.memoryBeside_voidTag ((p.lanesGiven c x).detachOpener c)
      (x.lostList.filterMap LostEntry.requestedTag?)
    refine (voided : _).trans ((besideSlots_memory.detachOpener _ c).trans ?_)
    rw [Part.lanesGiven_rest]
    rfl

theorem Part.workEnds_endContext (p : Part) (c : Nat) : p.WorkEnds (p.endContext c) := by
  cases inUse : p.context? c with
  | none =>
    have same : p.endContext c = p.freeContext c := by simp [Part.endContext, Part.releaseContext, inUse]
    rw [same]
    exact ⟨rfl, rfl, rfl, .rfl, .of_same rfl rfl⟩
  | some x =>
    have released := Part.releaseContext_releasedTo inUse
    have memory := p.memoryBeside_releaseContext c
    obtain ⟨before, same, voids⟩ := Part.hlk_releaseContext inUse
    obtain ⟨q, q_eq⟩ : ∃ q, q = p.releaseContext c := ⟨_, rfl⟩
    have ended : p.endContext c = q.freeContext c := by rw [q_eq]; rfl
    rw [ended]
    rw [← q_eq] at released memory voids
    have rest := released.rest
    rw [Part.lanesGiven_rest] at rest
    refine ⟨?_, memory, ?_, ?_, (Part.lanesEnd_lanesGiven p c x).trans (.of_same ?_ ?_)⟩
    · rw [rest]
      rfl
    · rw [rest]
      rfl
    · have tags := before.voidTags_hlk (x.lostList.filterMap LostEntry.requestedTag?)
      rw [same, ← voids] at tags
      exact tags
    · exact released.sgp_same
    · exact (congrArg Part.ftu released.rest :)

theorem Part.workEnds_endContexts (p : Part) (numbers : List Nat) : p.WorkEnds (numbers.foldl Part.endContext p) := by
  induction numbers generalizing p with
  | nil => exact .rfl
  | cons c rest ih => exact (p.workEnds_endContext c).trans (ih (p.endContext c))

/-! ## Claims withdrawn (R84) -/

/-- The WITHDRAW(HALT) of a stripe. -/
def haltFrame (epoch : Epoch) (t : StripeId) : ControlFrame :=
  { target := none, epoch := epoch, body := .withdraw t 0x04 0xFF 0 }

/-- WITHDRAW(HALT) posted for each of some entries. -/
def Part.withdrawAll (p : Part) (entries : List (Nat × ClaimEntry)) : Part :=
  entries.foldl (fun q r => q.withdrawPlain r.2.stripe .halt) p

theorem Part.withdrawAll_rest (p : Part) (entries : List (Nat × ClaimEntry)) :
    p.withdrawAll entries = { p with sgp := (p.withdrawAll entries).sgp } := by
  induction entries generalizing p with
  | nil => rfl
  | cons r rest ih =>
    exact (ih (p.withdrawPlain r.2.stripe .halt)).trans (congrArg (fun q : Part =>
      { q with sgp := ((p.withdrawPlain r.2.stripe .halt).withdrawAll rest).sgp })
      (Part.post_eq p none (.withdraw r.2.stripe (WithdrawReason.halt).code 0xFF#8 (maskOf []))))

theorem Part.holdsWith_withdrawAll (p : Part) (entries : List (Nat × ClaimEntry)) :
    p.HoldsWith (p.withdrawAll entries) entries.length := by
  induction entries generalizing p with
  | nil => exact .rfl
  | cons r rest ih =>
    exact ((Part.holdsWith_post p none (b := .withdraw r.2.stripe (WithdrawReason.halt).code 0xFF#8 (maskOf [])) rfl).trans
      (ih (p.withdrawPlain r.2.stripe .halt))).mono (by rw [List.length_cons, Nat.add_comm])

theorem Part.mem_withdrawAll {p : Part} {f : ControlFrame} (member : f ∈ p.sgp.control ++ p.sgp.hold)
    (noClaim : ∀ t, f.body.isClaimOf t = false) (entries : List (Nat × ClaimEntry)) :
    f ∈ (p.withdrawAll entries).sgp.control ++ (p.withdrawAll entries).sgp.hold := by
  induction entries generalizing p with
  | nil => exact member
  | cons r rest ih => exact ih (Part.mem_post member noClaim none _)

/-- Each WITHDRAW(HALT) waits, where the hold list has room for all of them. -/
theorem Part.mem_withdrawAll_self {p : Part} {entries : List (Nat × ClaimEntry)}
    (room : p.sgp.hold.length + entries.length ≤ 1024) {r : Nat × ClaimEntry} (member : r ∈ entries) :
    haltFrame p.prs.ownEpoch r.2.stripe ∈ (p.withdrawAll entries).sgp.control ++ (p.withdrawAll entries).sgp.hold := by
  induction entries generalizing p with
  | nil => cases member
  | cons first rest ih =>
    rw [List.length_cons] at room
    have posted := Part.post_eq p none (.withdraw first.2.stripe (WithdrawReason.halt).code 0xFF#8 (maskOf []))
    have held := (Part.holdsWith_post p none
      (b := .withdraw first.2.stripe (WithdrawReason.halt).code 0xFF#8 (maskOf [])) rfl).room
    rcases List.mem_cons.1 member with rfl | later
    · exact Part.mem_withdrawAll (p := p.withdrawPlain r.2.stripe .halt)
        (Part.mem_post_self (by omega) none (.withdraw r.2.stripe (WithdrawReason.halt).code 0xFF#8 (maskOf [])))
        (fun _ => rfl) rest
    · have follows := ih (p := p.withdrawPlain first.2.stripe .halt) (by
        change (p.withdrawPlain first.2.stripe .halt).sgp.hold.length ≤ _ at held
        omega) later
      rw [show (p.withdrawPlain first.2.stripe .halt).prs = p.prs from (congrArg Part.prs posted :)] at follows
      exact follows

/-- Where the control queue has room for all, each WITHDRAW(HALT) joins it, in the order of the entries (R84, R158). -/
theorem Part.withdrawAll_queued {p : Part} {entries : List (Nat × ClaimEntry)} (room : p.roomFor entries.length)
    (fresh : ∀ r ∈ entries, p.claimWaits r.2.stripe = false) : p.withdrawAll entries =
      { p with sgp := { p.sgp with
        control := p.sgp.control ++ entries.map fun r => haltFrame p.prs.ownEpoch r.2.stripe } } := by
  induction entries generalizing p with
  | nil => simp [Part.withdrawAll]
  | cons first rest ih =>
    have open_ : p.queueOpen := Part.queueOpen_of_roomFor _ (Nat.le_add_left 1 rest.length) room
    have posted : p.withdrawPlain first.2.stripe .halt = p.queued none (.withdraw first.2.stripe 0x04 0xFF 0) :=
      Part.withdrawPlain_queued .halt open_ (fresh first List.mem_cons_self)
    have step : p.withdrawAll (first :: rest) = (p.queued none (.withdraw first.2.stripe 0x04 0xFF 0)).withdrawAll rest := by
      rw [← posted]
      rfl
    rw [step, ih]
    · simp [Part.queued, haltFrame]
    · obtain ⟨noneHeld, few⟩ := room
      refine ⟨noneHeld, ?_⟩
      rw [List.length_cons] at few
      rw [show (p.queued none (.withdraw first.2.stripe 0x04 0xFF 0)).sgp.control = p.sgp.control ++
        [haltFrame p.prs.ownEpoch first.2.stripe] from rfl, List.filter_append, List.length_append]
      have one : ([haltFrame p.prs.ownEpoch first.2.stripe].filter fun f => !f.body.isBeacon).length = 1 := rfl
      rw [one]
      omega
    · intro r member
      have waits := fresh r (List.mem_cons_of_mem _ member)
      simp only [Part.claimWaits, List.any_append, Bool.or_eq_false_iff] at waits ⊢
      refine ⟨?_, waits.2⟩
      rw [show (p.queued none (.withdraw first.2.stripe 0x04 0xFF 0)).sgp.control = p.sgp.control ++
        [haltFrame p.prs.ownEpoch first.2.stripe] from rfl, List.any_append, waits.1]
      rfl

end Sys2Proof.Machine

/-! HALT as a whole (R19, R49, R51, R84, R141, R151, R159, R167, R168). -/

namespace Sys2Proof.Machine

/-! ## The pass that HALT ends (R49, R51) -/

theorem returnTriggers_row? (pending triggers : Table Bool) (rising : triggers.rising = true) (rack : Nat) :
    (triggers.foldl (fun t r => t.setRow r.1 (r.2 || (t.row? r.1).getD false)) pending).row? rack =
      ((triggers.row? rack).map fun held => held || (pending.row? rack).getD false).or (pending.row? rack) := by
  induction triggers generalizing pending with
  | nil => rfl
  | cons first rest ih =>
    obtain ⟨i, held⟩ := first
    obtain ⟨above, rising'⟩ := (Table.rising_cons i held rest).1 rising
    rw [List.foldl_cons, ih _ rising', Table.row?_setRow]
    by_cases here : rack = i
    · have absent : Table.row? rest rack = none := by
        cases row : Table.row? rest rack with
        | none => rfl
        | some b =>
          have later := above _ (Table.row?_mem row)
          dsimp only at later
          omega
      rw [absent, here]
      simp [Table.row?]
    · simp [Table.row?, here, Ne.symm here]

/-! ## What HALT leaves (R167) -/

theorem Part.withdrawAtHalt_of_same {p q : Part} (sgp : q.sgp = p.sgp) :
    q.withdrawAtHalt = { q with sgp := p.withdrawAtHalt.sgp } := by
  simp only [Part.withdrawAtHalt, Part.withdrawFrames, Part.serveHeld, Part.freeControlPlaces, sgp]

theorem Part.voidTag_noSlots {p : Part} (tag : Tag) (noSlots : p.smc.slots = []) :
    p.voidTag tag = { p with hlk := (p.voidTag tag).hlk } := by
  unfold Part.voidTag
  split
  · have kept : (p.endTag tag).smc = p.smc := by
      simp only [Part.endTag, noSlots, List.map_nil]
      rw [← noSlots]
    exact congrArg (fun smc => ({ (p.endTag tag) with
      smc := smc
      hlk := { (p.endTag tag).hlk with
        reportQueue := (p.endTag tag).hlk.reportQueue.map fun r =>
          if r.report.tag? = some tag then { r with tagVoid := true } else r } } : Part)) kept
  · rfl

theorem Part.voidAllTags_noSlots {p : Part} (noSlots : p.smc.slots = []) :
    p.voidAllTags = { p with hlk := p.voidAllTags.hlk } := by
  have voided (tags : List Tag) (q : Part) (noSlots : q.smc.slots = []) :
      tags.foldl Part.voidTag q = { q with hlk := (tags.foldl Part.voidTag q).hlk } := by
    induction tags generalizing q with
    | nil => rfl
    | cons tag rest ih =>
      have first := Part.voidTag_noSlots tag noSlots
      have none_ : (q.voidTag tag).smc.slots = [] := (congrArg (fun q : Part => q.smc.slots) first).trans noSlots
      exact (ih (q.voidTag tag) none_).trans (congrArg (fun x : Part =>
        { x with hlk := (rest.foldl Part.voidTag (q.voidTag tag)).hlk }) first)
  exact congrArg (fun q : Part => { q with hlk := p.voidAllTags.hlk }) (voided p.outstandingTags p noSlots)

/-- The announced entries of the claim table. -/
def Part.announcedClaims (p : Part) : List (Nat × ClaimEntry) := p.clt.entries.filter fun r => r.2.announced

/-- The part after HALT, given the part with the contexts ended and the contents of the DRAM (R167). -/
def Part.halted (p b : Part) (d : Dram) : Part :=
  { p with
    hdt := p.hdt.map fun r => (r.1, { r.2 with standing := .quiet, lost := [], outside := none })
    scn := p.abandonPass.scn
    rq := []
    rqWait := none
    clt := { entries := [], owned := [] }
    ctx := { p.ctx with contexts := [] }
    plu := { queue := [], job := none }
    ftu := p.ftu.map fun r => (r.1, r.2.idled)
    svu := ServeUnit.reset
    cbe := CombineEngine.reset
    vfu := { queue := [], job := none }
    smc := { p.smc with dram := d, slots := [], fillQueue := [], fill := none }
    sgp := (b.withdrawAll p.announcedClaims).withdrawAtHalt.sgp
    hlk := { p.hlk with
      phase := .halted
      stageTags := []
      storeTags := []
      reportQueue := p.hlk.reportQueue.filter fun r =>
        !r.tagVoid && !(r.report.tag?.any (p.hlk.stageTags ++ p.hlk.storeTags).contains) } }

theorem Part.haltPart_eq {p : Part} (rising : p.hdt.rising = true) : ∃ b x : Part,
    b = p.abandonPass.ctx.contexts.numbers.foldl Part.endContext p.abandonPass ∧ p.abandonPass.WorkEnds b
      ∧ p.imagesFollow x
      ∧ x.hdt = (p.hdt.map fun r => (r.1, { r.2 with standing := .quiet, lost := [], outside := none }))
      ∧ x.smc.fill = p.smc.fill ∧ x.cbe = p.cbe ∧ p.haltPart = p.halted b x.cutShort := by
  obtain ⟨b, b_eq⟩ : ∃ b, b = p.abandonPass.ctx.contexts.numbers.foldl Part.endContext p.abandonPass := ⟨_, rfl⟩
  have ends : p.abandonPass.WorkEnds b := b_eq ▸ Part.workEnds_endContexts _ _
  have b_rest : b = { p with
      scn := p.abandonPass.scn
      plu := b.plu, vfu := b.vfu, sgp := b.sgp, ftu := b.ftu, svu := b.svu, smc := b.smc, hlk := b.hlk, ctx := b.ctx } :=
    ends.rest
  have memory := ends.memory
  have generations := ends.generations
  have idled := ends.lanes.idled
  have voids := ends.tags
  have w_rest := Part.withdrawAll_rest b p.announcedClaims
  obtain ⟨w, w_eq⟩ : ∃ w, w = b.withdrawAll p.announcedClaims := ⟨_, rfl⟩
  rw [← w_eq] at w_rest
  obtain ⟨c, c_eq⟩ : ∃ c : Part, c = { w with clt := { entries := [], owned := [] }, rq := [] } := ⟨_, rfl⟩
  have c_rest : c = { p with
      scn := p.abandonPass.scn
      rq := []
      clt := { entries := [], owned := [] }
      plu := b.plu, vfu := b.vfu, sgp := w.sgp, ftu := b.ftu, svu := b.svu, smc := b.smc, hlk := b.hlk, ctx := b.ctx } := by
    rw [c_eq, w_rest, b_rest]
  have dram : b.smc.dram = p.smc.dram := (congrArg StagingMemory.dram memory :)
  obtain ⟨table, same, -, images⟩ := Part.quietAll_spec c (by rw [c_rest]; exact rising)
  obtain ⟨x, x_eq⟩ : ∃ x, x = c.quietAll := ⟨_, rfl⟩
  rw [← x_eq] at table same images
  have x_rest : x = { c with hdt := x.hdt, smc := { c.smc with dram := x.smc.dram } } :=
    (congrArg (fun r : Part => { r with hdt := x.hdt, smc := { r.smc with dram := x.smc.dram } }) same :)
  have hdt : x.hdt = p.hdt.map fun r => (r.1, { r.2 with standing := .quiet, lost := [], outside := none }) := by
    rw [table, c_rest]
  refine ⟨b, x, b_eq, ends, ?_, hdt, ?_, ?_, ?_⟩
  · exact Part.imagesFollow_congr images (by rw [c_rest]) (by rw [c_rest]; exact dram.symm) (by rw [c_rest]) rfl rfl
  · rw [x_rest, c_rest]
    exact (congrArg StagingMemory.fill memory :)
  · rw [x_rest, c_rest]
  · have meaning : p.haltPart = Part.enter ((x.setDram x.cutShort).emptyBlocks.withdrawAtHalt.voidAllTags) .halted := by
      have claims : b.withdrawClaims = w := by
        rw [w_eq, Part.withdrawClaims, Part.withdrawAll, Part.announcedClaims,
          show b.clt = p.clt from (congrArg Part.clt b_rest :)]
      rw [x_eq, c_eq, ← claims, b_eq]
      rfl
    obtain ⟨e, e_eq⟩ : ∃ e, e = (x.setDram x.cutShort).emptyBlocks := ⟨_, rfl⟩
    have sgp : e.sgp = w.sgp := by rw [e_eq, x_rest, c_rest]; rfl
    have halts := Part.withdrawAtHalt_of_same sgp
    have noSlots : e.withdrawAtHalt.smc.slots = [] := by rw [halts, e_eq]; rfl
    have link : e.withdrawAtHalt.hlk = b.hlk := by rw [halts, e_eq, x_rest, c_rest]; rfl
    have tags := Part.voidAllTags_hlk (p := p) (q := e.withdrawAtHalt) (by rw [link]; exact voids)
    rw [meaning, ← e_eq, Part.voidAllTags_noSlots noSlots, tags, halts, w_eq, e_eq]
    generalize x.cutShort = d
    rw [x_rest, c_rest]
    have ctx : ({ b.ctx with contexts := [] } : ContextArray) = { p.ctx with contexts := [] } :=
      congrArg (ContextArray.mk []) generations
    have ftu : (b.ftu.map fun r => (r.1, r.2.idled)) = p.ftu.map fun r => (r.1, r.2.idled) := idled
    have smc : ({ b.smc with dram := d, slots := [], fillQueue := [], fill := none } : StagingMemory) =
        { p.smc with dram := d, slots := [], fillQueue := [], fill := none } :=
      (congrArg (fun m : StagingMemory => { m with dram := d, fill := none }) memory :)
    rw [Part.halted, ← ctx, ← ftu, ← smc, ← hdt]
    rfl

end Sys2Proof.Machine

/-! HALT settled (R167). -/

namespace Sys2Proof.Machine

/-! ## The frames that HALT leaves (R159) -/

theorem Part.withdrawAtHalt_frames (p : Part) : p.withdrawAtHalt.sgp.control ++ p.withdrawAtHalt.sgp.hold =
    (p.sgp.control ++ p.sgp.hold).filter fun f => !f.body.withdrawnAtHalt := by
  rw [List.filter_append]
  exact Part.serveHeld_frames _

/-- Frames that are still held leave the control queue full. -/
theorem Part.serveHeld_full {p : Part} (noBeacon : ∀ f ∈ p.sgp.hold, f.body.isBeacon = false)
    (held : p.serveHeld.sgp.hold ≠ []) :
    63 ≤ (p.serveHeld.sgp.control.filter fun f => !f.body.isBeacon).length := by
  have more : p.freeControlPlaces < p.sgp.hold.length := by
    by_contra few
    exact held (List.drop_eq_nil_of_le (Nat.not_lt.1 few))
  have all : (p.sgp.hold.take p.freeControlPlaces).filter (fun f => !f.body.isBeacon) =
      p.sgp.hold.take p.freeControlPlaces :=
    List.filter_eq_self.2 fun f member => by rw [noBeacon f (List.mem_of_mem_take member)]; rfl
  have count : (p.serveHeld.sgp.control.filter fun f => !f.body.isBeacon).length =
      (p.sgp.control.filter fun f => !f.body.isBeacon).length + p.freeControlPlaces := by
    rw [show p.serveHeld.sgp.control = p.sgp.control ++ p.sgp.hold.take p.freeControlPlaces from rfl, List.filter_append,
      List.length_append, all, List.length_take, Nat.min_eq_left (Nat.le_of_lt more)]
  rw [count, Part.freeControlPlaces, show controlPlaces = 63 from rfl]
  omega

theorem Part.withdrawAtHalt_full {p : Part} (noBeacon : ∀ f ∈ p.sgp.hold, f.body.isBeacon = false)
    (held : p.withdrawAtHalt.sgp.hold ≠ []) :
    63 ≤ (p.withdrawAtHalt.sgp.control.filter fun f => !f.body.isBeacon).length :=
  Part.serveHeld_full (p := { p with sgp := { p.sgp with
    control := p.sgp.control.filter fun f => !f.body.withdrawnAtHalt
    hold := p.sgp.hold.filter fun f => !f.body.withdrawnAtHalt } })
    (fun f member => noBeacon f (List.mem_filter.1 member).1) held

/-- Where nothing is held HALT leaves the other frames in the control queue. -/
theorem Part.withdrawAtHalt_noneHeld {p : Part} (noneHeld : p.sgp.hold = []) : p.withdrawAtHalt.sgp =
    { p.sgp with control := p.sgp.control.filter fun f => !f.body.withdrawnAtHalt, data := [] } := by
  simp [Part.withdrawAtHalt, Part.withdrawFrames, Part.serveHeld, noneHeld]

/-! ## The DRAM that HALT leaves (R141, R151) -/

theorem Part.halted_byte {p x : Part} (images : p.imagesFollow x)
    (hdt : x.hdt = p.hdt.map fun r => (r.1, { r.2 with standing := .quiet, lost := [], outside := none }))
    (within : ∀ r ∈ p.hdt, r.1 < 131072) {a : Nat} (slots : 32 * 1048576 ≤ a) : x.smc.dram.byte a = p.smc.dram.byte a := by
  have absent : p.hdt.row? (a / 256) = none := by
    cases row : p.hdt.row? (a / 256) with
    | none => rfl
    | some r =>
      have small := within _ (Table.row?_mem row)
      dsimp only at small
      omega
  refine images.1 a (absent.trans (Eq.symm ?_))
  rw [hdt, Table.row?_map p.hdt (a / 256) fun _ r => { r with standing := .quiet, lost := [], outside := none }, absent]
  rfl

theorem Part.cutShort_fill {x : Part} {f : FillRequest} (fill : x.smc.fill = some f) (idle : x.cbe.operation = none) (a : Nat) :
    x.cutShort.byte a = x.smc.dram.byte a
      ∨ ((32 + f.slot) * 1048576 ≤ a ∧ a < (33 + f.slot) * 1048576 ∧ x.cutShort.byte a = 0) := by
  have cut : x.cutShort = x.smc.dram.cutZeroBlock (slotBlock f.slot) := by simp only [Part.cutShort, fill, idle]
  rw [cut, Dram.byte_cutZeroBlock]
  split
  next inside =>
    obtain ⟨block, -⟩ := inside
    rw [show Config.mebibyte = 1048576 from rfl, show slotBlock f.slot = 32 + f.slot from rfl] at block
    exact .inr ⟨by omega, by omega, rfl⟩
  next => exact .inl rfl

theorem Part.cutShort_combine {x : Part} {o : CombineOperation} {slot : Nat} {coefficient : Byte} (fill : x.smc.fill = none)
    (operation : x.cbe.operation = some o) (target : o.targets = [(slot, coefficient)]) (a : Nat) :
    x.cutShort.byte a = x.smc.dram.byte a
      ∨ ∃ i b, o.operand[i]? = some b ∧ a = (32 + slot) * 1048576 + o.request.chunk * 8192 + i
        ∧ x.cutShort.byte a = x.smc.dram.byte a ^^^ fieldMul coefficient b := by
  have cut : x.cutShort =
      x.smc.dram.cutCombine (slotOffset slot + o.request.chunk * chunkSize) coefficient o.operand := by
    simp only [Part.cutShort, fill, operation, target, List.foldl_cons, List.foldl_nil]
  rw [cut, Dram.cutCombine]
  split
  · exact .inl rfl
  · rw [Dram.byte_cutWrite]
    split
    next inside =>
      obtain ⟨first, last, -⟩ := inside
      rw [contribute, List.length_zipWith, Dram.length_bytes, Nat.min_self] at last
      obtain ⟨i, i_eq⟩ : ∃ i, i = a - (slotOffset slot + o.request.chunk * chunkSize) := ⟨_, rfl⟩
      have short : i < o.operand.length := by omega
      have place : a = slotOffset slot + o.request.chunk * chunkSize + i := by omega
      refine .inr ⟨i, o.operand[i], List.getElem?_eq_getElem short, place, ?_⟩
      rw [← i_eq, contribute, List.getElem?_zipWith, List.getElem?_eq_getElem short,
        List.getElem?_eq_getElem (by rw [Dram.length_bytes]; exact short), place]
      simp [Dram.bytes]
    next => exact .inl rfl

/-- Settles O12. -/
theorem haltEndsAllWork : Obligations.HaltEndsAllWork := by
  intro w p taken running rising
  obtain ⟨b, x, b_eq, ends, images, hdt, fill, cbe, halts⟩ := Part.haltPart_eq rising
  have accepted : (Part.whileRunning p fun r => .ok r.haltPart) = .ok (p.halted b x.cutShort) := by
    rw [Part.whileRunning_running running, halts]
  refine leads_of_accepted (s := ⟨w, p⟩) rfl taken accepted fun k m => ?_
  obtain ⟨z, z_eq⟩ : ∃ z, z = b.withdrawAll p.announcedClaims := ⟨_, rfl⟩
  have bSgp : b.prs = p.prs := (congrArg Part.prs ends.rest :)
  have frames : z.withdrawAtHalt.sgp.control ++ z.withdrawAtHalt.sgp.hold = _ := z.withdrawAtHalt_frames
  have holds : b.HoldsWith z p.announcedClaims.length := z_eq ▸ Part.holdsWith_withdrawAll b p.announcedClaims
  have queued (noContext : p.ctx.contexts = []) (room : p.roomFor p.announcedClaims.length)
      (fresh : ∀ r ∈ p.clt.entries, r.2.announced = true → p.claimWaits r.2.stripe = false) :
      z.withdrawAtHalt.sgp.hold = [] ∧ z.withdrawAtHalt.sgp.drops = p.sgp.drops
        ∧ z.withdrawAtHalt.sgp.control = (p.sgp.control.filter fun f => !f.body.withdrawnAtHalt)
          ++ p.announcedClaims.map fun r => haltFrame p.prs.ownEpoch r.2.stripe := by
    have b_still : b = p.abandonPass := by
      rw [b_eq, show p.abandonPass.ctx.contexts = [] from noContext]
      rfl
    have z_queued := Part.withdrawAll_queued (p := p.abandonPass) (entries := p.announcedClaims) room fun r member =>
      fresh r (List.mem_filter.1 member).1 (List.mem_filter.1 member).2
    rw [b_still] at z_eq
    have sgp := (congrArg Part.sgp (z_eq.trans z_queued) :)
    have noneHeld : z.sgp.hold = [] := (congrArg SegmentPort.hold sgp).trans room.1
    rw [Part.withdrawAtHalt_noneHeld noneHeld, sgp]
    refine ⟨room.1, rfl, ?_⟩
    dsimp only
    rw [List.filter_append]
    congr 1
    exact List.filter_eq_self.2 fun f member => by
      obtain ⟨r, -, rfl⟩ := List.mem_map.1 member
      rfl
  have sgp_eq : (p.halted b x.cutShort).sgp = z.withdrawAtHalt.sgp := by rw [z_eq]; rfl
  refine ⟨rfl, rfl, rfl, fun noTriggers => ?_, fun order rack => ?_, rfl, rfl, rfl, rfl, rfl, rfl, rfl, rfl, rfl, rfl, rfl, rfl,
    rfl, fun noFill idle => ?_, fun f fills idle within a slots => ?_, fun o slot coefficient noFill combines target within a
      slots => ?_, rfl, rfl, rfl, rfl, rfl, ?_, rfl, rfl, rfl, rfl, ?_, fun f member => ?_, fun noBeacon held => ?_,
    fun room r member told => ?_, fun noContext room fresh => ?_, fun noContext noControl noneHeld few => ?_⟩
  · exact (show p.abandonPass.scn.pending = p.scn.pending by
      rw [show p.abandonPass.scn.pending = p.scn.triggers.foldl
        (fun t r => t.setRow r.1 (r.2 || (t.row? r.1).getD false)) p.scn.pending from rfl, noTriggers]
      rfl)
  · have row := returnTriggers_row? p.scn.pending p.scn.triggers order rack
    refine (row : _).trans ?_
    cases p.scn.triggers.row? rack <;> rfl
  · have still : x.cutShort = x.smc.dram := by simp only [Part.cutShort, fill, noFill, cbe, idle]
    exact Part.imagesFollow_congr images rfl rfl rfl hdt.symm still
  · have written := Part.cutShort_fill (x := x) (fill.trans fills) (by rw [cbe]; exact idle) a
    rw [Part.halted_byte images hdt within slots] at written
    exact written
  · have written := Part.cutShort_combine (x := x) (fill.trans noFill) (by rw [cbe]; exact combines) target a
    rw [Part.halted_byte images hdt within slots] at written
    exact written
  · rw [show (p.halted b x.cutShort).sgp.wire = z.withdrawAtHalt.sgp.wire from congrArg SegmentPort.wire sgp_eq]
    exact holds.wire.trans ends.lanes.wire
  · refine List.filter_congr fun r _ => ?_
    cases r.report.tag? <;> rfl
  · rw [show (p.halted b x.cutShort).sgp = z.withdrawAtHalt.sgp from sgp_eq, frames] at member
    simpa using (List.mem_filter.1 member).2
  · rw [show (p.halted b x.cutShort).sgp = z.withdrawAtHalt.sgp from sgp_eq] at held ⊢
    exact Part.withdrawAtHalt_full (holds.held (ends.lanes.held noBeacon)) held
  · rw [show (p.halted b x.cutShort).sgp = z.withdrawAtHalt.sgp from sgp_eq, frames]
    have wide : b.sgp.hold.length + p.announcedClaims.length ≤ 1024 := by
      have lanes : b.sgp.hold.length + b.lanesInUse ≤ p.sgp.hold.length + p.lanesInUse := ends.lanes.room
      have uses : p.lanesInUse ≤ p.ftu.length := List.length_filter_le _ _
      have claims : p.announcedClaims.length ≤ p.clt.entries.length := List.length_filter_le _ _
      omega
    have waits := Part.mem_withdrawAll_self wide (List.mem_filter.2 ⟨member, told⟩)
    rw [bSgp, ← z_eq] at waits
    exact List.mem_filter.2 ⟨waits, rfl⟩
  · rw [show (p.halted b x.cutShort).sgp = z.withdrawAtHalt.sgp from sgp_eq]
    exact queued noContext room fresh
  · rw [show (p.halted b x.cutShort).sgp = z.withdrawAtHalt.sgp from sgp_eq]
    have room : p.roomFor p.announcedClaims.length := ⟨noneHeld, by
      rw [noControl, List.filter_nil, List.length_nil, Nat.zero_add]
      exact few⟩
    obtain ⟨hold, drops, control⟩ := queued noContext room fun r _ _ => by simp [Part.claimWaits, noControl, noneHeld]
    rw [noControl] at control
    exact ⟨hold, drops, control⟩

end Sys2Proof.Machine

/-! A BEACON: how it reaches the roster, and what PEER-PRESENT and a rack's return make of the part (R38, R40, R44, R55,
R91). -/

namespace Sys2Proof.Machine

/-! ## Reception (R38, R156) -/

theorem PeerStatus.ofCode?_code (said : PeerStatus) : PeerStatus.ofCode? said.code = some said := by
  cases said <;> rfl

theorem FrameBody.beacon_valid {rack contexts : Byte} (said : PeerStatus) (isRack : rack.toNat ≤ 15) :
    (FrameBody.beacon rack said.code contexts).valid = true := by
  simp [FrameBody.valid, PeerStatus.ofCode?_code, isRack]

section
variable {p : Part} {h : FrameHeader} {before : Peer} (segment : p.onSegment = true)
  (traffic : p.takesFrame h.destination h.etherType = true) (other : h.sender.toNat ≠ p.own) (target : h.target = 0xFF#8)
  (member : p.peer? h.sender.toNat = some before)
include segment traffic other target member

theorem beacon_effect (w : List Instr) {rack contexts : Byte} (said : PeerStatus) (isRack : rack.toNat ≤ 15) :
    ∃ f : Part → Part, exec (.beacon h rack said.code contexts) ⟨w, p⟩ = run ⟨w, p⟩ f
      ∧ f p = p.takeBeacon h rack said.code contexts := by
  refine ⟨_, rfl, ?_⟩
  have passes : p.receiveCheck h (.beacon rack said.code contexts) = none := by
    rw [Part.receiveCheck_member _ other member, FrameBody.beacon_valid said isRack, target]
    rfl
  simp [segment, traffic, passes]

theorem beacon_answers {q : Part} (w : List Instr) {rack contexts : Byte} (said : PeerStatus) (isRack : rack.toNat ≤ 15)
    (effect : p.takeBeacon h rack said.code contexts = q) : Answers (.beacon h rack said.code contexts) ⟨w, p⟩ q := by
  obtain ⟨f, meaning, taken⟩ := beacon_effect segment traffic other target member w said isRack (contexts := contexts)
  exact answers_of_effect meaning (congrArg Part.unmarked (taken.trans effect))

/-- A BEACON whose rack byte is not the configured rack of its sender is dropped and counted (R38). -/
theorem beacon_otherRack (w : List Instr) {rack contexts : Byte} (said : PeerStatus) (differs : rack.toNat ≠ before.rack) :
    Answers (.beacon h rack said.code contexts) ⟨w, p⟩ (p.counted .body) := by
  by_cases isRack : rack.toNat ≤ 15
  · refine beacon_answers segment traffic other target member w said isRack ?_
    rw [Part.takeBeacon]
    simp only [member]
    rw [if_pos differs, Part.dropFrame_counted p (by decide)]
  · refine arrival_dropped (b := .beacon rack said.code contexts) (k := .body) w segment traffic ?_
      (Part.dropFrame_counted p (by decide))
    have invalid : (FrameBody.beacon rack said.code contexts).valid = false := by
      simp [FrameBody.valid, isRack]
    rw [Part.receiveCheck_member _ other member, invalid, target]
    rfl

end

/-- What the roster makes of a BEACON that it takes: the part as heard, and by the state of the sender's record (R38, R40,
R41). -/
theorem Part.takeBeacon_member {p : Part} {h : FrameHeader} {before : Peer} {rack contexts : Byte} (said : PeerStatus)
    (member : p.peer? h.sender.toNat = some before) (same : rack.toNat = before.rack) {heard : Part}
    (heard_eq : heard = p.editPeer h.sender.toNat fun r =>
      { r with heard := true, status := some said, load := some contexts.toNat }) :
    (before.state = .absent → p.takeBeacon h rack said.code contexts =
        (heard.editPeer h.sender.toNat fun r =>
          { r.nowPresent with link := some h.source, epoch := some h.epoch }).deliverPeerPresent)
      ∧ (before.state = .lost → p.takeBeacon h rack said.code contexts =
        ((heard.editPeer h.sender.toNat fun r =>
          { r.nowPresent with link := some h.source, epoch := some h.epoch }).deliverPeerPresent).rackReturns before.rack)
      ∧ (before.state = .silent → p.takeBeacon h rack said.code contexts =
        if before.epoch = some h.epoch then (heard.editPeer h.sender.toNat Peer.nowPresent).deliverPeerPresent
        else ((heard.peerRestarts h.sender.toNat h).editPeer h.sender.toNat Peer.nowPresent).deliverPeerPresent)
      ∧ (before.state = .present → p.takeBeacon h rack said.code contexts =
        if before.epoch = some h.epoch then heard else heard.peerRestarts h.sender.toNat h) := by
  rw [Part.takeBeacon]
  simp only [member, PeerStatus.ofCode?_code]
  rw [if_neg (not_not.2 same), ← heard_eq]
  refine ⟨fun state => ?_, fun state => ?_, fun state => ?_, fun state => ?_⟩ <;> rw [state]

theorem Part.editPeer_editPeer (p : Part) (station : Nat) (f g : Peer → Peer) :
    (p.editPeer station f).editPeer station g = p.editPeer station fun r => g (f r) :=
  congrArg (fun t => { p with prs := { p.prs with peers := t } }) (Table.editRow_editRow p.prs.peers station f g)

/-! ## PEER-PRESENT (R47, R91) -/

/-- The context waits in PLAN-WAIT. -/
def Context.waitsPlan (x : Context) : Bool := x.live && x.state == .planWait

theorem Context.waitsPlan_iff (x : Context) : x.waitsPlan = true ↔ x.pendingOutcome = none ∧ x.state = .planWait := by
  simp [Context.waitsPlan, Context.live]

/-- The context back in PLANNING, if it waits in PLAN-WAIT. -/
def Context.plansAgain (x : Context) : Context := if x.waitsPlan then { x with state := .planning } else x

/-- PEER-PRESENT at one context. -/
def Part.contextPeerPresent (p : Part) (c : Nat) : Part :=
  match p.context? c with
  | none => p
  | some x => if x.waitsPlan then p.enterPlanning c else p

/-- The context of a number waits in PLAN-WAIT. -/
def Part.planWaits (p : Part) (c : Nat) : Bool := (p.context? c).any Context.waitsPlan

/-- The part with other contexts and with plan jobs posted. -/
def Part.withPlanJobs (p : Part) (contexts : Table Context) (jobs : List Nat) : Part :=
  { p with ctx := { p.ctx with contexts := contexts }, plu := { p.plu with queue := p.plu.queue ++ jobs } }

theorem Part.contextPeerPresent_eq {p : Part} (rising : p.ctx.contexts.rising = true) (c : Nat) : p.contextPeerPresent c =
    p.withPlanJobs (p.ctx.contexts.editRow c Context.plansAgain) (if p.planWaits c then [c] else []) := by
  have stands (quiet : p.planWaits c = false) : p =
      p.withPlanJobs (p.ctx.contexts.editRow c Context.plansAgain) (if p.planWaits c then [c] else []) := by
    have same : p.ctx.contexts.editRow c Context.plansAgain = p.ctx.contexts := Table.editRow_same rising fun x row => by
      rw [Part.planWaits, show p.context? c = some x from row] at quiet
      exact if_neg (by simpa using quiet)
    rw [quiet, same]
    simp [Part.withPlanJobs]
  cases row : p.context? c with
  | none =>
    rw [Part.contextPeerPresent, row]
    exact stands (by rw [Part.planWaits, row]; rfl)
  | some x =>
    have waits_eq : p.planWaits c = x.waitsPlan := by rw [Part.planWaits, row]; rfl
    cases waits : x.waitsPlan with
    | false =>
      simp only [Part.contextPeerPresent, row, waits]
      exact stands (waits_eq.trans waits)
    | true =>
      have edited : p.ctx.contexts.editRow c (fun y => { y with state := .planning }) =
          p.ctx.contexts.editRow c Context.plansAgain := Table.editRow_congr rising fun a there => by
        obtain rfl := Option.some.inj (row.symm.trans there)
        exact (if_pos waits).symm
      simp only [Part.contextPeerPresent, row, waits, waits_eq, if_true, Part.enterPlanning, Part.editContext, edited]
      rfl

theorem Part.foldl_contextPeerPresent {p : Part} (rising : p.ctx.contexts.rising = true) {l : List Nat} (nodup : l.Nodup) :
    l.foldl Part.contextPeerPresent p =
      p.withPlanJobs (l.foldl (fun t c => t.editRow c Context.plansAgain) p.ctx.contexts) (l.filter p.planWaits) := by
  induction l generalizing p with
  | nil => simp [Part.withPlanJobs]
  | cons c rest ih =>
    obtain ⟨fresh, nodup⟩ := List.nodup_cons.1 nodup
    rw [List.foldl_cons, Part.contextPeerPresent_eq rising c, ih ((Table.rising_editRow _ _ _).trans rising) nodup]
    have later : rest.filter (p.withPlanJobs (p.ctx.contexts.editRow c Context.plansAgain)
        (if p.planWaits c then [c] else [])).planWaits = rest.filter p.planWaits := List.filter_congr fun d member => by
      have differs : d ≠ c := fun same => fresh (same ▸ member)
      refine congrArg (Option.any Context.waitsPlan) ((Table.row?_editRow _ _ _ _).trans (if_neg ?_))
      exact differs
    rw [later, List.filter_cons]
    cases p.planWaits c <;> simp [Part.withPlanJobs]

/-- PEER-PRESENT: every context of PLAN-WAIT plans again, in ascending number (R47, R91). -/
theorem Part.deliverPeerPresent_eq {p : Part} (rising : p.ctx.contexts.rising = true) :
    p.deliverPeerPresent = p.planningAgain := by
  have fold : p.deliverPeerPresent = p.ctx.contexts.numbers.foldl Part.contextPeerPresent p := rfl
  have contexts := Table.foldl_numbers (fun _ => Context.plansAgain) rising
  have jobs : p.ctx.contexts.numbers.filter p.planWaits =
      (p.ctx.contexts.filter fun r => r.2.pendingOutcome = none ∧ r.2.state = .planWait).map Prod.fst := by
    rw [Table.numbers, List.filter_map]
    refine congrArg (List.map Prod.fst) (List.filter_congr fun r member => ?_)
    have row : p.context? r.1 = some r.2 := Table.row?_of_mem rising member
    have waits : p.planWaits r.1 = r.2.waitsPlan := by rw [Part.planWaits, row]; rfl
    rw [Function.comp_apply, waits, Bool.eq_iff_iff, Context.waitsPlan_iff, decide_eq_true_iff]
  have table : (p.ctx.contexts.map fun r => (r.1, r.2.plansAgain)) = p.ctx.contexts.map fun r =>
      if r.2.pendingOutcome = none ∧ r.2.state = .planWait then (r.1, { r.2 with state := .planning }) else r := by
    refine List.map_congr_left fun r _ => ?_
    by_cases waits : r.2.pendingOutcome = none ∧ r.2.state = .planWait
    · rw [if_pos waits, Context.plansAgain, if_pos ((Context.waitsPlan_iff _).2 waits)]
    · rw [if_neg waits, Context.plansAgain, if_neg fun h => waits ((Context.waitsPlan_iff _).1 h)]
  rw [fold, Part.foldl_contextPeerPresent rising (Table.nodup_numbers rising), contexts, jobs, table]
  rfl

/-! ## A rack returns to UP (R44, R55) -/

theorem Part.rackReturns_not {p : Part} {rack : Nat} (state : p.rackState rack ≠ .down) : p.rackReturns rack = p :=
  if_neg state

theorem Part.rackReturns_notHeld {p : Part} {rack : Nat} (down : p.rackState rack = .down) (pass : p.scn.pass ≠ .held) :
    p.rackReturns rack = Part.flagged
      { p with
        scn := { p.scn with pending := p.scn.pending.setRow rack false }
        prs := { p.prs with racks := p.prs.racks.editRow rack fun r => { r with state := .up } } } .rack := by
  rw [Part.rackReturns, if_pos down, Part.setFlag_eq_flagged, Part.releaseTrigger]
  exact congrArg (fun q : Part => q.flagged .rack) (if_neg pass)

theorem Part.releaseTrigger_held {p : Part} (rack : Nat) (pass : p.scn.pass = .held) : p.releaseTrigger rack =
    { p with
      scn := { p.scn with
        triggers := p.scn.triggers.editRow rack fun _ => false
        pass := if ∃ r ∈ p.scn.triggers.editRow rack fun _ => false, r.2 = true then .held else .walking } } := by
  have marks : ((p.scn.triggers.editRow rack fun _ => false).any fun r => r.2) = false
      ↔ ¬ ∃ r ∈ p.scn.triggers.editRow rack fun _ => false, r.2 = true := by
    rw [← Bool.not_eq_true, List.any_eq_true]
  rw [Part.releaseTrigger, if_pos pass, Part.walkIfReleased]
  by_cases held : ∃ r ∈ p.scn.triggers.editRow rack fun _ => false, r.2 = true
  · rw [if_neg fun h => marks.1 h.2 held, if_pos held, ← pass]
  · rw [if_pos ⟨pass, marks.2 held⟩, if_neg held]

theorem Part.rackReturns_held {p : Part} {rack : Nat} (down : p.rackState rack = .down) (pass : p.scn.pass = .held) :
    p.rackReturns rack = Part.flagged
      { p with
        scn := { p.scn with
          pending := p.scn.pending.setRow rack false
          triggers := p.scn.triggers.editRow rack fun _ => false
          pass := if ∃ r ∈ p.scn.triggers.editRow rack fun _ => false, r.2 = true then .held else .walking }
        prs := { p.prs with racks := p.prs.racks.editRow rack fun r => { r with state := .up } } } .rack := by
  rw [Part.rackReturns, if_pos down, Part.setFlag_eq_flagged]
  exact congrArg (fun q : Part => q.flagged .rack) (Part.releaseTrigger_held (p := { p with
    scn := { p.scn with pending := p.scn.pending.setRow rack false }
    prs := { p.prs with racks := p.prs.racks.editRow rack fun r => { r with state := .up } } }) rack pass)

end Sys2Proof.Machine

/-! PEER-RESTART: the claim entries yielded to the station, its lanes, and its openers (R47, R68, R76, R119, R130). -/

namespace Sys2Proof.Machine

/-! ## Frames posted one after another -/

/-- The part with control frames at the tail of the control queue. -/
def Part.withFrames (p : Part) (frames : List ControlFrame) : Part :=
  { p with sgp := { p.sgp with control := p.sgp.control ++ frames } }

theorem Part.roomFor_withFrames {p : Part} {k : Nat} {frames : List ControlFrame} (room : p.roomFor (frames.length + k)) :
    (p.withFrames frames).roomFor k := by
  refine ⟨room.1, ?_⟩
  have few := List.length_filter_le (fun f : ControlFrame => !f.body.isBeacon) frames
  have all := room.2
  rw [Part.withFrames, List.filter_append, List.length_append]
  omega

/-! ## Yielded claims return (R68, R76) -/

/-- The CLAIM of an entry that contends again, under an own epoch (R68). -/
def ClaimEntry.contendFrame (epoch : Epoch) (e : ClaimEntry) : ControlFrame :=
  { target := none, epoch := epoch, body := .claim e.stripe e.rank 0x00 (maskOf e.lost) }

/-- The entry in CONTENDING until a moment. -/
def ClaimEntry.contendingTill (due : Nat) (e : ClaimEntry) : ClaimEntry := { e with state := .contending due }

/-- The part with other claim entries. -/
def Part.withClaims (p : Part) (entries : Table ClaimEntry) : Part := { p with clt := { p.clt with entries := entries } }

theorem Part.claimWaits_withFrames {p : Part} {t : StripeId} {frames : List ControlFrame} (waits : p.claimWaits t = false)
    (none_ : ∀ f ∈ frames, f.body.isClaimOf t = false) : (p.withFrames frames).claimWaits t = false := by
  rw [Part.claimWaits, List.any_append, Bool.or_eq_false_iff] at waits ⊢
  refine ⟨?_, waits.2⟩
  rw [Part.withFrames, List.any_append, waits.1]
  simpa using none_

theorem Part.contend_row {p : Part} {n : Nat} {e : ClaimEntry} (rising : p.clt.entries.rising = true)
    (row : p.clt.entries.row? n = some e) (room : p.queueOpen) (fresh : p.claimWaits e.stripe = false) : p.contend n =
      (p.withClaims (p.clt.entries.editRow n (ClaimEntry.contendingTill (p.now + p.claimHoldOff)))).withFrames
        [e.contendFrame p.prs.ownEpoch] := by
  have table : p.clt.entries.setRow n { e with state := .contending (p.now + p.claimHoldOff) } =
      p.clt.entries.editRow n (ClaimEntry.contendingTill (p.now + p.claimHoldOff)) := by
    rw [Table.setRow_eq_editRow rising _ row]
    exact Table.editRow_congr rising fun a there => by
      obtain rfl := Option.some.inj (row.symm.trans there)
      rfl
  rw [Part.contend_queued row room fresh, table]
  rfl

theorem Part.foldl_contend {p : Part} {rows : Table ClaimEntry} (rising : p.clt.entries.rising = true)
    (numbers : rows.numbers.Nodup) (stand : ∀ r ∈ rows, p.clt.entries.row? r.1 = some r.2)
    (stripes : (rows.map fun r => r.2.stripe).Nodup) (fresh : ∀ r ∈ rows, p.claimWaits r.2.stripe = false)
    (room : p.roomFor rows.length) : rows.foldl (fun q r => q.contend r.1) p =
      (p.withClaims (rows.numbers.foldl (fun t n => t.editRow n (ClaimEntry.contendingTill (p.now + p.claimHoldOff)))
        p.clt.entries)).withFrames (rows.map fun r => r.2.contendFrame p.prs.ownEpoch) := by
  induction rows generalizing p with
  | nil => simp [Part.withClaims, Part.withFrames, Table.numbers]
  | cons r rest ih =>
    obtain ⟨apart, numbers⟩ := List.nodup_cons.1 numbers
    obtain ⟨differ, stripes⟩ := List.nodup_cons.1 stripes
    rw [List.length_cons] at room
    have open_ : p.queueOpen := Part.queueOpen_of_roomFor _ (Nat.le_add_left 1 rest.length) room
    rw [List.foldl_cons, Part.contend_row rising (stand r List.mem_cons_self) open_ (fresh r List.mem_cons_self), ih]
    · simp [Part.withClaims, Part.withFrames, Table.numbers, Part.claimHoldOff, Part.setting]
    · exact (Table.rising_editRow _ _ _).trans rising
    · exact numbers
    · intro s member
      refine (Table.row?_editRow _ _ _ _).trans ((if_neg ?_).trans (stand s (List.mem_cons_of_mem _ member)))
      exact fun same => apart (same ▸ List.mem_map_of_mem member)
    · exact stripes
    · intro s member
      refine Part.claimWaits_withFrames (fresh s (List.mem_cons_of_mem _ member)) fun f one => ?_
      obtain rfl := List.mem_singleton.1 one
      have apart : r.2.stripe ≠ s.2.stripe := fun same => differ (List.mem_map.2 ⟨s, member, same.symm⟩)
      simpa [ClaimEntry.contendFrame, FrameBody.isClaimOf] using apart
    · exact Part.roomFor_withFrames (p := p.withClaims _) (by rwa [Nat.add_comm] at room)

/-- The rows of a table that a condition names, edited one after another. -/
theorem editRow_filtered {α : Type} {t : Table α} (rising : t.rising = true) (chosen : α → Bool) (f : α → α) :
    (Table.numbers (t.filter fun r => chosen r.2)).foldl (fun u n => u.editRow n f) t =
      t.map fun r => if chosen r.2 then (r.1, f r.2) else r := by
  have nodup : (Table.numbers (t.filter fun r => chosen r.2)).Nodup :=
    (List.filter_sublist.map _).nodup (Table.nodup_numbers rising)
  rw [Table.foldl_editRow (fun _ => f) _ nodup]
  refine List.map_congr_left fun r member => ?_
  have named : r.1 ∈ Table.numbers (t.filter fun r => chosen r.2) ↔ chosen r.2 = true := by
    refine ⟨fun there => ?_, fun holds => List.mem_map_of_mem (List.mem_filter.2 ⟨member, holds⟩)⟩
    obtain ⟨s, here, same⟩ := List.mem_map.1 there
    obtain ⟨inTable, holds⟩ := List.mem_filter.1 here
    have row := Table.row?_of_mem rising inTable
    rw [same, Table.row?_of_mem rising member] at row
    rwa [Option.some.inj row]
  by_cases holds : chosen r.2 = true
  · rw [if_pos (named.2 holds), if_pos holds]
  · rw [if_neg fun there => holds (named.1 there), if_neg holds]

theorem Part.revertYielded_eq {p : Part} {station : Nat} (rising : p.clt.entries.rising = true)
    (stripes : ((p.yieldsTo station).map fun r => r.2.stripe).Nodup)
    (fresh : ∀ r ∈ p.yieldsTo station, p.claimWaits r.2.stripe = false) (room : p.roomFor (p.yieldsTo station).length) :
    p.revertYielded station =
      (p.withClaims (p.clt.entries.map fun r =>
        if r.2.yieldedTo station then (r.1, r.2.contendingTill (p.now + p.claimHoldOff)) else r)).withFrames
        ((p.yieldsTo station).map fun r => r.2.contendFrame p.prs.ownEpoch) := by
  have fold : p.revertYielded station = (p.yieldsTo station).foldl (fun q r => q.contend r.1) p := rfl
  have table := editRow_filtered rising (fun e => e.yieldedTo station) (ClaimEntry.contendingTill (p.now + p.claimHoldOff))
  rw [fold, Part.foldl_contend (rows := p.yieldsTo station) rising ((List.filter_sublist.map _).nodup (Table.nodup_numbers rising))
    (fun r member => Table.row?_of_mem rising (List.mem_filter.1 member).1) stripes fresh room]
  exact congrArg (fun t => (p.withClaims t).withFrames _) table

/-! ## Lanes re-open (R119) -/

/-- The OPEN of a lane that re-opens, under an own epoch (R119). -/
def Lane.reOpenFrame? (station : Nat) (epoch : Epoch) (n : Nat) (l : Lane) : Option ControlFrame :=
  l.use.map fun u =>
    { target := some station, epoch := epoch, body := .fetchOpen u.stripe (BitVec.ofNat 8 u.position) (fetchTag n l.useCount) }

/-- The lane re-opened, if it is in use. -/
def Lane.reOpened (l : Lane) : Lane := { l with use := l.use.map LaneUse.reOpened }

/-- The part with other lanes and another control queue. -/
def Part.withLanes (p : Part) (lanes : Table Lane) (control : List ControlFrame) : Part :=
  { p with ftu := lanes, sgp := { p.sgp with control := control } }

theorem LaneUse.firstMissing_dropRequest (u : LaneUse) :
    ({ u with bank0 := u.bank0.dropRequest, bank1 := u.bank1.dropRequest } : LaneUse).firstMissing = u.firstMissing := by
  have full (c : Nat) : (({ u with bank0 := u.bank0.dropRequest, bank1 := u.bank1.dropRequest } : LaneUse).bankOf c).fullFor c
      = (u.bankOf c).fullFor c := by
    unfold LaneUse.bankOf
    split <;> exact Bank.fullFor_dropRequest _ _
  unfold LaneUse.firstMissing
  simp only [full]

/-- A lane's re-open below the limit, where the control queue has room (R119). -/
theorem Part.reOpen_lane {p : Part} {n : Nat} {l : Lane} {u : LaneUse} (rising : p.ftu.rising = true)
    (row : p.ftu.row? n = some l) (use : l.use = some u) (few : u.reOpens < 2) (room : p.queueOpen) : p.reOpen n =
      p.withLanes (p.ftu.editRow n Lane.reOpened) ((p.sgp.control.filter fun f => !f.body.isRequestOf n) ++
        [{ target := some u.server, epoch := p.prs.ownEpoch
           body := .fetchOpen u.stripe (BitVec.ofNat 8 u.position) (fetchTag n l.useCount) }]) := by
  have used : p.laneUse? n = some u := by
    rw [Part.laneUse?, Part.lane, row]
    exact use
  have posted := Part.postOpen_setUse (p := p.withdrawRequests n) used (Part.queueOpen_withdrawRequests room n) u.reOpened
  have effect : p.reOpen n = ((p.withdrawRequests n).setUse n u.reOpened).postOpen n u := by
    simp only [Part.reOpen, used, LaneUse.firstMissing_dropRequest]
    exact if_neg (Nat.not_le_of_lt few)
  have table : p.ftu.editRow n (fun l => { l with use := some u.reOpened }) = p.ftu.editRow n Lane.reOpened :=
    Table.editRow_congr rising fun a there => by
      obtain rfl := Option.some.inj (row.symm.trans there)
      rw [Lane.reOpened, use]
      rfl
  have lane : p.lane n = l := by rw [Part.lane, row]; rfl
  rw [effect, posted, Part.withdrawRequests_noneHeld room.1 n, ← table]
  rw [← lane]
  rfl

theorem Lane.fetchesFrom_iff (l : Lane) (station : Nat) :
    l.fetchesFrom station = true ↔ ∃ u, l.use = some u ∧ u.active = true ∧ u.server = station := by
  unfold Lane.fetchesFrom
  cases l.use <;> simp

/-- PEER-RESTART at one lane (R119). -/
def Part.laneRestart (station : Nat) (p : Part) (n : Nat) : Part :=
  match p.laneUse? n with
  | none => p
  | some u => if u.active && u.server == station then p.reOpen n else p

theorem Part.lanesPeerRestart_fold (p : Part) (station : Nat) :
    p.lanesPeerRestart station = p.ftu.numbers.foldl (Part.laneRestart station) p := rfl

theorem Part.laneRestart_fetches {p : Part} {n station : Nat} {u : LaneUse} (use : p.laneUse? n = some u)
    (active : u.active = true) (server : u.server = station) : p.laneRestart station n = p.reOpen n := by
  simp [Part.laneRestart, use, active, server]

theorem Part.laneRestart_other {p : Part} {n station : Nat}
    (other : ∀ u, p.laneUse? n = some u → u.active = true → u.server ≠ station) : p.laneRestart station n = p := by
  unfold Part.laneRestart
  split
  · rfl
  · next u use =>
    refine if_neg fun fetches => ?_
    obtain ⟨active, server⟩ := Bool.and_eq_true_iff.1 fetches
    exact other u use active (beq_iff_eq.1 server)

theorem laneOfTag_fetchTag {n : Nat} (lane : n ≤ 127) (useCount : BitVec 8) : laneOfTag (fetchTag n useCount) = n := by
  have count := useCount.isLt
  rw [laneOfTag, fetchTag, BitVec.toNat_ofNat, Nat.mod_eq_of_lt (by omega)]
  omega

theorem Part.foldl_laneRestart {p : Part} {station : Nat} {rows : Table Lane} (rising : p.ftu.rising = true)
    (numbers : rows.numbers.Nodup) (stand : ∀ r ∈ rows, p.ftu.row? r.1 = some r.2) (lanes : ∀ r ∈ rows, r.1 ≤ 127)
    (few : ∀ r ∈ rows, r.2.fetchesFrom station = true → ∀ u, r.2.use = some u → u.reOpens < 2)
    {fetching : Table Lane} (fetching_eq : fetching = rows.filter fun r => r.2.fetchesFrom station)
    (room : p.roomFor fetching.length) : rows.numbers.foldl (Part.laneRestart station) p =
      p.withLanes (fetching.numbers.foldl (fun t n => t.editRow n Lane.reOpened) p.ftu)
        ((p.sgp.control.filter fun f => fetching.all fun r => !f.body.isRequestOf r.1)
          ++ fetching.filterMap fun r => r.2.reOpenFrame? station p.prs.ownEpoch r.1) := by
  induction rows generalizing p fetching with
  | nil =>
    subst fetching_eq
    simp [Part.withLanes, Table.numbers]
  | cons r rest ih =>
    obtain ⟨apart, numbers⟩ := List.nodup_cons.1 numbers
    have used : p.laneUse? r.1 = r.2.use := by
      rw [Part.laneUse?, Part.lane, stand r List.mem_cons_self]
      rfl
    change (Table.numbers rest).foldl (Part.laneRestart station) (p.laneRestart station r.1) = _
    cases fetches : r.2.fetchesFrom station with
    | false =>
      have same : p.laneRestart station r.1 = p := Part.laneRestart_other fun u use active server => by
        rw [(Lane.fetchesFrom_iff _ _).2 ⟨u, used.symm.trans use, active, server⟩] at fetches
        cases fetches
      rw [same]
      refine ih rising numbers (fun s member => stand s (List.mem_cons_of_mem _ member))
        (fun s member => lanes s (List.mem_cons_of_mem _ member)) (fun s member => few s (List.mem_cons_of_mem _ member))
        ?_ room
      rw [fetching_eq, List.filter_cons, fetches]
      rfl
    | true =>
      obtain ⟨u, use, active, server⟩ := (Lane.fetchesFrom_iff _ _).1 fetches
      obtain ⟨later, later_eq⟩ : ∃ later : Table Lane, later = rest.filter fun r => r.2.fetchesFrom station := ⟨_, rfl⟩
      have all : fetching = r :: later := by
        rw [fetching_eq, List.filter_cons, fetches, later_eq]
        rfl
      subst all
      rw [List.length_cons] at room
      have open_ : p.queueOpen := Part.queueOpen_of_roomFor _ (Nat.le_add_left 1 later.length) room
      rw [Part.laneRestart_fetches (used.trans use) active server,
        Part.reOpen_lane rising (stand r List.mem_cons_self) use (few r List.mem_cons_self fetches u use) open_]
      refine (ih (fetching := later) ((Table.rising_editRow _ _ _).trans rising) numbers (fun s member => ?_)
          (fun s member => lanes s (List.mem_cons_of_mem _ member))
          (fun s member => few s (List.mem_cons_of_mem _ member)) later_eq ?_).trans ?_
      · refine (Table.row?_editRow _ _ _ _).trans ((if_neg ?_).trans (stand s (List.mem_cons_of_mem _ member)))
        exact fun same => apart (same ▸ List.mem_map_of_mem member)
      · have withdrawn : (p.withLanes (p.ftu.editRow r.1 Lane.reOpened)
            (p.sgp.control.filter fun f => !f.body.isRequestOf r.1)).roomFor (1 + later.length) := by
          refine ⟨room.1, Nat.le_trans (Nat.add_le_add_right (List.filter_sublist.filter _).length_le _) ?_⟩
          rw [Nat.add_comm 1]
          exact room.2
        exact Part.roomFor_withFrames (frames := [_]) withdrawn
      · have opens : r.2.reOpenFrame? station p.prs.ownEpoch r.1 = some
            { target := some u.server, epoch := p.prs.ownEpoch
              body := .fetchOpen u.stripe (BitVec.ofNat 8 u.position) (fetchTag r.1 r.2.useCount) } := by
          rw [Lane.reOpenFrame?, use, server]
          rfl
        have stays : (later.all fun s => !FrameBody.isRequestOf s.1 (.fetchOpen u.stripe (BitVec.ofNat 8 u.position)
            (fetchTag r.1 r.2.useCount))) = true := List.all_eq_true.2 fun s member => by
          have here : s ∈ rest := (List.mem_filter.1 (later_eq ▸ member)).1
          have differs : r.1 ≠ s.1 := fun same => apart (same ▸ List.mem_map_of_mem here)
          simpa [FrameBody.isRequestOf, laneOfTag_fetchTag (lanes r List.mem_cons_self)] using differs
        simp only [Part.withLanes, List.filter_append, List.filter_filter, List.filterMap_cons, opens, List.all_cons,
          List.filter_cons, stays, if_true, List.filter_nil, List.append_assoc, List.singleton_append, Table.numbers,
          List.map_cons, List.foldl_cons, Bool.and_comm]

end Sys2Proof.Machine

/-! PEER-RESTART as a whole: where something hears of it, and where nothing does (R41, R47, R76, R119, R130). -/

namespace Sys2Proof.Machine

/-- PEER-RESTART at the lanes, where none of the station's has re-opened twice (R119). -/
theorem Part.lanesPeerRestart_reOpened {p : Part} {station : Nat} (rising : p.ftu.rising = true)
    (few : ∀ r ∈ p.lanesFrom station, ∀ u, r.2.use = some u → u.reOpens < 2) (numbers : ∀ r ∈ p.ftu, r.1 ≤ 127)
    (room : p.roomFor (p.lanesFrom station).length) : p.lanesPeerRestart station =
      p.withLanes (p.ftu.map fun r => if r.2.fetchesFrom station then (r.1, r.2.reOpened) else r)
        ((p.sgp.control.filter fun f => (p.lanesFrom station).all fun r => !f.body.isRequestOf r.1)
          ++ (p.lanesFrom station).filterMap fun r => r.2.reOpenFrame? station p.prs.ownEpoch r.1) := by
  have fold := Part.foldl_laneRestart (rows := p.ftu) (station := station) rising (Table.nodup_numbers rising)
    (fun r member => Table.row?_of_mem rising member) numbers
    (fun r member fetches => few r (List.mem_filter.2 ⟨member, fetches⟩)) (fetching := p.lanesFrom station) rfl room
  rw [Part.lanesPeerRestart_fold, fold]
  exact congrArg (fun t => p.withLanes t _) (editRow_filtered rising (fun l => l.fetchesFrom station) Lane.reOpened)

/-- PEER-RESTART of a station under its new epoch, where no lane of it is at its re-open limit (R41, R47). -/
theorem Part.deliverPeerRestart_restarted {p : Part} {station : Nat} {epoch : Epoch} (can : p.CanRestart station epoch)
    (known : (p.peer? station).bind Peer.epoch = some epoch) :
    p.deliverPeerRestart station = p.restarted station epoch := by
  obtain ⟨lanesRise, servesRise, claimsRise⟩ := can.rising
  obtain ⟨claims, claims_eq⟩ : ∃ claims, claims = (p.yieldsTo station).map fun r => r.2.contendFrame p.prs.ownEpoch := ⟨_, rfl⟩
  obtain ⟨opens, opens_eq⟩ : ∃ opens, opens =
    (p.lanesFrom station).filterMap fun r => r.2.reOpenFrame? station p.prs.ownEpoch r.1 := ⟨_, rfl⟩
  have yields := Part.revertYielded_eq (p := p.requestSweep) (station := station) claimsRise can.stripes can.claims
    ⟨can.room.1, Nat.le_trans (Nat.add_le_add_left (Nat.le_add_right _ _) _) can.room.2⟩
  have room : p.roomFor (claims.length + (p.lanesFrom station).length) := by
    rw [claims_eq, List.length_map]
    exact can.room
  obtain ⟨q, q_eq⟩ : ∃ q, q = p.requestSweep.revertYielded station := ⟨_, rfl⟩
  rw [← q_eq] at yields
  have same : q = (p.requestSweep.withClaims (p.clt.entries.map fun r =>
      if r.2.yieldedTo station then (r.1, r.2.contendingTill (p.now + p.claimHoldOff)) else r)).withFrames claims :=
    yields.trans (by rw [claims_eq]; rfl)
  have ftu : q.ftu = p.ftu := by rw [same]; rfl
  have lanes : q.lanesPeerRestart station =
      q.withLanes (p.ftu.map fun r => if r.2.fetchesFrom station then (r.1, r.2.reOpened) else r)
        ((q.sgp.control.filter fun f => (p.lanesFrom station).all fun r => !f.body.isRequestOf r.1) ++ opens) := by
    have from_ : q.lanesFrom station = p.lanesFrom station := by rw [Part.lanesFrom, ftu]; rfl
    rw [Part.lanesPeerRestart_reOpened (p := q) (by rw [ftu]; exact lanesRise) (by rw [from_]; exact can.lanes)
      (by rw [ftu]; exact can.numbers) ?_, from_, ftu, show q.prs = p.prs by rw [same]; rfl, ← opens_eq]
    rw [from_, same]
    exact Part.roomFor_withFrames (p := p.requestSweep.withClaims _) room
  have stay : (q.sgp.control.filter fun f => (p.lanesFrom station).all fun r => !f.body.isRequestOf r.1) =
      (p.sgp.control.filter fun f => (p.lanesFrom station).all fun r => !f.body.isRequestOf r.1) ++ claims := by
    have all : claims.filter (fun f => (p.lanesFrom station).all fun r => !f.body.isRequestOf r.1) = claims := by
      refine List.filter_eq_self.2 fun f member => ?_
      rw [claims_eq] at member
      obtain ⟨r, -, rfl⟩ := List.mem_map.1 member
      exact List.all_eq_true.2 fun _ _ => rfl
    rw [same]
    exact (List.filter_append _ _).trans (congrArg _ all)
  have told : p.deliverPeerRestart station = (q.lanesPeerRestart station).removeOpenersEverywhere
      (Opener.isStaleRemoteOf station (((q.lanesPeerRestart station).peer? station).bind Peer.epoch)) := by
    rw [q_eq]
    rfl
  rw [told, lanes, stay]
  obtain ⟨r, r_eq⟩ : ∃ r, r = q.withLanes (p.ftu.map fun r => if r.2.fetchesFrom station then (r.1, r.2.reOpened) else r)
    ((p.sgp.control.filter fun f => (p.lanesFrom station).all fun r => !f.body.isRequestOf r.1) ++ claims ++ opens) := ⟨_, rfl⟩
  have svu : r.svu = p.svu := by rw [r_eq, same]; rfl
  have prs : r.prs = p.prs := by rw [r_eq, same]; rfl
  rw [← r_eq, show r.peer? station = p.peer? station by rw [Part.peer?, prs]; rfl, known,
    Part.removeOpenersEverywhere_entries (by rw [svu]; exact servesRise) fun s member any => ?_]
  · rw [svu, r_eq, same, claims_eq, opens_eq]
    rfl
  · rw [svu] at member
    exact can.openers s member (List.any_eq_true.1 any)

/-! ## Nothing hears of it (R47) -/

/-- No opener that a condition names. -/
def Part.noOpener (p : Part) (leaves : Opener → Bool) : Prop :=
  ∀ r ∈ p.svu.entries, ∀ o ∈ r.2.openers, leaves o = false

theorem Part.removeOpenersEverywhere_none {p : Part} {leaves : Opener → Bool} (none_ : p.noOpener leaves) :
    p.removeOpenersEverywhere leaves = p := by
  have each (l : List Nat) : l.foldl (fun q n => q.removeOpeners n leaves) p = p := by
    induction l with
    | nil => rfl
    | cons n rest ih =>
      have same : p.removeOpeners n leaves = p := by
        cases row : p.serve? n with
        | none => simp [Part.removeOpeners, row]
        | some e =>
          refine Part.removeOpeners_none row (List.any_eq_false.2 fun o member => ?_)
          simp [none_ (n, e) (Table.row?_mem row) o member]
      rw [List.foldl_cons, same, ih]
  exact each _

theorem Part.revertYielded_none {p : Part} {station : Nat} (none_ : p.yieldsTo station = []) :
    p.revertYielded station = p := by
  have fold : p.revertYielded station = (p.yieldsTo station).foldl (fun q r => q.contend r.1) p := rfl
  rw [fold, none_]
  rfl

theorem Part.foldl_laneRestart_none {p : Part} {station : Nat} {l : List Nat}
    (other : ∀ n ∈ l, ∀ u, p.laneUse? n = some u → u.active = true → u.server ≠ station) :
    l.foldl (Part.laneRestart station) p = p := by
  induction l with
  | nil => rfl
  | cons n rest ih =>
    rw [List.foldl_cons, Part.laneRestart_other (other n List.mem_cons_self),
      ih fun m member => other m (List.mem_cons_of_mem _ member)]

theorem Opener.isStaleRemoteOf_remote {o : Opener} {station : Nat} {epoch : Option Epoch}
    (stale : o.isStaleRemoteOf station epoch = true) : o.isRemoteOf station = true := by
  cases o with
  | internal => exact absurd stale Bool.false_ne_true
  | remote s t e a => exact (Bool.and_eq_true_iff.1 stale).1

theorem Part.deliverPeerRestart_alone {p : Part} {station : Nat} (alone : p.independentOf station) :
    p.deliverPeerRestart station = p.requestSweep := by
  obtain ⟨claims, -, lanes, openers⟩ := alone
  have yields : p.requestSweep.revertYielded station = p.requestSweep := Part.revertYielded_none <|
    List.filter_eq_nil_iff.2 fun r member => by simp [claims r member]
  have fetches : p.requestSweep.lanesPeerRestart station = p.requestSweep := by
    rw [Part.lanesPeerRestart_fold]
    refine Part.foldl_laneRestart_none fun n _ u use _ server => ?_
    obtain ⟨lane, row, used⟩ : ∃ lane, p.ftu.row? n = some lane ∧ lane.use = some u :=
      (Part.laneUse?_eq_some p n u).1 use
    exact lanes (n, lane) (Table.row?_mem row) (by rw [used, ← server]; rfl)
  rw [Part.deliverPeerRestart, yields, fetches]
  refine Part.removeOpenersEverywhere_none fun r member o here => Bool.eq_false_iff.2 fun stale => ?_
  cases (openers r member o here).symm.trans (Opener.isStaleRemoteOf_remote stale)

end Sys2Proof.Machine

/-! A lane of a restarted station at its re-open limit, and the BEACON as a whole (R38, R41, R118, R119). -/

namespace Sys2Proof.Machine

/-! ## What the failure of a lane leaves (R94, R95, R101, R118) -/

theorem Part.laneUse?_editRow_other (p : Part) {n m : Nat} (other : m ≠ n) (f : Lane → Lane) :
    Part.laneUse? { p with ftu := p.ftu.editRow n f } m = p.laneUse? m := by
  rw [Part.laneUse?, Part.laneUse?, Part.lane, Part.lane, Table.row?_editRow, if_neg other]

/-- The roster as it was, and no lane but one in use that was not, or otherwise. -/
def Part.OthersStand (p q : Part) (n : Nat) : Prop :=
  q.prs = p.prs ∧ ∀ m, m ≠ n → q.laneUse? m = none ∨ q.laneUse? m = p.laneUse? m

theorem Part.OthersStand.trans {p q r : Part} {n : Nat} (one : p.OthersStand q n) (two : q.OthersStand r n) :
    p.OthersStand r n := by
  obtain ⟨prs, lanes⟩ := one
  obtain ⟨prs', lanes'⟩ := two
  refine ⟨prs'.trans prs, fun m other => ?_⟩
  rcases lanes' m other with idle | same
  · exact .inl idle
  · exact (lanes m other).imp same.trans same.trans

theorem Part.othersStand_enterFailed {p : Part} {n : Nat} {u : LaneUse} (use : p.laneUse? n = some u)
    (cause : LaneFailure) : p.OthersStand (p.enterFailed n cause) n := by
  rw [Part.enterFailed_rest use cause]
  exact ⟨rfl, fun m other => .inr (Part.laneUse?_editRow_other p other _)⟩

theorem Part.othersStand_rePlan {p : Part} {c : Nat} {x : Context} (inUse : p.context? c = some x)
    (new : Option Positions) (n : Nat) : p.OthersStand (p.rePlan c new) n := by
  by_cases many : 8 ≤ x.rePlans
  · rw [Part.rePlan_limit inUse many]
    refine ⟨Part.abandon_kept inUse _ Part.prs fun _ _ _ _ _ _ _ _ _ => rfl, fun m _ => ?_⟩
    rw [Part.laneUse?_abandon inUse]
    split
    · exact .inl rfl
    · exact .inr rfl
  · have plans := Part.rePlan_replans inUse (Nat.lt_of_not_le many) new
    refine ⟨(congrArg Part.prs plans.rest :), fun m _ => ?_⟩
    rw [plans.uses m]
    split
    · exact .inl rfl
    · exact .inr rfl

theorem Part.gatheringAt_inUse {p : Part} {c : Nat} {generation : BitVec 8} (gathers : p.gatheringAt c generation = true) :
    ∃ x, p.context? c = some x ∧ x.pendingOutcome = none ∧ x.state = .gathering ∧ p.generation c = generation := by
  unfold Part.gatheringAt at gathers
  split at gathers
  · next x inUse => exact ⟨x, inUse, by simpa [Context.live, and_assoc] using gathers⟩
  · cases gathers

theorem Part.othersStand_failLane {p : Part} {n : Nat} {u : LaneUse} (use : p.laneUse? n = some u) {cause : LaneFailure}
    (kept : cause ≠ .serverLost) : p.OthersStand (p.failLane n cause) n := by
  have failed := Part.othersStand_enterFailed use cause
  cases gathers : p.gatheringAt u.context u.generation with
  | false =>
    have same : p.failLane n cause = p.enterFailed n cause := by
      have gathers' : (p.enterFailed n cause).gatheringAt u.context u.generation = false := by
        rw [Part.enterFailed_rest use]
        exact gathers
      simp only [Part.failLane, Part.reportFailedLane, Part.laneUse?_enterFailed use, LaneUse.failedWith, gathers',
        Bool.false_eq_true, if_false]
    rw [same]
    exact failed
  | true =>
    obtain ⟨x, inUse, -, -, -⟩ := Part.gatheringAt_inUse gathers
    have inUse' : (p.enterFailed n cause).context? u.context = some x := by
      rw [Part.enterFailed_rest use]
      exact inUse
    rw [Part.failLane_rePlan use cause gathers kept]
    exact failed.trans (Part.othersStand_rePlan (p := (p.enterFailed n cause).markUnusable u.context u.position)
      (Part.context?_editContext inUse' _) none n)

/-! ## Openers only leave (R134) -/

theorem Part.noOpener.freeServe {p : Part} {leaves : Opener → Bool} (none_ : p.noOpener leaves) (n : Nat) :
    (p.freeServe n).noOpener leaves := by
  unfold Part.freeServe
  split
  · exact none_
  · intro r member
    rw [Part.svu_giveUpSlot] at member
    exact none_ r (List.mem_filter.1 member).1

theorem Part.noOpener.setServe {p : Part} {leaves : Opener → Bool} (none_ : p.noOpener leaves) {n : Nat} {e : ServeEntry}
    (entry : ∀ o ∈ e.openers, leaves o = false) : (p.setServe n e).noOpener leaves := fun r member =>
  (Table.mem_setRow member).elim (fun same => by rw [same]; exact entry) fun there => none_ r there

theorem Part.noOpener.removeOpeners {p : Part} {leaves : Opener → Bool} (none_ : p.noOpener leaves) (n : Nat)
    (gone : Opener → Bool) : (p.removeOpeners n gone).noOpener leaves := by
  unfold Part.removeOpeners
  split
  · exact none_
  · next e row =>
    split
    · dsimp only
      split
      · exact (none_.setServe fun o member => absurd member List.not_mem_nil).freeServe n
      · exact none_.setServe fun o member =>
          none_ (n, e) (Table.row?_mem row) o (List.mem_filter.1 member).1
    · exact none_

theorem Part.noOpener.detachOpener {p : Part} {leaves : Opener → Bool} (none_ : p.noOpener leaves) (c : Nat) :
    (p.detachOpener c).noOpener leaves := by
  have each (l : List Nat) : ∀ q : Part, q.noOpener leaves →
      (l.foldl (fun q n => q.removeOpeners n (Opener.isInternalOf c)) q).noOpener leaves := by
    induction l with
    | nil => exact fun _ h => h
    | cons n rest ih => exact fun q h => ih _ (h.removeOpeners n _)
  exact each p.svu.entries.numbers p none_

theorem Part.noOpener.abandon {p : Part} {leaves : Opener → Bool} (none_ : p.noOpener leaves) {c : Nat} {x : Context}
    (inUse : p.context? c = some x) (cause : AbandonCause) : (p.abandon c cause).noOpener leaves := by
  have given : (p.lanesGiven c x).svu = p.svu := by
    rw [Part.lanesGiven_rest]
    rfl
  have detached : ((p.lanesGiven c x).detachOpener c).noOpener leaves :=
    Part.noOpener.detachOpener (p := p.lanesGiven c x) (by rw [Part.noOpener, given]; exact none_) c
  have meaning : p.releaseContext c = (((x.lostList.filterMap LostEntry.requestedTag?).foldl Part.voidTag
      ((p.lanesGiven c x).detachOpener c)).editContext c Context.released).giveUpSlots
        (x.lostList.filterMap LostEntry.slot) := by
    simp only [Part.releaseContext, inUse]
    rfl
  have svu : (p.releaseContext c).svu = ((p.lanesGiven c x).detachOpener c).svu := by
    rw [meaning, Part.svu_giveUpSlots]
    exact Part.svu_voidTags _ _
  obtain ⟨ctx, clt, hdt, smc, sgp, hlk, rest⟩ := Part.abandon_rest inUse cause
  rw [rest, Part.noOpener]
  change ∀ r ∈ (p.releaseContext c).svu.entries, _
  rw [svu]
  exact detached

end Sys2Proof.Machine

/-! A BEACON of a member (R38, R40, R41, R44, R47). -/

namespace Sys2Proof.Machine

theorem Part.rising_abandon {p : Part} {c : Nat} {x : Context} (inUse : p.context? c = some x)
    (rising : p.ctx.contexts.rising = true) (cause : AbandonCause) : (p.abandon c cause).ctx.contexts.rising = true := by
  have released := Part.releaseContext_releasedTo inUse
  obtain ⟨q, q_eq⟩ : ∃ q, q = p.releaseContext c := ⟨_, rfl⟩
  rw [← q_eq] at released
  have before : q.ctx.contexts.rising = true := by
    rw [released.rest]
    exact (Table.rising_editRow _ _ _).trans rising
  have decided : p.abandon c cause = if q.reportPathFull = true then
      q.editContext c fun z => { z with pendingOutcome := some (.abandoned cause) } else q.completeAbandoned c cause := by
    rw [q_eq]
    rfl
  rw [decided]
  split
  · exact (Table.rising_editRow q.ctx.contexts c fun z => { z with pendingOutcome := some (.abandoned cause) }).trans before
  · have posted := Part.post_eq q none (.withdraw x.stripe (WithdrawReason.abandoned).code 0xFF#8 (maskOf []))
    obtain ⟨a, a_eq⟩ : ∃ a, a = ((q.withdrawPlain x.stripe .abandoned).removeClaimOf x.stripe).setStanding x.stripe []
        .quiet := ⟨_, rfl⟩
    have kept : a.ctx = q.ctx := by
      rw [a_eq, Part.setStanding, Part.updateStripe_rest, Part.removeClaimOf_rest]
      exact (congrArg Part.ctx posted :)
    have after : q.completeAbandoned c cause = (a.postReport (.repairAbandoned cause x.stripe)).freeContext c := by
      rw [Part.completeAbandoned_eq (released.context?_self inUse), a_eq]
      rfl
    rw [after, Part.postReport_of_same (p := a) (q := a) rfl rfl]
    change (a.ctx.contexts.dropRow c).rising = true
    rw [kept]
    exact Table.rising_dropRow c before

/-! ## The one lane at its re-open limit (R118, R119) -/

section
variable {p : Part} {station n : Nat} {lane : Lane} {u : LaneUse} (rising : p.ftu.rising = true)
  (one : p.lanesFrom station = [(n, lane)]) (use : lane.use = some u)
include rising one use

theorem Part.laneUse?_one : p.laneUse? n = some u := by
  have member : (n, lane) ∈ p.lanesFrom station := by rw [one]; exact List.mem_cons_self
  exact (Part.laneUse?_eq_some p n u).2 ⟨lane, Table.row?_of_mem rising (List.mem_filter.1 member).1, use⟩

/-- The PEER-RESTART of a station from which one lane fetches, which has re-opened twice (R119). -/
theorem Part.lanesPeerRestart_one (many : 2 ≤ u.reOpens) :
    p.lanesPeerRestart station = p.failLane n .reOpenLimit := by
  have used := Part.laneUse?_one rising one use
  have member : (n, lane) ∈ p.lanesFrom station := by rw [one]; exact List.mem_cons_self
  obtain ⟨inTable, fetches⟩ := List.mem_filter.1 member
  obtain ⟨v, use', active, server⟩ := (Lane.fetchesFrom_iff _ _).1 fetches
  obtain rfl := Option.some.inj (use.symm.trans use')
  have others : ∀ m, m ≠ n → ∀ v, p.laneUse? m = some v → v.active = true → v.server ≠ station :=
    fun m other v use' active server => by
      obtain ⟨l, row, held⟩ := (Part.laneUse?_eq_some p m v).1 use'
      have there : (m, l) ∈ p.lanesFrom station := List.mem_filter.2
        ⟨Table.row?_mem row, (Lane.fetchesFrom_iff _ _).2 ⟨v, held, active, server⟩⟩
      rw [one, List.mem_singleton] at there
      exact other (congrArg Prod.fst there)
  obtain ⟨-, stand⟩ := Part.othersStand_failLane used (cause := .reOpenLimit) (by decide)
  have nodup := Table.nodup_numbers rising
  obtain ⟨first, last, split⟩ := List.append_of_mem (show n ∈ p.ftu.numbers from List.mem_map_of_mem inTable)
  rw [split, List.nodup_append] at nodup
  obtain ⟨-, nodup, apart⟩ := nodup
  have before : first.foldl (Part.laneRestart station) p = p := Part.foldl_laneRestart_none fun m here =>
    others m (apart m here n List.mem_cons_self)
  have after : last.foldl (Part.laneRestart station) (p.failLane n .reOpenLimit) = p.failLane n .reOpenLimit :=
    Part.foldl_laneRestart_none fun m here v use' => by
      have other : m ≠ n := fun same => (List.nodup_cons.1 nodup).1 (same ▸ here)
      rcases stand m other with idle | same
      · exact absurd (idle.symm.trans use') nofun
      · exact others m other v (same.symm.trans use')
  rw [Part.lanesPeerRestart_fold, split, List.foldl_append, before, List.foldl_cons,
    Part.laneRestart_fetches used active server, Part.reOpen_limit used many, after]

theorem Part.deliverPeerRestart_limit (many : 2 ≤ u.reOpens) (yields : p.yieldsTo station = []) {epoch : Epoch}
    (known : (p.peer? station).bind Peer.epoch = some epoch)
    (none_ : (p.requestSweep.failLane n .reOpenLimit).noOpener (Opener.isStaleRemoteOf station (some epoch))) :
    p.deliverPeerRestart station = p.requestSweep.failLane n .reOpenLimit := by
  have reverted : p.requestSweep.revertYielded station = p.requestSweep := Part.revertYielded_none yields
  have lanes := Part.lanesPeerRestart_one (p := p.requestSweep) rising one use many
  obtain ⟨prs, -⟩ := Part.othersStand_failLane (p := p.requestSweep)
    (Part.laneUse?_one (p := p.requestSweep) rising one use) (cause := .reOpenLimit) (by decide)
  have told : p.deliverPeerRestart station = (p.requestSweep.failLane n .reOpenLimit).removeOpenersEverywhere
      (Opener.isStaleRemoteOf station (((p.requestSweep.failLane n .reOpenLimit).peer? station).bind Peer.epoch)) := by
    rw [Part.deliverPeerRestart, reverted, lanes]
  have same : (p.requestSweep.failLane n .reOpenLimit).peer? station = p.peer? station := by
    rw [Part.peer?, prs]
    rfl
  rw [told, same, known, Part.removeOpenersEverywhere_none none_]

end

/-- The part with another roster of stations. -/
def Part.withPeers (p : Part) (peers : Table Peer) : Part := { p with prs := { p.prs with peers := peers } }

theorem Part.withPeers_laneFailed (p : Part) (n : Nat) (u : LaneUse) (peers : Table Peer) :
    (p.laneFailed n u .reOpenLimit).withPeers peers = (p.withPeers peers).laneFailed n u .reOpenLimit := rfl

theorem Part.withPeers_rePlanned (p : Part) (c : Nat) (x : Context) (position : Option Nat) (peers : Table Peer) :
    (p.rePlanned c x position).withPeers peers = (p.withPeers peers).rePlanned c x position := rfl

end Sys2Proof.Machine

/-! What a BEACON does, by the state of its sender's record (R38, R40, R41, R44, R47). -/

namespace Sys2Proof.Machine

/-- A record in which a BEACON is heard under a new epoch (R38, R41). -/
def Peer.heardAnew (h : FrameHeader) (said : PeerStatus) (contexts : Byte) (r : Peer) : Peer :=
  { r with heard := true, status := some said, load := some contexts.toNat, epoch := some h.epoch, link := some h.source }

/-- The part in which a BEACON is heard under a new epoch: its status, its load, the epoch and the address recorded
(R38, R41). -/
def Part.restartHeard (p : Part) (h : FrameHeader) (said : PeerStatus) (contexts : Byte) : Part :=
  p.withPeers (p.prs.peers.editRow h.sender.toNat (Peer.heardAnew h said contexts))

section
variable {p : Part} {h : FrameHeader} {before : Peer} {rack contexts : Byte} {said : PeerStatus}
  (member : p.peer? h.sender.toNat = some before) (same : rack.toNat = before.rack)

include member in
theorem Part.restartHeard_epoch :
    (((p.restartHeard h said contexts).peer? h.sender.toNat).bind Peer.epoch) = some h.epoch := by
  have row : (p.restartHeard h said contexts).peer? h.sender.toNat = 
      (p.peer? h.sender.toNat).map (Peer.heardAnew h said contexts) := (Table.row?_editRow _ _ _ _).trans (if_pos rfl)
  rw [row, member]
  rfl

variable (new : before.epoch ≠ some h.epoch)
include member same new

/-- A BEACON of a PRESENT station under a new epoch is a restart of it (R41). -/
theorem Part.takeBeacon_presentRestart (state : before.state = .present) : p.takeBeacon h rack said.code contexts =
    (p.restartHeard h said contexts).deliverPeerRestart h.sender.toNat := by
  rw [(Part.takeBeacon_member said member same rfl).2.2.2 state, if_neg new, Part.peerRestarts, Part.editPeer_editPeer]
  rfl

/-- A BEACON of a SILENT station under a new epoch is a restart of it, and makes it PRESENT (R40, R41). -/
theorem Part.takeBeacon_silentRestart (state : before.state = .silent) : p.takeBeacon h rack said.code contexts =
    (((p.restartHeard h said contexts).deliverPeerRestart h.sender.toNat).editPeer h.sender.toNat
      Peer.nowPresent).deliverPeerPresent := by
  rw [(Part.takeBeacon_member said member same rfl).2.2.1 state, if_neg new, Part.peerRestarts, Part.editPeer_editPeer]
  rfl

/-! ## At the re-open limit -/

/-- What follows a restart: nothing for a PRESENT station, and PEER-PRESENT for a SILENT one (R40). -/
def AgainAfter (before : Peer) (missed : Nat) (again : Part → Part) : Prop :=
  (before.state = .present ∧ missed = before.missed ∧ ∀ q, again q = q)
    ∨ (before.state = .silent ∧ missed = 0 ∧ ∀ q, again q = q.planningAgain)

variable {missed : Nat} {again : Part → Part} (follows : AgainAfter before missed again) {peers : Table Peer}
  (peers_eq : peers = p.prs.peers.editRow h.sender.toNat fun r =>
    { r with heard := true, status := some said, load := some contexts.toNat, missed := missed,
             state := .present, epoch := some h.epoch, link := some h.source })
  (stations : p.prs.peers.rising = true) {n : Nat} {u : LaneUse} {lane : Lane} (rising : p.ftu.rising = true)
  (yields : p.yieldsTo h.sender.toNat = []) (one : p.lanesFrom h.sender.toNat = [(n, lane)]) (use : lane.use = some u)
  (many : 2 ≤ u.reOpens)
include follows peers_eq stations rising yields one use many

/-- A restart at which the one lane of the station fails at its re-open limit (R118, R119). -/
theorem Part.takeBeacon_limit {failed : Part}
    (failed_eq : failed = (p.restartHeard h said contexts).requestSweep.failLane n .reOpenLimit)
    (none_ : failed.noOpener (Opener.isStaleRemoteOf h.sender.toNat (some h.epoch)))
    (contextsRise : failed.ctx.contexts.rising = true) :
    p.takeBeacon h rack said.code contexts = again (failed.withPeers peers) := by
  have restart : (p.restartHeard h said contexts).deliverPeerRestart h.sender.toNat = failed := by
    rw [failed_eq] at none_ ⊢
    exact Part.deliverPeerRestart_limit (p := p.restartHeard h said contexts) rising one use many yields
      (Part.restartHeard_epoch member) none_
  have prs : failed.prs = (p.restartHeard h said contexts).prs := by
    rw [failed_eq]
    exact (Part.othersStand_failLane (p := (p.restartHeard h said contexts).requestSweep)
      (Part.laneUse?_one (p := (p.restartHeard h said contexts).requestSweep) rising one use)
      (cause := .reOpenLimit) (by decide)).1
  rcases follows with ⟨state, rfl, stays⟩ | ⟨state, rfl, plans⟩
  · have roster : peers = failed.prs.peers := by
      rw [prs, peers_eq]
      refine Table.editRow_congr (g := Peer.heardAnew h said contexts) stations fun r row => ?_
      obtain rfl := Option.some.inj (member.symm.trans row)
      rw [← state]
      rfl
    rw [Part.takeBeacon_presentRestart member same new state, restart, stays, roster]
    rfl
  · have roster : failed.prs.peers.editRow h.sender.toNat Peer.nowPresent = peers := by
      rw [prs, peers_eq]
      exact Table.editRow_editRow p.prs.peers h.sender.toNat (Peer.heardAnew h said contexts) Peer.nowPresent
    have settled : failed.editPeer h.sender.toNat Peer.nowPresent = failed.withPeers peers :=
      congrArg failed.withPeers roster
    rw [Part.takeBeacon_silentRestart member same new state, restart, plans, settled,
      Part.deliverPeerPresent_eq (p := failed.withPeers peers) contextsRise]

end

end Sys2Proof.Machine

/-! A BEACON of a member, told by the state of its record, and a restart at a lane's re-open limit (R38 to R47, R118,
R119). -/

namespace Sys2Proof.Machine

section
variable {p : Part} {h : FrameHeader} {before : Peer} {rack contexts : Byte} {said : PeerStatus}
  (member : p.peer? h.sender.toNat = some before) (same : rack.toNat = before.rack) (new : before.epoch ≠ some h.epoch)
  {missed : Nat} {again : Part → Part} (follows : AgainAfter before missed again) {peers : Table Peer}
  (peers_eq : peers = p.prs.peers.editRow h.sender.toNat fun r =>
    { r with heard := true, status := some said, load := some contexts.toNat, missed := missed,
             state := .present, epoch := some h.epoch, link := some h.source })
  (stations : p.prs.peers.rising = true) {n : Nat} {u : LaneUse} {lane : Lane} (rising : p.ftu.rising = true)
  (yields : p.yieldsTo h.sender.toNat = []) (one : p.lanesFrom h.sender.toNat = [(n, lane)]) (use : lane.use = some u)
  (many : 2 ≤ u.reOpens) (contextsRise : p.ctx.contexts.rising = true)
  (none_ : p.noOpener (Opener.isStaleRemoteOf h.sender.toNat (some h.epoch))) {base : Part}
  (base_eq : base = p.requestSweep.withPeers peers)
include member same new follows peers_eq stations rising yields one use many contextsRise none_ base_eq

theorem Part.takeBeacon_limitAlone (still : p.gatheringAt u.context u.generation = false) (room : p.queueOpen) :
    p.takeBeacon h rack said.code contexts = again (base.laneFailed n u .reOpenLimit) := by
  have used := Part.laneUse?_one rising one use
  have failed := Part.failLane_alone (p := (p.restartHeard h said contexts).requestSweep) (cause := .reOpenLimit) used still
    fun _ => room
  obtain ⟨sgp, rest⟩ := Part.laneFailed_same (p.restartHeard h said contexts).requestSweep n u .reOpenLimit
  rw [Part.takeBeacon_limit member same new follows peers_eq stations rising yields one use many failed.symm
    (by rw [rest]; exact none_) (by rw [rest]; exact contextsRise), base_eq]
  rfl

theorem Part.takeBeacon_limitRePlans {x : Context} (plain : p.CanRePlan u.context u.generation x) (tries : x.rePlans < 8) :
    p.takeBeacon h rack said.code contexts =
      again ((base.laneFailed n u .reOpenLimit).rePlanned u.context x (some u.position)) := by
  have used := Part.laneUse?_one rising one use
  have failed := Part.failLane_rePlans (p := (p.restartHeard h said contexts).requestSweep) (cause := .reOpenLimit) used
    (plain.of_same rfl rfl rfl rising) tries
  rw [Part.takeBeacon_limit member same new follows peers_eq stations rising yields one use many failed.symm ?_ ?_, base_eq]
  · rfl
  · intro r there o here
    obtain ⟨s, member', rfl⟩ := List.mem_map.1 there
    exact none_ s member' o (List.mem_filter.1 here).1
  · simp only [Part.rePlanned, Table.rising_editRow]
    exact contextsRise

theorem Part.takeBeacon_limitAbandons {x : Context} (gathers : p.gatheringAt u.context u.generation = true)
    (inUse : p.context? u.context = some x) (tries : 8 ≤ x.rePlans) (records : p.hdt.rising = true) :
    ∃ r, base.abandoned r u.context x .rePlanLimit ∧ p.takeBeacon h rack said.code contexts = again r := by
  have used := Part.laneUse?_one rising one use
  obtain ⟨y, inUse', live, state, current⟩ := Part.gatheringAt_inUse gathers
  obtain rfl := Option.some.inj (inUse.symm.trans inUse')
  obtain ⟨q, q_eq⟩ : ∃ q, q = (p.restartHeard h said contexts).requestSweep := ⟨_, rfl⟩
  have fails : q.FailsIn q u.context x :=
    ⟨⟨x.contributions, x.chunksComplete, by rw [q_eq]; exact inUse⟩, fun _ _ => rfl, rfl, rfl, rfl, rfl, rfl, .rfl⟩
  have usedQ : q.laneUse? n = some u := by rw [q_eq]; exact used
  have ends := fails.abandons usedQ live state (by rw [q_eq]; exact current) (cause := .reOpenLimit) (by decide) tries
    (by rw [q_eq]; exact records)
  have failed := Part.failLane_rePlan usedQ .reOpenLimit (by rw [q_eq]; exact gathers) (by decide)
  obtain ⟨a, a_eq⟩ : ∃ a, a = (q.enterFailed n .reOpenLimit).markUnusable u.context u.position := ⟨_, rfl⟩
  have enters := Part.enterFailed_rest usedQ .reOpenLimit
  have row : ∃ y, a.context? u.context = some y ∧ y.rePlans = x.rePlans := by
    have stays : (q.enterFailed n .reOpenLimit).context? u.context = some x := by
      rw [enters, q_eq]
      exact inUse
    rw [a_eq]
    exact ⟨_, Part.context?_editContext stays _, rfl⟩
  obtain ⟨y, inUseA, samePlans⟩ := row
  rw [← a_eq, Part.rePlan_limit inUseA (samePlans ▸ tries)] at failed
  refine ⟨(q.failLane n .reOpenLimit).withPeers peers, ?_, ?_⟩
  · rw [base_eq]
    rw [q_eq] at ends ⊢
    exact ends
  · refine Part.takeBeacon_limit member same new follows peers_eq stations rising yields one use many (by rw [q_eq]) ?_ ?_
    · rw [failed]
      refine Part.noOpener.abandon ?_ inUseA _
      rw [a_eq, enters, q_eq]
      exact none_
    · rw [failed]
      refine Part.rising_abandon inUseA ?_ _
      rw [a_eq, enters, q_eq]
      simp only [Part.markUnusable, Part.editContext, Table.rising_editRow]
      exact contextsRise

end

theorem Part.CanRestart.withPeers {p : Part} {station : Nat} {epoch : Epoch} (can : p.CanRestart station epoch)
    (peers : Table Peer) : (p.withPeers peers).CanRestart station epoch :=
  ⟨can.lanes, can.numbers, can.openers, can.claims, can.stripes, can.rising, can.room⟩

/-- Settles O25. -/
theorem beaconsAreTaken : Obligations.BeaconsAreTaken := by
  intro w p h rack status contexts before said segment traffic other target member same low code contextsRise
  subst code
  have isRack : rack.toNat ≤ 15 := same ▸ low
  have answers {q : Part} := beacon_answers (q := q) (contexts := contexts) segment traffic other target member w said isRack
  have told := Part.takeBeacon_member (contexts := contexts) said member same rfl
  obtain ⟨absent, lost, silent, present⟩ := told
  have again {q r : Part} (edited : q = r) (rises : r.ctx = p.ctx) : q.deliverPeerPresent = r.planningAgain :=
    edited ▸ Part.deliverPeerPresent_eq (by rw [edited, rises]; exact contextsRise)
  have restarted (q : Part → Part) := congrArg (fun t => q (p.withPeers t))
    (Table.editRow_editRow p.prs.peers h.sender.toNat (Peer.heardAnew h said contexts) Peer.nowPresent)
  have renewed := p.editPeer_editPeer h.sender.toNat
    (fun r => { r with heard := true, status := some said, load := some contexts.toNat })
    (fun r => { r.nowPresent with link := some h.source, epoch := some h.epoch })
  refine ⟨fun state known => ?_, fun state new alone => ?_, fun can new => ⟨fun state => ?_, fun state => ?_⟩,
    fun state known => ?_, fun state new alone => ?_, fun states => ?_, fun state down => ⟨fun pass => ?_, fun pass => ?_⟩,
    fun other' differs => beacon_otherRack segment traffic other target member w said differs, ?_⟩
  · exact answers ((present state).trans (if_pos known))
  · refine answers ?_
    rw [Part.takeBeacon_presentRestart member same new state]
    exact Part.deliverPeerRestart_alone (p := p.restartHeard h said contexts) alone
  · refine answers ?_
    rw [Part.takeBeacon_presentRestart member same new state]
    exact Part.deliverPeerRestart_restarted (can.withPeers _) (Part.restartHeard_epoch member)
  · refine answers ?_
    rw [Part.takeBeacon_silentRestart member same new state, Part.deliverPeerRestart_restarted
      (p := p.restartHeard h said contexts) (can.withPeers _) (Part.restartHeard_epoch member)]
    exact again (restarted fun q => q.restarted h.sender.toNat h.epoch) rfl
  · refine answers ((silent state).trans ((if_pos known).trans ?_))
    exact again (Part.editPeer_editPeer p h.sender.toNat _ Peer.nowPresent) rfl
  · refine answers ?_
    rw [Part.takeBeacon_silentRestart member same new state,
      Part.deliverPeerRestart_alone (p := p.restartHeard h said contexts) alone]
    exact again (restarted Part.requestSweep) rfl
  · rcases states with state | ⟨state, up⟩
    · exact answers ((absent state).trans (again renewed rfl))
    · refine answers ((lost state).trans ?_)
      rw [again renewed rfl]
      exact Part.rackReturns_not up
  · refine answers ((lost state).trans ?_)
    rw [again renewed rfl]
    exact Part.rackReturns_notHeld down pass
  · refine answers ((lost state).trans ?_)
    rw [again renewed rfl]
    exact Part.rackReturns_held down pass
  · intro n u lane missed follow base new follows base_eq stations rising yields one use many none_
    have follows : AgainAfter before missed follow := follows
    have recent : base = p.requestSweep.withPeers _ := base_eq
    refine ⟨fun still room => answers ?_, fun x => ⟨fun plain tries => answers ?_, fun gathers inUse tries records => ?_⟩⟩
    · exact Part.takeBeacon_limitAlone member same new follows rfl stations rising yields one use many contextsRise none_
        recent still room
    · exact Part.takeBeacon_limitRePlans member same new follows rfl stations rising yields one use many contextsRise none_
        recent plain tries
    · obtain ⟨r, ends, effect⟩ := Part.takeBeacon_limitAbandons member same new follows rfl stations rising yields one use many
        contextsRise none_ recent gathers inUse tries records
      obtain ⟨t, next, rest, shown⟩ := answers effect
      exact ⟨t, next, rest, r, ends, shown⟩

end Sys2Proof.Machine
